-- ==== Sys2Proof/Syntax.lean ====
section
/-! DEFINITION. The commands of the block: one constructor of `Instr` per row of
spec/opcode_table.json, with the operands the row's rules give it. A row is a whole, indivisible step
(spec/95_what_each_step_holds.md): a stream command acting through its heat, a host write, a
management request, a frame arriving, or an event of the hardware. -/

namespace Sys2Proof

/-- The three command streams of a cluster (R197): 0 forward, 1 backward, 2 update. -/
inductive StreamName where
  | f | b | u
deriving DecidableEq, Repr

/-- The stream's number (R197). -/
def StreamName.num : StreamName → Nat
  | .f => 0 | .b => 1 | .u => 2

/-- A heat is exactly one command (R201): its cluster, its stream and its index (R198). -/
structure HeatId where
  cluster : Fin 128
  stream  : StreamName
  index   : BitVec 32
deriving DecidableEq, Repr

/-- What the ECC of one 32 B word of a line reported (R193). -/
inductive EccKind where
  | corrected | uncorrectable
deriving DecidableEq, Repr

/-- An error found in one of the four 32 B words of a line (R193). -/
structure EccError where
  word : Fin 4
  kind : EccKind
deriving DecidableEq, Repr

/-- An ECC event in one 8 B word of a pond (R147, R148). -/
structure PondError where
  cluster : Fin 128
  slot    : Fin 6144
  word    : Fin 256
  kind    : EccKind
deriving DecidableEq, Repr

/-- What link training found on a port (R297, R298): the lanes that work, the corrections made and
whether the deskew spans of the two directions differ by more than 2 ns. -/
structure Training where
  lanes    : BitVec 8
  reversed : Bool
  pnSwap   : BitVec 8
  asym     : Bool
  rttNs    : BitVec 16
deriving DecidableEq, Repr

/-- The peer kinds of an identity message (R297, R317). -/
inductive PeerKind where
  | mz1 | vozer
deriving DecidableEq, Repr

/-- The content of an identity message (R297). -/
structure Identity where
  moduleId : BitVec 64
  port     : BitVec 8
  kind     : PeerKind
  stepping : BitVec 8
deriving DecidableEq, Repr

/-- The kinds of a notice (R301, R313, R394, R396). -/
inductive NoticeKind where
  | overrun | fault | lapLockLoss | lateDecision | shardPoison | rebuilt | goingDown
deriving DecidableEq, Repr

/-- A notice travelling to the starter (R301): the sender's position, and the cluster, stream and
kind of the notice. -/
structure Notice where
  pos     : BitVec 16
  cluster : BitVec 8
  stream  : BitVec 8
  kind    : NoticeKind
deriving DecidableEq, Repr

/-- A hurdle contribution or join request (R353, MTYPE 0x04). -/
structure Contribution where
  hseq   : BitVec 32
  hkind  : BitVec 8
  hflags : BitVec 8
  pos    : BitVec 16
  lap    : BitVec 64
  data   : List Byte
deriving DecidableEq, Repr

/-- A hurdle decision or domain action (R353, R355, MTYPE 0x05). -/
structure Decision where
  hseq    : BitVec 32
  hkind   : BitVec 8
  verdict : BitVec 8
  pos     : BitVec 16
  lap     : BitVec 64
  data    : List Byte
  arg     : BitVec 32
deriving DecidableEq, Repr

/-- One reading of the sensors sampled every 1 ms (R447, R453): input voltage in mV, mean input power
over 10 ms in W, temperatures in 0.1 °C, flow in 0.01 L/min, the two leak cables, the hottest die,
and a mask of the sensors that read as failed. -/
structure Sensors where
  vinMv   : Nat
  pinW    : Nat
  inlet   : Int
  outlet  : Int
  flow    : Nat
  reverse : Bool
  leak    : BitVec 2
  hottest : Int
  die     : Fin 5
  failed  : BitVec 32
deriving DecidableEq, Repr

/-- The conditions of the throttle ladder, in the bit order of `PWR_STATE`.ACTIVE (R453). -/
inductive Cond where
  | voltage | power | inlet | flow | die | sensor | leak | regulation
deriving DecidableEq, Repr

/-- The kinds of function reset (R479). -/
inductive FuncReset where
  | flr | hotReset | linkLoss
deriving DecidableEq, Repr

/-- Items of the warm-up sweep (R373). -/
inductive SweepItem where
  | engine (cluster : Fin 128) (phys : Fin 17)
  | pond (cluster : Fin 128) (phys : Fin 17)
  | scrub (stack : Fin 20) (part : Fin 64)
  | margin (port : Fin 16) (lane : Fin 8)
deriving DecidableEq, Repr

/-- What a piece of a sweep item found (R378): nothing yet, the item complete, a failure, or for a
pond march a correctable or uncorrectable word of an EMPTY slot (R147, R148). -/
inductive SweepResult where
  | piece | complete | fail
  | pondWord (e : PondError)
deriving DecidableEq, Repr

/-- What the watchdog finds in a cluster at its deadline (R240). -/
inductive HangKind where
  | core (logical : Fin 16)
  | marshal
deriving DecidableEq, Repr

/-- How a start-up step ended (R472, R477, R478): well, with the given boot slot, or with a failed
rail, a failed HBM stack, or a failed rewrite. -/
inductive StepEnd where
  | done
  | booted (slotB : Bool) (aFailed : Bool) (bFailed : Bool)
  | railFailed (rail : Fin 13)
  | stackFailed (stack : Fin 20)
deriving DecidableEq, Repr

/-- One command of the block. -/
inductive Instr where
  -- stream commands, acting through their heats
  | noOperation (h : HeatId)
  | move (h : HeatId)
  | fill (h : HeatId)
  | release (h : HeatId)
  | copy (h : HeatId)
  | gather (h : HeatId)
  | scatter (h : HeatId)
  | denseMatrix (h : HeatId)
  | sparseMatrix (h : HeatId)
  | vector (h : HeatId)
  | rowReduce (h : HeatId)
  | springMask (h : HeatId)
  | relaySend (h : HeatId)
  | relayReceive (h : HeatId)
  | apply (h : HeatId)
  | propose (h : HeatId)
  | clear (h : HeatId)
  | versionPin (h : HeatId)
  | versionRelease (h : HeatId)
  | signal (h : HeatId)
  | wait (h : HeatId)
  | hurdle (h : HeatId)
  | cancel (h : HeatId)
  | chained (h : HeatId)
  | ctxOpen (h : HeatId)
  | ctxPark (h : HeatId)
  | ctxResume (h : HeatId)
  | ctxCancel (h : HeatId)
  | ctxRetire (h : HeatId)
  | ctxBatch (h : HeatId)
  | ctxRelease (h : HeatId)
  | ctxAdvance (h : HeatId)
  | kvAppend (h : HeatId)
  | kvRead (h : HeatId)
  | sample (h : HeatId)
  -- structure image; `v` is the value written to IMG_CTRL
  | imgLoad (v : BitVec 32)
  | imgLoadDone
  | imgCommit (v : BitVec 32)
  | imgCommitCheckDone
  | imgDiscard (v : BitVec 32)
  -- host writes that have rows of their own
  | streamEnable (cluster : Fin 128) (stream : StreamName) (enable : Bool)
  | hostCancel (cluster : Fin 128) (stream : StreamName) (enable : Bool)
  | doorbell (cluster : Fin 128) (stream : StreamName) (tail : BitVec 32)
  | strRingWrite (cluster : Fin 128) (stream : StreamName) (completion : Bool) (v : BitVec 64)
  | strWsetCfgWrite (w : Fin 64) (v : BitVec 64)
  | strWsetSizeWrite (w : Fin 64) (v : BitVec 32)
  | strWsetVerWrite (w : Fin 64) (v : BitVec 32)
  | strRsetWrite (entry : Fin 8) (reg : Fin 4) (v : BitVec 64)
  | strSigWrite (group : Fin 15) (counter : Fin 64) (v : BitVec 32)
  | unbind (v : BitVec 32)
  | contextRecordWrite (offset : Nat) (data : List Byte)
  | rlyBankSet (v : BitVec 32)
  | rlyLandWrite (t : Fin 256) (v : BitVec 32)
  | portDisable (port : Fin 16) (disable : Bool)
  | retrain (port : Fin 16)
  | clrSuspect (port : Fin 16)
  | rejoin
  | sweepFull
  | secResume
  | revoke (v : BitVec 32)
  | unlock (v : BitVec 32)
  | lock (v : BitVec 32)
  | dbgFuse (v : BitVec 32)
  | hostAperWrite (v : BitVec 64)
  | evtRingWrite (v : BitVec 64)
  | evtEnable (v : BitVec 32)
  | evtHeadWrite (v : BitVec 32)
  | cageFaultClear (bits : BitVec 16)
  | pwrStop (v : BitVec 32)
  | registerWrite (bar2 : Bool) (offset size : Nat) (v : BitVec 64)
  | bar4Read (offset length : Nat) (errs : List (Nat × EccError))
  | bar4Write (offset : Nat) (data : List (Option Byte)) (poisoned : Bool)
  -- management requests
  | readReg (offset length : Nat)
  | readEvent (i : Nat)
  | mctpControl (request : List Byte)
  | pldm (request : List Byte)
  | spdm (request : List Byte)
  -- laps
  | lapTick
  | effectiveEdge
  | lapOverrun
  | lapLockLoss
  | tick (port : Fin 16) (lap : BitVec 64) (period grace : BitVec 16)
  | echoRequest (port : Fin 16) (depart : BitVec 32) (holding : BitVec 32)
  | echoResponse (port : Fin 16) (depart holding : BitVec 32) (roundTripNs : BitVec 32)
  -- marshal
  | fetch (cluster : Fin 128)
  | permitGrant
  | dispatch (cluster : Fin 128) (errs : List PondError)
  | heatRetire (h : HeatId)
  | cancelComplete (h : HeatId)
  | watchdog (cluster : Fin 128) (hang : HangKind)
  | waiterResume (h : HeatId)
  | drain (cluster : Fin 128) (core : Fin 16) (upset : List (Nat × BitVec 32))
  | sparePondCopyDone (cluster : Fin 128)
  -- memory system
  | tokenPeriod (die : Fin 4)
  | requestIssue (id : Nat)
  | readReturn (id : Nat) (errs : List EccError)
  | writeAck (id : Nat) (errs : List EccError)
  | correctedWriteback (die : Fin 4)
  | scrub (line : Nat) (errs : List EccError)
  | ucieLaneFailure (link : Fin 8) (repairable : Bool)
  -- relay links and frames
  | linkTraining (port : Fin 16) (result : Training)
  | identity (port : Fin 16) (id : Identity)
  | laneDrop (port : Fin 16) (lane : Fin 8)
  | linkDown (port : Fin 16)
  | dataFrame (port : Fin 16) (frame : List Byte) (adderFaults : Nat)
  | landingCounterIncrement (i : Nat)
  | acknowledgement (port : Fin 16) (channel : Fin 4) (seq : BitVec 32) (refused : BitVec 16)
  | notice (n : Notice)
  -- domain
  | joinRequest (c : Contribution) (delayNs : BitVec 32)
  | hurdleContribution (c : Contribution)
  | hurdleDecide
  | hurdleDecision (d : Decision)
  | joinRequestRepeat
  | noEchoLoss (pos : Fin 258)
  | standbyTakeover
  | parityPhaseDone
  -- `received`: digests that partners sent, by list place
  | copyPhaseDone (received : List (Nat × BitVec 384))
  -- `solved`: units that the control cores solved for, by offset in the shard image
  | rebuildComplete (solved : List (Nat × List Byte))
  -- `copies`: digests of this shard that surviving partners sent
  | restoreDone (copies : List (BitVec 384))
  -- warm-up sweep
  | sweepItem (item : SweepItem) (result : SweepResult)
  | sweepPost (item : SweepItem)
  | sweepUrgent (item : SweepItem)
  -- event ring
  | eventRingWrite
  -- power, cooling, connectors
  | sensorSample (r : Sensors)
  | hardwareTrip
  | conditionClear (c : Cond)
  | feedIdSample (code : BitVec 8)
  | reverseInput
  | cageSupplyFault (port : Fin 16)
  | cageRefit (port : Fin 16)
  | mgmtContention (pin : Fin 21)
  | contentionRecheck (pin : Fin 21) (clear : Bool)
  -- start-up, reset and shutdown
  | standbyPowerOn (addrSel : BitVec 3) (pwrEn : Bool)
  | inputLoss
  | coldStart
  | mainPathCheck (r : Sensors)
  | startupStepEnd (e : StepEnd)
  | bootFailure
  | orderlyStop
  | stopComplete
  | warmReset
  | perstRelease (width : Fin 3)
  | functionReset (kind : FuncReset)
  | regulationFault (rail : Fin 13)
  | bootSlotRewriteDone (slotB : Bool) (ok : Bool)
  | busMasterEnable (on : Bool)
deriving DecidableEq, Repr

end Sys2Proof
end

