-- ==== Sys2Proof/Decode.lean ====
section
/-! DEFINITION. The command that a word of the opcode table's bits spells. No row of
spec/opcode_table.json gives bits: a command is a structured operation of the block's bus, pins and
clock, not a word. So no word spells one (log entry 1). -/

namespace Sys2Proof

/-- The command spelled by `nbits` bits of value `w`: none, since no row gives bits. -/
def decodeTableWord (_nbits _w : Nat) : Option Instr := none

end Sys2Proof
end

