-- ==== Sys2Proof/Config.lean ====
section
/-! DEFINITION. What one implementation fixes, and the free values: quantities the manual says the
module produces without saying which. Each free value is a constant with no body, so no proof can
see what it is; the assumption log names each (entries 2, 3, 9 and 46). -/

namespace Sys2Proof.Config

/-- The approximated vector functions of R127. -/
inductive Approx where
  | recip | rsqrt | exp | exp2 | log | log2 | sin | cos | tanh | sigmoid | erf | gelu | silu
deriving DecidableEq, Repr

/-- FREE VALUE (log entry 2): the result of an approximated function on an FP32 input. R127 bounds
its error and says it is a fixed function of its input; the bits are not given. -/
opaque approx : Approx → BitVec 32 → BitVec 32

/-- FREE VALUE (log entry 9): the mean and the sum of squared deviations of two runs of elements
together, from the length, mean and sum of squared deviations of each. R129 merges them and gives no
formula; R92 makes the result a function of the operands alone. -/
opaque mergedMoments : Nat × BitVec 32 × BitVec 32 → Nat × BitVec 32 × BitVec 32 → BitVec 32 × BitVec 32

/-- FREE VALUE (log entry 46): element `f` of a context's row at an address outside HBM (R283 says that rows lie in HBM;
`CTX_OPEN` checks layer 0 alone). -/
opaque outsideRow : Nat → Nat → BitVec 32

/-- FREE VALUE (log entry 3): the random values of `BOOT_NONCE` (R435), one for each draw. -/
opaque nonce : Nat → BitVec 256

/-- FREE VALUE (log entry 3): the SHA-384 digests of the boot stages (R433), by measurement index. -/
opaque bootDigest : Nat → BitVec 384

/-- FREE VALUE (log entry 3): the answer to an MCTP control, PLDM or SPDM request (R437), by message
type, request and use. The content follows DMTF standards that the manual names only. -/
opaque mctpAnswer : Nat → List (BitVec 8) → Nat → List (BitVec 8)

/-- FREE VALUE (log entry 3): the bits of a value the manual leaves open, one for each use: word `w`
of use `n`. -/
opaque freeWord : Nat → Nat → BitVec 32

/-- HBM capacity in bytes: 720 GiB (R1, R22). -/
def hbmBytes : Nat := 720 * 2 ^ 30

/-- First address of the cluster pond windows (R22, R28). -/
def pondBase : Nat := 0x100000000000

/-- Size of one cluster's pond window (R28). -/
def pondWindow : Nat := 0x1000000

/-- Slots of one cluster (R28). -/
def slotsPerCluster : Nat := 6144

/-- Bytes of one slot (R28). -/
def slotBytes : Nat := 2048

/-- Clusters in the module (R15). -/
def clusters : Nat := 128

/-- FREE VALUE (log entry 115): the due lap that the sweep gives an item, in laps after its last completion, by the
item's key and the laps of 60 minutes; R376 asks only that it leaves room for escalation. -/
opaque sweepDue : Nat → Nat → Nat

/-- Request slots of one stack, and the caps for one bank and one pseudo-channel (R178). -/
def slotsPerStack : Nat := 12288
def bankCap : Nat := 256
def channelCap : Nat := 1024

/-- Limits on outstanding requests (R180, R181). -/
def dmaLimit : Nat := 4096
def dmaWriteLimit : Nat := 1024
def gatherLimit : Nat := 1024
def gatherStreamLimit : Nat := 512
def hDieLimit : Nat := 8192
def scrubLimit : Nat := 64

/-- Line tokens created in each period of 2.5 ns, and the most one class holds (R183). -/
def tokensPerPeriod : Nat := 115
def tokenCap : Nat := 512

/-- Scoreboard entries of one marshal and entries reserved for an enabled stream (R227, R228). -/
def scoreboardEntries : Nat := 256
def reservedEntries : Nat := 32

/-- Reduction-buffer entries of one relay port (R295). -/
def reductionEntries : Nat := 7680

/-- Event buffer: general and reserved entries (R427). -/
def evtGeneral : Nat := 256
def evtReserved : Nat := 64

end Sys2Proof.Config
end

