-- ==== Sys2Proof/Machine/Maps.lean ====
section
/-! DEFINITION. Sparse maps with numeric keys, in one canonical form: keys strictly rising, and no
entry equal to the value an unlisted key reads as. Register files, tables, tags and memory are held
this way, so that equal contents are equal data. -/

namespace Sys2Proof.Machine

/-- A sparse map from numbers to values. -/
abbrev AMap (α : Type) := List (Nat × α)

/-- The value at key `k`; `d` is what an unlisted key reads as. -/
def AMap.get {α : Type} (d : α) : AMap α → Nat → α
  | [], _ => d
  | (j, v) :: m, k => if j = k then v else AMap.get d m k

/-- The map without key `k`. -/
def AMap.erase {α : Type} : AMap α → Nat → AMap α
  | [], _ => []
  | (j, v) :: m, k => if j = k then AMap.erase m k else (j, v) :: AMap.erase m k

/-- The map with `v` listed at key `k`, keys kept rising. -/
def AMap.insert {α : Type} : AMap α → Nat → α → AMap α
  | [], k, v => [(k, v)]
  | (j, w) :: m, k, v =>
    if k < j then (k, v) :: (j, w) :: m
    else if k = j then (k, v) :: m
    else (j, w) :: AMap.insert m k v

/-- The map with `v` at key `k`, in canonical form. -/
def AMap.set {α : Type} [DecidableEq α] (d : α) (m : AMap α) (k : Nat) (v : α) : AMap α :=
  if v = d then AMap.erase m k else AMap.insert m k v

/-- The map with the value at key `k` changed by `f`. -/
def AMap.upd {α : Type} [DecidableEq α] (d : α) (m : AMap α) (k : Nat) (f : α → α) : AMap α :=
  AMap.set d m k (f (AMap.get d m k))

/-- Every key is at least `lo` and keys rise strictly, and no entry holds `d`. -/
def AMap.okFrom {α : Type} [DecidableEq α] (d : α) : Nat → AMap α → Bool
  | _, [] => true
  | lo, (k, v) :: m => decide (lo ≤ k) && decide (v ≠ d) && AMap.okFrom d (k + 1) m

/-- The canonical form. -/
def AMap.wf {α : Type} [DecidableEq α] (d : α) (m : AMap α) : Bool := AMap.okFrom d 0 m

/-- A set of numbers as a sparse map. -/
abbrev NSet := AMap Bool

/-- Membership. -/
def NSet.has (s : NSet) (k : Nat) : Bool := AMap.get false s k

/-- The set with `k` in it. -/
def NSet.add (s : NSet) (k : Nat) : NSet := AMap.set false s k true

/-- The set without `k`. -/
def NSet.del (s : NSet) (k : Nat) : NSet := AMap.set false s k false

/-- The first element of a list that passes a test, with the list without it. -/
def takeFirst {α : Type} (p : α → Bool) : List α → Option (α × List α)
  | [] => none
  | a :: l =>
    if p a then some (a, l)
    else match takeFirst p l with
      | none => none
      | some (b, r) => some (b, a :: r)

/-- The list with `f` applied to every element that passes `p`. -/
def updWhere {α : Type} (p : α → Bool) (f : α → α) (l : List α) : List α :=
  l.map fun a => if p a then f a else a

/-- The list without repeats, first places kept. -/
def nub {α : Type} [DecidableEq α] : List α → List α → List α
  | [], acc => acc.reverse
  | a :: l, acc => if a ∈ acc then nub l acc else nub l (a :: acc)

end Sys2Proof.Machine
end

