-- ==== Sys2Proof/Machine/Crypto.lean ====
section
/-! DEFINITION. The checks and digests the module computes: CRC-32C, SHA-384 (FIPS 180-4) and the
ECDSA P-384 verification of FIPS 186-5 (R66, R430, R431). All are plain functions of bytes. -/

namespace Sys2Proof.Machine

/-! ### CRC-32C -/

/-- One bit of the reflected CRC-32C (polynomial 0x1EDC_6F41, reflected 0x82F6_3B78). -/
def crcBit (c : Nat) : Nat := if c % 2 == 1 then (c / 2).xor 0x82F63B78 else c / 2

/-- `n` bits of the CRC. -/
def crcBits : Nat → Nat → Nat
  | 0, c => c
  | n + 1, c => crcBits n (crcBit c)

/-- The CRC register after a byte string. -/
def crcFold : Nat → List Byte → Nat
  | c, [] => c
  | c, b :: bs => crcFold (crcBits 8 (c.xor b.toNat)) bs

/-- CRC-32C of a byte string (R284, R299, R385): initial value and final inversion all ones. -/
def crc32c (bs : List Byte) : W32 := BitVec.ofNat 32 ((crcFold 0xFFFFFFFF bs).xor 0xFFFFFFFF)

/-! ### SHA-384 -/

/-- The low `n` words of 64 bits of a number, most significant first. -/
def wordsOf : Nat → Nat → List W64
  | 0, _ => []
  | n + 1, v => wordsOf n (v / 2 ^ 64) ++ [BitVec.ofNat 64 v]

/-- The round constants of SHA-384 (FIPS 180-4), sixteen to a number. -/
def shaTable : List Nat := [
  0x428a2f98d728ae227137449123ef65cdb5c0fbcfec4d3b2fe9b5dba58189dbbc3956c25bf348b53859f111f1b605d019923f82a4af194f9bab1c5ed5da6d8118d807aa98a303024212835b0145706fbe243185be4ee4b28c550c7dc3d5ffb4e272be5d74f27b896f80deb1fe3b1696b19bdc06a725c71235c19bf174cf692694,
  0xe49b69c19ef14ad2efbe4786384f25e30fc19dc68b8cd5b5240ca1cc77ac9c652de92c6f592b02754a7484aa6ea6e4835cb0a9dcbd41fbd476f988da831153b5983e5152ee66dfaba831c66d2db43210b00327c898fb213fbf597fc7beef0ee4c6e00bf33da88fc2d5a79147930aa72506ca6351e003826f142929670a0e6e70,
  0x27b70a8546d22ffc2e1b21385c26c9264d2c6dfc5ac42aed53380d139d95b3df650a73548baf63de766a0abb3c77b2a881c2c92e47edaee692722c851482353ba2bfe8a14cf10364a81a664bbc423001c24b8b70d0f89791c76c51a30654be30d192e819d6ef5218d69906245565a910f40e35855771202a106aa07032bbd1b8,
  0x19a4c116b8d2d0c81e376c085141ab532748774cdf8eeb9934b0bcb5e19b48a8391c0cb3c5c95a634ed8aa4ae3418acb5b9cca4f7763e373682e6ff3d6b2b8a3748f82ee5defb2fc78a5636f43172f6084c87814a1f0ab728cc702081a6439ec90befffa23631e28a4506cebde82bde9bef9a3f7b2c67915c67178f2e372532b,
  0xca273eceea26619cd186b8c721c0c207eada7dd6cde0eb1ef57d4f7fee6ed17806f067aa72176fba0a637dc5a2c898a6113f9804bef90dae1b710b35131c471b28db77f523047d8432caab7b40c724933c9ebe0a15c9bebc431d67c49c100d4c4cc5d4becb3e42b6597f299cfc657e2a5fcb6fab3ad6faec6c44198c4a475817]

/-- The 80 round constants of SHA-384. -/
def shaK : List W64 := (shaTable.map (wordsOf 16)).flatten

/-- The eight working words of SHA-384. -/
structure Sha where
  a : W64
  b : W64
  c : W64
  d : W64
  e : W64
  f : W64
  g : W64
  h : W64
deriving DecidableEq, Repr

/-- The working words held in a number, `a` in its top word. -/
def Sha.ofNat (v : Nat) : Sha :=
  let w := fun i => BitVec.ofNat 64 (v / 2 ^ (64 * (7 - i)))
  { a := w 0, b := w 1, c := w 2, d := w 3, e := w 4, f := w 5, g := w 6, h := w 7 }

/-- The initial hash value of SHA-384. -/
def Sha.init : Sha := Sha.ofNat
  0xcbbb9d5dc1059ed8629a292a367cd5079159015a3070dd17152fecd8f70e593967332667ffc00b318eb44a8768581511db0c2e0d64f98fa747b5481dbefa4fa4

/-- One round with schedule word `w` and constant `k`. -/
def Sha.round (s : Sha) (k w : W64) : Sha :=
  let e1 := s.e.rotateRight 14 ^^^ s.e.rotateRight 18 ^^^ s.e.rotateRight 41
  let ch := (s.e &&& s.f) ^^^ (~~~s.e &&& s.g)
  let t1 := s.h + e1 + ch + k + w
  let a0 := s.a.rotateRight 28 ^^^ s.a.rotateRight 34 ^^^ s.a.rotateRight 39
  let maj := (s.a &&& s.b) ^^^ (s.a &&& s.c) ^^^ (s.b &&& s.c)
  ⟨t1 + (a0 + maj), s.a, s.b, s.c, s.d + t1, s.e, s.f, s.g⟩

/-- The rounds of one block: the last 16 schedule words are kept, oldest first. -/
def Sha.rounds : List W64 → List W64 → Sha → Sha
  | k :: ks, w :: ws, s =>
    let w14 := ws.getD 13 0
    let w1 := ws.getD 0 0
    let s1 := w14.rotateRight 19 ^^^ w14.rotateRight 61 ^^^ (w14 >>> 6)
    let s0 := w1.rotateRight 1 ^^^ w1.rotateRight 8 ^^^ (w1 >>> 7)
    let next := s1 + ws.getD 8 0 + s0 + w
    Sha.rounds ks (ws ++ [next]) (s.round k w)
  | _, _, s => s

def Sha.add (s t : Sha) : Sha :=
  ⟨s.a + t.a, s.b + t.b, s.c + t.c, s.d + t.d, s.e + t.e, s.f + t.f, s.g + t.g, s.h + t.h⟩

/-- The big-endian number a byte string spells. -/
def beNat (bs : List Byte) : Nat := bs.foldl (fun v b => v * 256 + b.toNat) 0

/-- The `n` bytes of `v`, most significant first. -/
def beBytes (n v : Nat) : List Byte := (leBytes n v).reverse

/-- One 128-byte block. -/
def Sha.block (s : Sha) (bs : List Byte) : Sha :=
  let ws := (List.range 16).map fun i => BitVec.ofNat 64 (beNat ((bs.drop (8 * i)).take 8))
  s.add (Sha.rounds shaK ws s)

/-- `n` blocks of a padded message. -/
def Sha.blocks : Nat → List Byte → Sha → Sha
  | 0, _, s => s
  | n + 1, bs, s => Sha.blocks n (bs.drop 128) (s.block (bs.take 128))

/-- The SHA-384 digest of a byte string, big-endian. -/
def sha384 (m : List Byte) : Nat :=
  let z := (239 - m.length % 128) % 128
  let p := m ++ [0x80#8] ++ List.replicate z 0#8 ++ beBytes 16 (8 * m.length)
  let s := Sha.blocks (p.length / 128) p Sha.init
  (((((s.a.toNat * 2 ^ 64 + s.b.toNat) * 2 ^ 64 + s.c.toNat) * 2 ^ 64 + s.d.toNat) * 2 ^ 64
    + s.e.toNat) * 2 ^ 64 + s.f.toNat)

/-! ### ECDSA over P-384 -/

/-- The field prime, the curve coefficient b, the order and the base point of P-384. -/
def ecP : Nat := 2 ^ 384 - 2 ^ 128 - 2 ^ 96 + 2 ^ 32 - 1
def ecB : Nat := 0xb3312fa7e23ee7e4988e056be3f82d19181d9c6efe8141120314088f5013875ac656398d8a2ed19d2a85c8edd3ec2aef
def ecN : Nat := 0xffffffffffffffffffffffffffffffffffffffffffffffffc7634d81f4372ddf581a0db248b0a77aecec196accc52973
def ecGx : Nat := 0xaa87ca22be8b05378eb1c71ef320ad746e1d3b628ba79b9859f741e082542a385502f25dbf55296c3a545e3872760ab7
def ecGy : Nat := 0x3617de4a96262c6f5d9e98bf9292dc29f8f41dbd289a147ce9da3113b5f0b8c00a60b1ce1d7e819d7a431d7c90ea0e5f

/-- `b ^ e` modulo `m`, over the low `k` bits of `e`. -/
def powMod (m : Nat) : Nat → Nat → Nat → Nat
  | 0, _, _ => 1 % m
  | k + 1, b, e =>
    let r := powMod m k (b * b % m) (e / 2)
    if e % 2 == 1 then r * b % m else r

/-- The inverse modulo a 384-bit prime. -/
def invMod (m a : Nat) : Nat := powMod m 384 a (m - 2)

/-- A point of the curve in Jacobian coordinates; z = 0 is the point at infinity. -/
structure EcPoint where
  x : Nat
  y : Nat
  z : Nat
deriving DecidableEq, Repr

def EcPoint.zero : EcPoint := ⟨1, 1, 0⟩

def subMod (m a b : Nat) : Nat := (a + m - b % m) % m

/-- The double of a point (a = −3). -/
def EcPoint.dbl (p : EcPoint) : EcPoint :=
  if p.z == 0 || p.y == 0 then .zero
  else
    let zz := p.z * p.z % ecP
    let s := 4 * (p.x * (p.y * p.y % ecP) % ecP) % ecP
    let m := 3 * (subMod ecP p.x zz * ((p.x + zz) % ecP) % ecP) % ecP
    let x := subMod ecP (m * m % ecP) (2 * s)
    let y4 := (p.y * p.y % ecP) * (p.y * p.y % ecP) % ecP
    ⟨x, subMod ecP (m * subMod ecP s x % ecP) (8 * y4), 2 * (p.y * p.z % ecP) % ecP⟩

/-- The sum of two points. -/
def EcPoint.add (p q : EcPoint) : EcPoint :=
  if p.z == 0 then q
  else if q.z == 0 then p
  else
    let z1 := p.z * p.z % ecP
    let z2 := q.z * q.z % ecP
    let u1 := p.x * z2 % ecP
    let u2 := q.x * z1 % ecP
    let s1 := p.y * (q.z * z2 % ecP) % ecP
    let s2 := q.y * (p.z * z1 % ecP) % ecP
    if u1 == u2 then (if s1 == s2 then p.dbl else .zero)
    else
      let h := subMod ecP u2 u1
      let r := subMod ecP s2 s1
      let hh := h * h % ecP
      let hhh := h * hh % ecP
      let v := u1 * hh % ecP
      let x := subMod ecP (subMod ecP (r * r % ecP) hhh) (2 * v)
      ⟨x, subMod ecP (r * subMod ecP v x % ecP) (s1 * hhh), h * (p.z * q.z % ecP) % ecP⟩

/-- `k` times a point, over the low `n` bits of `k`. -/
def EcPoint.mul : Nat → Nat → EcPoint → EcPoint
  | 0, _, _ => .zero
  | n + 1, k, p =>
    let r := EcPoint.mul n (k / 2) p.dbl
    if k % 2 == 1 then r.add p else r

/-- Whether (r, s) is a signature of a 384-bit digest by the key with coordinates x, y (FIPS 186-5).
A key that is no point of the curve verifies nothing. -/
def ecdsaVerify (x y digest r s : Nat) : Bool :=
  if r == 0 || s == 0 || r ≥ ecN || s ≥ ecN then false
  else if x ≥ ecP || y ≥ ecP then false
  else if y * y % ecP != (x * x % ecP * x + 3 * (ecP - x) + ecB) % ecP then false
  else
    let w := invMod ecN s
    let p := (EcPoint.mul 384 (digest * w % ecN) ⟨ecGx, ecGy, 1⟩).add
      (EcPoint.mul 384 (r * w % ecN) ⟨x, y, 1⟩)
    if p.z == 0 then false
    else
      let zi := invMod ecP p.z
      p.x * (zi * zi % ecP) % ecP % ecN == r

end Sys2Proof.Machine
end

