-- ==== Sys2Proof/Machine/Float.lean ====
section
/-! DEFINITION. Number formats and arithmetic (R79 to R94): element codes, exact values, rounding,
conversion, the FP32 operations of the vector unit, the array's tree and the MX block rule. Every
value is an exact dyadic number; each operation computes exactly and rounds once (R85). -/

namespace Sys2Proof.Machine

/-- The element formats of R79. -/
inductive Fmt where
  | fp32 | bf16 | e4m3 | e5m2
  | mxE4m3 | mxE5m2 | mxE2m3 | mxE3m2 | mxE2m1
  | int8 | int32 | int16 | e8m0
deriving DecidableEq, Repr

/-- The format of a 4-bit code (R79); codes 0xD to 0xF are invalid. -/
def Fmt.ofCode : Nat → Option Fmt
  | 0x0 => some .fp32 | 0x1 => some .bf16 | 0x2 => some .e4m3 | 0x3 => some .e5m2
  | 0x4 => some .mxE4m3 | 0x5 => some .mxE5m2 | 0x6 => some .mxE2m3 | 0x7 => some .mxE3m2
  | 0x8 => some .mxE2m1 | 0x9 => some .int8 | 0xA => some .int32 | 0xB => some .int16
  | 0xC => some .e8m0 | _ => none

/-- Bits of one stored element (R79). -/
def Fmt.bits : Fmt → Nat
  | .fp32 | .int32 => 32
  | .bf16 | .int16 => 16
  | .e4m3 | .e5m2 | .mxE4m3 | .mxE5m2 | .int8 | .e8m0 => 8
  | .mxE2m3 | .mxE3m2 => 6
  | .mxE2m1 => 4

/-- The MX formats carry block scales (R83). -/
def Fmt.isMx : Fmt → Bool
  | .mxE4m3 | .mxE5m2 | .mxE2m3 | .mxE3m2 | .mxE2m1 => true
  | _ => false

/-- The sub-byte formats (R81). -/
def Fmt.subByte : Fmt → Bool
  | .mxE2m3 | .mxE3m2 | .mxE2m1 => true
  | _ => false

/-- Bytes of one 32-element block of a sub-byte format (R81, R153). -/
def Fmt.blockBytes : Fmt → Nat
  | .mxE2m3 | .mxE3m2 => 24
  | .mxE2m1 => 16
  | f => 4 * f.bits

def Fmt.isInt : Fmt → Bool
  | .int8 | .int32 | .int16 => true
  | _ => false

/-- An exact value: NaN, an infinity, or ±m × 2^e. -/
inductive FV where
  | nan
  | inf (neg : Bool)
  | fin (neg : Bool) (m : Nat) (e : Int)
deriving DecidableEq, Repr

/-- Shape of a binary floating-point element: exponent bits, mantissa bits, bias (R80), and whether
the top exponent holds infinities and NaNs (IEEE), one NaN code (E4M3) or ordinary values. -/
structure FpShape where
  ebits : Nat
  mbits : Nat
  bias  : Int
  ieee  : Bool
  oneNan : Bool
deriving DecidableEq, Repr

/-- The shape of each floating-point element encoding (R80). MX elements share the element encodings
of E4M3, E5M2, E2M3, E3M2 and E2M1. -/
def Fmt.shape : Fmt → FpShape
  | .fp32 => ⟨8, 23, 127, true, false⟩
  | .bf16 => ⟨8, 7, 127, true, false⟩
  | .e4m3 | .mxE4m3 => ⟨4, 3, 7, false, true⟩
  | .e5m2 | .mxE5m2 => ⟨5, 2, 15, true, false⟩
  | .mxE2m3 => ⟨2, 3, 1, false, false⟩
  | .mxE3m2 => ⟨3, 2, 3, false, false⟩
  | .mxE2m1 => ⟨2, 1, 1, false, false⟩
  | _ => ⟨8, 23, 127, true, false⟩

/-- The value of a floating-point code (R80; subnormals at full value, R84). -/
def FpShape.decode (s : FpShape) (c : Nat) : FV :=
  let m := c % 2 ^ s.mbits
  let e := c / 2 ^ s.mbits % 2 ^ s.ebits
  let neg := bit c (s.ebits + s.mbits)
  if s.ieee && e == 2 ^ s.ebits - 1 then (if m == 0 then .inf neg else .nan)
  else if s.oneNan && e == 2 ^ s.ebits - 1 && m == 2 ^ s.mbits - 1 then .nan
  else if e == 0 then .fin neg m (1 - s.bias - (s.mbits : Int))
  else .fin neg (2 ^ s.mbits + m) ((e : Int) - s.bias - (s.mbits : Int))

/-- The value of an E8M0 code (R82). -/
def e8m0Value (c : Nat) : FV := if c == 0xFF then .nan else .fin false 1 ((c : Int) - 127)

/-- The value of an element code of format `f` without its block scale. -/
def Fmt.value (f : Fmt) (c : Nat) : FV :=
  match f with
  | .int8 => let i := signed 8 c; .fin (decide (i < 0)) i.natAbs 0
  | .int16 => let i := signed 16 c; .fin (decide (i < 0)) i.natAbs 0
  | .int32 => let i := signed 32 c; .fin (decide (i < 0)) i.natAbs 0
  | .e8m0 => e8m0Value c
  | _ => f.shape.decode c

/-- Rounding directions: to nearest, ties to even (R85), and toward +∞ (R117's magnitude sums). -/
inductive Round where
  | even | up
deriving DecidableEq, Repr

/-- `m / 2^k` rounded to an integer; `neg` is the sign of the value rounded. -/
def roundShift (r : Round) (neg : Bool) (m k : Nat) : Nat :=
  let q := m / 2 ^ k
  let rem := m % 2 ^ k
  match r with
  | .even => if 2 * rem > 2 ^ k || (2 * rem == 2 ^ k && q % 2 == 1) then q + 1 else q
  | .up => if rem != 0 && !neg then q + 1 else q

/-- Round ±m × 2^e to `p` significant bits with least exponent `qmin` of the last bit: the integer
significand and the exponent of its last bit. -/
def roundSig (r : Round) (p : Nat) (qmin : Int) (neg : Bool) (m : Nat) (e : Int) : Nat × Int :=
  let len : Int := (m.log2 : Int) + 1
  let q := max qmin (e + len - (p : Int))
  if q ≤ e then (m * 2 ^ (e - q).toNat, q)
  else (roundShift r neg m (q - e).toNat, q)

/-- Largest finite significand and exponent of its last bit (R80). -/
def FpShape.largest (s : FpShape) : Nat × Int :=
  let top : Int := 2 ^ s.ebits - 1
  if s.ieee then (2 ^ (s.mbits + 1) - 1, top - 1 - s.bias - s.mbits)
  else if s.oneNan then (2 ^ (s.mbits + 1) - 2, top - s.bias - s.mbits)
  else (2 ^ (s.mbits + 1) - 1, top - s.bias - s.mbits)

/-- The code of a significand and exponent already rounded to the shape. -/
def FpShape.pack (s : FpShape) (neg : Bool) (m : Nat) (q : Int) : Nat :=
  -- a significand that rounded up to the next power of two is renormalised
  let (m, q) := if m == 2 ^ (s.mbits + 1) then (2 ^ s.mbits, q + 1) else (m, q)
  let sgn := b2n neg * 2 ^ (s.ebits + s.mbits)
  if m < 2 ^ s.mbits then sgn + m
  else sgn + (q + s.bias + s.mbits).toNat * 2 ^ s.mbits + (m - 2 ^ s.mbits)

/-- The canonical NaN code (R84). -/
def FpShape.nanCode (s : FpShape) : Nat :=
  if s.ieee then
    -- FP32 0x7FC0_0000 and BF16 0x7FC0 set the top mantissa bit; E5M2's canonical NaN is 0x7F
    if s.mbits == 2 then 0x7F else (2 ^ s.ebits - 1) * 2 ^ s.mbits + 2 ^ (s.mbits - 1)
  else 2 ^ (s.ebits + s.mbits) - 1

def FpShape.infCode (s : FpShape) (neg : Bool) : Nat :=
  b2n neg * 2 ^ (s.ebits + s.mbits) + (2 ^ s.ebits - 1) * 2 ^ s.mbits

def FpShape.maxCode (s : FpShape) (neg : Bool) : Nat :=
  s.pack neg s.largest.1 s.largest.2

/-- Round a value to a shape's code; `sat` chooses the largest finite value, else infinity, for a
finite value beyond the range and for infinities (R86). -/
def FpShape.encode (s : FpShape) (r : Round) (sat : Bool) : FV → Nat
  | .nan => s.nanCode
  | .inf neg => if sat then s.maxCode neg else s.infCode neg
  | .fin neg m e =>
    if m == 0 then b2n neg * 2 ^ (s.ebits + s.mbits) else
    let (m', q) := roundSig r (s.mbits + 1) (1 - s.bias - (s.mbits : Int)) neg m e
    -- tested against the largest finite value after rounding (R86)
    let (lm, lq) := s.largest
    let big := if q ≤ lq then decide (m' > lm * 2 ^ (lq - q).toNat) else decide (m' * 2 ^ (q - lq).toNat > lm)
    if big then (if sat then s.maxCode neg else s.infCode neg) else s.pack neg m' q

/-- An FP32 code. -/
def fp32Shape : FpShape := Fmt.fp32.shape

/-- The value of FP32 bits. -/
def fval (w : W32) : FV := fp32Shape.decode w.toNat

/-- A value rounded to FP32 (R85; overflow gives infinity, R90). -/
def fround (v : FV) : W32 := BitVec.ofNat 32 (fp32Shape.encode .even false v)

/-- A value rounded to FP32 toward +∞ (R117). -/
def froundUp (v : FV) : W32 := BitVec.ofNat 32 (fp32Shape.encode .up false v)

def fnan : W32 := 0x7FC00000#32
def fzero : W32 := 0#32
def fone : W32 := 0x3F800000#32
def fnegInf : W32 := 0xFF800000#32

def fIsNan (w : W32) : Bool := match fval w with | .nan => true | _ => false

/-- NaN or infinite. -/
def fNonFinite (w : W32) : Bool := match fval w with | .fin .. => false | _ => true

/-- The negation of a value. -/
def FV.neg : FV → FV
  | .nan => .nan
  | .inf n => .inf (!n)
  | .fin n m e => .fin (!n) m e

/-- The magnitude of a value. -/
def FV.abs : FV → FV
  | .nan => .nan
  | .inf _ => .inf false
  | .fin _ m e => .fin false m e

/-- The exact sum (R84: the sum of +0 and −0, and of opposite values, is +0). -/
def FV.add : FV → FV → FV
  | .nan, _ => .nan
  | _, .nan => .nan
  | .inf a, .inf b => if a == b then .inf a else .nan
  | .inf a, _ => .inf a
  | _, .inf b => .inf b
  | .fin a m e, .fin b n f =>
    let g := min e f
    let x : Int := (if a then -1 else 1) * ((m * 2 ^ (e - g).toNat : Nat) : Int)
    let y : Int := (if b then -1 else 1) * ((n * 2 ^ (f - g).toNat : Nat) : Int)
    let z := x + y
    if z == 0 then .fin (a && b) 0 g else .fin (decide (z < 0)) z.natAbs g

/-- The exact product (R90: infinity times zero is NaN). -/
def FV.mul : FV → FV → FV
  | .nan, _ => .nan
  | _, .nan => .nan
  | .inf a, .inf b => .inf (xor a b)
  | .inf a, .fin b n _ => if n == 0 then .nan else .inf (xor a b)
  | .fin a m _, .inf b => if m == 0 then .nan else .inf (xor a b)
  | .fin a m e, .fin b n f => .fin (xor a b) (m * n) (e + f)

/-- A quotient, exact or with a sticky last bit far below any rounding position, so that one rounding
of it is the rounding of the exact quotient. -/
def FV.div : FV → FV → FV
  | .nan, _ => .nan
  | _, .nan => .nan
  | .inf _, .inf _ => .nan
  | .inf a, .fin b _ _ => .inf (xor a b)
  | .fin a _ _, .inf b => .fin (xor a b) 0 0
  | .fin a m e, .fin b n f =>
    if n == 0 then (if m == 0 then .nan else .inf (xor a b))
    else
      let k := 80 + n.log2
      let q := m * 2 ^ k / n
      let s := b2n (m * 2 ^ k % n != 0)
      .fin (xor a b) (2 * q + s) (e - f - (k : Int) - 1)

/-- A square root, exact or with a sticky last bit. -/
def FV.sqrt : FV → FV
  | .nan => .nan
  | .inf n => if n then .nan else .inf false
  | .fin n m e =>
    if m == 0 then .fin n 0 0
    else if n then .nan
    else
      let k : Nat := 100 + (e % 2).toNat
      let x := m * 2 ^ k
      let r := Nat.sqrt x
      .fin false (2 * r + b2n (r * r != x)) ((e - (k : Int)) / 2 - 1)

/-- The value times 2^k, exact. -/
def FV.scale (k : Int) : FV → FV
  | .nan => .nan
  | .inf n => .inf n
  | .fin n m e => .fin n m (e + k)

/-- Strict order of values; false when either is NaN (R216: compare). -/
def FV.lt : FV → FV → Bool
  | .nan, _ => false
  | _, .nan => false
  | .inf a, .inf b => a && !b
  | .inf a, .fin .. => a
  | .fin .., .inf b => !b
  | .fin a m e, .fin b n f =>
    let g := min e f
    let x : Int := (if a then -1 else 1) * ((m * 2 ^ (e - g).toNat : Nat) : Int)
    let y : Int := (if b then -1 else 1) * ((n * 2 ^ (f - g).toNat : Nat) : Int)
    decide (x < y)

def FV.isZero : FV → Bool
  | .fin _ 0 _ => true
  | _ => false

def fadd (a b : W32) : W32 := fround ((fval a).add (fval b))
def fsub (a b : W32) : W32 := fround ((fval a).add (fval b).neg)
def fmul (a b : W32) : W32 := fround ((fval a).mul (fval b))
def fdiv (a b : W32) : W32 := fround ((fval a).div (fval b))
def fsqrt (a : W32) : W32 := fround (fval a).sqrt

/-- Fused multiply-add rounds once (R92). -/
def ffma (a b c : W32) : W32 := fround (((fval a).mul (fval b)).add (fval c))

/-- Negation by the sign of the value; a NaN becomes the canonical NaN (R84). -/
def fneg (a : W32) : W32 := fround (fval a).neg

def fabs (a : W32) : W32 := fround (fval a).abs

def fsign (a : W32) : Bool := bit a.toNat 31

/-- Minimum under R216: NaN when either is NaN; min(+0, −0) is −0. -/
def fmin (a b : W32) : W32 :=
  if fIsNan a || fIsNan b then fnan
  else if (fval a).lt (fval b) then a
  else if (fval b).lt (fval a) then b
  else if fsign a then a else b

/-- Maximum under R216: NaN when either is NaN; max(+0, −0) is +0. -/
def fmax (a b : W32) : W32 :=
  if fIsNan a || fIsNan b then fnan
  else if (fval b).lt (fval a) then a
  else if (fval a).lt (fval b) then b
  else if fsign a then b else a

/-- The larger of two non-negative finite FP32 values: amax folds (R94). -/
def amaxFold (a b : W32) : W32 := if (fval a).lt (fval b) then b else a

/-- The integer nearest to a finite value, ties to even. -/
def FV.toIntEven : FV → Int
  | .fin n m e =>
    let q : Nat := if 0 ≤ e then m * 2 ^ e.toNat else roundShift .even n m (-e).toNat
    if n then -(q : Int) else q
  | _ => 0

/-- An integer clamped to a signed `n`-bit range (R86, R91). -/
def satInt (n : Nat) (i : Int) : Int :=
  max (-(2 ^ (n - 1) : Int)) (min (2 ^ (n - 1) - 1 : Int) i)

/-- The code of a value converted to a non-MX format (R86); `ovf` is the command's OVF_IEEE bit. -/
def Fmt.convert (f : Fmt) (ovf : Bool) (v : FV) : Nat :=
  match f with
  | .int8 | .int32 | .int16 =>
    let w := f.bits
    match v with
    | .nan => 0
    | .inf n => unsigned w (if n then -(2 ^ (w - 1) : Int) else 2 ^ (w - 1) - 1)
    | _ => unsigned w (satInt w v.toIntEven)
  | .e4m3 | .mxE4m3 | .mxE2m3 | .mxE3m2 | .mxE2m1 => f.shape.encode .even true v
  | .e5m2 => f.shape.encode .even (!ovf) v
  | .mxE5m2 => f.shape.encode .even true v
  | .e8m0 =>
    match v with
    | .fin false m e => if m == 0 then 0xFF else (max 0 (min 254 (e + (m.log2 : Int) + 127))).toNat
    | _ => 0xFF
  | _ => f.shape.encode .even false v

/-- emax of the MX element formats (R87). -/
def Fmt.emax : Fmt → Int
  | .mxE4m3 => 8 | .mxE5m2 => 15 | .mxE2m3 => 2 | .mxE3m2 => 4 | _ => 2

/-- floor(log2 |v|) of a nonzero finite value. -/
def FV.ilog2 : FV → Int
  | .fin _ m e => e + (m.log2 : Int)
  | _ => 0

/-- Conversion of 32 FP32 values to one MX block (R87): the scale byte and the element codes. -/
def mxBlock (f : Fmt) (vs : List W32) : Nat × List Nat :=
  if vs.any fNonFinite then (0xFF, vs.map fun _ => 0)
  else
    let m := vs.foldl (fun a v => amaxFold a (fabs v)) fzero
    if (fval m).isZero then (0, vs.map fun _ => 0)
    else
      let x := max (-127) (min 127 ((fval m).ilog2 - f.emax))
      ((x + 127).toNat, vs.map fun v => f.shape.encode .even true ((fval v).scale (-x)))

/-- The pairwise tree of R90 and R92: adjacent pairs, stage by stage, each node rounded. -/
def pairStage (add : W32 → W32 → W32) : List W32 → List W32
  | a :: b :: l => add a b :: pairStage add l
  | l => l

/-- `n` stages of the tree. -/
def pairTree (add : W32 → W32 → W32) : Nat → List W32 → W32
  | 0, l => l.headD fzero
  | n + 1, l => pairTree add n (pairStage add l)

/-- Stages that reduce `n` elements to one. -/
def treeStages (n : Nat) : Nat := if n ≤ 1 then 0 else (n - 1).log2 + 1

/-- The rounded sum of a list by the fixed tree of R90. -/
def treeSum (l : List W32) : W32 := pairTree fadd (treeStages l.length) l

/-- The same tree with every node rounded toward +∞ (R117). -/
def treeSumUp (l : List W32) : W32 :=
  pairTree (fun a b => froundUp ((fval a).add (fval b))) (treeStages l.length) l

/-- The ceiling exponent of an amax (R98): the smallest A with a ≤ 2^A, clamped to −120 to 127. -/
def ceilExp (a : W32) : Int :=
  match fval a with
  | .fin _ m e =>
    let l : Int := m.log2
    let x := if m == 2 ^ m.log2 then e + l else e + l + 1
    max (-120) (min 127 x)
  | _ => 127

end Sys2Proof.Machine
end

