-- ==== Sys2Proof/Machine/Types.lean ====
section
/-! DEFINITION. What the marshal decodes a command into (R206 to R224, R286, R302, R331): tensor,
route and update descriptors, the bodies of the families, and the scoreboard entry that holds a
heat. -/

namespace Sys2Proof.Machine

/-- A scale descriptor (R93). -/
structure ScaleDesc where
  base     : Nat
  kind     : Nat
  blockDim : Nat
  amax     : Nat
deriving DecidableEq, Repr

/-- A tensor descriptor (R150): the dimensions below NDIM only, extents as counts. -/
structure Desc where
  base    : Nat
  fmt     : Fmt
  wmode   : Nat
  ipolicy : Nat
  gdim    : Nat
  ext     : List Nat
  stride  : List Int
  scale   : Option ScaleDesc
  tileMap : Nat
deriving DecidableEq, Repr

/-- A relay route with its lists (R302). -/
structure Route where
  traffic     : Nat
  levels      : Nat
  wide2       : Bool
  prmReturn   : Bool
  ringCcw     : Bool
  pmode       : Nat
  deq         : Bool
  tag         : Nat
  members     : List Nat
  owners      : List Nat
  segBase     : Nat
  nseg        : Nat
  segPerOwner : Nat
  expect      : W32
  expBase     : Nat
  accBase     : Nat
  landStride  : Nat
  chunkPos    : Nat
  mb          : Nat
deriving DecidableEq, Repr

/-- The body of a dense or sparse matrix command (R214, R489). -/
structure MatBody where
  sparse    : Bool
  a         : Desc
  w         : Desc
  out       : Option Desc
  route     : Option Route
  transW    : Bool
  tandem    : Bool
  keepA     : Bool
  keepW     : Bool
  sparseW   : Bool
  stages    : Nat
  act       : Nat
  scale     : W32
  clamp     : W32
  accSrc    : Option Desc
  bias      : Option Desc
  /-- output tiles whose discard bit is set, as read at decode (R252, R489) -/
  discard   : List Nat
  a2        : Option Desc
  out2      : Option Desc
  route2    : Option Route
  stages2   : Nat
  acc2      : Option Desc
  pred      : Option Desc
  rseg      : W32
  /-- tile-map entries of the compressed operand, as read at decode (R274) -/
  tiles     : List Nat
  /-- the destination of the move that feeds it (R273) -/
  feed      : Option Desc
  /-- the live array shape, and the partner of the core of the batons, at decode (R231) -/
  shape     : Nat
  partner   : Nat
deriving DecidableEq, Repr

/-- The body of a vector command (R216). -/
structure VecBody where
  in0  : Option Desc
  in1  : Option Desc
  in2  : Option Desc
  out  : Desc
  op   : Nat
  keep : Nat
  imm  : W32
deriving DecidableEq, Repr

/-- The body of a row-reduce command (R217). -/
structure RowBody where
  x        : Desc
  dy       : Option Desc
  gamma    : Option Desc
  beta     : Option Desc
  statsIn  : Option Desc
  out      : Option Desc
  statsOut : Option Desc
  dgamma   : Option Desc
  dbeta    : Option Desc
  op       : Nat
  keep     : Nat
  eps      : W32
deriving DecidableEq, Repr

/-- The body of a Spring mask command (R218). -/
structure SpringBody where
  out      : Desc
  inp      : Option Desc
  key      : Desc
  mode     : Nat
  p        : Nat
  tensorId : W32
  step     : W64
  keepIn   : Bool
deriving DecidableEq, Repr

/-- The body of a relay send (R219). -/
structure SendBody where
  src   : Desc
  keep  : Bool
  route : Route
  rseg  : W32
deriving DecidableEq, Repr

/-- The families a chained command may hold as stages (R225); each is also a command of its own. -/
inductive Stage where
  | move (src dst : Desc) (keep : Bool)
  | gather (table index dst : Desc) (keepIndex : Bool)
  | scatter (table index src : Desc) (keepIndex keepSrc : Bool)
  | matrix (m : MatBody)
  | vector (v : VecBody)
  | rowReduce (r : RowBody)
  | spring (g : SpringBody)
  | relaySend (r : SendBody)
deriving DecidableEq, Repr

/-- An update descriptor as its command uses it (R331). -/
structure UpdBody where
  wset     : Nat
  frozen   : Bool
  lshift3  : Bool
  uop      : Nat
  out      : Option Desc
  version  : W32
  segFirst : Nat
  nseg     : Nat
  accBase  : Nat
  accNext  : Nat
  state0   : Nat
  state1   : Nat
  hpBase   : Nat
  stage    : Option Desc
  skipHseq   : W32
  commitHseq : W32
deriving DecidableEq, Repr

/-- The body of a rollout context command (R286). -/
structure CtxBody where
  cop   : Nat
  list  : Option Desc
  t0    : Option Desc
  t1    : Option Desc
  layer : Nat
  ctx   : Nat
  arg   : W32
  kvsel : Bool
  incl  : Bool
deriving DecidableEq, Repr

/-- The body of a command, by family (R209). -/
inductive Body where
  | nop
  | stage (s : Stage)
  | fill (cfmt first count : Nat) (value : W64)
  | release (first count : Nat)
  | copy (src dst count : Nat) (keep : Bool)
  | chained (stages : List Stage)
  | relayReceive (r : Route)
  | update (u : UpdBody)
  | pin (wset : Nat) (version : W32)
  | unpin (wset : Nat) (version : W32)
  | signal (ctr : Nat) (mark : Bool) (add : W32)
  | wait (ctr : Nat) (value : W32)
  /-- the data to contribute, as address and length -/
  | hurdle (data : Option (Nat × Nat)) (hkind : Nat) (hseq : W32) (npart : Nat)
  | cancel (byId : Bool) (streams : Nat) (target : W32)
  | context (x : CtxBody)
deriving DecidableEq, Repr

/-- The states of a scoreboard entry (R227); `cancelling` is a heat cancelled while it ran, whose
writes are not all acknowledged yet (R238). -/
inductive HState where
  | waiting | ready | armed | running | cancelling
deriving DecidableEq, Repr

/-- A line staged for a heat (R176): its 128 bytes as served and its poisoned 32 B words. -/
structure Line where
  data   : List Byte
  poison : List Nat
deriving DecidableEq, Repr

/-- A slot that a part of a heat's work waits on (R143): the part, the slot, whether it waits as a
writer, and its accessor by its bit in the turn masks (R58). -/
structure Wait where
  part   : Nat
  slot   : Nat
  writer : Bool
  acc    : Nat
deriving DecidableEq, Repr

/-- How far one stage of a heat has come. A stage's work is cut into numbered parts. -/
structure Prog where
  /-- parts whose reads have been asked for, and parts that are done -/
  asked  : List Nat
  ran    : List Nat
  /-- what a stage reads first and keeps, with its poison: indices (R167), tile-map entries (R174) -/
  words  : List (Nat × Bool)
  /-- the first run is past: the words are there, a release has emptied what it could (R145) -/
  begun  : Bool
  /-- a release's slots that it waits for: those claimed, and those filled since and on their way to
  EMPTY (R141, R145); `going` of a matrix stage holds the operand slots that it has emptied (R140) -/
  held   : List Nat
  going  : List Nat
  /-- check commands: the mask as read at dispatch (R275), and neurons found missed, as row tile and
  neuron (R279) -/
  mask   : List Byte
  missed : List (Nat × Nat)
  /-- contexts of a rollout command and their records as read (R286) -/
  rows   : List (Option (Nat × List Byte))
  ended  : Bool
deriving DecidableEq, Repr

/-- A stage that has not begun. -/
def Prog.zero : Prog := ⟨[], [], [], false, [], [], [], [], [], false⟩

/-- A scoreboard entry: one heat (R201, R227). -/
structure Heat where
  id        : HeatId
  cmdId     : W32
  prio      : Nat
  pclass    : Nat
  heavy     : Bool
  prefetch  : Bool
  cpl       : Bool
  irq       : Bool
  ovf       : Bool
  dep       : List (Option W32)
  depMask   : W16
  body      : Body
  state     : HState
  age       : Nat
  /-- the cycle in which a READY heat has become so: the one after its last condition was met (R229) -/
  since     : Nat
  /-- arrival number of the permit request in the governor's queue (R444) -/
  request   : Option Nat
  granted   : Bool
  /-- a completion entry is reserved (R222, R226) -/
  reserved  : Bool
  /-- engines of the footprint (R230): 3 × logical core + 0 array, 1 sparse engine, 2 vector unit -/
  engines   : List Nat
  gathers   : Nat
  /-- dispatch order number, and the cycle of dispatch counted from the lap's nominal edge -/
  order     : Nat
  dispatch  : Nat
  /-- lines read from HBM and staged (R176, R190), by stage, fetch group and line (`stageKey`) -/
  staged    : AMap Line
  /-- slots claimed and not yet FULL (R139) -/
  claims    : List Nat
  /-- the slots that parts of its work wait on (R143) -/
  waits     : List Wait
  /-- the progress of each stage (R224); a command that is no stage has the one numbered 0 -/
  prog      : AMap Prog
  /-- slots read for the last time by a stage that CONSUMEs them while another stage of the command
  still reads them (R140) -/
  leave     : List Nat
  /-- the sparse threshold live at dispatch (R274) -/
  thresh    : Nat
  /-- the work is finished; the heat retires once its requests are acknowledged (R201) -/
  done      : Bool
  sat       : Bool
  clip      : Bool
  nonfinite : Bool
  skipped   : Bool
  /-- the heat depends on a skipped APPLY (R340) -/
  taint     : Bool
  faulted   : Bool
  /-- a stale record has been written for a waiting pin (R255) -/
  stale     : Bool
deriving DecidableEq, Repr

/-- The progress of a stage of a heat. -/
def Heat.at (h : Heat) (st : Nat) : Prog := AMap.get .zero h.prog st

/-- Who issues a request (R180). -/
inductive Requester where
  | dma (cluster : Nat)
  | gather (cluster : Nat)
  | port (p : Nat)
  | host
  | scrub
deriving DecidableEq, Repr

/-- An atomic update of a line (R164, R94, R308). -/
inductive AtomOp where
  /-- FP32 or saturating INT32 addition of a value at an address (R164) -/
  | addF (addr : Nat) (v : W32)
  | addI (addr : Nat) (v : Int)
  /-- the amax fold of R94 into the record at an address -/
  | amax (addr : Nat) (m : W32) (nonfinite : Bool)
  /-- an owner's entry (R308): record, block, sums, flags, amax, and the residue of the sums (R100) -/
  | entry (record blk : Nat) (sums : List Int) (flags : Nat) (amax : W32) (residue : Nat)
  /-- an owner's entry of a DEQ route (R308): the block's FP32 values replace what it held -/
  | entryF (record blk : Nat) (vals : List W32) (flags : Nat) (amax : W32)
deriving DecidableEq, Repr

/-- What a request does at its controller. -/
inductive ReqKind where
  | read
  /-- a BAR4 read of some bytes of a line (R419) -/
  | hostRead (addr len : Nat)
  /-- bytes written with the addresses that receive poison instead (R148) -/
  | write (addr : Nat) (data : List Byte)
  | atomic (op : AtomOp)
deriving DecidableEq, Repr

/-- A request for a line (R177), waiting or holding a request slot (R178, R179). An owner's entry
works on several lines: it holds a slot for each. -/
structure Req where
  id       : Nat
  who      : Requester
  lines    : List Nat
  kind     : ReqKind
  prefetch : Bool
  issued   : Bool
  heat     : Option HeatId
  /-- dispatch number of the heat, which tells it from a later one of the same index (R192) -/
  order    : Nat
  /-- the stage and the fetch group, or the part, of the heat that it serves -/
  stage    : Nat
  grp      : Nat
  /-- slots of the destination that the data is for: claimed when it issues (R139, R190) -/
  slots    : List Nat
  /-- its number among the requests that began to wait for a slot (R179) -/
  waited   : Option Nat
deriving DecidableEq, Repr

/-- The line of a request; the first of an entry's. -/
def Req.line (r : Req) : Nat := r.lines.headD 0

/-- An accumulator buffer that holds a finished unit (R114): its values by row, the checksum sums of
each row and segment (R117), exact in integer mode, and the unit's columns of output. -/
structure AccBuf where
  heat    : HeatId
  stageNo : Nat
  unit    : Nat
  integer : Bool
  passes  : Nat
  vals    : List (List W32)
  c       : List (List W32)
  h       : List (List W32)
  exact   : List (List Int)
  satRows : List Bool
  sparse  : Bool
deriving DecidableEq, Repr

/-- A weight buffer (R105, R111, R117): which tile it holds (heat, stage, and unit column, K-pass and
batch), the element codes and MX scale bytes row by row, and what the checksum cells hold of each
row: the sums of weights, exact in integer mode, and of magnitudes. -/
structure WBuf where
  heat    : HeatId
  stageNo : Nat
  tile    : List Nat
  codes   : List (List Nat)
  scales  : List (List Nat)
  sums    : List (W32 × W32)
  exact   : List Int
deriving DecidableEq, Repr

/-- What is written in an event record beside the time and the sequence number (R424). -/
structure Rec where
  code     : Nat
  severity : Nat
  conseq   : Bool
  seq      : W32
  lap      : W64
  cycle    : Nat
  cluster  : Nat
  stream   : Nat
  unit     : Nat
  spares   : Nat
  cmdId    : W32
  index    : W32
  addr     : Nat
  detail   : List Byte
deriving DecidableEq, Repr

/-- A control message (R301) that left the module. -/
inductive Message where
  | tick (lap : W64) (period grace : Nat)
  | echoRequest (depart : Nat)
  | echoResponse (depart holding : W32)
  | contribution (c : Contribution)
  | decision (d : Decision)
  | notice (n : Notice)
  | identity (moduleId : W64) (port : Nat) (kind : PeerKind) (stepping : BitVec 8)
  | ack (channel : Nat) (seq : W32) (refused : W16)
deriving DecidableEq, Repr

/-- What left the module: frames, interrupts, management messages and host-memory writes. -/
inductive Output where
  /-- a control message with the 64 bytes of its frame (R301) -/
  | control (port : Nat) (m : Message) (frame : List Byte)
  | data (port channel : Nat) (frame : List Byte)
  | msix (vector : Nat)
  | hostWrite (addr : Nat) (data : List Byte)
  | readData (data : List Byte) (poisoned : Bool)
  | aerPoisonEgress | aerPoisonReceived
  | unsupportedRequest
  | mctp (data : List Byte)
  | regAnswer (value : Option Nat) | notReady
  | eventAnswer (data : Option (List Byte))
  /-- stripes of a rebuild that the control cores solve (R396, log entry 53) -/
  | parityUnits (group : Nat) (len : Nat)
  | digest (member : Nat) (value : Nat)
deriving DecidableEq, Repr

end Sys2Proof.Machine
end

