-- ==== Sys2Proof/Machine/State.lean ====
section
/-! DEFINITION. The state of one MZ1 module (spec/ R1 to R489): memory, the block's registers,
queues and buffers, and the queue of commands that wait; the faults and refusals of a step; and the
state after reset. Register files are sparse maps whose unlisted entries read as the reset value. -/

namespace Sys2Proof.Machine

/-! ### Memory -/

/-- HBM and the cluster pond windows by module address (R22, R28), one byte a cell. An unlisted byte
reads 0 (R138 for ponds; log entry 4 for HBM). Poisoned words are kept apart: 32 B words of HBM
(R193) by address / 32, 8 B words of ponds (R148) by (address − 0x1000_0000_0000) / 8. -/
structure Mem where
  cells : AMap Byte
  hbmPoison : NSet
  pondPoison : NSet
deriving DecidableEq, Repr

/-! ### Laps (R30 to R51) -/

/-- Sources of the tick (R50). -/
inductive TickSource where
  | own | regenerated | holdover | starter
deriving DecidableEq, Repr

/-- The lap tick and its registers. -/
structure Lap where
  count     : W64
  /-- cycles of the time base since the effective edge, and since the nominal edge (R37) -/
  cycle     : Nat
  sinceNom  : Nat
  /-- a nominal edge has come and its effective edge has not (R37) -/
  held      : Bool
  lock      : Bool
  source    : TickSource
  missed    : Nat
  lockLost  : Bool
  delayNs   : Nat
  /-- the next locked edge loads this lap number (R35), and the pair the ticks carry (R32) -/
  loadLap   : Option W64
  loadPair  : Option (Nat × Nat)
  /-- a tick has come in this lap; the delay to the starter has been measured since joining (R33) -/
  ticked    : Bool
  echoed    : Bool
  stepLaps  : W32
  stepCycles : Int
  stepValid : Bool
  mark      : Option (W64 × Nat)
  /-- an overrun record has been written in this step (R41) -/
  stepOverrun : Bool
  /-- consecutive held laps of each cluster (R41), and the heat that retired last in it: stream,
  index, CMD_ID and cycle of dispatch -/
  heldLaps  : AMap Nat
  lastHeld  : AMap (Nat × W32 × W32 × Nat)
  /-- dispatch has stopped for a lost lock, a late decision or a deposed starter (R34, R356, R360) -/
  stopped   : Bool
deriving DecidableEq, Repr

/-! ### Configuration (R52 to R78) -/

/-- One copy of the configurable fields (R67): the sections of an image, each as its bytes. An empty
section stands for the reset values (R72). -/
structure Conf where
  roles     : List Byte
  partition : List Byte
  tandem    : List Byte
  shapes    : List Byte
  turns     : List Byte
  splits    : List Byte
  regions   : List Byte
  relay     : List Byte
  parity    : List Byte
  spares    : List Byte
  sparse    : List Byte
  budgetW   : Nat
  rampW     : Nat
  grains    : List Nat
  reserve   : Nat
  period    : Nat
  grace     : Nat
  ageLaps   : Nat
  serial    : W64
  domainId  : W64
  /-- the loaded image itself, empty before the first load (R72, R433) -/
  image     : List Byte
deriving DecidableEq, Repr

/-- The image registers and the staging logic (R68 to R78, R487). -/
structure Img where
  stageAddr : Nat
  stageLen  : Nat
  loading   : Bool
  checking  : Bool
  pending   : Option Conf
  /-- the pending set waits for quiesce rather than for the next edge (R70) -/
  quiesce   : Bool
  /-- the pending set was accepted while an edge was held (R42) -/
  afterHeld : Bool
  /-- a starter's period change waits for its PERIOD action (R32) -/
  periodSent : Bool
  done      : Bool
  result    : Nat
  section_  : Nat
  shadow    : Conf
  live      : Conf
  liveLap   : W64
  /-- SERIAL of the image last loaded into the shadow (R77) -/
  loaded    : W64
deriving DecidableEq, Repr

/-! ### Streams and marshals (R197 to R240) -/

/-- The registers of one stream (R202 to R205). -/
structure Stream where
  ring    : W64
  cplReg  : W64
  enable  : Bool
  /-- HALT_CAUSE; 0 while the stream is not halted -/
  halt    : Nat
  haltIdx : W32
  dbReject : Bool
  tail    : W32
  fetch   : W32
  cplHead : W32
  cplTail : W32
  /-- commands that ended without retiring: first index, count, and whether they start the chain of
  R207 (cancelled) or not yet (overrun or fault) -/
  dead    : List (W32 × Nat × Bool)
  /-- commands that retired as skipped, or that depended on one (R340) -/
  skips   : List W32
deriving DecidableEq, Repr

/-- A stream as reset leaves it. -/
def Stream.zero : Stream := ⟨0, 0, false, 0, 0, false, 0, 0, 0, 0, [], []⟩

/-- The marshals, the permit governor's ledger and the accumulators (R105, R227, R442). -/
structure Marshal where
  heats    : List Heat
  /-- next stream of the fetch rotation of each cluster (R228) -/
  rotation : AMap Nat
  nextOrder : Nat
  nextArrival : Nat
  /-- full accumulator buffers: (cluster × 16 + logical core) × 3 + 0 or 1 for A0 and A1 of the array
  (R114), 2 for the sparse engine's (R267) -/
  acc      : AMap (List AccBuf)
  /-- weight buffers W0 and W1 of each core (R105, R111): (cluster × 16 + logical core) × 2 + buffer -/
  weights  : AMap (Option WBuf)
  /-- the weight buffer of a core that is live, W0 or W1 (R112) -/
  wlive    : AMap Nat
  /-- the operand store of each core's sparse engine (R267): rows of codes of the tile last read -/
  store    : AMap (List (List Nat))
  /-- clusters that have not reported the end of their heats (R240) -/
  unreported : NSet
  /-- clusters on which the watchdog has acted in this lap (R240) -/
  watched  : NSet
  /-- full tags and claims of slots (R138): cluster × 6144 + slot -/
  full     : NSet
  claim    : NSet
  /-- FULL slots that a waiting release makes EMPTY (R141): one more than the cycle from which on -/
  leaving  : AMap Nat
  /-- words whose correctable record is suppressed (R147, R194): pond words, and HBM words -/
  pondSeen : NSet
  hbmSeen  : NSet
  /-- signal counters (R220, R415): group × 64 + counter -/
  signals  : AMap W32
deriving DecidableEq, Repr

/-- The permit governor (R442 to R445, R452). -/
structure Permit where
  capEighths : Nat
  /-- the sum of held grants at past cycles, newest first (R443) -/
  history    : List (Nat × Nat)
  tooLarge   : Bool
deriving DecidableEq, Repr

/-! ### Memory system (R175 to R196) -/

/-- Requests, tokens and write-backs. -/
structure Hbm where
  reqs   : List Req
  nextId : Nat
  /-- how many requests have begun to wait for a slot (R179) -/
  nextWait : Nat
  /-- line tokens in 1/32 of a token: die × 3 + class, 0 READ, 1 WRITE, 2 REMOTE (R183) -/
  tokens : AMap Nat
  /-- tokens of this period that their class has left unused, in whole tokens (R184) -/
  unused : AMap Nat
  /-- rotation of each die and class (R185): position of the requester served last -/
  served : AMap Nat
  /-- corrected words waiting for write-back (R195): word addresses / 32 -/
  writebacks : List Nat
  /-- READ tokens that the urgent scrub has spent ahead of others in this lap, by die (R196) -/
  urgent : AMap Nat
deriving DecidableEq, Repr

/-! ### Weight sets and updates (R253 to R263, R339 to R345) -/

/-- Buffer states (R254). -/
inductive BufState where
  | free | writing | current | old
deriving DecidableEq, Repr

/-- One version buffer. -/
structure VBuf where
  state   : BufState
  version : W32
  pins    : Nat
  /-- an OLD buffer whose count has reached 0: one more than the cycle from which on it is FREE; else 0
  (R254, R258) -/
  gone    : Nat
deriving DecidableEq, Repr

/-- One weight set. -/
structure WSet where
  nbuf    : Nat
  base    : Nat
  pages   : Nat
  version : W32
  bufs    : List VBuf
  skipHseq   : W32
  commitHseq : W32
  /-- one more than the cycle of its last pin, release or update (R258) -/
  used       : Nat
deriving DecidableEq, Repr

def WSet.zero : WSet := ⟨0, 0, 0, 0, [], 0, 0, 0⟩

/-- One `STR_RSET` entry (R345). -/
structure RSet where
  acc0    : Nat
  acc1    : Nat
  expFirst : Nat
  nrec    : Nat
  bankLen : Nat
  en      : Bool
  par     : Bool
deriving DecidableEq, Repr

def RSet.zero : RSet := ⟨0, 0, 0, 0, 0, false, false⟩

/-- The update registers. -/
structure Update where
  wsets    : AMap WSet
  rsets    : AMap RSet
  nf       : Bool
  nfSeen   : Bool
  lastUpd  : Nat
  lastCmt  : Nat
  skips    : W64
  commits  : W64
  discards : W64
  /-- update decisions that have taken effect: HSEQ and verdict, newest first (R335, R356) -/
  taken    : List (W32 × Nat)
deriving DecidableEq, Repr

/-! ### The Relay (R295 to R328) -/

/-- Port states (R327). -/
inductive PortState where
  | down | training | up | held | suspect | asym
deriving DecidableEq, Repr

/-- A frame in the retransmission store (R300): channel, sequence number, bytes, and the failures of
each block counted so far (R313). -/
structure Sent where
  channel : Nat
  seq     : W32
  frame   : List Byte
  heat    : Option HeatId
  /-- blocks not yet accepted, with their failure counts -/
  blocks  : List (Nat × Nat)
deriving DecidableEq, Repr

/-- One relay port. -/
structure Port where
  disable  : Bool
  state    : PortState
  width    : Nat
  reversed : Bool
  pnSwap   : BitVec 8
  peerKind : Nat
  peerPos  : Nat
  peerId   : W64
  peerPort : Nat
  lanesUp  : BitVec 8
  /-- the lanes that worked at the last training (R297) -/
  working  : BitVec 8
  dropped  : BitVec 8
  rttNs    : BitVec 16
  evt      : BitVec 8
  /-- SUSPECT conditions since the last cold start (R370) -/
  suspects : Nat
  /-- the actual link differs from the map and is recorded in the remap table (R352) -/
  remapped : Bool
  txSeq    : List W32
  store    : List Sent
  /-- frames accepted, by channel, SEQ and SRC_POS (R322) -/
  seen     : List (Nat × W32 × W16)
  /-- retries of blocks this port received, by segment and block (R313) -/
  retries  : AMap Nat
deriving DecidableEq, Repr

def Port.zero : Port :=
  ⟨false, .down, 0, false, 0, 0, 0xFFFF, 0, 0xFF, 0, 0, 0, 0, 0, 0, false, [0, 0, 0, 0], [], [], []⟩

/-- A reduction-buffer entry (R307, R321). -/
structure Entry where
  port    : Nat
  tag     : Nat
  seg     : Nat
  blk     : Nat
  mb      : Nat
  level   : Nat
  ncon    : Nat
  vals    : List Int
  residue : Nat
  flags   : Nat
  amax    : W32
  e       : Int
  addr    : Nat
  fails   : Nat
deriving DecidableEq, Repr

/-- Landed data whose writes are being acknowledged, and the counter step that follows (R308,
R316). -/
structure Landing where
  tag    : Nat
  count  : Nat
  reqs   : List Nat
  failed : Bool
deriving DecidableEq, Repr

/-- The Relay. -/
structure Relay where
  ports    : AMap Port
  entries  : List Entry
  /-- frames that wait for a route, a free entry or an unmasked record (R307, R338) -/
  blocked  : List (Nat × List Byte)
  /-- frames for which no path exists yet (R304) -/
  unsent   : List Sent
  landings : List Landing
  land     : AMap W32
  /-- residues of accumulated values that owners carry forward, by the block's address (R100) -/
  carried  : AMap Nat
  routes   : AMap (List Route)
  bank     : Bool
  tag      : Nat
  expect   : W32
deriving DecidableEq, Repr

/-! ### Domains (R346 to R365) -/

/-- Domain states (R362). -/
inductive DomState where
  | alone | linking | locking | awaiting | active | refused
deriving DecidableEq, Repr

/-- States of the member table (R365). -/
inductive MState where
  | absent | active | late | lost
deriving DecidableEq, Repr

/-- A member-table entry; misses counts consecutive missed hurdles (R357). -/
structure Member where
  state  : MState
  feed   : Nat
  lap    : W32
  misses : Nat
  /-- contributions of earlier laps do not count: the member's shard is being rebuilt (R350, R396) -/
  counts : W64
deriving DecidableEq, Repr

def Member.zero : Member := ⟨.absent, 0, 0, 0, 0⟩

/-- A hurdle this module has contributed to and not yet seen decided (R222). -/
structure Pending where
  hseq  : W32
  hkind : Nat
  sent  : Contribution
deriving DecidableEq, Repr

/-- Domain operation. -/
structure Domain where
  state    : DomState
  remapped : Bool
  evt      : BitVec 8
  /-- the tick source is the standby that took over (R360) -/
  newStarter : Option Nat
  hurdles  : List Pending
  /-- decisions and actions received or made, waiting for their edge (R356) -/
  decided  : List Decision
  /-- the decisions of the last 64 HSEQs, newest first (R356) -/
  kept     : List Decision
  dataReg  : List Byte
  /-- edges since the last join request (R349) -/
  joinAge  : Nat
  members  : AMap Member
  /-- starter: contributions collected for the hurdles not yet decided (R43) -/
  collected : List Contribution
  /-- starter: one-way delays measured at admission, in ns (R32) -/
  delays   : AMap Nat
  /-- standby: ticks missing in a row, and a lap-lock-loss notice naming the starter (R359) -/
  starterLost : Bool
  /-- contributions are sent again at the first edge after a TAKEOVER (R359) -/
  resend   : Bool
  /-- HSEQs whose armed command was cancelled before the module contributed (R239) -/
  withheld : List W32
  /-- standby: it has taken over, and sends its TAKEOVER at the next effective edge (R359) -/
  takeover : Bool
  /-- the next hop's port toward a starter that took over (R359) -/
  upPort   : Option Nat
deriving DecidableEq, Repr

/-! ### Securing (R384 to R407) -/

/-- Securing registers and the securing engine. -/
structure Sec where
  phase    : Nat
  source   : Bool
  pbank    : Bool
  due      : Bool
  valid    : Bool
  /-- starter: exposed parity groups (R403) -/
  exposed  : NSet
  verifyPend : Bool
  verifyFail : Bool
  mismatch : Bool
  unrecoverable : Bool
  snap     : Nat
  len      : Nat
  par0     : Nat
  par1     : Nat
  listBase : Nat
  listCount : Nat
  step     : W64
  cursor   : BitVec 128
  resumeStep : W64
  resumeCur : BitVec 128
  resumeLap : W64
  number   : W32
  pointLap : W32
  tLaps    : W32
  cLaps    : W32
  mLaps    : W64
  lossRef  : List Byte
  /-- the parity phase and the copy and digest phase have finished (R391) -/
  parityDone : Bool
  copyDone : Bool
  /-- the resume has been accepted and waits for its lap (R398) -/
  resumed  : Bool
  digest   : Nat
  /-- partners' digests in SRAM, by list place (R402) -/
  digests  : AMap Nat
  /-- positions lost in the restore in progress (R396) -/
  lost     : List Nat
  /-- this runner's shard waits to be rebuilt (R350) -/
  rebuild  : Bool
  beginLap : W64
  lastLoss : W64
  lastDone : W64
  gaps     : List Nat
  /-- the first ADMIT has taken effect (R393) -/
  admitted : Bool
  lossData : List Byte
deriving DecidableEq, Repr

/-! ### Faults and the sweep (R366 to R383) -/

/-- The fence map and the fault registers. -/
structure Flt where
  repl     : BitVec 10
  replPin  : Bool
  /-- fenced physical cores of each cluster, and the spare's logical index plus 1 (R17) -/
  fenced   : AMap (List Nat)
  spareOf  : AMap Nat
  /-- remaps not yet permanent (R120) -/
  provisional : NSet
  run15    : NSet
  halted   : NSet
  hangs    : AMap Nat
  /-- a pond copy onto the spare is under way: logical core plus 1 (R119) -/
  copying  : AMap Nat
  stackLimit : NSet
  /-- lines found uncorrectable, by stack (R370) -/
  poisonLines : AMap (List Nat)
  /-- severity-3 events raised since the cold start (R427): code × 256 + unit -/
  raised   : NSet
deriving DecidableEq, Repr

/-- State of one sweep item (R375 to R377). -/
structure Item where
  /-- one more than the lap of its last completion; 0 before the first -/
  lap    : W64
  posted : Bool
  urgent : Bool
  prio   : Nat
  age    : Nat
  pieces : Nat
  /-- one more than the lap of its last piece (R376) -/
  last   : W64
  doneFull : Bool
deriving DecidableEq, Repr

def Item.zero : Item := ⟨0, false, false, 0, 0, 0, 0, false⟩

/-- The warm-up sweep. -/
structure Sweep where
  items    : AMap Item
  full     : Bool
  urgentSeen : Bool
  fail     : Bool
  passLap  : W64
deriving DecidableEq, Repr

/-! ### Host interface (R408 to R439) -/

/-- The event log (R424 to R429). -/
structure Evt where
  ring     : W64
  enable   : Bool
  head     : W32
  tail     : W32
  overflow : Bool
  lost     : W32
  seq      : W32
  lostBefore : Bool
  buffer   : List Rec
  /-- SEQ of the buffered records that stand in reserved entries (R427) -/
  reserve  : List W32
  /-- the 256 most recent records raised, newest first (R438) -/
  recent   : List Rec
deriving DecidableEq, Repr

/-- Capabilities of the function (R410). -/
inductive PcieCap where
  | pciExpress | powerManagement | msix | advancedErrors | deviceSerial
deriving DecidableEq, Repr

/-- The values that the endpoint presents in configuration space (R408). -/
structure PcieConfig where
  vendor     : BitVec 16
  device     : BitVec 16
  subVendor  : BitVec 16
  subsystem  : BitVec 16
  revision   : BitVec 8
  classCode  : BitVec 24
  /-- bytes of payload supported, and of a read request as programmed -/
  maxPayload : Nat
  maxRead    : Nat
  tags10     : Bool
  /-- the capabilities that the function carries (R410) -/
  caps       : List PcieCap
deriving DecidableEq, Repr

/-- A doorbell that waits for the BAR4 writes received before it, by their requests (R420). -/
structure Bell where
  cluster : Nat
  stream  : Nat
  tail    : W32
  after   : List Nat
deriving DecidableEq, Repr

/-- The PCIe function and its interrupts (R408 to R423). -/
structure Pcie where
  config    : PcieConfig
  bells     : List Bell
  busMaster : Bool
  width    : Nat
  aper     : Nat
  msixAddr : AMap W64
  msixData : AMap W32
  unmasked : NSet
  pba      : NSet
deriving DecidableEq, Repr

/-- Debug states (R435). -/
inductive DebugState where
  | locked | unlocked | fused
deriving DecidableEq, Repr

/-- Keys, measurements and debug (R430 to R436). -/
structure Boot where
  keys     : AMap (Nat × Nat)
  revoked  : BitVec 4
  dbgFuse  : Bool
  dbg      : DebugState
  scope    : Nat
  slotB    : Bool
  fallback : Bool
  logFull  : Bool
  result   : Nat
  done     : Bool
  tokenAddr : Nat
  nonceUse : Nat
  meas     : AMap Nat
  log      : List (List Byte)
  logSeq   : W32
  /-- the boot flash slots hold images that verify (R477) -/
  flashA   : Bool
  flashB   : Bool
deriving DecidableEq, Repr

/-! ### Power, cooling, connectors and start-up (R440 to R486) -/

/-- A condition of the throttle ladder: what it asks for (R448), and how long it has been clear. -/
structure CondState where
  cap    : Nat
  clock  : Nat
  rung   : Nat
  /-- samples for which the condition, and its severe form, have lasted; samples on the safe side -/
  timer  : Nat
  severe : Nat
  safe   : Nat
deriving DecidableEq, Repr

def CondState.zero : CondState := ⟨8, 0, 0, 0, 0, 0⟩

/-- Power, cooling and the pins. -/
structure Pwr where
  state    : Nat
  rung     : Nat
  /-- the clock in force and the clock that the next effective edge brings (R449) -/
  clock    : Nat
  clockNext : Nat
  active   : BitVec 8
  conds    : AMap CondState
  vinMv    : Nat
  pinW     : Nat
  feed     : BitVec 8
  feedValid : Bool
  feedLast : BitVec 8
  feedRun  : Nat
  evt      : BitVec 9
  inlet    : Int
  outlet   : Int
  flow     : Nat
  leak     : BitVec 2
  hottest  : Int
  die      : Nat
  failed   : BitVec 32
  revSeen  : Bool
  ovpSeen  : Bool
  contention : Bool
  cageFault : BitVec 16
  reversed : Bool
  revFlag  : Bool
  /-- management pins that the module has stopped driving (R467) -/
  released : NSet
  smbus    : Nat
  rails    : NSet
  mainPath : Bool
deriving DecidableEq, Repr

/-- The start-up sequence (R472 to R485). -/
structure Start where
  step     : Nat
  stoppedAt : Nat
  lastReset : Nat
  pwrEn    : Bool
  /-- a rising edge of PWR_EN has been seen and waits (R472) -/
  edge     : Bool
  /-- an orderly stop is under way, and dispatch has closed (R482) -/
  stopping : Bool
  standby  : Bool
  perst    : Bool
deriving DecidableEq, Repr

/-- The block: everything but memory and the queue of commands. -/
structure Dev where
  /-- cycles of the module time base since reset -/
  now     : Nat
  moduleId : W64
  serialNo : BitVec 40
  dateCode : BitVec 16
  lap     : Lap
  img     : Img
  streams : AMap Stream
  mar     : Marshal
  prm     : Permit
  hbm     : Hbm
  upd     : Update
  rly     : Relay
  dom     : Domain
  sec     : Sec
  flt     : Flt
  swp     : Sweep
  evt     : Evt
  pcie    : Pcie
  boot    : Boot
  pwr     : Pwr
  start   : Start
  /-- the context table (R282), records of 128 bytes -/
  ctx     : AMap (List Byte)
  ctxGroup : Nat
  ctxRot  : AMap W16
  /-- the 23 MiB of H-die SRAM that the control cores use (R11); no row reads or writes it -/
  sram    : AMap Byte
  /-- write-1-to-clear bits, by register and bit: one more than the cycle in which each was last set (R7) -/
  latched : AMap Nat
  /-- what has left the module, oldest first -/
  out     : List Output
  /-- uses of free values (log entry 3); the model's own field -/
  free    : Nat
deriving DecidableEq, Repr

/-- The state of the module. -/
structure State where
  mem     : Mem
  dev     : Dev
  /-- commands that wait, first in first out; the model's own field -/
  pending : List Instr
deriving DecidableEq, Repr

/-- Why a step faults. -/
inductive Fault where
  /-- raised by a BAR4 access outside the 64 GiB aperture (R411): no such address exists; safe -/
  | barRange
deriving DecidableEq, Repr

/-- Why a step is refused. -/
inductive Refusal where
  /-- raised by the dispatcher for a row whose meaning is not written; safe -/
  | notModelled (mnemonic : String)
deriving DecidableEq, Repr

/-! ### Reset -/

/-- The configuration from reset until the first commit (R72, R48, R49, R452). -/
def Conf.reset : Conf where
  roles := []
  partition := []
  tandem := []
  shapes := []
  turns := []
  splits := []
  regions := []
  relay := []
  parity := []
  spares := []
  sparse := []
  budgetW := 6500
  rampW := 600
  grains := [0, 0, 0, 0, 0, 0, 0, 0]
  reserve := 1576
  period := 200
  grace := 20
  ageLaps := 4
  serial := 0
  domainId := 0
  image := []

def Lap.reset : Lap where
  count := 0
  cycle := 0
  sinceNom := 0
  held := false
  lock := false
  source := .own
  missed := 0
  lockLost := false
  delayNs := 0
  loadLap := none
  loadPair := none
  ticked := false
  echoed := false
  stepLaps := 0
  stepCycles := 0
  stepValid := false
  mark := none
  stepOverrun := false
  heldLaps := []
  lastHeld := []
  stopped := false

def Img.reset : Img where
  stageAddr := 0
  stageLen := 0
  loading := false
  checking := false
  pending := none
  quiesce := false
  afterHeld := false
  periodSent := false
  done := false
  result := 0
  section_ := 0
  shadow := .reset
  live := .reset
  liveLap := 0
  loaded := 0

def Marshal.reset : Marshal where
  heats := []
  rotation := []
  nextOrder := 0
  nextArrival := 0
  acc := []
  weights := []
  wlive := []
  store := []
  unreported := []
  watched := []
  full := []
  claim := []
  leaving := []
  pondSeen := []
  hbmSeen := []
  signals := []

def Update.reset : Update where
  wsets := []
  rsets := []
  nf := false
  nfSeen := false
  lastUpd := 0
  lastCmt := 0
  skips := 0
  commits := 0
  discards := 0
  taken := []

def Relay.reset : Relay where
  ports := []
  entries := []
  blocked := []
  unsent := []
  landings := []
  land := []
  carried := []
  routes := []
  bank := false
  tag := 0
  expect := 0

def Domain.reset : Domain where
  state := .alone
  remapped := false
  evt := 0
  newStarter := none
  hurdles := []
  decided := []
  kept := []
  dataReg := List.replicate 40 0
  joinAge := 0
  members := []
  collected := []
  delays := []
  starterLost := false
  resend := false
  withheld := []
  takeover := false
  upPort := none

def Sec.reset : Sec where
  phase := 0
  source := false
  pbank := false
  due := false
  valid := false
  exposed := []
  verifyPend := false
  verifyFail := false
  mismatch := false
  unrecoverable := false
  snap := 0
  len := 0
  par0 := 0
  par1 := 0
  listBase := 0
  listCount := 0
  step := 0
  cursor := 0
  resumeStep := 0
  resumeCur := 0
  resumeLap := 0
  number := 0
  pointLap := 0
  tLaps := 0
  cLaps := 0
  mLaps := 0
  lossRef := List.replicate 32 0
  parityDone := false
  copyDone := false
  resumed := false
  digest := 0
  digests := []
  lost := []
  rebuild := false
  beginLap := 0
  lastLoss := 0
  lastDone := 0
  gaps := []
  admitted := false
  lossData := List.replicate 32 0

def Flt.reset : Flt where
  repl := 0
  replPin := false
  fenced := []
  spareOf := []
  provisional := []
  run15 := []
  halted := []
  hangs := []
  copying := []
  stackLimit := []
  poisonLines := []
  raised := []

def Evt.reset : Evt where
  ring := 0
  enable := false
  head := 0
  tail := 0
  overflow := false
  lost := 0
  seq := 0
  lostBefore := false
  buffer := []
  reserve := []
  recent := []

/-- What the endpoint presents (R408, R410). The read request size that a function starts with is that of
PCI Express (log entry 113). -/
def PcieConfig.reset : PcieConfig where
  vendor := 0x1F5C
  device := 0x0720
  subVendor := 0x1F5C
  subsystem := 0x0720
  revision := 0x42
  classCode := 0x120000
  maxPayload := 512
  maxRead := 512
  tags10 := true
  caps := [.pciExpress, .powerManagement, .msix, .advancedErrors, .deviceSerial]

def Pcie.reset : Pcie where
  config := .reset
  bells := []
  busMaster := false
  width := 0
  aper := 0
  msixAddr := []
  msixData := []
  unmasked := []
  pba := []

def Boot.reset : Boot where
  keys := []
  revoked := 0
  dbgFuse := false
  dbg := .locked
  scope := 0
  slotB := false
  fallback := false
  logFull := false
  result := 0
  done := false
  tokenAddr := 0
  nonceUse := 0
  meas := []
  log := []
  logSeq := 0
  flashA := true
  flashB := true

def Pwr.reset : Pwr where
  state := 0
  rung := 0
  clock := 0
  clockNext := 0
  active := 0
  conds := []
  vinMv := 0
  pinW := 0
  feed := 0
  feedValid := false
  feedLast := 0
  feedRun := 0
  evt := 0
  inlet := 0
  outlet := 0
  flow := 0
  leak := 0
  hottest := 0
  die := 0
  failed := 0
  revSeen := false
  ovpSeen := false
  contention := false
  cageFault := 0
  reversed := false
  revFlag := false
  released := []
  smbus := 0x5F
  rails := []
  mainPath := false

def Start.reset : Start where
  step := 1
  stoppedAt := 0
  lastReset := 0
  pwrEn := false
  edge := false
  stopping := false
  standby := false
  perst := true

/-- The block after reset. The fused identity values are those of the label example of R3 (log
entry 5). -/
def Dev.reset : Dev where
  now := 0
  moduleId := 0x3A0C91F20047B15E
  serialNo := 0x4021887731
  dateCode := 0x2619
  lap := .reset
  img := .reset
  streams := []
  mar := .reset
  prm := ⟨8, [], false⟩
  hbm := ⟨[], 0, 0, [], [], [], [], []⟩
  upd := .reset
  rly := .reset
  dom := .reset
  sec := .reset
  flt := .reset
  swp := ⟨[], false, false, false, 0⟩
  evt := .reset
  pcie := .reset
  boot := .reset
  pwr := .reset
  start := .reset
  ctx := []
  ctxGroup := 0
  ctxRot := []
  sram := []
  latched := []
  out := []
  free := 0

/-- The module after reset: every register at its Reset column (R4, R5), nothing in memory, no
command waiting. -/
def State.reset : State where
  mem := ⟨[], [], []⟩
  dev := .reset
  pending := []

end Sys2Proof.Machine
end

