-- ==== Sys2Proof/Machine/Ops.lean ====
section
/-! DEFINITION. The shared operations: memory and its poison, the working record of a step, event
records and interrupts, halts, notices, slot tags, and the accessors of the live configuration. -/

namespace Sys2Proof.Machine

open Sys2Proof.Config

/-! ### Memory (R22 to R29, R132, R148, R193) -/

/-- What a step does to memory. -/
inductive MemOp where
  /-- bytes written at an address -/
  | store (addr : Nat) (data : List Byte)
  /-- an HBM word, or a pond word, that receives poison -/
  | poisonHbm (word : Nat)
  | poisonPond (word : Nat)
  /-- the bytes and poison of a range copied to another -/
  | copy (src dst len : Nat)
  /-- a range back to what unlisted memory reads as, without poison -/
  | clear (addr len : Nat)
  /-- the marking of granule sets changes (R27): sets with what they become, interleaved or not -/
  | remark (sets : List (Nat × Bool))
deriving DecidableEq, Repr

/-- What an unlisted byte reads as: the pond words are zero after reset (R138); for HBM this is the
model's choice (log entry 4). -/
def memInit : Byte := 0

/-- One byte. -/
def Mem.byte (m : Mem) (a : Nat) : Byte := AMap.get memInit m.cells a

/-- `n` bytes from `a`. -/
def Mem.bytes (m : Mem) : Nat → Nat → List Byte
  | _, 0 => []
  | a, n + 1 => m.byte a :: Mem.bytes m (a + 1) n

/-- Cells with bytes written from `a` on. -/
def writeCells : AMap Byte → Nat → List Byte → AMap Byte
  | c, _, [] => c
  | c, a, b :: bs => writeCells (AMap.set memInit c a b) (a + 1) bs

/-- A set without `n` elements from `k` on. -/
def NSet.delRange : NSet → Nat → Nat → NSet
  | s, _, 0 => s
  | s, k, n + 1 => NSet.delRange (NSet.del s k) (k + 1) n

/-- The whole words of `size` bytes that a write of `len` bytes at `a` covers: first and count. -/
def coveredWords (size a len : Nat) : Nat × Nat :=
  let lo := (a + size - 1) / size
  let hi := (a + len) / size
  (lo, hi - lo)

/-- The words of `size` bytes that a range touches: first and count. -/
def touchedWords (size a len : Nat) : Nat × Nat :=
  if len == 0 then (0, 0) else (a / size, (a + len - 1) / size + 1 - a / size)

/-- Cells whose address passes a test are removed. -/
def keepCells (p : Nat → Bool) (c : AMap Byte) : AMap Byte := c.filter fun x => p x.1

/-- Cells of a range copied elsewhere, one by one in rising order. -/
def copyCells : AMap Byte → Nat → Nat → Nat → AMap Byte → AMap Byte
  | [], _, _, _, c => c
  | (k, v) :: rest, src, dst, len, c =>
    copyCells rest src dst len
      (if src ≤ k ∧ k < src + len then AMap.set memInit c (k - src + dst) v else c)

/-- Elements of a set in a range copied elsewhere. -/
def copyWords : NSet → Nat → Nat → Nat → NSet → NSet
  | [], _, _, _, s => s
  | (k, v) :: rest, src, dst, len, s =>
    copyWords rest src dst len (if v ∧ src ≤ k ∧ k < src + len then NSet.add s (k - src + dst) else s)

/-! Granule sets (R24, R25). -/

/-- Bytes of HBM that a C-die owns (R24). -/
def dieBytes : Nat := 180 * 2 ^ 30

/-- Number of an HBM address's granule set. -/
def granuleOf (a : Nat) : Nat := a % dieBytes / 2 ^ 30

/-- The C-die that stores an address of an interleaved set and the offset there (R25). -/
def interleavedAt (a : Nat) : Nat × Nat :=
  let i := a / dieBytes * 262144 + a % 2 ^ 30 / 4096
  (i % 4, granuleOf a * 2 ^ 30 + i / 4 * 4096 + a % 4096)

/-- The address of an interleaved set that is stored where a die-local set stores `a`. -/
def interleavedFrom (a : Nat) : Nat :=
  let i := 4 * (a % 2 ^ 30 / 4096) + a / dieBytes
  i / 262144 * dieBytes + granuleOf a * 2 ^ 30 + i % 262144 * 4096 + a % 4096

/-- The address at which what `a` held is found once its set has changed: the data stays where it is stored
(R27). -/
def remarked (sets : List (Nat × Bool)) (a : Nat) : Nat :=
  if pondBase ≤ a then a
  else match sets.find? fun x => x.1 == granuleOf a with
    | none => a
    | some (_, true) => interleavedFrom a
    | some (_, false) => (interleavedAt a).1 * dieBytes + (interleavedAt a).2

/-- Cells found at new addresses. -/
def moveCells (f : Nat → Nat) : AMap Byte → AMap Byte
  | [] => []
  | (k, v) :: rest => AMap.set memInit (moveCells f rest) (f k) v

/-- Elements of a set found at new places. -/
def moveWords (f : Nat → Nat) : NSet → NSet
  | [] => []
  | (k, v) :: rest => if v then NSet.add (moveWords f rest) (f k) else moveWords f rest

/-- One memory operation. A write that covers a poisoned word whole replaces it; one that covers part
of it leaves it poisoned (R148, R193). -/
def Mem.apply (m : Mem) : MemOp → Mem
  | .store a d =>
    let h := coveredWords 32 a d.length
    let p := coveredWords 8 (a - pondBase) d.length
    { cells := writeCells m.cells a d
      hbmPoison := if a < pondBase then NSet.delRange m.hbmPoison h.1 h.2 else m.hbmPoison
      pondPoison := if a < pondBase then m.pondPoison else NSet.delRange m.pondPoison p.1 p.2 }
  | .poisonHbm k => { m with hbmPoison := NSet.add m.hbmPoison k }
  | .poisonPond k => { m with pondPoison := NSet.add m.pondPoison k }
  | .copy s d n =>
    let out := fun k => !(decide (d ≤ k) && decide (k < d + n))
    let outH := fun k => !(decide (d / 32 ≤ k) && decide (k < (d + n) / 32))
    { m with
      cells := copyCells m.cells s d n (keepCells out m.cells)
      hbmPoison := copyWords m.hbmPoison (s / 32) (d / 32) (n / 32)
        (m.hbmPoison.filter fun x => outH x.1) }
  | .clear a n =>
    let out := fun k => !(decide (a ≤ k) && decide (k < a + n))
    { cells := keepCells out m.cells
      hbmPoison := m.hbmPoison.filter fun x => out (32 * x.1)
      pondPoison := m.pondPoison.filter fun x => out (pondBase + 8 * x.1) }
  | .remark l =>
    { m with
      cells := moveCells (remarked l) m.cells
      hbmPoison := moveWords (fun k => remarked l (32 * k) / 32) m.hbmPoison }

/-- Memory after a list of operations, oldest first. -/
def Mem.applyAll : Mem → List MemOp → Mem
  | m, [] => m
  | m, o :: os => Mem.applyAll (m.apply o) os

/-- The canonical form of memory: cells and poison sets by rising key without default entries. -/
def Mem.wf (m : Mem) : Bool :=
  AMap.wf memInit m.cells && AMap.wf false m.hbmPoison && AMap.wf false m.pondPoison

/-- Whether `n` bytes from `a` lie in HBM (R22). -/
def inHbm (a n : Nat) : Bool := decide (a + n ≤ hbmBytes)

/-- Whether `n` bytes from `a` lie in the slots of one cluster's pond window (R28). -/
def inPond (a n : Nat) : Bool :=
  decide (pondBase ≤ a) && decide ((a - pondBase) / pondWindow < clusters)
    && decide ((a - pondBase) % pondWindow + n ≤ slotsPerCluster * slotBytes)

/-- The cluster of a pond address (R28). -/
def pondCluster (a : Nat) : Nat := (a - pondBase) / pondWindow

/-- The global number, cluster × 6144 + slot, of the slot that holds a pond address (R28). -/
def slotAt (a : Nat) : Nat :=
  pondCluster a * slotsPerCluster + (a - pondBase) % pondWindow / slotBytes

/-- The address of a global slot number (R28). -/
def slotAddr (g : Nat) : Nat :=
  pondBase + g / slotsPerCluster * pondWindow + g % slotsPerCluster * slotBytes

/-- The logical core that holds a slot (R28). -/
def slotCore (g : Nat) : Nat := g % slotsPerCluster % 16

/-! ### The working record of a step -/

/-- A step's working record: memory as the step found it, the operations on it so far, and the
block. -/
structure Wk where
  base : Mem
  ops  : List MemOp
  dev  : Dev
deriving DecidableEq, Repr

/-- Memory as the step has left it so far. -/
def Wk.mem (w : Wk) : Mem := w.base.applyAll w.ops

/-- One more memory operation. -/
def Wk.op (w : Wk) (o : MemOp) : Wk := { w with ops := w.ops ++ [o] }

/-- Bytes written at an address. -/
def Wk.put (w : Wk) (a : Nat) (d : List Byte) : Wk := if d.isEmpty then w else w.op (.store a d)

/-- The block changed. -/
def Wk.up (w : Wk) (f : Dev → Dev) : Wk := { w with dev := f w.dev }

def Wk.bytes (w : Wk) (a n : Nat) : List Byte := w.mem.bytes a n

/-- The little-endian number in `n` bytes at `a` (R4). -/
def Wk.num (w : Wk) (a n : Nat) : Nat := leNat (w.bytes a n)

/-- The 32-bit word at `a`. -/
def Wk.w32 (w : Wk) (a : Nat) : W32 := BitVec.ofNat 32 (w.num a 4)

/-- Run an action for each element of a list. -/
def Wk.each {α : Type} (l : List α) (f : Wk → α → Wk) (w : Wk) : Wk := l.foldl f w

/-- Do `f` where a condition holds. -/
def Wk.ite (c : Bool) (f : Wk → Wk) (w : Wk) : Wk := if c then f w else w

/-- The state after an action: memory takes the operations, the block takes its new value, and the
queue of commands stays. -/
def run (s : State) (f : Wk → Wk) : State :=
  let w := f ⟨s.mem, [], s.dev⟩
  { s with mem := s.mem.applyAll w.ops, dev := w.dev }

/-- A command that always completes. -/
def done (s : State) (f : Wk → Wk) : Host.Outcome State Fault Refusal := .next (run s f)

/-! ### Live configuration (R52 to R66) -/

def byteAt (l : List Byte) (i d : Nat) : Nat := (l.map BitVec.toNat).getD i d

def numAt (l : List Byte) (i n : Nat) : Nat := leNat ((l.drop i).take n)

/-- Byte `c` of the cluster stream partition (R55). -/
def Conf.part (k : Conf) (c : Nat) : Nat := byteAt k.partition c 0x0F

def Conf.sgroup (k : Conf) (c : Nat) : Nat := bits (k.part c) 3 0

/-- The image enable bit of a stream (R55). -/
def Conf.streamOn (k : Conf) (c s : Nat) : Bool := bit (k.part c) (4 + s)

/-- The cluster's array shape (R57). -/
def Conf.shape (k : Conf) (c : Nat) : Nat := byteAt k.shapes c 0

/-- The tandem partner of a logical core (R56); 255 for none. -/
def Conf.partner (k : Conf) (c i : Nat) : Nat := byteAt k.tandem (16 * c + i) 0xFF

/-- The accessor mask of a turn on a bank (R58). -/
def Conf.turn (k : Conf) (c b t : Nat) : Nat := byteAt k.turns (264 * c + 8 + 16 * b + t) 0

/-- A die's share of a class in 1/32 (R60): 0 READ, 1 WRITE, 2 REMOTE. -/
def Conf.share (k : Conf) (die cls : Nat) : Nat :=
  byteAt k.splits (4 * die + cls) (if cls == 0 then 20 else if cls == 1 then 8 else 4)

/-- Whether granule set `g` is interleaved (R61). -/
def Conf.interleaved (k : Conf) (g : Nat) : Bool := byteAt k.regions g 0 == 1

/-- RUN15_EN (R65). -/
def Conf.run15 (k : Conf) (c : Nat) : Bool := bit (byteAt k.spares c 0) 0

/-- The sparse threshold value (R65). -/
def Conf.thresh (k : Conf) (c : Nat) : Nat := byteAt k.sparse c 32

def Conf.modules (k : Conf) : Nat := numAt k.roles 0 2
def Conf.runners (k : Conf) : Nat := numAt k.roles 2 2

/-- Field of `n` bytes at offset `o` of a position's roles entry (R54). -/
def Conf.roleField (k : Conf) (p o n : Nat) : Nat := numAt k.roles (16 + 16 * p + o) n

def Conf.roleId (k : Conf) (p : Nat) : Nat := k.roleField p 0 8
def Conf.role (k : Conf) (p : Nat) : Nat := k.roleField p 8 1
def Conf.group (k : Conf) (p : Nat) : Nat := k.roleField p 9 1
def Conf.member (k : Conf) (p : Nat) : Nat := k.roleField p 0xA 1
def Conf.feed (k : Conf) (p : Nat) : Nat := k.roleField p 0xB 1
def Conf.runnerIdx (k : Conf) (p : Nat) : Nat := k.roleField p 0xC 2
def Conf.kind (k : Conf) (p : Nat) : Nat := k.roleField p 0xE 1

/-- The position of a module id in the roles section (R54). -/
def Conf.posOf (k : Conf) (id : Nat) : Option Nat :=
  (List.range k.modules).find? fun p => k.roleId p == id

/-- The position of the starter. -/
def Conf.starter (k : Conf) : Option Nat := (List.range k.modules).find? fun p => k.role p == 0

/-- The position of a runner index (R54). -/
def Conf.runnerPos (k : Conf) (r : Nat) : Option Nat :=
  (List.range k.modules).find? fun p => k.role p == 2 && k.runnerIdx p == r

def Conf.autoRemap (k : Conf) : Bool := bit (byteAt k.relay 2 0) 0

/-- The relay-map entry of a port (R62): peer position, peer port, kind. -/
def Conf.peer (k : Conf) (pos p : Nat) : Nat × Nat × Nat :=
  let o := 16 + 68 * pos + 4 + 4 * p
  if k.relay.isEmpty then (0xFFFF, 0, 0)
  else (numAt k.relay o 2, numAt k.relay (o + 2) 1, numAt k.relay (o + 3) 1)

def Conf.tickParent (k : Conf) (pos : Nat) : Nat := byteAt k.relay (16 + 68 * pos + 2) 0xFF

/-- Parity group `g` (R63): scheme and the positions of its members. -/
def Conf.parityGroup (k : Conf) (g : Nat) : Nat × List Nat :=
  let o := 16 + 36 * g
  (numAt k.parity o 1,
    (List.range 16).filterMap fun i =>
      let r := numAt k.parity (o + 4 + 2 * i) 2
      if r == 0xFFFF then none else k.runnerPos r)

def Conf.parityGroups (k : Conf) : Nat := numAt k.parity 0xC 2

/-! ### Accessors of the block -/

def Dev.live (d : Dev) : Conf := d.img.live

/-- This module's position in the live roles section; none outside a domain. -/
def Dev.pos (d : Dev) : Option Nat := d.live.posOf d.moduleId.toNat

/-- The role in force: 0 starter, 1 standby, 2 runner, 3 none (R362). -/
def Dev.role (d : Dev) : Nat :=
  match d.pos with
  | none => 3
  | some p => if d.dom.newStarter == some p then 0 else d.live.role p

/-- The module belongs to a domain (R349). -/
def Dev.inDomain (d : Dev) : Bool := d.pos.isSome

/-- The position of the starter in force (R360). -/
def Dev.starterPos (d : Dev) : Option Nat := d.dom.newStarter.or d.live.starter

def strKey (c s : Nat) : Nat := 3 * c + s

def Dev.stream (d : Dev) (c s : Nat) : Stream := AMap.get .zero d.streams (strKey c s)

def Dev.setStream (d : Dev) (c s : Nat) (f : Stream → Stream) : Dev :=
  { d with streams := AMap.upd .zero d.streams (strKey c s) f }

/-- The heats of one stream. -/
def Dev.streamHeats (d : Dev) (c s : Nat) : List Heat :=
  d.mar.heats.filter fun h => h.id.cluster.val == c && h.id.stream.num == s

/-- The lowest of two indices in serial order (R198). -/
def serialMin (a b : W32) : W32 := if serialBefore b a then b else a

/-- RETIRE (R199): the lowest index that has neither retired nor completed its cancellation. -/
def Dev.retire (d : Dev) (c s : Nat) : W32 :=
  (d.streamHeats c s).foldl (fun r h => serialMin r h.id.index) (d.stream c s).fetch

/-- STATE of a stream (R204): 0 DISABLED, 1 RUNNING, 2 DRAINING, 3 HALTED. -/
def Dev.streamState (d : Dev) (c s : Nat) : Nat :=
  let t := d.stream c s
  if t.halt != 0 then 3
  else if t.enable && d.live.streamOn c s then 1
  else if (d.streamHeats c s).isEmpty then 0 else 2

/-- Every stream of every cluster is DISABLED (R379, R435). -/
def Dev.allDisabled (d : Dev) : Bool :=
  d.mar.heats.isEmpty && d.streams.all fun x => d.streamState (x.1 / 3) (x.1 % 3) == 0

def Dev.heat (d : Dev) (h : HeatId) : Option Heat := d.mar.heats.find? fun x => x.id == h

def Dev.setHeat (d : Dev) (h : HeatId) (f : Heat → Heat) : Dev :=
  { d with mar := { d.mar with heats := updWhere (fun x => x.id == h) f d.mar.heats } }

def Dev.dropHeat (d : Dev) (h : HeatId) : Dev :=
  { d with mar := { d.mar with heats := d.mar.heats.filter fun x => x.id != h } }

def Heat.running (h : Heat) : Bool := h.state == .running || h.state == .cancelling

/-- Requests of a heat that are outstanding or wait (R187). -/
def Dev.heatReqs (d : Dev) (h : HeatId) : List Req := d.hbm.reqs.filter fun r => r.heat == some h

/-- Frames of a heat not yet accepted by the next hop (R310). -/
def Dev.heatFrames (d : Dev) (h : HeatId) : Nat :=
  let mine := fun (l : List Sent) => (l.filter fun s => s.heat == some h).length
  d.rly.ports.foldl (fun n p => n + mine p.2.store) (mine d.rly.unsent)

def Dev.port (d : Dev) (p : Nat) : Port := AMap.get .zero d.rly.ports p

def Dev.setPort (d : Dev) (p : Nat) (f : Port → Port) : Dev :=
  { d with rly := { d.rly with ports := AMap.upd .zero d.rly.ports p f } }

def Dev.wset (d : Dev) (w : Nat) : WSet := AMap.get .zero d.upd.wsets w

def Dev.setWset (d : Dev) (w : Nat) (f : WSet → WSet) : Dev :=
  { d with upd := { d.upd with wsets := AMap.upd .zero d.upd.wsets w f } }

/-! ### Banks and turns (R131, R134, R135) -/

/-- The row of a slot that holds its byte `o`, the bank of a row, and the bank row of row `w` of local
slot `l` (R131). -/
def slotRow (o : Nat) : Nat := o / 64
def rowBank (w : Nat) : Nat := w % 16
def bankRow (l w : Nat) : Nat := 2 * l + w / 16

/-- The accessors of a pond by their bits in the turn masks (R58). -/
def accA : Nat := 0
def accW : Nat := 1
def accDrain : Nat := 2
def accVector : Nat := 3
def accSparse : Nat := 4
def accIn : Nat := 5
def accOut : Nat := 6
def accGather : Nat := 7

/-- The pond banks that a range touches, with its cluster: cluster × 16 + bank. -/
def banksOf (p : Nat × Nat) : List Nat :=
  if p.1 < pondBase ∨ p.2 = 0 then []
  else
    let o := (p.1 - pondBase) % slotBytes
    let lo := slotRow o
    (List.range (min 16 (slotRow (o + p.2 - 1) + 1 - lo))).map fun i =>
      pondCluster p.1 * 16 + rowBank (lo + i)

/-- The live turn table gives an accessor a turn on a bank (R134). -/
def Conf.owns (k : Conf) (c acc bank : Nat) : Bool :=
  (List.range 16).any fun t => k.turn c bank t == 2 ^ acc

/-- An accessor has a turn on every bank that it needs: without one it never moves (R134). -/
def Dev.turns (d : Dev) (acc : Nat) (l : List (Nat × Nat)) : Bool :=
  (nub (l.map banksOf).flatten []).all fun b => d.live.owns (b / 16) acc (b % 16)

/-! ### Slot tags (R138 to R145) -/

/-- A FULL slot that a release makes EMPTY is EMPTY once its cycle has come (R141). -/
def Dev.left (d : Dev) (g : Nat) : Bool :=
  let n := AMap.get 0 d.mar.leaving g
  n != 0 && decide (n ≤ d.now + 1)

def Dev.isFull (d : Dev) (g : Nat) : Bool := NSet.has d.mar.full g && !d.left g
def Dev.isClaimed (d : Dev) (g : Nat) : Bool := NSet.has d.mar.claim g

/-- A running release that waits for the claim of a slot to end (R145). -/
def Heat.awaits (h : Heat) (g : Nat) : Bool := h.state == .running && (h.at 0).held.contains g

/-- The progress of a stage of a heat changed. -/
def Heat.upAt (h : Heat) (st : Nat) (f : Prog → Prog) : Heat :=
  { h with prog := AMap.upd .zero h.prog st f }

/-- The marshal with the tags of one slot set. -/
def Dev.tag (d : Dev) (g : Nat) (full claim : Bool) (leave : Nat) : Dev :=
  { d with mar := { d.mar with
      full := AMap.set false d.mar.full g full, claim := AMap.set false d.mar.claim g claim
      leaving := AMap.set 0 d.mar.leaving g leave } }

/-- A slot becomes FULL and its claim clears (R139); where a release waits for it, it is FULL in the
next cycle and EMPTY from the one after (R141, R145). -/
def Dev.fillSlot (d : Dev) (g : Nat) : Dev :=
  let wanted := d.mar.heats.any fun h => h.awaits g
  let d := d.tag g true false (if wanted then d.now + 3 else 0)
  if wanted then
    { d with mar := { d.mar with heats := updWhere (fun h => h.awaits g) (fun h => h.upAt 0 fun p =>
        { p with held := p.held.filter fun x => x != g, going := p.going ++ [g] }) d.mar.heats } }
  else d

/-- A slot becomes EMPTY (R140, R145). -/
def Dev.emptySlot (d : Dev) (g : Nat) : Dev := d.tag g false (d.isClaimed g) 0

/-- A slot is claimed (R139). -/
def Dev.claimSlot (d : Dev) (g : Nat) : Dev := d.tag g false true 0

/-- A claim is withdrawn: the slot returns to EMPTY and unclaimed (R144), and a release that waited for
it is complete for it (R145). -/
def Dev.unclaimSlot (d : Dev) (g : Nat) : Dev :=
  let wanted := d.mar.heats.any fun h => h.awaits g
  let d := d.tag g false false 0
  if wanted then
    { d with mar := { d.mar with heats := updWhere (fun h => h.awaits g) (fun h => h.upAt 0 fun p =>
        { p with held := p.held.filter fun x => x != g }) d.mar.heats } }
  else d

/-! ### Interrupts and output (R422, R423) -/

/-- Something leaves the module. -/
def Dev.emit (d : Dev) (o : Output) : Dev := { d with out := d.out ++ [o] }

/-- A vector is raised (R423): its message is sent, or its pending bit is set while it is masked or
the function is no bus master. -/
def Dev.msix (d : Dev) (v : Nat) : Dev :=
  if NSet.has d.pcie.pba v then d
  else if NSet.has d.pcie.unmasked v && d.pcie.busMaster then d.emit (.msix v)
  else { d with pcie := { d.pcie with pba := NSet.add d.pcie.pba v } }

/-! ### Event records (R424 to R427) -/

/-- A record with nothing in it but its code and severity. -/
def Rec.of (code severity : Nat) : Rec :=
  ⟨code, severity, false, 0, 0, 0, 0xFF, 0xFF, 0xFF, 0xFF, 0, 0, 0, []⟩

/-- The record of an event of a stream command. -/
def Rec.ofHeat (code severity : Nat) (h : HeatId) (cmdId : W32) : Rec :=
  { Rec.of code severity with
    cluster := h.cluster.val, stream := h.stream.num, cmdId := cmdId, index := h.index }

/-- Ring size in records (R429); 0 while no ring is configured. -/
def Evt.size (e : Evt) : Nat := if e.ring == 0 then 0 else 2 ^ bits e.ring.toNat 4 0

/-! ### Bits that are written 1 to clear (R5, R7) -/

/-- The hardware sets bit `b` of the W1C register at a BAR0 offset in this cycle. -/
def Dev.latch (d : Dev) (reg b : Nat) : Dev := { d with latched := AMap.set 0 d.latched (64 * reg + b) (d.now + 1) }

/-- A bit was set in this cycle: a write that clears it in the same cycle loses (R7). -/
def Dev.justSet (d : Dev) (reg b : Nat) : Bool := AMap.get 0 d.latched (64 * reg + b) == d.now + 1

/-- A W1C bit after a write of `v` to its register. -/
def Dev.w1c (d : Dev) (reg b v : Nat) (old : Bool) : Bool := old && (!bit v b || d.justSet reg b)

/-- The bits of a write of `v` to a W1C register that clear something. -/
def Dev.clears (d : Dev) (reg v : Nat) : Nat :=
  (List.range 32).foldl (fun n b => n + (if bit v b && !d.justSet reg b then 2 ^ b else 0)) 0

/-- Records the ring has room for now. -/
def Dev.evtRoom (d : Dev) : Nat :=
  if d.evt.enable && d.pcie.busMaster then d.evt.size - (d.evt.tail - d.evt.head).toNat else 0

def Evt.drop (e : Evt) : Evt :=
  { e with overflow := true, lostBefore := true,
           lost := if e.lost == 0xFFFFFFFF then e.lost else e.lost + 1 }

/-- The buffer with its oldest record of severity 0 removed. -/
def dropInfo (l : List Rec) : Option (List Rec) :=
  (takeFirst (fun r => r.severity == 0) l).map Prod.snd

/-- A record enters the buffer, or one is dropped, under R427, and whether one was; records the ring has room
for wait only for EVENT_RING_WRITE. -/
def Dev.buffer (d : Dev) (r : Rec) : Evt × Bool :=
  let e := d.evt
  let keep := ({ e with buffer := e.buffer ++ [r] }, false)
  if e.buffer.length < d.evtRoom then keep
  else
    let general := ((e.buffer.drop d.evtRoom).filter fun x => !e.reserve.contains x.seq).length
    if general < evtGeneral then keep
    else if r.severity == 3 && decide (e.reserve.length < evtReserved) then
      ({ e with buffer := e.buffer ++ [r], reserve := e.reserve ++ [r.seq] }, false)
    else if r.severity == 2 then
      match dropInfo e.buffer with
      | some b => ({ e.drop with buffer := b ++ [r] }, true)
      | none => (e.drop, true)
    else (e.drop, true)

/-- A record is raised (R424): it takes the next SEQ and the time, and every record of severity 2
sends FAULT_NOTE (R438). -/
def Dev.raise (d : Dev) (r : Rec) : Dev :=
  let r := { r with seq := d.evt.seq, lap := d.lap.count, cycle := d.lap.cycle }
  let (e, dropped) := d.buffer r
  let d := { d with evt := { e with seq := e.seq + 1, recent := (r :: e.recent).take 256 } }
  let d := if dropped then d.latch 0x3018 0 else d
  if r.severity == 2 then d.emit (.mctp ([0x11] ++ leBytes 2 r.code ++ leBytes 4 r.seq.toNat)) else d

/-- A severity-3 record, raised at most once between cold starts for its key (R427). -/
def Dev.raiseOnce (d : Dev) (key : Nat) (r : Rec) : Dev :=
  if NSet.has d.flt.raised key then d
  else { d with flt := { d.flt with raised := NSet.add d.flt.raised key } }.raise r

/-- The 64 bytes of a record (R424). -/
def Rec.bytes (r : Rec) (lostBefore phase : Bool) : List Byte :=
  let flags := b2n r.conseq + 2 * b2n lostBefore + 128 * b2n phase
  let b := leBytes 2 r.code ++ leBytes 1 r.severity ++ leBytes 1 flags ++ leBytes 4 r.seq.toNat
    ++ leBytes 8 r.lap.toNat ++ leBytes 4 r.cycle ++ leBytes 1 r.cluster ++ leBytes 1 r.stream
    ++ leBytes 1 r.unit ++ leBytes 1 r.spares ++ leBytes 4 r.cmdId.toNat ++ leBytes 4 r.index.toNat
    ++ leBytes 8 r.addr ++ (r.detail ++ List.replicate 20 0).take 20
  b ++ leBytes 4 (crc32c b).toNat

/-- A stream-config record for a dropped write (R202): DETAIL holds the BAR0 offset. -/
def Dev.streamConfig (d : Dev) (offset : Nat) : Dev :=
  d.raise { Rec.of 0x0046 1 with detail := leBytes 4 offset }

/-! ### The replacement request (R370, R371) -/

/-- A cause of R370 arises: bit `n` of `FLT_REPL`. -/
def Dev.replace (d : Dev) (n : Nat) : Dev :=
  if d.flt.repl.toNat.testBit n then d
  else
    let first := d.flt.repl == 0
    let v := d.flt.repl ||| 1 ||| BitVec.ofNat 10 (2 ^ n)
    let d := { d with flt := { d.flt with repl := v, replPin := true } }
    let d := if first then (d.emit (.mctp ([0x10] ++ leBytes 4 v.toNat))).msix 772 else d
    d.raiseOnce (0x00A0 * 256 + n) { Rec.of 0x00A0 3 with detail := leBytes 4 v.toNat }

/-! ### Notices (R301, R40) -/

/-- The code of a notice's kind in its payload (log entry 110). -/
def noticeCode : NoticeKind → Nat
  | .overrun => 0 | .fault => 1 | .lapLockLoss => 2 | .lateDecision => 3 | .shardPoison => 4 | .rebuilt => 5
  | .goingDown => 6

/-- MTYPE of a message (R301). -/
def Message.mtype : Message → Nat
  | .tick _ _ _ => 1 | .echoRequest _ => 2 | .echoResponse _ _ => 3 | .contribution _ => 4 | .decision _ => 5
  | .notice _ => 6 | .identity _ _ _ _ => 7 | .ack _ _ _ => 8

/-- The payload of a message (R301, R353). Where R301 names fields without offsets, they follow one
another in its order (log entry 110). -/
def Message.payload : Message → List Byte
  | .tick l p g => leBytes 8 l.toNat ++ leBytes 2 p ++ leBytes 2 g
  | .echoRequest a => leBytes 4 a
  | .echoResponse a b => leBytes 4 a.toNat ++ leBytes 4 b.toNat
  | .contribution c => leBytes 4 c.hseq.toNat ++ [c.hkind, c.hflags] ++ leBytes 2 c.pos.toNat ++ leBytes 8 c.lap.toNat
      ++ (c.data ++ List.replicate 32 0).take 32
  | .decision c => leBytes 4 c.hseq.toNat ++ [c.hkind, c.verdict] ++ leBytes 2 c.pos.toNat ++ leBytes 8 c.lap.toNat
      ++ (c.data ++ List.replicate 32 0).take 32 ++ leBytes 4 c.arg.toNat
  | .notice n => [n.cluster, n.stream] ++ leBytes 1 (noticeCode n.kind) ++ leBytes 2 n.pos.toNat
  | .identity i p k s => leBytes 8 i.toNat ++ leBytes 1 p ++ [if k == .vozer then 1 else 0, s]
  | .ack c q r => leBytes 1 c ++ leBytes 4 q.toNat ++ leBytes 2 r.toNat

/-- The 64 bytes of a control frame (R301). -/
def Message.frame (m : Message) (depart : Nat) : List Byte :=
  let h := leBytes 1 2 ++ leBytes 1 m.mtype ++ leBytes 2 0 ++ leBytes 4 depart
    ++ (m.payload ++ List.replicate 52 0).take 52
  h ++ leBytes 4 (crc32c h).toNat

/-- A Vozer V3 peer is sent only identity and acknowledgement messages (R301). -/
def Message.forVozer : Message → Bool
  | .identity _ _ _ _ | .ack _ _ _ => true
  | _ => false

/-- A control message leaves by a port (R301); DEPART counts from the last effective edge. -/
def Dev.send (d : Dev) (port : Nat) (m : Message) : Dev :=
  if (d.port port).peerKind == 2 && !m.forVozer then d else d.emit (.control port m (m.frame d.lap.cycle))

/-- The port toward the starter: the tick parent, or its replacement in the remap table (R352); after
a TAKEOVER the next hop toward the new starter (R359). -/
def Dev.parentPort (d : Dev) : Option Nat :=
  match d.pos with
  | none => none
  | some p =>
    if d.dom.newStarter.isSome then (if d.dom.newStarter == some p then none else d.dom.upPort)
    else
      let t := d.live.tickParent p
      if t == 0xFF then none
      else
        let want := (d.live.peer p t).1
        match (List.range 16).find? fun q => (d.port q).remapped && (d.port q).peerPos == want with
        | some q => some q
        | none => some t

/-- A notice goes up the tick-parent chain (R301); on the starter, NOTICE handles its arrival. -/
def Dev.notify (d : Dev) (cluster stream : Nat) (k : NoticeKind) : Dev :=
  match d.pos, d.parentPort with
  | some p, some q =>
    d.send q (.notice ⟨BitVec.ofNat 16 p, BitVec.ofNat 8 cluster, BitVec.ofNat 8 stream, k⟩)
  | _, _ => d

/-! ### Halts (R204) -/

/-- A stream halts: while it is halted only a cause other than a decode reject replaces a decode
reject (R204). -/
def Dev.halt (d : Dev) (c s cause : Nat) (idx : W32) : Dev :=
  let t := d.stream c s
  if t.halt == 0 then
    (d.setStream c s fun t => { t with halt := cause, haltIdx := idx }).msix (384 + 3 * c + s)
  else if t.halt == 2 && cause != 2 then
    d.setStream c s fun t => { t with halt := cause, haltIdx := idx }
  else d

/-- A stream is halted from dispatch (R229). -/
def Dev.noDispatch (d : Dev) (c s : Nat) : Bool :=
  let t := d.stream c s
  t.halt != 0 && t.halt != 2

/-! ### Host access and steps of the block alone -/

/-- BAR0 serves every register (R476). -/
def Dev.hostOpen (d : Dev) : Bool := decide (6 ≤ d.start.step)

/-- BAR0 serves the identity, boot, event, fault, power and cooling registers (R476). -/
def Dev.hostEarly (d : Dev) : Bool := decide (4 ≤ d.start.step)

/-- A host write takes effect while BAR0 serves its register (R476). -/
def Dev.hostWrite (d : Dev) (f : Dev → Dev) : Dev := if d.hostOpen then f d else d

/-- A change of the block alone. -/
def devOnly (s : State) (f : Dev → Dev) : Host.Outcome State Fault Refusal :=
  done s fun w => w.up f

end Sys2Proof.Machine
end

