-- ==== Sys2Proof/Machine/Operands.lean ====
section
/-! DEFINITION. Tensor operands (R79 to R94, R150 to R164): element order and addresses, the slots
and lines a tensor touches, the injectivity check, reading elements with their scales and poison,
and writing elements with conversion, MX blocks, scales and amax folds. -/

namespace Sys2Proof.Machine

open Sys2Proof.Config

/-! ### Iteration order and addresses (R153, R155, R156) -/

def Desc.ndim (t : Desc) : Nat := t.ext.length

/-- Elements of a tensor. -/
def Desc.size (t : Desc) : Nat := t.ext.foldl (· * ·) 1

/-- The index tuple at an iteration position, dimension 0 fastest (R155). -/
def unravel : List Nat → Nat → List Nat
  | [], _ => []
  | n :: ns, p => p % n :: unravel ns (p / n)

/-- The iteration position of an index tuple. -/
def ravel : List Nat → List Nat → Nat
  | n :: ns, i :: is => i + n * ravel ns is
  | _, _ => 0

/-- The element offset of an index tuple (R153). -/
def dot : List Nat → List Int → Int
  | i :: is, s :: ss => (i : Int) * s + dot is ss
  | _, _ => 0

def Desc.offset (t : Desc) (idx : List Nat) : Int := dot idx t.stride

/-- Lowest and highest element offsets (R156). -/
def Desc.lo (t : Desc) : Int :=
  (t.ext.zip t.stride).foldl (fun a x => a + min 0 (((x.1 : Int) - 1) * x.2)) 0
def Desc.hi (t : Desc) : Int :=
  (t.ext.zip t.stride).foldl (fun a x => a + max 0 (((x.1 : Int) - 1) * x.2)) 0

/-- Address and length in bytes of the storage of the element at an offset: its own bytes, or its
block for the sub-byte formats (R153). -/
def Desc.place (t : Desc) (e : Int) : Nat × Nat :=
  if t.fmt.subByte then
    let n := t.fmt.blockBytes
    (((t.base : Int) + e / 32 * (n : Int)).toNat, n)
  else
    let n := t.fmt.bits / 8
    (((t.base : Int) + e * (n : Int)).toNat, n)

/-- First address and one past the last address of a tensor's span (R156). -/
def Desc.span (t : Desc) : Nat × Nat :=
  let a := t.place t.lo
  let b := t.place t.hi
  (a.1, b.1 + b.2)

/-- A tensor lies in HBM, or in the slots of one cluster (R156). -/
def Desc.inHbm (t : Desc) : Bool :=
  decide (0 ≤ (t.base : Int) + t.lo * (t.fmt.bits : Int) / 8) && Machine.inHbm t.span.1 (t.span.2 - t.span.1)
def Desc.inPond (t : Desc) : Bool :=
  decide (0 ≤ (t.base : Int) + t.lo * (t.fmt.bits : Int) / 8) && Machine.inPond t.span.1 (t.span.2 - t.span.1)

/-- A tensor lies in the pond of one cluster. -/
def Desc.inPondOf (t : Desc) (c : Nat) : Bool := t.inPond && pondCluster t.span.1 == c

/-- The injectivity check (R163) over extents and strides sorted by magnitude. -/
def reachOk : List (Nat × Nat) → Nat → Bool
  | [], _ => true
  | (s, n) :: l, r => decide (r < s) && reachOk l (r + s * (n - 1))

def Desc.injective (t : Desc) : Bool :=
  let dims := ((t.ext.zip t.stride).filter fun x => decide (1 < x.1)).map fun x => (x.2.natAbs, x.1)
  reachOk (dims.mergeSort fun a b => decide (a.1 ≤ b.1)) 0

/-- A zero stride with extent above 1 (R157, R162). -/
def Desc.broadcasts (t : Desc) : Bool :=
  (t.ext.zip t.stride).any fun x => decide (1 < x.1) && x.2 == 0

/-! ### Scales (R83, R93) -/

/-- Index of the MX block that holds an element, blocks in iteration order with BLOCK_DIM innermost
(R93). -/
def blockIndex (ext idx : List Nat) (b : Nat) : Nat :=
  idx.getD b 0 / 32 + ext.getD b 32 / 32 * ravel (ext.eraseIdx b) (idx.eraseIdx b)

/-- Blocks of an MX tensor. -/
def Desc.blocks (t : Desc) : Nat := t.size / 32

/-- Address and length of the scale of an element; length 0 where it has none. -/
def Desc.scalePlace (t : Desc) (idx : List Nat) : Nat × Nat :=
  match t.scale with
  | some s =>
    if s.kind == 1 then (s.base + blockIndex t.ext idx s.blockDim, 1)
    else if s.kind == 2 then (s.base, 4) else (0, 0)
  | none => (0, 0)

/-- The scale array's address and length. -/
def Desc.scaleSpan (t : Desc) : Nat × Nat :=
  match t.scale with
  | some s => if s.kind == 1 then (s.base, t.blocks) else if s.kind == 2 then (s.base, 4) else (0, 0)
  | none => (0, 0)

/-! ### What a tensor touches (R139, R156, R177) -/

/-- Every place of a tensor's elements and scales, one for each iteration position. -/
def Desc.places (t : Desc) : List (Nat × Nat) :=
  ((List.range t.size).map fun p => t.place (t.offset (unravel t.ext p)))
    ++ (let s := t.scaleSpan; if s.2 == 0 then [] else [s])

/-- The units of `size` bytes that a list of places touches, in first-touch order. -/
def unitsOf (size : Nat) (pl : List (Nat × Nat)) : List Nat :=
  nub (pl.map fun x =>
    let t := touchedWords size x.1 x.2
    (List.range t.2).map fun i => t.1 + i).flatten []

/-- The 128 B HBM lines of a list of places (R177), in first-touch order. -/
def hbmLines (pl : List (Nat × Nat)) : List Nat :=
  unitsOf 128 (pl.filter fun x => Machine.inHbm x.1 x.2)

/-- The pond slots among places, by global number. -/
def pondSlots (pl : List (Nat × Nat)) : List Nat :=
  nub ((unitsOf slotBytes (pl.filter fun x => Machine.inPond x.1 x.2)).map fun u => slotAt (u * slotBytes)) []

/-- The slots that hold any byte of a tensor or of its scales (R156), by global number. -/
def Desc.slots (t : Desc) : List Nat := pondSlots t.places

/-- The slots that hold elements of a tensor. -/
def Desc.elemSlots (t : Desc) : List Nat := ({ t with scale := none } : Desc).slots

/-- What a store of an element writes: its own bytes, and its MX scale byte (R93). -/
def Desc.writePlaces (t : Desc) (idx : List Nat) : List (Nat × Nat) :=
  let s := t.scalePlace idx
  t.place (t.offset idx) :: (if s.2 == 1 then [s] else [])

/-! ### Reading elements -/

/-- Bytes as an engine sees them: a byte and whether it lies in a poisoned word. -/
abbrev View := Nat → Byte × Bool

/-- Memory as it stands. -/
def Mem.view (m : Mem) : View := fun a =>
  (m.byte a, if a < pondBase then NSet.has m.hbmPoison (a / 32)
             else NSet.has m.pondPoison ((a - pondBase) / 8))

/-- The key under which a line is staged: the stage that asked for it, the fetch group, the line. -/
def stageKey (st grp line : Nat) : Nat := (st * 2 ^ 40 + grp) * 2 ^ 40 + line

/-- Ponds as they stand and HBM as it was served for a fetch group of a heat's stage (R176, R189). -/
def heatView (m : Mem) (staged : AMap Line) (st grp : Nat) : View := fun a =>
  if a < pondBase then
    match staged.find? fun x => x.1 == stageKey st grp (a / 128) with
    | some x => (x.2.data.getD (a % 128) 0, x.2.poison.contains (a % 128 / 32))
    | none => m.view a
  else m.view a

/-- A view in which some bytes from `a` on are those of numbers of `n` bytes read before. -/
def View.known (v : View) (a n : Nat) (ws : List (Nat × Bool)) : View := fun b =>
  if a ≤ b ∧ b < a + n * ws.length then
    let x := ws.getD ((b - a) / n) (0, false)
    (BitVec.ofNat 8 (x.1 / 256 ^ ((b - a) % n)), x.2)
  else v b

/-- The number in `n` bytes of a view, and whether any is poisoned. -/
def View.num (v : View) : Nat → Nat → Nat × Bool
  | _, 0 => (0, false)
  | a, n + 1 =>
    let r := v.num (a + 1) n
    ((v a).1.toNat + 256 * r.1, (v a).2 || r.2)

/-- The code of the element at an index tuple of an uncompressed tensor (R81). -/
def Desc.plainCode (t : Desc) (v : View) (idx : List Nat) : Nat × Bool :=
  let e := t.offset idx
  let pl := t.place e
  if t.fmt.subByte then
    let j := (e % 32).toNat
    let k := t.fmt.bits
    -- the bytes of the block that hold the element
    let lo := j * k / 8
    let r := v.num (pl.1 + lo) ((j * k + k - 1) / 8 + 1 - lo)
    (r.1 / 2 ^ (j * k - 8 * lo) % 2 ^ k, r.2)
  else v.num pl.1 pl.2

/-! ### Compressed tensors (R171 to R174) -/

/-- Extents in tiles: dimensions 0 and 1 divided by 128 (R172). -/
def Desc.tileExt (t : Desc) : List Nat :=
  t.ext.mapIdx fun d n => if d < 2 then n / 128 else n

/-- Tiles of a compressed tensor. -/
def Desc.tiles (t : Desc) : Nat := t.size / 16384

/-- Tile number of an element, with its row and column in the tile (R172, R173). -/
def Desc.tileOf (t : Desc) (idx : List Nat) : Nat × Nat × Nat :=
  (ravel t.tileExt (idx.mapIdx fun d i => if d < 2 then i / 128 else i), idx.getD 1 0 % 128, idx.getD 0 0 % 128)

/-- Tile-map entry `n`: offset of the storage in bytes from BASE, SPARSE and NNZ (R172). -/
def Desc.tileEntry (t : Desc) (v : View) (n : Nat) : Nat × Bool × Nat :=
  let e := (v.num (t.tileMap + 8 * n) 8).1
  (64 * bits e 39 0, bit e 40, bits e 56 42)

/-- Bytes of one element. -/
def Desc.unit (t : Desc) : Nat := t.fmt.bits / 8

/-- Storage of tile `n`: address and length as a load fetches it (R173, R174). -/
def Desc.tileRange (t : Desc) (v : View) (n : Nat) : Nat × Nat :=
  let e := t.tileEntry v n
  (t.base + e.1, if e.2.1 then (2048 + e.2.2 * t.unit + 63) / 64 * 64 else 16384 * t.unit)

/-- One bits below bit `k` of a bitmap at `a`, and whether a byte of it is poisoned. -/
def rank (v : View) (a k : Nat) : Nat × Bool :=
  let r := (List.range (k / 8)).foldl (fun x i =>
    let b := v (a + i)
    (x.1 + ((List.range 8).filter fun j => bit b.1.toNat j).length, x.2 || b.2)) (0, false)
  let b := v (a + k / 8)
  (r.1 + ((List.range (k % 8)).filter fun j => bit b.1.toNat j).length, r.2 || b.2)

/-- The code of element `k` of a tile's storage at `a` in its form (R173). -/
def tileCode (unit : Nat) (sparse : Bool) (v : View) (a k : Nat) : Nat × Bool :=
  if sparse then
    let r := rank v a k
    if bit (v (a + k / 8)).1.toNat (k % 8) then
      let x := v.num (a + 2048 + r.1 * unit) unit
      (x.1, x.2 || r.2)
    else (0, r.2)
  else v.num (a + k * unit) unit

/-- The tile-map entry of a tile lies in a poisoned word. -/
def Desc.entryBad (t : Desc) (v : View) (n : Nat) : Bool := (v.num (t.tileMap + 8 * n) 8).2

/-- The code of an element of a compressed tensor (R173). -/
def Desc.tiledCode (t : Desc) (v : View) (idx : List Nat) : Nat × Bool :=
  let p := t.tileOf idx
  let e := t.tileEntry v p.1
  let x := tileCode t.unit e.2.1 v (t.base + e.1) (128 * p.2.1 + p.2.2)
  (x.1, x.2 || t.entryBad v p.1)

/-- The code of the element at an index tuple. -/
def Desc.code (t : Desc) (v : View) (idx : List Nat) : Nat × Bool :=
  if t.tileMap == 0 then t.plainCode v idx else t.tiledCode v idx

/-- The places a read of a tensor touches: its elements and scales, or its tiles' storage. -/
def Desc.placesIn (t : Desc) (v : View) : List (Nat × Nat) :=
  if t.tileMap == 0 then t.places else (List.range t.tiles).map (t.tileRange v)

/-- A code of +0 or −0 (R173). -/
def Fmt.isZeroCode (f : Fmt) (c : Nat) : Bool := (f.value c).isZero

/-- A tile's storage in the form R174 chooses, and the low 57 bits above OFFSET of its entry. -/
def packTile (f : Fmt) (codes : List Nat) : List Byte × Nat :=
  let b := f.bits / 8
  let nz := codes.filter fun c => !f.isZeroCode c
  let len := (2048 + nz.length * b + 63) / 64 * 64
  if len > 16384 * b then ((codes.map (leBytes b)).flatten, setBits 0 56 42 nz.length)
  else
    let map := leBytes 2048 (codes.foldr (fun c n => b2n (!f.isZeroCode c) + 2 * n) 0)
    let data := map ++ (nz.map (leBytes b)).flatten
    (data ++ List.replicate (len - data.length) 0, setBits (2 ^ 40) 56 42 nz.length)

/-- The value of an element: its code times its scale (R83, R93); a KIND 0x2 product is rounded once
to FP32. -/
def Desc.scaled (t : Desc) (v : View) (idx : List Nat) (c : Nat × Bool) : FV × Bool :=
  let x := t.fmt.value c.1
  match t.scale with
  | some s =>
    let sp := t.scalePlace idx
    if s.kind == 1 then
      let k := v.num sp.1 1
      (x.mul (e8m0Value k.1), c.2 || k.2)
    else if s.kind == 2 then
      let k := v.num sp.1 4
      (fval (fround (x.mul (fval (BitVec.ofNat 32 k.1)))), c.2 || k.2)
    else (x, c.2)
  | none => (x, c.2)

def Desc.value (t : Desc) (v : View) (idx : List Nat) : FV × Bool := t.scaled v idx (t.code v idx)

/-- The element as FP32, for units that compute in FP32 (R127). -/
def Desc.f32 (t : Desc) (v : View) (idx : List Nat) : W32 × Bool :=
  let x := t.value v idx
  (fround x.1, x.2)

/-- The first poisoned pond address among places (R148). -/
def firstPoison (v : View) : List (Nat × Nat) → Option Nat
  | [] => none
  | (a, n) :: l =>
    match (List.range n).find? fun i => (v (a + i)).2 with
    | some i => some (a + i)
    | none => firstPoison v l

/-- The indices of an index tensor with their poison. -/
def Desc.indices (t : Desc) (v : View) : List (Int × Bool) :=
  (List.range t.size).map fun j =>
    let c := t.code v (unravel t.ext j)
    (signed 32 c.1, c.2)

/-! ### Writing elements (R86, R87, R93, R94, R160) -/

/-- Bytes to be written from an address, and whether they carry poison (R148). -/
abbrev Piece := Nat × List Byte × Bool

/-- The value a store converts: divided exactly by a KIND 0x2 scale (R93). -/
def Desc.descale (t : Desc) (v : View) (x : FV) : FV :=
  match t.scale with
  | some s => if s.kind == 2 then x.div (fval (BitVec.ofNat 32 (v.num s.base 4).1)) else x
  | none => x

/-- A code with the canonical NaN in place of any other NaN (R84). -/
def Fmt.canon (f : Fmt) (c : Nat) : Nat :=
  match f.value c with
  | .nan => f.convert false .nan
  | _ => c

/-- What a store takes for an element: a code copied unchanged, or a value to convert. -/
inductive Datum where
  | code (c : Nat)
  | val (x : FV)
deriving DecidableEq, Repr

/-- The code an element takes in the format of `t` (R86, R93). -/
def Datum.codeIn (t : Desc) (v : View) (ovf : Bool) : Datum → Nat
  | .code c => c
  | .val x => t.fmt.convert ovf (t.descale v x)

/-- The FP32 value of an element to be stored. -/
def Datum.f32 (f : Fmt) : Datum → W32
  | .code c => fround (f.value c)
  | .val x => fround x

def Desc.scaleKind (t : Desc) : Nat := (t.scale.map ScaleDesc.kind).getD 0
def Desc.blockDim (t : Desc) : Nat := (t.scale.map ScaleDesc.blockDim).getD 0

/-- Codes pass unchanged between equal formats without tensor scales. -/
def rawCopy (s d : Desc) : Bool := s.fmt == d.fmt && !s.fmt.isMx && s.scaleKind == 0 && d.scaleKind == 0

/-- MX blocks pass with their codes and scale bytes between equal codes and block dimensions (R160). -/
def mxSame (s d : Desc) : Bool := s.fmt.isMx && s.fmt == d.fmt && s.blockDim == d.blockDim

/-- What one element of a source gives a destination (R160): its code where the formats are equal, an
integer exactly, so that the store rounds it once (R85), and any other value as FP32. -/
def Desc.datum (s d : Desc) (v : View) (idx : List Nat) : Datum × Bool :=
  if rawCopy s d then let c := s.code v idx; (.code (s.fmt.canon c.1), c.2)
  else
    let x := s.value v idx
    (.val (if s.fmt.isInt then x.1 else fval (fround x.1)), x.2)

/-- The bytes of an element of a format that is not MX. -/
def Desc.piece (t : Desc) (v : View) (ovf : Bool) (idx : List Nat) (x : Datum × Bool) : Piece :=
  let pl := t.place (t.offset idx)
  (pl.1, leBytes pl.2 (x.1.codeIn t v ovf), x.2)

/-- The packed bytes of 32 sub-byte codes, or of one byte a code (R81). -/
def packCodes (f : Fmt) (codes : List Nat) : List Byte :=
  leBytes (4 * f.bits) (codes.foldr (fun c n => c + 2 ^ f.bits * n) 0)

/-- The index tuple of the first element of block `b` along BLOCK_DIM `dim` (R93). -/
def blockStart (ext : List Nat) (dim b : Nat) : List Nat :=
  let nb := ext.getD dim 32 / 32
  let rest := unravel (ext.eraseIdx dim) (b / nb)
  (rest.take dim) ++ [b % nb * 32] ++ rest.drop dim

/-- The index tuples of the 32 elements of a block. -/
def blockElems (ext : List Nat) (dim b : Nat) : List (List Nat) :=
  let st := blockStart ext dim b
  (List.range 32).map fun j => st.set dim (st.getD dim 0 + j)

/-- One MX block stored with its scale byte (R93): the words of each element carry that element's poison
and the scale's (R148). `win` says which elements stand (R164); blocks of a sub-byte format stand or
fall as a whole. -/
def Desc.blockStore (t : Desc) (s : ScaleDesc) (b : Nat) (win : List Nat → Bool) (scale : Nat × Bool)
    (codes : List (Nat × Bool)) : List Piece :=
  let es := blockElems t.ext s.blockDim b
  let k := t.fmt.bits
  let data :=
    if !t.fmt.subByte then
      (es.zip codes).filterMap fun x =>
        if win x.1 then some ((t.place (t.offset x.1)).1, leBytes 1 x.2.1, x.2.2 || scale.2) else none
    else if es.all win then
      let bytes := packCodes t.fmt (codes.map Prod.fst)
      let a := (t.place (t.offset (blockStart t.ext s.blockDim b))).1
      (List.range (bytes.length / 8)).map fun i =>
        (a + 8 * i, (bytes.drop (8 * i)).take 8, scale.2 || (List.range 32).any fun j =>
          decide (64 * i < (j + 1) * k ∧ j * k < 64 * (i + 1)) && (codes.getD j (0, false)).2)
    else []
  data ++ [(s.base + b, leBytes 1 scale.1, scale.2)]

/-- MX blocks of one code copied with their scale bytes (R160): `src` gives the source tuple. -/
def mxCopy (s d : Desc) (v : List Nat → View) (bs : List Nat) (win : List Nat → Bool) (src : List Nat → List Nat) :
    List Piece :=
  match d.scale with
  | none => []
  | some sc =>
    (bs.map fun b =>
      let i0 := blockStart d.ext sc.blockDim b
      d.blockStore sc b win ((v i0).num (s.scalePlace (src i0)).1 1)
        ((blockElems d.ext sc.blockDim b).map fun i => s.code (v i) (src i))).flatten

/-- MX blocks formed from values (R87); every word depends on every value (R148). -/
def Desc.mxPieces (t : Desc) (bs : List Nat) (win : List Nat → Bool) (x : List Nat → Datum × Bool) : List Piece :=
  match t.scale with
  | none => []
  | some s =>
    (bs.map fun b =>
      let e := (blockElems t.ext s.blockDim b).map x
      let q := mxBlock t.fmt (e.map fun y => y.1.f32 t.fmt)
      let bad := e.any Prod.snd
      t.blockStore s b win (q.1, bad) (q.2.map fun c => (c, bad))).flatten

/-- The index tuples of a tile's elements, row-major (R173). -/
def Desc.tileElems (t : Desc) (n : Nat) : List (List Nat) :=
  let c := unravel t.tileExt n
  (List.range 16384).map fun k =>
    c.mapIdx fun d i => if d == 0 then 128 * i + k % 128 else if d == 1 then 128 * i + k / 128 else i

/-- A tile of a compressed tensor stored (R174): its data, and its tile-map entry. -/
def Desc.tileStore (t : Desc) (v : View) (ovf : Bool) (n : Nat) (x : List Nat → Datum × Bool) : Piece × Piece :=
  let e := (t.tileElems n).map x
  let bad := e.any Prod.snd || t.entryBad v n
  let q := packTile t.fmt (e.map fun y => y.1.codeIn t v ovf)
  let old := (v.num (t.tileMap + 8 * n) 8).1
  ((t.base + (t.tileEntry v n).1, q.1, bad), (t.tileMap + 8 * n, leBytes 8 (bits old 39 0 + q.2), bad))

/-- The blocks of an MX tensor that hold elements of a list. -/
def Desc.blocksOf (t : Desc) (es : List (List Nat)) : List Nat :=
  nub (es.map fun i => blockIndex t.ext i t.blockDim) []

/-- A store of some elements of a tensor that is not compressed; whole blocks of an MX tensor. -/
def Desc.piecesOn (t : Desc) (v : View) (ovf : Bool) (es : List (List Nat)) (win : List Nat → Bool)
    (x : List Nat → Datum × Bool) : List Piece :=
  if t.fmt.isMx then t.mxPieces (t.blocksOf es) win x
  else (es.filter win).map fun i => t.piece v ovf i (x i)

/-- The elements of a write that stand (R164): those with no later one at their place. -/
def Desc.stands (t : Desc) : List Nat → Bool :=
  if t.wmode != 1 || t.injective then fun _ => true
  else
    let all := (List.range t.size).map fun p => t.offset (unravel t.ext p)
    fun i => !((all.drop (ravel t.ext i + 1)).contains (t.offset i))

/-- The last of a list of writes to an element. -/
def lastWrite (ws : List (List Nat × Datum × Bool)) (idx : List Nat) : Option (Datum × Bool) :=
  ws.foldl (fun r w => if w.1 == idx then some w.2 else r) none

/-- What elements of a tensor hold after a list of writes, later ones standing (R164, R168); the rest
holds what it held. -/
def Desc.after (t : Desc) (v : View) (ws : List (List Nat × Datum × Bool)) (idx : List Nat) : Datum × Bool :=
  match lastWrite ws idx with
  | some y => y
  | none => let y := t.value v idx; (.val y.1, y.2)

/-- The largest finite magnitude of a list of FP32 values, and whether any is not finite (R94). -/
def amaxOf (l : List W32) : W32 × Bool :=
  (l.foldl (fun a x => if fNonFinite x then a else amaxFold a (fabs x)) fzero, l.any fNonFinite)

/-- The amax fold a store makes (R94), from the values before a KIND 0x2 division. -/
def Desc.amaxOp (t : Desc) (vals : List W32) : List AtomOp :=
  match t.scale with
  | some s =>
    if s.amax == 0 then []
    else let m := amaxOf vals; [.amax s.amax m.1 m.2]
  | none => []

/-- The amax fold of a store of some elements (R94): poisoned values are no part of it (R148). -/
def Desc.foldOf (t : Desc) (xs : List (Datum × Bool)) : List AtomOp :=
  t.amaxOp ((xs.filter fun y => !y.2).map fun y => y.1.f32 t.fmt)

/-- Accumulating writes of a list of elements, in order (R164). -/
def Desc.accAtoms (t : Desc) (ws : List (List Nat × Datum × Bool)) : List AtomOp :=
  ws.map fun w =>
    let a := (t.place (t.offset w.1)).1
    if t.fmt == .int32 then .addI a (signed 32 (match w.2.1 with
      | .code c => c
      | .val x => t.fmt.convert false x))
    else .addF a (w.2.1.f32 t.fmt)

/-- A pond write: the bytes, and an end to suppressed records of the words it covers (R147). -/
def Wk.pondPut (w : Wk) (a : Nat) (data : List Byte) : Wk :=
  let t := touchedWords 8 (a - pondBase) data.length
  (w.put a data).up fun d =>
    let seen := d.mar.pondSeen.filter fun x => !(decide (t.1 ≤ x.1) && decide (x.1 < t.1 + t.2))
    { d with mar := { d.mar with pondSeen := seen } }

/-- HBM words rewritten whole: their records may be raised again (R194). -/
def Dev.hbmFresh (d : Dev) (a n : Nat) : Dev :=
  let t := coveredWords 32 a n
  let seen := d.mar.hbmSeen.filter fun x => !(decide (t.1 ≤ x.1) && decide (x.1 < t.1 + t.2))
  { d with mar := { d.mar with hbmSeen := seen } }

/-- Bytes written to HBM. -/
def Wk.hbmPut (w : Wk) (a : Nat) (data : List Byte) : Wk := (w.put a data).up fun d => d.hbmFresh a data.length

/-- A piece put into a list by rising address, after those of its own address. -/
def insertPiece (p : Piece) : List Piece → List Piece
  | [] => [p]
  | q :: l => if p.1 < q.1 then p :: q :: l else q :: insertPiece p l

/-- Writes by rising address, neighbours joined: what a row's word enables write at once (R132). -/
def joinPieces (ps : List Piece) : List (Nat × List Byte) :=
  join (ps.foldl (fun l p => insertPiece p l) [])
where
  join : List Piece → List (Nat × List Byte)
    | [] => []
    | p :: l =>
      match join l with
      | (b, y) :: r => if p.1 + p.2.1.length == b then (p.1, p.2.1 ++ y) :: r else (p.1, p.2.1) :: (b, y) :: r
      | [] => [(p.1, p.2.1)]

/-- Poison on every pond word that a piece touches (R148). -/
def Wk.pondBad (w : Wk) (p : Piece) : Wk :=
  let t := touchedWords 8 (p.1 - pondBase) p.2.1.length
  Wk.each (List.range t.2) (fun w i => w.op (.poisonPond (t.1 + i))) w

/-- Pieces written to ponds: words written whole take their new code, then those that depend on poison
take poison (R132, R148). -/
def Wk.pondPieces (w : Wk) (ps : List Piece) : Wk :=
  Wk.each (ps.filter fun p => p.2.2) Wk.pondBad (Wk.each (joinPieces ps) (fun w x => w.pondPut x.1 x.2) w)

/-! ### Atomic updates (R94, R164, R308) -/

/-- INT32 addition with saturation (R91). -/
def satAdd32 (a b : Int) : Int := satInt 32 (a + b)

/-- The amax fold on a record's bytes (R94). -/
def foldAmax (r : List Byte) (m : W32) (nonfinite : Bool) : List Byte :=
  let head := byteAt r 0 0
  let flags := byteAt r 1 0
  let flags := if nonfinite then setBits flags 0 0 1 else flags
  if head > 14 then (r.take 1) ++ leBytes 1 (setBits flags 1 1 1) ++ r.drop 2
  else
    let o := 4 + 4 * head
    let old := BitVec.ofNat 32 (numAt r o 4)
    (r.take 1) ++ leBytes 1 flags ++ ((r.drop 2).take (o - 2)) ++ leBytes 4 (amaxFold old m).toNat
      ++ r.drop (o + 4)

/-- The flag byte, CLIPS and AMAX that an owner's entry changes (R308, R330, R339). -/
def Wk.foldEntry (w : Wk) (record blk flags : Nat) (amax : W32) : Wk :=
  let fAddr := record + 0x10000 + blk
  let cAddr := record + 0x10106
  let aAddr := record + 0x10108
  let old := w.num fAddr 1
  let oldFlags := if bit old 6 then 0 else old % 4
  let newFlags := oldFlags ||| (flags % 4)
  let w := w.put fAddr (leBytes 1 newFlags)
  let w := if bit newFlags 0 && !bit oldFlags 0 then w.put cAddr (leBytes 2 (min 65535 (w.num cAddr 2 + 1))) else w
  let w := w.put aAddr (leBytes 4 (amaxFold (w.w32 aAddr) amax).toNat)
  w.up fun d =>
    if bit flags 1 then { d with upd := { d.upd with nf := true, nfSeen := true } }.latch 0xA000 1 else d

/-- The owner's accumulation of one block entry (R308, R330): values and the residue carried forward
(R100), then flags, CLIPS and AMAX. -/
def Wk.applyEntry (w : Wk) (record blk : Nat) (sums : List Int) (flags : Nat) (amax : W32) (residue : Nat) : Wk :=
  let vAddr := record + 256 * blk
  let fresh := bit (w.num (record + 0x10000 + blk) 1) 6
  let oldVals := (List.range 64).map fun j =>
    if fresh then (0 : Int) else signed 32 (w.num (vAddr + 4 * j) 4)
  let vals := (oldVals.zip sums).map fun x => satAdd32 x.1 x.2
  let old := if fresh then 0 else AMap.get 0 w.dev.rly.carried vAddr
  let w := w.up fun d => { d with rly := { d.rly with carried := AMap.set 0 d.rly.carried vAddr ((old + residue) % 255) } }
  (w.hbmPut vAddr (vals.map fun v => leBytes 4 (unsigned 32 v)).flatten).foldEntry record blk flags amax

/-- An atomic update saturates (R91). -/
def Wk.saturates (w : Wk) : AtomOp → Bool
  | .addI a v => let s := signed 32 (w.num a 4) + v; satInt 32 s != s
  | _ => false

/-- Bytes written where they lie. -/
def Wk.rewrite (w : Wk) (a : Nat) (data : List Byte) : Wk := if a < pondBase then w.hbmPut a data else w.pondPut a data

/-- One atomic update applied at its controller. -/
def Wk.applyAtom (w : Wk) : AtomOp → Wk
  | .addF a v => w.rewrite a (leBytes 4 (fadd (w.w32 a) v).toNat)
  | .addI a v => w.rewrite a (leBytes 4 (unsigned 32 (satAdd32 (signed 32 (w.num a 4)) v)))
  | .amax a m nf => w.rewrite a (foldAmax (w.bytes a 64) m nf)
  | .entry r b sums fl am res => w.applyEntry r b sums fl am res
  | .entryF r b vals fl am =>
    (w.hbmPut (r + 256 * b) (vals.map fun v => leBytes 4 v.toNat).flatten).foldEntry r b fl am

/-- The range of bytes an atomic update reads: poison there refuses it (R194). -/
def AtomOp.range : AtomOp → List (Nat × Nat)
  | .addF a _ => [(a, 4)]
  | .addI a _ => [(a, 4)]
  | .amax a _ _ => [(a, 64)]
  | .entry r b _ _ _ _ => [(r + 256 * b, 256), (r + 0x10000 + b, 1), (r + 0x10100, 12)]
  | .entryF r b _ _ _ => [(r + 256 * b, 256), (r + 0x10000 + b, 1), (r + 0x10100, 12)]

end Sys2Proof.Machine
end

