-- ==== Sys2Proof/Machine/Commands.lean ====
section
/-! DEFINITION. Decoding a 64 B command (R206 to R225, R286, R302, R331, R489): its header, its body,
every descriptor it names, and the failure that R488 puts first. -/

namespace Sys2Proof.Machine

open Sys2Proof.Config

/-- A failed check (R208, R488): the offset in the command or stage record, the stage (255 none), the
descriptor index (255 none), the offset in the descriptor (255 none), the offset in the scale
descriptor, tile map or list (0xFFFF_FFFF none), and the event code 0x40 to 0x43. -/
structure Fail where
  off   : Nat
  stage : Nat
  desc  : Nat
  dOff  : Nat
  sub   : Nat
  kind  : Nat
deriving DecidableEq, Repr

def noSub : Nat := 0xFFFFFFFF
def cmdFault : Nat := 0x40
def addrFault : Nat := 0x41
def formatFault : Nat := 0x42
def layoutFault : Nat := 0x43

/-- The place of a failure in the order of R488: stage records stand at CBLK. -/
def Fail.key (f : Fail) : List Nat :=
  let d := if f.dOff == 255 then 0 else f.dOff
  let s := if f.sub == noSub then 0 else f.sub
  if f.stage == 255 then [f.off, 0, 0, d, s] else [0x20, f.stage + 1, f.off, d, s]

def keyLt : List Nat → List Nat → Bool
  | a :: as, b :: bs => decide (a < b) || (a == b && keyLt as bs)
  | _, _ => false

/-- The failure reported: the first in the order of R488. -/
def firstFail : List Fail → Option Fail
  | [] => none
  | f :: l =>
    match firstFail l with
    | none => some f
    | some g => if keyLt g.key f.key then some g else some f

/-- What decoding needs: memory and block as they stand, the issuing cluster and stream, the record's
bytes, the stage it is (255 for the command itself), and the descriptor block. -/
structure Dec where
  mem   : Mem
  dev   : Dev
  c     : Nat
  s     : Nat
  b     : List Byte
  stage : Nat
  dblk  : Nat
deriving DecidableEq, Repr

/-- Field of `n` bytes at an offset of the record. -/
def Dec.f (x : Dec) (off n : Nat) : Nat := numAt x.b off n

/-- A check of the record's own fields. -/
def Dec.own (x : Dec) (ok : Bool) (off kind : Nat) : List Fail :=
  if ok then [] else [⟨off, x.stage, 255, 255, noSub, kind⟩]

/-- A check inside a descriptor that the field at `off` names. -/
def Dec.inDesc (x : Dec) (ok : Bool) (off dOff sub kind : Nat) : List Fail :=
  if ok then [] else [⟨off, x.stage, x.f off 1, dOff, sub, kind⟩]

/-- Reserved bytes are zero, one failure for each that is not (R206, R208). -/
def Dec.reserved (x : Dec) (lo hi : Nat) : List Fail :=
  ((List.range (hi + 1 - lo)).map fun i => x.own (x.f (lo + i) 1 == 0) (lo + i) cmdFault).flatten

/-- Whether an address range may be reached by a command (R22, R23). -/
def mapped (a n : Nat) : Bool := Machine.inHbm a n || Machine.inPond a n

/-! ### Tensor descriptors (R150 to R174) -/

/-- How a command uses a tensor. -/
inductive Use where
  | read | write | gatherTable | scatterTable
deriving DecidableEq, Repr

/-- The 64 bytes of descriptor `i` of the block. -/
def Dec.descBytes (x : Dec) (i : Nat) : List Byte := x.mem.bytes (x.dblk + 64 * i) 64

/-- The descriptor's scale descriptor bytes, where SCALE_PTR names one in reach. -/
def Dec.scaleBytes (x : Dec) (r : List Byte) : Option (List Byte) :=
  let p := numAt r 0x34 6
  if p == 0 || !mapped p 16 then none else some (x.mem.bytes p 16)

/-- The tensor that descriptor bytes give; meaningful where every check holds. -/
def Dec.tensor (x : Dec) (r : List Byte) : Desc :=
  let nd := bits (numAt r 6 1) 6 4
  { base := numAt r 0 6
    fmt := (Fmt.ofCode (bits (numAt r 6 1) 3 0)).getD .fp32
    wmode := bits (numAt r 7 1) 1 0
    ipolicy := bits (numAt r 7 1) 3 2
    gdim := bits (numAt r 7 1) 6 4
    ext := (List.range nd).map fun d => numAt r (8 + 3 * d) 3 + 1
    stride := (List.range nd).map fun d => signed 32 (numAt r (0x1C + 4 * d) 4)
    scale := (x.scaleBytes r).map fun s => ⟨numAt s 0 6, numAt s 6 1, numAt s 7 1, numAt s 8 6⟩
    tileMap := numAt r 0x3A 6 }

/-- Dense row-major strides (R171). -/
def denseStrides : List Nat → List Int → Int → Bool
  | n :: ns, s :: ss, want => (s == want) && denseStrides ns ss (want * n)
  | _, _, _ => true

/-- Every check of one tensor descriptor (R79, R83, R93, R132, R150, R154, R156, R162, R171). -/
def Dec.tensorFails (x : Dec) (off : Nat) (use : Use) (r : List Byte) : List Fail :=
  let form := numAt r 6 1
  let mode := numAt r 7 1
  let nd := bits form 6 4
  let code := bits form 3 0
  let t := x.tensor r
  let written := use == .write || use == .scatterTable
  let ck := fun ok dOff kind => x.inDesc ok off dOff noSub kind
  let sk := fun ok sub kind => x.inDesc ok off 0x34 sub kind
  let lastStride := 0x1C + 4 * (nd - 1)
  let badDim := nd == 0 || nd == 7
  let unit := t.fmt.bits / 8
  let sp := t.span
  let own :=
    ck (!badDim) 6 layoutFault
    ++ ck (!bit form 7) 6 layoutFault
    ++ ck ((Fmt.ofCode code).isSome && code != 0xB && code != 0xC) 6 formatFault
    ++ ck (!(written && t.wmode == 3)) 7 layoutFault
    ++ ck (!bit mode 7) 7 layoutFault
    ++ ck (if use == .gatherTable || use == .scatterTable then decide (t.gdim < nd) else true) 7 layoutFault
    ++ ck (numAt r 0x1A 2 == 0) 0x1A layoutFault
    ++ ((List.range 6).map fun d =>
        if d < nd then [] else
          ck (numAt r (8 + 3 * d) 3 == 0) (8 + 3 * d) layoutFault
          ++ ck (numAt r (0x1C + 4 * d) 4 == 0) (0x1C + 4 * d) layoutFault).flatten
    ++ ck (numAt r 0x34 6 % 16 == 0) 0x34 layoutFault
    ++ ck (t.tileMap % 64 == 0) 0x3A layoutFault
  if badDim then own else
  let blockDim := (t.scale.map ScaleDesc.blockDim).getD 0
  let places :=
    ck (if t.fmt.subByte then t.base % (if t.fmt == .mxE2m1 then 16 else 8) == 0
        else t.base % unit == 0) 0 formatFault
    ++ (if t.fmt.subByte then ((List.range nd).map fun d =>
        ck (d == blockDim || t.stride.getD d 0 % 32 == 0) (0x1C + 4 * d) formatFault).flatten else [])
    ++ (if t.tileMap == 0 then
          ck (t.inHbm || t.inPond) lastStride addrFault
          ++ ck (if t.inPond then sp.2 % 8 == 0 else true) lastStride formatFault
        else [])
  let scale :=
    if numAt r 0x34 6 == 0 then ck (!t.fmt.isMx) 0x34 formatFault
    else match x.scaleBytes r with
      | none => ck false 0x34 addrFault
      | some s =>
        let kind := numAt s 6 1
        let bd := numAt s 7 1
        let ssp := t.scaleSpan
        let amax := numAt s 8 6
        sk (kind != 2 || numAt s 0 6 % 4 == 0) 0 formatFault
        ++ sk (ssp.2 == 0 || mapped ssp.1 ssp.2) 0 addrFault
        ++ sk (decide (kind ≤ 2) && (kind == 1) == t.fmt.isMx
            && (kind != 2 || t.fmt == .bf16 || t.fmt == .e4m3 || t.fmt == .e5m2)) 6 formatFault
        ++ sk (if kind == 1 then decide (bd < nd) else bd == 0) 7 formatFault
        ++ (if kind == 1 then
              sk (t.ext.getD bd 1 % 32 == 0 && t.stride.getD bd 0 == 1) 7 formatFault else [])
        ++ sk (amax % 64 == 0) 8 formatFault
        ++ sk (amax == 0 || mapped amax 64) 8 addrFault
        ++ sk (numAt s 0xE 2 == 0) 0xE formatFault
  let write :=
    if use == .write || use == .scatterTable then
      match t.wmode with
      | 0 => ck (use != .scatterTable) 7 layoutFault
             ++ ck (!t.broadcasts && t.injective) lastStride layoutFault
      | 1 => ck (!t.broadcasts) lastStride layoutFault
      | 2 => ck (t.fmt == .fp32 || t.fmt == .int32) 7 layoutFault
             ++ ck (use == .scatterTable || t.inHbm) lastStride layoutFault
      | _ => []
    else []
  let tiles :=
    if t.tileMap == 0 then []
    else
      ck (t.fmt == .bf16 || t.fmt == .e4m3 || t.fmt == .e5m2 || t.fmt == .int8) 0x3A formatFault
      ++ ck (numAt r 0x34 6 == 0) 0x3A formatFault
      ++ ck (decide (2 ≤ nd) && t.ext.getD 0 1 % 128 == 0 && t.ext.getD 1 1 % 128 == 0) 0x3A formatFault
      ++ ck (denseStrides t.ext t.stride 1) 0x3A formatFault
      ++ ck (t.base % 64 == 0 && Machine.inHbm t.base 1) 0x3A formatFault
      ++ ck (mapped t.tileMap (8 * t.tiles)) 0x3A addrFault
      ++ ck (t.inHbm || Machine.inPond t.base 1) lastStride addrFault
  own ++ places ++ scale ++ write ++ tiles

/-- Where a descriptor index lies outside the block (R209). -/
def Dec.outside (x : Dec) (i : Nat) : Bool := !Machine.inHbm (x.dblk + 64 * i) 64

/-- An operand tensor: its checks and its value; `need` says the operation needs it (R209). -/
def Dec.operand (x : Dec) (off : Nat) (use : Use) (need : Bool) : List Fail × Option Desc :=
  let i := x.f off 1
  if i == 0xFF then (x.own (!need) off cmdFault, none)
  else if x.outside i then (x.own false off cmdFault, none)
  else
    let r := x.descBytes i
    (x.tensorFails off use r, some (x.tensor r))

/-- A placeholder tensor where an operand is missing; a command with a missing operand is rejected. -/
def Desc.zero : Desc := ⟨0, .fp32, 0, 0, 0, [1], [1], none, 0⟩

/-- The highest extent field and the highest stride field of a tensor descriptor (R150). -/
def Desc.extAt (t : Desc) : Nat := 8 + 3 * (t.ndim - 1)
def Desc.strAt (t : Desc) : Nat := 0x1C + 4 * (t.ndim - 1)

/-- A relation between fields that fails stands at the highest offset among them (R488): the operand
field with the highest offset, and the highest field of its descriptor. -/
def Dec.relate (x : Dec) (ok : Bool) (off dOff : Nat) : List Fail :=
  if x.f off 1 == 0xFF then [] else x.inDesc ok off dOff noSub layoutFault

/-- An operand lies in the issuing cluster's pond (R216, R230); one that reaches an unmapped address
is an address fault of its own (R23). -/
def Dec.local (x : Dec) (t : Option Desc) (off : Nat) : List Fail :=
  match t with
  | none => []
  | some t => x.inDesc (t.inPondOf x.c || !(t.inHbm || t.inPond)) off t.strAt noSub layoutFault

/-- The block must be 64 B aligned and start in HBM (R209). -/
def Dec.dblkFails (x : Dec) : List Fail :=
  x.own (x.stage != 255 || (x.dblk % 64 == 0 && Machine.inHbm x.dblk 1)) 0x18 cmdFault

/-! ### Route descriptors (R302, R303, R306, R318) -/

def Dec.routeOf (x : Dec) (r : List Byte) : Route :=
  let nm := numAt r 4 2
  let no := numAt r 6 2
  let ml := numAt r 0x18 6
  let ol := numAt r 0x1E 6
  let fl := numAt r 2 1
  { traffic := numAt r 0 1, levels := numAt r 1 1, wide2 := bit fl 0, prmReturn := bit fl 1,
    ringCcw := bit fl 2, pmode := bits fl 4 3, deq := bit fl 5, tag := numAt r 3 1,
    members := if nm ≤ 256 ∧ Machine.inHbm ml (2 * nm) then
      (List.range nm).map fun i => leNat (x.mem.bytes (ml + 2 * i) 2) else []
    owners := if no ≤ 256 ∧ (no = 0 ∨ Machine.inHbm ol (2 * no)) then
      (List.range no).map fun i => leNat (x.mem.bytes (ol + 2 * i) 2) else []
    segBase := numAt r 8 4, nseg := numAt r 0xC 4, segPerOwner := numAt r 0x10 4,
    expect := BitVec.ofNat 32 (numAt r 0x14 4), expBase := numAt r 0x24 6, accBase := numAt r 0x2A 6,
    landStride := numAt r 0x30 4, chunkPos := bits (numAt r 0x34 3) 21 0, mb := numAt r 0x37 1 }

/-- Two positions are members of one relay group. -/
def Conf.sameGroup (k : Conf) (p q : Nat) : Bool :=
  k.group p == k.group q && (k.group p != 0xFF || p == q)

/-- The group of a position includes a Vozer V3 card (R318). -/
def Conf.vozerGroup (k : Conf) (p : Nat) : Bool :=
  (List.range k.modules).any fun q => k.sameGroup p q && k.kind q == 1

/-- Checks of a route descriptor for a traffic class. -/
def Dec.routeFails (x : Dec) (off traffic : Nat) (r : List Byte) : List Fail :=
  let t := x.routeOf r
  let k := x.dev.live
  let me := x.dev.pos.getD 0xFFFF
  let ck := fun ok dOff => x.inDesc ok off dOff noSub layoutFault
  let lk := fun (l : List Nat) (dOff : Nat) =>
    ((List.range l.length).map fun i =>
      let p := l.getD i 0
      x.inDesc (decide (p < k.modules) && k.role p == 2) off dOff (2 * i) layoutFault
      ++ x.inDesc (!((l.take i).contains p)) off dOff (2 * i) layoutFault).flatten
  let nm := numAt r 4 2
  let no := numAt r 6 2
  let grad := t.traffic == 0
  let par := t.traffic == 4
  -- an HBM address: an unmapped one is R23's address fault, one elsewhere is out of its range
  let place := fun (a n dOff : Nat) =>
    x.inDesc (mapped a n) off dOff noSub addrFault
      ++ x.inDesc (Machine.inHbm a n || !mapped a n) off dOff noSub layoutFault
  ck (decide (t.traffic ≤ 4) && t.traffic == traffic) 0
  ++ ck (if grad then decide (1 ≤ t.levels ∧ t.levels ≤ 3) else if par then t.levels == 2
      else t.levels == (if t.traffic == 1 && t.prmReturn then 1 else 0)) 1
  ++ ck (numAt r 2 1 < 64 && decide (t.pmode ≤ 1)) 2
  ++ ck (decide (1 ≤ nm ∧ nm ≤ 256)) 4
  ++ ck (if grad then decide (1 ≤ no ∧ no ≤ 256) else no == (if par then 1 else 0)) 6
  ++ ck (decide (t.nseg ≤ no * t.segPerOwner)) 0x10
  ++ place (numAt r 0x18 6) (2 * nm) 0x18
  ++ lk t.members 0x18
  ++ (if no == 0 then [] else place (numAt r 0x1E 6) (2 * no) 0x1E)
  ++ lk t.owners 0x1E
  ++ (if grad then place t.expBase (2 * t.nseg) 0x24 else [])
  ++ (if !grad then x.inDesc (mapped t.accBase 1) off 0x2A noSub addrFault
      else ck (t.accBase % 64 == 0) 0x2A
        ++ (if t.owners.contains me then place t.accBase (t.segPerOwner * 65856) 0x2A else []))
  ++ ck (numAt r 0x34 3 < 2 ^ 22) 0x34
  ++ ck (numAt r 0x38 8 == 0) 0x38
  ++ ck (!(grad && t.levels == 1) || t.owners.all fun o => t.members.all fun m => k.sameGroup o m) 1
  ++ ck (!(grad || t.traffic == 1) || t.prmReturn == k.vozerGroup me) 2
  ++ ck (!t.prmReturn || !grad || t.levels == 1) 2

/-- The route named by the field at `off`. -/
def Dec.route (x : Dec) (off traffic : Nat) : List Fail × Option Route :=
  let i := x.f off 1
  if i == 0xFF || x.outside i then (x.own false off cmdFault, none)
  else
    let r := x.descBytes i
    (x.routeFails off traffic r, some (x.routeOf r))

/-- Segments `first` to `first + n − 1` lie in the route (R303). -/
def Route.covers (r : Route) (first n : Nat) : Bool :=
  decide (r.segBase ≤ first) && decide (first + n ≤ r.segBase + r.nseg)

/-! ### Memory family (R211 to R213) -/

/-- A stage body with its failures. -/
abbrev Parsed := List Fail × Stage

/-- Move (R211): equal shapes (R159), and the conversions of R160. -/
def Dec.move (x : Dec) : Parsed :=
  let s := x.operand 0x1E .read true
  let d := x.operand 0x1F .write true
  let a := s.2.getD .zero
  let b := d.2.getD .zero
  (x.dblkFails ++ s.1 ++ d.1 ++ x.relate (a.ext == b.ext) 0x1F b.extAt
    ++ x.own (x.f 0x20 1 < 2) 0x20 cmdFault ++ x.reserved 0x21 0x3F,
   .move a b (bit (x.f 0x20 1) 0))

/-- The table's shape with the extent along GDIM replaced (R165). -/
def gatherShape (t : Desc) (n : Nat) : List Nat := t.ext.set t.gdim n

/-- Gather (R213, R165). -/
def Dec.gather (x : Dec) : Parsed :=
  let t := x.operand 0x1E .gatherTable true
  let i := x.operand 0x1F .read true
  let d := x.operand 0x20 .write true
  let ta := t.2.getD .zero
  let ix := i.2.getD .zero
  let de := d.2.getD .zero
  (x.dblkFails ++ t.1 ++ i.1 ++ d.1
    ++ x.relate (ix.fmt == .int32) 0x1F 6
    ++ x.relate (de.ext == gatherShape ta ix.size) 0x20 de.extAt
    ++ x.own (x.f 0x21 1 < 2) 0x21 cmdFault ++ x.reserved 0x22 0x3F,
   .gather ta ix de (bit (x.f 0x21 1) 0))

/-- Scatter (R213, R165, R168). -/
def Dec.scatter (x : Dec) : Parsed :=
  let t := x.operand 0x1E .scatterTable true
  let i := x.operand 0x1F .read true
  let s := x.operand 0x20 .read true
  let ta := t.2.getD .zero
  let ix := i.2.getD .zero
  let sr := s.2.getD .zero
  (x.dblkFails ++ t.1 ++ i.1 ++ s.1
    ++ x.relate (ix.fmt == .int32) 0x1F 6
    ++ x.relate (sr.ext == gatherShape ta ix.size) 0x20 sr.extAt
    ++ x.own (x.f 0x21 1 < 4) 0x21 cmdFault ++ x.reserved 0x22 0x3F,
   .scatter ta ix sr (bit (x.f 0x21 1) 0) (bit (x.f 0x21 1) 1))

/-! ### Matrix family (R88, R122, R214, R230, R248, R249, R252, R272 to R277, R489) -/

/-- Shape tables (R107): K-depth, N-width, rows of a buffer. -/
def shapeDepth (s : Nat) : Nat := 128 / 2 ^ s
def shapeWidth (s : Nat) : Nat := 128 * 2 ^ s
def shapeRows (s : Nat) : Nat := 128 / 2 ^ s

def Fmt.isFp8 : Fmt → Bool
  | .e4m3 | .e5m2 => true
  | _ => false

/-- MXFP8 or MXFP6. -/
def Fmt.isMxWide : Fmt → Bool
  | .mxE4m3 | .mxE5m2 | .mxE2m3 | .mxE3m2 => true
  | _ => false

/-- The operand pairs of R88, in either order. -/
def pairOk (a b : Fmt) : Bool :=
  let one := fun (a b : Fmt) =>
    (a.isFp8 && b.isFp8) || (a.isMxWide && b.isMxWide) || (a == .mxE2m1 && b.isMx)
      || (a == .bf16 && (b.isFp8 || b.isMx || b == .bf16)) || (a == .int8 && b == .int8)
  one a b || one b a

def Desc.e (t : Desc) (d : Nat) : Nat := t.ext.getD d 1
def Desc.st (t : Desc) (d : Nat) : Int := t.stride.getD d 0

/-- Batch index tuples of a matrix product: the extents of dimensions 3 to 5. -/
def Desc.batch (t : Desc) : List Nat := [t.e 3, t.e 4, t.e 5]

/-- Extents of A and W agree (R214): a batch dimension of W has A's extent or stride 0. -/
def matKOk (a w : Desc) : Bool :=
  w.e 1 == a.e 0 && w.e 2 == a.e 2 && [3, 4, 5].all fun d => w.e d == a.e d || w.st d == 0

/-- The extents of an output of M rows and N columns. -/
def matOutOk (m n : Nat) (batch : List Nat) (o : Desc) : Bool :=
  o.e 0 == n && o.e 1 == m && o.e 2 == 1 && o.batch == batch

/-- Output tiles: columns by the shape's width, rows by its rows, and batches (R114, R230). -/
def tileCounts (shape m n : Nat) (batch : List Nat) : Nat :=
  ((n + shapeWidth shape - 1) / shapeWidth shape) * ((m + shapeRows shape - 1) / shapeRows shape)
    * batch.foldl (· * ·) 1

/-- The update descriptor's discard mask as a matrix command uses it (R331, R489): its checks, and
the tiles of `n` whose bit is set. With no output at stage 2 its index alone is checked (R209). -/
def Dec.mask (x : Dec) (need : Bool) (n : Nat) : List Fail × List Nat :=
  let i := x.f 0x2A 1
  if !need then (x.own (i == 0xFF || !x.outside i) 0x2A cmdFault, [])
  else
    if i == 0xFF || x.outside i then (x.own false 0x2A cmdFault, [])
    else
      let r := x.descBytes i
      let b := numAt r 0x1E 6
      let ok := b == 0 || Machine.inHbm b ((n + 7) / 8)
      (x.inDesc (numAt r 0x17 1 == 0) 0x2A 0x17 noSub layoutFault
        ++ x.inDesc (numAt r 0x36 10 == 0) 0x2A 0x36 noSub layoutFault
        ++ x.inDesc ok 0x2A 0x1E noSub addrFault,
       if b == 0 || !ok then [] else (List.range n).filter fun t =>
         bit (leNat (x.mem.bytes (b + t / 8) 1)) (t % 8))

/-- A relay-bound output: its route and the segments it fills. -/
def Dec.outRoute (x : Dec) (off tiles : Nat) : List Fail × Option Route :=
  let r := x.route off 0
  (r.1 ++ (match r.2 with
    | none => []
    | some t => x.own (t.covers (x.f 0x30 4) tiles) 0x30 layoutFault), r.2)

/-- Dense or sparse matrix (R122, R214, R248, R249, R272 to R277, R489). Batons in more than one core
are R249's layout fault, though R122 calls a breach of its placement a format fault; a sparse command
with TANDEM is R272's layout fault, though R489 speaks of a command fault (log entry 107). -/
def Dec.matrix (x : Dec) (sparse : Bool) : Parsed :=
  let mf := x.f 0x21 1
  let st := x.f 0x22 1
  let tandem := bit mf 1
  let relay := bit mf 2
  let relay2 := bit mf 3
  let k := x.dev.live
  let shape := k.shape x.c
  let a := x.operand 0x1E .read true
  let w := x.operand 0x1F .read true
  let ad := a.2.getD .zero
  let wd := w.2.getD .zero
  let tiles := tileCounts shape (ad.e 1) (wd.e 0) ad.batch
  let out := if relay then ([], none) else x.operand 0x20 .write true
  let rt := if relay then x.outRoute 0x20 tiles else ([], none)
  let acc := x.operand 0x28 (if tandem then .write else .read)
    (bit st 2 || (tandem && decide (256 < ad.e 0 * ad.e 2)))
  let bias := x.operand 0x29 .read (bit st 3)
  let a2 := if tandem then x.operand 0x2B .read true else ([], none)
  let a2d := a2.2.getD .zero
  let tiles2 := tileCounts 0 (a2d.e 1) (ad.e 0 * ad.e 2) [1, 1, 1]
  let out2 := if tandem && !relay2 then x.operand 0x2C .write true else ([], none)
  let rt2 := if tandem && relay2 then x.outRoute 0x2C tiles2 else ([], none)
  let acc2 := if tandem then x.operand 0x2E .read (bit (x.f 0x2D 1) 2) else ([], none)
  let pred := if sparse then x.operand 0x2F .read false else ([], none)
  let masked2 := tandem && bit (x.f 0x2D 1) 0
  let mk := x.mask (bit st 0 || masked2) (max (if bit st 0 then tiles else 0) (if masked2 then tiles2 else 0))
  let od := out.2.getD .zero
  let sparseW := bit mf 6
  let op := if sparseW then wd else ad
  let core := (ad.slots.map slotCore).headD 0
  let heads := fun (o : Option Desc) (off : Nat) (at_ : Desc → Nat) (ok : Desc → Bool) =>
    match o with | none => [] | some d => x.relate (ok d) off (at_ d)
  let common :=
    x.dblkFails ++ a.1 ++ w.1 ++ out.1 ++ rt.1 ++ acc.1 ++ bias.1 ++ a2.1 ++ out2.1 ++ rt2.1 ++ acc2.1
    ++ pred.1 ++ mk.1
    ++ x.local a.2 0x1E ++ x.local w.2 0x1F
    ++ x.inDesc (pairOk ad.fmt wd.fmt) 0x1F 6 noSub formatFault
    ++ x.relate (matKOk ad wd) 0x1F wd.extAt
    ++ x.own (mf < 128 && (sparse || !sparseW)) 0x21 cmdFault
    ++ x.own (if bit mf 0 then wd.st 1 == 1 else wd.st 0 == 1) 0x21 layoutFault
    ++ heads out.2 0x20 Desc.extAt (matOutOk (ad.e 1) (wd.e 0) ad.batch)
    ++ x.own (st < 32) 0x22 cmdFault
    ++ x.own (!relay || st < 4) 0x22 cmdFault
    ++ x.own (x.f 0x23 1 < 7) 0x23 cmdFault
    ++ (if bit st 2 && !tandem then
          heads acc.2 0x28 (fun _ => 6) (fun d => d.fmt == .fp32) ++ x.local acc.2 0x28
            ++ heads acc.2 0x28 Desc.extAt (fun d => d.ext == od.ext) else [])
    ++ (if bit st 3 then
          heads bias.2 0x29 (fun _ => 6) (fun d => d.ndim == 1 && (d.fmt == .fp32 || d.fmt == .bf16))
            ++ heads bias.2 0x29 Desc.extAt (fun d => d.e 0 == wd.e 0) ++ x.local bias.2 0x29 else [])
    ++ x.reserved 0x38 0x3F
  let plain :=
    if tandem then [] else
      x.own (!relay2) 0x21 cmdFault ++ x.own (x.f 0x2B 1 == 0xFF) 0x2B cmdFault
      ++ x.own (x.f 0x2C 1 == 0xFF) 0x2C cmdFault ++ x.own (x.f 0x2D 1 == 0) 0x2D cmdFault
      ++ x.own (x.f 0x2E 1 == 0xFF) 0x2E cmdFault
  let tan :=
    if !tandem then [] else
      x.own (!sparse) 0x21 layoutFault
      ++ x.own (x.f 0x2D 1 < 8) 0x2D cmdFault
      ++ x.own (!relay2 || x.f 0x2D 1 < 4) 0x2D cmdFault
      ++ x.own (shape == 0) 0x21 formatFault
      ++ x.inDesc (ad.fmt == .bf16) 0x1E 6 noSub formatFault
      ++ x.inDesc (ad.slots.all fun g => slotCore g == core) 0x1E ad.strAt noSub layoutFault
      ++ x.inDesc (k.partner x.c core != 0xFF) 0x1E ad.strAt noSub formatFault
      ++ x.local a2.2 0x2B
      ++ x.inDesc (pairOk ad.fmt a2d.fmt && a2d.fmt != .bf16) 0x2B 6 noSub formatFault
      ++ x.relate (wd.e 0 == 128 && ad.e 1 % 128 == 0 && ad.e 0 * ad.e 2 % 128 == 0) 0x1F wd.extAt
      ++ x.relate (a2d.e 1 == 128 && a2d.e 0 * a2d.e 2 == ad.e 1) 0x2B a2d.extAt
      ++ heads out2.2 0x2C Desc.extAt (matOutOk 128 (ad.e 0 * ad.e 2) [1, 1, 1])
      ++ heads out.2 0x20 (fun _ => 6) (fun d => d.fmt == .bf16)
      ++ heads acc.2 0x28 (fun _ => 6) (fun d => d.fmt == .fp32)
      ++ heads acc.2 0x28 Desc.extAt (fun d => d.size == ad.e 1 * 128) ++ x.local acc.2 0x28
      ++ heads acc2.2 0x2E (fun _ => 6) (fun d => d.fmt == .fp32) ++ x.local acc2.2 0x2E
      ++ heads acc2.2 0x2E Desc.extAt (fun d => d.ext == (out2.2.getD .zero).ext)
  let isPred := x.f 0x2F 1 != 0xFF
  let sp :=
    if !sparse then x.own (!isPred) 0x2F cmdFault
    else
      x.own (shape == 0) 0x00 layoutFault
      ++ x.inDesc (op.fmt == .bf16 || op.fmt.isFp8 || op.fmt == .int8) (if sparseW then 0x1F else 0x1E) 6
          noSub formatFault
      ++ (match pred.2 with
        | none => []
        | some p =>
          let h := if sparseW then wd.e 0 / 2 else ad.e 0 * ad.e 2
          let pk := fun ok dOff => x.inDesc ok 0x2F dOff noSub layoutFault
          pk (p.fmt == .int8 && p.ndim == 2) 6 ++ pk (p.wmode == 0) 7
          ++ pk (h % 128 == 0 && p.e 0 == h / 8) 8
          ++ pk (p.e 1 == (ad.e 1 + 127) / 128 * ad.batch.foldl (· * ·) 1) 0xB
          ++ pk (p.st 0 == 1) 0x1C ++ pk (decide ((h / 8 : Int) ≤ p.st 1)) 0x20
          ++ pk (p.inHbm || !p.inPond) p.strAt
          ++ (if sparseW then
                x.relate (wd.e 0 % 256 == 0) 0x1F 8
                ++ x.own (bit mf 0 && !relay) 0x21 layoutFault
                ++ x.own (x.f 0x23 1 == 1) 0x23 layoutFault
                ++ x.own (bit st 4 && !bit st 0 && !bit st 2 && !bit st 3) 0x22 layoutFault
                ++ x.own (x.f 0x2A 1 == 0) 0x2A layoutFault
              else []))
  (common ++ plain ++ tan ++ sp,
   .matrix
    { sparse := sparse, a := ad, w := wd, out := out.2, route := rt.2, transW := bit mf 0,
      tandem := tandem, keepA := bit mf 4, keepW := bit mf 5, sparseW := sparseW, stages := st,
      act := x.f 0x23 1, scale := BitVec.ofNat 32 (x.f 0x24 4), clamp := BitVec.ofNat 32 (x.f 0x34 4),
      accSrc := acc.2, bias := bias.2, discard := mk.2, a2 := a2.2, out2 := out2.2, route2 := rt2.2,
      stages2 := x.f 0x2D 1, acc2 := acc2.2, pred := pred.2, rseg := BitVec.ofNat 32 (x.f 0x30 4),
      tiles := [], feed := none, shape := shape, partner := if tandem then k.partner x.c core else 0xFF })

/-! ### Vector family (R216 to R218, R128, R244, R246) -/

/-- Inputs that a vector OP needs. -/
def vecNeeds (op : Nat) : Nat :=
  if op == 3 || op == 7 then 3
  else if op ≤ 6 || op == 0x11 || op == 0x1F then 2 else 1

def Dec.vector (x : Dec) : Parsed :=
  let op := x.f 0x22 1
  let n := vecNeeds op
  let i0 := x.operand 0x1E .read true
  let i1 := x.operand 0x1F .read (decide (2 ≤ n))
  let i2 := x.operand 0x20 .read (decide (3 ≤ n))
  let o := x.operand 0x21 .write true
  let od := o.2.getD .zero
  let same := fun (t : Option Desc) => match t with | none => true | some d => d.ext == od.ext
  (x.dblkFails ++ i0.1 ++ i1.1 ++ i2.1 ++ o.1
    ++ x.local i0.2 0x1E ++ x.local i1.2 0x1F ++ x.local i2.2 0x20 ++ x.local o.2 0x21
    ++ x.relate (same i0.2 && same i1.2 && same i2.2) 0x21 od.extAt
    ++ x.own (decide (op ≤ 0x20) && !(decide (0xA ≤ op) && decide (op ≤ 0xF))) 0x22 cmdFault
    ++ x.own (x.f 0x23 1 < 8) 0x23 cmdFault ++ x.reserved 0x28 0x3F,
   .vector ⟨i0.2, i1.2, i2.2, od, op, x.f 0x23 1, BitVec.ofNat 32 (x.f 0x24 4)⟩)

/-- Rows of a row-reduce input. -/
def Desc.rows (t : Desc) : Nat := t.size / t.e 0

def Dec.rowReduce (x : Dec) : Parsed :=
  let op := x.f 0x27 1
  let bwd := op == 3 || op == 5
  let plain := decide (8 ≤ op)
  let i := x.operand 0x1E .read true
  let dy := x.operand 0x1F .read (op == 1 || bwd)
  let ga := x.operand 0x20 .read (op == 2 || op == 3 || op == 4 || op == 5)
  let be := x.operand 0x21 .read (op == 2)
  let si := x.operand 0x22 .read bwd
  let o := x.operand 0x23 .write true
  let so := x.operand 0x24 .write false
  let dg := x.operand 0x25 .write bwd
  let db := x.operand 0x26 .write bwd
  let id := i.2.getD .zero
  let sh := fun (t : Option Desc) (off : Nat) (ok : Desc → Bool) =>
    match t with | none => [] | some d => x.local t off ++ x.relate (ok d) off d.extAt
  (x.dblkFails ++ i.1 ++ dy.1 ++ ga.1 ++ be.1 ++ si.1 ++ o.1 ++ so.1 ++ dg.1 ++ db.1
    ++ sh i.2 0x1E (fun d => decide (d.rows ≤ 128) && decide (d.e 0 ≤ 65536))
    ++ sh dy.2 0x1F (fun d => d.ext == id.ext)
    ++ sh ga.2 0x20 (fun d => d.size == id.e 0) ++ sh be.2 0x21 (fun d => d.size == id.e 0)
    ++ sh si.2 0x22 (fun d => d.size == 2 * id.rows && d.fmt == .fp32)
    ++ sh o.2 0x23 (fun d => if plain then d.size == id.rows else d.ext == id.ext)
    ++ sh so.2 0x24 (fun d => d.size == 2 * id.rows && d.fmt == .fp32)
    ++ sh dg.2 0x25 (fun d => d.size == id.e 0 && d.fmt == .fp32)
    ++ sh db.2 0x26 (fun d => d.size == id.e 0 && d.fmt == .fp32)
    ++ x.own (decide (op ≤ 5) || (decide (8 ≤ op) && decide (op ≤ 0xA))) 0x27 cmdFault
    ++ x.own (x.f 0x28 1 < 32) 0x28 cmdFault ++ x.reserved 0x29 0x2B ++ x.reserved 0x30 0x3F,
   .rowReduce ⟨id, dy.2, ga.2, be.2, si.2, o.2, so.2, dg.2, db.2, op, x.f 0x28 1,
     BitVec.ofNat 32 (x.f 0x2C 4)⟩)

def Dec.spring (x : Dec) : Parsed :=
  let mode := x.f 0x21 1
  let o := x.operand 0x1E .write true
  let i := x.operand 0x1F .read (mode == 1)
  let k := x.operand 0x20 .read true
  let od := o.2.getD .zero
  let kd := k.2.getD .zero
  (x.dblkFails ++ o.1 ++ i.1 ++ k.1
    ++ x.local o.2 0x1E
    ++ x.relate (decide (od.rows ≤ 2 ^ 32)) 0x1E od.extAt
    ++ x.relate ((mode == 1 || !od.fmt.isMx) && (mode != 2 || od.fmt == .fp32)) 0x1E 6
    ++ (if mode == 1 then x.relate ((i.2.getD .zero).ext == od.ext) 0x1F (i.2.getD .zero).extAt else [])
    ++ x.relate (kd.fmt == .int32) 0x20 6 ++ x.relate (kd.size == 4) 0x20 kd.extAt
    ++ x.own (mode < 3) 0x21 cmdFault
    ++ x.own (x.f 0x28 4 != 0xFFFFFFFF) 0x28 layoutFault
    ++ x.own (x.f 0x30 1 < 2) 0x30 cmdFault ++ x.reserved 0x31 0x3F,
   .spring ⟨od, i.2, kd, mode, x.f 0x22 2, BitVec.ofNat 32 (x.f 0x24 4),
     BitVec.ofNat 64 (x.f 0x28 8), bit (x.f 0x30 1) 0⟩)

/-! ### Relay and update (R219, R302, R305, R316, R331) -/

/-- The formats a transfer may send (R305, R316, R318, R319 to R321). -/
def sendFmtOk (traffic : Nat) (r : Route) (f : Fmt) : Bool :=
  match traffic with
  | 0 => f == .fp32
  | 1 => if r.prmReturn then f == .bf16
         else f == .e4m3 || f == .e5m2 || f == .int8 || f == .mxE4m3 || f == .mxE5m2
  | _ => true

def Dec.relaySend (x : Dec) : Parsed :=
  let tr := x.f 0x20 1
  let s := x.operand 0x1E .read true
  let r := x.route 0x22 tr
  let sd := s.2.getD .zero
  let seg := x.f 0x24 4
  let rt := r.2
  (x.dblkFails ++ s.1 ++ r.1
    ++ x.own (x.f 0x1F 1 < 2) 0x1F cmdFault
    ++ x.own (tr < 5) 0x20 cmdFault
    ++ x.own (x.f 0x23 1 == 0) 0x23 cmdFault ++ x.reserved 0x21 0x21
    ++ (match rt with
      | none => []
      | some t =>
        (if tr == 1 then x.inDesc (sendFmtOk tr t sd.fmt) 0x22 2 noSub layoutFault
         else x.own (sendFmtOk tr t sd.fmt) 0x20 layoutFault)
        ++ x.relate (sd.size % 64 == 0) 0x1E sd.extAt
        ++ x.own (tr != 0 || t.covers seg ((sd.size + 16383) / 16384)) 0x24 layoutFault)
    ++ x.reserved 0x28 0x3F,
   .relaySend ⟨sd, bit (x.f 0x1F 1) 0,
     rt.getD ⟨0, 0, false, false, false, 0, false, 0, [], [], 0, 0, 0, 0, 0, 0, 0, 0, 0⟩, BitVec.ofNat 32 seg⟩)

/-- Relay receive: a wait on the route's landing counter (R310). -/
def Dec.relayReceive (x : Dec) : List Fail × Body :=
  let tr := x.f 0x20 1
  let d := x.operand 0x1E .write false
  let r := x.route 0x22 tr
  (x.dblkFails ++ d.1 ++ r.1 ++ x.own (x.f 0x1F 1 == 0) 0x1F cmdFault
    ++ x.own (tr < 5) 0x20 cmdFault ++ x.reserved 0x21 0x21
    ++ x.own (x.f 0x23 1 == 0) 0x23 cmdFault ++ x.reserved 0x28 0x3F,
   .relayReceive (r.2.getD ⟨0, 0, false, false, false, 0, false, 0, [], [], 0, 0, 0, 0, 0, 0, 0, 0, 0⟩))

/-- Update (R219, R331). -/
def Dec.update (x : Dec) : List Fail × Body :=
  let i := x.f 0x1E 1
  let r := if i == 0xFF || x.outside i then [] else x.descBytes i
  let uop := numAt r 3 1
  let ck := fun ok dOff => x.inDesc ok 0x1E dOff noSub layoutFault
  -- an HBM range: an unmapped one is R23's address fault, one elsewhere breaks the layout
  let place := fun (dOff align n : Nat) =>
    let a := numAt r dOff 6
    x.inDesc (mapped a n) 0x1E dOff noSub addrFault
      ++ ck (a % align == 0 && (Machine.inHbm a n || !mapped a n)) dOff
  let sub := fun (dOff : Nat) (use : Use) =>
    let j := numAt r dOff 1
    if j == 0xFF || x.outside j then (x.inDesc false 0x1E dOff noSub cmdFault, none)
    else
      let q := x.descBytes j
      ((x.tensorFails 0x1E use q).map (fun f => { f with desc := j }), some (x.tensor q))
  let nseg := numAt r 0xC 4
  let apply := uop == 0
  let wset := numAt r 0 1
  let out := if uop == 2 then ([], none) else sub 2 .write
  let stage := if apply then sub 0x16 .write else ([], none)
  let st := stage.2.getD .zero
  let stageOk := st.inPondOf x.c && (List.range 16).all fun k =>
    decide (16 ≤ (st.slots.filter fun g => slotCore g == k).length)
  let o := out.2.getD .zero
  (x.dblkFails
    ++ x.own (i != 0xFF && !x.outside i) 0x1E cmdFault
    ++ (if r.isEmpty then [] else
      (if apply then
        ck (decide (wset ≤ 63) && (x.dev.wset wset).nbuf != 0) 0
        ++ ck (numAt r 1 1 < 4) 1 else [])
      ++ ck (uop < 3) 3
      ++ out.1 ++ stage.1
      ++ ck (decide (1 ≤ nseg)) 0xC
      ++ place 0x10 64 (nseg * 65856)
      ++ (if apply then ck stageOk 0x16 ++ ck (o.size == 16384 * nseg) 0xC
            ++ place 0x24 1 (12 * 16384 * nseg) ++ place 0x2A 1 (12 * 16384 * nseg) ++ place 0x30 64 64
          else [])
      ++ (if uop == 1 then
            place 0x18 64 (nseg * 65856) ++ ck (o.fmt == .int8) 2 ++ ck (o.size == nseg) 0xC else [])
      ++ ck (numAt r 0x17 1 == 0) 0x17 ++ ck (numAt r 0x36 10 == 0) 0x36)
    ++ x.reserved 0x1F 0x1F ++ x.reserved 0x28 0x3F,
   .update
    { wset := wset, frozen := bit (numAt r 1 1) 0, lshift3 := bit (numAt r 1 1) 1, uop := uop,
      out := out.2, version := BitVec.ofNat 32 (numAt r 4 4), segFirst := numAt r 8 4, nseg := nseg,
      accBase := numAt r 0x10 6, accNext := numAt r 0x18 6, state0 := numAt r 0x24 6, state1 := numAt r 0x2A 6,
      hpBase := numAt r 0x30 6, stage := stage.2, skipHseq := BitVec.ofNat 32 (x.f 0x20 4),
      commitHseq := BitVec.ofNat 32 (x.f 0x24 4) })

/-! ### Fill, copy, versions, signals, hurdles, cancels -/

/-- Fill and release (R212). -/
def Dec.fill (x : Dec) : List Fail × Body :=
  let mode := x.f 0x18 1
  let cf := x.f 0x19 1
  let first := x.f 0x1A 2
  let n := x.f 0x1C 2
  (x.own (mode < 2) 0x18 cmdFault
    ++ (if mode == 0 then
          x.own (cf != 0xD && cf != 0xE) 0x19 formatFault
          ++ x.own (decide (cf ≤ 3) || (decide (9 ≤ cf) && decide (cf ≤ 0xF))) 0x19 cmdFault else [])
    ++ x.own (decide (1 ≤ n ∧ n ≤ 6144)) 0x1C cmdFault
    ++ x.own (decide (first + n ≤ 6144)) 0x1C addrFault
    ++ x.reserved 0x1E 0x1F ++ x.reserved 0x28 0x3F,
   if mode == 0 then .fill cf first n (BitVec.ofNat 64 (x.f 0x20 8)) else .release first n)

/-- Copy (R212, R146). -/
def Dec.copy (x : Dec) : List Fail × Body :=
  let s := x.f 0x18 2
  let d := x.f 0x1A 2
  let n := x.f 0x1C 2
  (x.own (decide (1 ≤ n ∧ n ≤ 6144)) 0x1C cmdFault
    ++ x.own (decide (s + n ≤ 6144) && decide (d + n ≤ 6144) && apart (s, n) (d, n)) 0x1C addrFault
    ++ x.own (x.f 0x1E 1 < 2) 0x1E cmdFault ++ x.reserved 0x1F 0x3F,
   .copy s d n (bit (x.f 0x1E 1) 0))
where
  apart (a b : Nat × Nat) : Bool := decide (a.1 + a.2 ≤ b.1) || decide (b.1 + b.2 ≤ a.1)

/-- Version pin and release (R219, R255). -/
def Dec.version (x : Dec) (unpin : Bool) : List Fail × Body :=
  let w := x.f 0x18 2
  let v := BitVec.ofNat 32 (x.f 0x1C 4)
  (x.own (decide (w ≤ 63) && (x.dev.wset w).nbuf != 0) 0x18 cmdFault
    ++ x.reserved 0x1A 0x1B ++ x.reserved 0x20 0x3F,
   if unpin then .unpin w v else .pin w v)

/-- The cluster has a stream group (R220, R286). -/
def Dec.grouped (x : Dec) : List Fail := x.own (x.dev.live.sgroup x.c != 0xF) 0x00 cmdFault

def Dec.signal (x : Dec) : List Fail × Body :=
  (x.grouped ++ x.own (x.f 0x18 1 < 64) 0x18 cmdFault ++ x.own (x.f 0x19 1 < 2) 0x19 cmdFault
    ++ x.reserved 0x1A 0x1B ++ x.reserved 0x20 0x3F,
   .signal (x.f 0x18 1) (bit (x.f 0x19 1) 0) (BitVec.ofNat 32 (x.f 0x1C 4)))

def Dec.wait (x : Dec) : List Fail × Body :=
  (x.grouped ++ x.own (x.f 0x18 1 < 64) 0x18 cmdFault ++ x.reserved 0x19 0x1B
    ++ x.reserved 0x20 0x3F,
   .wait (x.f 0x18 1) (BitVec.ofNat 32 (x.f 0x1C 4)))

/-- Hurdle commands of one HSEQ that the module holds: kind, count and whether one names DATA. -/
def Dev.hurdlesOf (d : Dev) (hseq : W32) : List (Nat × Nat × Bool) :=
  d.mar.heats.filterMap fun h =>
    match h.body with
    | .hurdle data k q n => if q == hseq then some (k, n, data.isSome) else none
    | _ => none

/-- Hurdle (R222, R346, R354). -/
def Dec.hurdle (x : Dec) : List Fail × Body :=
  let hk := x.f 0x1F 1
  let hseq := BitVec.ofNat 32 (x.f 0x20 4)
  let np := x.f 0x24 2
  let d := x.operand 0x1E .read false
  let others := x.dev.hurdlesOf hseq
  let data := d.2.map fun t => (t.span.1, t.span.2 - t.span.1)
  (x.own (x.dev.role != 0 && x.dev.role != 1) 0x00 cmdFault
    ++ x.dblkFails ++ d.1
    ++ (match d.2 with
      | none => []
      | some t => x.relate (decide (t.span.2 - t.span.1 ≤ 32)) 0x1E t.strAt
          ++ x.relate (!(others.any fun o => o.2.2)) 0x1E t.strAt)
    ++ x.own (decide (1 ≤ hk ∧ hk ≤ 6)) 0x1F cmdFault
    ++ x.own (others.all fun o => o.1 == hk) 0x20 cmdFault
    ++ x.own (decide (1 ≤ np ∧ np ≤ 384)) 0x24 cmdFault
    ++ x.own (others.all fun o => o.2.1 == np) 0x24 cmdFault
    ++ x.reserved 0x26 0x3F,
   .hurdle data hk hseq np)

def Dec.cancel (x : Dec) : List Fail × Body :=
  (x.own (x.f 0x18 1 < 2) 0x18 cmdFault ++ x.own (x.f 0x19 1 < 8) 0x19 cmdFault
    ++ x.reserved 0x1A 0x1B ++ x.reserved 0x20 0x3F,
   .cancel (x.f 0x18 1 == 1) (x.f 0x19 1) (BitVec.ofNat 32 (x.f 0x1C 4)))

/-- Rollout context (R286 to R290). -/
def Dec.context (x : Dec) : List Fail × Body :=
  let cop := x.f 0x1E 1
  let lists := decide (5 ≤ cop)
  let needT0 := cop == 0 || cop == 4 || cop == 5 || decide (7 ≤ cop)
  let wr := cop == 4 || cop == 5 || cop == 9 || cop == 0xA
  let l := x.operand 0x1F (if cop == 5 then .write else .read) lists
  let t0 := x.operand 0x20 (if wr then .write else .read) needT0
  let t1 := x.operand 0x21 .write (cop == 9)
  let n := (l.2.getD .zero).e 0
  let t := t0.2.getD .zero
  let u := t1.2.getD .zero
  let t0ok :=
    if cop == 0 || cop == 4 then t.inHbm && t.span.2 - t.span.1 == 128
    else if cop == 7 then t.fmt == .int32 && t.size == n
    else if cop == 9 then t.e 2 == n
    else if cop == 0xA then t.fmt == .fp32 && t.e 1 == n && t.inPondOf x.c
    else t.e 1 == n
  (x.grouped ++ x.dblkFails ++ l.1 ++ t0.1 ++ t1.1
    ++ x.own (decide (cop ≤ 0xA)) 0x1E cmdFault
    ++ (if lists && l.2.isSome then
          let ld := l.2.getD .zero
          x.relate (ld.fmt == .int32 && ld.ndim == 1) 0x1F 6 ++ x.relate (decide (n ≤ 128)) 0x1F ld.extAt
            ++ x.relate (ld.inPond || !ld.inHbm) 0x1F ld.strAt else [])
    ++ (if needT0 && t0.2.isSome then x.relate t0ok 0x20 t.strAt else [])
    ++ (if cop == 9 && t1.2.isSome then
          x.relate (u.fmt == .fp32) 0x21 6 ++ x.relate (u.e 0 == t.e 1 && u.e 1 == n) 0x21 u.extAt else [])
    ++ (if cop == 0xA && t0.2.isSome then x.own (t.e 0 == x.f 0x28 4) 0x28 layoutFault else [])
    ++ x.own (lists || decide (x.f 0x24 4 < 65536)) 0x24 cmdFault
    ++ x.own (cop != 0xA || decide (1 ≤ x.f 0x28 4 ∧ x.f 0x28 4 ≤ 1024)) 0x28 cmdFault
    ++ x.own (x.f 0x2C 1 < 4) 0x2C cmdFault ++ x.reserved 0x2D 0x3F,
   .context ⟨cop, l.2, t0.2, t1.2, x.f 0x22 2, x.f 0x24 4, BitVec.ofNat 32 (x.f 0x28 4),
     bit (x.f 0x2C 1) 0, bit (x.f 0x2C 1) 1⟩)

/-! ### Families, chained commands and the header (R206 to R210, R224, R225) -/

/-- The stage families (R225). -/
def Dec.stageOf (x : Dec) (op : Nat) : Option Parsed :=
  match op with
  | 0x01 => some x.move
  | 0x08 => some x.gather
  | 0x09 => some x.scatter
  | 0x10 => some (x.matrix false)
  | 0x11 => some (x.matrix true)
  | 0x18 => some x.vector
  | 0x19 => some x.rowReduce
  | 0x1A => some x.spring
  | 0x20 => some x.relaySend
  | _ => none

/-- Tensors a stage reads. -/
def Stage.reads : Stage → List Desc
  | .move s _ _ => [s]
  | .gather t i _ _ => [t, i]
  | .scatter _ i s _ _ => [i, s]
  | .matrix m => [m.a, m.w] ++ m.accSrc.toList ++ m.bias.toList ++ m.a2.toList ++ m.acc2.toList
  | .vector v => v.in0.toList ++ v.in1.toList ++ v.in2.toList
  | .rowReduce r => [r.x] ++ r.dy.toList ++ r.gamma.toList ++ r.beta.toList ++ r.statsIn.toList
  | .spring g => g.inp.toList ++ [g.key]
  | .relaySend r => [r.src]

/-- Tensors a stage writes, with the operand fields that name them; a tandem product writes its
partials (R251). -/
def Stage.outs : Stage → List (Nat × Desc)
  | .move _ d _ => [(0x1F, d)]
  | .gather _ _ d _ => [(0x20, d)]
  | .scatter t _ _ _ _ => [(0x1E, t)]
  | .matrix m =>
    (m.out.toList.map fun d => (0x20, d)) ++ (if m.tandem then m.accSrc.toList.map fun d => (0x28, d) else [])
      ++ m.out2.toList.map fun d => (0x2C, d)
  | .vector v => [(0x21, v.out)]
  | .rowReduce r =>
    (r.out.toList.map fun d => (0x23, d)) ++ (r.statsOut.toList.map fun d => (0x24, d))
      ++ (r.dgamma.toList.map fun d => (0x25, d)) ++ r.dbeta.toList.map fun d => (0x26, d)
  | .spring g => [(0x1E, g.out)]
  | .relaySend _ => []

def Stage.writes (s : Stage) : List Desc := s.outs.map Prod.snd

def slotsOf (l : List Desc) : List Nat := (l.map Desc.slots).flatten

def overlap (a b : List Nat) : Bool := a.any fun x => b.contains x

/-- An output of a stage may overlap no output of an earlier stage and nothing that one reads
(R225): a failure stands at the later stage's field (R488). -/
def Dec.chainFails (x : Dec) (before : List Stage) (s : Stage) : List Fail :=
  (s.outs.map fun o =>
    x.inDesc (before.all fun t => !overlap (slotsOf t.writes) o.2.slots && !overlap (slotsOf t.reads) o.2.slots)
      o.1 o.2.strAt noSub cmdFault).flatten

/-- The sparse operand of a compressed-mode command (R272). -/
def Stage.compressed : Stage → Option Desc
  | .matrix m => if m.sparse && m.pred.isNone then some (if m.sparseW then m.w else m.a) else none
  | _ => none

/-- The stages that write slots of a tensor (R225). -/
def producers (before : List Stage) (t : Desc) : List Stage :=
  before.filter fun s => overlap (slotsOf s.writes) t.slots

/-- A move that may feed compressed mode (R273): a tile-major compressed source, and a region of the
destination for each of its tiles. -/
def feeds (t : Desc) : Stage → Bool
  | .move s d _ =>
    s.tileMap != 0 && s.e 0 == 128 && s.e 1 == 128 && d.inPond && d.fmt == s.fmt && t.fmt == d.fmt
      && d.st 0 == 1 && d.st 1 == 128 && (d.stride.drop 2).all fun q => q % 16384 == 0
  | _ => false

/-- Compressed mode (R273): the sparse operand is a hand-over input whose one producer is such a move.
Any view of the move's slots is such an input (R225); that the view has the move's format is the
model's reading (log entry 107). -/
def compressedOk (before : List Stage) (s : Stage) : Bool :=
  match s.compressed with
  | none => true
  | some t => match producers before t with
    | [p] => feeds t p
    | _ => false

/-- The operand field of the sparse operand. -/
def Stage.compressedAt : Stage → Nat
  | .matrix m => if m.sparseW then 0x1F else 0x1E
  | _ => 0

/-- The move that feeds a compressed-mode stage and its tile-map entries, read at decode (R274). -/
def withTiles (mem : Mem) (before : List Stage) (s : Stage) : Stage :=
  match s, s.compressed with
  | .matrix m, some t =>
    match producers before t with
    | [.move src d _] =>
      .matrix { m with
        tiles := (List.range src.tiles).map fun n => leNat (mem.bytes (src.tileMap + 8 * n) 8), feed := some d }
    | _ => s
  | _, _ => s

/-- A heavy family (R210). -/
def Stage.heavy : Stage → Bool
  | .matrix _ | .relaySend _ => true
  | _ => false

/-- The stages with their failures, each seeing the stages before it. -/
def Dec.stages (x : Dec) (cblk : Nat) : Nat → Nat → List Stage → List Fail × List Stage
  | 0, _, acc => ([], acc)
  | n + 1, k, acc =>
    let b := x.mem.bytes (cblk + 64 * k) 64
    let y := { x with b := b, stage := k }
    let op := y.f 0 1
    match y.stageOf op with
    | none => ([⟨0, k, 255, 255, noSub, cmdFault⟩], acc)
    | some (fs, st) =>
      let hd := ((List.range 23).map fun i => y.own (y.f (1 + i) 1 == 0) (1 + i) cmdFault).flatten
      let st := withTiles x.mem acc st
      let cm := y.inDesc (compressedOk acc st) st.compressedAt ((st.compressed.getD .zero).strAt) noSub layoutFault
        ++ y.chainFails acc st
      let r := x.stages cblk n (k + 1) (acc ++ [st])
      (hd ++ fs ++ cm ++ r.1, r.2)

/-- Chained (R224, R225). -/
def Dec.chained (x : Dec) : List Fail × Body :=
  let n := x.f 0x1E 1
  let cblk := x.f 0x20 6
  let ok := decide (2 ≤ n ∧ n ≤ 6)
  let cok := cblk % 64 == 0 && Machine.inHbm cblk (64 * n)
  let r := if ok && cok then x.stages cblk n 0 [] else ([], [])
  (x.dblkFails ++ x.own ok 0x1E cmdFault ++ x.own (x.f 0x1F 1 == 0) 0x1F cmdFault
    ++ x.own cok 0x20 cmdFault ++ r.1 ++ x.reserved 0x26 0x3F,
   .chained r.2)

/-- The body of a command by its opcode (R209). -/
def Dec.body (x : Dec) : List Fail × Body :=
  let op := x.f 0 1
  match x.stageOf op with
  | some (fs, st) =>
    (fs ++ x.inDesc (compressedOk [] st) st.compressedAt ((st.compressed.getD .zero).strAt) noSub layoutFault,
      .stage st)
  | none =>
    match op with
    | 0x00 => (x.reserved 0x18 0x3F, .nop)
    | 0x02 => x.fill
    | 0x03 => x.copy
    | 0x21 => x.relayReceive
    | 0x28 => x.update
    | 0x30 => x.version false
    | 0x31 => x.version true
    | 0x38 => x.signal
    | 0x39 => x.wait
    | 0x3A => x.hurdle
    | 0x3B => x.cancel
    | 0x40 => x.chained
    | 0x48 => x.context
    | _ => ([⟨0, 255, 255, 255, noSub, cmdFault⟩], .nop)

/-- Whether a body needs a draw permit (R210). -/
def Body.heavy : Body → Bool
  | .stage s => s.heavy
  | .chained l => l.any Stage.heavy
  | _ => false

/-- A move whose source lies in HBM (R210). -/
def Body.prefetchable : Body → Bool
  | .stage (.move s _ _) => s.inHbm
  | _ => false

/-- The header's checks (R206, R207, R210) and those of its family. -/
def Dec.header (x : Dec) (index : W32) (body : Body) : List Fail :=
  let fl := x.f 1 1
  let sc := x.f 2 1
  let dv := x.f 3 1
  let dep := fun (s : Nat) => BitVec.ofNat 32 (x.f (8 + 4 * s) 4)
  x.own (fl < 32) 1 cmdFault
    ++ x.own (bit fl 0 == body.heavy) 1 cmdFault
    ++ x.own (!bit fl 1 || body.prefetchable) 1 cmdFault
    ++ x.own (!bit fl 2 || (x.dev.stream x.c x.s).cplReg != 0) 1 cmdFault
    ++ x.own (!bit sc 3 && !bit sc 7) 2 cmdFault
    ++ x.own (body.heavy || bits sc 6 4 == 0) 2 cmdFault
    ++ x.own (dv < 8) 3 cmdFault
    ++ x.own (!bit dv x.s || serialBefore (dep x.s) index) (8 + 4 * x.s) cmdFault
    ++ x.own (x.f 0x16 2 == 0) 0x16 cmdFault

/-- A stream's name from its number. -/
def streamName (s : Nat) : StreamName := if s == 0 then .f else if s == 1 then .b else .u

/-- Decode the command at an index of a stream: the first failure, or the new scoreboard entry. -/
def decodeCommand (mem : Mem) (d : Dev) (c : Fin 128) (s : Nat) (index : W32) (b : List Byte) :
    Except Fail Heat :=
  let x : Dec := ⟨mem, d, c.val, s, b, 255, numAt b 0x18 6⟩
  let r := x.body
  match firstFail (x.header index r.2 ++ r.1) with
  | some f => .error f
  | none =>
    let fl := x.f 1 1
    let dv := x.f 3 1
    .ok { id := ⟨c, streamName s, index⟩, cmdId := BitVec.ofNat 32 (x.f 4 4)
          prio := bits (x.f 2 1) 2 0, pclass := bits (x.f 2 1) 6 4
          heavy := bit fl 0, prefetch := bit fl 1, cpl := bit fl 2, irq := bit fl 3, ovf := bit fl 4
          dep := [0, 1, 2].map fun i =>
            if bit dv i then some (BitVec.ofNat 32 (x.f (8 + 4 * i) 4)) else none
          depMask := BitVec.ofNat 16 (x.f 0x14 2)
          body := r.2, state := .waiting, age := 0, since := 0, request := none, granted := false
          reserved := false, engines := [], gathers := 0, order := 0, dispatch := 0, staged := []
          claims := [], waits := [], prog := [], leave := [], thresh := 0
          done := false, sat := false, clip := false, nonfinite := false
          skipped := false, taint := false, faulted := false, stale := false }

end Sys2Proof.Machine
end

