-- ==== Sys2Proof/Machine/Scoreboard.lean ====
section
/-! DEFINITION. The scoreboard: dependencies, units and footprints, readiness, requests of heats,
cancellation and its chain, faults of heats, completion records and retirement (R144, R191, R201,
R207, R226 to R239, R257, R335, R340, R442 to R444). -/

namespace Sys2Proof.Machine

open Sys2Proof.Config

/-! ### Dependencies (R198, R207) -/

/-- `a` is not after `b` in serial order (R198). -/
def notAfter (a b : W32) : Bool := a == b || serialBefore a b

/-- A dependency of `h` covers one of the `n` commands from index `lo` of stream `s` (R207). -/
def Heat.coversRange (h : Heat) (s : Nat) (lo : W32) (n : Nat) : Bool :=
  (match h.dep.getD s none with
    | some v => notAfter lo v
    | none => false)
  || (s == h.id.stream.num && (List.range 16).any fun j =>
        bit h.depMask.toNat j && decide ((h.id.index - 1 - BitVec.ofNat 32 j - lo).toNat < n))

/-- A dependency of `h` covers command `i` of stream `s`. -/
def Heat.covers (h : Heat) (s : Nat) (i : W32) : Bool := h.coversRange s i 1

/-- Every command that `h` depends on has retired (R207): none is fetched and unretired, none ended
in another way, and none is still to be fetched. -/
def Dev.depsMet (d : Dev) (h : Heat) : Bool :=
  [0, 1, 2].all fun s =>
    let t := d.stream h.id.cluster.val s
    ((d.streamHeats h.id.cluster.val s).all fun g => g.id == h.id || !h.covers s g.id.index)
      && (t.dead.all fun x => !h.coversRange s x.1 x.2.1)
      && (match h.dep.getD s none with
          | some v => serialBefore v t.fetch
          | none => true)

/-- `h` depends on a command that ended in a way that starts the chain (R207). -/
def Dev.chained (d : Dev) (h : Heat) : Bool :=
  [0, 1, 2].any fun s =>
    (d.stream h.id.cluster.val s).dead.any fun x => x.2.2 && h.coversRange s x.1 x.2.1

/-- `h` depends on a skipped APPLY, directly or through others (R340). -/
def Dev.tainted (d : Dev) (h : Heat) : Bool :=
  [0, 1, 2].any fun s => (d.stream h.id.cluster.val s).skips.any fun i => h.covers s i

/-! ### Units of a matrix command (R114, R122, R230, R274 to R278) -/

def MatBody.nTiles (m : MatBody) : Nat := (m.w.e 0 + shapeWidth m.shape - 1) / shapeWidth m.shape
def MatBody.mTiles (m : MatBody) : Nat := (m.a.e 1 + shapeRows m.shape - 1) / shapeRows m.shape
def MatBody.batches (m : MatBody) : Nat := m.a.batch.foldl (· * ·) 1

/-- Output units, in tile iteration order: columns fastest, then rows, then batches. -/
def MatBody.unitCount (m : MatBody) : Nat := m.nTiles * m.mTiles * m.batches

/-- Column tile, row tile and batch indices of a unit. -/
def MatBody.unitAt (m : MatBody) (t : Nat) : Nat × Nat × List Nat :=
  (t % m.nTiles, t / m.nTiles % m.mTiles, unravel m.a.batch (t / (m.nTiles * m.mTiles)))

/-- The logical core of the slot that holds the first operand-A element of a row tile (R230), in the
shape that was live at decode (R231). -/
def MatBody.rowCore (m : MatBody) (mT : Nat) (b : List Nat) : Nat :=
  slotCore (slotAt (m.a.place (m.a.offset ([0, mT * shapeRows m.shape, 0] ++ b))).1)

def MatBody.unitCore (m : MatBody) (t : Nat) : Nat :=
  let u := m.unitAt t
  m.rowCore u.2.1 u.2.2

/-- The command's neuron count H in mask mode (R275, R277). -/
def MatBody.neurons (m : MatBody) : Nat := if m.sparseW then m.w.e 0 / 2 else m.a.e 0 * m.a.e 2

/-- Bit `j` of row `r` of a mask of H / 8 bytes a row (R275). -/
def maskBit (mask : List Byte) (h r j : Nat) : Bool := bit (byteAt mask (r * (h / 8) + j / 8) 0) (j % 8)

/-- The neurons selected in row tile `r`, ascending. -/
def selected (mask : List Byte) (h r : Nat) : List Nat :=
  (List.range h).filter fun j => maskBit mask h r j

/-- Nonzeros a tile-map entry counts (R274). -/
def tileCount (e : Nat) : Nat := if bit e 40 then bits e 56 42 else 16384

/-- The sparse operand of a sparse command. -/
def MatBody.sparseOp (m : MatBody) : Desc := if m.sparseW then m.w else m.a

/-- The elements of the sparse operand that a unit reads: its columns of W or its rows of A, over all
of K at the unit's batch. -/
def MatBody.sparseElems (m : MatBody) (t : Nat) : List (List Nat) :=
  let u := m.unitAt t
  let b := (u.2.2.zip [3, 4, 5]).map fun x => x.1 % m.sparseOp.e x.2
  let n := if m.sparseW then shapeWidth m.shape else shapeRows m.shape
  let lo := (if m.sparseW then u.1 else u.2.1) * n
  let top := if m.sparseW then m.w.e 0 else m.a.e 1
  ((List.range (min n (top - lo))).map fun i =>
    ((List.range (m.a.e 0)).map fun k0 => (List.range (m.a.e 2)).map fun k2 =>
      if m.sparseW then [lo + i, k0, k2] ++ b else [k0, lo + i, k2] ++ b).flatten).flatten

/-- Where an element of the sparse operand lies in the regions of the move that feeds it (R273): the
tile of the region, and the element's place within it. -/
def MatBody.regionAt (m : MatBody) (idx : List Nat) : Nat × Nat :=
  match m.feed with
  | none => (0, 0)
  | some f =>
    let b := f.fmt.bits / 8
    let e := ((m.sparseOp.place (m.sparseOp.offset idx)).1 - f.base) / b
    let rest := f.ext.drop 2
    let n := ((List.range (rest.foldl (· * ·) 1)).find? fun n =>
      f.offset ([0, 0] ++ unravel rest n) == ((e / 16384 * 16384 : Nat) : Int)).getD 0
    (n, e % 16384)

/-- The tiles of the compressed source that a unit reads (R274). -/
def MatBody.tilesOf (m : MatBody) (t : Nat) : List Nat :=
  nub ((m.sparseElems t).map fun i => (m.regionAt i).1) []

/-- A compressed-mode unit goes to the sparse engine (R274), `v` being the threshold value. -/
def MatBody.thinTiles (m : MatBody) (v t : Nat) : Bool :=
  let l := m.tilesOf t
  decide ((l.map fun n => tileCount (m.tiles.getD n 0)).foldl (· + ·) 0 ≤ 64 * v * l.length)

/-- The engine of a unit: 0 array, 1 sparse engine (R230, R274, R276, R278). -/
def MatBody.engineOf (m : MatBody) (thresh : Nat) (mask : List Byte) (t : Nat) : Nat :=
  if !m.sparse then 0
  else match m.pred with
    | none => b2n (m.thinTiles thresh t)
    | some _ =>
      if m.sparseW then 0
      else b2n (decide ((selected mask m.neurons (t / m.nTiles)).length * 256 ≤ m.neurons * thresh))

/-! ### Footprints (R230) -/

/-- Logical cores that hold slots with elements of a tensor. -/
def Desc.cores (t : Desc) : List Nat := nub (t.elemSlots.map slotCore) []

def arrayOf (core : Nat) : Nat := 3 * core
def sparseOf (core : Nat) : Nat := 3 * core + 1
def vectorOf (core : Nat) : Nat := 3 * core + 2

/-- The core that holds the first element of row `r` of a row-reduce input. -/
def Desc.rowCore (t : Desc) (r : Nat) : Nat :=
  slotCore (slotAt (t.place (t.offset (unravel t.ext (r * t.e 0)))).1)

def Desc.rowCores (t : Desc) : List Nat := nub ((List.range t.rows).map t.rowCore) []

/-- Engines and gather streams of a stage, with the threshold and the mask read at dispatch. -/
def Stage.footprint (thresh : Nat) (mask : List Byte) : Stage → List Nat × Nat
  | .move _ _ _ => ([], 0)
  | .gather _ _ _ _ => ([], 1)
  | .scatter t _ _ _ _ => (if t.inPond && t.wmode == 2 then t.cores.map sparseOf else [], 1)
  | .matrix m =>
    if m.tandem then ([arrayOf (m.rowCore 0 []), arrayOf m.partner], 0)
    else (nub ((List.range m.unitCount).map fun t => 3 * m.unitCore t + m.engineOf thresh mask t) [], 0)
  | .vector v => (v.out.cores.map vectorOf, 0)
  | .rowReduce r => (r.x.rowCores.map vectorOf, 0)
  | .spring g => (g.out.cores.map vectorOf, 0)
  | .relaySend _ => ([], 0)

/-- The stage list of a body; empty for a body that is no stage. -/
def Body.stages : Body → List Stage
  | .stage s => [s]
  | .chained l => l
  | _ => []

/-- The footprint of a command (R230, R286): the union of its stages', each with its own mask. -/
def Body.footprint (thresh : Nat) (masks : List (List Byte)) (b : Body) : List Nat × Nat :=
  match b with
  | .update _ => ((List.range 16).map vectorOf, 0)
  | .context x =>
    if x.cop == 5 || x.cop == 8 || x.cop == 9 then ([], 1)
    else if x.cop == 0xA then ((x.t0.map Desc.cores).getD [] |>.map vectorOf, 0)
    else ([], 0)
  | _ =>
    let f := (b.stages.zip masks).map fun x => x.1.footprint thresh x.2
    (nub (f.map Prod.fst).flatten [], (f.map Prod.snd).foldl (· + ·) 0)

/-! ### Draw permits (R442 to R444) -/

/-- CLASS_GRAINS of a class (R64). -/
def Conf.classGrains (k : Conf) (c : Nat) : Nat := k.grains.getD c 0

/-- The sum of held grants, in grains. -/
def Dev.gSum (d : Dev) : Nat :=
  d.mar.heats.foldl (fun g h => if h.granted then g + d.live.classGrains h.pclass else g) 0

/-- CAP (R442). -/
def Dev.permitCap (d : Dev) : Nat := (4096 - d.live.reserve) * d.prm.capEighths / 8

/-- History entries not older than 10 µs, with the value in force when that time began (R443). -/
def trimHistory (now : Nat) : List (Nat × Nat) → List (Nat × Nat)
  | [] => []
  | x :: l => if x.1 + 12000 ≤ now then [x] else x :: trimHistory now l

/-- The governor notes a change of the sum of held grants. -/
def Dev.noteG (d : Dev) : Dev :=
  let g := d.gSum
  let old := (d.prm.history.headD (0, 0)).2
  if g == old then d
  else { d with prm := { d.prm with history := (d.now, g) :: trimHistory d.now d.prm.history } }

/-- A permit request arrives (R237, R444); one larger than the capacity is recorded. -/
def Dev.requestPermit (d : Dev) (h : Heat) : Dev :=
  let d := { d with mar := { d.mar with nextArrival := d.mar.nextArrival + 1 } }
  let d := d.setHeat h.id fun x => { x with request := some (d.mar.nextArrival - 1) }
  if 4096 - d.live.reserve < d.live.classGrains h.pclass then
    ({ d with prm := { d.prm with tooLarge := true } }.latch 0x5040 16).raise
      { Rec.ofHeat 0x00B9 1 h.id h.cmdId with detail := leBytes 1 h.pclass }
  else d

/-! ### Readiness (R229, R335, R257) -/

/-- A command that never passes through READY (R229, R310). -/
def Body.direct : Body → Bool
  | .nop | .signal _ _ _ | .wait _ _ | .pin _ _ | .unpin _ _ | .cancel _ _ _ | .relayReceive _
  | .hurdle _ _ _ _ => true
  | _ => false

/-- The verdict in effect of an update hurdle (R335). -/
def Dev.updVerdict (d : Dev) (hseq : W32) : Option Nat :=
  (d.upd.taken.find? fun x => x.1 == hseq).map Prod.snd

/-- Number of the buffer that holds version `v` of a set (R253). -/
def WSet.slotOf (s : WSet) (v : W32) : Nat := if s.nbuf == 0 then 0 else v.toNat % s.nbuf

def VBuf.zero : VBuf := ⟨.free, 0, 0, 0⟩

def WSet.buf (s : WSet) (b : Nat) : VBuf := s.bufs.getD b .zero

/-- An APPLY of version `v` may open its buffer, or finds it open (R257). -/
def WSet.canOpen (s : WSet) (v : W32) : Bool :=
  let b := s.buf (s.slotOf v)
  v == s.version + 1 && (b.state == .free || (b.state == .writing && b.version == v))

/-- The conditions of a body beyond its dependencies (R335, R337). -/
def Dev.bodyReady (d : Dev) (h : Heat) : Bool :=
  h.skipped || match h.body with
    | .update u =>
      u.uop != 0 || (match d.updVerdict u.skipHseq with
        | some v => v == 2 || (v == 1 && (d.wset u.wset).canOpen u.version)
        | none => false)
    | _ => true

/-- A relay command of TRAFFIC 0x1 (R340). -/
def Body.paramGather : Body → Bool
  | .stage (.relaySend r) => r.route.traffic == 1
  | .relayReceive r => r.traffic == 1
  | _ => false

/-- The heat with its skip marks (R340), as its dependencies are met. -/
def Dev.markSkip (d : Dev) (h : Heat) : Heat :=
  let t := h.taint || d.tainted h
  let sk := match h.body with
    | .update u => u.uop == 0 && d.updVerdict u.skipHseq == some 2
    | b => t && b.paramGather
  { h with taint := t, skipped := h.skipped || sk }

/-- One WAITING heat is judged: READY, a permit request, or as it was (R229, R237). -/
def Dev.settleOne (d : Dev) (h : Heat) : Dev :=
  let c := h.id.cluster.val
  if h.state != .waiting || d.noDispatch c h.id.stream.num || !d.depsMet h then d
  else
    let g := d.markSkip h
    let d := if g == h then d else d.setHeat h.id fun _ => g
    if h.body.direct || !d.bodyReady g then d
    else if g.heavy && !g.granted && !g.skipped then
      (if g.request.isSome then d else d.requestPermit g)
    else d.setHeat h.id fun x => { x with state := .ready, age := 0, since := d.now + 1 }

/-- Every WAITING heat is judged, and the governor's sum is noted. -/
def Dev.settle (d : Dev) : Dev :=
  (d.mar.heats.foldl (fun d h =>
    match d.heat h.id with
    | some h => d.settleOne h
    | none => d) d).noteG

/-! ### Requests of heats (R177, R190, R191) -/

/-- A request of no heat, not yet numbered. -/
def Req.of (who : Requester) (lines : List Nat) (kind : ReqKind) : Req :=
  ⟨0, who, lines, kind, false, false, none, 0, 0, 0, [], none⟩

/-- A request of a heat, for a fetch group or a part of one of its stages. -/
def Req.forHeat (h : Heat) (who : Requester) (lines : List Nat) (kind : ReqKind) (st grp : Nat) (slots : List Nat) :
    Req :=
  ⟨0, who, lines, kind, h.prefetch, false, some h.id, h.order, st, grp, slots, none⟩

/-- A request enters its requester's stream. -/
def Dev.post (d : Dev) (r : Req) : Dev :=
  { d with hbm := { d.hbm with reqs := d.hbm.reqs ++ [{ r with id := d.hbm.nextId }], nextId := d.hbm.nextId + 1 } }

/-- A request belongs to a heat, not to an earlier one of the same index (R192). -/
def Req.isOf (r : Req) (h : Heat) : Bool := r.heat == some h.id && r.order == h.order

/-- Requests that have not issued are withdrawn (R191). -/
def Dev.withdraw (d : Dev) (h : HeatId) : Dev :=
  { d with hbm := { d.hbm with reqs := d.hbm.reqs.filter fun r => r.heat != some h || r.issued } }

def ReqKind.isRead : ReqKind → Bool
  | .read | .hostRead _ _ => true
  | _ => false

/-- Writes and atomic updates of a heat not yet acknowledged. -/
def Dev.heatWrites (d : Dev) (h : HeatId) : List Req :=
  (d.heatReqs h).filter fun r => !r.kind.isRead

/-! ### Cancellation (R144, R191, R207, R238) -/

/-- A scoreboard entry is freed; a stream that drains to DISABLED raises its vector (R422). -/
def Dev.freeEntry (d : Dev) (h : HeatId) : Dev :=
  let c := h.cluster.val
  let s := h.stream.num
  let before := d.streamState c s
  let d := d.dropHeat h
  let d := { d with mar := { d.mar with
    acc := d.mar.acc.filterMap fun x =>
      let l := x.2.filter fun b => b.heat != h
      if l.isEmpty then none else some (x.1, l)
    weights := d.mar.weights.filter fun x => match x.2 with | some b => b.heat != h | none => false } }
  if before == 2 && d.streamState c s == 0 then d.msix (384 + 3 * c + s) else d

/-- A command ended without retiring; `chain` says that its dependents are cancelled with it. -/
def Dev.markDead (d : Dev) (h : HeatId) (chain : Bool) : Dev :=
  d.setStream h.cluster.val h.stream.num fun t =>
    if t.dead.any fun x => x.1 == h.index && x.2.1 == 1 then
      { t with dead := t.dead.map fun x => if x.1 == h.index && x.2.1 == 1 then (x.1, 1, x.2.2 || chain) else x }
    else { t with dead := t.dead ++ [(h.index, 1, chain)] }

/-- An ARMED hurdle that is cancelled before the module's contribution keeps it from being sent
(R239). -/
def Dev.withhold (d : Dev) (h : Heat) : Dev :=
  match h.body with
  | .hurdle _ _ q _ =>
    if d.dom.hurdles.any (fun x => x.hseq == q) || d.dom.kept.any (fun x => x.hseq == q)
        || d.dom.withheld.contains q then d
    else { d with dom := { d.dom with withheld := d.dom.withheld ++ [q] } }
  | _ => d

/-- One heat is cancelled according to its state (R238). -/
def Dev.cancelHeat (d : Dev) (h : Heat) (chain : Bool) : Dev :=
  let d := d.markDead h.id chain
  match h.state with
  | .cancelling => d
  | .running =>
    let d := (h.claims.foldl Dev.unclaimSlot d).withdraw h.id
    d.setHeat h.id fun x => { x with
      state := .cancelling, claims := [], staged := [], waits := [] }
  | .armed => (d.withhold h).freeEntry h.id
  | _ => d.freeEntry h.id

/-- The first heat of a cluster that the chain reaches and that is not cancelled yet. -/
def Dev.chainNext (d : Dev) (c : Nat) : Option Heat :=
  d.mar.heats.find? fun h => h.id.cluster.val == c && h.state != .cancelling && d.chained h

/-- The chain of R207 to its end: each pass cancels one heat. -/
def Dev.chainRun : Nat → Nat → Dev → Dev
  | 0, _, d => d
  | n + 1, c, d =>
    match d.chainNext c with
    | none => d
    | some h => Dev.chainRun n c (d.cancelHeat h true)

def Dev.chain (d : Dev) (c : Nat) : Dev := (d.chainRun d.mar.heats.length c).settle

/-- A set of heats is cancelled, and the chain follows where it starts one. -/
def Dev.cancelAll (d : Dev) (c : Nat) (l : List Heat) (chain : Bool) : Dev :=
  let d := l.foldl (fun d h => d.cancelHeat h chain) d
  if chain then d.chain c else d.settle

/-- A fault ends a heat: the cancellation without a chain, the halt with cause 0x3 and the notice. -/
def Dev.endHeat (d : Dev) (h : Heat) : Dev :=
  let c := h.id.cluster.val
  let s := h.id.stream.num
  (((d.cancelHeat h false).halt c s 3 h.id.index).settle).notify c s .fault

/-- A fault with its record ends a heat (R148, R167, R194). -/
def Dev.faultHeat (d : Dev) (h : Heat) (r : Rec) : Dev := (d.raise r).endHeat h

/-- The index a halted stream shows: its first running heat, else its RETIRE (R204). -/
def Dev.firstRunning (d : Dev) (c s : Nat) : W32 :=
  match (d.streamHeats c s).filter Heat.running with
  | [] => d.retire c s
  | h :: l => l.foldl (fun r g => serialMin r g.id.index) h.id.index

/-- Every running heat of a cluster is cancelled without a chain (R10, R121, R240). -/
def Dev.cancelRunning (d : Dev) (c : Nat) : Dev :=
  d.cancelAll c (d.mar.heats.filter fun h => h.id.cluster.val == c && h.state == .running) false

/-- The pond-poison record of a heat that read a poisoned word (R148). -/
def Dev.pondPoisonHeat (d : Dev) (h : Heat) (addr : Nat) : Dev :=
  let g := slotAt addr
  d.faultHeat h { Rec.ofHeat 0x0013 2 h.id h.cmdId with
    unit := slotCore g, addr := addr
    detail := leBytes 2 (g % slotsPerCluster) ++ leBytes 2 ((addr - pondBase) % slotBytes / 8 * 8) }

/-! ### Completion records and retirement (R201, R226) -/

/-- Entries of the completion ring (R202). -/
def Stream.cplSize (t : Stream) : Nat := if t.cplReg == 0 then 0 else 2 ^ bits t.cplReg.toNat 4 0

/-- A completion entry is free (R226). -/
def Dev.cplFree (d : Dev) (c s : Nat) : Bool :=
  let t := d.stream c s
  let held := ((d.streamHeats c s).filter Heat.reserved).length
  decide ((t.cplTail - t.cplHead).toNat + held < t.cplSize)

/-- The heat may take a completion entry now, or has one, or needs none. -/
def Dev.cplOk (d : Dev) (h : Heat) : Bool :=
  !h.cpl || h.reserved || d.cplFree h.id.cluster.val h.id.stream.num

/-- The 16 bytes of a completion record (R226). -/
def cplBytes (d : Dev) (h : Heat) (status : Nat) (phase : Bool) : List Byte :=
  let grace := status == 0 && d.lap.held
  leBytes 4 h.cmdId.toNat ++ leBytes 4 h.id.index.toNat ++ leBytes 1 status
    ++ leBytes 1 (b2n h.sat + 2 * b2n h.clip + 4 * b2n h.nonfinite + 8 * b2n grace + 128 * b2n phase)
    ++ leBytes 2 0 ++ leBytes 4 (d.lap.count.toNat % 2 ^ 32)

/-- The completion record of a command that ended after dispatch, where CPL asks for one; IRQ raises
the stream's vector after it (R206, R226, R422). -/
def Wk.complete (w : Wk) (h : Heat) (status : Nat) : Wk :=
  if !h.cpl then w
  else
    let c := h.id.cluster.val
    let s := h.id.stream.num
    let t := w.dev.stream c s
    let n := t.cplSize
    if n == 0 then w
    else
      let k := t.cplTail.toNat
      let base := bits t.cplReg.toNat 47 12 * 4096
      let w := w.put (base + k % n * 16) (cplBytes w.dev h status (k / n % 2 == 0))
      let w := w.up fun d => d.setStream c s fun t => { t with cplTail := t.cplTail + 1 }
      w.ite h.irq fun w => w.up fun d => d.msix (3 * c + s)

/-- A heat retires (R201): its record, its entry, its engines, its grant, and what waited on it. -/
def Wk.retire (w : Wk) (h : Heat) : Wk :=
  let status := if h.skipped then 2 else if h.faulted then 3 else 0
  let w := w.complete h status
  w.up fun d =>
    let c := h.id.cluster.val
    let d := d.freeEntry h.id
    let d := if h.skipped || h.taint then
      d.setStream c h.id.stream.num fun t => { t with skips := t.skips ++ [h.id.index] } else d
    let last : Nat × W32 × W32 × Nat := (h.id.stream.num, h.id.index, h.cmdId, h.dispatch)
    let l := AMap.set (0, 0, 0, 0) d.lap.lastHeld c last
    ({ d with lap := { d.lap with lastHeld := l } }).settle

/-- A heat of the control family is dispatched and retires in one cycle (R220, R229). -/
def Wk.retireAtOnce (w : Wk) (id : HeatId) : Wk :=
  match w.dev.heat id with
  | some h => w.retire h
  | none => w

/-! ### Dispatch (R36, R229, R233, R235, R349, R398) -/

/-- The module may dispatch: inside the window between the edges, locked where it has to be, ACTIVE
where it belongs to a domain, not stopping, and no restore and no full sweep in progress. -/
def Dev.windowOpen (d : Dev) : Bool :=
  !d.lap.held && !d.lap.stopped && !d.start.stopping
    && (!d.inDomain || d.dom.state == .active || d.dom.state == .alone)
    && decide (d.sec.phase < 3) && !d.sec.resumed && !d.swp.full

/-- A cluster may dispatch: it has reported its heats (R240) and is not halted for good (R369). -/
def Dev.clusterOpen (d : Dev) (c : Nat) : Bool :=
  d.windowOpen && !NSet.has d.mar.unreported c && !NSet.has d.flt.halted c

/-- A heat of a stream that may dispatch. -/
def Dev.streamOpen (d : Dev) (id : HeatId) : Bool :=
  d.clusterOpen id.cluster.val && !d.noDispatch id.cluster.val id.stream.num

/-- A WAITING heat of the control family whose dependencies are met may dispatch now. -/
def Dev.directOpen (d : Dev) (h : Heat) : Bool :=
  h.state == .waiting && d.streamOpen h.id && d.depsMet h && d.cplOk h

/-- Dispatch order (R233): priority, then stream, then index. -/
def Heat.earlier (a b : Heat) : Bool :=
  decide (b.prio < a.prio) || (a.prio == b.prio
    && (decide (a.id.stream.num < b.id.stream.num)
      || (a.id.stream.num == b.id.stream.num && serialBefore a.id.index b.id.index)))

/-- Heats in dispatch order. -/
def sortHeats (l : List Heat) : List Heat := l.mergeSort fun a b => a == b || a.earlier b

/-- Engines and gather streams that the running heats of a cluster hold. -/
def Dev.heldEngines (d : Dev) (c : Nat) : List Nat :=
  (d.mar.heats.filterMap fun h =>
    if h.id.cluster.val == c && h.running then some h.engines else none).flatten
def Dev.heldGathers (d : Dev) (c : Nat) : Nat :=
  d.mar.heats.foldl (fun n h => if h.id.cluster.val == c && h.running then n + h.gathers else n) 0

/-- The mask bytes a mask-mode stage reads at dispatch (R275): H / 8 bytes for each row tile. -/
def Stage.readMask (mem : Mem) : Stage → List Byte
  | .matrix m =>
    match m.pred with
    | some p => ((List.range (p.e 1)).map fun r =>
        mem.bytes (p.place (p.offset [0, r])).1 (m.neurons / 8)).flatten
    | none => []
  | _ => []

/-- The stages of a heat, each with the mask read for it. -/
def Heat.withMasks (h : Heat) : Nat → List (List Byte) → Heat
  | _, [] => h
  | k, b :: l => Heat.withMasks (if b.isEmpty then h else h.upAt k fun p => { p with mask := b }) (k + 1) l

/-- A heat with its footprint worked out: its units are placed since decode (R231), and the threshold
and the masks are those of now (R274, R275). -/
def Dev.placed (d : Dev) (mem : Mem) (h : Heat) : Heat :=
  let v := d.live.thresh h.id.cluster.val
  let masks := h.body.stages.map (Stage.readMask mem)
  let f := if h.skipped then ([], 0) else h.body.footprint v masks
  { h.withMasks 0 masks with engines := f.1, gathers := f.2, thresh := v }

/-- A heat becomes RUNNING (R233, R235): an APPLY opens its buffer (R257) and records its hurdles
(R341). -/
def Dev.start_ (d : Dev) (h : Heat) : Dev :=
  let d := { d with mar := { d.mar with nextOrder := d.mar.nextOrder + 1 } }
  let d := d.setHeat h.id fun _ => { h with
    state := .running, done := h.skipped, reserved := h.cpl, order := d.mar.nextOrder - 1, dispatch := d.lap.sinceNom }
  match h.body with
  | .update u =>
    if u.uop == 0 && !h.skipped then
      d.setWset u.wset fun s => { s with
        bufs := (List.range s.bufs.length).map fun b =>
          if b == s.slotOf u.version && (s.buf b).state == .free then ⟨.writing, u.version, 0, 0⟩
          else s.buf b
        skipHseq := u.skipHseq, commitHseq := u.commitHseq, used := d.now + 1 }
    else d
  | _ => d

/-- A running heat may go on: its work is not finished, and it is not skipped (R340). -/
def Heat.mayRun (h : Heat) : Bool := h.state == .running && !h.done && !h.skipped

/-- The heats of its cluster that were dispatched before a heat and still run. -/
def Dev.before (d : Dev) (h : Heat) : List Heat :=
  d.mar.heats.filter fun g => g.id.cluster == h.id.cluster && g.running && decide (g.order < h.order)

/-- The units of a heat on an engine are served once the earlier heats on it have ended; the engines
it shares with none of them serve it at once (R235). -/
def Dev.served (d : Dev) (h : Heat) (engines : List Nat) : Bool :=
  (d.before h).all fun g => g.engines.all fun e => !engines.contains e

/-- Gather streams are left for a heat (R235). -/
def Dev.streamsFor (d : Dev) (h : Heat) : Bool :=
  h.gathers == 0 || decide ((d.before h).foldl (fun n g => n + g.gathers) 0 + h.gathers ≤ max 8 h.gathers)

/-- A slot of a core whose pond is being copied onto the spare: its accesses wait (R119). -/
def Dev.copyingSlot (d : Dev) (g : Nat) : Bool :=
  AMap.get 0 d.flt.copying (g / slotsPerCluster) == slotCore g + 1

/-- A slot may be read (R119, R140). -/
def Dev.readable (d : Dev) (g : Nat) : Bool := d.isFull g && !d.copyingSlot g

end Sys2Proof.Machine
end

