-- ==== Sys2Proof/Machine/Contexts.lean ====
section
/-! DEFINITION. The context table (R282 to R294): records with their check words, and what a rollout command
does as it is dispatched (R286, R288, R291): it reads its records, in dispatch order, and changes their
states. -/

namespace Sys2Proof.Machine

open Sys2Proof.Config

/-! ### Records (R283 to R285) -/

/-- A record with its check word over its first 124 bytes (R284). -/
def withCheck (r : List Byte) : List Byte :=
  let b := (r ++ List.replicate 124 0).take 124
  b ++ leBytes 4 (crc32c b).toNat

/-- A record no one has written: FREE. -/
def ctxFree : List Byte := withCheck []

def Dev.ctxAt (d : Dev) (id : Nat) : List Byte := AMap.get ctxFree d.ctx id

def Dev.setCtx (d : Dev) (id : Nat) (r : List Byte) : Dev := { d with ctx := AMap.set ctxFree d.ctx id r }

/-- A module update: the check word follows it. -/
def Dev.putCtx (d : Dev) (id : Nat) (r : List Byte) : Dev := d.setCtx id (withCheck r)

def checkOk (r : List Byte) : Bool := withCheck r == r && byteAt r 0 0 < 5

def ctxState (r : List Byte) : Nat := byteAt r 0 0

/-- A field of `n` bytes at an offset replaced. -/
def setField (r : List Byte) (o n v : Nat) : List Byte := r.take o ++ leBytes n v ++ r.drop (o + n)

def withState (r : List Byte) (s : Nat) : List Byte := setField r 0 1 s

def ctxPrio (r : List Byte) : Nat := byteAt r 1 0 % 8
def ctxGroupOf (r : List Byte) : Nat := byteAt r 2 0
def ctxPos (r : List Byte) : Nat := numAt r 4 4
def ctxMax (r : List Byte) : Nat := numAt r 8 4
def ctxFmt (r : List Byte) : Fmt := (Fmt.ofCode (byteAt r 3 0)).getD .bf16
def ctxXrow (r : List Byte) : Nat := numAt r 0x48 6

/-- Address of the K or V row of a layer at a position (R283). -/
def ctxRow (r : List Byte) (layer p : Nat) (v : Bool) : Nat :=
  numAt r 0x10 6 + layer * numAt r 0x20 8 + p * numAt r 0x18 4 + (if v then numAt r 0x28 8 else 0)

/-! ### Reading records (R284, R286) -/

/-- A context record event (R425). -/
def ctxRec (code : Nat) (h : Heat) (id cop : Nat) : Rec :=
  { Rec.ofHeat code 1 h.id h.cmdId with detail := leBytes 2 id ++ leBytes 1 cop }

/-- A command reads a record: one that fails its check goes to FAULT and is absent. -/
def Dev.readCtx (d : Dev) (h : Heat) (id cop : Nat) : Dev × Option (List Byte) :=
  let r := d.ctxAt id
  if checkOk r then (d, some r)
  else ((d.putCtx id (withState r 4)).raise (ctxRec 0x0068 h id cop), none)

/-- A command's stream group. -/
def Dev.groupOf (d : Dev) (h : Heat) : Nat := d.live.sgroup h.id.cluster.val

/-- A context operation has nothing left to do; `fault` says that its context refused it (STATUS 0x3). -/
def Dev.ctxEnd (d : Dev) (id : HeatId) (fault : Bool) : Dev :=
  d.setHeat id fun x => { x.upAt 0 (fun p => { p with begun := true, ended := true }) with
    done := true, faulted := x.faulted || fault, waits := [] }

/-- The records of a command are read, by row (R286). -/
def Dev.ctxHold (d : Dev) (id : HeatId) (rows : List (Option (Nat × List Byte))) : Dev :=
  d.setHeat id fun x => { x.upAt 0 (fun p => { p with begun := true, rows := rows }) with waits := [] }

/-! ### Single-context operations (R287) -/

/-- A context-state event record, and the end of an operation that has no effect (R286). -/
def Dev.ctxRefuse (d : Dev) (h : Heat) (id cop : Nat) : Dev := (d.raise (ctxRec 0x0069 h id cop)).ctxEnd h.id true

/-- A single-context operation on a context that its group owns and whose state it accepts. -/
def Dev.onContext (d : Dev) (h : Heat) (x : CtxBody) (states : List Nat) (f : List Byte → Dev → Dev) : Dev :=
  match d.readCtx h x.ctx x.cop with
  | (d, none) => d.ctxEnd h.id true
  | (d, some r) =>
    let owned := x.cop == 0 || ctxGroupOf r == d.groupOf h
    if owned && states.contains (ctxState r) then f r d else d.ctxRefuse h x.ctx x.cop

/-- OPEN and RETIRE find their context in a state that allows them, and go on (R287). -/
def Dev.ctxKeep (d : Dev) (h : Heat) (x : CtxBody) (states : List Nat) : Dev :=
  d.onContext h x states fun r d => d.ctxHold h.id [some (x.ctx, r)]

/-- CANCEL, PARK and RESUME: another state; RESUME not at the last position (R287). -/
def Dev.ctxTurnTo (d : Dev) (h : Heat) (x : CtxBody) (states : List Nat) (to_ : Nat) : Dev :=
  d.onContext h x states fun r d =>
    if x.cop == 2 && ctxPos r == ctxMax r then d.ctxRefuse h x.ctx 2
    else (d.putCtx x.ctx (withState r to_)).ctxEnd h.id false

/-! ### BATCH (R288) -/

/-- Contexts that are READY and owned by a group, in the order of R288. -/
def Dev.readyContexts (d : Dev) (g : Nat) : List Nat :=
  let rot := (AMap.get 0 d.ctxRot g).toNat
  let key := fun (x : Nat × List Byte) => (7 - ctxPrio x.2) * 65536 + (x.1 + 65536 - rot) % 65536
  ((d.ctx.filter fun x => ctxState x.2 == 1 && ctxGroupOf x.2 == g).mergeSort fun a b =>
    decide (key a ≤ key b)).map Prod.fst

/-- The first `n` of a list of contexts whose records pass their check become BUSY. -/
def Dev.select (d : Dev) (h : Heat) : Nat → List Nat → Dev × List (Nat × List Byte)
  | _, [] => (d, [])
  | 0, _ => (d, [])
  | n + 1, id :: l =>
    match d.readCtx h id 5 with
    | (d, none) => d.select h (n + 1) l
    | (d, some r) =>
      let x := (d.putCtx id (withState r 2)).select h n l
      (x.1, (id, r) :: x.2)

/-- The selection of a BATCH (R288). -/
def Dev.batchSelect (d : Dev) (h : Heat) (x : CtxBody) : Dev :=
  let g := d.groupOf h
  let ext := (x.list.getD .zero).e 0
  let n := if x.arg == 0 then ext else min ext x.arg.toNat
  let q := d.select h n (d.readyContexts g)
  let d := match q.2.getLast? with
    | none => q.1
    | some y => { q.1 with ctxRot := AMap.set 0 q.1.ctxRot g (BitVec.ofNat 16 ((y.1 + 1) % 65536)) }
  d.ctxHold h.id (q.2.map some)

/-! ### Per-row operations (R289, R290) -/

/-- The records of the rows of a list: absent where the row names none, or a context that is not BUSY
or not the group's; a context that is refused writes a record. -/
def Dev.readRows (d : Dev) (h : Heat) (cop : Nat) : List Int → Dev × List (Option (Nat × List Byte))
  | [] => (d, [])
  | i :: l =>
    let one : Dev × Option (Nat × List Byte) :=
      if i < 0 || 65535 < i then (d, none)
      else
        let id := i.toNat
        match d.readCtx h id cop with
        | (d, none) => (d, none)
        | (d, some r) =>
          if ctxState r == 2 && ctxGroupOf r == d.groupOf h then (d, some (id, r))
          else (d.raise (ctxRec 0x0069 h id cop), none)
    let rest := one.1.readRows h cop l
    (rest.1, one.2 :: rest.2)

/-- A field of the record that stands now changed, and its check word with it. -/
def Dev.upCtx (d : Dev) (id : Nat) (f : List Byte → List Byte) : Dev := d.putCtx id (f (d.ctxAt id))

/-- A context that is BUSY still goes to another state (R289, R292). -/
def fromBusy (s : Nat) (r : List Byte) : List Byte := if ctxState r == 2 then withState r s else r

/-- A record with one draw more (R290). -/
def drawn (r : List Byte) : List Byte := setField r 0x40 8 ((numAt r 0x40 8 + 1) % 2 ^ 64)

/-- The accessor that reads LIST: the gather engine, or DMA-out for a command without a gather stream (log
entry 46). -/
def CtxBody.listAcc (x : CtxBody) : Nat := if x.cop == 8 || x.cop == 9 then accGather else accOut

/-- The list operations read their list, and then their records, as soon as the list may be read; RELEASE
is then complete, and SAMPLE has counted its draws (R286, R289, R290). -/
def Dev.readList (d : Dev) (mem : Mem) (h : Heat) (x : CtxBody) : Dev :=
  let l := x.list.getD .zero
  match l.slots.filter fun g => !d.readable g with
  | [] =>
    if !d.turns x.listAcc l.places then d
    else
      match firstPoison mem.view l.places with
      | some a => d.pondPoisonHeat h a
      | none =>
        let q := d.readRows h x.cop ((l.indices mem.view).map Prod.fst)
        let ids := (q.2.filterMap id).map Prod.fst
        if x.cop == 6 then (ids.foldl (fun d i => d.upCtx i (fromBusy 1)) q.1).ctxEnd h.id false
        else if x.cop == 0xA then (ids.foldl (fun d i => d.upCtx i drawn) q.1).ctxHold h.id q.2
        else q.1.ctxHold h.id q.2
  | gs => d.setHeat h.id fun y => { y with waits := gs.map fun g => ⟨0, g, false, x.listAcc⟩ }

/-! ### Dispatch order (R291) -/

def Body.isContext : Body → Bool
  | .context _ => true
  | _ => false

/-- Every context operation dispatched before a heat has read its records (R291). -/
def Dev.ctxFirst (d : Dev) (h : Heat) : Bool :=
  d.mar.heats.all fun g => !(g.body.isContext && g.state == .running && decide (g.order < h.order) && !(g.at 0).begun)

/-- A context operation reads its records, where it has not yet and those before it have (R286, R291). -/
def Dev.ctxBegin (d : Dev) (mem : Mem) (id : HeatId) : Dev :=
  match d.heat id with
  | none => d
  | some h =>
    match h.body with
    | .context x =>
      if !h.mayRun || (h.at 0).begun || !d.ctxFirst h then d
      else
        match x.cop with
        | 0 => d.ctxKeep h x [0]
        | 1 => d.ctxTurnTo h x [1] 3
        | 2 => d.ctxTurnTo h x [3] 1
        | 3 => d.ctxTurnTo h x [1, 2, 3] 0
        | 4 => d.ctxKeep h x [1, 3]
        | 5 => d.batchSelect h x
        | _ => d.readList mem h x
    | _ => d

/-- A heat is dispatched: it runs, and a context operation reads its records. -/
def Dev.dispatch (d : Dev) (mem : Mem) (h : Heat) : Dev := (d.start_ h).ctxBegin mem h.id

end Sys2Proof.Machine
end

