-- ==== Sys2Proof/Machine/Fence.lean ====
section
/-! DEFINITION. Faults inside the module: fencing a core and the takeover by the spare (R17, R18,
R119 to R121, R369), the watchdog (R240), die-to-die links (R10) and pond errors (R147, R148). -/

namespace Sys2Proof.Machine

open Sys2Proof.Config

/-! ### The map of logical cores (R17) -/

def Dev.fencedCores (d : Dev) (c : Nat) : List Nat := AMap.get [] d.flt.fenced c

/-- The spare, physical core 16, is idle: not fenced, and for no logical core. -/
def Dev.spareIdle (d : Dev) (c : Nat) : Bool :=
  AMap.get 0 d.flt.spareOf c == 0 && !(d.fencedCores c).contains 16

/-- The physical core of a logical core (R17). -/
def Dev.physical (d : Dev) (c i : Nat) : Nat := if AMap.get 0 d.flt.spareOf c == i + 1 then 16 else i

/-- A logical core whose physical core is fenced with no spare to take over: its pond stays in service
and its engines do not (R121). -/
def Dev.lost (d : Dev) (c i : Nat) : Bool := (d.fencedCores c).contains (d.physical c i)

/-- The logical core on whose array a core's slivers run: its own, or where that is fenced the next
active one in ascending order (R121). Its sparse slivers go with them (log entry 108). -/
def Dev.host (d : Dev) (c i : Nat) : Nat :=
  if d.lost c i then (((List.range 15).map fun k => (i + 1 + k) % 16).find? fun j => !d.lost c j).getD i else i

/-- A physical core is fenced. -/
def Dev.fencePhys (d : Dev) (c p : Nat) : Dev :=
  let f := AMap.upd [] d.flt.fenced c fun l => if l.contains p then l else l ++ [p]
  { d with flt := { d.flt with fenced := f } }

/-- The three streams of a cluster halt. -/
def Dev.haltCluster (d : Dev) (c cause : Nat) : Dev :=
  [0, 1, 2].foldl (fun d s => d.halt c s cause (d.firstRunning c s)) d

/-- A cluster without a core for its work: its heats are cancelled, its streams halt for good, and
the starter is told (R121, R369). -/
def Dev.loseCluster (d : Dev) (c : Nat) : Dev :=
  let d := (d.haltCluster c 4).cancelRunning c
  { d with flt := { d.flt with halted := NSet.add d.flt.halted c } }.notify c 0xFF .fault

/-- A core of a cluster is fenced (R119, R121, R369); `r` is the record that says so. With an idle
spare the pond copy starts; without one the replacement request rises and the spare map decides. -/
def Dev.fence (d : Dev) (c i : Nat) (r : Rec) : Dev :=
  let spare := d.spareIdle c
  let d := d.raise { r with cluster := c, unit := i, spares := 0 }
  let d := d.fencePhys c (d.physical c i)
  if spare then
    { d with flt := { d.flt with
        copying := AMap.set 0 d.flt.copying c (i + 1), spareOf := AMap.set 0 d.flt.spareOf c (i + 1)
        provisional := NSet.add d.flt.provisional c } }
  else
    let d := d.replace 2
    if d.live.run15 c && !NSet.has d.flt.run15 c then
      { d with flt := { d.flt with run15 := NSet.add d.flt.run15 c } }
    else d.loseCluster c

/-- The array-fault record (R425); origin 0 checksum, 1 sweep. -/
def arrayFault (origin : Nat) : Rec := { Rec.of 0x0020 2 with detail := leBytes 1 origin }

/-! ### Pond errors (R147, R148) -/

/-- Number of a pond word among all pond words. -/
def pondErrWord (e : PondError) : Nat :=
  (slotAddr (e.cluster.val * slotsPerCluster + e.slot.val) - pondBase) / 8 + e.word.val

/-- The record of a pond error without a stream. -/
def pondErrRec (e : PondError) (code severity : Nat) : Rec :=
  { Rec.of code severity with
    cluster := e.cluster.val, unit := e.slot.val % 16
    addr := pondBase + 8 * (pondErrWord e)
    detail := leBytes 2 e.slot.val ++ leBytes 2 (8 * e.word.val) }

/-- A single-bit error is corrected in line and recorded once; an uncorrectable one poisons the
word. -/
def Wk.pondError (w : Wk) (e : PondError) : Wk :=
  match e.kind with
  | .corrected => w.up fun d =>
    if NSet.has d.mar.pondSeen (pondErrWord e) then d
    else { d with mar := { d.mar with pondSeen := NSet.add d.mar.pondSeen (pondErrWord e) } }.raise (pondErrRec e 0x0012 0)
  | .uncorrectable => w.op (.poisonPond (pondErrWord e))

/-! ### Meanings -/

/-- SPARE_POND_COPY_DONE (R119, R120): accesses to the core's slots go on, on the spare. -/
def execSparePondCopyDone (cluster : Fin 128) (s : State) : Host.Outcome State Fault Refusal :=
  devOnly s fun d =>
    { d with flt := { d.flt with copying := AMap.set 0 d.flt.copying cluster.val 0 } }

/-- A marshal that does not answer is reset with its cluster's engines (R240). -/
def Dev.marshalHang (d : Dev) (c : Nat) : Dev :=
  let d := d.raise { Rec.of 0x0022 2 with cluster := c }
  let d := [0, 1, 2].foldl (fun d s => d.halt c s 1 (d.retire c s)) d
  let d := d.cancelAll c (d.mar.heats.filter fun h => h.id.cluster.val == c) false
  let again := AMap.get 0 d.flt.hangs c != 0
  let d := { d with flt := { d.flt with hangs := AMap.upd 0 d.flt.hangs c (· + 1) } }
  let d := if again then d.replace 3 else d
  d.notify c 0xFF .overrun

/-- WATCHDOG (R240): it acts once in a lap on a cluster that has not reported the end of its heats; the
cluster dispatches nothing until they have ended. -/
def execWatchdog (cluster : Fin 128) (hang : HangKind) (s : State) :
    Host.Outcome State Fault Refusal :=
  devOnly s fun d =>
    let c := cluster.val
    if !NSet.has d.mar.unreported c || NSet.has d.mar.watched c then d
    else
      let d := { d with mar := { d.mar with watched := NSet.add d.mar.watched c } }
      match hang with
      | .core i => d.fence c i.val (Rec.of 0x0021 2)
      | .marshal => d.marshalHang c

/-- UCIE_LANE_FAILURE (R10): a repair is recorded; a link that cannot be repaired cancels every
running heat, halts every stream and raises the replacement request. -/
def execUcieLaneFailure (link : Fin 8) (repairable : Bool) (s : State) :
    Host.Outcome State Fault Refusal :=
  devOnly s fun d =>
    if repairable then d.raise { Rec.of 0x0001 0 with unit := link.val }
    else
      let d := (List.range 128).foldl (fun d c => (d.haltCluster c 5).cancelRunning c) d
      (d.raiseOnce (0x0002 * 256 + link.val) { Rec.of 0x0002 3 with unit := link.val }).replace 1

/-- The logical core that a physical core runs; none for an idle spare and for a fenced core. -/
def Dev.logical (d : Dev) (c p : Nat) : Option Nat :=
  if (d.fencedCores c).contains p then none
  else if p == 16 then (match AMap.get 0 d.flt.spareOf c with
    | 0 => none
    | i + 1 => some i)
  else some p

end Sys2Proof.Machine
end

