-- ==== Sys2Proof/Machine/Marshal.lean ====
section
/-! DEFINITION. The marshal's own steps: fetching and decoding (R200, R208, R228), dispatch (R233),
retirement (R201), the end of a cancellation (R238) and the grants of draw permits (R442 to R445). -/

namespace Sys2Proof.Machine

open Sys2Proof.Config

/-! ### Fetching (R228) -/

/-- Entries a stream holds beyond those reserved for it. -/
def Dev.sharedUse (d : Dev) (c s : Nat) : Nat :=
  let n := (d.streamHeats c s).length
  if d.live.streamOn c s then n - reservedEntries else n

/-- A stream finds a free entry, reserved or shared. -/
def Dev.entryFree (d : Dev) (c s : Nat) : Bool :=
  let on := ([0, 1, 2].filter fun i => d.live.streamOn c i).length
  let shared := scoreboardEntries - on * reservedEntries
  (d.live.streamOn c s && decide ((d.streamHeats c s).length < reservedEntries))
    || decide (([0, 1, 2].map (d.sharedUse c)).foldl (· + ·) 0 < shared)

/-- A stream from which the marshal may fetch. -/
def Dev.mayFetch (d : Dev) (c s : Nat) : Bool :=
  let t := d.stream c s
  t.fetch != t.tail && t.enable && d.live.streamOn c s && t.halt == 0 && d.entryFree c s

/-- Entries of the command ring (R198). -/
def Stream.size (t : Stream) : Nat := if t.ring == 0 then 0 else 2 ^ bits t.ring.toNat 4 0

/-- Address of command `i` (R198). -/
def Stream.slot (t : Stream) (i : W32) : Nat :=
  bits t.ring.toNat 47 12 * 4096 + i.toNat % (max 1 t.size) * 64

/-- The record of a rejected command (R208, R488). -/
def failRec (f : Fail) (h : HeatId) (cmdId : W32) : Rec :=
  { Rec.ofHeat f.kind 2 h cmdId with
    detail := leBytes 1 f.off ++ leBytes 1 f.stage ++ leBytes 1 f.desc ++ leBytes 1 f.dOff ++ leBytes 4 f.sub }

/-- The routes a body names (R302). -/
def Stage.routes : Stage → List Route
  | .matrix m => m.route.toList ++ m.route2.toList
  | .relaySend r => [r.route]
  | _ => []

def Body.routes : Body → List Route
  | .relayReceive r => [r]
  | b => (b.stages.map Stage.routes).flatten

/-- The ports know the routes that this module's commands have named, by TAG, newest first (R302,
R307). -/
def Dev.learnRoutes (d : Dev) (b : Body) : Dev :=
  b.routes.foldl (fun d r =>
    let l := (AMap.get [] d.rly.routes r.tag).filter fun x => x != r
    { d with rly := { d.rly with routes := AMap.set [] d.rly.routes r.tag (r :: l) } }) d

/-- The command at FETCH of a stream is decoded: a new entry, or a reject. -/
def Wk.fetchFrom (w : Wk) (c : Fin 128) (s : Nat) : Wk :=
  let t := w.dev.stream c.val s
  let b := w.bytes (t.slot t.fetch) 64
  w.up fun d =>
    match decodeCommand w.mem d c s t.fetch b with
    | .error f =>
      let id : HeatId := ⟨c, streamName s, t.fetch⟩
      ((d.halt c.val s 2 t.fetch).raise (failRec f id (BitVec.ofNat 32 (numAt b 4 4)))).notify c.val s .fault
    | .ok h =>
      let d := { d with mar := { d.mar with heats := d.mar.heats ++ [h] } }.learnRoutes h.body
      let d := d.setStream c.val s fun t => { t with fetch := t.fetch + 1 }
      if d.chained h then (d.cancelHeat h true).settle else d.settle

/-- FETCH (R228): one command, from the first stream of the rotation that has one. -/
def execFetch (cluster : Fin 128) (s : State) : Host.Outcome State Fault Refusal :=
  done s fun w =>
    let c := cluster.val
    let r := AMap.get 0 w.dev.mar.rotation c
    match [r % 3, (r + 1) % 3, (r + 2) % 3].find? (w.dev.mayFetch c) with
    | none => w
    | some k =>
      (w.fetchFrom cluster k).up fun d =>
        { d with mar := { d.mar with rotation := AMap.set 0 d.mar.rotation c ((k + 1) % 3) } }

/-! ### Doorbells (R199, R420) -/

/-- BAR0 offset of a register of a stream. -/
def strOffset (c s r : Nat) : Nat := 0x100000 + 0x100 * c + 0x40 * s + r

/-- A doorbell is judged (R199). -/
def Dev.doorbell (d : Dev) (c s : Nat) (tail : W32) : Dev :=
  let t := d.stream c s
  if d.live.streamOn c s && t.ring != 0 && !serialBefore tail t.tail
      && decide ((tail - d.retire c s).toNat ≤ t.size) then
    d.setStream c s fun t => { t with tail := tail }
  else
    ((d.setStream c s fun t => { t with dbReject := true }).latch (strOffset c s 0x14) 6).raise
      { Rec.of 0x0045 1 with cluster := c, stream := s, detail := leBytes 4 tail.toNat }

/-- The BAR4 writes that are not acknowledged. -/
def Dev.hostWrites (d : Dev) : List Nat :=
  (d.hbm.reqs.filter fun r => r.who == .host && !r.kind.isRead).map Req.id

/-- A doorbell comes (R420): it is judged once every BAR4 write received before it is acknowledged. -/
def Dev.bell (d : Dev) (c s : Nat) (tail : W32) : Dev :=
  if d.hostWrites.isEmpty then d.doorbell c s tail
  else { d with pcie := { d.pcie with bells := d.pcie.bells ++ [⟨c, s, tail, d.hostWrites⟩] } }

/-- Doorbells whose writes are all acknowledged are judged, in the order in which they came. -/
def Dev.ringBells (d : Dev) : Dev :=
  let due := fun (b : Bell) => !overlap b.after d.hostWrites
  let l := d.pcie.bells
  (l.filter due).foldl (fun d b => d.doorbell b.cluster b.stream b.tail)
    { d with pcie := { d.pcie with bells := l.filter fun b => !due b } }

/-! ### Dispatch (R233) -/

def Dev.item (d : Dev) (k : Nat) : Item := AMap.get .zero d.swp.items k

/-- Cycles of a lap for which an urgent item of the sweep takes its engines (R377). -/
def Dev.sweepCycles (d : Dev) : Nat := 48 * d.live.period / 10

/-- An urgent known-answer test holds the engines of a logical core (R377): from the edge on, for its share of
the lap (log entry 115). -/
def Dev.swept (d : Dev) (c core : Nat) : Bool :=
  decide (d.lap.cycle < d.sweepCycles) && (List.range 17).any fun p =>
    (d.item (17 * c + p)).urgent && d.logical c p == some core

/-- A READY heat may be dispatched now. -/
def Dev.fits (d : Dev) (h : Heat) : Bool :=
  let c := h.id.cluster.val
  (h.engines.all fun e => !(d.heldEngines c).contains e && !d.swept c (e / 3))
    && (h.gathers == 0 || decide (d.heldGathers c + h.gathers ≤ max 8 h.gathers))
    && d.cplOk h && d.bodyReady h

/-- The READY heats of a cluster that may dispatch now, in dispatch order. -/
def Dev.readyHeats (d : Dev) (c : Nat) : List Heat :=
  sortHeats (d.mar.heats.filter fun h =>
    h.id.cluster.val == c && h.state == .ready && decide (h.since ≤ d.now) && !d.noDispatch c h.id.stream.num)

/-- DISPATCH (R233): one heat, the first in dispatch order that fits, in a cycle after that of the edge (R235);
`errs` are the ECC events that pond reads of the cluster meet (R147, R148). -/
def execDispatch (cluster : Fin 128) (errs : List PondError) (s : State) :
    Host.Outcome State Fault Refusal :=
  done s fun w =>
    let c := cluster.val
    let w := Wk.each (errs.filter fun e => e.cluster == cluster) Wk.pondError w
    let mem := w.mem
    w.up fun d =>
      if !d.clusterOpen c || d.lap.cycle == 0 then d
      else
        match ((d.readyHeats c).map (d.placed mem)).find? d.fits with
        | none => d
        | some h => d.dispatch mem h

/-! ### Retirement and the end of a cancellation -/

/-- HEAT_RETIRE (R201, R187): the work is finished, every write, atomic update and relay send of the
heat is acknowledged, and nothing it issued is outstanding. -/
def execHeatRetire (h : HeatId) (s : State) : Host.Outcome State Fault Refusal :=
  done s fun w =>
    match w.dev.heat h with
    | none => w
    | some x =>
      if x.state == .running && x.done && !(w.dev.hbm.reqs.any fun r => r.isOf x) && w.dev.heatFrames h == 0 then
        w.retire x
      else w

/-- A cluster whose cancelled heats have all ended reports so (R240). -/
def Dev.report (d : Dev) (c : Nat) : Dev :=
  if d.mar.heats.any fun h => h.id.cluster.val == c && h.state == .cancelling then d
  else { d with mar := { d.mar with unreported := NSet.del d.mar.unreported c } }

/-- CANCEL_COMPLETE (R238): every issued write of a cancelled running heat is acknowledged; its
record, its entry, its engines and its grant follow. -/
def execCancelComplete (h : HeatId) (s : State) : Host.Outcome State Fault Refusal :=
  done s fun w =>
    match w.dev.heat h with
    | none => w
    | some x =>
      if x.state == .cancelling && (w.dev.heatWrites h).isEmpty then
        (w.complete x 1).up fun d =>
          ((d.freeEntry h).settle).report h.cluster.val
      else w

/-! ### Draw permits (R442 to R445) -/

/-- The largest sum of held grants in the preceding 10 µs (R443). -/
def Dev.gPeak (d : Dev) : Nat :=
  (trimHistory d.now d.prm.history).foldl (fun m x => max m x.2) d.gSum

/-- R of R443, in grains. -/
def Dev.rampGrains (d : Dev) : Nat := d.live.rampW * 4096 / d.live.budgetW

/-- Order of the governor's queue (R444). -/
def Heat.asksFirst (a b : Heat) : Bool :=
  decide (b.prio < a.prio) || (a.prio == b.prio
    && (decide (a.request.getD 0 < b.request.getD 0)
      || (a.request == b.request && decide (a.id.cluster.val ≤ b.id.cluster.val))))

/-- Grants of one cycle: at most `n`, in queue order; a request that does not fit is passed over,
except that nothing behind a waiting request of priority 7 is granted. -/
def Dev.grants (peak ramp : Nat) : Nat → List Heat → Dev → Dev
  | _, [], d => d
  | 0, _, d => d
  | n + 1, h :: l, d =>
    let g := d.gSum + d.live.classGrains h.pclass
    if g ≤ d.permitCap ∧ g ≤ peak + ramp then
      Dev.grants peak ramp n l (d.setHeat h.id fun x => { x with
        granted := true, request := none, state := .ready, age := 0, since := d.now + 1 })
    else if h.prio == 7 then d
    else Dev.grants peak ramp (n + 1) l d

/-- The requests that the governor may grant: entries of a stream halted from dispatch stay in their
states (R229). -/
def Dev.requests (d : Dev) : List Heat :=
  d.mar.heats.filter fun h => h.request.isSome && !d.noDispatch h.id.cluster.val h.id.stream.num

/-- PERMIT_GRANT (R444): up to 8 grants. -/
def execPermitGrant (s : State) : Host.Outcome State Fault Refusal :=
  devOnly s fun d =>
    let q := d.requests.mergeSort Heat.asksFirst
    (d.grants d.gPeak d.rampGrains 8 q).noteG

end Sys2Proof.Machine
end

