-- ==== Sys2Proof/Machine/MemSys.lean ====
section
/-! DEFINITION. HBM: where a line is stored (R24 to R26, R177), line tokens and request slots (R178
to R185), service of reads, writes and atomic updates (R186 to R192), errors, write-backs and the
scrub (R193 to R196). -/

namespace Sys2Proof.Machine

open Sys2Proof.Config

/-! ### Placement (R24, R25, R177) -/

/-- The C-die that stores an HBM address, and its die-physical line index (R25, R26, R177). -/
def Conf.stored (k : Conf) (a : Nat) : Nat × Nat :=
  if k.interleaved (granuleOf a) then ((interleavedAt a).1, (interleavedAt a).2 / 128)
  else (a / dieBytes, a % dieBytes / 128)

/-- Stack within the module, pseudo-channel, bank and line in the bank of a stored line (R177). -/
def linePlace (die l : Nat) : Nat × Nat × Nat × Nat :=
  let s := l % 5
  let q := l / 5
  let r := q / 32
  let a := r % 16
  let b := r / 16 % 16
  (5 * die + s, q % 32, 16 * (r / 256 % 3) + a.xor b, b + 16 * (r / 768))

def Conf.placeOf (k : Conf) (line : Nat) : Nat × Nat × Nat × Nat :=
  let d := k.stored (line * 128)
  linePlace d.1 d.2

/-! ### Classes, costs and limits (R178 to R185) -/

/-- Position of a requester in the rotation of R185: cluster number, 128 for the H-die. -/
def Requester.place : Requester → Nat
  | .dma c | .gather c => c
  | .port _ | .host => 128
  | .scrub => 129

/-- The request comes from a cluster of the die. -/
def Req.local (r : Req) (die : Nat) : Bool :=
  match r.who with
  | .dma c | .gather c => c / 32 == die
  | _ => false

/-- The die that stores a line. -/
def Dev.dieOf (d : Dev) (line : Nat) : Nat := (d.live.stored (line * 128)).1

/-- The dies that store a request's lines. -/
def Dev.diesOf (d : Dev) (r : Req) : List Nat := nub (r.lines.map d.dieOf) []

/-- Tokens a request spends at a die, by class READ, WRITE, REMOTE (R182, R183): for each of its lines
there, one, or two for an atomic update. -/
def Dev.cost (d : Dev) (r : Req) (die : Nat) : Nat × Nat × Nat :=
  let n := (r.lines.filter fun l => d.dieOf l == die).length
  if r.local die then
    match r.kind with
    | .read | .hostRead _ _ => (n, 0, 0)
    | .write _ _ => (0, n, 0)
    | .atomic _ => (n, n, 0)
  else match r.kind with
    | .atomic _ => (0, 0, 2 * n)
    | _ => (0, 0, n)

/-- The class in whose rotation a request stands: 0 READ, 1 WRITE, 2 REMOTE. -/
def Req.class_ (r : Req) (die : Nat) : Nat :=
  if !r.local die then 2 else if r.kind.isRead then 0 else 1

/-- Two requests belong to one address stream (R179, R180). -/
def Req.sameStream (a b : Req) : Bool :=
  match a.who, b.who with
  | .dma c, .dma e => c == e && (a.kind.isRead == b.kind.isRead)
  | .gather c, .gather e => c == e && a.heat == b.heat
  | .port p, .port q => p == q
  | .host, .host => true
  | .scrub, .scrub => true
  | _, _ => false

/-- The request of a list whose heat was dispatched first, in the order posted among those of one heat
(R230). -/
def firstServed : List Req → Option Req
  | [] => none
  | r :: l => match firstServed l with
    | none => some r
    | some q => if q.order < r.order then some q else some r

/-- The first request of its stream that has not issued (R179): a DMA stream serves running heats in
dispatch order (R230), a port and the host in the order of their requests. -/
def Dev.headOfStream (d : Dev) (r : Req) : Bool :=
  let l := d.hbm.reqs.filter fun q => !q.issued && q.sameStream r
  let head := match r.who with
    | .dma _ | .gather _ => firstServed l
    | _ => l.head?
  match head with
  | some q => q.id == r.id
  | none => false

def count {α : Type} (p : α → Bool) (l : List α) : Nat := (l.filter p).length

/-- Whether the limits on outstanding requests admit one more (R180, R181). -/
def Dev.withinLimits (d : Dev) (r : Req) : Bool :=
  let out := d.hbm.reqs.filter Req.issued
  match r.who with
  | .dma c =>
    decide (count (fun q => q.who == .dma c) out < dmaLimit)
      && (r.kind.isRead || decide (count (fun q => q.who == .dma c && !q.kind.isRead) out < dmaWriteLimit))
  | .gather c =>
    decide (count (fun q => q.who == .gather c) out < gatherLimit)
      && decide (count (fun q => q.who == .gather c && q.heat == r.heat) out < gatherStreamLimit)
  | .port _ | .host => (d.diesOf r).all fun die =>
    let at_ := fun (q : Req) => count (fun l => d.dieOf l == die) q.lines
    decide (((out.filter fun q => q.who.place == 128).map at_).foldl (· + ·) 0 + at_ r ≤ hDieLimit)
  | .scrub => true

/-- A request slot is free for each of its lines at the line's stack, and the banks and
pseudo-channels stay within their caps (R178). -/
def Dev.slotFree (d : Dev) (r : Req) : Bool :=
  let at_ := (((d.hbm.reqs.filter Req.issued).map Req.lines).flatten ++ r.lines).map d.live.placeOf
  r.lines.all fun l =>
    let p := d.live.placeOf l
    decide (count (fun q => q.1 == p.1) at_ ≤ slotsPerStack)
      && decide (count (fun q => q.1 == p.1 && q.2.1 == p.2.1 && q.2.2.1 == p.2.2.1) at_ ≤ bankCap)
      && decide (count (fun q => q.1 == p.1 && q.2.1 == p.2.1) at_ ≤ channelCap)

/-- Tokens a class of a die holds, in 1/32 of a token. -/
def Dev.tokens (d : Dev) (die cls : Nat) : Nat := AMap.get 0 d.hbm.tokens (3 * die + cls)

/-- The tokens that a request spends are there. -/
def Dev.paid (d : Dev) (r : Req) : Bool :=
  (d.diesOf r).all fun die =>
    let c := d.cost r die
    decide (32 * c.1 ≤ d.tokens die 0) && decide (32 * c.2.1 ≤ d.tokens die 1)
      && decide (32 * c.2.2 ≤ d.tokens die 2)

/-- A slot whose core's pond is not being copied (R119) may be claimed by a heat through an accessor:
it is EMPTY and unclaimed, and no accessor with a lower mask bit waits for it (R139, R141). -/
def Dev.claimFree (d : Dev) (h : HeatId) (acc g : Nat) : Bool :=
  !d.isFull g && !d.isClaimed g && !d.copyingSlot g
    && !(d.mar.heats.any fun x => x.id != h && x.state == .running
          && x.waits.any fun w => w.slot == g && w.writer && decide (w.acc < acc))

/-- The accessor of a request's data in a pond (R135). -/
def Requester.acc : Requester → Nat
  | .gather _ => accGather
  | _ => accIn

/-- The slots that a read is for are its heat's, or can be claimed as it issues (R139, R190). -/
def Dev.targetFree (d : Dev) (r : Req) : Bool :=
  match r.heat.bind d.heat with
  | none => true
  | some h => r.slots.all fun g =>
    if h.claims.contains g then !d.copyingSlot g else d.claimFree h.id r.who.acc g

/-- A request could take a slot now: it is the first of its stream, its limits admit it and its data
has somewhere to go. -/
def Dev.asks (d : Dev) (r : Req) : Bool := !r.issued && d.headOfStream r && d.withinLimits r && d.targetFree r

/-- A request could issue now but for the rotation. -/
def Dev.issuable (d : Dev) (r : Req) : Bool := d.asks r && d.slotFree r && d.paid r

/-- The place of a request in its class's rotation: prefetches last (R185). -/
def Dev.turnOf (d : Dev) (die cls : Nat) (r : Req) : Nat :=
  let from_ := AMap.get 0 d.hbm.served (3 * die + cls)
  (if r.prefetch then 1000 else 0) + (r.who.place + 130 - from_) % 130

/-- A request began to wait for a slot before another (R179). -/
def Req.waitedBefore (q r : Req) : Bool :=
  match q.waited, r.waited with
  | some a, some b => decide (a < b)
  | some _, none => true
  | none, _ => false

/-- The stacks of a request. -/
def Dev.stacksOf (d : Dev) (r : Req) : List Nat := r.lines.map fun l => (d.live.placeOf l).1

/-- The request is the next to issue: no other that could issue has waited longer for a slot of one of
its stacks (R179), and none comes before it in the rotation of its class (R185). -/
def Dev.isNext (d : Dev) (r : Req) : Bool :=
  d.hbm.reqs.all fun q =>
    q.id == r.id || !d.issuable q ||
      (if !overlap (d.stacksOf q) (d.stacksOf r) || (!q.waitedBefore r && !r.waitedBefore q) then
         (d.diesOf r).all fun die => !(d.diesOf q).contains die || q.class_ die != r.class_ die
           || decide (d.turnOf die (r.class_ die) r ≤ d.turnOf die (r.class_ die) q)
       else r.waitedBefore q)

/-- Tokens spent, `n` whole tokens of a class. -/
def Dev.spend (d : Dev) (die cls n : Nat) : Dev :=
  let k := 3 * die + cls
  let t := AMap.upd 0 d.hbm.tokens k fun t => t - 32 * n
  let u := AMap.upd 0 d.hbm.unused k fun t => t - n
  { d with hbm := { d.hbm with tokens := t, unused := u } }

/-- A request spends its tokens at a die and takes its turn there. -/
def Dev.pay (r : Req) (d : Dev) (die : Nat) : Dev :=
  let c := d.cost r die
  let d := ((d.spend die 0 c.1).spend die 1 c.2.1).spend die 2 c.2.2
  let sv := AMap.set 0 d.hbm.served (3 * die + r.class_ die) (r.who.place + 1)
  { d with hbm := { d.hbm with served := sv } }

/-- The slots that a read is for are claimed for its heat (R139). -/
def Dev.claimTarget (d : Dev) (r : Req) : Dev :=
  match r.heat.bind d.heat with
  | none => d
  | some h =>
    let new := r.slots.filter fun g => !h.claims.contains g
    (new.foldl Dev.claimSlot d).setHeat h.id fun x => { x with claims := x.claims ++ new }

/-- A request takes its tokens, its slots and its place in the issue order. -/
def Dev.issue (d : Dev) (r : Req) : Dev :=
  let d := ((d.diesOf r).foldl (Dev.pay r) d).claimTarget r
  let l := (d.hbm.reqs.filter fun q => q.id != r.id) ++ [{ r with issued := true }]
  { d with hbm := { d.hbm with reqs := l } }

/-- A request that asks and finds no slot begins to wait (R179). -/
def Dev.noteWait (d : Dev) (r : Req) : Dev :=
  if d.asks r && !d.slotFree r && r.waited.isNone then
    let l := updWhere (fun q => q.id == r.id) (fun q => { q with waited := some d.hbm.nextWait }) d.hbm.reqs
    { d with hbm := { d.hbm with reqs := l, nextWait := d.hbm.nextWait + 1 } }
  else d

/-! ### Errors (R193, R194, R195, R370) -/

/-- The place fields of an HBM record (R425). -/
def Dev.hbmRec (d : Dev) (code severity line : Nat) (r : Rec) (port : Nat) : Rec :=
  let p := d.live.placeOf line
  { r with code := code, severity := severity, unit := p.1, addr := 128 * line
           detail := leBytes 2 p.2.1 ++ leBytes 2 p.2.2.1 ++ leBytes 4 p.2.2.2 ++ leBytes 1 port }

/-- A line found uncorrectable counts toward its stack's limit (R370). -/
def Dev.countPoison (d : Dev) (line : Nat) : Dev :=
  let st := (d.live.placeOf line).1
  let old := AMap.get [] d.flt.poisonLines st
  if old.contains line then d
  else
    let d := { d with flt := { d.flt with poisonLines := AMap.set [] d.flt.poisonLines st (old ++ [line]) } }
    if old.length + 1 == 16 then
      { d with flt := { d.flt with stackLimit := NSet.add d.flt.stackLimit st } }.replace 4
    else d

/-- One error that ECC reports in a line: corrected words are recorded once and queued for
write-back, uncorrectable ones are poisoned. -/
def Wk.eccError (line : Nat) (r : Rec) (w : Wk) (e : EccError) : Wk :=
  let word := 4 * line + e.word.val
  match e.kind with
  | .corrected => w.up fun d =>
    let l := if d.hbm.writebacks.contains word then d.hbm.writebacks else d.hbm.writebacks ++ [word]
    let d := { d with hbm := { d.hbm with writebacks := l } }
    if NSet.has d.mar.hbmSeen word then d
    else
      let d := { d with mar := { d.mar with hbmSeen := NSet.add d.mar.hbmSeen word } }
      d.raise (d.hbmRec 0x0010 0 line r 0xFF)
  | .uncorrectable => (w.op (.poisonHbm word)).up fun d => d.countPoison line

def Wk.ecc (w : Wk) (line : Nat) (r : Rec) (errs : List EccError) : Wk :=
  Wk.each errs (Wk.eccError line r) w

/-- The poisoned words of a line, 0 to 3. -/
def Mem.poisonedWords (m : Mem) (line : Nat) : List Nat :=
  (List.range 4).filter fun i => NSet.has m.hbmPoison (4 * line + i)

/-! ### Service of requests -/

/-- The record of a request's error: a heat's stream and command, a port, or neither (R194). -/
def Dev.reqRec (d : Dev) (r : Req) : Rec :=
  match r.heat with
  | some h => Rec.ofHeat 0 0 h ((d.heat h).map (·.cmdId) |>.getD 0)
  | none => Rec.of 0 0

def Req.portNo (r : Req) : Nat := match r.who with | .port p => p | _ => 0xFF

/-- The die a request comes from; 4 for the H-die. -/
def Requester.source : Requester → Nat
  | .dma c | .gather c => c / 32
  | .port _ | .host => 4
  | .scrub => 5

/-- Requests of one die to one line are served in issue order (R186): this one is the oldest for each
of its lines. -/
def Dev.servable (d : Dev) (r : Req) : Bool :=
  r.lines.all fun l =>
    match d.hbm.reqs.find? fun q => q.issued && q.lines.contains l && q.who.source == r.who.source with
    | some q => q.id == r.id
    | none => false

def Dev.dropReq (d : Dev) (id : Nat) : Dev :=
  { d with hbm := { d.hbm with reqs := d.hbm.reqs.filter fun r => r.id != id } }

/-- Addresses whose poison refuses an atomic update; a FRESH block's values are not read (R330). -/
def AtomOp.guarded (m : Mem) : AtomOp → List (Nat × Nat)
  | .entry r b _ _ _ _ =>
    let fresh := bit (m.byte (r + 0x10000 + b)).toNat 6
    (if fresh then [] else [(r + 256 * b, 256)]) ++ [(r + 0x10000 + b, 1), (r + 0x10100, 12)]
  | .entryF r b _ _ _ => [(r + 0x10000 + b, 1), (r + 0x10100, 12)]
  | a => a.range

/-- Length of the shard image in bytes (R387, R407). -/
def Dev.secLen (d : Dev) : Nat := d.sec.len * 2 ^ 20

/-- The extents of the secure list, address and length, in list order (R384). -/
def Dev.secExtents (d : Dev) (mem : Mem) : List (Nat × Nat) :=
  (List.range d.sec.listCount).map fun i =>
    let a := d.sec.listBase + 16 * i
    (leNat (mem.bytes a 6), leNat (mem.bytes (a + 8) 8))

/-- The live shard image as pieces: offset in the image, address and length (R384). -/
def imagePieces (len : Nat) : Nat → List (Nat × Nat) → List (Nat × Nat × Nat)
  | _, [] => []
  | o, x :: l => if len ≤ o then [] else (o, x.1, min x.2 (len - o)) :: imagePieces len (o + x.2) l

def Dev.shardPieces (d : Dev) (mem : Mem) : List (Nat × Nat × Nat) :=
  imagePieces d.secLen 0 (d.secExtents mem)

/-- The offset in the live shard image of an address. -/
def Dev.shardOffset (d : Dev) (mem : Mem) (a : Nat) : Option Nat :=
  (d.shardPieces mem).findSome? fun x =>
    if x.2.1 ≤ a ∧ a < x.2.1 + x.2.2 then some (x.1 + (a - x.2.1)) else none

/-- An address lies in the runner's live shard image or its snapshot (R384, R394). -/
def Dev.inShard (d : Dev) (mem : Mem) (a : Nat) : Bool :=
  (d.shardOffset mem a).isSome || (decide (d.sec.snap ≤ a) && decide (a < d.sec.snap + d.secLen))

/-- An HBM-poison event in the shard: the runner tells the starter (R394). -/
def Dev.shardNotice (d : Dev) (mem : Mem) (line : Nat) : Dev :=
  if d.role == 2 && d.inShard mem (128 * line) then d.notify 0xFF 0xFF .shardPoison else d

/-- An atomic update that poison refuses (R194): the issuing heat ends, or the port says so. -/
def Dev.refuseAtom (d : Dev) (mem : Mem) (r : Req) (line : Nat) : Dev :=
  let d := d.raise (d.hbmRec 0x0011 2 line (d.reqRec r) r.portNo)
  match r.heat with
  | some h =>
    let d := d.shardNotice mem line
    match d.heat h with
    | some x => if x.state == .running then d.endHeat x else d
    | none => d
  | none =>
    let l := d.rly.landings.map fun x => if x.reqs.contains r.id then { x with failed := true } else x
    let d := { d with rly := { d.rly with landings := l } }
    if d.role == 2 && d.inShard mem (128 * line) then d.notify 0xFF 0xFF .shardPoison
    else d.notify 0xFF 0xFF .fault

/-- A heat's INT32 addition has saturated (R91). -/
def Dev.saturated (d : Dev) (r : Req) : Dev :=
  { d with mar := { d.mar with heats := updWhere (fun h => r.isOf h) (fun h => { h with sat := true }) d.mar.heats } }

/-- A write or atomic update is served and acknowledged. -/
def Wk.serve (w : Wk) (r : Req) : Wk :=
  match r.kind with
  | .read | .hostRead _ _ => w
  | .write a data => w.hbmPut a data
  | .atomic op =>
    let bad := (op.guarded w.mem).filterMap fun x => firstPoison w.mem.view [x]
    match bad with
    | [] => (w.applyAtom op).ite (w.saturates op) fun w => w.up fun d => d.saturated r
    | a :: _ =>
      let mem := w.mem
      w.up fun d => d.refuseAtom mem r (a / 128)

/-- A BAR4 read of some bytes of a line completes (R194, R419, R421). -/
def Wk.hostData (w : Wk) (line addr len : Nat) : Wk :=
  let bad := w.mem.poisonedWords line
  let hit := bad.any fun i => decide (addr < 128 * line + 32 * (i + 1)) && decide (128 * line + 32 * i < addr + len)
  let data := w.bytes addr len
  let mem := w.mem
  w.up fun d =>
    let d := if hit then
      ((d.raise (d.hbmRec 0x0011 2 line (Rec.of 0 0) 0xFF)).shardNotice mem line).emit .aerPoisonEgress else d
    d.emit (.readData data hit)

/-- A read is served: a heat's line is staged for the stage and group that asked for it (R176, R189);
data of a heat that is gone or cancelled is dropped unchecked (R192). -/
def Wk.deliver (w : Wk) (r : Req) (errs : List EccError) : Wk :=
  match r.kind with
  | .hostRead a n => (w.ecc r.line (Rec.of 0 0) errs).hostData r.line a n
  | _ =>
    match r.heat.bind w.dev.heat with
    | none => w
    | some h =>
      if h.state != .running || h.order != r.order then w
      else
        let rc := w.dev.reqRec r
        let w := w.ecc r.line rc errs
        let bad := w.mem.poisonedWords r.line
        let data := w.bytes (128 * r.line) 128
        let mem := w.mem
        w.up fun d =>
          let d := if bad.isEmpty then d
            else (d.raise (d.hbmRec 0x0011 2 r.line rc r.portNo)).shardNotice mem r.line
          d.setHeat h.id fun x => { x with staged := AMap.insert x.staged (stageKey r.stage r.grp r.line) ⟨data, bad⟩ }

/-! ### Meanings -/

/-- A class of a die has requests that wait to issue. -/
def Dev.hasRequests (d : Dev) (die cls : Nat) : Bool :=
  d.hbm.reqs.any fun r => !r.issued && (d.diesOf r).contains die && r.class_ die == cls

/-- TOKEN_PERIOD (R183, R184): 115 tokens divided by the shares, remainders kept, at most 512 held;
a class with no requests loses what it held. The whole tokens of the period are those that may be left
unused. -/
def execTokenPeriod (die : Fin 4) (s : State) : Host.Outcome State Fault Refusal :=
  devOnly s fun d =>
    [0, 1, 2].foldl (fun d cls =>
      let k := 3 * die.val + cls
      let add := tokensPerPeriod * d.live.share die.val cls
      let held := d.tokens die.val cls
      let old := if d.hasRequests die.val cls then held else held % 32
      let now := min (32 * tokenCap) (old + add)
      let t := AMap.set 0 d.hbm.tokens k now
      let u := AMap.set 0 d.hbm.unused k (min (now / 32) ((old % 32 + add) / 32))
      { d with hbm := { d.hbm with tokens := t, unused := u } }) d

/-- REQUEST_ISSUE (R178 to R185): the next request of its class takes its tokens and its slots. -/
def execRequestIssue (id : Nat) (s : State) : Host.Outcome State Fault Refusal :=
  devOnly s fun d =>
    match d.hbm.reqs.find? fun r => r.id == id with
    | none => d
    | some r => if d.issuable r && d.isNext r then d.issue r else d.noteWait r

/-- READ_RETURN (R176, R189, R192, R194): the line as it stands reaches the heat or the host read that
asked for it. -/
def execReadReturn (id : Nat) (errs : List EccError) (s : State) : Host.Outcome State Fault Refusal :=
  done s fun w =>
    match w.dev.hbm.reqs.find? fun r => r.id == id with
    | none => w
    | some r =>
      if r.issued && w.dev.servable r && r.kind.isRead then (w.deliver r errs).up fun d => d.dropReq id else w

/-- WRITE_ACK (R164, R187, R188, R194): the write or atomic update takes its place in the line's
order and is acknowledged. -/
def execWriteAck (id : Nat) (errs : List EccError) (s : State) : Host.Outcome State Fault Refusal :=
  done s fun w =>
    match w.dev.hbm.reqs.find? fun r => r.id == id with
    | none => w
    | some r =>
      if !r.issued || !w.dev.servable r || r.kind.isRead then w
      else
        let w := w.ecc r.line (w.dev.reqRec r) errs
        (w.serve r).up fun d => (d.dropReq id).ringBells

/-- A token that its class leaves unused in this period (R184): no request that waits for it could
issue. -/
def Dev.unusedToken (d : Dev) (die cls : Nat) : Bool :=
  AMap.get 0 d.hbm.unused (3 * die + cls) != 0 && decide (32 ≤ d.tokens die cls)
    && !(d.hbm.reqs.any fun r => (d.diesOf r).contains die && r.class_ die == cls && d.issuable r)

/-- CORRECTED_WRITEBACK (R195): the oldest corrected word of the die is rewritten in one atomic
read-correct-write; the bytes it holds do not change. -/
def execCorrectedWriteback (die : Fin 4) (s : State) : Host.Outcome State Fault Refusal :=
  devOnly s fun d =>
    match takeFirst (fun x => (d.live.stored (32 * x)).1 == die.val) d.hbm.writebacks with
    | none => d
    | some (_, l) =>
      if d.unusedToken die.val 1 then
        { d with hbm := { d.hbm with writebacks := l } }.spend die.val 1 1
      else d

/-- The sweep item of a line: its stack and 1/64 of the stack (R373); how a stack is cut into 64 parts
is the model's choice (log entry 109): by the line's rank in the stack. -/
def Dev.scrubKey (d : Dev) (line : Nat) : Nat :=
  let p := d.live.stored (128 * line)
  20000 + 64 * (5 * p.1 + p.2 % 5) + p.2 / 5 / 4718592 % 64

/-- READ tokens of a die in 0.4 % of a lap (R183, R196). -/
def Dev.scrubShare (d : Dev) (die : Nat) : Nat := d.live.period * 400 * tokensPerPeriod * d.live.share die 0 / 8000

/-- The scrub of a line is urgent (R196, R376), and its die's tokens of this lap are not spent. -/
def Dev.scrubUrgent (d : Dev) (die line : Nat) : Bool :=
  (d.swp.full || (AMap.get .zero d.swp.items (d.scrubKey line)).urgent) && decide (32 ≤ d.tokens die 0)
    && decide (AMap.get 0 d.hbm.urgent die < d.scrubShare die)

/-- A READ token spent by the scrub: one left unused, or one taken ahead of other requests. -/
def Dev.scrubPay (d : Dev) (die : Nat) : Dev :=
  if d.unusedToken die 0 then d.spend die 0 1
  else
    let u := AMap.upd 0 d.hbm.urgent die (· + 1)
    { d with hbm := { d.hbm with urgent := u } }.spend die 0 1

/-- SCRUB (R178, R194, R196): one line is read on an unused token, or on a READ token while its item is
urgent, if a request slot is free for it; poison found here carries no stream. -/
def execScrub (line : Nat) (errs : List EccError) (s : State) : Host.Outcome State Fault Refusal :=
  done s fun w =>
    let die := w.dev.dieOf line
    let ok := inHbm (128 * line) 128 && w.dev.slotFree (Req.of .scrub [line] .read)
      && (w.dev.unusedToken die 0 || w.dev.scrubUrgent die line)
    if !ok then w
    else
      let w := (w.up fun d => d.scrubPay die).ecc line (Rec.of 0 0) errs
      let bad := w.mem.poisonedWords line
      let mem := w.mem
      w.up fun d => if bad.isEmpty then d
        else (d.raise (d.hbmRec 0x0011 2 line (Rec.of 0 0) 0xFF)).shardNotice mem line

end Sys2Proof.Machine
end

