-- ==== Sys2Proof/Machine/Work.lean ====
section
/-! DEFINITION. How a running heat gets on (R119, R134, R139 to R144, R148, R176, R190, R225, R235). The
work of a stage is cut into parts: a part waits for its engine, for the HBM lines and slots that it
reads and for the slots that it writes, and then is done as a whole. -/

namespace Sys2Proof.Machine

open Sys2Proof.Config

/-! ### Parts and plans -/

/-- What a part reads together: the fetch group of its HBM lines, its places, the pond accessor that
reads them, and whether the slots are CONSUMEd (R140). -/
structure Rd where
  grp : Nat
  pl  : List (Nat × Nat)
  acc : Nat
  use : Bool

/-- A part of a stage's work: its number; who reads for it (R180); the lane in which parts go in order; the engines that serve
it; what it reads; further slots that must be FULL; the pond places that it writes, the slots that it
claims and fills, and their accessor; whether all else that it waits for has come; and what it does
with what its groups see, which answers whether the heat goes on. -/
structure Part where
  no      : Nat
  who     : Requester
  lane    : Nat
  engines : List Nat
  reads   : List Rd
  full    : List Nat
  writes  : List (Nat × Nat)
  slots   : List Nat
  wacc    : Nat
  ready   : Bool
  run     : (Nat → View) → Wk → Wk × Bool

/-- The parts of a stage, as far as they are known; `whole` says that there are no more; `temps` are
slots that hold nothing at the end. -/
structure Plan where
  parts : List Part
  whole : Bool
  temps : List Nat

/-- The places of a list that lie in ponds. -/
def pondPlaces (l : List (Nat × Nat)) : List (Nat × Nat) := l.filter fun p => decide (pondBase ≤ p.1)

/-- The key of a part among the waits of its heat (R143). Drains of a matrix stage stand from 2^32 on. -/
def partKey (st no : Nat) : Nat := st * 2 ^ 40 + no

/-- The smallest of a list. -/
def least (l : List Nat) : Option Nat := l.foldl (fun r n => match r with
  | none => some n
  | some m => some (min m n)) none

def Wk.upHeat (w : Wk) (id : HeatId) (f : Heat → Heat) : Wk := w.up fun d => d.setHeat id f

/-- What a fetch group of a heat's stage sees: ponds as they stand, HBM as served. -/
def Wk.view (w : Wk) (id : HeatId) (st grp : Nat) : View :=
  heatView w.mem ((w.dev.heat id).map Heat.staged |>.getD []) st grp

/-! ### What a part waits for -/

/-- A slot may be written by a heat (R119, R139): it is its own, or it can claim it. -/
def Dev.writable (d : Dev) (h : Heat) (acc g : Nat) : Bool :=
  if h.claims.contains g then !d.copyingSlot g else d.claimFree h.id acc g

/-- The slots that a part empties as it runs: CONSUMEd, and read by no other part still to run (R140). -/
def Part.frees (p : Part) (rest : List Part) : List Nat :=
  let later := (rest.map fun q => (q.reads.map fun r => pondSlots r.pl).flatten ++ q.full).flatten
  (nub ((p.reads.filter Rd.use).map fun r => pondSlots r.pl).flatten []).filter fun g => !later.contains g

/-- The slots that hold a part up (R139, R140, R143): those that it reads, and once it can read, those
that it writes. -/
def Dev.blocks (d : Dev) (h : Heat) (st : Nat) (rest : List Part) (p : Part) : List Wait :=
  let r := (p.reads.map fun r => ((pondSlots r.pl).filter fun g => !d.readable g).map fun g =>
      (⟨partKey st p.no, g, false, r.acc⟩ : Wait)).flatten
    ++ (p.full.filter fun g => !d.readable g).map fun g => ⟨partKey st p.no, g, false, p.wacc⟩
  if r.isEmpty then
    let own := p.frees rest
    (p.slots.filter fun g => !d.writable h p.wacc g && !own.contains g).map fun g => ⟨partKey st p.no, g, true, p.wacc⟩
  else r

/-- The lines that a part reads, with their groups. -/
def Part.lines (p : Part) : List (Nat × Nat) :=
  (p.reads.map fun r => (hbmLines r.pl).map fun l => (r.grp, l)).flatten

/-- Every line that a part reads is staged (R176). -/
def Heat.hasLines (h : Heat) (st : Nat) (p : Part) : Bool :=
  p.lines.all fun x => h.staged.any fun y => y.1 == stageKey st x.1 x.2

/-- The accessors that a part uses own turns on the banks that it needs (R134). -/
def Dev.partTurns (d : Dev) (p : Part) : Bool :=
  (p.reads.all fun r => d.turns r.acc (pondPlaces r.pl)) && d.turns p.wacc (pondPlaces p.writes)

/-- A part's turn has come: its engines serve it (R235), and what it waits for beside slots is there. -/
def Dev.partUp (d : Dev) (h : Heat) (st : Nat) (p : Part) : Bool :=
  p.ready && d.served h p.engines && d.streamsFor h && h.hasLines st p && d.partTurns p

/-- The parts of a plan still to run. -/
def Plan.undone (pl : Plan) (h : Heat) (st : Nat) : List Part :=
  pl.parts.filter fun p => !(h.at st).ran.contains p.no

/-- The first part of each lane. -/
def laneHeads : List Part → List Part
  | [] => []
  | p :: l => p :: (laneHeads l).filter fun q => q.lane != p.lane

/-- The parts that run beside a part. -/
def others (p : Part) (l : List Part) : List Part := l.filter fun q => q.no != p.no

/-- The part that runs now, if one may. -/
def Dev.pick (d : Dev) (h : Heat) (st : Nat) (pl : Plan) : Option Part :=
  let l := pl.undone h st
  (laneHeads l).find? fun p => d.partUp h st p && (d.blocks h st (others p l) p).isEmpty

/-! ### Reads (R139, R176, R190) -/

/-- The slots that a part's reads claim as they issue: DMA-in and the gather engine claim so (R139). -/
def Part.targets (p : Part) : List Nat := if p.wacc == accIn || p.wacc == accGather then p.slots else []

/-- The reads of a part are posted, one for each line of each group. -/
def Dev.askPart (h : Heat) (st : Nat) (d : Dev) (p : Part) : Dev :=
  let d := p.lines.foldl (fun d x => d.post (Req.forHeat h p.who [x.2] .read st x.1 p.targets)) d
  d.setHeat h.id fun y => y.upAt st fun g => { g with asked := g.asked ++ [p.no] }

/-- The reads of every part that has not asked yet (R190). -/
def Dev.ask (d : Dev) (h : Heat) (st : Nat) (pl : Plan) : Dev :=
  if d.streamsFor h then
    (pl.parts.filter fun p => !(h.at st).asked.contains p.no).foldl (Dev.askPart h st) d
  else d

/-! ### Tags and storing -/

/-- Slots claimed for a heat (R139). -/
def Dev.claimFor (d : Dev) (h : HeatId) (slots : List Nat) : Dev :=
  let mine := (d.heat h).map Heat.claims |>.getD []
  let new := slots.filter fun g => !mine.contains g
  (new.foldl Dev.claimSlot d).setHeat h fun x => { x with claims := x.claims ++ new }

/-- Slots become FULL with the heat's last write to them (R139). -/
def Dev.fillFor (d : Dev) (h : HeatId) (slots : List Nat) : Dev :=
  (slots.foldl Dev.fillSlot d).setHeat h fun x => { x with claims := x.claims.filter fun g => !slots.contains g }

/-- Another stage of the heat that has not ended reads a slot. -/
def Heat.readElse (h : Heat) (st g : Nat) : Bool :=
  (h.body.stages.mapIdx fun k s => (k, s)).any fun x =>
    x.1 != st && !(h.at x.1).ended && (slotsOf x.2.reads).contains g

/-- Slots read for the last time by a stage become EMPTY, but for those that another stage of the command
still reads (R140). -/
def Dev.consume (d : Dev) (id : HeatId) (st : Nat) (slots : List Nat) : Dev :=
  match d.heat id with
  | none => d
  | some h =>
    let kept := slots.filter (h.readElse st)
    ((slots.filter fun g => !kept.contains g).foldl Dev.emptySlot d).setHeat id fun x =>
      { x with leave := x.leave ++ kept.filter fun g => !x.leave.contains g }

/-- Writes cut at line boundaries, neighbours in one line joined. -/
def splitLines : Nat → Nat → List Byte → List (Nat × List Byte)
  | 0, _, _ => []
  | n + 1, a, data =>
    if data.isEmpty then []
    else
      let k := 128 - a % 128
      (a, data.take k) :: splitLines n (a + k) (data.drop k)

def joinWrites : List (Nat × List Byte) → List (Nat × List Byte)
  | [] => []
  | (a, x) :: l =>
    match joinWrites l with
    | (b, y) :: r => if a + x.length == b && a / 128 == b / 128 then (a, x ++ y) :: r else (a, x) :: (b, y) :: r
    | [] => [(a, x)]

def hbmWrites (ps : List Piece) : List (Nat × List Byte) :=
  joinWrites ((ps.map fun p => splitLines (p.2.1.length / 128 + 2) p.1 p.2.1).flatten)

/-- The lines that an atomic update works on. -/
def AtomOp.lines (a : AtomOp) : List Nat :=
  unitsOf 128 (match a with
    | .addF b _ | .addI b _ => [(b, 4)]
    | .amax b _ _ => [(b, 64)]
    | .entry r k _ _ _ _ | .entryF r k _ _ _ => [(r + 256 * k, 256), (r + 0x10000 + k, 1), (r + 0x10100, 12)])

/-- The address whose line an atomic update works on. -/
def AtomOp.addr (a : AtomOp) : Nat := ((a.range.map Prod.fst).headD 0)

/-- An atomic update of a pond, applied at once, with its saturation (R91). -/
def Wk.pondAtom (w : Wk) (id : HeatId) (a : AtomOp) : Wk :=
  (w.applyAtom a).ite (w.saturates a) fun w => w.upHeat id fun x => { x with sat := true }

/-- Results stored (R139, R148, R190, R194): pond pieces at once, HBM pieces and atomic updates as
requests of a part. A poisoned value bound for HBM ends the heat, and nothing is written. -/
def Wk.store (w : Wk) (id : HeatId) (who : Requester) (st no : Nat) (ps : List Piece) (atoms : List AtomOp)
    (bad : Bool) : Wk × Bool :=
  match w.dev.heat id with
  | none => (w, false)
  | some h =>
    let hbm := ps.filter fun p => decide (p.1 < pondBase)
    if bad || hbm.any fun p => p.2.2 then (w.up fun d => d.endHeat h, false)
    else
      let w := w.pondPieces (ps.filter fun p => decide (pondBase ≤ p.1))
      let w := Wk.each (atoms.filter fun a => decide (pondBase ≤ a.addr)) (fun w a => w.pondAtom id a) w
      (w.up fun d =>
        let d := (hbmWrites hbm).foldl
          (fun d x => d.post (Req.forHeat h who [x.1 / 128] (.write x.1 x.2) st no [])) d
        (atoms.filter fun a => decide (a.addr < pondBase)).foldl
          (fun d a => d.post (Req.forHeat h who a.lines (.atomic a) st no [])) d, true)

/-- A part has run: it is marked, and the lines of its groups are dropped. -/
def Heat.ranPart (x : Heat) (st : Nat) (p : Part) : Heat :=
  let x := x.upAt st fun g => { g with ran := g.ran ++ [p.no] }
  let keys := p.lines.map fun l => stageKey st l.1 l.2
  { x with staged := x.staged.filter fun y => !keys.contains y.1 }

/-- A part runs: poison among the pond words that it reads ends the heat (R148); else what it reads last
becomes EMPTY, what it writes is claimed, its work is done, and slots written for the last time become
FULL. -/
def Wk.partRun (w : Wk) (h : Heat) (st : Nat) (temps : List Nat) (rest : List Part) (p : Part) : Wk :=
  let v := w.view h.id st
  match firstPoison (v 0) (pondPlaces (p.reads.map Rd.pl).flatten) with
  | some a => w.up fun d => d.pondPoisonHeat h a
  | none =>
    let w := w.up fun d => (d.consume h.id st (p.frees rest)).claimFor h.id p.slots
    match p.run v w with
    | (w, false) => w
    | (w, true) =>
      let later := temps ++ (rest.map Part.slots).flatten
      (w.upHeat h.id fun x => x.ranPart st p).up fun d =>
        d.fillFor h.id (p.slots.filter fun g => !later.contains g)

/-! ### A stage -/

/-- A stage has ended: claims on what holds nothing go back, slots that no stage reads any more become
EMPTY (R140), and the heat's work is done with its last stage (R201). -/
def Dev.finish (d : Dev) (id : HeatId) (st : Nat) (temps : List Nat) : Dev :=
  match d.heat id with
  | none => d
  | some h =>
    let back := temps.filter h.claims.contains
    let h := h.upAt st fun g => { g with ended := true }
    let gone := h.leave.filter fun g => !h.readElse st g
    let d := gone.foldl Dev.emptySlot (back.foldl Dev.unclaimSlot d)
    d.setHeat id fun x =>
      { x.upAt st (fun g => { g with ended := true }) with
        claims := x.claims.filter fun g => !back.contains g
        leave := x.leave.filter fun g => !gone.contains g
        waits := x.waits.filter fun w => w.part / 2 ^ 40 != st
        done := (List.range (max 1 h.body.stages.length)).all fun k => (h.at k).ended }

/-- No part may run now: what the first parts of the lanes wait for is noted (R143), or the stage has
ended. -/
def Dev.rest (d : Dev) (h : Heat) (st : Nat) (pl : Plan) : Dev :=
  let l := pl.undone h st
  if pl.whole && l.isEmpty then d.finish h.id st pl.temps
  else
    let held := ((laneHeads l).filter fun p => p.ready && d.served h p.engines).map fun p => d.blocks h st (others p l) p
    d.setHeat h.id fun x => { x with
      waits := (x.waits.filter fun w => w.part / 2 ^ 40 != st || 2 ^ 32 ≤ w.part % 2 ^ 40) ++ held.flatten }

/-- A stage gets on as far as it can: `mk` plans what is left of it. -/
def Wk.go (mk : Wk → Heat → Plan) (id : HeatId) (st : Nat) : Nat → Wk → Wk
  | 0, w => w
  | n + 1, w =>
    match w.dev.heat id with
    | none => w
    | some h =>
      if !h.mayRun || (h.at st).ended then w
      else
        let pl := mk w h
        let w := w.up fun d => d.ask h st pl
        match w.dev.heat id with
        | none => w
        | some h =>
          match w.dev.pick h st pl with
          | some p => Wk.go mk id st n (w.partRun h st pl.temps (others p (pl.undone h st)) p)
          | none => w.up fun d => d.rest h st pl

/-- Steps that a plan may take. -/
def Wk.steps (w : Wk) (mk : Wk → Heat → Plan) (id : HeatId) : Nat :=
  match w.dev.heat id with
  | none => 0
  | some h => (mk w h).parts.length + 1

/-- A stage gets on: what it reads first, and then the rest of its work. -/
def Wk.stage (w : Wk) (mk : Wk → Heat → Plan) (id : HeatId) (st : Nat) : Wk :=
  let w := Wk.go mk id st (w.steps mk id) w
  Wk.go mk id st (w.steps mk id) w

/-- Run an action on a heat that may go on. -/
def Wk.withHeat (w : Wk) (id : HeatId) (f : Heat → Wk → Wk) : Wk :=
  match w.dev.heat id with
  | none => w
  | some h => if h.mayRun then f h w else w

/-- A read that keeps its slots FULL, and one that a KEEP bit decides (R140). -/
def Desc.rd (t : Desc) (grp acc : Nat) (keep : Bool) : Rd := ⟨grp, t.places, acc, !keep⟩

/-- The tensor scale of KIND 0x2 that a store divides by is read and kept (R93). -/
def Desc.storeScale (t : Desc) (grp acc : Nat) : List Rd :=
  if t.scaleKind == 2 then [⟨grp, [t.scaleSpan], acc, false⟩] else []

end Sys2Proof.Machine
end

