-- ==== Sys2Proof/Machine/Frames.lean ====
section
/-! DEFINITION. Relay frames and sums: the quantiser, the residue and the requantiser (R95 to R104),
the frame (R299), next hops (R304), transmission (R300), routes (R303, R306), reduction-buffer entries
(R307, R308), landing (R316, R319) and what a heat sends (R305, R309, R316 to R321). -/

namespace Sys2Proof.Machine

open Sys2Proof.Config

/-! ### Blocks (R95 to R103) -/

/-- The residue of a sum (R97). -/
def mod255 (n : Int) : Nat := (n % 255).toNat

def sumInt (l : List Int) : Int := l.foldl (· + ·) 0

/-- The flag byte with its parity bit (R96). -/
def withPar (f : Nat) : Nat :=
  let ones := ((List.range 7).filter fun i => bit f i).length
  f % 128 + 128 * (ones % 2)

/-- Values, residue and the flags CLIP and NONFINITE of a block. -/
structure Blk where
  vals    : List Int
  residue : Nat
  flags   : Nat
deriving DecidableEq, Repr

/-- The quantiser (R97): 64 FP32 values at exponent `e`. -/
def quantise (x : List W32) (e : Int) : Blk :=
  if x.any fNonFinite then ⟨x.map fun _ => 0, 0, 2⟩
  else
    let q := x.map fun v => ((fval v).scale (-e)).toIntEven
    let clip := q.any fun n => decide (127 < n) || decide (n < -127)
    let v := q.map fun n => max (-127) (min 127 n)
    ⟨v, mod255 (sumInt v), b2n clip⟩

/-- Round to nearest, ties to even, of an eighth. -/
def roundEighth (s : Int) : Int :=
  let q := s / 8
  let r := s % 8
  if r < 4 then q else if r > 4 then q + 1 else if q % 2 = 0 then q else q + 1

/-- The requantiser (R102); none where its check fails. -/
def requantise (b : Blk) : Option Blk :=
  let q := b.vals.map roundEighth
  let d := (b.vals.zip q).map fun x => x.1 - 8 * x.2
  if mod255 (8 * sumInt q + sumInt d) == b.residue then some ⟨q, mod255 (sumInt q), b.flags⟩ else none

/-- The bytes of a block on the wire: 66 B, or 130 B wide (R95, R103). -/
def Blk.bytes (wide : Bool) (b : Blk) : List Byte :=
  let n := if wide then 2 else 1
  (b.vals.map fun v => leBytes n (unsigned (8 * n) v)).flatten ++ leBytes 1 b.residue
    ++ leBytes 1 (withPar (b.flags % 4 + 4 * b2n wide))

def blkSize (wide : Bool) : Nat := if wide then 130 else 66

/-- Block `i` of a frame body; none where R95, R96 or R100 refuse it. -/
def parseBlk (wide : Bool) (body : List Byte) (i : Nat) : Option Blk :=
  let n := if wide then 2 else 1
  let o := blkSize wide * i
  let vals := (List.range 64).map fun j => signed (8 * n) (numAt body (o + n * j) n)
  let residue := numAt body (o + 64 * n) 1
  let fl := numAt body (o + 64 * n + 1) 1
  let ok := vals.all (fun v => if wide then decide (-1016 ≤ v ∧ v ≤ 1016) else v != -128)
    && residue != 0xFF && mod255 (sumInt vals) == residue
    && bits fl 6 3 == 0 && bit fl 2 == wide && withPar fl == fl
  if ok then some ⟨vals, residue, fl % 4⟩ else none

/-! ### Frames (R299) -/

/-- A data frame. -/
structure Frame where
  traffic : Nat
  fflags  : Nat
  nblk    : Nat
  src     : Nat
  dst     : Nat
  seq     : W32
  seg     : Nat
  blk     : Nat
  tag     : Nat
  hops    : Nat
  ncon    : Nat
  mb      : Nat
  e       : Nat
  amax    : W32
  addr    : Nat
  e2e     : Nat
  body    : List Byte
deriving DecidableEq, Repr

def Frame.zero : Frame := ⟨0, 0, 0, 0xFFFF, 0xFFFF, 0, 0, 0, 0, 0, 1, 0, 0, 0, 0, 0, []⟩

def Frame.wide (f : Frame) : Bool := bit f.fflags 0
def Frame.l2 (f : Frame) : Bool := bit f.fflags 1
def Frame.bf16 (f : Frame) : Bool := bit f.fflags 2
def Frame.retx (f : Frame) : Bool := bit f.fflags 3
/-- The body holds relay blocks rather than raw units. -/
def Frame.blocks (f : Frame) : Bool := f.traffic == 0 && !f.bf16
def Frame.exp (f : Frame) : Int := signed 8 f.e

/-- The body padded to 1,056 B. -/
def padBody (b : List Byte) : List Byte := b ++ List.replicate (1056 - b.length) 0

/-- A frame as its contents were formed: the body padded, with its end-to-end check. -/
def Frame.formed (f : Frame) (body : List Byte) : Frame :=
  let b := padBody body
  { f with body := b, e2e := (crc32c b).toNat }

/-- The 1,120 bytes of a frame, with a fresh LCRC. -/
def Frame.bytes (f : Frame) : List Byte :=
  let h := leBytes 1 1 ++ leBytes 1 f.traffic ++ leBytes 1 f.fflags ++ leBytes 1 f.nblk ++ leBytes 2 f.src
    ++ leBytes 2 f.dst ++ leBytes 4 f.seq.toNat ++ leBytes 4 f.seg ++ leBytes 2 f.blk ++ leBytes 1 f.tag
    ++ leBytes 1 f.hops ++ leBytes 2 f.ncon ++ leBytes 1 f.mb ++ leBytes 1 f.e ++ leBytes 4 f.amax.toNat
    ++ leBytes 6 f.addr ++ List.replicate 22 0 ++ leBytes 4 f.e2e
  h ++ leBytes 4 (crc32c (h ++ f.body)).toNat ++ f.body

/-- The frame that bytes hold. -/
def Frame.ofBytes (b : List Byte) : Frame :=
  { traffic := numAt b 1 1, fflags := numAt b 2 1, nblk := numAt b 3 1, src := numAt b 4 2, dst := numAt b 6 2
    seq := BitVec.ofNat 32 (numAt b 8 4), seg := numAt b 0xC 4, blk := numAt b 0x10 2, tag := numAt b 0x12 1
    hops := numAt b 0x13 1, ncon := numAt b 0x14 2, mb := numAt b 0x16 1, e := numAt b 0x17 1
    amax := BitVec.ofNat 32 (numAt b 0x18 4), addr := numAt b 0x1C 6, e2e := numAt b 0x38 4
    body := (b.drop 0x40).take 1056 }

/-- The link check of received bytes. -/
def lcrcOk (b : List Byte) : Bool :=
  b.length == 1120 && numAt b 0x3C 4 == (crc32c (b.take 0x3C ++ b.drop 0x40)).toNat

def Frame.e2eOk (f : Frame) : Bool := f.e2e == (crc32c f.body).toNat

/-- Unit `i` of a raw body. -/
def Frame.unit (f : Frame) (i : Nat) : List Byte := (f.body.drop (64 * i)).take 64

/-! ### Next hops (R304) -/

/-- A port carries traffic: UP and not disabled. -/
def Dev.portUp (d : Dev) (q : Nat) : Bool := (d.port q).state == .up && !(d.port q).disable

/-- The links of a position: port and peer. This module's own are the live ones. -/
def Dev.linksOf (d : Dev) (p : Nat) : List (Nat × Nat) :=
  let me := d.pos.getD 0xFFFF
  if p == me then
    (List.range 16).filterMap fun q => if d.portUp q then some (q, (d.port q).peerPos) else none
  else
    (List.range 16).filterMap fun q =>
      let e := d.live.peer p q
      if e.2.2 == 0 then none
      else if e.1 == me && !((List.range 16).any fun t => d.portUp t && (d.port t).peerPos == p) then none
      else some (q, e.1)

/-- Positions that forward traffic: runners that are MZ1 modules (R304, R317). -/
def Conf.transit (k : Conf) (p : Nat) : Bool := k.role p == 2 && k.kind p == 0

/-- Distances to a destination, layer by layer. -/
def Dev.spread (d : Dev) (dst : Nat) : Nat → Nat → List Nat → List (Nat × Nat) → List (Nat × Nat)
  | 0, _, _, seen => seen
  | n + 1, k, front, seen =>
    let pass := front.filter fun p => p == dst || d.live.transit p
    let next := (List.range d.live.modules).filter fun p =>
      !(seen.any fun x => x.1 == p) && (d.linksOf p).any fun l => pass.contains l.2
    if next.isEmpty then seen
    else d.spread dst n (k + 1) next (seen ++ next.map fun p => (p, k + 1))

/-- The egress port and next position from `p` toward `dst`: a shortest path, the lowest port. -/
def Dev.hop (d : Dev) (p dst : Nat) : Option (Nat × Nat) :=
  let t := d.spread dst d.live.modules 0 [dst] [(dst, 0)]
  let dist := fun q => if q == dst || d.live.transit q then (t.find? fun x => x.1 == q).map Prod.snd else none
  let best := (d.linksOf p).foldl (fun (r : Option (Nat × Nat × Nat)) l =>
    match dist l.2, r with
    | none, r => r
    | some k, none => some (k, l)
    | some k, some x => if k < x.1 then some (k, l) else some x) none
  best.map Prod.snd

/-- A module forwards toward `dst` what comes from `src`: it lies on the path. -/
def Dev.onPath (d : Dev) (me : Nat) : Nat → Nat → Nat → Bool
  | 0, _, _ => false
  | n + 1, p, dst =>
    if p == dst then false
    else match d.hop p dst with
      | none => false
      | some x => x.2 == me || d.onPath me n x.2 dst

/-! ### Transmission (R300) -/

/-- A frame leaves by a port and stays in the retransmission store. It takes the channel's next SEQ,
unless it goes another way because its link went down (R322). -/
def Dev.launch (d : Dev) (q : Nat) (s : Sent) (fresh : Bool) : Dev :=
  let p := d.port q
  let seq := if fresh then p.txSeq.getD s.channel 0 else s.seq
  let b := { Frame.ofBytes s.frame with seq := seq }.bytes
  let d := d.setPort q fun p => { p with
    txSeq := if fresh then p.txSeq.set s.channel (seq + 1) else p.txSeq
    store := p.store ++ [{ s with seq := seq, frame := b }] }
  d.emit (.data q s.channel b)

/-- A frame that is sent for the first time by this module, or again along a new path. -/
def Dev.transmit (d : Dev) (q : Nat) (s : Sent) : Dev := d.launch q s !(Frame.ofBytes s.frame).retx

/-- A route that a command of this module named, by TAG and traffic: the newest with the frame's micro-batch
tag, or else the newest (R299, R302, R307). -/
def Dev.routeFor (d : Dev) (tag traffic mb : Nat) : Option Route :=
  let l := (AMap.get [] d.rly.routes tag).filter fun r => r.traffic == traffic
  (l.find? fun r => r.mb == mb).or l.head?

/-- The ring place after a position, in the ring's direction (R320). -/
def Route.ringNext (r : Route) (p : Nat) : Option Nat :=
  let n := r.members.length
  if !r.members.contains p || n == 0 then none
  else
    let i := r.members.idxOf p
    r.members[(if r.ringCcw then i + n - 1 else i + 1) % n]?

/-- The position a frame goes to next: the next ring place, or its destination. -/
def Dev.target (d : Dev) (f : Frame) : Nat :=
  if f.traffic == 3 then
    ((d.routeFor f.tag 3 f.mb).bind fun r => r.ringNext (d.pos.getD 0xFFFF)).getD f.dst
  else f.dst

/-- A frame is sent along the next-hop table, or waits for a path. -/
def Dev.sendOut (d : Dev) (s : Sent) : Dev :=
  let f := Frame.ofBytes s.frame
  match d.hop (d.pos.getD 0xFFFF) (d.target f) with
  | some x => d.transmit x.1 s
  | none => { d with rly := { d.rly with unsent := d.rly.unsent ++ [s] } }

/-- The virtual channel of a frame on a link (R300): what the module at its near end has formed goes by
its traffic, and what that module only passes on goes on channel 2 (log entry 111). -/
def Frame.channel (f : Frame) (from_ : Nat) : Nat :=
  if f.src != from_ then 2
  else if f.traffic == 1 then 2
  else if f.traffic == 2 || f.traffic == 3 then 3
  else 1

/-- A frame is sent. One that goes another way because a link went down keeps its SEQ, by which a
duplicate is known (R322). -/
def Dev.sendFrame (d : Dev) (f : Frame) (heat : Option HeatId) : Dev :=
  d.sendOut ⟨f.channel (d.pos.getD 0xFFFF), f.seq, f.bytes, heat, (List.range f.nblk).map fun i => (i, 0)⟩

/-- The port of the next hop toward a starter that took over (R359). -/
def Dev.takeoverPort (d : Dev) : Option Nat :=
  d.dom.newStarter.bind fun t => (d.hop (d.pos.getD 0xFFFF) t).map Prod.fst

/-- The next-hop table has changed: frames that wait are tried again. -/
def Dev.reroute (d : Dev) : Dev :=
  let l := d.rly.unsent
  let d := { d with dom := { d.dom with upPort := d.takeoverPort } }
  l.foldl Dev.sendOut { d with rly := { d.rly with unsent := [] } }

/-- A frame marked as sent again. -/
def Frame.resent (f : Frame) : Frame := { f with fflags := setBits f.fflags 3 3 1 }

/-- One block of a frame, as it is sent again; the end-to-end check stays (R299, R300). -/
def Frame.only (f : Frame) (i : Nat) : Frame :=
  let n := blkSize f.wide
  { f with nblk := 1, blk := f.blk + i, body := padBody ((f.body.drop (n * i)).take n) }

/-- A stored frame as it is sent again after its link went down (R304). -/
def Sent.again (s : Sent) : Sent := { s with frame := (Frame.ofBytes s.frame).resent.bytes }

/-- A stored frame after a refusal (R313): each block not yet accepted by itself, or the whole frame of
raw units, which is refused whole (R300). -/
def Sent.split (s : Sent) : List Sent :=
  let f := Frame.ofBytes s.frame
  if f.blocks then s.blocks.map fun x => { s with frame := (f.only x.1).resent.bytes, blocks := [(0, x.2)] }
  else [s.again]

/-- Frames of a port that left UP are sent again along the new table (R304). -/
def Dev.resendStore (d : Dev) (q : Nat) : Dev :=
  let l := (d.port q).store.map Sent.again
  let d := d.setPort q fun p => { p with store := [] }
  { d with rly := { d.rly with unsent := d.rly.unsent ++ l } }.reroute

/-! ### Routes (R303, R306) -/

def Route.owner (r : Route) (g : Nat) : Nat := r.owners.getD ((g - r.segBase) / r.segPerOwner) 0xFFFF
def Route.record (r : Route) (g : Nat) : Nat := r.accBase + (g - r.segBase) % r.segPerOwner * 65856

/-- The members of a route that share a group with a position, in list order. -/
def Conf.groupIn (k : Conf) (r : Route) (p : Nat) : List Nat := r.members.filter fun m => k.sameGroup m p

/-- The gathering member of a group for a segment (R306). -/
def Conf.gatherer (k : Conf) (r : Route) (g p : Nat) : Nat :=
  let l := k.groupIn r p
  l.getD ((g - r.segBase) % max 1 l.length) 0xFFFF

/-- Distinct groups among the members. -/
def Conf.groupsOf (k : Conf) (r : Route) : Nat :=
  (nub (r.members.map fun m => (k.group m, if k.group m == 0xFF then m else 0)) []).length

/-- Contributions a sum expects (R306): level 1 or 2, at the module of position `p`. -/
def Conf.expects (k : Conf) (r : Route) (level p : Nat) : Nat :=
  if r.levels == 3 then (if level == 2 then k.groupsOf r else (k.groupIn r p).length) else r.members.length

/-- The reducing port (R303): the first in service from g mod 16 on. -/
def Dev.reducer (d : Dev) (g : Nat) : Nat :=
  (((List.range 16).map fun i => (g + i) % 16).find? fun q => (d.port q).state != .suspect && !(d.port q).disable).getD (g % 16)

/-- The exponent in force of a segment (R305, R311). -/
def Wk.exponent (w : Wk) (r : Route) (g : Nat) : Int :=
  signed 8 (w.num (r.expBase + b2n w.dev.rly.bank * r.nseg + (g - r.segBase)) 1)

/-! ### Port events -/

/-- A bit of `RLY_PORT_EVT` (R328). -/
def Dev.portEvt (d : Dev) (q n : Nat) : Dev :=
  (d.setPort q fun p => { p with evt := p.evt ||| BitVec.ofNat 8 (2 ^ n) }).latch (0x9014 + 0x40 * q) n |>.msix 775

/-- A residue-retry record (R313). -/
def Dev.retryRec (d : Dev) (q seg blk : Nat) : Dev :=
  (d.raise { Rec.of 0x0070 0 with unit := q, detail := leBytes 4 seg ++ leBytes 1 blk }).portEvt q 1

/-- REMAPPED shows whether some link is remapped (R352, R362). -/
def Dev.noteRemap (d : Dev) : Dev :=
  { d with dom := { d.dom with remapped := d.rly.ports.any fun p => p.2.remapped } }

/-- A port takes another state; when it leaves UP its frames are sent again elsewhere (R304). -/
def Dev.setPortState (d : Dev) (q : Nat) (st : PortState) : Dev :=
  let wasUp := (d.port q).state == .up
  let d := d.setPort q fun p => { p with state := st }
  if wasUp && st != .up then
    let d := d.setPort q fun p => { p with peerPos := 0xFFFF, remapped := false, lanesUp := 0, width := 0 }
    (d.noteRemap.portEvt q 3).resendStore q
  else if st == .up || st == .held then d.reroute
  else (d.setPort q fun p => { p with lanesUp := 0, width := 0 }).reroute

def Dev.setEntries (d : Dev) (l : List Entry) : Dev := { d with rly := { d.rly with entries := l } }

/-- The number whose residue mod 16 names a sum's port: its segment (R303), or the unit of its address (R321). -/
def Entry.place (e : Entry) : Nat := if e.level == 3 then e.addr / 64 else e.seg

/-- A port becomes SUSPECT (R314): its open entries move to the port that takes its summing role; the
second time raises the replacement request (R370). -/
def Dev.suspect (d : Dev) (q : Nat) : Dev :=
  if (d.port q).state == .suspect then d
  else
    let d := (d.setPortState q .suspect).setPort q fun p => { p with suspects := p.suspects + 1 }
    let es := d.rly.entries.map fun e => if e.port == q then { e with port := d.reducer e.place } else e
    let d := d.setEntries es
    let d : Dev := (d.raise { Rec.of 0x0071 1 with unit := q }).portEvt q 2
    if 2 ≤ (d.port q).suspects then d.replace 5 else d

/-- Failures of a sum's own check (R313): up to 3 are retried, a fourth makes the port SUSPECT. -/
def Dev.sumFaults (d : Dev) (n q seg blk : Nat) : Dev :=
  if n == 0 then d else if n ≤ 3 then d.retryRec q seg blk else (d.retryRec q seg blk).suspect q

/-! ### Landing (R308, R310, R316) -/

/-- Bytes landed at an address by a port: the requests posted for them, or none where the address does
not exist (R316). -/
def Wk.landAt (w : Wk) (q a : Nat) (data : List Byte) : Wk × Option (List Nat) :=
  if Machine.inHbm a data.length then
    let ws := splitLines (data.length / 128 + 2) a data
    let ids := (List.range ws.length).map fun i => w.dev.hbm.nextId + i
    (w.up fun d => ws.foldl (fun d x => d.post (Req.of (.port q) [x.1 / 128] (.write x.1 x.2))) d, some ids)
  else if Machine.inPond a data.length then (w.pondPut a data, some [])
  else
    (w.up fun d => d.raise { Rec.of 0x0075 1 with unit := q, addr := a }, none)

/-- A landing waits for its writes; its counter steps after them. -/
def Dev.addLanding (d : Dev) (tag count : Nat) (reqs : List Nat) : Dev :=
  { d with rly := { d.rly with landings := d.rly.landings ++ [⟨tag, count, reqs, false⟩] } }

/-- Bytes of a range that lie in an exponent table of a gradient route that this module knows (R311). -/
def Dev.scaleBytes (d : Dev) (a n : Nat) : Nat :=
  let tables := ((d.rly.routes.map Prod.snd).flatten.filter fun r => r.traffic == 0).map fun r => (r.expBase, 2 * r.nseg)
  count (fun i => tables.any fun t => decide (t.1 ≤ a + i) && decide (a + i < t.1 + t.2)) (List.range n)

/-- What raw units of a list landed brought: units, scale bytes, and the requests posted for them. -/
structure Landed where
  units  : Nat
  scales : Nat
  reqs   : List Nat
deriving DecidableEq, Repr

/-- Raw units landed (R316, R319): `deq` expands INT8 values to FP32 at exponent `e`. Each unit counts one on
TAG; in a parameter gather each byte landed in an exponent table counts one on the counter of the scale bytes
(R312, log entry 126). -/
def Wk.landUnits (w : Wk) (q tag addr : Nat) (units : List (List Byte)) (gather deq : Bool) (e : Int) : Wk :=
  let n := if deq then 256 else 64
  let one := fun (x : Wk × Landed) (i : Nat) =>
    let u := units.getD i []
    let data := if deq then
      (u.map fun b => leBytes 4 (fround (.scale e (Fmt.value .int8 b.toNat))).toNat).flatten else u
    match x.1.landAt q (addr + n * i) data with
    | (w, some ids) =>
      let k := if gather then w.dev.scaleBytes (addr + n * i) u.length else 0
      (w, ⟨x.2.units + 1, x.2.scales + k, x.2.reqs ++ ids⟩)
    | (w, none) => (w, x.2)
  let r := (List.range units.length).foldl one (w, ⟨0, 0, []⟩)
  let l := r.2
  r.1.up fun d =>
    let own := if l.scales != 0 && tag == d.rly.tag then 0 else l.units
    let d := if own == 0 then d else d.addLanding tag own l.reqs
    if l.scales == 0 then d else d.addLanding d.rly.tag l.scales l.reqs

/-! ### Reduction entries (R306 to R308, R321) -/

def Entry.is (x : Entry) (tag seg blk mb level addr : Nat) : Bool :=
  x.tag == tag && x.seg == seg && x.blk == blk && x.mb == mb && x.level == level && x.addr == addr

/-- The port of a sum and its key (R307, R321). -/
structure SumKey where
  port  : Nat
  tag   : Nat
  seg   : Nat
  blk   : Nat
  mb    : Nat
  level : Nat
  addr  : Nat
deriving DecidableEq, Repr

/-- Every sum of a list has an entry, or its port has free ones for all that have none (R295, R307). -/
def Dev.entryRoom (d : Dev) (l : List SumKey) : Bool :=
  let new := nub (l.filter fun k => !d.rly.entries.any fun x => x.is k.tag k.seg k.blk k.mb k.level k.addr) []
  new.all fun k => decide (count (fun x => x.port == k.port) d.rly.entries
    + count (fun x => x.port == k.port) new ≤ reductionEntries)

/-- One contribution to a gradient sum. -/
structure Contrib where
  seg  : Nat
  blk  : Nat
  mb   : Nat
  ncon : Nat
  b    : Blk
  amax : W32
  e    : Int
deriving DecidableEq, Repr

/-- A complete entry at its owner (R308): one atomic update, then the landing counter. -/
def Wk.accumulate (w : Wk) (r : Route) (x : Entry) : Wk :=
  let rec_ := r.record x.seg
  let op := if r.deq then
      AtomOp.entryF rec_ x.blk (x.vals.map fun v => fround (.scale x.e (.fin (decide (v < 0)) v.natAbs 0))) x.flags x.amax
    else .entry rec_ x.blk x.vals x.flags x.amax x.residue
  w.up fun d =>
    (d.post (Req.of (.port x.port) op.lines (.atomic op))).addLanding r.tag 1 [d.hbm.nextId]

/-- A contribution added to the entry of its sum; the entry where it is complete then. -/
def Dev.addEntry (d : Dev) (r : Route) (level : Nat) (c : Contrib) : Dev × Option Entry :=
  let q := d.reducer c.seg
  let old := (d.rly.entries.find? fun x => x.is r.tag c.seg c.blk c.mb level 0).getD
    ⟨q, r.tag, c.seg, c.blk, c.mb, level, 0, List.replicate 64 0, 0, 0, 0, c.e, 0, 0⟩
  let x := { old with
    ncon := old.ncon + c.ncon
    vals := (old.vals.zip c.b.vals).map fun y => y.1 + y.2
    residue := mod255 (old.residue + c.b.residue)
    flags := old.flags ||| c.b.flags
    amax := amaxFold old.amax c.amax }
  let others := d.rly.entries.filter fun y => !y.is r.tag c.seg c.blk c.mb level 0
  if d.live.expects r level (d.pos.getD 0xFFFF) ≤ x.ncon then (d.setEntries others, some x)
  else (d.setEntries (others ++ [x]), none)

/-- The owner's agreed exponent of a segment, as its blocks carry it (R308). -/
def Wk.agreed (w : Wk) (r : Route) (seg level : Nat) : Int :=
  signed 8 (w.num (r.record seg + 0x10100) 1) + (if level == 2 && !r.wide2 then 3 else 0)

/-- A contribution arrives at the owner: it is added, or dropped for its exponent (R308, R313). -/
def Wk.ownerArrive (w : Wk) (r : Route) (level : Nat) (c : Contrib) : Wk :=
  if c.e != w.agreed r c.seg level then
    w.up fun d =>
      let q := d.reducer c.seg
      let place := leBytes 4 c.seg ++ leBytes 1 c.blk ++ leBytes 1 (unsigned 8 c.e)
      (d.raise { Rec.of 0x0074 2 with unit := q, detail := place }).portEvt q 5
  else
    match w.dev.addEntry r level c with
    | (d, none) => { w with dev := d }
    | (d, some x) => { w with dev := d }.accumulate r x

/-- A complete level-1 sum at its gathering member goes on to the owner (R102, R103, R306). -/
def Wk.passUp (w : Wk) (r : Route) (x : Entry) : Wk :=
  let b : Blk := ⟨x.vals, x.residue, x.flags⟩
  match (if r.wide2 then some b else requantise b) with
  | none => w
  | some b =>
    let e := x.e + (if r.wide2 then 0 else 3)
    let c : Contrib := ⟨x.seg, x.blk, x.mb, 1, b, x.amax, e⟩
    let me := w.dev.pos.getD 0xFFFF
    let o := r.owner x.seg
    if o == me then w.ownerArrive r 2 c
    else
      let f := Frame.formed { Frame.zero with
        fflags := b2n r.wide2 + 2, nblk := 1, src := me, dst := o, seg := x.seg, blk := x.blk, tag := r.tag
        mb := x.mb, e := unsigned 8 e, amax := x.amax } (b.bytes r.wide2)
      w.up fun d => d.sendFrame f none

/-- A contribution arrives at the module that sums it (R307). -/
def Wk.arrive (w : Wk) (r : Route) (level : Nat) (c : Contrib) : Wk :=
  if c.seg < r.segBase || r.segBase + r.nseg ≤ c.seg || 256 ≤ c.blk then w
  else if r.levels == 3 && level == 1 then
    match w.dev.addEntry r 1 c with
    | (d, none) => { w with dev := d }
    | (d, some x) => { w with dev := d }.passUp r x
  else w.ownerArrive r level c

/-! ### Parity sums (R321) -/

/-- Multiplication by 2 in GF(2⁸) with the polynomial 0x11D. -/
def gfDouble (b : Byte) : Byte := if b.msb then (b <<< 1) ^^^ 0x1D else b <<< 1

def gfPow : Nat → Byte → Byte
  | 0, b => b
  | n + 1, b => gfPow n (gfDouble b)

/-- Data places and parity rows of a scheme (R387). -/
def schemeData (scheme : Nat) : Nat := if scheme == 2 then 14 else 8
def schemeRows (scheme : Nat) : Nat := if scheme == 0 then 1 else 2

/-- The parity group of a position: its number, scheme and members in list order (R63). -/
def Conf.groupOfPos (k : Conf) (p : Nat) : Option (Nat × Nat × List Nat) :=
  (List.range k.parityGroups).findSome? fun g =>
    let x := k.parityGroup g
    if x.2.contains p then some (g, x) else none

/-- The parity bank in force and the other one (R389). -/
def Dev.parityBanks (d : Dev) : Nat × Nat :=
  if d.sec.pbank then (d.sec.par1, d.sec.par0) else (d.sec.par0, d.sec.par1)

/-- A route of the securing engine with this module as its owner (R388, R396): the parity holder first,
then the data places of rotation `p`. -/
def secRouteOf (me : Nat) (l : List Nat) (k first p row : Nat) : Route :=
  ⟨4, 2, false, false, false, row, false, 255,
    first :: (List.range k).map fun j => l.getD ((p + j) % l.length) 0xFFFF,
    [me], 0, 0, 1, 0, 0, 0, 0, 0, 0⟩

/-- The bank of two that an address lies in, as the address from its start. -/
def inBank (banks : Nat × Nat) (size a : Nat) : Option Nat :=
  if banks.2 ≤ a ∧ a < banks.2 + size then some (a - banks.2)
  else if banks.1 ≤ a ∧ a < banks.1 + size then some (a - banks.1) else none

/-- The securing engine's route for a unit that lands at an address: a parity unit of a bank, the one that is not
in force first, or a unit of this module's image that is being rebuilt (R387, R388, R396). -/
def Wk.secRoute (w : Wk) (a : Nat) : Option Route :=
  let d := w.dev
  let me := d.pos.getD 0xFFFF
  match d.live.groupOfPos me with
  | none => none
  | some (_, scheme, l) =>
    let n := l.length
    let k := schemeData scheme
    let m := l.idxOf me
    let len := d.secLen
    match inBank d.parityBanks (schemeRows scheme * len / k) a with
    | some o =>
      let rounds := max 1 (d.sec.len / k)
      let t := o / 2 ^ 20 / rounds
      some (secRouteOf me l k me ((m + 2 * n - k - t) % n) t)
    | none =>
      let off := if d.sec.source then d.shardOffset w.mem a
        else if d.sec.snap ≤ a ∧ a < d.sec.snap + len then some (a - d.sec.snap) else none
      off.map fun o =>
        let p := (m + n - o / 2 ^ 20 % k) % n
        secRouteOf me l k (l.getD ((p + k) % n) 0xFFFF) p 0

/-- The route of a parity frame (R321, R388): landing counter 255 is the securing engine's. -/
def Wk.parityRoute (w : Wk) (f : Frame) : Option Route :=
  if f.tag == 255 then w.secRoute f.addr else w.dev.routeFor f.tag 4 f.mb

/-- A parity unit added to its sum; landed when NMEM units are in. The engine's owner adds its own unit
of zeros by itself (R388). -/
def Wk.parityArrive (w : Wk) (r : Route) (src mb addr : Nat) (u : List Byte) : Wk :=
  let i := r.members.idxOf src
  let x := if r.pmode == 1 then u.map (gfPow i) else u
  let d := w.dev
  let old := (d.rly.entries.find? fun e => e.is r.tag 0 0 mb 3 addr).getD
    ⟨d.reducer (addr / 64), r.tag, 0, 0, mb, 3, 0, List.replicate 64 0, 0, 0, 0, 0, addr, 0⟩
  let sum := (old.vals.zip x).map fun y => (((BitVec.ofInt 8 y.1) ^^^ y.2).toNat : Int)
  let others := d.rly.entries.filter fun e => !e.is r.tag 0 0 mb 3 addr
  let e := { old with vals := sum, ncon := old.ncon + 1 }
  if r.members.length ≤ e.ncon + (if r.tag == 255 then 1 else 0) then
    { w with dev := d.setEntries others }.landUnits old.port r.tag addr [e.vals.map fun v => BitVec.ofInt 8 v] false false 0
  else { w with dev := d.setEntries (others ++ [e]) }

/-! ### Frames at their destination -/

/-- BF16 units as values (R318): two units a block. -/
def bf16Vals (u : List Byte) : List W32 :=
  (List.range 64).map fun j => BitVec.ofNat 32 (numAt u (2 * j) 2 * 65536)

/-- Largest finite magnitude of the blocks without NONFINITE (R309). -/
def blocksAmax (l : List (List W32 × Blk)) : W32 :=
  (amaxOf ((l.filter fun x => !bit x.2.flags 1).map Prod.fst).flatten).1

/-- The contributions of a gradient frame: the blocks named in `take`, those of BF16 units quantised
at the owner's exponent (R318). -/
def Wk.contribs (w : Wk) (r : Route) (f : Frame) (take : List Nat) : List Contrib :=
  if f.bf16 then
    (List.range (f.nblk / 2)).map fun i =>
      let x := bf16Vals (f.unit (2 * i) ++ f.unit (2 * i + 1))
      let e := w.agreed r f.seg 1
      let b := quantise x e
      ⟨f.seg, f.blk + i, f.mb, f.ncon, b, blocksAmax [(x, b)], e⟩
  else
    take.filterMap fun i => (parseBlk f.wide f.body i).map fun b =>
      ⟨f.seg, f.blk + i, f.mb, f.ncon, b, f.amax, f.exp⟩

/-- Whether a frame for this module can be taken now: its route is known and every sum it adds to has
an entry (R307). -/
def Wk.admits (w : Wk) (f : Frame) (take : List Nat) : Bool :=
  let d := w.dev
  if f.traffic == 0 then
    match d.routeFor f.tag 0 f.mb with
    | none => false
    | some r => d.entryRoom ((w.contribs r f take).map fun c =>
        ⟨d.reducer c.seg, r.tag, c.seg, c.blk, c.mb, if f.l2 then 2 else 1, 0⟩)
  else if f.traffic == 4 then
    (w.parityRoute f).isSome && d.entryRoom ((List.range f.nblk).map fun i =>
      ⟨d.reducer ((f.addr + 64 * i) / 64), f.tag, 0, 0, f.mb, 3, f.addr + 64 * i⟩)
  else true

/-- A frame for this module is summed or landed. -/
def Wk.consumeFrame (w : Wk) (q : Nat) (f : Frame) (take : List Nat) : Wk :=
  if f.traffic == 0 then
    match w.dev.routeFor f.tag 0 f.mb with
    | none => w
    | some r => Wk.each (w.contribs r f take) (fun w c => w.arrive r (if f.l2 then 2 else 1) c) w
  else if f.traffic == 4 then
    match w.parityRoute f with
    | none => w
    | some r => Wk.each (List.range f.nblk) (fun w i => w.parityArrive r f.src f.mb (f.addr + 64 * i) (f.unit i)) w
  else
    let deq := f.traffic == 2 && ((w.dev.routeFor f.tag 2 f.mb).map Route.deq).getD false
    w.landUnits q f.tag f.addr ((List.range f.nblk).map f.unit) (f.traffic == 1) deq f.exp

/-- A frame formed here for a sum or a landing here: taken, or kept until it can be. -/
def Wk.takeLocal (w : Wk) (f : Frame) : Wk :=
  let all := List.range f.nblk
  if w.admits f all then w.consumeFrame 0xFF f all
  else w.up fun d => { d with rly := { d.rly with blocked := d.rly.blocked ++ [(0xFF, f.bytes)] } }

/-! ### What heats send (R305, R309, R316 to R321) -/

/-- A list cut into runs of `n`. -/
def chunks {α : Type} (n : Nat) : Nat → List α → List (List α)
  | 0, _ => []
  | k + 1, l => if l.isEmpty then [] else l.take n :: chunks n k (l.drop n)

/-- Where a contribution to a segment goes (R306): its gathering member, or its owner. -/
def Dev.segTarget (d : Dev) (r : Route) (seg : Nat) : Nat :=
  if r.levels == 3 then d.live.gatherer r seg (d.pos.getD 0xFFFF) else r.owner seg

/-- One gradient segment is sent (R305): up to 256 blocks, sixteen to a frame. -/
def Wk.sendSegment (w : Wk) (id : HeatId) (r : Route) (seg : Nat) (vals : List W32) : Wk :=
  let e := w.exponent r seg
  let me := w.dev.pos.getD 0xFFFF
  let dst := w.dev.segTarget r seg
  let bs := (chunks 64 (vals.length / 64 + 1) vals).map fun x => (x, quantise x e)
  let fs := (chunks 16 (bs.length / 16 + 1) bs).mapIdx fun i l =>
    Frame.formed { Frame.zero with
      nblk := l.length, src := me, dst := dst, seg := seg, blk := 16 * i, tag := r.tag, mb := r.mb
      e := unsigned 8 e, amax := blocksAmax l } (l.map fun x => x.2.bytes false).flatten
  let clip := bs.any fun x => bit x.2.flags 0
  let nf := bs.any fun x => bit x.2.flags 1
  let w := w.upHeat id fun h => { h with
    clip := h.clip || clip
    nonfinite := h.nonfinite || nf }
  Wk.each fs (fun w f => if dst == me then w.takeLocal f else w.up fun d => d.sendFrame f (some id)) w

/-- Values sent in consecutive segments (R305). -/
def Wk.sendValues (w : Wk) (id : HeatId) (r : Route) (seg : Nat) (vals : List W32) : Wk :=
  let l := chunks 16384 (vals.length / 16384 + 1) vals
  Wk.each (List.range l.length) (fun w k => w.sendSegment id r (seg + k) (l.getD k [])) w

/-- The raw units of bytes, the last padded with zeros. -/
def rawUnits (data : List Byte) : List (List Byte) :=
  (chunks 64 (data.length / 64 + 1) data).map fun u => u ++ List.replicate (64 - u.length) 0

/-- Frames of raw units, sixteen to a frame; `step` is the distance of landing addresses. -/
def rawFrames (base : Frame) (addr step : Nat) (data : List Byte) : List Frame :=
  (chunks 16 (data.length / 1024 + 1) (rawUnits data)).mapIdx fun i l =>
    { base with nblk := l.length, addr := addr + 16 * step * i }.formed l.flatten

/-- Raw units are sent (R316, R319 to R321). -/
def Wk.sendRaw (w : Wk) (id : HeatId) (r : Route) (data : List Byte) : Wk :=
  let me := w.dev.pos.getD 0xFFFF
  let i := r.members.idxOf me
  let deq := r.traffic == 2 && r.deq
  let e := if deq then w.exponent r r.segBase else 0
  let base := { Frame.zero with traffic := r.traffic, src := me, tag := r.tag, mb := r.mb, e := unsigned 8 e }
  let land := r.accBase + i * r.landStride
  let step := if deq then 256 else 64
  let out := fun (w : Wk) (l : List Frame) => Wk.each l (fun w f => w.up fun d => d.sendFrame f (some id)) w
  if r.traffic == 3 then
    let n := r.members.length
    match r.ringNext me with
    | none => w
    | some _ =>
      let last := r.members.getD ((if r.ringCcw then i + 1 else i + n - 1) % n) me
      if n ≤ 1 then w
      else out w (rawFrames { base with dst := last, hops := n - 1, seg := r.chunkPos } land 64 data)
  else if r.traffic == 4 then
    let o := r.owners.headD 0xFFFF
    let fs := rawFrames { base with dst := o } r.accBase 64 data
    if o == me then Wk.each fs Wk.takeLocal w else out w fs
  else
    let w := if r.members.contains me then
      Wk.each (rawFrames { base with dst := me } land step data) Wk.takeLocal w else w
    -- one copy for each distinct egress port, addressed to the first recipient behind it
    let firsts := (r.members.filter fun m => m != me).foldl (fun (l : List (Option Nat × Nat)) m =>
      let q := (w.dev.hop me m).map Prod.fst
      if q.isSome && l.any (fun x => x.1 == q) then l else l ++ [(q, m)]) []
    Wk.each firsts (fun w x => out w (rawFrames { base with dst := x.2 } land step data)) w

/-- The bytes a raw send carries: the source's elements in iteration order, then its MX scale bytes
(R316) except for an activation exchange (R319). -/
def Desc.rawBytes (t : Desc) (v : View) (traffic : Nat) : List Byte × Bool :=
  let codes := (List.range t.size).map fun p => t.code v (unravel t.ext p)
  let body := if t.fmt.subByte then
      ((chunks 32 (codes.length / 32 + 1) codes).map fun l => packCodes t.fmt (l.map Prod.fst)).flatten
    else (codes.map fun c => leBytes (t.fmt.bits / 8) c.1).flatten
  let sp := if t.fmt.isMx && traffic != 2 then t.scaleSpan else (0, 0)
  let sc := (List.range sp.2).map fun i => v (sp.1 + i)
  (body ++ sc.map Prod.fst, codes.any Prod.snd || sc.any Prod.snd)

end Sys2Proof.Machine
end

