-- ==== Sys2Proof/Machine/Transfer.lean ====
section
/-! DEFINITION. The memory family: move, fill, release, copy, gather and scatter (R145, R146, R157 to
R174, R211 to R213). -/

namespace Sys2Proof.Machine

open Sys2Proof.Config

/-! ### Tile maps read at run time (R172, R174) -/

/-- The place of a tensor's tile map; none where it is not compressed. -/
def Desc.mapPlace (t : Desc) : List (Nat × Nat) := if t.tileMap == 0 then [] else [(t.tileMap, 8 * t.tiles)]

/-- The part of a destination's tile map that is fetched; the OFFSETs of one in a pond are read as they
stand, since its slots are EMPTY until the entries are written (R139, R172). -/
def Desc.mapFetch (t : Desc) : List (Nat × Nat) := t.mapPlace.filter fun p => decide (p.1 < pondBase)

/-- The tile-map entries of a tensor, with their poison. -/
def Desc.mapWords (t : Desc) (v : View) : List (Nat × Bool) :=
  if t.tileMap == 0 then [] else (List.range t.tiles).map fun n => v.num (t.tileMap + 8 * n) 8

/-- A view with the tile-map entries of a tensor as read before. -/
def Desc.knowing (t : Desc) (v : View) (ws : List (Nat × Bool)) : View :=
  if t.tileMap == 0 then v else v.known t.tileMap 8 (ws.take t.tiles)

/-- What a stage reads first (part 0): words that it keeps. -/
def wordsPart (who : Requester) (reads : List Rd) (wacc : Nat) (id : HeatId) (st : Nat)
    (f : View → Wk → Except (Wk → Wk) (List (Nat × Bool))) : Part :=
  { no := 0, who := who, lane := 0, engines := [], reads := reads, full := [], writes := [], slots := []
    wacc := wacc, ready := true
    run := fun v w => match f (v 0) w with
      | .error g => (g w, false)
      | .ok ws => (w.upHeat id fun x => x.upAt st fun g => { g with words := ws, begun := true }, true) }

/-! ### Storing tiles (R174) -/

/-- Writes of an earlier part are still to be acknowledged. -/
def Dev.unacked (d : Dev) (h : Heat) (st no : Nat) : Bool :=
  d.hbm.reqs.any fun r => r.isOf h && !r.kind.isRead && r.stage == st && r.grp == no

/-- Pieces and the data of tiles are stored; the entries of the tiles are kept with the words that the stage
has read first, for a later part to store. -/
def Wk.storeTiles (w : Wk) (h : Heat) (who : Requester) (st no : Nat) (ps : List Piece) (q : List (Piece × Piece))
    (fold : List AtomOp) : Wk × Bool :=
  match w.store h.id who st no (ps ++ q.map Prod.fst) fold false with
  | (w, ok) => (w.upHeat h.id fun y => y.upAt st fun g =>
      { g with words := g.words ++ q.map fun z => (leNat z.2.2.1, z.2.2.2) }, ok)

/-- The entries of tiles follow once the writes of part `after`, which holds their data, are acknowledged:
they stand among the words `ws` from number `first` on. -/
def tileEntries (w : Wk) (h : Heat) (who : Requester) (st acc : Nat) (o : Desc) (ws : List (Nat × Bool))
    (no first : Nat) (tiles : List Nat) (after : Nat) : Part :=
  let pl := tiles.map fun n => (o.tileMap + 8 * n, 8)
  { no := no, who := who, lane := 0, engines := [], reads := [], full := [], writes := pl, slots := pondSlots pl
    wacc := acc, ready := !w.dev.unacked h st after
    run := fun _ w => w.store h.id who st no (tiles.mapIdx fun i n =>
      let e := ws.getD (first + i) (0, false)
      (o.tileMap + 8 * n, leBytes 8 e.1, e.2)) [] false }

/-! ### Staging units (R157, R161) -/

/-- The staging unit of an element: 128 by 128 elements over dimensions 0 and 1, whole MX blocks, and
all of a dimension along which the source is a broadcast (R157). -/
def unitKey (s d : Desc) (idx : List Nat) : List Nat :=
  idx.mapIdx fun k i =>
    if s.st k == 0 && decide (1 < s.e k) then 0
    else if k < 2 then i / 128
    else if d.fmt.isMx && k == d.blockDim then i / 32 else i

/-- Every element of a tensor, in iteration order. -/
def Desc.elems (t : Desc) : List (List Nat) := (List.range t.size).map (unravel t.ext)

/-- Elements grouped by a key, groups and elements in order of first touch. -/
def groupBy (key : List Nat → List Nat) (l : List (List Nat)) : List (List (List Nat)) :=
  (nub (l.map key) []).map fun k => l.filter fun i => key i == k

/-- The elements of a destination that are stored together: an MX block, or one element. -/
def Desc.atomsOf (d : Desc) (es : List (List Nat)) : List (List (List Nat)) :=
  if d.fmt.isMx then (d.blocksOf es).map (blockElems d.ext d.blockDim) else es.map fun i => [i]

/-- Elements cut into pieces whose source lines fit the 32 KiB staging buffer (R161). -/
def cutLines (pl : List Nat → List (Nat × Nat)) :
    List (List (List Nat)) → List (List Nat) → List Nat → List (List (List Nat))
  | [], cur, _ => if cur.isEmpty then [] else [cur]
  | a :: l, cur, lines =>
    let more := nub (lines ++ hbmLines (a.map pl).flatten) []
    if more.length ≤ 256 ∨ cur.isEmpty then cutLines pl l (cur ++ a) more
    else cur :: cutLines pl l a (hbmLines (a.map pl).flatten)

/-- The places that a load of one element touches: its bytes and its MX scale byte, or the storage of
its tile (R173, R174). -/
def Desc.loadPlaces (t : Desc) (v : View) (idx : List Nat) : List (Nat × Nat) :=
  if t.tileMap != 0 then [t.tileRange v (t.tileOf idx).1]
  else
    let s := t.scalePlace idx
    t.place (t.offset idx) :: (if s.2 == 0 then [] else [s])

/-! ### Move (R159 to R164, R211) -/

/-- A move with what it has read first: the heat, its stage, and the tile-map entries of both tensors. -/
structure MoveCtx where
  h  : Heat
  st : Nat
  s  : Desc
  d  : Desc
  keep : Bool
  ws : List (Nat × Bool)

def MoveCtx.who (x : MoveCtx) : Requester := .dma x.h.id.cluster.val

/-- A view with both tile maps. -/
def MoveCtx.see (x : MoveCtx) (v : View) : View :=
  x.d.knowing (x.s.knowing v x.ws) (x.ws.drop (if x.s.tileMap == 0 then 0 else x.s.tiles))

/-- The fetch groups of a move, each with the elements it serves. -/
def MoveCtx.groups (x : MoveCtx) (mem : Mem) : List (List (List Nat)) :=
  ((groupBy (unitKey x.s x.d) x.d.elems).map fun u =>
    cutLines (x.s.loadPlaces (x.see mem.view)) (x.d.atomsOf u) [] []).flatten

/-- What a group reads: the lines of its elements, each once (R161). -/
def MoveCtx.rd (x : MoveCtx) (mem : Mem) (grp : Nat) (es : List (List Nat)) : Rd :=
  ⟨grp, nub (es.map (x.s.loadPlaces (x.see mem.view))).flatten [], accOut, !x.keep⟩

/-- What an element of the source gives, as its group sees it. -/
def MoveCtx.datum (x : MoveCtx) (v : View) (idx : List Nat) : Datum × Bool := x.s.datum x.d (x.see v) idx

/-- The part of a move that stores the elements of one group. -/
def MoveCtx.part (x : MoveCtx) (mem : Mem) (k : Nat) (es : List (List Nat)) : Part :=
  let pl := (es.map x.d.writePlaces).flatten
  { no := k + 1, who := x.who, lane := 0, engines := [], full := []
    reads := x.rd mem (k + 1) es :: x.d.storeScale (k + 1) accIn
    writes := pl, slots := pondSlots pl, wacc := accIn, ready := true
    run := fun v w =>
      let u := x.see (v (k + 1))
      let ps :=
        if mxSame x.s x.d then mxCopy x.s x.d (fun _ => u) (x.d.blocksOf es) x.d.stands id
        else x.d.piecesOn u x.h.ovf es x.d.stands (x.datum u)
      w.store x.h.id x.who x.st (k + 1) ps (x.d.foldOf (es.map (x.datum u))) false }

/-- The part of a move that adds to its destination (R164): every element in iteration order, each as
its group sees it. -/
def MoveCtx.addPart (x : MoveCtx) (mem : Mem) (gs : List (List (List Nat))) : Part :=
  { no := 1, who := x.who, lane := 0, engines := [], full := []
    reads := gs.mapIdx fun k es => x.rd mem (k + 1) es
    writes := [], slots := [], wacc := accIn, ready := true
    run := fun v w =>
      let grp := fun i => (gs.findIdx fun es => es.contains i) + 1
      let ws := x.d.elems.map fun i => (i, x.datum (v (grp i)) i)
      w.store x.h.id x.who x.st 1 [] (x.d.accAtoms ws ++ x.d.foldOf (ws.map Prod.snd)) (ws.any fun y => y.2.2) }

/-- The two parts of a move that store tile `n` of a compressed destination (R174): the data, fetched in
as many groups as the staging buffer needs, and the entry once the data is written. -/
def MoveCtx.tileParts (x : MoveCtx) (w : Wk) (n : Nat) (base : Nat) (gs : List (List (List Nat))) : List Part :=
  let mk := fun (no : Nat) (reads : List Rd) (writes : List (Nat × Nat)) (ready : Bool) run =>
    { no := no, who := x.who, lane := 0, engines := [], full := [], reads := reads, writes := writes
      slots := pondSlots writes, wacc := accIn, ready := ready, run := run : Part }
  let grp := fun i => base + gs.findIdx fun es => es.contains i
  let entry := fun (v : Nat → View) =>
    x.d.tileStore (x.see (v base)) x.h.ovf n fun i => x.datum (v (grp i)) i
  [mk base (gs.mapIdx fun k es => x.rd w.mem (base + k) es) [] true fun v w =>
      w.storeTiles x.h x.who x.st base [] [entry v] [],
   tileEntries w x.h x.who x.st accIn x.d x.ws (base + gs.length)
     ((if x.s.tileMap == 0 then 0 else x.s.tiles) + x.d.tiles + n) [n] base]

/-- The tiles of a destination with their groups, and the number of each one's first part. -/
def MoveCtx.tiled (x : MoveCtx) (w : Wk) : Nat → Nat → List Part
  | 0, _ => []
  | k + 1, base =>
    let n := x.d.tiles - (k + 1)
    let gs := cutLines (x.s.loadPlaces (x.see w.mem.view)) ((x.d.tileElems n).map fun i => [i]) [] []
    x.tileParts w n base gs ++ x.tiled w k (base + gs.length + 1)

/-- A tile's region of the move that feeds compressed mode (R273): its place in the pond. -/
def MoveCtx.region (x : MoveCtx) (n : Nat) : Nat × Nat :=
  ((x.d.place (x.d.offset ((x.s.tileElems n).headD []))).1, 16384 * x.d.unit)

/-- The part that feeds the region of tile `n`: the storage as it is where the sparse engine reads it,
else the dense form (R273). Every slot of the region becomes FULL. -/
def MoveCtx.feedPart (x : MoveCtx) (mem : Mem) (thin : Bool) (n : Nat) : Part :=
  let r := x.s.tileRange (x.see mem.view) n
  { no := n + 1, who := x.who, lane := 0, engines := [], full := []
    reads := [⟨n + 1, [r], accOut, !x.keep⟩], writes := [x.region n], slots := pondSlots [x.region n]
    wacc := accIn, ready := true
    run := fun v w =>
      let u := x.see (v (n + 1))
      let ps :=
        if thin && (x.s.tileEntry u n).2.1 then
          (List.range (r.2 / 8)).map fun k =>
            let b := (List.range 8).map fun j => u (r.1 + 8 * k + j)
            ((x.region n).1 + 8 * k, b.map Prod.fst, b.any Prod.snd || x.s.entryBad u n)
        else (x.s.tileElems n).map fun i => x.d.piece u x.h.ovf i (x.datum u i)
      w.store x.h.id x.who x.st (n + 1) ps [] false }

/-- The matrix stage that a move feeds in compressed mode (R273). -/
def feedOf (l : List Stage) (d : Desc) : Option MatBody :=
  l.findSome? fun
    | .matrix m => if m.sparse && m.pred.isNone && m.feed == some d then some m else none
    | _ => none

/-- Tile `n` goes to a unit of the sparse engine (R274): all units that read it route together. -/
def MatBody.feedsSparse (m : MatBody) (thresh n : Nat) : Bool :=
  match (List.range m.unitCount).find? fun t => (m.tilesOf t).contains n with
  | some t => m.engineOf thresh [] t == 1
  | none => false

/-- The first part of a move: the tile maps it needs. -/
def MoveCtx.mapsPart (x : MoveCtx) : Part :=
  wordsPart x.who [⟨0, x.s.mapPlace ++ x.d.mapFetch, accOut, false⟩] accIn x.h.id x.st fun v _ =>
    .ok (x.s.mapWords v ++ x.d.mapWords v)

/-- What is left of a move: `later` are the stages that follow it in its chain. The entries of a map
that feeds compressed mode were read at decode (R274). -/
def movePlan (st : Nat) (s d : Desc) (keep : Bool) (later : List Stage) (w : Wk) (h : Heat) : Plan :=
  match feedOf later d with
  | some m =>
    let x : MoveCtx := ⟨h, st, s, d, keep, m.tiles.map fun e => (e, false)⟩
    ⟨(List.range s.tiles).map fun n => x.feedPart w.mem (m.feedsSparse h.thresh n) n, true, []⟩
  | none =>
    let x : MoveCtx := ⟨h, st, s, d, keep, (h.at st).words⟩
    if !(h.at st).begun && (s.tileMap != 0 || d.tileMap != 0) then ⟨[x.mapsPart], false, []⟩
    else if d.tileMap != 0 then ⟨x.tiled w d.tiles 1, true, []⟩
    else
      let gs := x.groups w.mem
      if d.wmode == 2 then ⟨[x.addPart w.mem gs], true, []⟩
      else ⟨gs.mapIdx fun k es => x.part w.mem k es, true, []⟩

/-- MOVE (R211). -/
def execMove (h : HeatId) (s : State) : Host.Outcome State Fault Refusal :=
  done s fun w => w.withHeat h fun x w =>
    match x.body with
    | .stage (.move a b k) => w.stage (movePlan 0 a b k []) h 0
    | _ => w

/-! ### Fill, release and copy (R145, R146, R212) -/

/-- The 2 KiB that FILL writes into a slot: one element repeated, or an 8 B pattern. -/
def fillBytes (cfmt : Nat) (value : W64) : List Byte :=
  let n := match Fmt.ofCode cfmt with
    | some f => if cfmt == 0xF then 8 else max 1 (f.bits / 8)
    | none => if cfmt == 0xB then 2 else if cfmt == 0xC then 1 else 8
  (List.replicate (slotBytes / n) (leBytes n value.toNat)).flatten

/-- A slot of the issuing cluster. -/
def Heat.slot (h : Heat) (k : Nat) : Nat := h.id.cluster.val * slotsPerCluster + k

/-- The part of a fill that writes its `k`th slot. -/
def fillPart (h : Heat) (data : List Byte) (g k : Nat) : Part :=
  { no := k, who := .dma h.id.cluster.val, lane := 0, engines := [], reads := [], full := []
    writes := [(slotAddr g, slotBytes)], slots := [g], wacc := accIn, ready := true
    run := fun _ w => (w.pondPut (slotAddr g) data, true) }

/-- What is left of a fill: its slots in order, each claimed, written and left FULL (R145). -/
def fillPlan (cfmt first count : Nat) (v : W64) (_ : Wk) (h : Heat) : Plan :=
  ⟨(List.range count).map fun k => fillPart h (fillBytes cfmt v) (h.slot (first + k)) k, true, []⟩

/-- FILL (R145). -/
def execFill (h : HeatId) (s : State) : Host.Outcome State Fault Refusal :=
  done s fun w => w.withHeat h fun x w =>
    match x.body with
    | .fill f a n v => w.stage (fillPlan f a n v) h 0
    | _ => w

/-- A release begins (R145): slots that are FULL become EMPTY, and it waits for those that are claimed. -/
def Dev.releaseAll (d : Dev) (h : Heat) (slots : List Nat) : Dev :=
  let held := slots.filter d.isClaimed
  ((slots.filter fun g => !d.isClaimed g).foldl Dev.emptySlot d).setHeat h.id fun x =>
    x.upAt 0 fun p => { p with begun := true, held := held }

/-- A release goes on: slots filled since leave (R141), and those still claimed hold it up (R143). -/
def Dev.releaseOn (d : Dev) (h : Heat) : Dev :=
  let p := h.at 0
  let out := p.going.filter d.left
  let d := (out.foldl Dev.emptySlot d).setHeat h.id fun x => { x with
    prog := (x.upAt 0 fun p => { p with going := p.going.filter fun g => !out.contains g }).prog
    waits := p.held.map fun g => ⟨0, g, true, accIn⟩ }
  if p.held.isEmpty && out.length == p.going.length then d.finish h.id 0 [] else d

/-- A release that may go on. -/
def Wk.releaseStep (w : Wk) (x : Heat) (a n : Nat) : Wk :=
  let w := if (x.at 0).begun then w
    else w.up fun d => d.releaseAll x ((List.range n).map fun k => x.slot (a + k))
  w.up fun d => match d.heat x.id with
    | some y => d.releaseOn y
    | none => d

/-- RELEASE (R145). -/
def execRelease (h : HeatId) (s : State) : Host.Outcome State Fault Refusal :=
  done s fun w => w.withHeat h fun x w =>
    match x.body with
    | .release a n => w.releaseStep x a n
    | _ => w

/-- The part of a copy that copies its `k`th slot, `a` to `b`: DMA-out reads and DMA-in writes (R146). -/
def copyPart (h : Heat) (keep : Bool) (a b k : Nat) : Part :=
  { no := k, who := .dma h.id.cluster.val, lane := 0, engines := []
    reads := [⟨0, [(slotAddr a, slotBytes)], accOut, !keep⟩], full := []
    writes := [(slotAddr b, slotBytes)], slots := [b], wacc := accIn, ready := true
    run := fun v w => (w.pondPut (slotAddr b) ((List.range slotBytes).map fun i => (v 0 (slotAddr a + i)).1), true) }

/-- What is left of a copy: its slots in order (R146). -/
def copyPlan (src dst count : Nat) (keep : Bool) (_ : Wk) (h : Heat) : Plan :=
  ⟨(List.range count).map fun k => copyPart h keep (h.slot (src + k)) (h.slot (dst + k)) k, true, []⟩

/-- COPY (R146). -/
def execCopy (h : HeatId) (s : State) : Host.Outcome State Fault Refusal :=
  done s fun w => w.withHeat h fun x w =>
    match x.body with
    | .copy a b n keep => w.stage (copyPlan a b n keep) h 0
    | _ => w

/-! ### Gather and scatter (R165 to R170, R213) -/

/-- The row an index names under a policy (R166): a row, no row (ZERO), or a fault. -/
def mapIndex (policy n : Nat) (i : Int) : Except Unit (Option Nat) :=
  if 0 ≤ i ∧ i < (n : Int) then .ok (some i.toNat)
  else match policy with
    | 0 => .error ()
    | 1 => .ok (some (if i < 0 then 0 else n - 1))
    | 2 => .ok (some (i % (n : Int)).toNat)
    | _ => .ok none

/-- The first index out of range under FAULT (R167): its source index and value. -/
def badIndex (t : Desc) (l : List (Int × Bool)) : Option (Nat × Int) :=
  (List.range l.length).findSome? fun j =>
    let x := l.getD j (0, false)
    match mapIndex t.ipolicy (t.e t.gdim) x.1 with
    | .error _ => if x.2 then none else some (j, x.1)
    | .ok _ => none

/-- The rows of a list of indices; a poisoned index names no row. -/
def rowsOf (t : Desc) (l : List (Int × Bool)) : List (Option Nat) :=
  l.map fun x =>
    if x.2 then none
    else match mapIndex t.ipolicy (t.e t.gdim) x.1 with
      | .ok r => r
      | .error _ => none

/-- The elements of row `r` along dimension `g`: tuples in iteration order. -/
def Desc.rowIdx (t : Desc) (g r : Nat) : List (List Nat) :=
  let e := t.ext.set g 1
  (List.range (e.foldl (· * ·) 1)).map fun p => (unravel e p).set g r

/-- The index-fault record (R167). -/
def indexFault (h : Heat) (j : Nat) (i : Int) : Rec :=
  { Rec.ofHeat 0x0044 2 h.id h.cmdId with detail := leBytes 4 j ++ leBytes 4 (unsigned 32 i) }

/-- The index tensor is read and every index checked before anything is written (R167, R181): a word
for each index, then the tile-map entries that the command needs. `strict` says that a poisoned index
ends the heat. -/
def indexPart (h : Heat) (st : Nat) (t ix : Desc) (keep strict : Bool) (src dst : Desc) : Part :=
  let maps := [src, dst]
  wordsPart (.gather h.id.cluster.val)
    [ix.rd 0 accGather keep, ⟨0, src.mapPlace ++ dst.mapFetch, accGather, false⟩] accGather h.id st
    fun v _ =>
      let l := ix.indices v
      match badIndex t l with
      | some (j, i) => .error fun w => w.up fun d => match d.heat h.id with
        | some x => d.faultHeat x (indexFault x j i)
        | none => d
      | none =>
        if strict && l.any Prod.snd then .error fun w => w.up fun d => match d.heat h.id with
          | some x => d.endHeat x
          | none => d
        else .ok ((l.map fun x => (unsigned 32 x.1, x.2)) ++ (maps.map fun m => m.mapWords v).flatten)

/-- A gather or scatter with what it has read first. -/
structure RowCtx where
  h  : Heat
  st : Nat
  t  : Desc
  n  : Nat
  ws : List (Nat × Bool)

def RowCtx.who (x : RowCtx) : Requester := .gather x.h.id.cluster.val
def RowCtx.indices (x : RowCtx) : List (Int × Bool) := (x.ws.take x.n).map fun y => (signed 32 y.1, y.2)
def RowCtx.rows (x : RowCtx) : List (Option Nat) := rowsOf x.t x.indices

/-- A view with the tile maps that were read first, in their order. -/
def RowCtx.see (x : RowCtx) (maps : List Desc) (v : View) : View :=
  (maps.foldl (fun (r : View × List (Nat × Bool)) d =>
    (d.knowing r.1 r.2, r.2.drop (if d.tileMap == 0 then 0 else d.tiles))) (v, x.ws.drop x.n)).1

/-- The fetch group of a row that window `k` of 64 indices names: each distinct row once in each window
(R169). -/
def rowGrp (k r : Nat) : Nat := (k + 1) * 2 ^ 32 + r + 1

/-- The places of a row of a table: its elements with their MX scale bytes, or the tiles that hold it. -/
def RowCtx.rowPlaces (x : RowCtx) (v : View) (r : Nat) : List (Nat × Nat) :=
  nub ((x.t.rowIdx x.t.gdim r).map fun i =>
    if x.t.tileMap != 0 then x.t.loadPlaces v i
    else x.t.place (x.t.offset i) :: (let s := x.t.scalePlace i; if s.2 == 1 then [s] else [])).flatten []

/-- The rows that the indices of windows `lo` to `lo + n − 1` name, each with its window. -/
def RowCtx.named (x : RowCtx) (lo n : Nat) : List (Nat × Nat) :=
  ((List.range n).map fun k =>
    (nub (((x.rows.drop (64 * (lo + k))).take 64).filterMap id) []).map fun r => (lo + k, r)).flatten

/-- What a gather writes to an element: the element of the row that its index names; +0 of the
destination where it names none (R166); poison where its index is poisoned. -/
def RowCtx.gathered (x : RowCtx) (d : Desc) (v : Nat → View) (main : Nat) (idx : List Nat) : Datum × Bool :=
  let j := idx.getD x.t.gdim 0
  match x.rows.getD j none with
  | none => (.code 0, (x.indices.getD j (0, false)).2)
  | some r =>
    let row := x.see [x.t, d] (v (rowGrp (j / 64) r))
    let sc := x.t.scaleSpan
    let u : View := fun a => if x.t.scaleKind == 2 && decide (sc.1 ≤ a ∧ a < sc.1 + sc.2) then v main a else row a
    x.t.datum d u (idx.set x.t.gdim r)

/-- A block of a destination is copied with its scale byte: one row of the table gives all of it. -/
def RowCtx.copies (x : RowCtx) (d : Desc) (b : Nat) : Bool :=
  mxSame x.t d && x.t.blockDim != x.t.gdim
    && (x.rows.getD ((blockStart d.ext d.blockDim b).getD x.t.gdim 0) none).isSome

/-- The pieces of the elements that a part of a gather writes. -/
def RowCtx.gatherPieces (x : RowCtx) (d : Desc) (v : Nat → View) (main : Nat) (es : List (List Nat)) : List Piece :=
  let f := x.gathered d v main
  if !d.fmt.isMx then d.piecesOn (v main) x.h.ovf es d.stands f
  else
    let row := fun i => x.see [x.t, d] (v (rowGrp (i.getD x.t.gdim 0 / 64) ((x.rows.getD (i.getD x.t.gdim 0) none).getD 0)))
    ((d.blocksOf es).map fun b =>
      if x.copies d b then
        mxCopy x.t d row [b] d.stands fun i => i.set x.t.gdim ((x.rows.getD (i.getD x.t.gdim 0) none).getD 0)
      else d.mxPieces [b] d.stands f).flatten

/-- The part of a gather that serves windows `lo` to `lo + n − 1` of its indices. -/
def RowCtx.gatherPart (x : RowCtx) (w : Wk) (d : Desc) (no lo n : Nat) : Part :=
  let es := d.elems.filter fun i => decide (64 * lo ≤ i.getD x.t.gdim 0 ∧ i.getD x.t.gdim 0 < 64 * (lo + n))
  let see := x.see [x.t, d] w.mem.view
  let tiles := if d.tileMap == 0 then [] else nub (es.map fun i => (d.tileOf i).1) []
  let pl := if d.tileMap == 0 then (es.map d.writePlaces).flatten else []
  let main := (lo + 1) * 2 ^ 32
  { no := no, who := x.who, lane := 0, engines := [], full := if x.t.inPond then x.t.slots else []
    reads := (x.named lo n).map (fun y => ⟨rowGrp y.1 y.2, x.rowPlaces see y.2, accGather, false⟩)
      ++ (if x.t.scaleKind == 2 then [⟨main, [x.t.scaleSpan], accGather, false⟩] else [])
      ++ d.storeScale main accGather
    writes := pl, slots := pondSlots pl, wacc := accGather, ready := true
    run := fun v w =>
      let f := x.gathered d v main
      let fold := d.foldOf (es.map f)
      if d.wmode == 2 then
        let ws := es.map fun i => (i, f i)
        w.store x.h.id x.who x.st no [] (d.accAtoms ws ++ fold) (ws.any fun y => y.2.2)
      else if d.tileMap != 0 then
        w.storeTiles x.h x.who x.st no [] (tiles.map fun t => d.tileStore (x.see [x.t, d] (v main)) x.h.ovf t f) fold
      else w.store x.h.id x.who x.st no (x.gatherPieces d v main es) fold false }

/-- The entries of the tiles that a gather or scatter has stored follow once their data is written (R174). -/
def RowCtx.entriesPart (x : RowCtx) (w : Wk) (d : Desc) (no first : Nat) (tiles : List Nat) (after : Nat) : Part :=
  tileEntries w x.h x.who x.st accGather d x.ws no first tiles after

/-- The windows that a part of a gather serves: one, two where a tile of a compressed destination holds
128 rows (R173), all of them where elements add up in iteration order (R164). -/
def gatherSpan (t d : Desc) (n : Nat) : Nat :=
  if d.wmode == 2 then (n + 63) / 64 else if d.tileMap != 0 && decide (t.gdim < 2) then 2 else 1

/-- The tiles of a compressed destination that the `k`th part of a gather stores. -/
def gatherTiles (t d : Desc) (span k : Nat) : List Nat :=
  nub ((d.elems.filter fun i => i.getD t.gdim 0 / (64 * span) == k).map fun i => (d.tileOf i).1) []

/-- What is left of a gather (R165 to R169). -/
def gatherPlan (st : Nat) (t ix d : Desc) (keep : Bool) (w : Wk) (h : Heat) : Plan :=
  if !(h.at st).begun then ⟨[indexPart h st t ix keep false t d], false, []⟩
  else
    let x : RowCtx := ⟨h, st, t, ix.size, (h.at st).words⟩
    let span := max 1 (gatherSpan t d ix.size)
    let parts := ((ix.size + 63) / 64 + span - 1) / span
    let base := ix.size + (if t.tileMap == 0 then 0 else t.tiles) + (if d.tileMap == 0 then 0 else d.tiles)
    let first := fun (k : Nat) => base + ((List.range k).map fun q => (gatherTiles t d span q).length).foldl (· + ·) 0
    ⟨((List.range parts).map fun k =>
      x.gatherPart w d (2 * k + 1) (k * span) span ::
        (if d.tileMap == 0 then []
         else [x.entriesPart w d (2 * k + 2) (first k) (gatherTiles t d span k) (2 * k + 1)])).flatten,
      true, []⟩

/-- GATHER (R213). -/
def execGather (h : HeatId) (s : State) : Host.Outcome State Fault Refusal :=
  done s fun w => w.withHeat h fun x w =>
    match x.body with
    | .stage (.gather t i d k) => w.stage (gatherPlan 0 t i d k) h 0
    | _ => w

/-- One accumulating contribution applied in a pond (R168, R170): its words take the sum, or poison. -/
def Wk.addPond (w : Wk) (id : HeatId) (d : Desc) (x : List Nat × Datum × Bool) : Wk :=
  match d.accAtoms [x] with
  | op :: _ =>
    let w := w.pondAtom id op
    w.ite x.2.2 fun w => w.pondBad (op.addr, w.bytes op.addr 4, true)
  | [] => w

/-- The writes of source row `j` of a scatter: its elements go to the row its index names (R165, R168).
A source's own GDIM is ignored (R151). -/
def RowCtx.writes (x : RowCtx) (sr : Desc) (v : View) (j : Nat) : List (List Nat × Datum × Bool) :=
  match x.rows.getD j none with
  | none => []
  | some r => (sr.rowIdx x.t.gdim j).map fun i => (i.set x.t.gdim r, sr.datum x.t v i)

/-- The elements of the table that source row `j` goes to. -/
def RowCtx.targets (x : RowCtx) (sr : Desc) (j : Nat) : List (List Nat) :=
  match x.rows.getD j none with
  | none => []
  | some r => (sr.rowIdx x.t.gdim j).map fun i => i.set x.t.gdim r

/-- The sparse engines that add contributions to slots of a pond table (R230). -/
def RowCtx.engines (x : RowCtx) (slots : List Nat) : List Nat :=
  if x.t.inPond && x.t.wmode == 2 then nub (slots.map fun g => sparseOf (slotCore g)) [] else []

/-- A scatter copies MX blocks with their scale bytes: every block belongs to one row (R160). -/
def RowCtx.scatterCopies (x : RowCtx) (sr : Desc) : Bool := mxSame sr x.t && x.t.blockDim != x.t.gdim

/-- A scatter forms blocks or tiles anew from its writes and from what they held (R87, R174). -/
def RowCtx.mixes (x : RowCtx) (sr : Desc) : Bool :=
  x.t.wmode != 2 && (x.t.tileMap != 0 || (x.t.fmt.isMx && !x.scatterCopies sr))

/-- The accessor that writes a scatter's table. -/
def RowCtx.acc (x : RowCtx) : Nat := if x.t.wmode == 2 then accSparse else accGather

/-- The part of a scatter that handles source row `j`. -/
def RowCtx.scatterPart (x : RowCtx) (w : Wk) (sr : Desc) (keep : Bool) (j : Nat) : Part :=
  let es := x.targets sr j
  let no := j + 1
  let pl := (es.map x.t.writePlaces).flatten
  let pond := x.t.inPond && x.t.wmode == 2
  let src := nub ((sr.rowIdx x.t.gdim j).map (sr.loadPlaces (x.see [sr, x.t] w.mem.view))).flatten []
  { no := no, who := x.who, lane := 0, engines := x.engines (pondSlots pl), full := []
    reads := ⟨no, src, accGather, !keep⟩ :: x.t.storeScale no accGather
    writes := pondPlaces pl, slots := pondSlots pl, wacc := x.acc, ready := true
    run := fun v w =>
      let u := x.see [sr, x.t] (v no)
      let ws := x.writes sr u j
      let fold := x.t.foldOf (ws.map Prod.snd)
      if pond then
        match firstPoison w.mem.view (pondPlaces pl) with
        | some a => (w.up fun d => match d.heat x.h.id with
          | some y => d.pondPoisonHeat y a
          | none => d, false)
        | none => (Wk.each ws (fun w y => w.addPond x.h.id x.t y) w).store x.h.id x.who x.st no [] fold false
      else if x.t.wmode == 2 then
        w.store x.h.id x.who x.st no [] (x.t.accAtoms ws ++ fold) (ws.any fun y => y.2.2)
      else if x.scatterCopies sr then
        w.store x.h.id x.who x.st no
          (mxCopy sr x.t (fun _ => u) (x.t.blocksOf es) (fun _ => true) fun i => i.set x.t.gdim j) fold false
      else w.store x.h.id x.who x.st no (ws.map fun y => x.t.piece u x.h.ovf y.1 y.2) fold false }

/-- The one part of a scatter that forms blocks or tiles anew: it reads every source row, and what the
blocks or tiles that it touches held. -/
def RowCtx.mixPart (x : RowCtx) (w : Wk) (sr : Desc) (keep : Bool) : Part :=
  let js := List.range x.n
  let es := (js.map (x.targets sr)).flatten
  let see := x.see [sr, x.t] w.mem.view
  let blocks := if x.t.fmt.isMx then x.t.blocksOf es else []
  let tiles := if x.t.tileMap == 0 then [] else nub (es.map fun i => (x.t.tileOf i).1) []
  let old := if x.t.tileMap == 0 then (blocks.map fun b => blockElems x.t.ext x.t.blockDim b).flatten
    else (tiles.map x.t.tileElems).flatten
  let pl := if x.t.tileMap == 0 then (old.map x.t.writePlaces).flatten else []
  let main := x.n + 2
  { no := 1, who := x.who, lane := 0, engines := [], full := []
    reads := (js.filterMap fun j => if (x.rows.getD j none).isNone then none else
        some ⟨j + 1, nub ((sr.rowIdx x.t.gdim j).map (sr.loadPlaces see)).flatten [], accGather, !keep⟩)
      ++ (if x.t.inPond then [] else [⟨main, nub (old.map (x.t.loadPlaces see)).flatten [], accGather, false⟩])
    writes := pondPlaces pl, slots := pondSlots pl, wacc := accGather, ready := true
    run := fun v w =>
      let u := x.see [sr, x.t] (v main)
      let ws := (js.map fun j => x.writes sr (x.see [sr, x.t] (v (j + 1))) j).flatten
      let f := x.t.after u ws
      let fold := x.t.foldOf (ws.map Prod.snd)
      if x.t.tileMap == 0 then
        w.store x.h.id x.who x.st 1 (x.t.mxPieces blocks (fun _ => true) f) fold false
      else
        w.storeTiles x.h x.who x.st 1 [] (tiles.map fun n => x.t.tileStore u x.h.ovf n f) fold }

/-- The slots of a pond table that no row of a scatter writes (R156). -/
def RowCtx.unwritten (x : RowCtx) (sr : Desc) : List Nat :=
  let es := ((List.range x.n).map (x.targets sr)).flatten
  let wrote := pondSlots ((if x.mixes sr && x.t.fmt.isMx then
    ((x.t.blocksOf es).map fun b => blockElems x.t.ext x.t.blockDim b).flatten else es).map x.t.writePlaces).flatten
  if x.t.inPond then x.t.slots.filter fun g => !wrote.contains g else []

/-- The last part of a scatter: the slots of a pond table that no row wrote become FULL with the others
(R156). -/
def RowCtx.lastPart (x : RowCtx) (sr : Desc) (no : Nat) : List Part :=
  if (x.unwritten sr).isEmpty then []
  else
    [{ no := no, who := x.who, lane := 0, engines := [], reads := [], full := [], writes := []
       slots := x.unwritten sr, wacc := x.acc, ready := true, run := fun _ w => (w, true) }]

/-- What is left of a scatter (R165 to R168, R181): contributions in ascending source index. -/
def scatterPlan (st : Nat) (t ix sr : Desc) (keepIx keepSrc : Bool) (w : Wk) (h : Heat) : Plan :=
  if !(h.at st).begun then ⟨[indexPart h st t ix keepIx true sr t], false, []⟩
  else
    let x : RowCtx := ⟨h, st, t, ix.size, (h.at st).words⟩
    let base := ix.size + (if sr.tileMap == 0 then 0 else sr.tiles) + (if t.tileMap == 0 then 0 else t.tiles)
    if x.mixes sr then
      let tiles := if t.tileMap == 0 then [] else
        nub (((List.range x.n).map (x.targets sr)).flatten.map fun i => (t.tileOf i).1) []
      ⟨[x.mixPart w sr keepSrc] ++ (if t.tileMap == 0 then [] else [x.entriesPart w t 2 base tiles 1]) ++ x.lastPart sr 3,
        true, []⟩
    else ⟨((List.range x.n).map fun j => x.scatterPart w sr keepSrc j) ++ x.lastPart sr (x.n + 1), true, []⟩

/-- SCATTER (R213). -/
def execScatter (h : HeatId) (s : State) : Host.Outcome State Fault Refusal :=
  done s fun w => w.withHeat h fun x w =>
    match x.body with
    | .stage (.scatter t i sr k1 k2) => w.stage (scatterPlan 0 t i sr k1 k2) h 0
    | _ => w

end Sys2Proof.Machine
end

