-- ==== Sys2Proof/Machine/Relay.lean ====
section
/-! DEFINITION. The Relay's rows: relay send and receive (R219, R305, R310), data frames, landings and
acknowledgements (R299, R300, R307 to R314), link training, identity and lanes (R296 to R298, R315,
R351, R352), and the Relay's host writes (R324 to R326). -/

namespace Sys2Proof.Machine

open Sys2Proof.Config

/-! ### Relay send and receive -/

/-- The port that quantises or sends what goes to a position (R305): the egress port of its first hop,
or, for a sum or a landing in this module, a port of its own. -/
def Dev.sendPort (d : Dev) (dst own : Nat) : Nat :=
  if dst == d.pos.getD 0xFFFF then own else ((d.hop (d.pos.getD 0xFFFF) dst).map Prod.fst).getD own

/-- Segment `k` of a gradient relay send (R305): its elements are read by the port that quantises them,
and nothing derived from poison is sent (R148, R194). -/
def segmentPart (b : SendBody) (w : Wk) (h : Heat) (k : Nat) : Part :=
  let es := (List.range (min 16384 (b.src.size - 16384 * k))).map fun i => unravel b.src.ext (16384 * k + i)
  let seg := b.rseg.toNat + k
  { no := k, who := .port (w.dev.sendPort (w.dev.segTarget b.route seg) (w.dev.reducer seg))
    lane := 0, engines := [], full := []
    reads := [⟨k + 1, nub (es.map (b.src.loadPlaces w.mem.view)).flatten [], accOut, !b.keep⟩]
    writes := [], slots := [], wacc := accOut, ready := true
    run := fun v w =>
      let x := es.map fun i => b.src.f32 (v (k + 1)) i
      if x.any Prod.snd then (w.up fun d => d.endHeat h, false)
      else (w.sendSegment h.id b.route seg (x.map Prod.fst), true) }

/-- Where raw units go first (R316, R319 to R321). -/
def Dev.rawTarget (d : Dev) (r : Route) : Nat :=
  let me := d.pos.getD 0xFFFF
  if r.traffic == 3 then (r.ringNext me).getD me
  else if r.traffic == 4 then r.owners.headD me
  else (r.members.find? fun m => m != me).getD me

/-- A relay send of raw units (R316, R319 to R321): the source is read by the egress port. -/
def rawPart (b : SendBody) (w : Wk) (h : Heat) : Part :=
  { no := 0, who := .port (w.dev.sendPort (w.dev.rawTarget b.route) (b.route.accBase / 64 % 16))
    lane := 0, engines := [], full := []
    reads := [⟨1, b.src.places, accOut, !b.keep⟩]
    writes := [], slots := [], wacc := accOut, ready := true
    run := fun v w =>
      let x := b.src.rawBytes (v 1) b.route.traffic
      if x.2 then (w.up fun d => d.endHeat h, false) else (w.sendRaw h.id b.route x.1, true) }

/-- What is left of a relay send: a gradient goes segment by segment (R305), raw units as one. -/
def sendPlan (b : SendBody) (w : Wk) (h : Heat) : Plan :=
  if b.route.traffic == 0 then
    ⟨(List.range ((b.src.size + 16383) / 16384)).map (segmentPart b w h), true, []⟩
  else ⟨[rawPart b w h], true, []⟩

/-- RELAY_SEND (R219, R305). -/
def execRelaySend (h : HeatId) (s : State) : Host.Outcome State Fault Refusal :=
  done s fun w => w.withHeat h fun x w =>
    match x.body with
    | .stage (.relaySend b) => w.stage (sendPlan b) h 0
    | _ => w

/-! ### Data frames -/

/-- The channel a frame came on (R300). -/
def Dev.channelOf (d : Dev) (q : Nat) (f : Frame) : Nat := f.channel (d.port q).peerPos

/-- The frame is for this module: it is the destination, a member of a gather or exchange, or a place
of the ring (R316, R319, R320). -/
def Dev.forMe (d : Dev) (f : Frame) : Bool :=
  let me := d.pos.getD 0xFFFF
  f.dst == me || ((f.traffic == 1 || f.traffic == 2 || f.traffic == 3)
    && ((d.routeFor f.tag f.traffic f.mb).map fun r => r.members.contains me && f.src != me).getD false)

/-- Key of a block or unit in the retry counts (R313). -/
def Frame.retryKey (f : Frame) (i : Nat) : Nat :=
  if f.blocks then 256 * f.seg + (f.blk + i) % 256 else 2 ^ 48 + f.addr + 64 * i

/-- A frame already accepted (R322): with this SEQ on this channel of the port, or, where it is sent again,
with this SEQ from this module on any. -/
def Dev.alreadySeen (d : Dev) (q ch : Nat) (f : Frame) : Bool :=
  (d.port q).seen.contains (ch, f.seq, BitVec.ofNat 16 f.src)
    || (f.retx && d.rly.ports.any fun p => p.2.seen.any fun x => x.2 == (f.seq, BitVec.ofNat 16 f.src))

/-- A block that this port has refused and not accepted since (R313). -/
def Dev.refusedBefore (d : Dev) (q : Nat) (f : Frame) (i : Nat) : Bool :=
  AMap.get 0 (d.port q).retries (f.retryKey i) != 0

/-- The blocks of a frame that have not been accepted here before. -/
def Dev.newBlocks (d : Dev) (q ch : Nat) (f : Frame) : List Nat :=
  let seen := d.alreadySeen q ch f
  (List.range f.nblk).filter fun i => !seen || d.refusedBefore q f i

/-- The blocks or units the receiving port refuses (R300): relay blocks wherever they arrive, raw units
at their destination. -/
def Dev.refusals (d : Dev) (q ch : Nat) (f : Frame) : List Nat :=
  let l := d.newBlocks q ch f
  if f.blocks then l.filter fun i => (parseBlk f.wide f.body i).isNone
  else if d.forMe f && !f.e2eOk then l else []

/-- Blocks to take: new ones that are not refused. -/
def Dev.taken (d : Dev) (q ch : Nat) (f : Frame) : List Nat :=
  let bad := d.refusals q ch f
  (d.newBlocks q ch f).filter fun i => !bad.contains i

/-- Copies of a frame for the recipients behind this module, one for each egress port (R316); a frame
whose recipients are unknown here goes on to its destination. -/
def Dev.forwardList (d : Dev) (f : Frame) : List Frame :=
  let me := d.pos.getD 0xFFFF
  let route := if f.traffic == 1 || f.traffic == 2 then d.routeFor f.tag f.traffic f.mb else none
  match route with
  | some r =>
    let rs := r.members.filter fun m =>
      m != me && m != f.src && d.onPath me d.live.modules f.src m
    let firsts := rs.foldl (fun (l : List (Option Nat × Nat)) m =>
      let q := (d.hop me m).map Prod.fst
      if l.any (fun x => x.1 == q) then l else l ++ [(q, m)]) []
    firsts.map fun x => { f with dst := x.2 }
  | none => if f.dst == me then [] else [f]

/-- What a module passes on of a frame: its accepted blocks (R304), ring frames with one hop less (R320).
A block that its last link sent again after a refusal is new on the next. -/
def Dev.forward (d : Dev) (q : Nat) (f : Frame) (take : List Nat) : Dev :=
  let again := take.any (d.refusedBefore q f)
  let f := if again then { f with fflags := setBits f.fflags 3 3 0 } else f
  let parts := if take.length == f.nblk then [f] else take.map f.only
  if f.traffic == 3 then
    let on := ((d.routeFor f.tag 3 f.mb).map fun r => r.members.contains (d.pos.getD 0xFFFF)).getD false
    if on && f.hops ≤ 1 then d
    else if on then d.sendFrame { f with hops := f.hops - 1 } none
    else if f.dst == d.pos.getD 0xFFFF then d else d.sendFrame f none
  else
    (parts.map d.forwardList).flatten.foldl (fun d g => d.sendFrame g none) d

/-- The port has judged a frame: refused blocks are counted, accepted ones that had been refused are
recorded (R313), the frame is remembered and acknowledged (R300). -/
def Dev.judge (d : Dev) (q ch : Nat) (f : Frame) (take bad : List Nat) : Dev :=
  let d := take.foldl (fun d i =>
    if AMap.get 0 (d.port q).retries (f.retryKey i) == 0 then d
    else
      let d := d.setPort q fun p => { p with retries := AMap.set 0 p.retries (f.retryKey i) 0 }
      d.retryRec q f.seg ((f.blk + i) % 256)) d
  let d := bad.foldl (fun d i =>
    d.setPort q fun p => { p with retries := AMap.upd 0 p.retries (f.retryKey i) (· + 1) }) d
  let key := (ch, f.seq, BitVec.ofNat 16 f.src)
  let d := d.setPort q fun p => { p with seen := if p.seen.contains key then p.seen else p.seen ++ [key] }
  d.send q (.ack ch f.seq (BitVec.ofNat 16 ((bad.map fun i => 2 ^ i).foldl (· + ·) 0)))

/-- A received frame is processed; false where it has to wait for a route or an entry. -/
def Wk.receive (w : Wk) (q : Nat) (f : Frame) (faults : Nat) : Wk × Bool :=
  let d := w.dev
  let local_ := 16 ≤ q
  let ch := if local_ then 1 else d.channelOf q f
  let bad := if local_ then [] else d.refusals q ch f
  let take := if local_ then List.range f.nblk else d.taken q ch f
  let mine := local_ || d.forMe f
  if mine && !w.admits f take then (w, false)
  else
    let sums := mine && (f.traffic == 0 || f.traffic == 4)
    let w := w.ite (!local_ && !take.isEmpty && !sums) fun w => w.up fun d => d.forward q f take
    let w := w.ite (!local_) fun w => w.up fun d => d.judge q ch f take bad
    (w.ite (mine && !take.isEmpty) fun w =>
      (w.up fun d => if sums then d.sumFaults faults (d.reducer (if f.traffic == 4 then f.addr / 64 else f.seg)) f.seg (f.blk % 256)
        else d).consumeFrame q f take, true)

/-- Frames that wait are tried again, oldest first. -/
def Wk.retryBlocked (w : Wk) : Wk :=
  let l := w.dev.rly.blocked
  let w := w.up fun d => { d with rly := { d.rly with blocked := [] } }
  Wk.each l (fun w x =>
    match w.receive x.1 (Frame.ofBytes x.2) 0 with
    | (w, true) => w
    | (w, false) => w.up fun d => { d with rly := { d.rly with blocked := d.rly.blocked ++ [x] } }) w

/-- DATA_FRAME (R299, R300, R307 to R321): a frame that fails its link check is replayed by the link
layer and leaves nothing. -/
def execDataFrame (port : Fin 16) (frame : List Byte) (adderFaults : Nat) (s : State) :
    Host.Outcome State Fault Refusal :=
  done s fun w =>
    if !w.dev.portUp port.val || !lcrcOk frame || numAt frame 0 1 != 1 then w
    else
      match w.receive port.val (Frame.ofBytes frame) adderFaults with
      | (w, true) => w.retryBlocked
      | (w, false) =>
        w.up fun d => { d with rly := { d.rly with blocked := d.rly.blocked ++ [(port.val, frame)] } }

/-- RELAY_RECEIVE (R310): it dispatches and retires once its landing counter is not before EXPECT; a
skipped one retires at once (R340). -/
def execRelayReceive (h : HeatId) (s : State) : Host.Outcome State Fault Refusal :=
  done s fun w =>
    match w.dev.heat h with
    | some x =>
      match x.body with
      | .relayReceive r =>
        let count : W32 := AMap.get 0 w.dev.rly.land r.tag
        if w.dev.directOpen x && (x.skipped || notAfter r.expect count) then (w.retireAtOnce h).retryBlocked
        else w.retryBlocked
      | _ => w
    | none => w

/-- LANDING_COUNTER_INCREMENT (R308, R310, R316): the i-th landing whose writes are all acknowledged
steps its counter; one that an atomic refusal spoiled never does (R194). -/
def execLandingCounterIncrement (i : Nat) (s : State) : Host.Outcome State Fault Refusal :=
  done s fun w =>
    match w.dev.rly.landings[i]? with
    | none => w
    | some l =>
      if w.dev.hbm.reqs.any fun r => l.reqs.contains r.id then w
      else
        (w.up fun d =>
          let rest := d.rly.landings.eraseIdx i
          let land := if l.failed then d.rly.land else AMap.upd 0 d.rly.land l.tag (· + BitVec.ofNat 32 l.count)
          { d with rly := { d.rly with landings := rest, land := land } }).retryBlocked

/-! ### Acknowledgements (R300, R313) -/

/-- A stored frame after an acknowledgement: accepted blocks leave it, refused ones count a failure. -/
def Sent.acked (s : Sent) (refused : Nat) : Sent :=
  { s with blocks := (s.blocks.filter fun x => bit refused x.1).map fun x => (x.1, x.2 + 1) }

/-- ACKNOWLEDGEMENT (R300, R313, R314): a frame leaves the store once all of it is accepted; refused
blocks are sent again, and a fourth failure makes the port SUSPECT. -/
def execAcknowledgement (port : Fin 16) (channel : Fin 4) (seq : BitVec 32) (refused : BitVec 16)
    (s : State) : Host.Outcome State Fault Refusal :=
  devOnly s fun d =>
    let q := port.val
    match (d.port q).store.find? fun x => x.channel == channel.val && x.seq == seq with
    | none => d
    | some x =>
      let y := x.acked refused.toNat
      let others := (d.port q).store.filter fun z => z != x
      if y.blocks.isEmpty then d.setPort q fun p => { p with store := others }
      else if y.blocks.any fun b => decide (4 ≤ b.2) then
        (d.setPort q fun p => { p with store := others ++ y.split }).suspect q
      else
        let d := d.setPort q fun p => { p with store := others }
        (y.split.foldl (fun d z => d.launch q z true) d).portEvt q 1

/-! ### Links (R296 to R298, R315, R349, R351, R352) -/

/-- Every link this module expects has left training, and a path reaches the starter (R349). -/
def Dev.linksSettled (d : Dev) : Bool :=
  match d.pos with
  | none => false
  | some p =>
    ((List.range 16).all fun q => (d.live.peer p q).2.2 == 0 || (d.port q).state != .training)
      && (d.role == 0 || (match d.starterPos with
        | some t => (d.hop p t).isSome
        | none => false))

/-- Step 1 of joining ends (R349): the starter is ACTIVE, every other module goes on to LOCKING. -/
def Dev.linkProgress (d : Dev) : Dev :=
  if d.dom.state == .linking && d.linksSettled then
    { d with dom := { d.dom with state := if d.role == 0 then .active else .locking } }
  else d

/-- Working lanes to width: 8, 6, 4, or 0 (R297). -/
def widthOf (lanes : Nat) : Nat := if lanes == 8 then 8 else if 6 ≤ lanes then 6 else if 4 ≤ lanes then 4 else 0

/-- The lanes in use: the working ones in ascending number, up to the width (R297). -/
def lanesUsed (work : BitVec 8) : BitVec 8 :=
  let l := (List.range 8).filter fun i => work.toNat.testBit i
  BitVec.ofNat 8 (((l.take (widthOf l.length)).map fun i => 2 ^ i).foldl (· + ·) 0)

/-- A port may train: enabled, not SUSPECT, its cage supplied (R314, R326, R462). -/
def Dev.mayTrain (d : Dev) (q : Nat) : Bool :=
  !(d.port q).disable && (d.port q).state != .suspect && !d.pwr.cageFault.toNat.testBit q

/-- LINK_TRAINING (R297, R298): training ends with the port DOWN, refused as ASYM, or ready for the
peer's identity. -/
def execLinkTraining (port : Fin 16) (result : Training) (s : State) :
    Host.Outcome State Fault Refusal :=
  devOnly s fun d =>
    let q := port.val
    let p := d.port q
    if !d.mayTrain q || !(p.state == .down || p.state == .training) then d
    else
      let work := result.lanes &&& ~~~p.dropped
      let used := lanesUsed work
      let n := ((List.range 8).filter fun i => used.toNat.testBit i).length
      let swaps := result.pnSwap
      let d := d.setPort q fun p => { p with
        reversed := result.reversed, pnSwap := swaps, width := n, lanesUp := used, working := work, rttNs := result.rttNs }
      let lost := (List.range 8).filter fun i => !work.toNat.testBit i && !p.dropped.toNat.testBit i
      let d := lost.foldl (fun d i =>
        (d.raise { Rec.of 0x0072 1 with unit := q, detail := leBytes 1 i ++ leBytes 1 n }).portEvt q 0) d
      if n == 0 then (d.setPort q fun p => { p with state := .down, lanesUp := 0 }).linkProgress
      else if result.asym then
        (((d.setPort q fun p => { p with state := .asym }).raise { Rec.of 0x0073 1 with unit := q }).portEvt q 4).linkProgress
      else
        (d.setPort q fun p => { p with state := .training }).send q (.identity d.moduleId q .mz1 d.pcie.config.revision)

/-- A domain event bit (R363). -/
def Dev.domEvt (d : Dev) (n : Nat) : Dev :=
  { d with dom := { d.dom with evt := d.dom.evt ||| BitVec.ofNat 8 (2 ^ n) } }.latch 0x9808 n |>.msix 774

/-- The identity on a port is that of its relay-map entry (R351). -/
def Dev.identityOk (d : Dev) (q : Nat) (id : Identity) : Bool :=
  let e := d.live.peer (d.pos.getD 0xFFFF) q
  e.2.2 != 0 && d.live.roleId e.1 == id.moduleId.toNat && e.2.1 == id.port.toNat
    && d.live.kind e.1 == (if id.kind == .vozer then 1 else 0)

/-- A wrong identity that the remap conditions let through (R352). -/
def Dev.remapOk (d : Dev) (q : Nat) (id : Identity) : Bool :=
  let me := d.pos.getD 0xFFFF
  match d.live.posOf id.moduleId.toNat with
  | none => false
  | some a =>
    let here := (d.live.peer me q).2.2
    d.live.autoRemap && a != me && here != 0
      && d.live.kind a == (if id.kind == .vozer then 1 else 0)
      && ((List.range 16).any fun t => (d.live.peer me t).1 == a && (d.live.peer me t).2.2 == here)
      && !((List.range 16).any fun t => t != q && (d.port t).state == .up && (d.port t).peerPos == a)

/-- DETAIL of a miswire or remap record (R425): expected and actual position and port. -/
def Dev.wireDetail (d : Dev) (q : Nat) (id : Identity) : List Byte :=
  let e := d.live.peer (d.pos.getD 0xFFFF) q
  let a := (d.live.posOf id.moduleId.toNat).getD 0xFFFF
  leBytes 2 e.1 ++ leBytes 2 e.2.1 ++ leBytes 2 a ++ leBytes 1 id.port.toNat

/-- IDENTITY (R297, R317, R351, R352): the port is UP, UP by remap, or HELD. -/
def execIdentity (port : Fin 16) (id : Identity) (s : State) : Host.Outcome State Fault Refusal :=
  devOnly s fun d =>
    let q := port.val
    if (d.port q).state != .training || !d.mayTrain q then d
    else
      let ok := d.identityOk q id
      let re := !ok && d.remapOk q id
      let pos := (d.live.posOf id.moduleId.toNat).getD 0xFFFF
      let d := d.setPort q fun p => { p with
        peerKind := if id.kind == .vozer then 2 else 1, peerId := id.moduleId, peerPort := id.port.toNat }
      let d : Dev :=
        if ok || re then
          let d := d.setPort q fun p => { p with state := .up, peerPos := pos, remapped := re }
          if re then
            let d := d.raise { Rec.of 0x0079 0 with unit := q, detail := d.wireDetail q id }
            d.noteRemap.domEvt 3
          else d
        else
          let d := d.setPort q fun p => { p with state := .held }
          (d.raise { Rec.of 0x0078 1 with unit := q, detail := d.wireDetail q id }).domEvt 2
      d.reroute.linkProgress

/-- A lane in use is dropped (R315): the port goes DOWN and trains at once without it; `margin` says
that the sweep's margin check found it (R378). -/
def Dev.dropLane (d : Dev) (q lane : Nat) (margin : Bool) : Dev :=
  let p := d.port q
  if !(p.lanesUp.toNat.testBit lane) || !(p.state == .up || p.state == .held) then d
  else
    let off := p.dropped ||| BitVec.ofNat 8 (2 ^ lane)
    let left := ((List.range 8).filter fun i => p.working.toNat.testBit i && i != lane).length
    let d := d.setPort q fun p => { p with dropped := off }
    let d := d.setPortState q .training
    (d.raise { Rec.of 0x0072 1 with
      unit := q, detail := leBytes 1 lane ++ leBytes 1 (widthOf left) ++ leBytes 1 (b2n margin) }).portEvt q 0

/-- LANE_DROP (R315). -/
def execLaneDrop (port : Fin 16) (lane : Fin 8) (s : State) : Host.Outcome State Fault Refusal :=
  devOnly s fun d => d.dropLane port.val lane.val false

/-- A port leaves its link and trains again where it may (R297, R326). -/
def Dev.trainAgain (d : Dev) (q : Nat) : Dev :=
  let d := d.setPort q fun p => { p with dropped := 0 }
  if d.mayTrain q then d.setPortState q .training else d

/-- LINK_DOWN (R304, R322): the link leaves UP, and its unacknowledged frames go another way. -/
def execLinkDown (port : Fin 16) (s : State) : Host.Outcome State Fault Refusal :=
  devOnly s fun d =>
    let st := (d.port port.val).state
    if st == .up || st == .held then (d.setPortState port.val .down).linkProgress else d

/-! ### Host writes of the Relay (R324 to R326) -/

/-- A hurdle command of a kind is armed (R222). -/
def Dev.armedKind (d : Dev) (k : Nat) : Bool :=
  d.mar.heats.any fun h => h.state == .armed && (match h.body with | .hurdle _ hk _ _ => hk == k | _ => false)

/-- A write of `RLY_BANK_SET` (R324). -/
def Dev.bankSet (d : Dev) (v : Nat) : Dev :=
  if d.armedKind 3 then d.streamConfig 0x8008 else { d with rly := { d.rly with bank := bit v 0 } }

/-- RLY_BANK_SET (R324). -/
def execRlyBankSet (v : BitVec 32) (s : State) : Host.Outcome State Fault Refusal :=
  devOnly s fun d => d.hostWrite fun d => d.bankSet v.toNat

/-- A write of `RLY_LAND` (R325). -/
def Dev.landSet (d : Dev) (t : Nat) (v : W32) : Dev :=
  { d with rly := { d.rly with land := AMap.set 0 d.rly.land t v } }

/-- RLY_LAND_WRITE (R325). -/
def execRlyLandWrite (t : Fin 256) (v : BitVec 32) (s : State) : Host.Outcome State Fault Refusal :=
  devOnly s fun d => d.hostWrite fun d => d.landSet t.val v

/-- A write of DISABLE (R326): a disabled port is held DOWN; enabled again it trains. -/
def Dev.portDisable (d : Dev) (q : Nat) (disable : Bool) : Dev :=
  let was := (d.port q).disable
  let d := d.setPort q fun p => { p with disable := disable }
  if disable && (d.port q).state != .suspect then (d.setPortState q .down).linkProgress
  else if was && !disable then d.trainAgain q else d

/-- PORT_DISABLE (R326). -/
def execPortDisable (port : Fin 16) (disable : Bool) (s : State) : Host.Outcome State Fault Refusal :=
  devOnly s fun d => d.hostWrite fun d => d.portDisable port.val disable

/-- RETRAIN (R326, R462). -/
def execRetrain (port : Fin 16) (s : State) : Host.Outcome State Fault Refusal :=
  devOnly s fun d => d.hostWrite fun d => d.trainAgain port.val

/-- A write of 1 to CLR_SUSPECT (R314). -/
def Dev.clearSuspect (d : Dev) (q : Nat) : Dev :=
  if (d.port q).state == .suspect then (d.setPort q fun p => { p with state := .down }).trainAgain q else d

/-- CLR_SUSPECT (R314, R326). -/
def execClrSuspect (port : Fin 16) (s : State) : Host.Outcome State Fault Refusal :=
  devOnly s fun d => d.hostWrite fun d => d.clearSuspect port.val

end Sys2Proof.Machine
end

