-- ==== Sys2Proof/Machine/Spring.lean ====
section
/-! DEFINITION. Spring, the counter-based generator (R244, R245). -/

namespace Sys2Proof.Machine

/-- The rotation amounts and the key constant of R245. -/
def springRa : List Nat := [14, 22, 9, 27, 5, 18, 31, 11, 24, 7]
def springRb : List Nat := [25, 6, 17, 12, 29, 3, 20, 16, 10, 21]
def springKey : W32 := 0x7A4C1D93#32

/-- The four working words. -/
structure Spring where
  x0 : W32
  x1 : W32
  x2 : W32
  x3 : W32
deriving DecidableEq, Repr

/-- Key word `i` mod 5; word 4 is the exclusive-or of the others and the constant. -/
def springWord (k : List W32) (i : Nat) : W32 :=
  let w := fun j => k.getD j 0
  match i % 5 with
  | 4 => w 0 ^^^ w 1 ^^^ w 2 ^^^ w 3 ^^^ springKey
  | j => w j

/-- One round, with the key injection after odd rounds. -/
def springRound (k : List W32) (r : Nat) (s : Spring) : Spring :=
  let x0 := s.x0 + s.x1
  let x1 := s.x1.rotateLeft (springRa.getD r 0) ^^^ x0
  let x2 := s.x2 + s.x3
  let x3 := s.x3.rotateLeft (springRb.getD r 0) ^^^ x2
  let t : Spring := ⟨x0, x3, x2, x1⟩
  if r % 2 == 1 then
    let j := (r + 1) / 2
    ⟨t.x0 + springWord k j, t.x1 + springWord k (j + 1), t.x2 + springWord k (j + 2),
      t.x3 + springWord k (j + 3) + BitVec.ofNat 32 j⟩
  else t

/-- The generator (R245): four words from a key and a counter. -/
def spring (k ctr : List W32) : List W32 :=
  let i := fun j => ctr.getD j 0 + springWord k j
  let s := (List.range 10).foldl (fun s r => springRound k r s) (⟨i 0, i 1, i 2, i 3⟩ : Spring)
  [s.x0, s.x1, s.x2, s.x3]

/-- The draw for an OUT element (R244). -/
def springDraw (key : List W32) (step : W64) (tensor : W32) (row col : Nat) : W32 :=
  let hi := BitVec.ofNat 32 (step.toNat / 2 ^ 32)
  let k := key.set 3 (key.getD 3 0 ^^^ hi)
  (spring k [BitVec.ofNat 32 (col / 4), BitVec.ofNat 32 row, tensor, BitVec.ofNat 32 step.toNat]).getD (col % 4) 0

end Sys2Proof.Machine
end

