-- ==== Sys2Proof/Machine/VectorUnit.lean ====
section
/-! DEFINITION. The vector unit: element operations (R127, R216), the row reducer (R128 to R130, R217)
and Spring masks (R218, R246). -/

namespace Sys2Proof.Machine

open Sys2Proof.Config

/-! ### Approximated functions (R127) -/

/-- An approximated function: NaN gives NaN, sin and cos beyond 2^16 give NaN, and a NaN result is the
canonical one (R84); every other result is the free value of log entry 2. -/
def approxFn (f : Approx) (x : W32) : W32 :=
  let big := (FV.fin false 1 16).lt (fval x).abs
  if fIsNan x || (big && (f == .sin || f == .cos)) then fnan else fround (fval (approx f x))

/-- An integer as FP32. -/
def fOfNat (n : Nat) : W32 := fround (.fin false n 0)

/-! ### Element operations (R216) -/

/-- The result of a vector OP on FP32 inputs. -/
def vecOp (op : Nat) (imm a b : W32) (c : Option W32) : W32 :=
  let z := c.getD fzero
  match op with
  | 0x00 => fadd a b
  | 0x01 => fsub a b
  | 0x02 => fmul a b
  | 0x03 => ffma a b z
  | 0x04 => fmin a b
  | 0x05 => fmax a b
  | 0x06 => if (fval a).lt (fval b) then fone else fzero
  | 0x07 => if (fval z).isZero then fround (fval b) else fround (fval a)
  | 0x08 => fabs a
  | 0x09 => fround (fval a)
  | 0x10 => fsqrt a
  | 0x11 => fdiv a b
  | 0x12 => approxFn .recip a
  | 0x13 => approxFn .rsqrt a
  | 0x14 => approxFn .exp a
  | 0x15 => approxFn .exp2 a
  | 0x16 => approxFn .log a
  | 0x17 => approxFn .log2 a
  | 0x18 => approxFn .sin a
  | 0x19 => approxFn .cos a
  | 0x1A => approxFn .tanh a
  | 0x1B => approxFn .sigmoid a
  | 0x1C => approxFn .erf a
  | 0x1D => approxFn .gelu a
  | 0x1E => approxFn .silu a
  | 0x1F =>
    let p := fmul (approxFn .silu a) b
    match c with
    | some z => fmul p z
    | none => p
  | _ => fmul a imm

/-- The FP32 value of an optional operand. -/
def optF32 (t : Option Desc) (v : View) (idx : List Nat) : W32 :=
  match t with
  | some d => (d.f32 v idx).1
  | none => fzero

/-- The places that a load of some elements touches. -/
def Desc.rdPlaces (t : Desc) (mem : Mem) (es : List (List Nat)) : List (Nat × Nat) :=
  nub (es.map (t.loadPlaces mem.view)).flatten []

/-- A vector unit's read of some elements of an optional operand; bit `i` of a mask keeps its slots. -/
def vecRead (mem : Mem) (grp : Nat) (o : Option Desc) (es : List (List Nat)) (keep i : Nat) : List Rd :=
  o.toList.map fun t => ⟨grp, t.rdPlaces mem es, accVector, !bit keep i⟩

/-- The elements of a destination by the slot that holds the first byte of what is stored together. -/
def Desc.slotGroups (t : Desc) : List (Nat × List (List Nat)) :=
  let l := (t.atomsOf t.elems).map fun a => (slotAt (t.place (t.offset (a.headD []))).1, a)
  (nub (l.map Prod.fst) []).map fun g => (g, ((l.filter fun x => x.1 == g).map Prod.snd).flatten)

/-- The part of a vector unit's work that writes one slot of its destination: the unit of the slot's core
does it (R230). -/
def slotPart (h : Heat) (st : Nat) (out : Desc) (reads : Nat → List (List Nat) → List Rd)
    (f : View → Except Unit (List Nat → Datum × Bool)) (k : Nat) (x : Nat × List (List Nat)) : Part :=
  let pl := (x.2.map out.writePlaces).flatten
  { no := k, who := .dma h.id.cluster.val, lane := slotCore x.1, engines := [vectorOf (slotCore x.1)]
    reads := reads (k + 1) x.2 ++ out.storeScale (k + 1) accVector, full := []
    writes := pl, slots := pondSlots pl, wacc := accVector, ready := true
    run := fun v w =>
      let u := v (k + 1)
      match f u with
      | .error _ => (w.up fun d => match d.heat h.id with | some x => d.endHeat x | none => d, false)
      | .ok f => w.store h.id (.dma h.id.cluster.val) st k (out.piecesOn u h.ovf x.2 out.stands f)
          (out.foldOf (x.2.map f)) false }

/-- What a vector OP gives an element (R216). -/
def VecBody.datum (b : VecBody) (v : View) (idx : List Nat) : Datum × Bool :=
  (.val (fval (vecOp b.op b.imm (optF32 b.in0 v idx) (optF32 b.in1 v idx) (b.in2.map fun d => (d.f32 v idx).1))), false)

/-- What a vector unit reads for some elements of OUT. -/
def VecBody.reads (b : VecBody) (mem : Mem) (grp : Nat) (es : List (List Nat)) : List Rd :=
  vecRead mem grp b.in0 es b.keep 0 ++ vecRead mem grp b.in1 es b.keep 1 ++ vecRead mem grp b.in2 es b.keep 2

/-- The part of a vector command that writes one slot of OUT. -/
def VecBody.part (b : VecBody) (h : Heat) (st : Nat) (mem : Mem) (k : Nat) (x : Nat × List (List Nat)) : Part :=
  slotPart h st b.out (b.reads mem) (fun v => .ok (b.datum v)) k x

/-- What is left of a vector command (R216). -/
def vectorPlan (st : Nat) (b : VecBody) (w : Wk) (h : Heat) : Plan :=
  ⟨b.out.slotGroups.mapIdx (b.part h st w.mem), true, []⟩

/-- VECTOR (R216). -/
def execVector (h : HeatId) (s : State) : Host.Outcome State Fault Refusal :=
  done s fun w => w.withHeat h fun x w =>
    match x.body with
    | .stage (.vector b) => w.stage (vectorPlan 0 b) h 0
    | _ => w

/-! ### The row reducer (R92, R128, R129) -/

/-- A list in chunks of 64 lanes. -/
def lanes : Nat → List W32 → List (List W32)
  | 0, _ => []
  | n + 1, l => if l.isEmpty then [] else l.take 64 :: lanes n (l.drop 64)

def chunksOf (l : List W32) : List (List W32) := lanes (l.length / 64 + 1) l

/-- A chunk's lanes, absent ones +0. -/
def fullChunk (l : List W32) : List W32 := l ++ List.replicate (64 - l.length) fzero

/-- The sum of a row: each chunk by the pairwise tree, chunks in ascending order. -/
def rowSum (l : List W32) : W32 :=
  match (chunksOf l).map fun c => treeSum (fullChunk c) with
  | [] => fzero
  | s :: r => r.foldl fadd s

def rowMax (l : List W32) : W32 := l.foldl fmax fnegInf

/-- (m, z) of the soft maximum (R129); a chunk that holds only −∞ adds nothing. -/
def softStats (l : List W32) : W32 × W32 :=
  ((chunksOf l).map fun c =>
    let m := rowMax c
    if m == fnegInf then (m, fzero)
    else (m, treeSum (fullChunk (c.map fun x => approxFn .exp (fsub x m))))).foldl
    (fun a c =>
      if c.1 == fnegInf then a
      else if a.1 == fnegInf then c
      else
        let m := fmax a.1 c.1
        (m, fadd (fmul a.2 (approxFn .exp (fsub a.1 m))) (fmul c.2 (approxFn .exp (fsub c.1 m)))))
    (fnegInf, fzero)

/-- Mean and sum of squared deviations of a chunk, with its length. -/
def chunkMoments (c : List W32) : Nat × W32 × W32 :=
  let n := c.length
  let mean := fdiv (treeSum (fullChunk c)) (fOfNat n)
  (n, mean, treeSum (fullChunk (c.map fun x => let y := fsub x mean; fmul y y)))

/-- Two sets of moments merged (R129): a free value of the two (log entry 9). -/
def mergeMoments (a b : Nat × W32 × W32) : Nat × W32 × W32 := (a.1 + b.1, mergedMoments a b)

/-- (μ, v) of a row. -/
def rowMoments (l : List W32) : W32 × W32 :=
  match (chunksOf l).map chunkMoments with
  | [] => (fzero, fzero)
  | m :: r => (r.foldl mergeMoments m).2

def meanOf (l : List W32) : W32 := fdiv (rowSum l) (fOfNat l.length)

/-- x̂ of a row. -/
def normed (x : List W32) (mu rho : W32) : List W32 := x.map fun a => fmul (fsub a mu) rho

def pairwise (f : W32 → W32 → W32) (a b : List W32) : List W32 := (a.zip b).map fun p => f p.1 p.2

/-- What pass 1 forms of one row (R128, R129): the statistics that pass 2 applies. `given` are those of
STATS_IN. -/
def rowStats (op : Nat) (eps : W32) (x dy gamma : List W32) (given : W32 × W32) : W32 × W32 :=
  let len := fOfNat x.length
  match op with
  | 0 => softStats x
  | 1 => (rowSum (pairwise fmul x dy), fzero)
  | 2 =>
    let m := rowMoments x
    (m.1, approxFn .rsqrt (fadd (fdiv m.2 len) eps))
  | 3 =>
    let g := pairwise fmul dy gamma
    (meanOf g, meanOf (pairwise fmul g (normed x given.1 given.2)))
  | 4 => (fzero, approxFn .rsqrt (fadd (fdiv (rowSum (x.map fun a => fmul a a)) len) eps))
  | 5 => (fzero, meanOf (pairwise fmul (pairwise fmul dy gamma) (x.map fun a => fmul a given.2)))
  | 8 => (rowSum x, fzero)
  | 9 => (rowMax x, fzero)
  | _ => (rowSum (x.map fun a => fmul a a), fzero)

/-- What pass 2 writes of one row: the statistics that go to STATS_OUT, the results, and the row's terms of
dγ and dβ. -/
structure RowOut where
  stats  : W32 × W32
  y      : List W32
  dgamma : List W32
  dbeta  : List W32
deriving DecidableEq, Repr

/-- Pass 2 of one row (R128 to R130), from the statistics of pass 1. -/
def rowApply (op : Nat) (x dy gamma beta : List W32) (given s : W32 × W32) : RowOut :=
  match op with
  | 0 => ⟨s, x.map fun a => if s.1 == fnegInf then fzero else fdiv (approxFn .exp (fsub a s.1)) s.2, [], []⟩
  | 1 => ⟨(fzero, fzero), pairwise (fun y d => fmul y (fsub d s.1)) x dy, [], []⟩
  | 2 => ⟨s, pairwise fadd (pairwise fmul gamma (normed x s.1 s.2)) beta, [], []⟩
  | 3 =>
    let xh := normed x given.1 given.2
    ⟨given, pairwise (fun g h => fmul given.2 (fsub (fsub g s.1) (fmul h s.2))) (pairwise fmul dy gamma) xh,
      pairwise fmul dy xh, dy⟩
  | 4 => ⟨s, pairwise fmul gamma (x.map fun a => fmul a s.2), [], []⟩
  | 5 =>
    let xh := x.map fun a => fmul a given.2
    ⟨given, pairwise (fun g h => fmul given.2 (fsub g (fmul h s.2))) (pairwise fmul dy gamma) xh,
      pairwise fmul dy xh, dy⟩
  | _ => ⟨(fzero, fzero), [s.1], [], []⟩

/-- Elements `n × r` to `n × r + n − 1` of a tensor in iteration order: those of a row. -/
def Desc.rowElems (t : Desc) (n r : Nat) : List (List Nat) :=
  (List.range n).map fun j => unravel t.ext (n * r + j)

/-- Their FP32 values; none of an operand that is absent. -/
def rowF32 (o : Option Desc) (v : View) (n r : Nat) : List W32 :=
  (o.map fun t => (t.rowElems n r).map fun i => (t.f32 v i).1).getD []

/-- A vector of one value a column. -/
def colF32 (o : Option Desc) (v : View) : List W32 := (o.map fun t => t.elems.map fun i => (t.f32 v i).1).getD []

/-- A row-reduce command with the progress of its stage. -/
structure RowCmd where
  h  : Heat
  st : Nat
  b  : RowBody
  ws : List (Nat × Bool)
  ran : List Nat

def RowCmd.who (x : RowCmd) : Requester := .dma x.h.id.cluster.val
def RowCmd.rows (x : RowCmd) : Nat := x.b.x.rows
def RowCmd.len (x : RowCmd) : Nat := x.b.x.e 0

/-- STATS_IN of a row. -/
def RowCmd.given (x : RowCmd) (v : View) (r : Nat) : W32 × W32 :=
  let l := rowF32 x.b.statsIn v 2 r
  (l.getD 0 fzero, l.getD 1 fzero)

/-- The statistics of a row that pass 1 left in the reducer. -/
def RowCmd.stats (x : RowCmd) (r : Nat) : W32 × W32 :=
  (BitVec.ofNat 32 (x.ws.getD (2 * r) (0, false)).1, BitVec.ofNat 32 (x.ws.getD (2 * r + 1) (0, false)).1)

/-- The reads of a pass over some rows; those of pass 1 empty no slot (R128). -/
def RowCmd.reads (x : RowCmd) (mem : Mem) (rs : List Nat) (pass2 : Bool) : List Rd :=
  let keep := if pass2 then x.b.keep else 31
  let rows := fun (o : Option Desc) (n i : Nat) =>
    o.toList.map fun t => (⟨0, t.rdPlaces mem (rs.map (t.rowElems n)).flatten, accVector, !bit keep i⟩ : Rd)
  rows (some x.b.x) x.len 0 ++ rows x.b.dy x.len 1
    ++ (x.b.gamma.toList.map fun t => ⟨0, t.rdPlaces mem t.elems, accVector, !bit keep 2⟩)
    ++ (x.b.beta.toList.map fun t => ⟨0, t.rdPlaces mem t.elems, accVector, !bit keep 3⟩)
    ++ rows x.b.statsIn 2 4

/-- A list with entries put from a place on. -/
def putWords (l : List (Nat × Bool)) (n k : Nat) (ws : List W32) : List (Nat × Bool) :=
  let l := l ++ List.replicate (n - l.length) (0, false)
  l.take k ++ (ws.map fun x => (x.toNat, false)) ++ l.drop (k + ws.length)

/-- Pass 1 of a row, by the vector unit of its core: its statistics stay in the reducer. -/
def RowCmd.pass1 (x : RowCmd) (w : Wk) (r : Nat) : Part :=
  let core := x.b.x.rowCore r
  { no := r, who := x.who, lane := core, engines := [vectorOf core], reads := x.reads w.mem [r] false, full := []
    writes := [], slots := [], wacc := accVector, ready := true
    run := fun v w =>
      let u := v 0
      let s := rowStats x.b.op x.b.eps (rowF32 (some x.b.x) u x.len r) (rowF32 x.b.dy u x.len r) (colF32 x.b.gamma u)
        (x.given u r)
      (w.upHeat x.h.id fun y => y.upAt x.st fun g => { g with words := putWords g.words (2 * x.rows) (2 * r) [s.1, s.2] }, true) }

/-- The rows that pass 2 handles together: one row, or all where an MX block of OUT spans rows. -/
def RowCmd.groups (x : RowCmd) : List (List Nat) :=
  if x.b.out.toList.any fun t => t.fmt.isMx && t.blockDim != 0 then [List.range x.rows]
  else (List.range x.rows).map fun r => [r]

/-- dγ and dβ. -/
def RowCmd.sums (x : RowCmd) : List Desc := x.b.dgamma.toList ++ x.b.dbeta.toList

/-- A row's terms are added to a column-sum tensor (R130): a slot that is FULL keeps its sum and is added
to, and one that this command fills starts from +0. -/
def Wk.addColumns (w : Wk) (x : RowCmd) (started : Bool) (t : Desc) (l : List W32) : Wk × Bool :=
  let v := w.mem.view
  let f := fun idx =>
    let old := if started || w.dev.isFull (slotAt (t.place (t.offset idx)).1) then (t.f32 v idx).1 else fzero
    (Datum.val (fval (fadd old (l.getD (ravel t.ext idx) fzero))), false)
  w.store x.h.id x.who x.st 0 (t.piecesOn v x.h.ovf t.elems t.stands f) (t.foldOf (t.elems.map f)) false

/-- Actions in turn while the heat goes on. -/
def Wk.chain (w : Wk) : List (Wk → Wk × Bool) → Wk × Bool
  | [] => (w, true)
  | f :: l => match f w with
    | (w, true) => w.chain l
    | r => r

/-- Pass 2 of some rows: results, statistics, and the rows' terms of dγ and dβ in ascending row order
(R128 to R130). -/
def RowCmd.pass2 (x : RowCmd) (w : Wk) (k : Nat) (rs : List Nat) : Part :=
  let n := x.rows
  let core := x.b.x.rowCore (rs.headD 0)
  let outLen := fun (t : Desc) => t.size / max 1 n
  let es := fun (t : Desc) (m : Nat) => (rs.map (t.rowElems m)).flatten
  let sumPl := (x.sums.map Desc.places).flatten
  let pl := (x.b.out.toList.map fun t => ((es t (outLen t)).map t.writePlaces).flatten).flatten
    ++ (x.b.statsOut.toList.map fun t => ((es t 2).map t.writePlaces).flatten).flatten
  let own := (pondSlots sumPl).filter fun g => !w.dev.isFull g || x.h.claims.contains g
  let held := sumPl.filter fun p => (pondSlots [p]).all fun g => !own.contains g
  { no := n + k, who := x.who, lane := core, engines := nub (rs.map fun r => vectorOf (x.b.x.rowCore r)) [], full := []
    reads := x.reads w.mem rs true ++ (x.b.out.toList.map fun t => t.storeScale 0 accVector).flatten
      ++ (if held.isEmpty then [] else [⟨0, held, accVector, false⟩])
    writes := pl ++ sumPl, slots := nub (pondSlots pl ++ own) [], wacc := accVector
    ready := (rs.all fun r => x.ran.contains r)
      && (x.sums.isEmpty || (List.range k).all fun j => x.ran.contains (n + j))
    run := fun v w =>
      let u := v 0
      let res := rs.map fun r => rowApply x.b.op (rowF32 (some x.b.x) u x.len r) (rowF32 x.b.dy u x.len r)
        (colF32 x.b.gamma u) (colF32 x.b.beta u) (x.given u r) (x.stats r)
      let put := fun (o : Option Desc) (m : Desc → Nat) (vals : List W32) => o.toList.map fun t => fun (w : Wk) =>
        let l := es t (m t)
        let f := fun idx => (Datum.val (fval (vals.getD (l.idxOf idx) fzero)), false)
        w.store x.h.id x.who x.st (n + k) (t.piecesOn u x.h.ovf l t.stands f) (t.foldOf (l.map f)) false
      let cols := fun (o : Option Desc) (g : RowOut → List W32) =>
        (o.toList.map fun t => res.mapIdx fun i y => fun (w : Wk) => w.addColumns x (0 < k || 0 < i) t (g y)).flatten
      w.chain (put x.b.out outLen (res.map RowOut.y).flatten
        ++ put x.b.statsOut (fun _ => 2) (res.map fun y => [y.stats.1, y.stats.2]).flatten
        ++ cols x.b.dgamma RowOut.dgamma ++ cols x.b.dbeta RowOut.dbeta) }

/-- What is left of a row-reduce command: pass 1 of each row, then pass 2 (R128). -/
def rowReducePlan (st : Nat) (b : RowBody) (w : Wk) (h : Heat) : Plan :=
  let x : RowCmd := ⟨h, st, b, (h.at st).words, (h.at st).ran⟩
  ⟨(List.range x.rows).map (x.pass1 w) ++ x.groups.mapIdx (x.pass2 w), true, []⟩

/-- ROW_REDUCE (R217). -/
def execRowReduce (h : HeatId) (s : State) : Host.Outcome State Fault Refusal :=
  done s fun w => w.withHeat h fun x w =>
    match x.body with
    | .stage (.rowReduce b) => w.stage (rowReducePlan 0 b) h 0
    | _ => w

/-! ### Spring masks (R218, R244, R246) -/

/-- One element of a Spring mask. -/
def springElem (b : SpringBody) (v : View) (key : List W32) (idx : List Nat) : Datum × Bool :=
  let pos := ravel b.out.ext idx
  let u := (springDraw key b.step b.tensorId (pos / b.out.e 0) (idx.getD 0 0)).toNat
  let kept := decide (b.p ≤ u / 65536)
  match b.mode with
  | 0 => (.val (if kept then .fin false 1 0 else .fin false 0 0), false)
  | 1 =>
    let s := fround ((FV.fin false 65536 0).div (.fin false (65536 - b.p) 0))
    let x := (b.inp.map fun t => t.f32 v idx).getD (fzero, false)
    (.val (if kept then fval (fmul x.1 s) else .fin false 0 0), x.2)
  | _ => (.val (.fin false (u / 256) (-24)), false)

/-- The four codes of the key of a Spring mask, with their poison. -/
def SpringBody.keyCodes (b : SpringBody) (v : View) : List (Nat × Bool) := b.key.elems.map (b.key.code v)

/-- One element of a Spring mask, from what its part sees. -/
def SpringBody.datum (b : SpringBody) (v : View) : List Nat → Datum × Bool :=
  springElem b v ((b.keyCodes v).map fun c => BitVec.ofNat 32 c.1)

/-- What a Spring mask reads for some elements of OUT; its key is always kept (R218). -/
def SpringBody.reads (b : SpringBody) (mem : Mem) (grp : Nat) (es : List (List Nat)) : List Rd :=
  ⟨grp, b.key.places, accVector, false⟩ :: (if b.mode == 1 then vecRead mem grp b.inp es (b2n b.keepIn) 0 else [])

/-- The part of a Spring mask that writes one slot of OUT; a poisoned key ends it. -/
def SpringBody.part (b : SpringBody) (h : Heat) (st : Nat) (mem : Mem) (k : Nat) (x : Nat × List (List Nat)) : Part :=
  slotPart h st b.out (b.reads mem)
    (fun v => if (b.keyCodes v).any Prod.snd then .error () else .ok (b.datum v)) k x

/-- What is left of a Spring mask. -/
def springPlan (st : Nat) (b : SpringBody) (w : Wk) (h : Heat) : Plan :=
  ⟨b.out.slotGroups.mapIdx (b.part h st w.mem), true, []⟩

/-- SPRING_MASK (R218). -/
def execSpringMask (h : HeatId) (s : State) : Host.Outcome State Fault Refusal :=
  done s fun w => w.withHeat h fun x w =>
    match x.body with
    | .stage (.spring b) => w.stage (springPlan 0 b) h 0
    | _ => w

end Sys2Proof.Machine
end

