-- ==== Sys2Proof/Machine/Matrix.lean ====
section
/-! DEFINITION. Dense, sparse and tandem matrix commands (R105 to R126, R214, R230, R248 to R252, R267
to R281, R489): the units of a command, their sums and checksums, and the drain. -/

namespace Sys2Proof.Machine

open Sys2Proof.Config

/-! ### Units -/

/-- What one unit computes: its rows of A, its columns of W, its K-passes, and how. -/
structure UnitPlan where
  core   : Nat
  /-- 0 array, 1 sparse engine -/
  engine : Nat
  rows   : List Nat
  cols   : List Nat
  batch  : List Nat
  passes : List (List Nat)
  /-- columns of a buffer -/
  width  : Nat
  /-- K-elements that one pass holds -/
  depth  : Nat
  /-- the dW side of a tandem: A2 against the baton (R123) -/
  dw     : Bool
deriving DecidableEq, Repr

def MatBody.kInner (m : MatBody) : Nat := m.a.e 0
def MatBody.kTotal (m : MatBody) : Nat := m.a.e 0 * m.a.e 2
def MatBody.integer (m : MatBody) : Bool := m.a.fmt.isInt && m.w.fmt.isInt
/-- MXFP4 × MXFP4: two products a cell (R109). -/
def MatBody.rate2 (m : MatBody) : Bool := m.a.fmt == .mxE2m1 && m.w.fmt == .mxE2m1

/-- `n` numbers from `a` below `hi`. -/
def span (a n hi : Nat) : List Nat := (List.range n).filterMap fun i => if a + i < hi then some (a + i) else none

/-- K cut into passes of `d` elements, ascending (R90). -/
def kPasses (k d : Nat) : List (List Nat) := (List.range ((k + d - 1) / d)).map fun p => span (p * d) d k

/-- The mask row and batch of a row tile (R275). -/
def MatBody.rowTile (m : MatBody) (r : Nat) : Nat × List Nat := (r % m.mTiles, unravel m.a.batch (r / m.mTiles))

/-- Check command (R277). -/
def MatBody.isCheck (m : MatBody) : Bool := m.sparse && m.pred.isSome && m.sparseW

/-- Gate blocks of a check command, and the number of a unit: row tile, kind (0 gate, 1 predicted, 2
make-up) and position (R278). -/
def MatBody.gates (m : MatBody) : Nat := m.neurons / 128
def MatBody.checkUnit (m : MatBody) (r kind i : Nat) : Nat := (3 * r + kind) * m.gates + i
def MatBody.checkAt (m : MatBody) (u : Nat) : Nat × Nat × Nat :=
  let g := max 1 m.gates
  (u / g / 3, u / g % 3, u % g)
def MatBody.rowTiles (m : MatBody) : Nat := m.mTiles * m.batches

/-- Token blocks, output blocks and pairs of a tandem command (R249). -/
def MatBody.tBlocks (m : MatBody) : Nat := m.a.e 1 / 128
def MatBody.jBlocks (m : MatBody) : Nat := m.kTotal / 128
def MatBody.pairs (m : MatBody) : Nat := (m.jBlocks + 1) / 2

/-- A matrix stage of a heat. -/
structure MatCtx where
  h  : Heat
  st : Nat
  m  : MatBody

def MatCtx.prog (x : MatCtx) : Prog := x.h.at x.st
def MatCtx.mask (x : MatCtx) : List Byte := x.prog.mask
def MatCtx.who (x : MatCtx) : Requester := .dma x.h.id.cluster.val

/-- Finished buffers of the stage that are still to be drained. -/
def MatCtx.bufs (x : MatCtx) (d : Dev) : List AccBuf :=
  ((d.mar.acc.map Prod.snd).flatten).filter fun b => b.heat == x.h.id && b.stageNo == x.st

/-- A unit has been computed, and drained. The part of unit `u` is numbered `u + 1`. -/
def MatCtx.ran (x : MatCtx) (u : Nat) : Bool := x.prog.ran.contains (u + 1)
def MatCtx.drained (x : MatCtx) (d : Dev) (u : Nat) : Bool :=
  x.ran u && (x.bufs d).all fun b => b.unit != u

/-- Every gate unit of a row tile has drained (R279). -/
def MatCtx.gated (x : MatCtx) (d : Dev) (r : Nat) : Bool :=
  (List.range x.m.gates).all fun i => x.drained d (x.m.checkUnit r 0 i)

/-- The neurons of a row tile found missed so far (R279). -/
def MatCtx.missedOf (x : MatCtx) (r : Nat) : List Nat :=
  ((x.prog.missed.filter fun y => y.1 == r).map Prod.snd).mergeSort fun a b => decide (a ≤ b)

/-- The neurons of a predicted or make-up unit (R278). -/
def MatCtx.neurons (x : MatCtx) (u : Nat) : List Nat :=
  let c := x.m.checkAt u
  let l := if c.2.1 == 1 then selected x.mask x.m.neurons c.1 else x.missedOf c.1
  (l.drop (128 * c.2.2)).take 128

/-- The units of a stage in order, as far as they are known: a row tile's make-up units once its gate
units have drained (R249, R278, R279). -/
def MatCtx.units (x : MatCtx) (d : Dev) : List Nat :=
  let m := x.m
  if m.tandem then
    ((List.range m.pairs).map fun p =>
      (List.range (m.tBlocks + (if 2 * p + 1 < m.jBlocks then 2 else 1))).map fun i => p * (m.tBlocks + 2) + i).flatten
  else if m.isCheck then
    ((List.range m.rowTiles).map fun r =>
      (List.range m.gates).map (m.checkUnit r 0)
        ++ (List.range (((selected x.mask m.neurons r).length + 127) / 128)).map (m.checkUnit r 1)
        ++ (if x.gated d r then (List.range (((x.missedOf r).length + 127) / 128)).map (m.checkUnit r 2) else [])).flatten
  else List.range m.unitCount

/-- All units are known. -/
def MatCtx.allKnown (x : MatCtx) (d : Dev) : Bool := !x.m.isCheck || (List.range x.m.rowTiles).all (x.gated d)

/-- The plan of a unit. -/
def MatCtx.plan (x : MatCtx) (u : Nat) : UnitPlan :=
  let m := x.m
  let d := shapeDepth m.shape * (if m.rate2 then 2 else 1)
  if m.tandem then
    let p := u / (m.tBlocks + 2)
    let i := u % (m.tBlocks + 2)
    if i < m.tBlocks then
      { core := m.rowCore 0 [], engine := 0, rows := span (128 * i) 128 (m.a.e 1), cols := List.range 128, batch := []
        passes := ([2 * p, 2 * p + 1].filter fun j => decide (j < m.jBlocks)).map fun j => span (128 * j) 128 m.kTotal
        width := 128, depth := 128, dw := false }
    else
      { core := m.partner, engine := 0, rows := List.range 128
        cols := span (128 * (2 * p + (i - m.tBlocks))) 128 m.kTotal, batch := []
        passes := kPasses (m.a.e 1) 128, width := 128, depth := 128, dw := true }
  else if m.isCheck then
    let c := m.checkAt u
    let rt := m.rowTile c.1
    { core := m.rowCore rt.1 rt.2, engine := 0, rows := span (128 * rt.1) 128 (m.a.e 1)
      cols := if c.2.1 == 0 then span (128 * c.2.2) 128 m.neurons else (x.neurons u).map (· + m.neurons)
      batch := rt.2, passes := kPasses m.kTotal d, width := 128, depth := d, dw := false }
  else
    let t := m.unitAt u
    let e := m.engineOf x.h.thresh x.mask u
    let rs := shapeRows m.shape
    let n := shapeWidth m.shape
    let ks := if e == 1 && m.pred.isSome then selected x.mask m.neurons (u / m.nTiles) else span 0 m.kTotal m.kTotal
    { core := m.unitCore u, engine := e, rows := span (rs * t.2.1) rs (m.a.e 1)
      cols := span (n * t.1) n (m.w.e 0), batch := t.2.2
      passes := if e == 1 then [ks] else kPasses m.kTotal d, width := n, depth := d, dw := false }

/-! ### Operands of a unit (R214, R268, R273, R276) -/

def cutIdx (t : Desc) (idx : List Nat) : List Nat := idx.take t.ndim

/-- Index tuples of A at (row, k) and of W at (k, column). -/
def MatBody.aIdx (m : MatBody) (b : List Nat) (row k : Nat) : List Nat :=
  cutIdx m.a ([k % m.kInner, row, k / m.kInner] ++ b)
def MatBody.wIdx (m : MatBody) (b : List Nat) (k col : Nat) : List Nat :=
  cutIdx m.w ([col, k % m.kInner, k / m.kInner] ++ b)

/-- An element of the operand that SPARSE_W selects lies in a region that holds the packed form (R273). -/
def MatBody.packedAt (m : MatBody) (engine : Nat) (idx : List Nat) : Bool :=
  engine == 1 && m.pred.isNone && bit (m.tiles.getD (m.regionAt idx).1 0) 40

/-- The address of a region of the move that feeds compressed mode (R273). -/
def MatBody.regionBase (m : MatBody) (n : Nat) : Nat :=
  match m.feed with
  | none => 0
  | some f => (f.place (f.offset ([0, 0] ++ unravel (f.ext.drop 2) n))).1

/-- Code of A or W at an index tuple, as the unit's engine reads it. -/
def MatBody.codeOf (m : MatBody) (v : View) (engine : Nat) (ofW : Bool) (idx : List Nat) : Nat × Bool :=
  let t := if ofW then m.w else m.a
  if ofW == m.sparseW && m.packedAt engine idx then
    let g := m.regionAt idx
    tileCode t.unit true v (m.regionBase g.1) g.2
  else t.code v idx

/-- Left and right factor of a unit at (row, k) and (k, column). -/
def MatBody.left (m : MatBody) (v : View) (p : UnitPlan) (row k : Nat) : FV × Bool :=
  if p.dw then
    match m.a2 with
    | some t => t.value v (cutIdx t [k % t.e 0, row, k / t.e 0])
    | none => (.nan, false)
  else
    let i := m.aIdx p.batch row k
    m.a.scaled v i (m.codeOf v p.engine false i)

def MatBody.right (m : MatBody) (v : View) (p : UnitPlan) (k col : Nat) : FV × Bool :=
  if p.dw then
    -- the baton: tokens by output features (R123)
    m.a.value v (m.aIdx [] k col)
  else
    let i := m.wIdx p.batch k col
    m.w.scaled v i (m.codeOf v p.engine true i)

/-- A product is taken as +0: an unselected element of A on the array (R276). -/
def MatCtx.maskedOut (x : MatCtx) (p : UnitPlan) (u k : Nat) : Bool :=
  x.m.sparse && x.m.pred.isSome && !x.m.sparseW && p.engine == 0
    && !maskBit x.mask x.m.neurons (u / x.m.nTiles) k

/-! ### The array (R90, R91, R117) -/

def posZero : FV := .fin false 0 0

/-- Adjacent pairs added exactly: the two products of a cell at rate 2 (R90). -/
def cellPairs : List FV → List FV
  | a :: b :: l => a.add b :: cellPairs l
  | l => l

/-- The tree over exact leaves: the first stage rounds sums of leaves. -/
def leafTree (rnd : FV → W32) (add : W32 → W32 → W32) : List FV → W32
  | l =>
    let s := firstStage rnd l
    pairTree add (treeStages s.length) s
where
  firstStage (rnd : FV → W32) : List FV → List W32
    | a :: b :: l => rnd (a.add b) :: firstStage rnd l
    | [a] => [rnd a]
    | [] => []

/-- Upward addition (R117). -/
def addUp (a b : W32) : W32 := froundUp ((fval a).add (fval b))

/-- One pass of a column: the products of `depth` cells, absent ones +0. -/
def passLeaves (p : UnitPlan) (two : Bool) (l : List FV) : List FV :=
  let full := l ++ List.replicate (p.depth - l.length) posZero
  if two then cellPairs full else full

/-- An exact integer as bits. -/
def w32OfInt (i : Int) : W32 := BitVec.ofNat 32 (unsigned 32 i)
def intOf (w : W32) : Int := signed 32 w.toNat

def FV.toInt : FV → Int
  | .fin n m e => (if n then -1 else 1) * (m * 2 ^ e.toNat : Nat)
  | _ => 0

/-- One value of an accumulator over all passes; in integer mode whether it saturated. -/
def arrayValue (integer two : Bool) (p : UnitPlan) (prod : List (List FV)) : W32 × Bool :=
  if integer then
    prod.foldl (fun (a : W32 × Bool) l =>
      let s := intOf a.1 + sumInt (l.map FV.toInt)
      (w32OfInt (satInt 32 s), a.2 || satInt 32 s != s)) (0, false)
  else
    (prod.foldl (fun a l => fadd a (leafTree fround fadd (passLeaves p two l))) fzero, false)

/-- Row sums of a weight tile for one K-element and segment (R117): the sum and the sum of
magnitudes, 128 columns each. -/
def weightSums (ws : List FV) : W32 × W32 :=
  let l := ws ++ List.replicate (128 - ws.length) posZero
  (leafTree fround fadd l, leafTree froundUp addUp (l.map FV.abs))

/-- The exact sum of row `r` of a weight tile in integer mode (R117). -/
def weightExact (ws : List FV) : Int := sumInt (ws.map FV.toInt)

/-- The buffer an array unit leaves (R90, R114, R117). -/
def MatCtx.arrayUnit (x : MatCtx) (v : View) (p : UnitPlan) (u : Nat) : AccBuf :=
  let m := x.m
  let integer := m.integer && !p.dw
  let two := m.rate2 && !p.dw
  let lf := p.rows.map fun r => p.passes.map fun ks => ks.map fun k =>
    (if x.maskedOut p u k then none else some (m.left v p r k).1)
  let cols := p.cols.map fun c => p.passes.map fun ks => ks.map fun k => (m.right v p k c).1
  let mulO := fun (a : Option FV) (b : FV) => match a with | none => posZero | some a => a.mul b
  let vals := lf.map fun a => cols.map fun b =>
    arrayValue integer two p ((a.zip b).map fun y => (y.1.zip y.2).map fun z => mulO z.1 z.2)
  -- the weights of each segment's rows, by pass and K-element
  let rows := (List.range (p.width / 128)).map fun j =>
    (List.range p.passes.length).map fun q => (List.range (p.passes.getD q []).length).map fun i =>
      ((cols.drop (128 * j)).take 128).map fun c => ((c.getD q []).getD i posZero)
  let sums := rows.map fun s => s.map fun q => q.map weightSums
  let absO := fun (a : Option FV) => a.map FV.abs
  let cs := lf.map fun a => sums.map fun s =>
    (a.zip s).foldl (fun acc y => fadd acc (leafTree fround fadd (passLeaves p two
      ((y.1.zip y.2).map fun z => mulO z.1 (fval z.2.1))))) fzero
  let hs := lf.map fun a => sums.map fun s =>
    (a.zip s).foldl (fun acc y => addUp acc (leafTree froundUp addUp (passLeaves p two
      ((y.1.zip y.2).map fun z => mulO (absO z.1) (fval z.2.2))))) fzero
  let ex := lf.map fun a => rows.map fun s =>
    sumInt ((a.zip s).map fun y => sumInt ((y.1.zip y.2).map fun z =>
      (match z.1 with | none => 0 | some f => f.toInt) * weightExact z.2))
  { heat := x.h.id, stageNo := x.st, unit := u, integer := integer, passes := p.passes.length
    vals := vals.map fun r => r.map Prod.fst, c := if integer then [] else cs, h := if integer then [] else hs
    exact := if integer then ex else [], satRows := vals.map fun r => r.any Prod.snd, sparse := false }

/-! ### The sparse engine (R268, R271, R276) -/

/-- The K-elements the engine issues for a row and column: nonzeros of the compressed operand, or every
selected one. -/
def MatBody.issued (m : MatBody) (v : View) (p : UnitPlan) (row k col : Nat) : Bool :=
  m.pred.isSome ||
    (if m.sparseW then
      let i := m.wIdx p.batch k col
      !m.w.fmt.isZeroCode (m.codeOf v p.engine true i).1
    else
      let i := m.aIdx p.batch row k
      !m.a.fmt.isZeroCode (m.codeOf v p.engine false i).1)

/-- A sequential sum of exact products (R92). -/
def seqSum (integer : Bool) (l : List FV) : W32 × Bool :=
  if integer then
    l.foldl (fun (a : W32 × Bool) x =>
      let s := intOf a.1 + x.toInt
      (w32OfInt (satInt 32 s), a.2 || satInt 32 s != s)) (0, false)
  else (l.foldl (fun a x => fround ((fval a).add x)) fzero, false)

def seqUp (l : List FV) : W32 := l.foldl (fun a x => froundUp ((fval a).add x)) fzero

/-- The buffer a sparse-engine unit leaves (R268, R271). -/
def MatCtx.sparseUnit (x : MatCtx) (v : View) (p : UnitPlan) (u : Nat) : AccBuf :=
  let m := x.m
  let ks := p.passes.flatten
  let term := fun r k c => if m.issued v p r k c then some ((m.left v p r k).1.mul (m.right v p k c).1) else none
  let vals := p.rows.map fun r => p.cols.map fun c => seqSum m.integer (ks.filterMap fun k => term r k c)
  -- where the dense operand is the weights, a row's products enter by the weights' row sums
  let weights := fun k => p.cols.map fun c => (m.right v p k c).1
  let terms := fun r =>
    if m.sparseW then (ks.map fun k => p.cols.filterMap fun c => (term r k c).map fun f => (f, f.abs, f.toInt)).flatten
    else ks.filterMap fun k =>
      if m.issued v p r k 0 then
        let a := (m.left v p r k).1
        let s := weightSums (weights k)
        some (a.mul (fval s.1), a.abs.mul (fval s.2), a.toInt * weightExact (weights k))
      else none
  { heat := x.h.id, stageNo := x.st, unit := u, integer := m.integer, passes := m.kTotal
    vals := vals.map fun r => r.map Prod.fst
    c := if m.integer then [] else p.rows.map fun r => [(seqSum false ((terms r).map Prod.fst)).1]
    h := if m.integer then [] else p.rows.map fun r => [seqUp ((terms r).map fun y => y.2.1)]
    exact := if m.integer then p.rows.map fun r => [sumInt ((terms r).map fun y => y.2.2)] else []
    satRows := vals.map fun r => r.any Prod.snd, sparse := true }

/-! ### The checksum test (R118) -/

/-- One segment of one output row: in integer mode exact, in floating point within the bound. -/
def exactOk (out : List W32) (c : Int) : Bool := sumInt (out.map intOf) == c

def segmentOk (passes : Nat) (out : List W32) (c h : W32) : Bool :=
  if fNonFinite c || fNonFinite h || out.any fNonFinite then true
  else
    let t := treeSum (out ++ List.replicate (128 - out.length) fzero)
    let bound := ((FV.fin false (32 + 2 * passes) (-24)).mul (fval h)).add (.fin false 1 (-126))
    !bound.lt ((fval c).add (fval t).neg).abs

/-- Accumulator words flipped by an upset of the hardware: index in the buffer and the bits. -/
def upsetRow (width r : Nat) (upset : List (Nat × W32)) (row : List W32) : List W32 :=
  let full := row ++ List.replicate (width - row.length) fzero
  upset.foldl (fun l x => if x.1 / width == r then l.set (x.1 % width) (l.getD (x.1 % width) 0 ^^^ x.2) else l) full

/-- A buffer with an upset, its rows as wide as the buffer. -/
def AccBuf.hit (b : AccBuf) (width : Nat) (upset : List (Nat × W32)) : AccBuf :=
  { b with vals := b.vals.mapIdx fun r row => upsetRow width r upset row }

/-- Every output row passes in every segment; a row that saturated passes. -/
def AccBuf.passesTest (b : AccBuf) : Bool :=
  (List.range b.vals.length).all fun r =>
    let row := b.vals.getD r []
    let seg := fun j => (row.drop (128 * j)).take 128
    if b.integer then
      let cs := b.exact.getD r []
      b.satRows.getD r false || (List.range cs.length).all fun j => exactOk (seg j) (cs.getD j 0)
    else
      let cs := b.c.getD r []
      (List.range cs.length).all fun j => segmentOk b.passes (seg j) (cs.getD j 0) ((b.h.getD r []).getD j 0)

/-! ### What a unit reads (R148, R232, R270) -/

/-- The bytes of an element and of its scale. -/
def Desc.elemPlaces (t : Desc) (idx : List Nat) : List (Nat × Nat) :=
  let s := t.scalePlace idx
  t.place (t.offset idx) :: (if s.2 == 0 then [] else [s])

/-- The places of an operand's element as the unit's engine reads it: the packed form whole (R273). -/
def MatBody.readPlaces (m : MatBody) (engine : Nat) (ofW : Bool) (idx : List Nat) : List (Nat × Nat) :=
  if ofW == m.sparseW && m.packedAt engine idx then
    let n := (m.regionAt idx).1
    [(m.regionBase n, 2048 + tileCount (m.tiles.getD n 0) * (if ofW then m.w else m.a).unit)]
  else (if ofW then m.w else m.a).elemPlaces idx

/-- The 64 B pond rows that hold a place (R270). -/
def rowsOf64 (p : Nat × Nat) : Nat × Nat := (p.1 / 64 * 64, (p.1 % 64 + p.2 + 63) / 64 * 64)

/-- The K-elements of a sparse unit whose dense operand is multiplied: those with a nonzero (R270). -/
def MatBody.usedK (m : MatBody) (v : View) (p : UnitPlan) : List Nat :=
  p.passes.flatten.filter fun k =>
    if m.sparseW then p.cols.any fun c => m.issued v p 0 k c else p.rows.any fun r => m.issued v p r k 0

/-- What a unit reads, by operand: its places, the accessor that reads them, and whether they are kept. -/
def MatBody.unitReads (m : MatBody) (v : View) (p : UnitPlan) : List (List (Nat × Nat) × Nat × Bool) :=
  let ks := p.passes.flatten
  let grid := fun (l : List Nat) (ks : List Nat) (f : Nat → Nat → List (Nat × Nat)) =>
    nub (l.map fun i => (ks.map fun k => f i k).flatten).flatten []
  if p.dw then
    [((m.a2.map fun t => grid p.rows ks fun r k => t.elemPlaces (cutIdx t [k % t.e 0, r, k / t.e 0])).getD [], accA, false),
     (grid p.cols ks fun c k => m.a.elemPlaces (m.aIdx [] k c), accA, m.keepA)]
  else if p.engine == 1 then
    let used := m.usedK v p
    [(nub ((grid p.rows (if m.sparseW then used else ks) fun r k => m.readPlaces 1 false (m.aIdx p.batch r k)).map rowsOf64) [],
        accSparse, m.keepA),
     (nub ((grid p.cols (if m.sparseW then ks else used) fun c k => m.readPlaces 1 true (m.wIdx p.batch k c)).map rowsOf64) [],
        accSparse, m.keepW)]
  else
    [(grid p.rows ks fun r k => m.readPlaces 0 false (m.aIdx p.batch r k), accA, m.keepA),
     (grid p.cols ks fun c k => m.readPlaces 0 true (m.wIdx p.batch k c), accW, m.keepW)]

/-- Slots of operands that the command empties (R140): A and W unless they are kept. -/
def MatBody.emptied (m : MatBody) : List Nat :=
  let l := (if m.keepA then [] else [m.a]) ++ (if m.keepW then [] else [m.w]) ++ m.a2.toList ++ m.bias.toList
    ++ m.acc2.toList ++ (if m.tandem then [] else m.accSrc.toList)
  nub (l.map Desc.slots).flatten []

/-! ### Weight buffers (R105, R111, R112, R117) -/

/-- Key of a logical core's array in the marshal's tables, and of one of its buffers. -/
def coreKey (c core : Nat) : Nat := c * 16 + core
def accKey (c core b : Nat) : Nat := coreKey c core * 3 + b

/-- The weight tile of a pass: physical row by physical row, segment after segment (R107). -/
def MatCtx.weightTile (x : MatCtx) (v : View) (p : UnitPlan) (u q : Nat) : WBuf :=
  let m := x.m
  let ks := p.passes.getD q []
  let rows := ((List.range (p.width / 128)).map fun j => ks.map fun k => ((p.cols.drop (128 * j)).take 128).map fun c => (k, c)).flatten
  let t := if p.dw then m.a else m.w
  let idx := fun (y : Nat × Nat) => if p.dw then m.aIdx [] y.1 y.2 else m.wIdx p.batch y.1 y.2
  let scaleBytes := fun (l : List (Nat × Nat)) =>
    if t.fmt.isMx then (nub (l.map fun y => (t.scalePlace (idx y)).1) []).map fun a => (v a).1.toNat else []
  let vals := fun (l : List (Nat × Nat)) => l.map fun y => (m.right v p y.1 y.2).1
  { heat := x.h.id, stageNo := x.st, tile := [p.cols.headD 0, p.cols.length, q, b2n p.dw, u * b2n m.isCheck] ++ p.batch
    codes := rows.map fun l => l.map fun y => if p.dw then (t.code v (idx y)).1 else (m.codeOf v p.engine true (idx y)).1
    scales := rows.map scaleBytes, sums := rows.map fun l => weightSums (vals l)
    exact := if m.integer && !p.dw then rows.map fun l => weightExact (vals l) else [] }

/-- A weight tile is used: the live buffer where it holds it, else the other one is filled and the array
swaps (R112). -/
def Dev.useWeights (d : Dev) (key : Nat) (b : WBuf) : Dev :=
  let live := AMap.get 0 d.mar.wlive key
  let put := fun (n : Nat) =>
    { d with mar := { d.mar with
      weights := AMap.set none d.mar.weights (2 * key + n) (some b), wlive := AMap.set 0 d.mar.wlive key n } }
  match AMap.get none d.mar.weights (2 * key + live) with
  | none => put live
  | some o => if o.heat == b.heat && o.stageNo == b.stageNo && o.tile == b.tile then d else put (1 - live)

/-- The operand store of a sparse engine after a unit: the rows of both operands of its last K-tile (R267). -/
def MatCtx.storeRows (x : MatCtx) (v : View) (p : UnitPlan) : List (List Nat) :=
  let ks := p.passes.flatten
  let last := ks.filter fun k => k / 128 == ks.getLastD 0 / 128
  (p.rows.map fun r => last.map fun k => (x.m.codeOf v 1 false (x.m.aIdx p.batch r k)).1)
    ++ last.map fun k => p.cols.map fun c => (x.m.codeOf v 1 true (x.m.wIdx p.batch k c)).1

/-! ### Computing units (R112, R114, R121, R230, R250) -/

/-- The array on which a unit runs: its core's, or that of the core that serves a fenced one (R121). -/
def MatCtx.array (x : MatCtx) (d : Dev) (u : Nat) : Nat := d.host x.h.id.cluster.val (x.plan u).core

/-- The empty accumulator buffer that a unit takes: buffers alternate (R114, R251); the dW tiles of a pair
take A0 and A1 once both are empty (R250); the sparse engine has one. -/
def MatCtx.bufFor (x : MatCtx) (d : Dev) (u : Nat) : Option Nat :=
  let p := x.plan u
  let key := accKey x.h.id.cluster.val (x.array d u)
  let empty := fun b => (AMap.get [] d.mar.acc (key b)).isEmpty
  let b :=
    if p.engine == 1 then 2
    else if p.dw then u % (x.m.tBlocks + 2) - x.m.tBlocks
    else count (fun t => x.ran t && (x.plan t).engine == 0 && !(x.plan t).dw && x.array d t == x.array d u) (x.units d) % 2
  if empty b && (!p.dw || b != 0 || empty 1) then some (key b) else none

/-- A unit is computed into its buffer; the weight buffers and the operand store hold what it read. -/
def MatCtx.compute (x : MatCtx) (u key : Nat) (v : View) (w : Wk) : Wk × Bool :=
  let p := x.plan u
  let b := if p.engine == 1 then x.sparseUnit v p u else x.arrayUnit v p u
  let core := key / 3
  let w := w.up fun d =>
    let d := { d with mar := { d.mar with acc := AMap.set [] d.mar.acc key [b] } }
    if p.engine == 1 then { d with mar := { d.mar with store := AMap.set [] d.mar.store core (x.storeRows v p) } }
    else (List.range p.passes.length).foldl (fun d q => d.useWeights core (x.weightTile v p u q)) d
  (w.upHeat x.h.id fun y => { y with sat := y.sat || b.satRows.any id }, true)

/-- The part that computes a unit. Its operands stay until what it leaves has passed its test (R119, log
entry 112). -/
def MatCtx.unitPart (x : MatCtx) (w : Wk) (u : Nat) : Part :=
  let p := x.plan u
  let core := x.array w.dev u
  { no := u + 1, who := x.who, lane := 2 * core + p.engine
    engines := nub [3 * p.core + p.engine, 3 * core + p.engine] []
    reads := (x.m.unitReads w.mem.view p).map fun y => ⟨u + 1, y.1, y.2.1, false⟩
    full := [], writes := [], slots := [], wacc := accA, ready := (x.bufFor w.dev u).isSome
    run := fun v w => match x.bufFor w.dev u with
      | some key => x.compute u key (v (u + 1)) w
      | none => (w, false) }

/-! ### Compressed outputs (R174) -/

/-- The tensors that a matrix stage stores through tile maps. -/
def MatBody.mapped (m : MatBody) : List Desc := (m.out.toList ++ m.out2.toList).filter fun t => t.tileMap != 0

/-- The tile maps are read first. -/
def MatCtx.mapsPart (x : MatCtx) : Part :=
  { wordsPart x.who [⟨0, (x.m.mapped.map Desc.mapFetch).flatten, accDrain, false⟩] accDrain x.h.id x.st
      (fun v _ => .ok ((x.m.mapped.map fun t => t.mapWords v).flatten)) with no := 2 ^ 34 }

/-- Tiles in the maps, and where those of the second begin. -/
def MatBody.mapTiles (m : MatBody) : Nat := (m.mapped.map Desc.tiles).foldl (· + ·) 0
def MatBody.mapAt (m : MatBody) (dw : Bool) : Nat := if dw then m.mapTiles - ((m.out2.map Desc.tiles).getD 0) else 0

/-- Data of drained tiles is still to be acknowledged. -/
def MatCtx.writing (x : MatCtx) (d : Dev) : Bool :=
  d.hbm.reqs.any fun r => r.isOf x.h && !r.kind.isRead && r.stage == x.st && r.grp / 2 ^ 32 == 1

/-- The part that writes the `i`th entry that drains have left, once its data is written. -/
def MatCtx.entryPart (x : MatCtx) (w : Wk) (i : Nat) : Part :=
  let n := (x.prog.words.getD (x.m.mapTiles + i) (0, false)).1
  let e := x.prog.words.getD n (0, false)
  let first := ((x.m.mapped.head?).map Desc.tiles).getD 0
  let t := if n < first then x.m.mapped.head? else x.m.mapped.getLast?
  let a := (t.map fun t => t.tileMap + 8 * (if n < first then n else n - first)).getD 0
  { no := 2 ^ 33 + i, who := x.who, lane := 1000, engines := [], reads := [], full := [], writes := [(a, 8)]
    slots := pondSlots [(a, 8)], wacc := accDrain, ready := !x.writing w.dev
    run := fun _ w => w.store x.h.id x.who x.st (2 ^ 33 + i) [(a, leBytes 8 e.1, e.2)] [] false }

/-- Partial slots of a tandem command that needs them (R251). -/
def MatBody.partials (m : MatBody) : Option Desc := if m.tandem && 1 < m.pairs then m.accSrc else none

/-- What is left of a matrix stage: its units, and the tile-map entries that follow their data. -/
def matrixPlan (st : Nat) (m : MatBody) (w : Wk) (h : Heat) : Plan :=
  let x : MatCtx := ⟨h, st, m⟩
  if !m.mapped.isEmpty && !x.prog.begun then ⟨[x.mapsPart], false, []⟩
  else
    ⟨(x.units w.dev).map (x.unitPart w) ++ (List.range (x.prog.words.length - m.mapTiles)).map (x.entryPart w),
      x.allKnown w.dev && (x.bufs w.dev).isEmpty, (m.partials.map Desc.slots).getD []⟩

/-- DENSE_MATRIX (R214): units run into accumulator buffers, which DRAIN empties. -/
def execDenseMatrix (h : HeatId) (s : State) : Host.Outcome State Fault Refusal :=
  done s fun w => w.withHeat h fun x w =>
    match x.body with
    | .stage (.matrix m) => if m.sparse then w else w.stage (matrixPlan 0 m) h 0
    | _ => w

/-- SPARSE_MATRIX (R214, R272). -/
def execSparseMatrix (h : HeatId) (s : State) : Host.Outcome State Fault Refusal :=
  done s fun w => w.withHeat h fun x w =>
    match x.body with
    | .stage (.matrix m) => if m.sparse then w.stage (matrixPlan 0 m) h 0 else w
    | _ => w

/-! ### The drain (R125, R126, R251, R279) -/

/-- Activation in the drain or on the vector unit (R215). -/
def activate (act : Nat) (clamp x : W32) : W32 :=
  match act with
  | 1 => if fIsNan x then fnan else if (fval fzero).lt (fval x) then x else fzero
  | 2 => if fIsNan x then fnan else fmin (fmax x (fneg clamp)) clamp
  | 3 => approxFn .gelu x
  | 4 => approxFn .silu x
  | 5 => approxFn .sigmoid x
  | 6 => approxFn .tanh x
  | _ => x

/-- What the drain does with one value: scale, partial, bias, activation; the accumulator's value stays
exact until a stage rounds it. -/
def drainValue (x : FV) (scale partial_ bias : Option W32) (act : Option (Nat × W32)) : FV :=
  let x := match scale with | some s => fval (fround (x.mul (fval s))) | none => x
  let x := match partial_ with | some p => fval (fround (x.add (fval p))) | none => x
  let x := match bias with | some b => fval (fround (x.add (fval b))) | none => x
  match act with
  | some a => fval (activate a.1 a.2 (fround x))
  | none => x

/-- The value an accumulator word holds. -/
def AccBuf.value (b : AccBuf) (r c : Nat) : FV :=
  let w := (b.vals.getD r []).getD c fzero
  if b.integer then .fin (decide (intOf w < 0)) (intOf w).natAbs 0 else fval w

/-- Where a unit's values go. -/
structure DrainTo where
  out     : Option Desc
  route   : Option Route
  stages  : Nat
  tile    : Nat
  /-- index tuple in OUT of buffer place (row, column) -/
  place   : List (List (List Nat))
deriving DecidableEq, Repr

/-- Destination of a unit: OUT of a product, or OUT2 of a dW tile. -/
def MatCtx.drainTo (x : MatCtx) (u : Nat) : DrainTo :=
  let m := x.m
  let p := x.plan u
  if p.dw then
    { out := m.out2, route := m.route2, stages := m.stages2, tile := (p.cols.headD 0) / 128
      place := p.rows.map fun r => p.cols.map fun c => ((m.out2.map fun o => cutIdx o [c, r, 0]).getD []) }
  else
    { out := m.out, route := m.route, stages := m.stages
      tile := if m.tandem then u % (m.tBlocks + 2) else u
      place := p.rows.map fun r => p.cols.map fun c => ((m.out.map fun o => cutIdx o ([c, r, 0] ++ p.batch)).getD []) }

/-- Iteration position in the partial slots of a tandem's token block (R251): row-major. -/
def partialIdx (acc : Desc) (row col : Nat) : List Nat := unravel acc.ext (128 * row + col)

/-- A tandem's dX unit of an output-block pair before the last: its values go to the partial slots (R251). -/
def MatCtx.mid (x : MatCtx) (u : Nat) : Bool :=
  x.m.tandem && !(x.plan u).dw && decide (u / (x.m.tBlocks + 2) + 1 < x.m.pairs)

/-- The tile's discard bit is set (R125, R252). -/
def MatCtx.discarded (x : MatCtx) (u : Nat) : Bool :=
  let t := x.drainTo u
  bit t.stages 0 && x.m.discard.contains t.tile && !x.mid u

/-- The partials that stage 4 adds to a unit (R125, R251). -/
def MatCtx.accOf (x : MatCtx) (u : Nat) : Option Desc :=
  if x.discarded u then none
  else if (x.plan u).dw then (if bit x.m.stages2 2 then x.m.acc2 else none)
  else if x.m.tandem then (if u / (x.m.tBlocks + 2) == 0 then none else x.m.accSrc)
  else if bit x.m.stages 2 then x.m.accSrc else none

/-- The element of a partial tensor for buffer place (r, c). -/
def MatCtx.accIdx (x : MatCtx) (u : Nat) (a : Desc) (r c : Nat) : List Nat :=
  if x.m.tandem && !(x.plan u).dw then partialIdx a ((x.plan u).rows.getD r 0) c
  else cutIdx a ((((x.drainTo u).place.getD r []).getD c []))

/-- The bias of a unit's columns (R125). -/
def MatCtx.biasOf (x : MatCtx) (u : Nat) : Option Desc :=
  if bit (x.drainTo u).stages 3 && !x.mid u && !(x.plan u).dw && !x.discarded u && (x.drainTo u).route.isNone then x.m.bias
  else none

/-- Buffer places of a unit. -/
def UnitPlan.grid (p : UnitPlan) : List (Nat × Nat) :=
  ((List.range p.rows.length).map fun r => (List.range p.cols.length).map fun c => (r, c)).flatten

/-- What the drain of a unit reads: partials and bias. -/
def MatCtx.drainReads (x : MatCtx) (u : Nat) : List Rd :=
  let p := x.plan u
  ((x.accOf u).toList.map fun a =>
      ⟨0, p.grid.map fun y => a.place (a.offset (x.accIdx u a y.1 y.2)), accDrain, !x.m.tandem || p.dw⟩)
    ++ (x.biasOf u).toList.map fun t => ⟨0, p.cols.map fun c => t.place (t.offset [c]), accDrain, true⟩

/-- The up columns that a gate unit's drain may write (R279): of its neurons that the mask leaves out. -/
def MatCtx.upCols (x : MatCtx) (u : Nat) (js : List Nat) : List (List Nat) :=
  let p := x.plan u
  (js.map fun j => p.rows.map fun row =>
    (x.m.out.map fun o => cutIdx o ([x.m.neurons + j, row, 0] ++ p.batch)).getD []).flatten

/-- Where the drain of a unit may write. -/
def MatCtx.outPlaces (x : MatCtx) (u : Nat) : List (Nat × Nat) :=
  let p := x.plan u
  let t := x.drainTo u
  if x.mid u then
    (x.m.accSrc.map fun a => p.grid.map fun y => a.place (a.offset (x.accIdx u a y.1 y.2))).getD []
  else
    match t.out with
    | none => []
    | some o =>
      if o.tileMap != 0 then []
      else
        let quiet := if x.m.isCheck && (x.m.checkAt u).2.1 == 0 then
          x.upCols u (p.cols.filter fun j => !maskBit x.mask x.m.neurons (x.m.checkAt u).1 j) else []
        ((t.place.flatten ++ quiet).map o.writePlaces).flatten

/-- Up columns of missed neurons whose make-up units are still to come (R279). -/
def MatCtx.pendingUps (x : MatCtx) (d : Dev) : List (Nat × Nat) :=
  match x.m.out with
  | none => []
  | some o => (((List.range x.m.rowTiles).filter fun r => x.m.isCheck && !x.gated d r).map fun r =>
      ((x.upCols (x.m.checkUnit r 0 0) (x.missedOf r)).map o.writePlaces).flatten).flatten

/-- The buffer's 16,384 values in row-major order after its stages, absent places +0 (R126). -/
def AccBuf.relayValues (b : AccBuf) (width : Nat) (f : Nat → Nat → FV) : List W32 :=
  ((List.range (16384 / width)).map fun r => (List.range width).map fun c =>
    if r < b.vals.length ∧ c < (b.vals.getD r []).length then fround (f r c) else fzero).flatten

/-- Bytes that pieces will leave at an address, over a view. -/
def overlay (v : View) (ps : List Piece) : View := fun a =>
  ps.foldl (fun r p => if p.1 ≤ a ∧ a < p.1 + p.2.1.length then (p.2.1.getD (a - p.1) 0, p.2.2) else r) (v a)

/-- A buffer leaves the core. -/
def Dev.dropBuf (d : Dev) (key : Nat) : Dev :=
  { d with mar := { d.mar with acc := AMap.erase d.mar.acc key } }

/-- What stages 3 to 6 make of the value at buffer place (r, c). -/
def MatCtx.value (x : MatCtx) (v : View) (b : AccBuf) (r c : Nat) : FV :=
  let u := b.unit
  let p := x.plan u
  let t := x.drainTo u
  let plain := x.mid u || p.dw || t.route.isSome
  let gate := !x.m.isCheck || decide (p.cols.getD c 0 < x.m.neurons)
  drainValue (b.value r c) (if bit t.stages 1 then some x.m.scale else none)
    ((x.accOf u).map fun a => (a.f32 v (x.accIdx u a r c)).1)
    ((x.biasOf u).map fun t => (t.f32 v [p.cols.getD c 0]).1)
    (if bit t.stages 4 && !plain && gate then some (x.m.act, x.m.clamp) else none)

/-- After a gate unit (R279): the true set of its block, what is written for it, and the neurons
missed. -/
def MatCtx.gateEffects (x : MatCtx) (o : Desc) (v : View) (u : Nat) :
    List Nat × List (List Nat × Datum × Bool) × List Piece :=
  let m := x.m
  let p := x.plan u
  let r := (m.checkAt u).1
  let active := p.cols.filter fun j => p.rows.any fun row =>
    !o.fmt.isZeroCode (o.code v (cutIdx o ([j, row, 0] ++ p.batch))).1
  let quiet := p.cols.filter fun j => !active.contains j && !maskBit x.mask m.neurons r j
  let first := p.cols.headD 0
  let t := leBytes 16 ((active.map fun j => 2 ^ (j - first)).foldl (· + ·) 0)
  let mask := match m.pred with
    | some q => [((q.place (q.offset [first / 8, r])).1, t, false)]
    | none => []
  (active.filter fun j => !maskBit x.mask m.neurons r j, (x.upCols u quiet).map fun i => (i, .val posZero, false), mask)

/-- What the drain of a unit writes: pieces, atomic updates, and the neurons it has found missed. Elements of
an MX block that other units hold keep what they hold (log entry 114). -/
def MatCtx.output (x : MatCtx) (v : View) (b : AccBuf) (o : Desc) : List Piece × List AtomOp × List Nat :=
  let u := b.unit
  let p := x.plan u
  let idx := (x.drainTo u).place
  let all := p.grid.map fun y => ((idx.getD y.1 []).getD y.2 [], Datum.val (x.value v b y.1 y.2), false)
  let store := fun (l : List (List Nat × Datum × Bool)) => o.piecesOn v x.h.ovf (l.map Prod.fst) o.stands (o.after v l)
  let fold := o.foldOf (all.map Prod.snd)
  if o.wmode == 2 then ([], o.accAtoms all ++ fold, [])
  else
    let ps := store all
    if x.m.isCheck && (x.m.checkAt u).2.1 == 0 then
      let g := x.gateEffects o (overlay v ps) u
      (ps ++ store g.2.1 ++ g.2.2, fold, g.1)
    else (ps, fold, [])

/-- The tiles of a compressed OUT that hold elements of a unit, as they are stored: the data, and the entry
(R174). Elements of a tile that other units hold keep what they hold. -/
def MatCtx.tileOutput (x : MatCtx) (v : View) (b : AccBuf) (o : Desc) : List (Nat × Piece × Piece) :=
  let p := x.plan b.unit
  let idx := (x.drainTo b.unit).place
  let all := p.grid.map fun y => ((idx.getD y.1 []).getD y.2 [], Datum.val (x.value v b y.1 y.2), false)
  (nub (all.map fun y => (o.tileOf y.1).1) []).map fun n => (n, o.tileStore v x.h.ovf n (o.after v all))

/-- A finished unit's stores and sends (R125, R126, R174, R251, R279). -/
def MatCtx.send (x : MatCtx) (b : AccBuf) (w : Wk) : Wk × Bool :=
  let u := b.unit
  let t := x.drainTo u
  let no := 2 ^ 32 + u
  let v := w.view x.h.id x.st no
  if x.discarded u then (w, true)
  else if x.mid u then
    match x.m.accSrc with
    | none => (w, true)
    | some a =>
      let l := (x.plan u).grid.map fun y => (x.accIdx u a y.1 y.2, Datum.val (x.value v b y.1 y.2), false)
      w.store x.h.id x.who x.st no (l.map fun y => a.piece v x.h.ovf y.1 y.2) (a.foldOf (l.map Prod.snd)) false
  else match t.route, t.out with
    | some r, _ =>
      (w.sendSegment x.h.id r (x.m.rseg.toNat + t.tile) (b.relayValues (x.plan u).width (x.value v b)), true)
    | none, none => (w, true)
    | none, some o =>
      if o.tileMap != 0 then
        let at_ := x.m.mapAt (x.plan u).dw
        let q := x.tileOutput (o.knowing v (x.prog.words.drop at_)) b o
        match w.store x.h.id x.who x.st no (q.map fun y => y.2.1) [] false with
        | (w, false) => (w, false)
        | (w, true) => (w.upHeat x.h.id fun y => y.upAt x.st fun g =>
            { g with words := q.foldl (fun l z => l.set (at_ + z.1) (leNat z.2.2.2.1, z.2.2.2.2)) g.words
                ++ q.map fun z => (at_ + z.1, false) }, true)
      else
        let q := x.output v b o
        match w.store x.h.id x.who x.st no q.1 q.2.1 false with
        | (w, false) => (w, false)
        | (w, true) => (w.upHeat x.h.id fun y => y.upAt x.st fun g =>
            { g with missed := g.missed ++ q.2.2.map fun j => ((x.m.checkAt u).1, j) }, true)

/-- The operand slots that are read for the last time with a unit (R140): those that no unit still to be
drained reads, and after the last unit all that are left. -/
def MatCtx.lastRead (x : MatCtx) (w : Wk) (u : Nat) : List Nat :=
  let v := w.mem.view
  let slots := fun (t : Nat) => pondSlots
    ((((x.m.unitReads v (x.plan t)).filter fun y => !y.2.2).map Prod.fst).flatten
      ++ (((x.drainReads t).filter Rd.use).map Rd.pl).flatten)
  let others := (x.units w.dev).filter fun t => t != u && !x.drained w.dev t
  let later := (others.map slots).flatten
  let done := others.isEmpty && x.allKnown w.dev
  (nub (if done then x.m.emptied else slots u) []).filter fun g => !later.contains g && !x.prog.going.contains g

/-- The drain of a unit as a part: what it reads, and the slots that it writes. -/
def MatCtx.drainPart (x : MatCtx) (b : AccBuf) : Part :=
  let pl := x.outPlaces b.unit
  { no := 2 ^ 32 + b.unit, who := x.who, lane := 0, engines := [], full := []
    reads := (x.drainReads b.unit).map fun r => { r with use := false }
    writes := pl, slots := pondSlots pl, wacc := accDrain, ready := true, run := fun _ w => x.send b w }

/-- What holds a drain up (R119, R139, R140): the slots that it reads and writes. A tandem's partial slots
are the command's own: it claims them and makes none FULL (R251). -/
def MatCtx.drainBlocks (x : MatCtx) (w : Wk) (b : AccBuf) : List Wait :=
  let own := x.lastRead w b.unit
  let part := x.drainPart b
  let mine := fun g => x.m.partials.isSome && x.h.claims.contains g && !w.dev.copyingSlot g
  (w.dev.blocks x.h x.st [] part).filter fun y => if y.writer then !own.contains y.slot else !mine y.slot

/-- The stage ends when no unit is left (R201). -/
def Wk.matrixEnd (w : Wk) (m : MatBody) (id : HeatId) (st : Nat) : Wk :=
  match w.dev.heat id with
  | none => w
  | some h =>
    let pl := matrixPlan st m w h
    if pl.whole && (pl.undone h st).isEmpty && h.mayRun then w.up fun d => d.finish id st pl.temps else w

/-- Slots become FULL with the last write of the stage (R139): those of a unit that no other still writes. -/
def MatCtx.filled (x : MatCtx) (d : Dev) (u : Nat) : List Nat :=
  if x.mid u then []
  else
    let others := (x.units d).filter fun t => t != u && !x.drained d t
    let later := pondSlots ((others.map x.outPlaces).flatten ++ x.pendingUps d)
    (pondSlots (x.outPlaces u)).filter fun g => !later.contains g

/-- Stages 2 to 8 of a buffer that has passed its test, as far as nothing holds them up. -/
def Wk.drainOut (w : Wk) (x : MatCtx) (b : AccBuf) (key : Nat) : Wk :=
  let p := x.drainPart b
  let ws := x.drainBlocks w b
  let note := fun (l : List Wait) => w.upHeat x.h.id fun y =>
    { y with waits := (y.waits.filter fun z => z.part != partKey x.st p.no) ++ l }
  if !ws.isEmpty then note ws
  else if !w.dev.partTurns p || (!x.m.mapped.isEmpty && x.writing w.dev) then note []
  else
    match firstPoison w.mem.view (pondPlaces (p.reads.map Rd.pl).flatten) with
    | some a => w.up fun d => d.pondPoisonHeat x.h a
    | none =>
      let gone := x.lastRead w b.unit
      let w := (note []).up fun d => ((d.consume x.h.id x.st gone).claimFor x.h.id p.slots)
      match x.send b w with
      | (w, false) => w
      | (w, true) =>
        let w := (w.up fun d => d.dropBuf key).upHeat x.h.id fun y => y.upAt x.st fun g => { g with going := g.going ++ gone }
        let w := w.up fun d => match d.heat x.h.id with
          | some y => d.fillFor x.h.id ((⟨y, x.st, x.m⟩ : MatCtx).filled d b.unit)
          | none => d
        w.matrixEnd x.m x.h.id x.st

/-- A unit is to be computed again. -/
def Dev.again (d : Dev) (b : AccBuf) : Dev :=
  d.setHeat b.heat fun x => x.upAt b.stageNo fun g => { g with ran := g.ran.filter fun n => n != b.unit + 1 }

/-- A mismatch (R119, R121): nothing is written, the core is fenced, and what it had not drained is
accumulated again. -/
def Wk.mismatch (w : Wk) (c core : Nat) : Wk :=
  w.up fun d =>
    let keys := [accKey c core 0, accKey c core 1, accKey c core 2]
    let lost := (keys.map fun k => AMap.get [] d.mar.acc k).flatten
    (keys.foldl Dev.dropBuf (lost.foldl Dev.again d)).fence c core (arrayFault 0)

/-- The full buffers of a core, with their heats, in the order they are drained. -/
def Dev.toDrain (d : Dev) (c core : Nat) : Option (Nat × AccBuf × Heat) :=
  let l := [0, 1, 2].filterMap fun b =>
    match AMap.get [] d.mar.acc (accKey c core b) with
    | x :: _ => (d.heat x.heat).map fun h => (accKey c core b, x, h)
    | [] => none
  l.foldl (fun r x => match r with
    | none => some x
    | some y =>
      if x.2.2.order < y.2.2.order ∨ (x.2.2.order = y.2.2.order ∧ x.2.1.unit < y.2.1.unit) then some x else some y) none

/-- A stage of a heat that is a matrix stage. -/
def Heat.matrixAt (h : Heat) (st : Nat) : Option MatBody :=
  match h.body.stages[st]? with
  | some (.matrix m) => some m
  | _ => none

/-- DRAIN (R118, R119, R125): the next finished buffer of a core is tested and drained; `upset` are bits
that a fault of the hardware has flipped in it. What passes the test is drained as it stands. -/
def execDrain (cluster : Fin 128) (core : Fin 16) (upset : List (Nat × BitVec 32)) (s : State) :
    Host.Outcome State Fault Refusal :=
  done s fun w =>
    match w.dev.toDrain cluster.val core.val with
    | none => w
    | some (key, b, h) =>
      match h.matrixAt b.stageNo with
      | none => w
      | some m =>
        if h.state != .running then w.up fun d => d.dropBuf key
        else if AMap.get 0 w.dev.flt.copying cluster.val == core.val + 1 then w
        else
          let x : MatCtx := ⟨h, b.stageNo, m⟩
          let hit := b.hit (x.plan b.unit).width upset
          if hit.passesTest then
            (w.up fun d => { d with mar := { d.mar with acc := AMap.set [] d.mar.acc key [hit] } }).drainOut x hit key
          else w.mismatch cluster.val core.val

end Sys2Proof.Machine
end

