-- ==== Sys2Proof/Machine/Update.lean ====
section
/-! DEFINITION. Updates and weight sets: APPLY, PROPOSE and CLEAR (R99, R104, R331 to R337), version
pins and releases (R254 to R258), and the registers of weight sets and record sets (R259 to R261,
R345). -/

namespace Sys2Proof.Machine

open Sys2Proof.Config

/-! ### APPLY (R332 to R335) -/

/-- The record of segment `i` of an update (R331). -/
def UpdBody.record (u : UpdBody) (i : Nat) : Nat := u.accBase + 65856 * i

/-- Address of plane `k` (0 master, 1 first moment, 2 second moment) of segment `i` in a bank. -/
def UpdBody.plane (u : UpdBody) (bank k i : Nat) : Nat :=
  bank + 4 * (16384 * (u.nseg * k + i))

/-- The state bank of a version (R332). -/
def UpdBody.bankOf (u : UpdBody) (version : W32) : Nat :=
  if version.toNat % 2 == 0 then u.state0 else u.state1

/-- The HBM ranges that segment `i` of an APPLY reads: record and old bank. -/
def UpdBody.reads (u : UpdBody) (i : Nat) : List (Nat × Nat) :=
  let old := u.bankOf (u.version - 1)
  (u.record i, 65804) :: [0, 1, 2].map fun k => (u.plane old k i, 65536)

/-- An FP32 word of a view with its poison. -/
def View.w32 (v : View) (a : Nat) : W32 × Bool :=
  let x := v.num a 4
  (BitVec.ofNat 32 x.1, x.2)

/-- A hyperparameter (R333). -/
def UpdBody.hp (u : UpdBody) (v : View) (o : Nat) : W32 := (v.w32 (u.hpBase + o)).1

/-- New master and moments of an element from its old ones and its gradient (R334). -/
def UpdBody.adam (u : UpdBody) (v : View) (g w m s : W32) : W32 × W32 × W32 :=
  let hp := u.hp v
  let g := fmul g (hp 0x24)
  let m := ffma (hp 0x04) m (fmul (hp 0x08) g)
  let s := ffma (hp 0x0C) s (fmul (hp 0x10) (fmul g g))
  let mh := fmul m (hp 0x14)
  let vh := fmul s (hp 0x18)
  let d := fdiv mh (fadd (fsqrt vh) (hp 0x1C))
  let t := ffma (hp 0x20) w d
  (ffma (fneg (hp 0x00)) t w, m, s)

/-- The sum of element `j` of segment `i` (R330): 0 in a FRESH block, and whether it is poisoned. -/
def UpdBody.sumAt (u : UpdBody) (v : View) (i j : Nat) : Int × Bool :=
  let f := v.num (u.record i + 0x10000 + j / 64) 1
  if bit f.1 6 then (0, f.2)
  else
    let n := v.num (u.record i + 4 * j) 4
    (signed 32 n.1, f.2 || n.2)

/-- An integer at a binary exponent, rounded once to FP32 (R104). -/
def dequant (n e : Int) : W32 := fround (FV.scale e (.fin (decide (n < 0)) n.natAbs 0))

/-- The new values of element `j` of segment `i`, and whether any input was poisoned (R334). -/
def UpdBody.element (u : UpdBody) (v : View) (i j : Nat) : (W32 × W32 × W32) × Bool :=
  let old := u.bankOf (u.version - 1)
  let w := v.w32 (u.plane old 0 i + 4 * j)
  let m := v.w32 (u.plane old 1 i + 4 * j)
  let s := v.w32 (u.plane old 2 i + 4 * j)
  let bad := w.2 || m.2 || s.2
  if u.frozen then ((w.1, m.1, s.1), bad)
  else
    let e := v.num (u.record i + 0x10100) 1
    let n := u.sumAt v i j
    let hpBad := (v.num u.hpBase 40).2
    let g := dequant n.1 (signed 8 e.1 + (if u.lshift3 then 3 else 0))
    (u.adam v g w.1 m.1 s.1, bad || e.2 || n.2 || hpBad)

/-- What stays in staging slots after an APPLY: values the manual does not give (log entry 3). -/
def Wk.scratch (w : Wk) (slots : List Nat) : Wk :=
  let n := w.dev.free
  let w := Wk.each slots (fun w g =>
    w.pondPut (slotAddr g) ((List.range 512).map fun j => leBytes 4 (freeWord n (512 * g + j)).toNat).flatten) w
  w.ite (!slots.isEmpty) fun w => w.up fun d => { d with free := d.free + 1 }

/-- The slots in which an APPLY stages. -/
def UpdBody.staging (u : UpdBody) : List Nat := (u.stage.map Desc.slots).getD []

/-- Elements `lo` to `lo + n − 1` of a tensor in iteration order. -/
def Desc.elemsFrom (t : Desc) (lo n : Nat) : List (List Nat) := (List.range n).map fun j => unravel t.ext (lo + j)

/-- OUT's MX blocks or tiles hold elements of several segments, or its elements add up in order (R164): the
segments are then one part. -/
def Desc.spansSegments (o : Desc) (nseg : Nat) : Bool :=
  o.tileMap != 0 || o.wmode == 2 || (o.fmt.isMx && (List.range nseg).any fun i =>
    (o.atomsOf (o.elemsFrom (16384 * i) 16384)).flatten.length != 16384)

/-- An APPLY with the hyperparameters and the tile map of its OUT, read at dispatch (R333). -/
structure ApplyCtx where
  h  : Heat
  u  : UpdBody
  o  : Desc
  ws : List (Nat × Bool)

def ApplyCtx.who (x : ApplyCtx) : Requester := .dma x.h.id.cluster.val

/-- A view with what was read first. -/
def ApplyCtx.see (x : ApplyCtx) (v : View) : View :=
  x.o.knowing (v.known x.u.hpBase 4 (x.ws.take 10)) (x.ws.drop 10)

/-- The staging slots that the vector units of a list of segments use. -/
def ApplyCtx.slots (x : ApplyCtx) (is : List Nat) : List Nat :=
  x.u.staging.filter fun g => is.any fun i => slotCore g == i % 16

/-- The new bank of segment `i`: master and moments of every element. -/
def ApplyCtx.planes (x : ApplyCtx) (i : Nat) (els : List ((W32 × W32 × W32) × Bool)) : List Piece :=
  let new := x.u.bankOf x.u.version
  (els.mapIdx fun j y =>
    [(x.u.plane new 0 i + 4 * j, leBytes 4 y.1.1.toNat, y.2),
     (x.u.plane new 1 i + 4 * j, leBytes 4 y.1.2.1.toNat, y.2),
     (x.u.plane new 2 i + 4 * j, leBytes 4 y.1.2.2.toNat, y.2)]).flatten

/-- Some segments of an APPLY computed and stored by the vector units of cores `i mod 16` (R230, R334). -/
def ApplyCtx.part (x : ApplyCtx) (k : Nat) (is : List Nat) : Part :=
  let es := (is.map fun i => x.o.elemsFrom (16384 * i) 16384).flatten
  let pl := if x.o.tileMap == 0 then (es.map x.o.writePlaces).flatten else []
  { no := k + 1, who := x.who, lane := is.headD 0 % 16, engines := nub (is.map fun i => vectorOf (i % 16)) []
    reads := (is.map fun i => ⟨i + 1, x.u.reads i, accIn, false⟩)
      ++ x.o.storeScale (is.headD 0 + 1) accVector
    full := [], writes := pl, slots := pondSlots pl ++ x.slots is, wacc := accVector, ready := true
    run := fun v w =>
      let els := is.map fun i => (i, (List.range 16384).map (x.u.element (x.see (v (i + 1))) i))
      let out := ((els.map Prod.snd).flatten.map fun y => (Datum.val (fval y.1.1), y.2))
      let f := fun idx => out.getD (ravel x.o.ext idx - 16384 * is.headD 0) (.code 0, false)
      let ps := (els.map fun y => x.planes y.1 y.2).flatten
      let u := x.see (v (is.headD 0 + 1))
      let w := w.scratch (x.slots is)
      let fold := x.o.foldOf out
      if x.o.tileMap != 0 then
        w.storeTiles x.h x.who 0 (k + 1) ps ((List.range x.o.tiles).map fun n => x.o.tileStore u x.h.ovf n f) fold
      else if x.o.wmode == 2 then
        w.store x.h.id x.who 0 (k + 1) ps (x.o.accAtoms (es.zip out) ++ fold) (out.any Prod.snd)
      else w.store x.h.id x.who 0 (k + 1) (ps ++ x.o.piecesOn u x.h.ovf es x.o.stands f) fold false }

/-- What is left of an APPLY (R334, R335): its segments run beside one another, segment i on core i mod 16. -/
def applyPlan (u : UpdBody) (o : Desc) (w : Wk) (h : Heat) : Plan :=
  let x : ApplyCtx := ⟨h, u, o, (h.at 0).words⟩
  if !(h.at 0).begun then
    ⟨[wordsPart x.who [⟨0, (u.hpBase, 64) :: o.mapFetch, accIn, false⟩] accIn h.id 0 fun v _ =>
      .ok ((List.range 10).map (fun k => v.num (u.hpBase + 4 * k) 4) ++ o.mapWords v)], false, []⟩
  else if o.spansSegments u.nseg then
    ⟨x.part 0 (List.range u.nseg) :: (if o.tileMap == 0 then []
      else [tileEntries w h x.who 0 accVector o x.ws 2 (10 + o.tiles) (List.range o.tiles) 1]), true, u.staging⟩
  else ⟨(List.range u.nseg).map fun i => x.part i [i], true, u.staging⟩

/-- APPLY (R334, R335). -/
def execApply (h : HeatId) (s : State) : Host.Outcome State Fault Refusal :=
  done s fun w => w.withHeat h fun x w =>
    match x.body with
    | .update u => if u.uop == 0 then w.stage (applyPlan u (u.out.getD .zero)) h 0 else w
    | _ => w

/-! ### PROPOSE (R99, R336) -/

/-- The history after a step, newest first, from its amax (R99). -/
def shiftHist (hist : List Int) (amax : W32) : List Int :=
  (if (FV.fin false 0 0).lt (fval amax) then ceilExp amax else -128) :: hist.take 3

/-- The proposal from a record (R99). -/
def proposal (agreed : Int) (hist : List Int) (clips : Nat) : Int :=
  let seen := hist.filter fun a => a != -128
  let e := match seen with
    | [] => agreed
    | a :: l => l.foldl max a - 6
  let e := if 0 < clips then max e (agreed + 1) else e
  max (-126) (min 125 e)

/-- What PROPOSE finds for segment `i`: the shifted history that it stores in the other set, and the
proposal, each with its poison. -/
def UpdBody.proposed (u : UpdBody) (v : View) (i : Nat) : Piece × Int × Bool :=
  let a := u.record i + 0x10100
  let agreed := v.num a 1
  let hist := (List.range 4).map fun k => v.num (a + 2 + k) 1
  let clips := v.num (a + 6) 2
  let amax := v.w32 (a + 8)
  let hBad := amax.2 || hist.any Prod.snd
  let new := shiftHist (hist.map fun x => signed 8 x.1) amax.1
  ((u.accNext + 65856 * i + 0x10102, (new.map fun x => leBytes 1 (unsigned 8 x)).flatten, hBad),
   proposal (signed 8 agreed.1) new clips.1, hBad || agreed.2 || clips.2)

/-- The part of a PROPOSE that handles segment `i`: its history, and its byte of OUT (R336). -/
def proposePart (h : Heat) (u : UpdBody) (o : Desc) (i : Nat) : Part :=
  let who : Requester := .dma h.id.cluster.val
  let idx := unravel o.ext i
  let pl := o.writePlaces idx
  { no := i + 1, who := who, lane := i % 16, engines := [vectorOf (i % 16)], full := []
    reads := [⟨i + 1, [(u.record i + 0x10100, 12)], accIn, false⟩]
    writes := pl, slots := pondSlots pl, wacc := accIn, ready := true
    run := fun v w =>
      let p := u.proposed (v (i + 1)) i
      let y := (Datum.code (unsigned 8 p.2.1), p.2.2)
      w.store h.id who 0 (i + 1) (p.1 :: o.piecesOn (v (i + 1)) h.ovf [idx] o.stands fun _ => y) (o.foldOf [y]) false }

/-- The part of a PROPOSE that stores a compressed OUT as whole tiles (R174), and that of its entries. -/
def proposeTiles (h : Heat) (u : UpdBody) (o : Desc) (w : Wk) : List Part :=
  let who : Requester := .dma h.id.cluster.val
  let ws := (h.at 0).words
  [{ no := 1, who := who, lane := 0, engines := (List.range (min 16 u.nseg)).map vectorOf, full := []
     reads := (List.range u.nseg).map fun i => ⟨i + 1, [(u.record i + 0x10100, 12)], accIn, false⟩
     writes := [], slots := [], wacc := accIn, ready := true
     run := fun v w =>
       let p := (List.range u.nseg).map fun i => u.proposed (v (i + 1)) i
       let out := p.map fun y => (Datum.code (unsigned 8 y.2.1), y.2.2)
       let f := fun idx => out.getD (ravel o.ext idx) (.code 0, false)
       w.storeTiles h who 0 1 (p.map Prod.fst)
         ((List.range o.tiles).map fun n => o.tileStore (o.knowing (v 1) ws) h.ovf n f) (o.foldOf out) },
   tileEntries w h who 0 accIn o ws 2 o.tiles (List.range o.tiles) 1]

/-- What is left of a PROPOSE. -/
def proposePlan (u : UpdBody) (o : Desc) (w : Wk) (h : Heat) : Plan :=
  if o.tileMap == 0 then ⟨(List.range u.nseg).map (proposePart h u o), true, []⟩
  else if !(h.at 0).begun then
    ⟨[wordsPart (.dma h.id.cluster.val) [⟨0, o.mapFetch, accIn, false⟩] accIn h.id 0 fun v _ => .ok (o.mapWords v)],
      false, []⟩
  else ⟨proposeTiles h u o w, true, []⟩

/-- PROPOSE (R336). -/
def execPropose (h : HeatId) (s : State) : Host.Outcome State Fault Refusal :=
  done s fun w => w.withHeat h fun x w =>
    match x.body with
    | .update u => if u.uop == 1 then w.stage (proposePlan u (u.out.getD .zero)) h 0 else w
    | _ => w

/-! ### CLEAR (R337) -/

/-- The flag bytes of a cleared record: FRESH alone (R330, R337). -/
def freshFlags : List Byte := List.replicate 256 0x40

/-- The part of a CLEAR that writes the flag bytes of segment `i`. -/
def clearPart (h : Heat) (u : UpdBody) (i : Nat) : Part :=
  let who : Requester := .dma h.id.cluster.val
  { no := i, who := who, lane := i % 16, engines := [vectorOf (i % 16)], reads := [], full := [], writes := []
    slots := [], wacc := accIn
    ready := true
    run := fun _ w => w.store h.id who 0 i [(u.record i + 0x10000, freshFlags, false)] [] false }

/-- What is left of a CLEAR: 256 B a record. -/
def clearPlan (u : UpdBody) (_ : Wk) (h : Heat) : Plan := ⟨(List.range u.nseg).map (clearPart h u), true, []⟩

/-- CLEAR (R337). -/
def execClear (h : HeatId) (s : State) : Host.Outcome State Fault Refusal :=
  done s fun w => w.withHeat h fun x w =>
    match x.body with
    | .update u => if u.uop == 2 then w.stage (clearPlan u) h 0 else w
    | _ => w

/-! ### Version pins and releases (R255, R256) -/

/-- The CURRENT or OLD buffer that holds a version. -/
def WSet.holding (s : WSet) (v : W32) : Option Nat :=
  (List.range s.bufs.length).find? fun b =>
    let x := s.buf b
    (x.state == .current || x.state == .old) && x.version == v

/-- A set with one buffer changed. -/
def WSet.setBuf (s : WSet) (b : Nat) (f : VBuf → VBuf) : WSet :=
  { s with bufs := s.bufs.mapIdx fun i x => if i == b then f x else x }

/-- The record of a version command that finds no buffer (R425). -/
def versionRec (code : Nat) (h : Heat) (w : Nat) (v : W32) : Rec :=
  { Rec.ofHeat code 1 h.id h.cmdId with unit := w, detail := leBytes 4 v.toNat }

/-- A pin whose dependencies are met is judged (R255); one found stale never dispatches. -/
def Wk.judgePin (w : Wk) (h : Heat) (set_ : Nat) (v : W32) : Wk :=
  let s := w.dev.wset set_
  match (s.holding v).filter fun _ => !h.stale with
  | some b =>
    if w.dev.directOpen h && decide ((s.buf b).pins < 65535) then
      (w.up fun d => d.setWset set_ fun s =>
        { s with used := d.now + 1 }.setBuf b fun x => { x with pins := x.pins + 1, gone := 0 }).retireAtOnce h.id
    else w
  | none =>
    if serialBefore s.version v || h.stale then w
    else (w.up fun d => d.raise (versionRec 0x0060 h set_ v)).upHeat h.id fun x => { x with stale := true }

/-- VERSION_PIN (R255). -/
def execVersionPin (h : HeatId) (s : State) : Host.Outcome State Fault Refusal :=
  done s fun w =>
    match w.dev.heat h with
    | none => w
    | some x =>
      match x.body with
      | .pin set_ v => if x.state == .waiting && w.dev.depsMet x then w.judgePin x set_ v else w
      | _ => w

/-- A pin less; an OLD buffer without pins is FREE from the next cycle on (R254, R258). -/
def VBuf.unpinned (now : Nat) (x : VBuf) : VBuf :=
  { x with pins := x.pins - 1, gone := if x.state == .old && x.pins == 1 then now + 2 else x.gone }

/-- The count of a version's buffer falls by one, or the release says that it has none (R256). -/
def Dev.unpin (d : Dev) (h : Heat) (set_ : Nat) (v : W32) : Dev :=
  let s := d.wset set_
  match (s.holding v).filter fun b => decide (0 < (s.buf b).pins) with
  | some b => d.setWset set_ fun s => { s with used := d.now + 1 }.setBuf b (VBuf.unpinned d.now)
  | none => (d.setWset set_ fun s => { s with used := d.now + 1 }).raise (versionRec 0x0061 h set_ v)

/-- VERSION_RELEASE (R256). -/
def execVersionRelease (h : HeatId) (s : State) : Host.Outcome State Fault Refusal :=
  done s fun w =>
    match w.dev.heat h with
    | none => w
    | some x =>
      match x.body with
      | .unpin set_ v =>
        if w.dev.directOpen x then (w.up fun d => d.unpin x set_ v).retireAtOnce h else w
      | _ => w

/-! ### Weight-set registers (R259 to R261) -/

/-- A register of the set may be written: nothing WRITING, nothing pinned. -/
def WSet.quiet (s : WSet) : Bool := s.bufs.all fun b => b.state != .writing && b.pins == 0

/-- The buffer states a write of a version sets (R261). -/
def WSet.fresh (s : WSet) : WSet :=
  { s with bufs := (List.range s.nbuf).map fun b =>
      if b == s.slotOf s.version then ⟨.current, s.version, 0, 0⟩ else .zero }

/-- Every buffer of a set lies in HBM. -/
def WSet.fits (s : WSet) : Bool := s.nbuf == 0 || Machine.inHbm s.base (s.nbuf * s.pages * 4096)

/-- A set after a write that may have moved or resized its buffers. -/
def WSet.changed (old new : WSet) : WSet :=
  if old.nbuf == new.nbuf && old.base == new.base && old.pages == new.pages then new else new.fresh

/-- A carried-out write of a set's register, or a dropped one with its record (R259); a pin, release or
update of the set in the same cycle drops it (R258). -/
def Dev.wsetWrite (d : Dev) (w off : Nat) (ok : Bool) (new : WSet) : Dev :=
  if ok && (d.wset w).quiet && (d.wset w).used != d.now + 1 && new.fits then d.setWset w fun _ => new
  else d.streamConfig (0x110000 + 0x20 * w + off)

/-- STR_WSET_CFG (R259). -/
def Dev.wsetCfg (d : Dev) (w v : Nat) : Dev :=
  let old := d.wset w
  let n := bits v 2 0
  d.wsetWrite w 0 (n == 0 || n == 2 || n == 3 || n == 4)
    (old.changed { old with nbuf := n, base := bits v 47 12 * 4096 })

/-- STR_WSET_SIZE (R260). -/
def Dev.wsetSize (d : Dev) (w v : Nat) : Dev :=
  let old := d.wset w
  d.wsetWrite w 8 true (old.changed { old with pages := bits v 27 0 })

/-- STR_WSET_VER (R261). -/
def Dev.wsetVer (d : Dev) (w v : Nat) : Dev :=
  let old := d.wset w
  d.wsetWrite w 0xC (old.nbuf != 0) { old with version := BitVec.ofNat 32 v }.fresh

/-- STR_WSET_CFG_WRITE (R259); waiting pins and updates are judged again. -/
def execStrWsetCfgWrite (w : Fin 64) (v : BitVec 64) (s : State) : Host.Outcome State Fault Refusal :=
  devOnly s fun d => d.hostWrite fun d => (d.wsetCfg w.val v.toNat).settle

/-- STR_WSET_SIZE_WRITE (R260). -/
def execStrWsetSizeWrite (w : Fin 64) (v : BitVec 32) (s : State) : Host.Outcome State Fault Refusal :=
  devOnly s fun d => d.hostWrite fun d => (d.wsetSize w.val v.toNat).settle

/-- STR_WSET_VER_WRITE (R261). -/
def execStrWsetVerWrite (w : Fin 64) (v : BitVec 32) (s : State) : Host.Outcome State Fault Refusal :=
  devOnly s fun d => d.hostWrite fun d => (d.wsetVer w.val v.toNat).settle

/-- A set's WRITING buffer freed, where it carries a hurdle (R340, R341). -/
def WSet.dropWriting (s : WSet) : WSet :=
  { s with bufs := s.bufs.map fun x => if x.state == .writing then { x with state := .free } else x }

/-- A set's WRITING buffer committed: the previous CURRENT is OLD, or FREE without pins (R254). -/
def WSet.commit (s : WSet) : WSet :=
  match s.bufs.find? fun x => x.state == .writing with
  | none => s
  | some n =>
    { s with
      version := n.version
      bufs := s.bufs.map fun x =>
        if x.state == .writing then { x with state := .current }
        else if x.state == .current then { x with state := if x.pins == 0 then .free else .old }
        else x }

/-! ### Record sets (R345) -/

def Dev.rset (d : Dev) (e : Nat) : RSet := AMap.get .zero d.upd.rsets e

def Dev.setRset (d : Dev) (e : Nat) (f : RSet → RSet) : Dev :=
  { d with upd := { d.upd with rsets := AMap.upd .zero d.upd.rsets e f } }

/-- A register of an entry takes a value (R345). -/
def RSet.write (r : RSet) (reg v : Nat) : RSet :=
  match reg with
  | 0 => { r with acc0 := bits v 47 6 * 64 }
  | 1 => { r with acc1 := bits v 47 6 * 64 }
  | 2 => { r with expFirst := bits v 47 0 }
  | _ => { r with nrec := bits v 27 0, bankLen := bits v 55 28, en := bit v 56, par := bit v 57 }

/-- A write of `STR_RSET` (R345): dropped while a scale hurdle is armed. -/
def Dev.rsetWrite (d : Dev) (e reg v : Nat) : Dev :=
  if d.armedKind 3 then d.streamConfig (0xA100 + 0x20 * e + 8 * reg)
  else d.setRset e fun r => r.write reg v

/-- STR_RSET_WRITE (R345). -/
def execStrRsetWrite (entry : Fin 8) (reg : Fin 4) (v : BitVec 64) (s : State) :
    Host.Outcome State Fault Refusal :=
  devOnly s fun d => d.hostWrite fun d => d.rsetWrite entry.val reg.val v.toNat

end Sys2Proof.Machine
end

