-- ==== Sys2Proof/Machine/Control.lean ====
section
/-! DEFINITION. The control family (R46, R220 to R223, R229): no operation, signal, wait, hurdle and
cancel; and the chained command (R224, R225), which runs its stages. -/

namespace Sys2Proof.Machine

open Sys2Proof.Config

/-- Run an action on a heat of the control family that may be dispatched now. -/
def Wk.withDirect (w : Wk) (id : HeatId) (f : Heat → Wk → Wk) : Wk :=
  match w.dev.heat id with
  | none => w
  | some h => if w.dev.directOpen h then f h w else w

/-- NO_OPERATION (R209): it retires at dispatch. -/
def execNoOperation (h : HeatId) (s : State) : Host.Outcome State Fault Refusal :=
  done s fun w => w.withDirect h fun x w =>
    match x.body with
    | .nop => w.retireAtOnce h
    | _ => w

/-! ### Signals and waits (R46, R220, R221, R407) -/

/-- Key of a counter of a cluster's stream group. -/
def Dev.signalKey (d : Dev) (c ctr : Nat) : Nat := 64 * d.live.sgroup c + ctr

/-- A step marker retires (R46, R51, R407): the lap and cycle of this one, the distance from the one
before, and a step more. -/
def Dev.stepMarker (d : Dev) : Dev :=
  let l := d.lap
  let now := (l.count, l.cycle)
  let l := match l.mark with
    | none => { l with mark := some now, stepOverrun := false }
    | some old =>
      let laps := BitVec.ofNat 32 (l.count - old.1).toNat
      let cycles := (l.cycle : Int) - (old.2 : Int)
      { l with mark := some now, stepOverrun := false, stepLaps := laps, stepCycles := cycles, stepValid := true }
  { d with lap := l, sec := { d.sec with step := d.sec.step + 1 } }

/-- SIGNAL (R220). -/
def execSignal (h : HeatId) (s : State) : Host.Outcome State Fault Refusal :=
  done s fun w => w.withDirect h fun x w =>
    match x.body with
    | .signal ctr mark add =>
      let w := w.up fun d =>
        let k := d.signalKey h.cluster.val ctr
        { d with mar := { d.mar with signals := AMap.upd 0 d.mar.signals k (· + add) } }
      (w.ite mark fun w => w.up Dev.stepMarker).retireAtOnce h
    | _ => w

/-- WAIT (R220): it dispatches once the counter is not before VALUE. -/
def execWait (h : HeatId) (s : State) : Host.Outcome State Fault Refusal :=
  done s fun w => w.withDirect h fun x w =>
    match x.body with
    | .wait ctr v =>
      if notAfter v (AMap.get 0 w.dev.mar.signals (w.dev.signalKey h.cluster.val ctr)) then w.retireAtOnce h else w
    | _ => w

/-! ### Hurdles and cancels (R222, R223) -/

/-- A hurdle command may arm (R222). -/
def Dev.mayArm (d : Dev) (h : Heat) : Bool :=
  h.state == .waiting && !d.noDispatch h.id.cluster.val h.id.stream.num && d.depsMet h && d.cplOk h

/-- HURDLE (R222): the command arms, with its completion entry reserved. -/
def execHurdle (h : HeatId) (s : State) : Host.Outcome State Fault Refusal :=
  devOnly s fun d =>
    match d.heat h with
    | none => d
    | some x =>
      match x.body with
      | .hurdle _ _ _ _ =>
        if d.mayArm x then d.setHeat h fun x => { x with state := .armed, reserved := x.cpl } else d
      | _ => d

/-- The commands that a cancel names (R223). -/
def Dev.cancelTargets (d : Dev) (h : HeatId) (byId : Bool) (streams : Nat) (target : W32) : List Heat :=
  d.mar.heats.filter fun g =>
    g.id.cluster == h.cluster && g.id != h && bit streams g.id.stream.num && (!byId || g.cmdId == target)

/-- CANCEL (R223): it acts within its cluster, with the chain of R207, and retires. -/
def execCancel (h : HeatId) (s : State) : Host.Outcome State Fault Refusal :=
  done s fun w => w.withDirect h fun x w =>
    match x.body with
    | .cancel byId streams target =>
      (w.up fun d => d.cancelAll h.cluster.val (d.cancelTargets h byId streams target) true).retireAtOnce h
    | _ => w

/-! ### Chained (R224, R225) -/

/-- What is left of stage `k` of a chained command; `later` are the stages after it. -/
def Stage.plan (k : Nat) (later : List Stage) : Stage → Wk → Heat → Plan
  | .move a b keep => movePlan k a b keep later
  | .gather t i d keep => gatherPlan k t i d keep
  | .scatter t i sr k1 k2 => scatterPlan k t i sr k1 k2
  | .matrix m => matrixPlan k m
  | .vector b => vectorPlan k b
  | .rowReduce b => rowReducePlan k b
  | .spring b => springPlan k b
  | .relaySend b => sendPlan b

/-- The stages of a chained command from number `k` on, each getting on as far as it can. -/
def Wk.stages (id : HeatId) : Nat → List Stage → Wk → Wk
  | _, [], w => w
  | k, x :: later, w => Wk.stages id (k + 1) later (w.stage (x.plan k later) id k)

/-- CHAINED (R224, R225): all its stages start at dispatch, and the tags alone order them. -/
def execChained (h : HeatId) (s : State) : Host.Outcome State Fault Refusal :=
  done s fun w => w.withHeat h fun x w =>
    match x.body with
    | .chained l => Wk.stages h 0 l w
    | _ => w

/-- A write of `STR_SIG` (R415). -/
def Dev.sigSet (d : Dev) (k : Nat) (v : W32) : Dev :=
  { d with mar := { d.mar with signals := AMap.set 0 d.mar.signals k v } }

/-- STR_SIG_WRITE (R415): a write sets the counter. -/
def execStrSigWrite (group : Fin 15) (counter : Fin 64) (v : BitVec 32) (s : State) :
    Host.Outcome State Fault Refusal :=
  devOnly s fun d => d.hostWrite fun d => d.sigSet (64 * group.val + counter.val) v

end Sys2Proof.Machine
end

