-- ==== Sys2Proof/Machine/Image.lean ====
section
/-! DEFINITION. The structure image: its layout and validation (R52 to R66), loading, commit and
discard (R67 to R72, R487), and the registers of R73 to R78. -/

namespace Sys2Proof.Machine

open Sys2Proof.Config

/-- Result codes of R76. -/
def resOk : Nat := 0x00
def resBusy : Nat := 0x01
def resBadRequest : Nat := 0x02

/-! ### Layout -/

/-- Directory entry `i` of an image (R52): type, offset, size and the reserved fields. -/
def dirEntry (m : List Byte) (i : Nat) : Nat × Nat × Nat × Nat :=
  let o := 0x40 + 16 * i
  (numAt m o 2, numAt m (o + 4) 4, numAt m (o + 8) 4, numAt m (o + 2) 2 + numAt m (o + 12) 4)

/-- Offset and size of the section of a type. -/
def sectionAt (m : List Byte) (t : Nat) : Nat × Nat :=
  match (List.range 14).find? fun i => (dirEntry m i).1 == t with
  | some i => ((dirEntry m i).2.1, (dirEntry m i).2.2.1)
  | none => (0, 0)

/-- The bytes of a section. -/
def sectionBytes (m : List Byte) (t : Nat) : List Byte :=
  let s := sectionAt m t
  (m.drop s.1).take s.2

def pad8 (n : Nat) : Nat := (n + 7) / 8 * 8

/-- The size R53 gives a section. -/
def sectionSize (m : List Byte) (t : Nat) : Nat :=
  let roles := sectionBytes m 1
  let mods := numAt roles 0 2
  match t with
  | 0x01 => pad8 (16 + 16 * mods)
  | 0x02 => 128
  | 0x03 => 2048
  | 0x04 => 128
  | 0x05 => 33792
  | 0x06 => 16
  | 0x07 => 192
  | 0x08 => pad8 (16 + 68 * mods)
  | 0x09 => pad8 (16 + 36 * numAt (sectionBytes m 9) 0xC 2)
  | 0x0A => 64
  | 0x0B => 128
  | 0x0C => 16
  | 0x0D => 128
  | _ => 128

/-- Two ranges do not overlap. -/
def apart (a b : Nat × Nat) : Bool := decide (a.1 + a.2 ≤ b.1) || decide (b.1 + b.2 ≤ a.1)

/-- No two elements of a list fail a symmetric test. -/
def allPairs {α : Type} (p : α → α → Bool) : List α → Bool
  | [] => true
  | a :: l => l.all (p a) && allPairs p l

def distinct (l : List Nat) : Bool := allPairs (fun a b => a != b) l

/-- Header and directory are valid (R52, R53) for a staged length. DESIGN CHOICE (log entry 119): the 14 used
entries are the first of the 16, and a reserved byte of the directory that is not zero makes the directory
invalid (FORMAT) rather than a value (VALUE). -/
def headerOk (m : List Byte) (len : Nat) : Bool :=
  numAt m 0 4 == 0x49535A4D && numAt m 4 2 == 1 && numAt m 8 4 == len && numAt m 0xC 2 == 14
    && ((List.range 14).all fun i =>
        let e := dirEntry m i
        e.2.2.2 == 0 && e.2.1 % 8 == 0 && e.2.2.1 % 8 == 0 && decide (0x140 ≤ e.2.1)
          && decide (e.2.1 + e.2.2.1 ≤ len))
    && ((List.range 14).map fun i => (dirEntry m i).1).all (fun t => decide (1 ≤ t ∧ t ≤ 14))
    && distinct ((List.range 14).map fun i => (dirEntry m i).1)
    && allPairs apart ((List.range 14).map fun i => ((dirEntry m i).2.1, (dirEntry m i).2.2.1))
    && numAt m 0x120 32 == 0
    && ((List.range 14).all fun i =>
        let e := dirEntry m i
        e.2.2.1 == sectionSize m e.1)
    && (let g := sectionAt m 0x0E
        g.1 + g.2 == len)

/-! ### Validation of the sections (R54 to R66) -/

/-- The set of an image, with the fields an image does not carry taken from `old` (R67). -/
def Conf.ofImage (old : Conf) (m : List Byte) : Conf :=
  let p := sectionBytes m 0x0A
  let l := sectionBytes m 0x0C
  { roles := sectionBytes m 1, partition := sectionBytes m 2, tandem := sectionBytes m 3,
    shapes := sectionBytes m 4, turns := sectionBytes m 5, splits := sectionBytes m 6,
    regions := sectionBytes m 7, relay := sectionBytes m 8, parity := sectionBytes m 9,
    spares := sectionBytes m 0x0B, sparse := sectionBytes m 0x0D,
    budgetW := numAt p 0 2, rampW := numAt p 2 2,
    grains := (List.range 8).map fun i => numAt p (8 + 2 * i) 2,
    reserve := old.reserve,
    period := numAt l 0 2, grace := numAt l 2 2, ageLaps := numAt l 4 1,
    serial := BitVec.ofNat 64 (numAt m 0x10 8), domainId := BitVec.ofNat 64 (numAt m 0x18 8),
    image := m }

/-- The positions with a role. -/
def Conf.withRole (k : Conf) (r : Nat) : List Nat :=
  (List.range k.modules).filter fun p => k.role p == r

/-- R54. DESIGN CHOICE (log entry 119): the MEMBER of a module that is in no group, the starter, the standby
or a lone runner, is held to no range. -/
def Conf.rolesOk (k : Conf) : Bool :=
  let ps := List.range k.modules
  let rs := k.withRole 2
  let groups := nub (rs.map k.group) []
  decide (2 ≤ k.modules ∧ k.modules ≤ 258) && decide (1 ≤ k.runners ∧ k.runners ≤ 256)
    && ps.all (fun p => decide (k.role p ≤ 2) && decide (k.kind p ≤ 1))
    && (k.withRole 0).length == 1 && decide ((k.withRole 1).length ≤ 1)
    && rs.length == k.runners
    && distinct (ps.map k.roleId)
    && distinct (rs.map k.runnerIdx) && rs.all (fun p => decide (k.runnerIdx p < k.runners))
    && ps.all (fun p => k.role p == 2 || (k.group p == 0xFF && k.runnerIdx p == 0xFFFF && k.kind p == 0))
    && rs.all (fun p => (k.group p == 0xFF) == (k.runners == 1))
    && (if k.runners == 1 then numAt k.roles 4 2 == 0
        else groups.length == numAt k.roles 4 2 && decide (groups.length ≤ 128)
          && groups.all fun g =>
            let ms := rs.filter fun p => k.group p == g
            decide (2 ≤ ms.length ∧ ms.length ≤ 8) && distinct (ms.map k.member)
              && ms.all fun p => decide (k.member p < 8))

/-- The tick-parent chain from a position reaches the starter (R62). -/
def Conf.chainOk (k : Conf) : Nat → Nat → Bool
  | 0, p => k.role p == 0
  | n + 1, p =>
    if k.role p == 0 then true
    else
      let t := k.tickParent p
      decide (t < 16) && (k.peer p t).2.2 != 0 && k.chainOk n (k.peer p t).1

/-- Hops from a position to the starter along TICK_PARENT (R298, R348). -/
def Conf.tickHops (k : Conf) : Nat → Nat → Nat
  | 0, _ => 0
  | n + 1, p => if k.role p == 0 then 0 else 1 + k.tickHops n (k.peer p (k.tickParent p)).1

/-- R62, with R19. -/
def Conf.relayOk (k : Conf) : Bool :=
  let ps := List.range k.modules
  let ports := List.range 16
  let sameGroup := fun p q => k.role p == 2 && k.role q == 2 && k.group p == k.group q && k.group p != 0xFF
  numAt k.relay 0 2 == k.modules
    && ps.all (fun p => numAt k.relay (16 + 68 * p) 2 == p)
    && ps.all (fun p => ports.all fun t =>
        let e := k.peer p t
        if e.2.2 == 0 then e.1 == 0xFFFF
        else decide (e.2.2 ≤ 2) && decide (e.1 < k.modules) && decide (e.2.1 < 16) && e.1 != p
          && k.peer e.1 e.2.1 == (p, t, e.2.2)
          && (if e.2.2 == 1 then sameGroup p e.1
              else (k.role p == 2 && k.role e.1 == 2 && (k.group p != k.group e.1))
                || (k.role p == 2) != (k.role e.1 == 2)))
    && ps.all (fun p => ps.all fun q =>
        if p != q && sameGroup p q then
          (ports.filter fun t => (k.peer p t).1 == q && (k.peer p t).2.2 == 1).length == 1
        else true)
    && ps.all (fun p => if k.role p == 0 then k.tickParent p == 0xFF else k.chainOk k.modules p)

/-- Runner indices of a parity group as written (R63). -/
def Conf.parityIdx (k : Conf) (g : Nat) : List Nat :=
  (List.range 16).map fun i => numAt k.parity (16 + 36 * g + 4 + 2 * i) 2

def paritySize (scheme : Nat) : Nat := if scheme == 0 then 9 else if scheme == 1 then 10 else 16

/-- R63, apart from feeds. -/
def Conf.parityOk (k : Conf) : Bool :=
  let gs := List.range k.parityGroups
  let members := (gs.map fun g => (k.parityIdx g).filter fun r => r != 0xFFFF).flatten
  decide (1 ≤ numAt k.parity 0 4) && decide (numAt k.parity 0 4 ≤ numAt k.parity 4 4)
    && gs.all (fun g =>
        let n := paritySize (k.parityGroup g).1
        decide ((k.parityGroup g).1 ≤ 2)
          && ((k.parityIdx g).take n).all (fun r => r != 0xFFFF && (k.runnerPos r).isSome)
          && ((k.parityIdx g).drop n).all (fun r => r == 0xFFFF))
    && distinct members
    && (k.withRole 2).all fun p => (k.kind p == 0) == members.contains (k.runnerIdx p)

/-- No two members of a parity group share an expected feed (R63). -/
def Conf.feedsOk (k : Conf) : Bool :=
  (List.range k.parityGroups).all fun g => distinct ((k.parityGroup g).2.map k.feed)

/-- At most one bit of a mask is set (R59). -/
def oneBit (m : Nat) : Bool := m == 0 || m == 2 ^ m.log2

/-- R56. -/
def Conf.tandemOk (k : Conf) : Bool :=
  (List.range 128).all fun c => (List.range 16).all fun i =>
    let j := k.partner c i
    j == 0xFF || (decide (j < 16) && j != i && k.partner c j == i)

/-- R60. -/
def Conf.splitsOk (k : Conf) : Bool :=
  (List.range 4).all fun d =>
    [0, 1, 2].all (fun x => decide (1 ≤ k.share d x ∧ k.share d x ≤ 30))
      && k.share d 0 + k.share d 1 + k.share d 2 == 32

/-- The lap pair and the aging limit are in range (R38, R48, R49, R65). -/
def Conf.lapOk (k : Conf) : Bool :=
  decide (25 ≤ k.period ∧ k.period ≤ 2000) && decide (k.grace ≤ k.period / 4)
    && decide (1 ≤ k.ageLaps ∧ k.ageLaps ≤ 255)

/-- The fields of the permit table are in range (R64). -/
def Conf.permitOk (k : Conf) : Bool :=
  decide (1000 ≤ k.budgetW ∧ k.budgetW ≤ 6500) && decide (50 ≤ k.rampW ∧ k.rampW ≤ 7200)
    && k.grains.all (fun g => decide (g ≤ 4096))

/-- `PRM_RESERVE`, which no section carries, is in range (R69, R452). -/
def Conf.reserveOk (k : Conf) : Bool := decide (k.reserve ≤ 4095)

/-- Every byte of a list of offsets is zero. -/
def zeroAt (l : List Byte) (os : List Nat) : Bool := os.all fun o => byteAt l o 0 == 0

/-- The checks of the sections in type order (R54 to R66): whether each holds, its code and its
section. -/
def sectionChecks (m : List Byte) (k : Conf) : List (Bool × Nat × Nat) :=
  let cs := List.range 128
  let mods := List.range k.modules
  let body := 16 + 16 * k.modules
  [(k.rolesOk, 0x26, 1),
   (zeroAt k.roles ([6, 7, 8, 9, 10, 11, 12, 13, 14, 15] ++ mods.map fun p => 16 + 16 * p + 15)
      && ((k.roles.drop body).all fun b => b == 0), 0x2A, 1),
   (cs.all (fun c => k.part c < 128 && (k.sgroup c != 0xF || bits (k.part c) 6 4 == 0)), 0x2A, 2),
   (k.tandemOk, 0x22, 3),
   (cs.all (fun c => decide (k.shape c ≤ 3)), 0x2A, 4),
   (cs.all (fun c => (List.range 256).all fun i => oneBit (byteAt k.turns (264 * c + 8 + i) 0)), 0x20, 5),
   (cs.all (fun c => byteAt k.turns (264 * c) 0 == k.shape c), 0x21, 5),
   (cs.all (fun c => zeroAt k.turns ([1, 2, 3, 4, 5, 6, 7].map fun i => 264 * c + i)), 0x2A, 5),
   (k.splitsOk, 0x23, 6),
   (zeroAt k.splits [3, 7, 11, 15], 0x2A, 6),
   ((List.range 180).all (fun g => byteAt k.regions g 0 < 2)
      && zeroAt k.regions ((List.range 12).map fun i => 180 + i), 0x2A, 7),
   (k.relayOk, 0x27, 8),
   (byteAt k.relay 2 0 < 2 && zeroAt k.relay ((List.range 13).map fun i => 3 + i)
      && zeroAt k.relay (mods.map fun p => 16 + 68 * p + 3)
      && ((k.relay.drop (16 + 68 * k.modules)).all fun b => b == 0), 0x2A, 8),
   (k.parityOk, 0x28, 9),
   (k.feedsOk, 0x29, 9),
   (zeroAt k.parity ([14, 15] ++ ((List.range k.parityGroups).map fun g =>
      [16 + 36 * g + 1, 16 + 36 * g + 2, 16 + 36 * g + 3]).flatten)
      && ((k.parity.drop (16 + 36 * k.parityGroups)).all fun b => b == 0), 0x2A, 9),
   (k.permitOk, 0x2A, 0xA),
   (zeroAt (sectionBytes m 0xA) ([4, 5, 6, 7] ++ (List.range 40).map fun i => 0x18 + i), 0x2A, 0xA),
   (cs.all (fun c => byteAt k.spares c 0 < 2), 0x2A, 0xB),
   (k.lapOk, 0x24, 0xC),
   (zeroAt (sectionBytes m 0xC) ((List.range 11).map fun i => 5 + i), 0x2A, 0xC),
   (zeroAt (sectionBytes m 0xE) ((List.range 15).map (fun i => 1 + i)
      ++ (List.range 16).map fun i => 112 + i), 0x2A, 0xE)]

/-! ### Signature (R66, R430) -/

/-- Whether a signature by a key slot verifies over bytes: r and s big-endian. -/
def Boot.verify (b : Boot) (slot : Nat) (signed_ : List Byte) (r s : List Byte) : Bool :=
  let k := AMap.get (0, 0) b.keys slot
  ecdsaVerify k.1 k.2 (sha384 signed_) (beNat r) (beNat s)

def Boot.slotRevoked (b : Boot) (slot : Nat) : Bool := b.revoked.toNat.testBit slot

/-- The bytes an image's signature covers (R66). -/
def signedBytes (m : List Byte) : List Byte := m.take (sectionAt m 0x0E).1

/-! ### Loading (R68, R72, R74, R76) -/

/-- The outcome of a load of the staged image: result and section, or the new shadow. DESIGN CHOICE (log entry
119): a KEY_SLOT above 3 names no key, so that the signature does not verify (SIGNATURE rather than VALUE). -/
def loadImage (mem : Mem) (d : Dev) : Except (Nat × Nat) Conf :=
  let len := d.img.stageLen
  let addr := d.img.stageAddr
  if len < 320 ∨ len > 4194304 then .error (0x12, 0)
  else if !inHbm addr len then .error (0x15, 0)
  else
    let t := touchedWords 32 addr len
    if d.img.stageLen > 0 ∧ mem.hbmPoison.any (fun x => decide (t.1 ≤ x.1 ∧ x.1 < t.1 + t.2)) then
      .error (0x15, 0)
    else
      let m := mem.bytes addr len
      if !headerOk m len then .error (0x12, 0)
      else if numAt m 6 1 != 0x42 then .error (0x13, 0)
      else if numAt m 7 1 + numAt m 0xE 2 + numAt m 0x20 32 != 0 then .error (0x2A, 0)
      else
        let sig := sectionBytes m 0x0E
        let slot := numAt sig 0 1
        if slot > 3 then .error (0x10, 0xE)
        else if d.boot.slotRevoked slot then .error (0x11, 0xE)
        else if !d.boot.verify slot (signedBytes m) ((sig.drop 16).take 48) ((sig.drop 64).take 48) then
          .error (0x10, 0xE)
        else
          let k := Conf.ofImage d.img.shadow m
          let live := d.live
          if !live.image.isEmpty ∧ (k.serial.toNat < live.serial.toNat
              ∨ (k.serial = live.serial ∧ m ≠ live.image)) then .error (0x14, 0)
          else
            match (sectionChecks m k).find? fun c => !c.1 with
            | some c => .error c.2
            | none => .ok k

/-- A request of `IMG_CTRL` has been dealt with: DONE, RESULT and SECTION (R487). -/
def Dev.imgDone (d : Dev) (result sec : Nat) : Dev :=
  { d with img := { d.img with done := true, result := result, section_ := sec } }.latch 0x2010 4 |>.msix 770

/-- An image-reject record (R487). -/
def Dev.imgReject (d : Dev) (result sec : Nat) : Dev :=
  if decide (0x10 ≤ result) && decide (result ≤ 0x2A) then
    d.raise { Rec.of 0x0050 1 with detail := leBytes 1 result ++ leBytes 1 sec }
  else d

/-- The load finishes (IMG_LOAD_DONE). DESIGN CHOICE (log entry 119): `IMG_STAGE_ADDR`, `IMG_STAGE_LEN` and the
staged bytes count as they stand now, not as they stood at LOAD. -/
def Dev.loadDone (d : Dev) (mem : Mem) : Dev :=
  if !d.img.loading then d
  else
    let d1 := { d with img := { d.img with loading := false } }
    match loadImage mem d with
    | .ok k => { d1 with img := { d1.img with shadow := k, loaded := k.serial } }.imgDone resOk 0
    | .error (r, s) => (d1.imgDone r s).imgReject r s

/-! ### Commit (R69, R70, R31, R32) -/

/-- A section with its reset value written out. -/
def normSection (n : Nat) (v : Byte) (l : List Byte) : List Byte :=
  if l.isEmpty then List.replicate n v else l

/-- The structural fields (R53). -/
def Conf.structural (k : Conf) : List (List Byte) :=
  [k.roles, normSection 128 0x0F k.partition, normSection 2048 0xFF k.tandem,
   normSection 192 0 k.regions, k.relay, k.parity, normSection 128 0 k.spares]

/-- The hurdle-delay limit with the delays measured at admission (R32, R348), in ns. -/
def Dev.delayOk (d : Dev) (period grace : Nat) : Bool :=
  d.dom.delays.all fun x => decide (grace * 1000 + x.2 < period * 1000)

/-- The code and section of the first check of R69 that fails. DESIGN CHOICE (log entry 119): where several fail,
the first in the order of R69 gives the code; `PRM_RESERVE` belongs to no section, and out of range it is shown
as the permit table's (0xA). -/
def Dev.commitCheck (d : Dev) : Option (Nat × Nat) :=
  let k := d.img.shadow
  if !k.lapOk then some (0x24, 0xC)
  else if d.role == 0 ∧ !d.delayOk k.period k.grace then some (0x24, 0xC)
  else if d.lap.lock ∧ d.role != 0 ∧ (k.period ≠ d.live.period ∨ k.grace ≠ d.live.grace) then some (0x25, 0xC)
  else if (k.posOf d.moduleId.toNat).isNone then some (0x26, 1)
  else if !(k.permitOk && k.reserveOk) then some (0x2A, 0xA)
  else none

/-- The check of a commit finishes (IMG_COMMIT_CHECK_DONE): rejected whole, or frozen into the
pending copy (R70). -/
def Dev.commitDone (d : Dev) : Dev :=
  if !d.img.checking then d
  else
    let d1 := { d with img := { d.img with checking := false } }
    match d.commitCheck with
    | some (r, s) => (d1.imgDone r s).imgReject r s
    | none =>
      let k := d.img.shadow
      { d1 with img := { d1.img with
          pending := some k
          quiesce := decide (k.structural ≠ d.live.structural)
          afterHeld := d.lap.held
          periodSent := false } }.imgDone resOk 0

/-! ### `IMG_CTRL` (R75, R70) -/

/-- A write of `IMG_CTRL`: LOAD, COMMIT and DISCARD in bits 0 to 2. DESIGN CHOICE (log entry 119): a COMMIT written
while another is being checked is refused with BUSY, and a write with none of the three bits set changes
nothing, DONE and RESULT included. -/
def Dev.imgCtrl (d : Dev) (v : Nat) : Dev :=
  let b := v % 8
  let i := d.img
  if b == 1 then
    if i.loading then d.imgDone resBusy 0 else { d with img := { i with loading := true } }
  else if b == 2 then
    if i.loading || i.checking || i.pending.isSome then d.imgDone resBusy 0
    else { d with img := { i with checking := true } }
  else if b == 4 then
    if i.pending.isSome then { d with img := { i with pending := none } }.imgDone 0x31 0
    else if i.checking || i.loading then d.imgDone resBusy 0
    else { d with img := { i with shadow := i.live } }.imgDone resOk 0
  else if b == 0 then d
  else d.imgDone resBadRequest 0

/-- STATE of `IMG_STATUS` (R76, R487). -/
def Img.state (i : Img) : Nat :=
  if i.checking then 2
  else if i.pending.isSome then (if i.quiesce then 4 else 3)
  else if i.loading then 1 else 0

/-- `IMG_STATUS` (R76). SHADOW_DIRTY is the comparison that R76 gives. DESIGN CHOICE (log entry 119): it stays 0
after a load of the byte-identical live image, where step 5 of R68 says that a load sets it. -/
def Img.status (i : Img) : Nat :=
  i.state + 8 * b2n (decide (i.shadow ≠ i.live)) + 16 * b2n i.done + 32 * b2n i.loading
    + 256 * i.result + 65536 * i.section_

/-! ### Measurement (R433, R434) -/

/-- A measurement register is extended with a digest, and the log appended. -/
def Dev.extend (d : Dev) (index kind digest : Nat) (lap : W64) : Dev :=
  let b := d.boot
  let old := AMap.get 0 b.meas index
  let entry := leBytes 1 index ++ leBytes 1 kind ++ leBytes 2 0 ++ leBytes 4 b.logSeq.toNat
    ++ leBytes 8 lap.toNat ++ beBytes 48 digest
  { d with boot := { b with
      meas := AMap.set 0 b.meas index (sha384 (beBytes 48 old ++ beBytes 48 digest))
      log := if b.log.length < 1024 then b.log ++ [entry] else b.log
      logFull := b.logFull || decide (1024 ≤ b.log.length)
      logSeq := b.logSeq + 1 } }

/-- A pending set becomes live whole at an effective edge (R70, R76, R78). The image committed is
measured (R433), and an unrecoverable restore ends (R396). -/
def Dev.goLive (d : Dev) : Dev :=
  match d.img.pending with
  | none => d
  | some k =>
    let newImage := decide (k.image ≠ d.live.image)
    let d1 := { d with img := { d.img with
      live := k, pending := none, done := true, liveLap := d.lap.count } }
    let d2 := if newImage then d1.extend 4 2 (sha384 (signedBytes k.image)) d.lap.count else d1
    let d3 := if d2.sec.unrecoverable then
      { d2 with sec := { d2.sec with unrecoverable := false, phase := 0 } }.msix 773 else d2
    (d3.latch 0x2010 4).msix 770

/-- A pair of lap values written into the live, shadow and pending copies (R32). -/
def Dev.setPair (d : Dev) (period grace : Nat) : Dev :=
  let f := fun (k : Conf) => { k with period := period, grace := grace }
  { d with img := { d.img with
      live := f d.img.live, shadow := f d.img.shadow, pending := d.img.pending.map f } }

/-! ### Meanings -/

/-- IMG_LOAD (R68, R75): the write of `IMG_CTRL` that starts a load. -/
def execImgLoad (v : BitVec 32) (s : State) : Host.Outcome State Fault Refusal :=
  devOnly s fun d => d.hostWrite fun d => d.imgCtrl v.toNat

/-- IMG_LOAD_DONE (R68). -/
def execImgLoadDone (s : State) : Host.Outcome State Fault Refusal :=
  done s fun w => w.up fun d => d.loadDone w.base

/-- IMG_COMMIT (R69, R75). -/
def execImgCommit (v : BitVec 32) (s : State) : Host.Outcome State Fault Refusal :=
  devOnly s fun d => d.hostWrite fun d => d.imgCtrl v.toNat

/-- IMG_COMMIT_CHECK_DONE (R69, R70). -/
def execImgCommitCheckDone (s : State) : Host.Outcome State Fault Refusal :=
  devOnly s fun d => d.commitDone

/-- IMG_DISCARD (R70, R75). -/
def execImgDiscard (v : BitVec 32) (s : State) : Host.Outcome State Fault Refusal :=
  devOnly s fun d => d.hostWrite fun d => d.imgCtrl v.toNat

end Sys2Proof.Machine
end

