-- ==== Sys2Proof/Machine/Rollout.lean ====
section
/-! DEFINITION. Rollout contexts (R282 to R294): what the eleven context operations do once their records are
read, the host's record writes and UNBIND; and a waiting heat that goes on (R141). -/

namespace Sys2Proof.Machine

open Sys2Proof.Config

/-! ### Rows (R283, R289) -/

/-- A row of `n` elements at an address as a tensor of one dimension (R283). -/
def rowDesc (r : List Byte) (a n : Nat) : Desc := ⟨a, ctxFmt r, 0, 0, 0, [n], [1], none, 0⟩

/-- A row of `n` elements at an address; none where it does not lie in HBM. -/
def rowAt (r : List Byte) (a n : Nat) : Option Desc :=
  if Machine.inHbm a (n * (ctxFmt r).bits / 8) then some (rowDesc r a n) else none

/-- An element written as +0 (R288, R289). -/
def zeroDatum : Datum × Bool := (.code 0, false)

/-- The element of a row at `a` for a tensor; of a row that does not lie in HBM, a free value (log entry 46). -/
def rowElem (t : Desc) (v : View) (f a : Nat) : Option Desc → Datum × Bool
  | some s => s.datum t v [f]
  | none => (.val (fval (outsideRow a f)), false)

/-- A rollout command with the records that it read as it was dispatched, by row (R286). -/
structure CtxRun where
  h  : Heat
  x  : CtxBody
  t  : Desc
  cs : List (Option (Nat × List Byte))

def CtxRun.ctxOf (c : CtxRun) (i : Nat) : Option (Nat × List Byte) := c.cs.getD i none

/-- The acting rows: row, context and record. -/
def CtxRun.acting (c : CtxRun) : List (Nat × Nat × List Byte) :=
  (c.cs.mapIdx fun i y => y.map fun z => (i, z.1, z.2)).filterMap id

def CtxRun.dma (c : CtxRun) : Requester := .dma c.h.id.cluster.val
def CtxRun.gather (c : CtxRun) : Requester := .gather c.h.id.cluster.val

/-! ### OPEN and RETIRE (R287) -/

/-- An image for OPEN keeps R283. -/
def imageOk (r : List Byte) : Bool :=
  let n := numAt r 0x18 4
  let last := ctxMax r - 1
  [1, 2, 3, 9].contains (byteAt r 3 0) && decide (1 ≤ ctxMax r) && numAt r 0x10 6 % 64 == 0 && n % 64 == 0
    && Machine.inHbm (ctxRow r 0 0 false) n && Machine.inHbm (ctxRow r 0 last false) n
    && Machine.inHbm (ctxRow r 0 0 true) n && Machine.inHbm (ctxRow r 0 last true) n && Machine.inHbm (ctxXrow r) n

/-- OPEN: the image is read, and the context is READY. -/
def CtxRun.openPart (c : CtxRun) : Part :=
  { no := 1, who := c.dma, lane := 0, engines := [], reads := [⟨1, [(c.t.span.1, 128)], accOut, false⟩], full := []
    writes := [], slots := [], wacc := accOut, ready := true
    run := fun v w =>
      let img := (List.range 128).map fun i => v 1 (c.t.span.1 + i)
      let r := img.map Prod.fst
      if img.any Prod.snd then (w.up fun d => d.endHeat c.h, false)
      else if imageOk r then
        (w.up fun d => d.putCtx c.x.ctx (setField (withState r 1) 2 1 (d.groupOf c.h)), true)
      else (w.up fun d => d.ctxRefuse c.h c.x.ctx 0, false) }

/-- RETIRE: the record is written to T0, and once that is done the context is FREE. -/
def CtxRun.retireParts (c : CtxRun) (w : Wk) : List Part :=
  let part := fun (no : Nat) (ready : Bool) run =>
    { no := no, who := c.dma, lane := 0, engines := [], reads := [], full := [], writes := [], slots := [], wacc := accIn
      ready := ready, run := fun _ w => run w : Part }
  [part 1 true fun w => w.store c.h.id c.dma 0 1
     (c.acting.map fun y => (c.t.span.1, withCheck y.2.2, false)) [] false,
   part 2 (!w.dev.unacked c.h 0 1) fun w => (w.up fun d => d.upCtx c.x.ctx fun r => withState r 0, true)]

/-! ### BATCH (R288) -/

/-- The id that a BATCH writes to a row of its list: −1 where the row names no context. -/
def CtxRun.batchId (c : CtxRun) (idx : List Nat) : Datum × Bool :=
  (.code (match c.ctxOf (idx.getD 0 0) with | some y => y.1 | none => 0xFFFFFFFF), false)

/-- What a BATCH writes to an element of its rows: +0 where the row names no context. -/
def CtxRun.batchElem (c : CtxRun) (v : Nat → View) (idx : List Nat) : Datum × Bool :=
  let i := idx.getD 1 0
  match c.ctxOf i with
  | some y => rowElem c.t (v (i + 1)) (idx.getD 0 0) (ctxXrow y.2) (rowAt y.2 (ctxXrow y.2) (c.t.e 0))
  | none => zeroDatum

/-- The rows at the XROW of the contexts of a batch, each in a fetch group of its own. -/
def CtxRun.xrows (c : CtxRun) : List Rd :=
  c.acting.filterMap fun y => (rowAt y.2.2 (ctxXrow y.2.2) (c.t.e 0)).map fun d =>
    ⟨y.1 + 1, d.places, accGather, false⟩

/-- What a part stores to a tensor and, before it, to others: whole tiles of a compressed one, sums of an
accumulating one, else its elements; with the amax fold (R94, R164, R174). -/
def CtxRun.put (c : CtxRun) (no : Nat) (es : List (List Nat)) (v : View) (ws : List (Nat × Bool)) (first : List Piece)
    (folds : List AtomOp) (f : List Nat → Datum × Bool) (w : Wk) : Wk × Bool :=
  let fold := folds ++ c.t.foldOf (es.map f)
  if c.t.tileMap != 0 then
    w.storeTiles c.h c.gather 0 no first
      ((List.range c.t.tiles).map fun n => c.t.tileStore (c.t.knowing v ws) c.h.ovf n f) fold
  else if c.t.wmode == 2 then
    let l := es.map fun i => (i, f i)
    w.store c.h.id c.gather 0 no first (c.t.accAtoms l ++ fold) (l.any fun y => y.2.2)
  else w.store c.h.id c.gather 0 no (first ++ c.t.piecesOn v c.h.ovf es c.t.stands f) fold false

/-- The places of a tensor's elements where they are stored one by one. -/
def Desc.ownPlaces (t : Desc) (es : List (List Nat)) : List (Nat × Nat) :=
  if t.tileMap == 0 then (es.map t.writePlaces).flatten else []

/-- BATCH: the ids, and the row of each context. -/
def CtxRun.batchParts (c : CtxRun) (w : Wk) : List Part :=
  let l := c.x.list.getD .zero
  let ws := (c.h.at 0).words
  let pl := (l.elems.map l.writePlaces).flatten ++ c.t.ownPlaces c.t.elems
  { no := 1, who := c.gather, lane := 0, engines := [], full := [], reads := c.xrows ++ c.t.storeScale 0 accGather
    writes := pl, slots := pondSlots pl, wacc := accGather, ready := true
    run := fun v w =>
      c.put 1 c.t.elems (v 0) ws (l.piecesOn (v 0) c.h.ovf l.elems l.stands c.batchId) [] (c.batchElem v) w }
  :: (if c.t.tileMap == 0 then []
      else [tileEntries w c.h c.gather 0 accGather c.t ws 2 c.t.tiles (List.range c.t.tiles) 1])

/-! ### Per-row operations (R289, R290) -/

/-- ADVANCE: the token and the position are the record's next; a context that is still BUSY leaves (R292). -/
def advance (old : List Byte) (token : Nat) (r : List Byte) : List Byte :=
  let pos := (ctxPos old + 1) % 2 ^ 32
  fromBusy (if pos == ctxMax old then 3 else 1) (setField (setField r 0xC 4 token) 4 4 pos)

/-- ADVANCE reads its tokens and acts. -/
def CtxRun.advancePart (c : CtxRun) : Part :=
  { no := 1, who := c.dma, lane := 0, engines := [], reads := [c.t.rd 1 accOut false], full := [], writes := []
    slots := [], wacc := accOut, ready := true
    run := fun v w =>
      let tok := fun i => c.t.code (v 1) (unravel c.t.ext i)
      if c.acting.any fun y => (tok y.1).2 then (w.up fun d => d.endHeat c.h, false)
      else (w.up fun d => c.acting.foldl (fun d y => d.upCtx y.2.1 (advance y.2.2 (tok y.1).1)) d, true) }

/-- The cache row an acting row writes or reads at a position; none where it does not lie in HBM. -/
def CtxRun.cacheRow (c : CtxRun) (r : List Byte) (p : Nat) : Option Desc :=
  rowAt r (ctxRow r c.x.layer p c.x.kvsel) (c.t.e 0)

/-- The part of a KV_APPEND that writes a row at its context's position: nothing at the last one. -/
def CtxRun.appendPart (c : CtxRun) (mem : Mem) (y : Nat × Nat × List Byte) : Part :=
  let es := c.t.elems.filter fun idx => idx.getD 1 0 == y.1
  let no := y.1 + 1
  { no := no, who := c.gather, lane := 0, engines := [], full := []
    reads := [⟨no, nub (es.map (c.t.loadPlaces mem.view)).flatten [], accGather, true⟩]
    writes := [], slots := [], wacc := accGather, ready := true
    run := fun v w =>
      if ctxPos y.2.2 == ctxMax y.2.2 then (w, true)
      else match c.cacheRow y.2.2 (ctxPos y.2.2) with
        | none => (w, true)
        | some d => w.store c.h.id c.gather 0 no (d.piecesOn (v no) c.h.ovf d.elems d.stands fun idx =>
            c.t.datum d (v no) [idx.getD 0 0, y.1]) [] false }

/-- The places in ponds of the rows of T0 that a KV_APPEND does not write. -/
def CtxRun.unread (c : CtxRun) (mem : Mem) : List (Nat × Nat) :=
  let used := (c.acting.map fun y => (c.t.elems.filter fun idx => idx.getD 1 0 == y.1)).flatten
  pondPlaces ((c.t.elems.filter fun i => !used.contains i).map (c.t.loadPlaces mem.view)).flatten

/-- KV_APPEND: its rows, and then what is left of T0 is read (R140). -/
def CtxRun.appendParts (c : CtxRun) (mem : Mem) : List Part :=
  c.acting.map (c.appendPart mem) ++
    (if (c.unread mem).isEmpty then []
     else
       [{ no := c.cs.length + 1, who := c.gather, lane := 0, engines := [], full := []
          reads := [⟨0, c.unread mem, accGather, true⟩]
          writes := [], slots := [], wacc := accGather, ready := true, run := fun _ w => (w, true) }])

/-- The place and the cache row that element `k` of row `i` of a KV_READ reads: none outside the context's
positions. -/
def CtxRun.readAt (c : CtxRun) (i k : Nat) : Option (Nat × Option Desc) :=
  (c.ctxOf i).bind fun y =>
    let p := c.x.arg.toNat + k
    if p < ctxPos y.2 + b2n c.x.incl then some (ctxRow y.2 c.x.layer p c.x.kvsel, c.cacheRow y.2 p) else none

/-- What a KV_READ writes to an element of its tensor: its cache row where the position is valid, else +0. -/
def CtxRun.readElem (c : CtxRun) (v : Nat → View) (idx : List Nat) : Datum × Bool :=
  let i := idx.getD 2 0
  match c.readAt i (idx.getD 1 0) with
  | some y => rowElem c.t (v (i + 1)) (idx.getD 0 0) y.1 y.2
  | none => zeroDatum

/-- What a KV_READ writes to an element of its bias: 0 where the position is valid, else −∞. -/
def CtxRun.readBias (c : CtxRun) (idx : List Nat) : Datum × Bool :=
  (.val (if (c.readAt (idx.getD 1 0) (idx.getD 0 0)).isSome then .fin false 0 0 else fval fnegInf), false)

/-- The cache rows that row `i` of a KV_READ reads, each line once (R289). -/
def CtxRun.readRd (c : CtxRun) (i : Nat) : Rd :=
  ⟨i + 1, (((List.range (c.t.e 1)).filterMap fun k => (c.readAt i k).bind Prod.snd).map Desc.places).flatten, accGather, false⟩

/-- The part of a KV_READ that serves a list of rows. -/
def CtxRun.readPart (c : CtxRun) (k : Nat) (rows : List Nat) : Part :=
  let b := c.x.t1.getD .zero
  let es := c.t.elems.filter fun idx => rows.contains (idx.getD 2 0)
  let bs := b.elems.filter fun idx => rows.contains (idx.getD 1 0)
  let pl := c.t.ownPlaces es ++ (bs.map b.writePlaces).flatten
  { no := k + 1, who := c.gather, lane := 0, engines := [], full := []
    reads := rows.map c.readRd ++ c.t.storeScale 0 accGather
    writes := pl, slots := pondSlots pl, wacc := accGather, ready := true
    run := fun v w =>
      let l := bs.map fun i => (i, c.readBias i)
      let ps := if b.wmode == 2 then [] else b.piecesOn (v 0) c.h.ovf bs b.stands c.readBias
      let add := if b.wmode == 2 then b.accAtoms l else []
      c.put (k + 1) es (v 0) (c.h.at 0).words ps (add ++ b.foldOf (l.map Prod.snd)) (c.readElem v) w }

/-- KV_READ: row by row, but for a tensor whose blocks or tiles hold elements of several rows. -/
def CtxRun.readParts (c : CtxRun) (w : Wk) : List Part :=
  let all := List.range c.cs.length
  if c.t.tileMap != 0 then
    [c.readPart 0 all, tileEntries w c.h c.gather 0 accGather c.t (c.h.at 0).words 2 c.t.tiles (List.range c.t.tiles) 1]
  else if c.t.wmode == 2 || (c.t.fmt.isMx && c.t.blockDim == 2) then [c.readPart 0 all]
  else all.map fun i => c.readPart i [i]

/-- The draw `j` of a context (R290). -/
def ctxDraw (r : List Byte) (id j : Nat) : W32 :=
  let k := (List.range 4).map fun i => BitVec.ofNat 32 (numAt r (0x30 + 4 * i) 4)
  let lo := BitVec.ofNat 32 (numAt r 0x40 4)
  let hi := BitVec.ofNat 32 (numAt r 0x44 4)
  let u := (spring (k.set 3 (k.getD 3 0 ^^^ hi))
    [BitVec.ofNat 32 (j / 4), lo, BitVec.ofNat 32 id, 0xFFFFFFFF]).getD (j % 4) 0
  fround (.fin false (u.toNat / 256) (-24))

/-- What a SAMPLE writes to an element: a draw of its row's context, or +0. -/
def CtxRun.sampleElem (c : CtxRun) (idx : List Nat) : Datum × Bool :=
  match c.ctxOf (idx.getD 1 0) with
  | some y => (.code (ctxDraw y.2 y.1 (idx.getD 0 0)).toNat, false)
  | none => zeroDatum

/-! ### Plans -/

/-- A compressed T0 is stored through its tile map, which is read first (R172, R174). -/
def CtxRun.mapPart (c : CtxRun) : Part :=
  wordsPart c.gather [⟨0, c.t.mapFetch, accGather, false⟩] accGather c.h.id 0 fun v _ => .ok (c.t.mapWords v)

/-- What is left of a rollout command whose records are read. -/
def contextPlan (x : CtxBody) (w : Wk) (h : Heat) : Plan :=
  let c : CtxRun := ⟨h, x, x.t0.getD .zero, (h.at 0).rows⟩
  let first := (x.cop == 5 || x.cop == 9) && c.t.tileMap != 0 && !(h.at 0).ran.contains 0
  if first then ⟨[c.mapPart], false, []⟩
  else ⟨match x.cop with
    | 0 => [c.openPart]
    | 4 => c.retireParts w
    | 5 => c.batchParts w
    | 7 => [c.advancePart]
    | 8 => c.appendParts w.mem
    | 9 => c.readParts w
    | 0xA => c.t.slotGroups.mapIdx (slotPart h 0 c.t (fun _ _ => []) fun _ => .ok c.sampleElem)
    | _ => [], true, []⟩

/-- A rollout command goes on (R286): its records first, where they are not read yet. -/
def Wk.contextStep (w : Wk) (id : HeatId) (x : CtxBody) : Wk :=
  let w := w.up fun d => d.ctxBegin w.mem id
  match w.dev.heat id with
  | none => w
  | some h => if (h.at 0).begun then w.stage (contextPlan x) id 0 else w

/-- Run the operation `cop` of a heat that may go on. -/
def Wk.withCop (w : Wk) (id : HeatId) (cop : Nat) : Wk :=
  w.withHeat id fun h w =>
    match h.body with
    | .context x => if x.cop == cop then w.contextStep id x else w
    | _ => w

/-! ### Meanings -/

/-- OPEN (R287). -/
def execCtxOpen (h : HeatId) (s : State) : Host.Outcome State Fault Refusal :=
  done s fun w => w.withCop h 0

/-- PARK (R287). -/
def execCtxPark (h : HeatId) (s : State) : Host.Outcome State Fault Refusal :=
  done s fun w => w.withCop h 1

/-- RESUME (R287). -/
def execCtxResume (h : HeatId) (s : State) : Host.Outcome State Fault Refusal :=
  done s fun w => w.withCop h 2

/-- CANCEL of a context (R287). -/
def execCtxCancel (h : HeatId) (s : State) : Host.Outcome State Fault Refusal :=
  done s fun w => w.withCop h 3

/-- RETIRE (R287). -/
def execCtxRetire (h : HeatId) (s : State) : Host.Outcome State Fault Refusal :=
  done s fun w => w.withCop h 4

/-- BATCH (R288). -/
def execCtxBatch (h : HeatId) (s : State) : Host.Outcome State Fault Refusal :=
  done s fun w => w.withCop h 5

/-- RELEASE of a list's contexts (R289). -/
def execCtxRelease (h : HeatId) (s : State) : Host.Outcome State Fault Refusal :=
  done s fun w => w.withCop h 6

/-- ADVANCE (R289). -/
def execCtxAdvance (h : HeatId) (s : State) : Host.Outcome State Fault Refusal :=
  done s fun w => w.withCop h 7

/-- KV_APPEND (R289). -/
def execKvAppend (h : HeatId) (s : State) : Host.Outcome State Fault Refusal :=
  done s fun w => w.withCop h 8

/-- KV_READ (R289). -/
def execKvRead (h : HeatId) (s : State) : Host.Outcome State Fault Refusal :=
  done s fun w => w.withCop h 9

/-- SAMPLE (R290). -/
def execSample (h : HeatId) (s : State) : Host.Outcome State Fault Refusal :=
  done s fun w => w.withCop h 0xA

/-- Every BUSY context of a group is READY, unchanged (R293). -/
def Dev.unbindGroup (d : Dev) (g : Nat) : Dev :=
  (d.ctx.filter fun x => ctxState x.2 == 2 && ctxGroupOf x.2 == g).foldl
    (fun d x => d.putCtx x.1 (withState x.2 1)) d

/-- A write of `CTX_CTRL` (R293). -/
def Dev.ctxCtrl (d : Dev) (v : Nat) : Dev :=
  let g := bits v 3 0
  let d := { d with ctxGroup := g }
  if bit v 4 then d.unbindGroup g else d

/-- UNBIND (R293). -/
def execUnbind (v : BitVec 32) (s : State) : Host.Outcome State Fault Refusal :=
  devOnly s fun d => d.hostWrite fun d => d.ctxCtrl v.toNat

/-- A host write to one record (R292): it is carried out in FREE, PARKED and FAULT alone and leaves FREE or
PARKED; else it is dropped with a record. -/
def Dev.ctxHostWrite (d : Dev) (id o : Nat) (data : List Byte) : Dev :=
  let old := d.ctxAt id
  let new := old.take o ++ data ++ old.drop (o + data.length)
  if [0, 3, 4].contains (ctxState old) && (ctxState new == 0 || ctxState new == 3) then d.setCtx id new
  else d.raise { Rec.of 0x0069 1 with detail := leBytes 2 id ++ leBytes 1 0xFF }

/-- Bytes written from an offset of the context window, record by record (R416). -/
def Dev.ctxWindowWrite (d : Dev) : Nat → Nat → List Byte → Dev
  | 0, _, _ => d
  | n + 1, a, data =>
    if data.isEmpty || 0x800000 ≤ a then d
    else
      let k := 128 - a % 128
      (d.ctxHostWrite (a / 128) (a % 128) (data.take k)).ctxWindowWrite n (a + k) (data.drop k)

/-- CONTEXT_RECORD_WRITE (R292, R416): `offset` counts from the start of the context window. -/
def execContextRecordWrite (offset : Nat) (data : List Byte) (s : State) :
    Host.Outcome State Fault Refusal :=
  devOnly s fun d => if d.hostEarly then d.ctxWindowWrite (data.length / 128 + 2) offset data else d

/-! ### Waiting heats (R139 to R141) -/

/-- What is left of an update. -/
def updatePlan (u : UpdBody) : Wk → Heat → Plan :=
  match u.uop with
  | 0 => applyPlan u (u.out.getD .zero)
  | 1 => proposePlan u (u.out.getD .zero)
  | _ => clearPlan u

/-- A heat of any family goes on. -/
def Wk.bodyStep (w : Wk) (h : Heat) : Wk :=
  match h.body with
  | .stage x => w.stage (x.plan 0 []) h.id 0
  | .chained l => Wk.stages h.id 0 l w
  | .fill f a n v => w.stage (fillPlan f a n v) h.id 0
  | .release a n => w.releaseStep h a n
  | .copy a b n k => w.stage (copyPlan a b n k) h.id 0
  | .update u => w.stage (updatePlan u) h.id 0
  | .context x => w.contextStep h.id x
  | _ => w

/-- WAITER_RESUME (R139, R140, R141): a heat that waited on a slot goes on where the slot lets it. -/
def execWaiterResume (h : HeatId) (s : State) : Host.Outcome State Fault Refusal :=
  done s fun w => w.withHeat h fun x w => if x.waits.isEmpty then w else w.bodyStep x

end Sys2Proof.Machine
end

