-- ==== Sys2Proof/Machine/Streams.lean ====
section
/-! DEFINITION. The host's writes of stream registers (R197 to R205, R394, R476): rings, enabling,
cancelling and doorbells. -/

namespace Sys2Proof.Machine

open Sys2Proof.Config

/-- A write of `STR_RING` or `STR_CPL` (R202). -/
def Dev.strRing (d : Dev) (c s : Nat) (completion : Bool) (v : Nat) : Dev :=
  let lg := bits v 4 0
  let base := bits v 47 12 * 4096
  let inRange := if completion then decide (4 ≤ lg ∧ lg ≤ 16) else decide (6 ≤ lg ∧ lg ≤ 20)
  let fits := inHbm base (2 ^ lg * (if completion then 16 else 64))
  let w := BitVec.ofNat 64 (base + lg)
  if d.streamState c s == 0 && inRange && fits then
    if completion then d.setStream c s fun t => { t with cplReg := w, cplHead := 0, cplTail := 0 }
    else d.setStream c s fun t => { t with ring := w, tail := 0, fetch := 0, dead := [], skips := [] }
  else d.streamConfig (strOffset c s (if completion then 8 else 0))

/-- STR_RING_WRITE (R202). -/
def execStrRingWrite (cluster : Fin 128) (stream : StreamName) (completion : Bool) (v : BitVec 64)
    (s : State) : Host.Outcome State Fault Refusal :=
  devOnly s fun d => d.hostWrite fun d => d.strRing cluster.val stream.num completion v.toNat

/-- A write of ENABLE (R203): a 1 is dropped until step 7 ends (R476) and while a restore has not been
resumed (R394). -/
def Dev.enableStream (d : Dev) (c s : Nat) (on : Bool) : Dev :=
  if on && (decide (d.start.step ≤ 7) || decide (3 ≤ d.sec.phase)) then d.streamConfig (strOffset c s 0x10)
  else d.setStream c s fun t => { t with enable := on }

/-- STREAM_ENABLE (R197, R203). -/
def execStreamEnable (cluster : Fin 128) (stream : StreamName) (enable : Bool) (s : State) :
    Host.Outcome State Fault Refusal :=
  devOnly s fun d => if d.hostEarly then d.enableStream cluster.val stream.num enable else d

/-- A host CANCEL (R203): every command from RETIRE to TAIL is cancelled, fetched or not, with the
chain of R207 also for what an overrun or a fault cancelled; a halt clears unless the cluster is halted
for good (R369). -/
def Dev.hostCancel (d : Dev) (c s : Nat) : Dev :=
  let t := d.stream c s
  let n := (t.tail - t.fetch).toNat
  let d := d.setStream c s fun t => { t with
    fetch := t.tail
    dead := (t.dead.map fun x => (x.1, x.2.1, true)) ++ (if n == 0 then [] else [(t.fetch, n, true)]) }
  let d := d.cancelAll c (d.streamHeats c s) true
  if NSet.has d.flt.halted c then d else d.setStream c s fun t => { t with halt := 0 }

/-- HOST_CANCEL (R203, R205): the write of `STR_CTRL` that sets CANCEL, with its ENABLE bit. -/
def execHostCancel (cluster : Fin 128) (stream : StreamName) (enable : Bool) (s : State) :
    Host.Outcome State Fault Refusal :=
  devOnly s fun d => d.hostWrite fun d =>
    (d.hostCancel cluster.val stream.num).enableStream cluster.val stream.num enable

/-- DOORBELL (R199, R416, R417, R420). -/
def execDoorbell (cluster : Fin 128) (stream : StreamName) (tail : BitVec 32) (s : State) :
    Host.Outcome State Fault Refusal :=
  devOnly s fun d => if d.hostEarly then d.bell cluster.val stream.num tail else d

end Sys2Proof.Machine
end

