-- ==== Sys2Proof/Machine/Sweep.lean ====
section
/-! DEFINITION. The warm-up sweep (R373 to R379): its items, their escalation, their failures and the
full pass. -/

namespace Sys2Proof.Machine

open Sys2Proof.Config

/-- The key of an item: its kind times 10,000 and its unit. The first 2,176 are those of the known-answer tests. -/
def sweepKey : SweepItem → Nat
  | .engine c p => 17 * c.val + p.val
  | .pond c p => 10000 + 17 * c.val + p.val
  | .scrub s k => 20000 + 64 * s.val + k.val
  | .margin q l => 30000 + 8 * q.val + l.val

/-- The kind of an item in a sweep-urgent record. -/
def sweepKind (i : SweepItem) : Nat := sweepKey i / 10000

def Dev.setItem (d : Dev) (k : Nat) (f : Item → Item) : Dev :=
  { d with swp := { d.swp with items := AMap.upd .zero d.swp.items k f } }

/-- Every item there is work for: cores not fenced, parts of every stack, lanes in service. -/
def Dev.sweepKeys (d : Dev) : List Nat :=
  let cores := ((List.range 128).map fun c => (List.range 17).filterMap fun p =>
    if (d.fencedCores c).contains p then none else some (17 * c + p)).flatten
  let lanes := ((List.range 16).map fun q => (List.range 8).filterMap fun l =>
    if d.portUp q && (d.port q).lanesUp.toNat.testBit l then some (30000 + 8 * q + l) else none).flatten
  cores ++ cores.map (· + 10000) ++ (List.range 1280).map (· + 20000) ++ lanes

/-- An urgent item holds its engines in the first cycles of the lap, 0.4 % of it (R377). -/
def Dev.urgentNow (d : Dev) (item : SweepItem) : Bool :=
  (d.swp.full || (d.item (sweepKey item)).urgent) && !d.lap.held && decide (d.lap.cycle < 48 * d.live.period / 10)

/-- A piece of an item on a physical core may run: a known-answer test where no heat holds an engine of the
core, or where the item is urgent and takes them (R374, R377), a march at any time, since it uses turns that their
owners leave (R149). -/
def Dev.sweepMay (d : Dev) (item : SweepItem) : Bool :=
  match item with
  | .engine c p => !(d.fencedCores c.val).contains p.val && match d.logical c.val p.val with
    | none => true
    | some i => d.urgentNow item || (d.heldEngines c.val).all fun e => e / 3 != i
  | .pond c p => !(d.fencedCores c.val).contains p.val
  | _ => true

/-- `SWP_STATUS`.FAIL (R383, R422). -/
def Dev.sweepFail (d : Dev) : Dev := ({ d with swp := { d.swp with fail := true } }.latch 0xC804 3).msix 777

/-- A known-answer or march failure (R378). -/
def Dev.coreFail (d : Dev) (c p : Nat) : Dev :=
  let d := d.sweepFail
  match d.logical c p with
  | some i => d.fence c i (arrayFault 1)
  | none =>
    (d.raise { arrayFault 1 with cluster := c, spares := 0 }).fencePhys c p

/-- An item is complete (R375, R379): a full pass ends with the last one. -/
def Dev.itemDone (d : Dev) (k : Nat) : Dev :=
  let d := d.setItem k fun _ => { Item.zero with lap := d.lap.count + 1, doneFull := d.swp.full }
  if d.swp.full && d.sweepKeys.all (fun k => (d.item k).doneFull) then
    { d with swp := { d.swp with full := false } }
  else d

/-- A pond word of a logical core lies in a slot that a march may test. -/
def Dev.marchable (d : Dev) (c core word : Nat) : Bool :=
  let g := slotAt (pondBase + 8 * word)
  g / slotsPerCluster == c && slotCore g == core && !d.isFull g && !d.isClaimed g

/-- A march has rewritten the words of the core's slots that are EMPTY and unclaimed: their correctable records
may be raised again (R147). -/
def Dev.marched (d : Dev) (c p : Nat) : Dev :=
  match d.logical c p with
  | none => d
  | some i => { d with mar := { d.mar with pondSeen := d.mar.pondSeen.filter fun x => !d.marchable c i x.1 } }

/-- A pond word that the march reads in an EMPTY, unclaimed slot (R147 to R149): a corrected word is rewritten,
so that its record is no longer suppressed; poison is recorded with no stream and stays. -/
def Wk.marchWord (w : Wk) (e : PondError) : Wk :=
  let g := e.cluster.val * slotsPerCluster + e.slot.val
  if w.dev.isFull g || w.dev.isClaimed g then w
  else
    let w := w.pondError e
    match e.kind with
    | .corrected => w.up fun d => { d with mar := { d.mar with pondSeen := NSet.del d.mar.pondSeen (pondErrWord e) } }
    | .uncorrectable => w.up fun d => d.raise (pondErrRec e 0x0013 2)

/-- An item has run a piece in this lap. -/
def Dev.pieceDone (d : Dev) (k : Nat) : Dev :=
  d.setItem k fun x => { x with pieces := x.pieces + 1, last := d.lap.count + 1 }

/-- What a piece of an item brings (R373, R378). -/
def Wk.sweepStep (w : Wk) (i : SweepItem) (r : SweepResult) : Wk :=
  let k := sweepKey i
  if !w.dev.sweepMay i then w
  else match r with
    | .piece => w.up fun d => d.pieceDone k
    | .complete => w.up fun d =>
      let d := d.itemDone k
      match i with
      | .pond c p => d.marched c.val p.val
      | _ => d
    | .fail => w.up fun d =>
      match i with
      | .engine c p | .pond c p => d.coreFail c.val p.val
      | .margin q l => (d.sweepFail).dropLane q.val l.val true
      | .scrub _ _ => d
    | .pondWord e =>
      match i with
      | .engine c p | .pond c p =>
        if e.cluster == c && w.dev.logical c.val p.val == some (e.slot.val % 16) then w.marchWord e else w
      | _ => w

/-- SWEEP_ITEM (R373 to R378). -/
def execSweepItem (item : SweepItem) (result : SweepResult) (s : State) : Host.Outcome State Fault Refusal :=
  done s fun w => w.sweepStep item result

/-- Laps of 60 minutes at the live period (R375). -/
def Dev.sweepLaps (d : Dev) : Nat := 3600000000 / max 1 d.live.period

/-- The due lap of an item (R376): it leaves the 4,096 laps of the escalation within the 60 minutes. -/
def Dev.dueLap (d : Dev) (k : Nat) : Nat :=
  (d.item k).lap.toNat + min (sweepDue k d.sweepLaps) (d.sweepLaps - 4096)

/-- 512 laps have passed since an item was due, and since its last piece (R376). -/
def Dev.overdue (d : Dev) (k : Nat) : Bool :=
  let now := d.lap.count.toNat
  decide (d.dueLap k + 512 ≤ now) && decide ((d.item k).last.toNat + 512 ≤ now + 1)

/-- SWEEP_POST (R376): an item that has found no idle time for 512 laps is posted at priority 0. -/
def execSweepPost (item : SweepItem) (s : State) : Host.Outcome State Fault Refusal :=
  devOnly s fun d =>
    let k := sweepKey item
    if (d.item k).posted || !d.overdue k then d
    else d.setItem k fun x => { x with posted := true, prio := 0, age := 0 }

/-- SWEEP_URGENT (R42, R376, R377): at an effective edge, before its lap has counted a cycle, a posted item at
priority 7 becomes urgent; a margin check never does. -/
def execSweepUrgent (item : SweepItem) (s : State) : Host.Outcome State Fault Refusal :=
  devOnly s fun d =>
    let x := d.item (sweepKey item)
    if x.posted && x.prio == 7 && !x.urgent && sweepKind item != 3 && d.lap.cycle == 0 && !d.lap.held then
      let d := d.setItem (sweepKey item) fun x => { x with urgent := true }
      (({ d with swp := { d.swp with urgentSeen := true } }.latch 0xC804 2).raise
        { Rec.of 0x0080 0 with detail := leBytes 1 (sweepKind item) }).msix 777
    else d

/-- The sweep ages its posted items as the marshal ages heats, with 512 laps for AGE_LAPS (R376). -/
def Dev.ageSweep (d : Dev) : Dev :=
  let step := fun (x : Item) =>
    if !x.posted || 7 ≤ x.prio then x
    else if 512 ≤ x.age + 1 then { x with prio := x.prio + 1, age := 0 }
    else { x with age := x.age + 1 }
  { d with swp := { d.swp with items := d.swp.items.map fun x => (x.1, step x.2) } }

/-- `SWP_PASS_LAP` at an effective edge (R383). -/
def Dev.sweepPass (d : Dev) : Dev :=
  let now := d.lap.count.toNat
  let ok := d.sweepKeys.all fun k =>
    let l := (d.item k).lap.toNat
    l != 0 && decide (now < l + d.sweepLaps)
  if ok then { d with swp := { d.swp with passLap := d.lap.count } } else d

/-- At least one item is urgent (R379, R383): in a full pass all are. -/
def Dev.anyUrgent (d : Dev) : Bool := d.swp.full || d.swp.items.any fun x => x.2.urgent

/-- A full pass starts: every item runs once, all urgent (R379, R383). -/
def Dev.startFull (d : Dev) : Dev :=
  let items := (d.swp.items.map fun x => (x.1, { x.2 with doneFull := false })).filter fun x => x.2 != .zero
  ({ d with swp := { d.swp with full := true, urgentSeen := true, items := items } }.latch 0xC804 2).msix 777

/-- A write of 1 to `SWP_CTRL`.FULL (R379): only while every stream is DISABLED. -/
def Dev.sweepFull (d : Dev) : Dev := if d.allDisabled then d.startFull else d.streamConfig 0xC800

/-- SWEEP_FULL (R379). -/
def execSweepFull (s : State) : Host.Outcome State Fault Refusal :=
  devOnly s fun d => d.hostWrite fun d => d.sweepFull

end Sys2Proof.Machine
end

