-- ==== Sys2Proof/Machine/Securing.lean ====
section
/-! DEFINITION. Securing and restoring (R384 to R407): the register record, the phases of a securing,
the restore and its sources, resuming, verification, the interval and exposure; and how the starter sends
decisions and domain actions (R301, R355, R356), which these need. -/

namespace Sys2Proof.Machine

open Sys2Proof.Config

/-! ### Decisions and domain actions (R301, R355, R356) -/

/-- Ports to the tick children: modules whose TICK_PARENT port links to this module (R301), or, toward a
starter that took over, modules whose next hop toward it is this module (R359). -/
def Dev.childPortsOf (d : Dev) (newStarter : Option Nat) : List Nat :=
  match d.pos with
  | none => []
  | some me => (List.range 16).filter fun q =>
    let p := d.port q
    let t := d.live.tickParent p.peerPos
    d.portUp q && p.peerKind == 1 && (match newStarter with
      | some s => p.peerPos != s && (d.hop p.peerPos s).map Prod.snd == some me
      | none => t != 0xFF && (d.live.peer p.peerPos t).1 == me)

def Dev.childPorts (d : Dev) : List Nat := d.childPortsOf d.dom.newStarter

/-- A decision travels down the tick tree. -/
def Dev.sendDown (d : Dev) (x : Decision) : Dev :=
  let ports := if x.verdict == 0x14 then d.childPortsOf (some x.pos.toNat) else d.childPorts
  ports.foldl (fun d q => d.send q (.decision x)) d

/-- The starter decides: the decision is sent, and waits for its edge here too. -/
def Dev.decide_ (d : Dev) (x : Decision) : Dev :=
  { d with dom := { d.dom with decided := d.dom.decided ++ [x] } }.sendDown x

/-- The next edge at which an action can take effect in every module: not one that is held. -/
def Dev.nextEdge (d : Dev) : W64 := d.lap.count + (if d.lap.held then 2 else 1)

/-- A domain action (R355). -/
def Dev.act (d : Dev) (verdict pos : Nat) (data : List Byte) (arg : W32) : Dev :=
  d.decide_ ⟨0, 0, BitVec.ofNat 8 verdict, BitVec.ofNat 16 pos, d.nextEdge,
    (data ++ List.replicate 32 0).take 32, arg⟩

/-! ### Registers (R406) -/

/-- PHASE changes (R406, R422). -/
def Dev.setPhase (d : Dev) (n : Nat) : Dev :=
  if d.sec.phase == n then d else { d with sec := { d.sec with phase := n } }.msix 773

/-- DUE changes (R390, R422). -/
def Dev.setDue (d : Dev) (b : Bool) : Dev :=
  if d.sec.due == b then d else { d with sec := { d.sec with due := b } }.msix 773

/-- A domain of more than 32 runners verifies by digest, a smaller one by replay (R400, R402). -/
def Dev.byDigest (d : Dev) : Bool := decide (32 < d.live.runners)

/-- A record of the 0x0090 group with a position or group number (R425). -/
def secRec (code severity n : Nat) : Rec := { Rec.of code severity with detail := leBytes 2 n }

/-! ### The register record (R385) -/

/-- Bytes 0x00 to 0x2F: what CHECK covers. -/
def recordHead (number : Nat) (lap step cursor serial : Nat) : List Byte :=
  leBytes 4 0x50535A4D ++ leBytes 4 number ++ leBytes 8 lap ++ leBytes 8 step ++ leBytes 16 cursor ++ leBytes 8 serial

/-- The part of the record before the context table, of 8 KiB. -/
def Dev.recordBytes (d : Dev) : List Byte :=
  let x := d.sec
  let head := recordHead (x.number.toNat + 1) d.lap.count.toNat x.step.toNat x.cursor.toNat d.live.serial.toNat
  let sets := ((List.range 64).map fun w =>
    leBytes 4 (d.wset w).version.toNat ++ leBytes 1 (d.wset w).nbuf ++ leBytes 3 0).flatten
  let land := ((List.range 256).map fun t => leBytes 4 (AMap.get (0 : W32) d.rly.land t).toNat).flatten
  let scale := leBytes 1 (b2n d.rly.bank) ++ leBytes 1 d.rly.tag ++ leBytes 2 0 ++ leBytes 4 d.rly.expect.toNat
  let par := ((List.range 8).map fun e => b2n (d.rset e).par * 2 ^ e).foldl (· + ·) 0
  let counts := leBytes 8 d.upd.skips.toNat ++ leBytes 8 d.upd.commits.toNat ++ leBytes 8 d.upd.discards.toNat
  let rot := ((List.range 15).map fun g => leBytes 2 (AMap.get (0 : W16) d.ctxRot g).toNat).flatten ++ leBytes 2 0
  let sigs := ((List.range 960).map fun k => leBytes 4 (AMap.get (0 : W32) d.mar.signals k).toNat).flatten
  let ret := ((List.range 384).map fun k => leBytes 4 (d.retire (k / 3) (k % 3)).toNat).flatten
  let b := head ++ leBytes 4 (crc32c head).toNat ++ leBytes 12 0 ++ sets ++ land ++ scale ++ leBytes 8 par
    ++ counts ++ rot ++ sigs ++ ret ++ List.replicate 1140 0
  b ++ leBytes 4 (crc32c b).toNat

/-- A context record as it is secured: BUSY is written as READY. -/
def Dev.securedCtx (d : Dev) (id : Nat) : List Byte :=
  let r := d.ctxAt id
  if ctxState r == 2 then withCheck (withState r 1) else r

/-- The record is written at the start of the first extent of the secure list (R384). -/
def Wk.writeRecord (w : Wk) : Wk :=
  let d := w.dev
  match (d.secExtents w.mem)[0]? with
  | none => w
  | some x => w.hbmPut x.1 (d.recordBytes ++ ((List.range 65536).map d.securedCtx).flatten)

/-- The 8 KiB before the context table as memory holds them. -/
def Wk.savedRecord (w : Wk) : List Byte :=
  match (w.dev.secExtents w.mem)[0]? with
  | none => []
  | some x => w.bytes x.1 0x2000

/-- RCHECK holds. -/
def recordOk (r : List Byte) : Bool :=
  r.length == 0x2000 && numAt r 0x1FFC 4 == (crc32c (r.take 0x1FFC)).toNat

/-- A weight set as the record restores it (R397): its version CURRENT, every other buffer FREE. -/
def WSet.restored (s : WSet) (v : W32) : WSet :=
  let s := { s with version := v }
  { s with bufs := (List.range s.bufs.length).map fun b => if b == s.slotOf v then ⟨.current, v, 0, 0⟩ else .zero }

/-- A stream as the record restores it (R397). -/
def Stream.restored (t : Stream) (i : W32) : Stream :=
  { t with enable := false, halt := 0, tail := i, fetch := i, dead := [], skips := [] }

/-- The register record is loaded (R397). -/
def Dev.loadRecord (d : Dev) (r : List Byte) : Dev :=
  let n32 := fun (o : Nat) => BitVec.ofNat 32 (numAt r o 4)
  let n64 := fun (o : Nat) => BitVec.ofNat 64 (numAt r o 8)
  let d := (List.range 64).foldl (fun d w => d.setWset w fun s => s.restored (n32 (0x40 + 8 * w))) d
  let d := (List.range 8).foldl (fun d e => d.setRset e fun s => { s with par := bit (numAt r 0x648 1) e }) d
  let d := (List.range 384).foldl (fun d k =>
    d.setStream (k / 3) (k % 3) fun t => t.restored (n32 (0x1588 + 4 * k))) d
  let land := (List.range 256).foldl (fun m t => AMap.set 0 m t (n32 (0x240 + 4 * t))) ([] : AMap W32)
  let sigs := (List.range 960).foldl (fun m k => AMap.set 0 m k (n32 (0x688 + 4 * k))) ([] : AMap W32)
  let rot := (List.range 15).foldl (fun m g =>
    AMap.set 0 m g (BitVec.ofNat 16 (numAt r (0x668 + 2 * g) 2))) ([] : AMap W16)
  { d with
    rly := { d.rly with land := land, bank := bit (numAt r 0x640 1) 0, tag := numAt r 0x641 1, expect := n32 0x644 }
    upd := { d.upd with skips := n64 0x650, commits := n64 0x658, discards := n64 0x660 }
    mar := { d.mar with signals := sigs }
    ctxRot := rot
    sec := { d.sec with step := n64 0x10, cursor := BitVec.ofNat 128 (numAt r 0x18 16) } }

/-- The context table is loaded; each record is checked at its next use (R397). -/
def Wk.loadContexts (w : Wk) : Wk :=
  match (w.dev.secExtents w.mem)[0]? with
  | none => w
  | some x =>
    let mem := w.mem
    w.up fun d => (List.range 65536).foldl (fun d id => d.setCtx id (mem.bytes (x.1 + 0x2000 + 128 * id) 128)) d

/-! ### Copies and digests (R390, R395, R402) -/

/-- The live image copied to the snapshot, zeros up to `SEC_LEN`. -/
def Wk.copyOut (w : Wk) : Wk :=
  let d := w.dev
  let ps := d.shardPieces w.mem
  let total := ps.foldl (fun n x => max n (x.1 + x.2.2)) 0
  let w := Wk.each ps (fun w x => (w.op (.copy x.2.1 (d.sec.snap + x.1) x.2.2)).up fun d =>
    d.hbmFresh (d.sec.snap + x.1) x.2.2) w
  if total < d.secLen then
    (w.op (.clear (d.sec.snap + total) (d.secLen - total))).up fun d => d.hbmFresh (d.sec.snap + total) (d.secLen - total)
  else w

/-- The snapshot copied over the live image. -/
def Wk.copyIn (w : Wk) : Wk :=
  let d := w.dev
  Wk.each (d.shardPieces w.mem) (fun w x => (w.op (.copy (d.sec.snap + x.1) x.2.1 x.2.2)).up fun d =>
    d.hbmFresh x.2.1 x.2.2) w

/-- The SHA-384 digest of the snapshot. -/
def Wk.snapDigest (w : Wk) : Nat := sha384 (w.bytes w.dev.sec.snap w.dev.secLen)

/-- The positions at the next two list places of the parity group, which keep this module's digest. -/
def Dev.digestPartners (d : Dev) : List Nat :=
  let me := d.pos.getD 0xFFFF
  match d.live.groupOfPos me with
  | none => []
  | some (_, _, l) =>
    let m := l.idxOf me
    [l.getD ((m + 1) % l.length) 0xFFFF, l.getD ((m + 2) % l.length) 0xFFFF]

/-! ### Interval and exposure on the starter (R393, R403) -/

/-- A value rounded to FP64. -/
def f64 : FV → FV
  | .fin n m e =>
    if m == 0 then .fin n 0 0
    else
      let r := roundSig .even 53 (-1074) n m e
      .fin n r.1 r.2
  | v => v

/-- The integer part of a value that is not negative. -/
def FV.floorNat : FV → Nat
  | .fin _ m e => if 0 ≤ e then m * 2 ^ e.toNat else m / 2 ^ (-e).toNat
  | _ => 0

def fnat (n : Nat) : FV := .fin false n 0

/-- mean_gap() of R393, in FP64. -/
def meanGap (gaps : List Nat) (prior : Nat) : Nat :=
  let step := fun (x : FV × FV × FV) (i : Nat) =>
    let g := f64 (fnat (gaps.getD i prior))
    (f64 (x.1.add (f64 (x.2.2.mul g))), f64 (x.2.1.add x.2.2), f64 (x.2.2.mul (.fin false 7 (-3))))
  let r := (List.range 16).foldl step (fnat 0, fnat 0, fnat 1)
  (f64 (r.1.div r.2.1)).floorNat

def Conf.tMin (k : Conf) : Nat := numAt k.parity 0 4
def Conf.tMax (k : Conf) : Nat := numAt k.parity 4 4
def Conf.mPrior (k : Conf) : Nat := numAt k.parity 8 4

/-- The root of a product of whole numbers in FP64, rounded down. -/
def rootOf (n : Nat) : Nat :=
  match f64 (fnat n) with
  | .fin s m e => (f64 (FV.sqrt (.fin s (m * 2 ^ 60) (e - 60)))).floorNat
  | _ => 0

/-- interval() of R393. -/
def Dev.interval (d : Dev) : Nat :=
  let k := d.live
  if !d.sec.exposed.isEmpty then k.tMin
  else
    let c := if d.sec.cLaps == 0 then 1 else d.sec.cLaps.toNat
    max k.tMin (min k.tMax (rootOf (2 * c * meanGap d.sec.gaps k.mPrior)))

/-- `SEC_T_LAPS` and `SEC_M_LAPS` follow what they are computed from; only the starter and the standby
hold them (R407). -/
def Dev.noteInterval (d : Dev) : Dev :=
  if d.role ≤ 1 then
    { d with sec := { d.sec with
        tLaps := BitVec.ofNat 32 d.interval, mLaps := BitVec.ofNat 64 (meanGap d.sec.gaps d.live.mPrior) } }
  else d

def Dev.member (d : Dev) (p : Nat) : Member := AMap.get .zero d.dom.members p

def Dev.setMember (d : Dev) (p : Nat) (f : Member → Member) : Dev :=
  { d with dom := { d.dom with members := AMap.upd .zero d.dom.members p f } }

/-- A member's state changes, with the lap (R365). -/
def Dev.setMState (d : Dev) (p : Nat) (st : MState) : Dev :=
  d.setMember p fun m =>
    if m.state == st then m else { m with state := st, lap := BitVec.ofNat 32 d.lap.count.toNat }

/-- Two ACTIVE members of a parity group report one feed (R403). -/
def Dev.groupExposed (d : Dev) (g : Nat) : Bool :=
  let l := ((d.live.parityGroup g).2.filter fun p => (d.member p).state == .active).map fun p => (d.member p).feed
  !distinct l

/-- The exposed groups are marked anew; the starter records a group that becomes exposed. -/
def Dev.noteExposure (d : Dev) : Dev :=
  if d.role ≤ 1 then
    (List.range d.live.parityGroups).foldl (fun d g =>
      let was := NSet.has d.sec.exposed g
      if d.groupExposed g then
        let d := { d with sec := { d.sec with exposed := NSet.add d.sec.exposed g } }
        if was || d.role == 1 then d else d.raise (secRec 0x0093 1 g)
      else { d with sec := { d.sec with exposed := NSet.del d.sec.exposed g } }) d
  else d

/-- A restore of the domain is in progress: a position of the last restore is lost or not rebuilt yet. -/
def Dev.restoring (d : Dev) : Bool :=
  d.sec.lost.any fun p => (d.member p).state == .lost || decide (d.lap.count.toNat < (d.member p).counts.toNat)

/-- due() of R393 at a lap. -/
def Dev.securingDue (d : Dev) (lap : W64) : Bool :=
  !d.sec.verifyPend && !d.restoring && decide (d.interval ≤ (lap - d.sec.lastDone).toNat)

/-! ### The phases of a securing at their edges (R390, R401) -/

/-- A securing is void (R390, R404). -/
def Dev.voidSecuring (d : Dev) : Dev :=
  { d with sec := { d.sec with parityDone := false, copyDone := false } }.setPhase 0

/-- BEGIN and SEAL take effect on a runner of the domain, or on a module of none, unless a restore has begun
(R390, R395, R404). -/
def Dev.secures (d : Dev) : Bool := (d.role == 2 || d.role == 3) && decide (d.sec.phase < 3)

/-- The new secure point is current and valid (R390). -/
def Dev.completePoint (d : Dev) : Dev :=
  { d with sec := { d.sec with
      number := d.sec.number + 1, pointLap := BitVec.ofNat 32 d.lap.count.toNat
      source := false, valid := true, parityDone := false, copyDone := false } }

/-- The starter's comparison of a LOSS_RECORD with the reference (R401). -/
def Dev.verifyLoss (d : Dev) (data : List Byte) : Dev :=
  let d := { d with sec := { d.sec with lossData := data } }
  if !d.sec.verifyPend || (data.drop 8).take 8 != (d.sec.lossRef.drop 8).take 8 then d
  else if data == d.sec.lossRef then { d with sec := { d.sec with verifyPend := false } }
  else
    let d := ({ d with sec := { d.sec with verifyFail := true } }.latch 0xD004 9).raise (secRec 0x0091 2 (d.pos.getD 0xFFFF))
    if d.role == 0 then d.act 0x13 0xFFFF (leBytes 1 2) 0 else d

/-! ### Parity units (R387, R388, R396) -/

def mib : Nat := 2 ^ 20

/-- Bytes of the shard image: of the live image through the list, with zeros behind it, or of the snapshot (R384,
R395). -/
def Wk.imageBytes (w : Wk) (live : Bool) (o n : Nat) : List Byte :=
  if !live then w.bytes (w.dev.sec.snap + o) n
  else
    let b := ((w.dev.shardPieces w.mem).map fun x =>
      let lo := max o x.1
      w.bytes (x.2.1 + (lo - x.1)) (min (o + n) (x.1 + x.2.2) - lo)).flatten
    b ++ List.replicate (n - b.length) 0

/-- The address of an offset of the shard image; none behind the extents of the list. -/
def Wk.imageAddr (w : Wk) (live : Bool) (o : Nat) : Option Nat :=
  if !live then some (w.dev.sec.snap + o)
  else (w.dev.shardPieces w.mem).findSome? fun x =>
    if x.1 ≤ o ∧ o < x.1 + x.2.2 then some (x.2.1 + (o - x.1)) else none

/-- A byte of a unit's storage is poisoned: such a unit is one more erasure (R396). -/
def Wk.unitPoisoned (w : Wk) (addr : Nat → Option Nat) : Bool :=
  (List.range mib).any fun o => ((addr o).map fun a => (w.mem.view a).2).getD false

/-- A unit of 1 MiB goes to its owner as frames of sixteen raw units on landing counter 255 (R321, R388). -/
def Wk.sendUnit (w : Wk) (dst : Nat) (addr : Nat → Option Nat) (data : List Byte) : Wk :=
  let base := { Frame.zero with traffic := 4, nblk := 16, src := w.dev.pos.getD 0xFFFF, dst := dst, tag := 255 }
  Wk.each (List.range 1024) (fun w i =>
    match addr (1024 * i) with
    | none => w
    | some a => w.up fun d => d.sendFrame ({ base with addr := a }.formed ((data.drop (1024 * i)).take 1024)) none) w

/-- Rounds and rotations of an image (R387). -/
def stripes (rounds n : Nat) : List (Nat × Nat) :=
  ((List.range rounds).map fun q => (List.range n).map fun r => (q, r)).flatten

/-- The part of a list place in a stripe (R387): data place below `k`, parity row from `k` on. -/
def stripePart (n rotation place : Nat) : Nat := (place + n - rotation) % n

/-- The parity phase (R388): every unit of this module's image goes to the holders of its stripe, into the bank
that is not in force. The banks lie at one address in every member (log entry 53). -/
def Wk.sendParity (w : Wk) : Wk :=
  let d := w.dev
  let me := d.pos.getD 0xFFFF
  match d.live.groupOfPos me with
  | none => w
  | some (_, scheme, l) =>
    let n := l.length
    let k := schemeData scheme
    let rounds := d.sec.len / k
    Wk.each (stripes rounds n) (fun w s =>
      let j := stripePart n s.2 (l.idxOf me)
      if k ≤ j then w
      else
        let data := w.imageBytes true ((k * s.1 + j) * mib) mib
        Wk.each (List.range (schemeRows scheme)) (fun w t =>
          let place := d.parityBanks.2 + (t * rounds + s.1) * mib
          w.sendUnit (l.getD ((s.2 + k + t) % n) 0xFFFF) (fun o => some (place + o)) data) w) w

/-- What this module sends of a stripe for a lost member's unit (R396): the data units and P for an erased data
place, the data units for an erased parity row. A stripe with more erasures, and one whose P is gone, is solved by
the control cores: false (log entry 53). -/
def Wk.rebuildUnit (w : Wk) (l : List Nat) (scheme : Nat) (lost : Nat) (s : Nat × Nat) : Wk × Bool :=
  let d := w.dev
  let n := l.length
  let k := schemeData scheme
  let rounds := d.sec.len / k
  let live := d.sec.source
  let part := fun p => stripePart n s.2 (l.idxOf p)
  let gone := (d.sec.lost.filter fun p => l.contains p).map part
  let ours := part (d.pos.getD 0xFFFF)
  let theirs := part lost
  let unit := fun (j o : Nat) => w.imageAddr live ((k * s.1 + j) * mib + o)
  let row := fun (t o : Nat) => some (d.parityBanks.1 + (t * rounds + s.1) * mib + o)
  let dataOf := fun (_ : Unit) => w.imageBytes live ((k * s.1 + ours) * mib) mib
  let send := fun (from_ to_ : Nat → Option Nat) (b : List Byte) =>
    if w.unitPoisoned from_ then (w, false) else (w.sendUnit lost to_ b, true)
  if theirs < k then
    if (gone.any fun j => j != theirs && decide (j < k)) || gone.contains k then (w, false)
    else if ours < k then send (unit ours) (unit theirs) (dataOf ())
    else if ours == k then send (row 0) (unit theirs) (w.bytes (d.parityBanks.1 + s.1 * mib) mib)
    else (w, true)
  else if gone.any fun j => decide (j < k) then (w, false)
  else if ours < k then send (unit ours) (row (theirs - k)) (dataOf ())
  else (w, true)

/-- The units of this module from which an admitted member of its parity group is rebuilt (R396); that stripes are
left to the control cores shows in Output. -/
def Wk.sendRebuild (w : Wk) (lost : Nat) : Wk :=
  let me := w.dev.pos.getD 0xFFFF
  match w.dev.live.groupOfPos me with
  | none => w
  | some (g, scheme, l) =>
    if lost == me || !l.contains lost then w
    else
      let r := (stripes (w.dev.sec.len / schemeData scheme) l.length).foldl (fun (x : Wk × Bool) s =>
        let y := x.1.rebuildUnit l scheme lost s
        (y.1, x.2 && y.2)) (w, true)
      if r.2 then r.1 else r.1.up fun d => d.emit (.parityUnits g d.secLen)

/-- What survivors send at a domain action (R396): the units for a member that is admitted while they restore, and
for those rebuilt before when a verification has failed. Which units of a runner are poisoned is its own knowledge:
they are solved with REBUILD_COMPLETE (log entry 53). -/
def Wk.rebuildSends (w : Wk) (x : Decision) : Wk :=
  let d := w.dev
  if d.role != 2 || d.sec.phase != 3 || d.sec.unrecoverable then w
  else if x.verdict == 0x10 then w.sendRebuild x.pos.toNat
  else if x.verdict == 0x13 && byteAt x.data 0 0 == 2 then Wk.each d.sec.lost Wk.sendRebuild w
  else w

/-- Frames of the securing engine that the next hop has not accepted yet (R391). -/
def Dev.paritySends (d : Dev) : Bool :=
  let ours := fun (s : Sent) =>
    let f := Frame.ofBytes s.frame
    f.traffic == 4 && f.tag == 255 && some f.src == d.pos
  d.rly.unsent.any ours || d.rly.ports.any fun p => p.2.store.any ours

/-- A decision of HKIND 0x5 takes effect (R390, R392, R393). -/
def Wk.secureDecision (w : Wk) (x : Decision) : Wk :=
  let sphase := byteAt x.data 0 0
  let v := x.verdict.toNat
  let lead := w.dev.role ≤ 1
  let runs := w.dev.secures
  match sphase with
  | 0 => w.up fun d => if v == 7 then d.setDue true else if v == 0 then d.setDue false else d
  | 1 =>
    if v == 0 then
      let w := w.up fun d => { d with sec := { d.sec with beginLap := d.lap.count } }
      w.ite runs fun w =>
        (w.writeRecord.up fun d =>
          { d with sec := { d.sec with parityDone := false, copyDone := false } }.setPhase 1).sendParity
    else w.ite runs fun w => w.up Dev.voidSecuring
  | 2 =>
    w.ite runs fun w => w.up fun d =>
      if v == 0 then
        { d with sec := { d.sec with pbank := !d.sec.pbank, source := true, copyDone := false } }.setPhase 2
      else d.voidSecuring
  | 3 =>
    w.up fun d =>
      if runs then d.completePoint.setPhase 0
      else if !lead then d
      else
        let d := { d with sec := { d.sec with lastDone := d.lap.count } }
        let d := if v == 0 then
          { d with sec := { d.sec with cLaps := BitVec.ofNat 32 (d.lap.count - d.sec.beginLap).toNat } } else d
        d.noteInterval
  | _ => w.ite (lead && v == 0) fun w => w.up fun d => d.verifyLoss x.data

/-- PARITY_PHASE_DONE (R391): the sends are accepted and every unit of this holder has landed. -/
def execParityPhaseDone (s : State) : Host.Outcome State Fault Refusal :=
  devOnly s fun d =>
    if d.sec.phase == 1 && !(d.rly.entries.any fun e => e.tag == 255)
        && !(d.rly.landings.any fun l => l.tag == 255) && !d.paritySends then
      { d with sec := { d.sec with parityDone := true } }
    else d

/-- COPY_PHASE_DONE (R390, R391, R402): the snapshot holds the live image; in large domains the digest goes
to two partners, and theirs are kept. -/
def execCopyPhaseDone (received : List (Nat × BitVec 384)) (s : State) :
    Host.Outcome State Fault Refusal :=
  done s fun w =>
    if w.dev.sec.phase != 2 || w.dev.sec.copyDone then w
    else
      let w := w.copyOut
      let dig := if w.dev.byDigest then w.snapDigest else 0
      w.up fun d =>
        let d := { d with sec := { d.sec with copyDone := true } }
        if !d.byDigest then d
        else
          let kept := received.foldl (fun m x => AMap.set 0 m x.1 x.2.toNat) d.sec.digests
          let d := { d with sec := { d.sec with digest := dig, digests := kept } }
          d.digestPartners.foldl (fun d p => d.emit (.digest p dig)) d

/-! ### The restore (R394 to R397) -/

/-- Lost members of this module's parity group are more than its parity rows (R396). -/
def Dev.tooManyLost (d : Dev) : Option Nat :=
  match d.live.groupOfPos (d.pos.getD 0xFFFF) with
  | none => none
  | some (g, scheme, l) =>
    if schemeRows scheme < (d.sec.lost.filter fun p => l.contains p).length then some g else none

/-- The restore cannot succeed (R396). -/
def Dev.unrecoverable (d : Dev) (n : Nat) : Dev :=
  { d with sec := { d.sec with unrecoverable := true } }.raise (secRec 0x0090 2 n)

/-- Every stream takes the write of CANCEL (R394). -/
def Dev.cancelStreams (d : Dev) : Dev := (List.range 384).foldl (fun d k => d.hostCancel (k / 3) (k % 3)) d

/-- Every group is unbound (R293, R394). -/
def Dev.unbindAll (d : Dev) : Dev := (List.range 15).foldl Dev.unbindGroup d

/-- PHASE 3: the sums in progress and what was noted of the step are gone (R394, R404). -/
def Dev.enterRestore (d : Dev) : Dev :=
  { d with
    rly := { d.rly with entries := [] }
    upd := { d.upd with nf := false }
    sec := { d.sec with parityDone := false, copyDone := false, resumed := false } }.setPhase 3

/-- A restore starts on a runner (R394, R404). -/
def Dev.startRestore (d : Dev) : Dev :=
  let d := d.cancelStreams.unbindAll.enterRestore
  if !d.sec.valid then d.unrecoverable (d.pos.getD 0xFFFF) else d.tooManyLost.elim d d.unrecoverable

/-- REBUILD_COMPLETE (R350, R396): every erased unit is in place, those that the control cores solved for
among them; the starter is told. -/
def execRebuildComplete (solved : List (Nat × List Byte)) (s : State) : Host.Outcome State Fault Refusal :=
  done s fun w =>
    if !w.dev.sec.rebuild || w.dev.sec.phase != 3 || w.dev.sec.unrecoverable then w
    else
      let ps := w.dev.shardPieces w.mem
      let live := w.dev.sec.source
      let snap := w.dev.sec.snap
      let w := Wk.each solved (fun w u =>
        if live then
          match ps.find? fun x => decide (x.1 ≤ u.1) && decide (u.1 + u.2.length ≤ x.1 + x.2.2) with
          | some x => w.hbmPut (x.2.1 + (u.1 - x.1)) u.2
          | none => w
        else w.hbmPut (snap + u.1) u.2) w
      w.up fun d => { d with sec := { d.sec with rebuild := false } }.notify 0xFF 0xFF .rebuilt

/-- The verification of a restored image by the digests that partners sent (R402). -/
def Dev.verifyDigest (d : Dev) (dig : Nat) (copies : List (BitVec 384)) : Dev :=
  if copies.isEmpty || copies.any fun c => c.toNat != dig then
    ({ d with sec := { d.sec with verifyFail := true } }.latch 0xD004 9).raise (secRec 0x0091 2 (d.pos.getD 0xFFFF))
  else d

/-- RESTORE_DONE (R395, R397, R402): the image is in place and its record is loaded. -/
def execRestoreDone (copies : List (BitVec 384)) (s : State) : Host.Outcome State Fault Refusal :=
  done s fun w =>
    if w.dev.sec.phase != 3 || w.dev.sec.rebuild || w.dev.sec.unrecoverable then w
    else
      let live := w.dev.sec.source
      let w := if live then w.copyOut else w.copyIn
      let r := w.savedRecord
      if !recordOk r then w.up fun d => { d with sec := { d.sec with rebuild := true } }
      else
        let w := (w.up fun d => d.loadRecord r).loadContexts
        let w := w.ite live fun w => w.up Dev.completePoint
        let w := w.up fun d => { d with sec := { d.sec with valid := true } }
        let dig := if w.dev.byDigest then w.snapDigest else 0
        w.up fun d =>
          let me := d.pos.getD 0xFFFF
          let l := ((d.live.groupOfPos me).map fun x => x.2.2).getD []
          let d := if d.byDigest then
            let d := d.sec.digests.foldl (fun d x => d.emit (.digest (l.getD x.1 0xFFFF) x.2)) d
            d.verifyDigest dig copies
          else d
          d.setPhase 4

/-- The check of a resume (R398): CHECK over the record with STEP and CURSOR replaced. -/
def Wk.resumeOk (w : Wk) : Bool :=
  let x := w.dev.sec
  let r := w.savedRecord
  let h := r.take 0x10 ++ leBytes 8 x.resumeStep.toNat ++ leBytes 16 x.resumeCur.toNat ++ (r.drop 0x28).take 8
  x.phase == 4 && !x.verifyFail && h.length == 0x30 && numAt r 0x30 4 == (crc32c h).toNat
    && decide (w.dev.lap.count.toNat < x.resumeLap.toNat)

/-- A write of `SEC_CTRL` (R398, R405). -/
def Wk.secCtrl (w : Wk) (v : Nat) : Wk :=
  if !bit v 0 then w
  else
    let ok := w.resumeOk
    w.up fun d =>
      if ok then { d with sec := { d.sec with resumed := true } }.setPhase 0
      else ({ d with sec := { d.sec with mismatch := true } }.latch 0xD004 10).raise (secRec 0x0092 1 (d.pos.getD 0xFFFF))

/-- SEC_RESUME (R398). -/
def execSecResume (s : State) : Host.Outcome State Fault Refusal :=
  done s fun w => w.ite w.dev.hostOpen fun w => w.secCtrl 1

/-! ### A loss and an abandoned step at their edges (R357, R394, R400) -/

/-- on_loss of R393, and the reference of R400, on the starter and the standby. -/
def Dev.countLoss (d : Dev) (p : Nat) : Dev :=
  if d.role ≤ 1 then
    let gap := (d.lap.count - d.sec.lastLoss).toNat
    let d := d.setMState p .lost
    let d := { d with sec := { d.sec with
      lastLoss := d.lap.count, gaps := (gap :: d.sec.gaps).take 16 } }
    let d := if d.byDigest then d
      else { d with sec := { d.sec with lossRef := d.sec.lossData, verifyPend := true } }
    d.noteExposure.noteInterval
  else d

/-- A LOSS takes effect: the bookkeeping, then the restore on every other runner. -/
def Dev.lossEffect (d : Dev) (p : Nat) : Dev :=
  let more := if d.role == 2 then d.sec.phase == 3 else d.restoring
  let lost := if more then (if d.sec.lost.contains p then d.sec.lost else d.sec.lost ++ [p]) else [p]
  let d := { d with sec := { d.sec with lost := lost } }.countLoss p
  if d.role == 2 && d.pos != some p then d.startRestore else d

/-- Streams that an overrun, a reject or a fault halted go on with the replay (R40); one whose cluster has halted
for good does not (R369; log entry 118). -/
def Dev.resumeHalted (d : Dev) : Dev :=
  let l := d.streams.filter fun x => 1 ≤ x.2.halt && x.2.halt ≤ 3 && !NSet.has d.flt.halted (x.1 / 3)
  l.foldl (fun d x => d.setStream (x.1 / 3) (x.1 % 3) fun t => { t with halt := 0 }) d

/-- A STEP_ABANDON takes effect (R40, R394): halted streams resume; a shard poison or verify failure restores;
the runner concerned, or the positions rebuilt before, rebuild again. -/
def Dev.abandonEffect (d : Dev) (p cause : Nat) : Dev :=
  let d := d.resumeHalted
  if d.role != 2 || !(cause == 1 || cause == 2) then d
  else
    let again := if cause == 1 then d.pos == some p else d.sec.lost.any fun q => d.pos == some q
    let d := { d with sec := { d.sec with rebuild := d.sec.rebuild || again } }
    d.startRestore

/-- An ADMIT of this module with a secure area set up starts the rebuild of its shard (R350, R396). -/
def Dev.startRebuild (d : Dev) : Dev :=
  if d.role == 2 && d.sec.len != 0 then
    { d with sec := { d.sec with rebuild := true, lost := (d.pos.map fun p => [p]).getD [] } }.setPhase 3
  else d

/-- RESUME_DISPATCH (R398): dispatch opens at the edge that the resume named. -/
def Dev.resumeAt (d : Dev) : Dev :=
  if d.sec.resumed && d.lap.count == d.sec.resumeLap then { d with sec := { d.sec with resumed := false } } else d

end Sys2Proof.Machine
end

