-- ==== Sys2Proof/Machine/Domain.lean ====
section
/-! DEFINITION. Domain operation (R346 to R365, R43, R222, R312, R338 to R342): joining, contributions,
decisions and domain actions, the starter's bookkeeping, notices and failover. -/

namespace Sys2Proof.Machine

open Sys2Proof.Config

/-! ### Joining (R349, R353) -/

/-- The starter in force, ACTIVE. -/
def Dev.starting (d : Dev) : Bool := d.role == 0 && d.dom.state == .active

/-- Lap lock changes (R50, R422). -/
def Dev.setLock (d : Dev) (b : Bool) : Dev :=
  if d.lap.lock == b then d else { d with lap := { d.lap with lock := b } }.msix 771

/-- The joining sequence starts from step 1 (R349). -/
def Dev.joinStart (d : Dev) : Dev :=
  if !d.inDomain then d
  else
    let first := d.live.role (d.pos.getD 0xFFFF) == 0
    let d := d.setLock false
    let d := { d with
      dom := { d.dom with
        state := .linking, decided := [], hurdles := [], withheld := [], joinAge := 0, resend := false
        takeover := false, newStarter := if first then none else d.dom.newStarter }
      lap := { d.lap with
        stopped := false, missed := 0, delayNs := 0, echoed := false, loadLap := none, loadPair := none
        source := if first then .starter else .own } }
    let d := (List.range 16).foldl Dev.trainAgain d
    d.linkProgress

/-- A message goes up the tick-parent chain. -/
def Dev.sendUp (d : Dev) (m : Message) : Dev :=
  match d.parentPort with
  | some q => d.send q m
  | none => d

/-- The join request (R353, R354). -/
def Dev.joinMessage (d : Dev) : Contribution :=
  ⟨0, 0, 0, BitVec.ofNat 16 (d.pos.getD 0xFFFF), d.lap.count,
    leBytes 1 d.pwr.feed.toNat ++ leBytes 7 0 ++ leBytes 8 d.live.domainId.toNat
      ++ leBytes 8 d.live.serial.toNat ++ leBytes 8 0⟩

def Dev.requestJoin (d : Dev) : Dev :=
  { d with dom := { d.dom with joinAge := 0 } }.sendUp (.contribution d.joinMessage)

/-- REJOIN (R349, R363). -/
def execRejoin (s : State) : Host.Outcome State Fault Refusal :=
  devOnly s fun d => d.hostWrite fun d => d.joinStart

/-- JOIN_REQUEST_REPEAT (R349): an AWAITING module asks again at every 64th edge. -/
def execJoinRequestRepeat (s : State) : Host.Outcome State Fault Refusal :=
  devOnly s fun d =>
    if d.dom.state == .awaiting && d.lap.lock && decide (64 ≤ d.dom.joinAge) then d.requestJoin else d

/-! ### Hurdle commands (R222, R312, R354, R356, R391) -/

/-- The data, kind, HSEQ and NPART of a hurdle command. -/
def Heat.hurdle (h : Heat) : Option (Option (Nat × Nat) × Nat × W32 × Nat) :=
  match h.body with
  | .hurdle x k q n => some (x, k, q, n)
  | _ => none

/-- The armed commands of an HSEQ. -/
def Dev.armedOf (d : Dev) (q : W32) : List Heat :=
  d.mar.heats.filter fun h => h.state == .armed && (match h.hurdle with
    | some x => x.2.2.1 == q
    | none => false)

/-- The HSEQs of armed commands, in the order of the scoreboards. -/
def Dev.armedSeqs (d : Dev) : List W32 :=
  nub ((d.mar.heats.filter fun h => h.state == .armed).filterMap fun h => h.hurdle.map fun x => x.2.2.1) []

/-- READY of a scale hurdle (R312). -/
def Dev.scaleReady (d : Dev) : Bool :=
  notAfter d.rly.expect (AMap.get 0 d.rly.land d.rly.tag)

/-- The 32 bytes that the armed commands of an HSEQ contribute, and whether one names data (R354). -/
def Wk.hurdleData (w : Wk) (l : List Heat) : List Byte × Bool :=
  match (l.filterMap fun h => h.hurdle.bind fun x => x.1)[0]? with
  | some x => ((w.bytes x.1 x.2 ++ List.replicate 32 0).take 32, true)
  | none => (List.replicate 32 0, false)

/-- The gate of R391 for a securing hurdle. -/
def Dev.securingGate (d : Dev) (q : W32) (data : List Byte) : Bool :=
  match byteAt data 0 0 with
  | 1 => d.mar.heats.all fun h => (h.hurdle.map fun x => x.2.2.1) == some q
  | 2 => d.sec.parityDone
  | 3 => d.sec.copyDone
  | _ => true

/-- The contribution of an HSEQ all of whose commands are armed (R222, R354). -/
def Wk.contributionOf (w : Wk) (q : W32) : Option Contribution :=
  let d := w.dev
  let l := d.armedOf q
  match l[0]?.bind Heat.hurdle with
  | none => none
  | some (_, k, _, n) =>
    let x := w.hurdleData l
    let sent := d.dom.hurdles.any (fun p => p.hseq == q) || d.dom.withheld.contains q
      || d.dom.kept.any fun p => p.hseq == q
    if l.length < n || sent || (k == 5 && !d.securingGate q x.1) then none
    else
      let flags := b2n d.upd.nf + 2 * b2n d.scaleReady + 4 * b2n (k == 2) + 8 * b2n x.2
      some ⟨q, BitVec.ofNat 8 k, BitVec.ofNat 8 flags, BitVec.ofNat 16 (d.pos.getD 0xFFFF), d.lap.count, x.1⟩

/-- A module outside a domain decides its own hurdle (R222, R312, R340, R341, R355). -/
def ownVerdict (c : Contribution) : Nat :=
  let nf := c.hflags.toNat.testBit 0
  let ready := c.hflags.toNat.testBit 1
  match c.hkind.toNat with
  | 1 => if nf then 2 else 1
  | 2 => 5
  | 3 => if ready then 4 else 3
  | _ => 0

/-- Contributions at an effective edge (R43): sent up in a domain, decided here outside one; `again` sends
those without a decision once more (R359). -/
def Wk.contribute (w : Wk) (again : Bool) : Wk :=
  let d := w.dev
  let w := w.ite again fun w => w.up fun d =>
    let d : Dev := { d with dom := { d.dom with resend := false } }
    d.dom.hurdles.foldl (fun d p => d.sendUp (.contribution p.sent)) d
  if d.inDomain && (d.dom.state != .active || !d.lap.lock) then w
  else
    Wk.each d.armedSeqs (fun w q =>
      match w.contributionOf q with
      | none => w
      | some c => w.up fun d =>
        let mine : Pending := ⟨q, c.hkind.toNat, c⟩
        let d : Dev := { d with dom := { d.dom with hurdles := d.dom.hurdles ++ [mine] } }
        if d.inDomain then d.sendUp (.contribution c)
        else
          let x : Decision := ⟨q, c.hkind, BitVec.ofNat 8 (ownVerdict c), 0xFFFF, d.lap.count + 1, c.data, 0⟩
          { d with dom := { d.dom with decided := d.dom.decided ++ [x] } }) w

/-! ### Decisions at their edge (R312, R338 to R342, R355) -/

/-- LAST_UPD and LAST_CMT (R343, R422). -/
def Dev.setLast (d : Dev) (upd cmt : Nat) : Dev :=
  if d.upd.lastUpd == upd && d.upd.lastCmt == cmt then d
  else { d with upd := { d.upd with lastUpd := upd, lastCmt := cmt } }.msix 778

/-- Every weight set changed. -/
def Dev.eachWset (d : Dev) (f : WSet → WSet) : Dev :=
  (List.range 64).foldl (fun d w => d.setWset w f) d

/-- An update decision (R339, R340). -/
def Dev.updateDecision (d : Dev) (q : W32) (v : Nat) : Dev :=
  let d := { d with upd := { d.upd with nf := false, taken := (q, v) :: d.upd.taken } }
  let d := if v == 2 then
    let d := d.eachWset fun s => if s.skipHseq == q then s.dropWriting else s
    { d with upd := { d.upd with skips := d.upd.skips + 1 } }
  else d
  (d.setLast v d.upd.lastCmt).settle

/-- A commit decision (R341): anything but COMMIT discards. -/
def Dev.commitDecision (d : Dev) (q : W32) (v : Nat) : Dev :=
  if v == 5 then
    let d := d.eachWset fun s => if s.commitHseq == q then s.commit else s
    ({ d with upd := { d.upd with commits := d.upd.commits + 1 } }.setLast d.upd.lastUpd 1).settle
  else
    let d := d.eachWset fun s => if s.commitHseq == q then s.dropWriting else s
    ({ d with upd := { d.upd with discards := d.upd.discards + 1 } }.setLast d.upd.lastUpd 2).settle

/-- A scale ACCEPT (R312, R338): the bank inverts, and the records of every enabled entry in the set that
PAR does not name take the agreed exponent, no clips and no amax; then PAR inverts. -/
def Wk.acceptScale (w : Wk) : Wk :=
  let w := w.up fun d => { d with rly := { d.rly with bank := !d.rly.bank } }
  Wk.each (List.range 8) (fun w e =>
    let r := w.dev.rset e
    if !r.en then w
    else
      let base := if r.par then r.acc0 else r.acc1
      let from_ := r.expFirst + b2n w.dev.rly.bank * r.bankLen
      let w := Wk.each (List.range r.nrec) (fun w i =>
        let a := base + 65856 * i + 0x10100
        (w.hbmPut a (w.bytes (from_ + i) 1)).hbmPut (a + 6) (leBytes 6 0)) w
      w.up fun d => d.setRset e fun r => { r with par := !r.par }) w

/-- An ADMIT (R349, R350, R357, R393): the module is ACTIVE; the starter and the standby note it. -/
def Dev.admitEffect (d : Dev) (p : Nat) : Dev :=
  let d :=
    if d.role ≤ 1 then
      let back := (d.member p).state == .lost
      let d := d.setMState p .active
      let d := d.setMember p fun m => { m with
        misses := 0, counts := if back then 0xFFFFFFFFFFFFFFFF else d.lap.count
        feed := if d.role == 0 then m.feed else d.live.feed p }
      let d := if d.sec.admitted then d
        else { d with sec := { d.sec with admitted := true, lastLoss := d.lap.count, lastDone := d.lap.count } }
      d.noteExposure.noteInterval
    else d
  if d.pos == some p && d.dom.state == .awaiting then
    ({ d with dom := { d.dom with state := .active } }.domEvt 0).startRebuild
  else d

/-- A REFUSE (R349, R357): a module whose image is not the domain's is ABSENT. -/
def Dev.refuseEffect (d : Dev) (p cause : Nat) : Dev :=
  let d := if decide (d.role ≤ 1) && cause == 1 then d.setMState p .absent else d
  if d.pos == some p && d.dom.state == .awaiting then
    { d with dom := { d.dom with state := .refused } }.domEvt 1
  else d

/-- A TAKEOVER (R359, R360): ticks, contributions and notices follow the new starter. -/
def Dev.takeoverEffect (d : Dev) (p : Nat) : Dev :=
  let d := { d with dom := { d.dom with newStarter := some p, resend := true } }
  { d with dom := { d.dom with upPort := d.takeoverPort } }.domEvt 4

/-- A domain action takes effect (R355). -/
def Dev.action (d : Dev) (x : Decision) : Dev :=
  let p := x.pos.toNat
  let cause := byteAt x.data 0 0
  match x.verdict.toNat with
  | 0x10 => d.admitEffect p
  | 0x11 => d.refuseEffect p cause
  | 0x12 =>
    let d := d.lossEffect p
    if d.pos == some p && d.role != 0 then d.joinStart else d
  | 0x13 => d.abandonEffect p cause
  | 0x14 => d.takeoverEffect p
  | 0x15 => d.setPair (x.arg.toNat % 65536) (x.arg.toNat / 65536)
  | _ => d

/-- The armed commands of an HSEQ retire (R222); those of one that this module withheld its contribution from
stay ARMED until they are cancelled (R239). -/
def Wk.retireHurdle (w : Wk) (q : W32) : Wk :=
  if w.dev.dom.withheld.contains q then w else Wk.each (w.dev.armedOf q) (fun w h => w.retire h) w

/-- A decision or action takes effect (R356): it is kept, and its armed commands retire. -/
def Wk.applyDecision (w : Wk) (x : Decision) : Wk :=
  let data := (x.data ++ List.replicate 32 0).take 32
  let w := w.up fun d => { d with dom := { d.dom with
    dataReg := leBytes 4 x.hseq.toNat ++ leBytes 1 x.verdict.toNat ++ leBytes 3 0 ++ data } }
  if x.hseq == 0 then (w.up fun d => d.action x).rebuildSends x
  else
    let v := x.verdict.toNat
    let w := match x.hkind.toNat with
      | 1 => w.up fun d => d.updateDecision x.hseq v
      | 2 => w.up fun d => d.commitDecision x.hseq v
      | 3 => w.ite (v == 4) Wk.acceptScale
      | 5 => w.secureDecision { x with data := data }
      | _ => w
    let w := w.up fun d => { d with dom := { d.dom with
      kept := (x :: d.dom.kept.filter fun y => y.hseq != x.hseq).take 64
      hurdles := d.dom.hurdles.filter fun p => p.hseq != x.hseq
      withheld := d.dom.withheld.filter fun q => q != x.hseq || !(d.armedOf q).isEmpty } }
    w.retireHurdle x.hseq

/-- Decisions in ascending HSEQ order, equal ones as they came (R356). -/
def sortDecisions (l : List Decision) : List Decision :=
  l.mergeSort fun a b => decide (a.hseq.toNat ≤ b.hseq.toNat)

/-- Everything decided for this edge takes effect; a command that armed after its HSEQ's decision retires
first (R356). -/
def Wk.decisions (w : Wk) : Wk :=
  let now := w.dev.lap.count
  let w := Wk.each w.dev.armedSeqs (fun w q =>
    w.ite (w.dev.dom.kept.any fun x => x.hseq == q) fun w => w.retireHurdle q) w
  let due := sortDecisions (w.dev.dom.decided.filter fun x => x.lap == now)
  let w := w.up fun d => { d with dom := { d.dom with
    decided := d.dom.decided.filter fun x => decide (now.toNat < x.lap.toNat) } }
  Wk.each due Wk.applyDecision w

/-- A quiesce PASS takes effect at this edge (R70, R355). -/
def Dev.quiesced (d : Dev) : Bool :=
  d.dom.decided.any fun x => x.lap == d.lap.count && x.hseq != 0 && x.hkind == 4 && x.verdict == 0

/-! ### The starter (R43, R347, R350, R355 to R357) -/

/-- The action of a verdict for a position waits for its edge already. -/
def Dev.waiting (d : Dev) (verdict : Nat) (p : Nat) : Bool :=
  d.dom.decided.any fun x => x.hseq == 0 && x.verdict.toNat == verdict && x.pos.toNat == p

/-- A member is ACTIVE or LATE. -/
def Dev.memberIn (d : Dev) (p : Nat) : Bool :=
  (d.member p).state == .active || (d.member p).state == .late

/-- A position is declared lost at the next edge (R357). -/
def Dev.declareLost (d : Dev) (p : Nat) : Dev :=
  if d.memberIn p && !d.waiting 0x12 p then d.act 0x12 p [] 0 else d

/-- Positions reached from `front` along the map's links between runners that are MZ1 modules. -/
def Conf.reach (k : Conf) : Nat → List Nat → List Nat
  | 0, l => l
  | n + 1, l =>
    let more := (k.withRole 2).filter fun p => k.kind p == 0 && !l.contains p
      && (List.range 16).any fun q => (k.peer p q).2.2 != 0 && l.contains (k.peer p q).1
    if more.isEmpty then l else k.reach n (l ++ more)

/-- Hops on a shortest path from a module to a position (R304). -/
def Dev.hopsTo (d : Dev) (p dst : Nat) : Nat :=
  (((d.spread dst d.live.modules 0 [dst] [(dst, 0)]).find? fun x => x.1 == p).map Prod.snd).getD 0xFFFF

/-- The largest one-way delay among a new member and those that are in (R348). -/
def Dev.largestDelay (d : Dev) (delayNs : Nat) : Nat :=
  (d.dom.delays.filter fun x => d.memberIn x.1).foldl (fun n x => max n x.2) delayNs

/-- The tick-path, transit and hurdle-delay limits of R348 for a module; the path to the standby is that of
R359, by next hops. -/
def Dev.topologyOk (d : Dev) (p delayNs : Nat) : Bool :=
  let k := d.live
  let rs := (k.withRole 2).filter fun r => k.kind r == 0
  decide (k.tickHops k.modules p ≤ 4)
    && ((k.withRole 1).all fun t => decide (d.hopsTo p t ≤ 4))
    && (match rs[0]? with
      | some r => let l := k.reach k.modules [r]
                  rs.all fun x => l.contains x
      | none => true)
    && decide (k.grace * 1000 + d.largestDelay delayNs < k.period * 1000)

/-- The cause for which a join request is refused, in the order of R350 (R347, R348, R355). -/
def Dev.joinCause (d : Dev) (c : Contribution) (delayNs : Nat) : Option Nat :=
  let k := d.live
  let p := c.pos.toNat
  let vozer := (List.range 16).any fun q => (d.port q).state == .up && (d.port q).peerPos == p && (d.port q).peerKind == 2
  if numAt c.data 8 8 != k.domainId.toNat || numAt c.data 16 8 != k.serial.toNat then some 1
  else if k.modules ≤ p || d.pos == some p || (k.role p == 1 && vozer) then some 2
  else if !d.topologyOk p delayNs then some 3
  else none

/-- JOIN_REQUEST (R350): the starter answers it; every other module passes it up. -/
def execJoinRequest (c : Contribution) (delayNs : BitVec 32) (s : State) :
    Host.Outcome State Fault Refusal :=
  devOnly s fun d =>
    let p := c.pos.toNat
    if !d.inDomain || d.dom.state == .alone then d
    else if !d.starting then d.sendUp (.contribution c)
    else match d.joinCause c delayNs.toNat with
      | some n => d.act 0x11 p (leBytes 1 n) 0
      | none =>
        if d.memberIn p || d.waiting 0x10 p then d
        else
          let feed := byteAt c.data 0 0
          let d := d.setMember p fun m => { m with feed := feed }
          let d := { d with dom := { d.dom with delays := AMap.set 0 d.dom.delays p delayNs.toNat } }
          let d := if feed == d.live.feed p then d
            else d.raise { Rec.of 0x007A 1 with detail := leBytes 2 p ++ leBytes 1 feed }
          d.act 0x10 p [] 0

/-- HURDLE_CONTRIBUTION (R43, R301, R356): the starter collects the first one of each sender for an HSEQ
without a decision; every other module passes it up. -/
def execHurdleContribution (c : Contribution) (s : State) : Host.Outcome State Fault Refusal :=
  devOnly s fun d =>
    if !d.inDomain || d.dom.state == .alone then d
    else if !d.starting then d.sendUp (.contribution c)
    else if c.hseq == 0 || (d.dom.collected.any fun x => x.hseq == c.hseq && x.pos == c.pos)
        || ((d.dom.kept ++ d.dom.decided).any fun x => x.hseq == c.hseq) then d
    else { d with dom := { d.dom with collected := d.dom.collected ++ [c] } }

/-- Runners that contribute themselves (R347). -/
def Conf.contributors (k : Conf) : List Nat := (k.withRole 2).filter fun p => k.kind p == 0

/-- The contributions of an HSEQ that count, by position (R356): the LAP of the first received, from
members of that lap. -/
def Dev.counting (d : Dev) (q : W32) : List Contribution :=
  let l := d.dom.collected.filter fun c => c.hseq == q
  match l[0]? with
  | none => []
  | some f => l.filter fun c =>
    c.lap == f.lap && d.memberIn c.pos.toNat
      && decide ((d.member c.pos.toNat).counts.toNat ≤ c.lap.toNat)

/-- DATA of a decision: that of the contributing runner with the lowest runner index (R355). -/
def Conf.dataOf (k : Conf) (l : List Contribution) : List Byte :=
  let valid := l.filter fun c => c.hflags.toNat.testBit 3
  match valid.foldl (fun (r : Option Contribution) c => match r with
    | none => some c
    | some b => if k.runnerIdx c.pos.toNat < k.runnerIdx b.pos.toNat then some c else some b) none with
  | some c => c.data
  | none => List.replicate 32 0

/-- The verdict of a hurdle (R312, R340, R341, R355, R390). -/
def Dev.verdict (d : Dev) (kind : Nat) (l : List Contribution) (missing : Bool) (data : List Byte) : Nat :=
  match kind with
  | 1 => if missing then 3 else if l.any fun c => c.hflags.toNat.testBit 0 then 2 else 1
  | 2 => if missing then 6 else 5
  | 3 => if missing || l.any (fun c => !c.hflags.toNat.testBit 1) then 3 else 4
  | 5 => if missing then 3 else if byteAt data 0 0 == 0 && d.securingDue d.lap.count then 7 else 0
  | _ => if missing then 3 else 0

/-- The bookkeeping of R357 for one decided hurdle: who was missing is LATE, or lost the second time. -/
def Dev.noteMissing (d : Dev) (present : List Nat) : Dev :=
  d.live.contributors.foldl (fun d p =>
    if !d.memberIn p then d
    else if present.contains p then
      (d.setMState p .active).setMember p fun m => { m with misses := 0 }
    else
      let d := d.setMember p fun m => { m with misses := m.misses + 1 }
      if 2 ≤ (d.member p).misses then d.declareLost p else d.setMState p .late) d

/-- One hurdle is decided. -/
def Dev.decideOne (d : Dev) (q : W32) : Dev :=
  let l := d.counting q
  let kind := ((d.dom.collected.find? fun c => c.hseq == q).map fun c => c.hkind).getD 0
  let present := l.map fun c => c.pos.toNat
  let missing := d.live.contributors.any fun p => !present.contains p
  let data := d.live.dataOf l
  let v := d.verdict kind.toNat l missing data
  d.decide_ ⟨q, kind, BitVec.ofNat 8 v, 0xFFFF, d.nextEdge, data, 0⟩

/-- HURDLE_DECIDE (R43, R355 to R357): at the nominal edge plus the grace the starter settles who was
missing, then decides every hurdle for which it holds a contribution, in ascending HSEQ order. -/
def execHurdleDecide (s : State) : Host.Outcome State Fault Refusal :=
  devOnly s fun d =>
    if !d.starting then d
    else
      let qs := (nub (d.dom.collected.map fun c => c.hseq) []).mergeSort fun a b => decide (a.toNat ≤ b.toNat)
      let d := qs.foldl (fun d q => d.noteMissing ((d.counting q).map fun c => c.pos.toNat)) d
      let d := qs.foldl Dev.decideOne d
      { d with dom := { d.dom with collected := [] } }

/-- NO_ECHO_LOSS (R357): 8 laps without an echo request from a member. -/
def execNoEchoLoss (pos : Fin 258) (s : State) : Host.Outcome State Fault Refusal :=
  devOnly s fun d => if d.starting then d.declareLost pos.val else d

/-- The starter settles a notice (R40, R301, R357, R394, R396); a module that shuts down or resets is lost (R450,
R480). -/
def Dev.settleNotice (d : Dev) (n : Notice) : Dev :=
  let p := n.pos.toNat
  match n.kind with
  | .overrun | .fault => d.act 0x13 p (leBytes 1 0) 0
  | .shardPoison => d.act 0x13 p (leBytes 1 1) 0
  | .lapLockLoss | .lateDecision | .goingDown => d.declareLost p
  | .rebuilt => d.setMember p fun m => { m with counts := d.nextEdge }

/-- NOTICE (R301, R359): the starter settles it, every other module passes it up; the standby notes that the
starter has lost lap lock. -/
def execNotice (n : Notice) (s : State) : Host.Outcome State Fault Refusal :=
  devOnly s fun d =>
    if !d.inDomain || d.dom.state == .alone then d
    else if d.starting then d.settleNotice n
    else
      let lost := d.role == 1 && n.kind == .lapLockLoss && some n.pos.toNat == d.starterPos
      let d := { d with dom := { d.dom with starterLost := d.dom.starterLost || lost } }
      d.sendUp (.notice n)

/-! ### Decisions on their way (R301, R356, R360) -/

/-- A starter deposed by a TAKEOVER that names another position (R360). -/
def Dev.depose (d : Dev) (p : Nat) : Dev :=
  { d with
    dom := { d.dom with state := .alone, newStarter := some p, decided := [], collected := [] }
    lap := { d.lap with stopped := true, source := .own } }.raise (Rec.of 0x007B 2)

/-- A decision after the edge that it names (R356). -/
def Dev.lateDecision (d : Dev) (x : Decision) : Dev :=
  let d := d.raise { Rec.of 0x0032 2 with detail := leBytes 4 x.hseq.toNat }
  ({ d with lap := { d.lap with stopped := true } }.domEvt 5).notify 0xFF 0xFF .lateDecision

/-- A decision that a module in lap lock, or one that is not, has received. -/
def Dev.takeDecision (d : Dev) (x : Decision) : Dev :=
  if d.starting then
    (if x.verdict == 0x14 && d.pos != some x.pos.toNat then d.depose x.pos.toNat else d)
  else if !d.lap.lock then
    (if x.hseq == 0 && x.verdict == 0x12 && d.pos == some x.pos.toNat && !(d.dom.state == .linking)
        && !(d.dom.state == .locking) then d.joinStart else d)
  else if x.lap.toNat ≤ d.lap.count.toNat then d.lateDecision x
  else { d with dom := { d.dom with decided := d.dom.decided ++ [x] } }

/-- HURDLE_DECISION (R301, R356): it goes on down the tick tree, and waits for its edge here. -/
def execHurdleDecision (d : Decision) (s : State) : Host.Outcome State Fault Refusal :=
  devOnly s fun dev =>
    if !dev.inDomain || dev.dom.state == .alone then dev
    else (if dev.starting then dev else dev.sendDown d).takeDecision d

/-! ### Failover (R359) -/

/-- STANDBY_TAKEOVER (R359): after 4 missing ticks, with no path to the starter or its lap lock lost, the
standby sources the tick. -/
def execStandbyTakeover (s : State) : Host.Outcome State Fault Refusal :=
  devOnly s fun d =>
    let reach := match d.starterPos with
      | some t => (d.hop (d.pos.getD 0xFFFF) t).isSome
      | none => false
    if d.role == 1 && d.dom.state == .active && decide (4 ≤ d.lap.missed) && (!reach || d.dom.starterLost)
        && !d.dom.takeover then
      { d with
        lap := { d.lap with source := .starter, missed := 0 }
        dom := { d.dom with takeover := true } }
    else d

/-- At its next effective edge the standby is the starter and says so (R359). -/
def Dev.sendTakeover (d : Dev) : Dev :=
  if d.dom.takeover then
    { d with dom := { d.dom with takeover := false, newStarter := d.pos } }.act 0x14 (d.pos.getD 0xFFFF) [] 0
  else d

end Sys2Proof.Machine
end

