-- ==== Sys2Proof/Machine/Laps.lean ====
section
/-! DEFINITION. Laps (R30 to R50): the nominal edge, the held edge, the effective edge and all that
happens only there (R42), overrun, lap lock and the tick and echo messages. -/

namespace Sys2Proof.Machine

open Sys2Proof.Config

/-- Some heat of the ending lap is still running (R37); one whose cancellation has begun is not. -/
def Dev.anyRunning (d : Dev) : Bool := d.mar.heats.any fun h => h.state == .running

/-- Clusters with a running heat, ascending. -/
def Dev.runningClusters (d : Dev) : List Nat :=
  (List.range 128).filter fun c => d.mar.heats.any fun h => h.id.cluster.val == c && h.state == .running

/-! ### The nominal edge (R33, R34, R36, R37) -/

/-- Ticks of the lap that ends are counted (R34, R50); a standby that took over sources its own. -/
def Dev.countTick (d : Dev) : Dev :=
  let l := d.lap
  let l :=
    if !l.lock || d.role == 0 || d.dom.takeover then l
    else if l.ticked then { l with missed := 0, source := .regenerated }
    else { l with missed := min 9 (l.missed + 1), source := .holdover }
  { d with lap := { l with ticked := false } }

/-- LAP_TICK (R33, R36, R37): dispatch closes, and clusters whose heats still run hold the edge. -/
def execLapTick (s : State) : Host.Outcome State Fault Refusal :=
  devOnly s fun d =>
    if d.lap.held then d
    else
      let holds := d.runningClusters.foldl (fun m c =>
        AMap.set 0 m c (AMap.get 0 d.lap.heldLaps c + 1)) ([] : AMap Nat)
      ({ d with lap := { d.lap with held := true, sinceNom := 0, heldLaps := holds } }).countTick

/-! ### Overrun (R40, R41) -/

/-- A lap-overrun record: kind, cycles from the nominal edge to the dispatch, slot and whether it waited
as a writer. Every one after the first of a step is consequent (R41). -/
def Dev.overrunRec (d : Dev) (c s : Nat) (id idx : W32) (kind disp addr slot writer : Nat) : Dev :=
  let r : Rec := { Rec.of 0x0030 2 with
    conseq := d.lap.stepOverrun, cluster := c, stream := s, cmdId := id, index := idx, addr := addr
    detail := leBytes 4 kind ++ leBytes 4 disp ++ leBytes 2 slot ++ leBytes 1 writer }
  ({ d with lap := { d.lap with stepOverrun := true } }).raise r

/-- The slots that a heat waits on now (R143), with whether it waits as a writer: those that hold up parts of its
work, and those that the first reads of its streams are for. -/
def Dev.stalls (d : Dev) (h : Heat) : List (Nat × Bool) :=
  let own := h.waits.filter fun x => if x.writer then !d.writable h x.acc x.slot else !d.readable x.slot
  let reads := d.hbm.reqs.filter fun r => r.isOf h && !r.issued && d.headOfStream r && d.withinLimits r
  (own.map fun x => (x.slot, x.writer))
    ++ (reads.map fun r => (r.slots.filter fun g => !d.writable h r.who.acc g).map fun g => (g, true)).flatten

/-- The lowest of the slots that a heat waits on (R143). -/
def lowestSlot : List (Nat × Bool) → Option (Nat × Bool)
  | [] => none
  | x :: l => match lowestSlot l with
    | none => some x
    | some y => if y.1 < x.1 then some y else some x

/-- The record of a heat at the end of grace; `stall` is the slot that it waited on. -/
def Dev.heatOverrun (d : Dev) (h : Heat) (stall : Option (Nat × Bool)) : Dev :=
  let c := h.id.cluster.val
  match stall with
  | some (g, wr) =>
    d.overrunRec c h.id.stream.num h.cmdId h.id.index 2 h.dispatch (slotAddr g) (g % slotsPerCluster) (b2n wr)
  | none => d.overrunRec c h.id.stream.num h.cmdId h.id.index 1 h.dispatch 0 0 0

/-- The heats of the ending lap that still run. -/
def Dev.late (d : Dev) : List Heat := d.mar.heats.filter fun h => h.state == .running

/-- The streams of a cluster that own heats still running halt (R40). -/
def Dev.haltLate (d : Dev) (c : Nat) : Dev :=
  (nub ((d.late.filter fun h => h.id.cluster.val == c).map fun h => h.id.stream.num) []).foldl
    (fun d s => d.halt c s 1 (d.firstRunning c s)) d

/-- The lap overruns (R40, R41): the streams of the heats still running halt, each heat is recorded with the
slot it waited on, and all are cancelled. -/
def Dev.overrun (d : Dev) : Dev :=
  let l := d.late.map fun h => (h, lowestSlot (d.stalls h))
  let cs := d.runningClusters
  let d := cs.foldl Dev.haltLate d
  let d := l.foldl (fun d x => d.heatOverrun x.1 x.2) d
  let d := cs.foldl Dev.cancelRunning d
  { d with lap := { d.lap with heldLaps := cs.foldl (fun m c => AMap.set 0 m c 0) d.lap.heldLaps } }

/-! ### Lap lock (R33 to R35, R301) -/

/-- LAP_LOCK_LOSS (R34): at the ninth consecutive missing tick. -/
def execLapLockLoss (s : State) : Host.Outcome State Fault Refusal :=
  devOnly s fun d =>
    if d.lap.lock && decide (9 ≤ d.lap.missed) then
      let d := d.setLock false
      let d := { d with lap := { d.lap with lockLost := true, stopped := true, missed := 0, source := .own } }.latch 0x1010 7
      (d.raise (Rec.of 0x0031 2)).notify 0xFF 0xFF .lapLockLoss
    else d

/-- TICK (R32 to R35, R301, R360): only the tick source's message counts; a module that joins and has
measured its delay locks at its next edge. -/
def execTick (port : Fin 16) (lap : BitVec 64) (period grace : BitVec 16) (s : State) :
    Host.Outcome State Fault Refusal :=
  devOnly s fun d =>
    if d.parentPort != some port.val || d.role == 0 || d.dom.takeover then d
    else if d.lap.lock then { d with lap := { d.lap with ticked := true } }
    else
      let joins := d.dom.state == .locking || d.dom.state == .awaiting || d.dom.state == .refused
      if joins && d.lap.echoed then
        { d with lap := { d.lap with
          loadLap := some (lap + 1), loadPair := some (period.toNat, grace.toNat) } }
      else d

/-- ECHO_REQUEST (R301): answered by the port that it came on; an MZ1 link serves it once it is UP. -/
def execEchoRequest (port : Fin 16) (depart holding : BitVec 32) (s : State) :
    Host.Outcome State Fault Refusal :=
  devOnly s fun d =>
    if d.portUp port.val then d.send port.val (.echoResponse depart holding) else d

/-- ECHO_RESPONSE (R33): half the round trip is the delay. DESIGN CHOICE: half of an odd number of ns is rounded
down; the spec gives no rounding (log entry 116). -/
def execEchoResponse (port : Fin 16) (_depart _holding roundTripNs : BitVec 32) (s : State) :
    Host.Outcome State Fault Refusal :=
  devOnly s fun d =>
    if d.parentPort == some port.val then
      { d with lap := { d.lap with delayNs := roundTripNs.toNat / 2, echoed := true } }
    else d

/-! ### The effective edge (R37, R42) -/

/-- Grace-use records of the clusters that held this edge as the 16th in a row (R41). -/
def Dev.graceUse (d : Dev) : Dev :=
  (d.lap.heldLaps.filter fun x => decide (16 ≤ x.2)).foldl (fun d x =>
    let h := AMap.get (0, 0, 0, 0) d.lap.lastHeld x.1
    let d := d.overrunRec x.1 h.1 h.2.2.1 h.2.1 3 h.2.2.2 0 0 0
    { d with lap := { d.lap with heldLaps := AMap.set 0 d.lap.heldLaps x.1 0 } }) d

/-- The module locks at this edge (R32, R35): it takes the starter's lap number and pair. -/
def Dev.acquire (d : Dev) (lap : W64) : Dev :=
  let pair := d.lap.loadPair.getD (d.live.period, d.live.grace)
  let d := { d with lap := { d.lap with
    count := lap, missed := 0, ticked := false, source := .regenerated, loadLap := none, loadPair := none } }
  let d := (d.setLock true).setPair pair.1 pair.2
  if d.dom.state != .locking then d
  else if d.role == 1 then { d with dom := { d.dom with state := .active } }
  else { d with dom := { d.dom with state := .awaiting } }.requestJoin

/-- One lap ends and the next begins. -/
def Dev.turnLap (d : Dev) : Dev :=
  let load := d.lap.loadLap
  let d := { d with lap := { d.lap with count := d.lap.count + 1, cycle := 0, held := false } }
  match load with
  | some n => d.acquire n
  | none => d

/-- No heat is in flight and every stream ring is empty (R70). -/
def Dev.ringsEmpty (d : Dev) : Bool :=
  d.mar.heats.isEmpty && d.streams.all fun x => x.2.tail == x.2.fetch

/-- A changed pair on the starter goes out as a PERIOD action first (R32). -/
def Dev.sendPeriod (d : Dev) (k : Conf) : Dev :=
  { d with img := { d.img with periodSent := true } }.act 0x15 0xFFFF []
    (BitVec.ofNat 32 (k.period + 65536 * k.grace))

/-- New roles are live (R50, R54): a module that has become the starter sources the tick, one that was the
starter or has left the domain runs on its own tick, out of lap lock (log entry 117). -/
def Dev.newRoles (d : Dev) (was : Nat) : Dev :=
  let d := { d with dom := { d.dom with newStarter := none, upPort := none } }
  if !d.inDomain then
    let d := { d with lap := { d.lap with source := .own }, dom := { d.dom with state := .alone } }
    d.setLock false
  else if d.role == 0 then ({ d with lap := { d.lap with source := .starter } }).setLock false
  else if was == 0 then ({ d with lap := { d.lap with source := .own } }).setLock false
  else d

/-- Sets become live here (R42, R70); one accepted while this edge was held waits for the next. A module
that now belongs to a domain starts to join (R349). -/
def Dev.pendingEdge (d : Dev) (quiesced : Bool) : Dev :=
  match d.img.pending with
  | none => d
  | some k =>
    if d.img.afterHeld then { d with img := { d.img with afterHeld := false } }
    else
      let lead := d.starting
      let change := lead && !d.img.periodSent && (k.period != d.live.period || k.grace != d.live.grace)
      let may := !d.img.quiesce || (if lead || d.lap.lock then quiesced else d.ringsEmpty)
      if change then
        let d := d.sendPeriod k
        { d with img := { d.img with quiesce := d.img.quiesce && !quiesced } }
      else if !may then d
      else
        let roles := d.live.roles
        let was := d.role
        let d := d.goLive
        let d := if d.live.roles == roles then d else d.newRoles was
        if d.dom.state == .alone then d.joinStart else d

/-- One heat after an aging step (R234). -/
def Heat.aged (a : Nat) (h : Heat) : Heat :=
  if 7 ≤ h.prio then h
  else if a ≤ h.age + 1 then { h with prio := h.prio + 1, age := 0 }
  else { h with age := h.age + 1 }

/-- READY heats and queued permit requests age where dispatch opens for their stream (R229, R234, R444); a heat
that becomes READY in the cycle of the edge does not. -/
def Dev.ageHeats (d : Dev) : Dev :=
  let a := d.live.ageLaps
  let ages := fun (h : Heat) => d.streamOpen h.id
    && ((h.state == .ready && decide (h.since < d.now)) || (h.state == .waiting && h.request.isSome))
  { d with mar := { d.mar with heats := updWhere ages (Heat.aged a) d.mar.heats } }

/-- Urgent heats are dispatched at the edge, in dispatch order, one on another where engines overlap
(R234, R235). -/
def Dev.urgent (d : Dev) (mem : Mem) : Dev :=
  let l := sortHeats (d.mar.heats.filter fun h =>
    h.state == .ready && h.prio == 7 && d.streamOpen h.id && decide (h.since ≤ d.now))
  l.foldl (fun d h => if d.cplOk h && d.bodyReady h then d.dispatch mem (d.placed mem h) else d) d

/-- Messages of an edge (R33, R301): every module of a domain sends a tick to each of its tick children, and
all but the starter an echo request toward it. A module that is not in lap lock has no number of the starter's:
it sends its own (log entry 117). -/
def Dev.edgeMessages (d : Dev) : Dev :=
  if !d.inDomain || d.dom.state == .alone then d
  else
    let d := d.childPorts.foldl (fun d q => d.send q (.tick d.lap.count d.live.period d.live.grace)) d
    if d.role == 0 then d
    else d.sendUp (.echoRequest 0)

/-- Aging and urgent dispatch where dispatch opens (R234, R235, R376, R444). -/
def Dev.openLap (d : Dev) (mem : Mem) : Dev :=
  if d.windowOpen then ((d.ageHeats.ageSweep).urgent mem).noteG else d

/-- Clusters with heats whose cancellation has not ended. -/
def Dev.cancellingClusters (d : Dev) : List Nat :=
  (List.range 128).filter fun c => d.mar.heats.any fun h => h.id.cluster.val == c && h.state == .cancelling

/-- The changes of the block alone at an effective edge, before dispatch opens: remaps are permanent
(R120), the rotation restarts (R185), the scrub's share of the lap is whole again (R196), clusters whose
cancelled heats have not ended have yet to report (R240), the clock changes (R449), a stop closes dispatch
(R450, R482). -/
def Dev.edgeFields (d : Dev) : Dev :=
  { d with
    flt := { d.flt with provisional := [] }
    hbm := { d.hbm with served := [], urgent := [] }
    mar := { d.mar with unreported := d.cancellingClusters.foldl NSet.add d.mar.unreported, watched := [] }
    pwr := { d.pwr with clock := d.pwr.clockNext }
    start := { d.start with stopping := d.start.stopping || d.pwr.state == 5 }
    dom := { d.dom with joinAge := d.dom.joinAge + 1 } }

/-- The granule sets whose marking a new configuration changes (R27). -/
def Conf.remarks (old new : Conf) : List (Nat × Bool) :=
  ((List.range 180).filter fun g => old.interleaved g != new.interleaved g).map fun g => (g, new.interleaved g)

/-- Sets become live, and the module moves no data (R27): where a granule set's marking changes, what its
storage holds is found at other addresses. -/
def Wk.pendingEdge (w : Wk) (quiesced : Bool) : Wk :=
  let old := w.dev.live
  let w := w.up fun d => d.pendingEdge quiesced
  let l := old.remarks w.dev.live
  w.ite (!l.isEmpty) fun w => w.op (.remark l)

/-- The effective edge. -/
def Wk.edge (w : Wk) : Wk :=
  let w := w.up fun d => d.graceUse.turnLap
  let again := w.dev.dom.resend
  let quiesced := w.dev.quiesced
  let w := w.decisions
  let w := w.pendingEdge quiesced
  let w := w.up fun d => ((d.edgeFields.resumeAt).sweepPass).sendTakeover.edgeMessages.settle
  let w := w.contribute again
  let mem := w.mem
  (w.up fun d => d.openLap mem).retryBlocked

/-- EFFECTIVE_EDGE (R37, R42): once a nominal edge has come and no heat of the ending lap is running. -/
def execEffectiveEdge (s : State) : Host.Outcome State Fault Refusal :=
  done s fun w => if w.dev.lap.held && !w.dev.anyRunning then w.edge else w

/-- LAP_OVERRUN (R40): at the end of grace the lap overruns, its edge becomes effective, and the starter is
told. -/
def execLapOverrun (s : State) : Host.Outcome State Fault Refusal :=
  done s fun w =>
    match w.dev.late with
    | [] => w
    | h :: _ =>
      if w.dev.lap.held then
        (w.up Dev.overrun).edge.up fun d => d.notify h.id.cluster.val h.id.stream.num .overrun
      else w

end Sys2Proof.Machine
end

