-- ==== Sys2Proof/Machine/Security.lean ====
section
/-! DEFINITION. Keys, tokens, measurement and debug (R430 to R436). -/

namespace Sys2Proof.Machine

open Sys2Proof.Config

/-- A request of `BOOT_CTRL` has finished: RESULT and DONE (R436). -/
def Dev.bootDone (d : Dev) (result : Nat) : Dev :=
  { d with boot := { d.boot with result := result, done := true } }.latch 0xE000 24

/-- Result codes (R436). -/
def bootSignature : Nat := 1
def bootNonce : Nat := 2
def bootState : Nat := 3
def bootLastSlot : Nat := 4
def bootModuleId : Nat := 5
def bootFused : Nat := 6
def bootSelfRevoke : Nat := 7

/-- The 160 bytes of the token (R431). -/
def Wk.token (w : Wk) : List Byte := w.bytes w.dev.boot.tokenAddr 160

/-- The token lies in HBM, bears its name, and an unrevoked slot signed bytes 0 to 63 (R431). -/
def Wk.tokenSigned (w : Wk) (magic : Nat) : Bool :=
  let t := w.token
  let slot := numAt t 5 1
  inHbm w.dev.boot.tokenAddr 160 && numAt t 0 4 == magic && decide (slot < 4) && !w.dev.boot.slotRevoked slot
    && w.dev.boot.verify slot (t.take 64) ((t.drop 64).take 48) ((t.drop 112).take 48)

/-- The result of a revocation token (R432), 0 where it passes. -/
def Wk.revokeResult (w : Wk) : Nat :=
  let t := w.token
  let mask := bits (numAt t 4 1) 3 0
  let id := numAt t 8 8
  if !w.tokenSigned 0x56525A4D then bootSignature
  else if id != 0 && id != w.dev.moduleId.toNat then bootModuleId
  else if bit mask (numAt t 5 1) then bootSelfRevoke
  else if (w.dev.boot.revoked.toNat ||| mask) == 15 then bootLastSlot
  else 0

/-- The digest of the revocation fuses, and that of the debug state at boot, with which measurements 5 and
6 are extended: free values of the fuses and of the state (R433; log entry 3). -/
def fuseDigest (revoked : Nat) : Nat := (bootDigest (16 + revoked)).toNat
def debugDigest (state : Nat) : Nat := (bootDigest (32 + state)).toNat

/-- A revocation (R432). -/
def Wk.revokeSlots (w : Wk) : Wk :=
  let r := w.revokeResult
  let mask := bits (numAt w.token 4 1) 3 0
  w.up fun d =>
    if r != 0 then d.bootDone r
    else
      let d := { d with boot := { d.boot with revoked := d.boot.revoked ||| BitVec.ofNat 4 mask } }
      let d := d.extend 5 3 (fuseDigest d.boot.revoked.toNat) d.lap.count
      (d.raise { Rec.of 0x00C1 1 with detail := leBytes 1 mask }).bootDone 0

/-- Number of a debug state (R436). -/
def dbgCode : DebugState → Nat
  | .locked => 0 | .unlocked => 1 | .fused => 2

/-- Debug enters a state (R435). -/
def Dev.setDebug (d : Dev) (st : DebugState) (scope : Nat) : Dev :=
  if d.boot.dbg == st && d.boot.scope == scope then d
  else
    { d with boot := { d.boot with dbg := st, scope := scope } }.raise
      { Rec.of 0x00C0 1 with detail := leBytes 1 (dbgCode st) ++ leBytes 1 scope }

/-- The result of an unlock token (R435), 0 where it is accepted. -/
def Wk.unlockResult (w : Wk) : Nat :=
  let t := w.token
  if w.dev.boot.dbg == .fused then bootFused
  else if !w.tokenSigned 0x55445A4D then bootSignature
  else if numAt t 8 8 != w.dev.moduleId.toNat then bootModuleId
  else if numAt t 16 32 != (nonce w.dev.boot.nonceUse).toNat then bootNonce
  else if !w.dev.allDisabled then bootState
  else 0

/-- An UNLOCK (R435): the nonce changes whatever the answer. -/
def Wk.unlockDebug (w : Wk) : Wk :=
  let r := w.unlockResult
  let t := w.token
  w.up fun d =>
    let d : Dev := { d with boot := { d.boot with nonceUse := d.boot.nonceUse + 1 } }
    if r != 0 then d.bootDone r
    else
      let d := d.extend 6 4 (sha384 (t.take 64)) d.lap.count
      (d.setDebug .unlocked (bits (numAt t 4 1) 2 0)).bootDone 0

/-- LOCK (R435): an unlocked module is LOCKED at once. -/
def Dev.lockDebug (d : Dev) : Dev :=
  (if d.boot.dbg == .unlocked then d.setDebug .locked 0 else d).bootDone 0

/-- DBG_FUSE (R435). -/
def Dev.fuseDebug (d : Dev) : Dev :=
  ({ d with boot := { d.boot with dbgFuse := true } }.setDebug .fused 0).bootDone 0

/-- A write of `BOOT_CTRL` (R436). -/
def Wk.bootCtrl (w : Wk) (v : Nat) : Wk :=
  match v % 16 with
  | 0 => w
  | 1 => w.revokeSlots
  | 2 => w.unlockDebug
  | 4 => w.up Dev.lockDebug
  | 8 => w.up Dev.fuseDebug
  | _ => w.up fun d => { d with boot := { d.boot with result := bootState } }

/-- REVOKE (R432). -/
def execRevoke (v : BitVec 32) (s : State) : Host.Outcome State Fault Refusal :=
  done s fun w => w.ite w.dev.hostEarly fun w => w.bootCtrl v.toNat

/-- UNLOCK (R435). -/
def execUnlock (v : BitVec 32) (s : State) : Host.Outcome State Fault Refusal :=
  done s fun w => w.ite w.dev.hostEarly fun w => w.bootCtrl v.toNat

/-- LOCK (R435). -/
def execLock (v : BitVec 32) (s : State) : Host.Outcome State Fault Refusal :=
  done s fun w => w.ite w.dev.hostEarly fun w => w.bootCtrl v.toNat

/-- DBG_FUSE (R435). -/
def execDbgFuse (v : BitVec 32) (s : State) : Host.Outcome State Fault Refusal :=
  done s fun w => w.ite w.dev.hostEarly fun w => w.bootCtrl v.toNat

end Sys2Proof.Machine
end

