-- ==== Sys2Proof/Machine/Registers.lean ====
section
/-! DEFINITION. The register map: what every register of BAR0 reads as, one 32-bit word at a time (R5, R6,
R412, R413), and what a host write to a register does. -/

namespace Sys2Proof.Machine

open Sys2Proof.Config

/-! ### Reads -/

/-- The 32-bit word at `o` of a value that begins at `base`. -/
def part (v base o : Nat) : Nat := v / 2 ^ (8 * (o - base)) % 2 ^ 32

/-- A field of a word. -/
def fld (v lo : Nat) : Nat := v * 2 ^ lo

/-- `ID_` (R414). -/
def Dev.idWord (d : Dev) (o : Nat) : Nat :=
  if o < 8 then part d.moduleId.toNat 0 o
  else if o == 8 then 0x07200042
  else if o == 0x10 || o == 0x14 then part (d.serialNo.toNat + fld d.dateCode.toNat 40) 0x10 o
  else 0

/-- `LAP_STATUS` (R50). DESIGN CHOICE (log entry 116): a delay above 65,535 ns, which the field of 16 bits cannot
hold, shows as 0xFFFF. -/
def Dev.lapStatus (d : Dev) : Nat :=
  let l := d.lap
  let src := match l.source with
    | .own => 0 | .regenerated => 1 | .holdover => 2 | .starter => 3
  b2n l.lock + fld src 1 + fld (min 8 l.missed) 3 + fld (b2n l.lockLost) 7
    + (if l.lock then fld (min 0xFFFF l.delayNs) 16 else 0)

/-- `LAP_STEP_TIME` (R51). -/
def Dev.lapStepTime (d : Dev) : Nat :=
  d.lap.stepLaps.toNat + fld (unsigned 23 d.lap.stepCycles) 32 + fld (b2n d.lap.stepValid) 63

/-- `LAP_` (R47 to R51). -/
def Dev.lapWord (d : Dev) (o : Nat) : Nat :=
  if o < 0x1008 then part d.lap.count.toNat 0x1000 o
  else if o == 0x1008 then d.live.period
  else if o == 0x100C then d.live.grace
  else if o == 0x1010 then d.lapStatus
  else if o == 0x1018 || o == 0x101C then part d.lapStepTime 0x1018 o
  else 0

/-- `IMG_` (R73 to R78). -/
def Dev.imgWord (d : Dev) (o : Nat) : Nat :=
  if o < 0x2008 then part d.img.stageAddr 0x2000 o
  else if o == 0x2008 then d.img.stageLen
  else if o == 0x2010 then d.img.status
  else if o == 0x2018 || o == 0x201C then part d.live.serial.toNat 0x2018 o
  else if o == 0x2020 || o == 0x2024 then part d.img.loaded.toNat 0x2020 o
  else if o == 0x2028 || o == 0x202C then part d.img.liveLap.toNat 0x2028 o
  else 0

/-- `EVT_` (R429). -/
def Dev.evtWord (d : Dev) (o : Nat) : Nat :=
  let e := d.evt
  if o < 0x3008 then part e.ring.toNat 0x3000 o
  else if o == 0x3008 then b2n e.enable
  else if o == 0x3010 then e.head.toNat
  else if o == 0x3014 then e.tail.toNat
  else if o == 0x3018 then b2n e.overflow + fld (min 320 e.buffer.length) 8
  else if o == 0x301C then e.lost.toNat
  else 0

/-- `CTX_` (R293, R294). -/
def Dev.ctxWord (d : Dev) (o : Nat) : Nat :=
  if o == 0x4000 then d.ctxGroup
  else if 0x4040 ≤ o ∧ o < 0x4040 + 4 * 15 then (AMap.get (0 : W16) d.ctxRot ((o - 0x4040) / 4)).toNat
  else 0

/-- `PRM_` (R452). -/
def Dev.prmWord (d : Dev) (o : Nat) : Nat :=
  if o == 0x5000 then d.live.budgetW + fld d.live.rampW 16
  else if o == 0x5008 then d.live.reserve
  else if 0x5010 ≤ o ∧ o < 0x5030 then d.live.classGrains ((o - 0x5010) / 4)
  else if o == 0x5040 then d.permitCap + fld (b2n d.prm.tooLarge) 16
  else 0

/-- `PWR_PROT` (R469). -/
def Dev.pwrProt (d : Dev) : Nat :=
  fld (b2n d.pwr.revSeen) 1 + fld (b2n d.pwr.ovpSeen) 2 + fld (b2n d.pwr.contention) 3 + fld d.pwr.cageFault.toNat 16

/-- `PWR_` and `COOL_` (R453, R469, R485). -/
def Dev.pwrWord (d : Dev) (o : Nat) : Nat :=
  let p := d.pwr
  match o with
  | 0x6000 => p.state + fld p.rung 3 + fld d.prm.capEighths 5 + fld p.clock 9 + fld p.active.toNat 16
  | 0x6008 => p.vinMv % 65536 + fld (p.pinW % 65536) 16
  | 0x600C => p.feed.toNat + fld (b2n p.feedValid) 8
  | 0x6010 => p.evt.toNat
  | 0x6014 => d.pwrProt
  | 0x601C => d.start.step + fld d.start.stoppedAt 4 + fld d.start.lastReset 8
  | 0x6020 => unsigned 16 p.inlet + fld (unsigned 16 p.outlet) 16
  | 0x6024 => p.flow % 65536 + fld p.leak.toNat 16
  | 0x6028 => unsigned 16 p.hottest + fld (p.die % 8) 16
  | _ => 0

/-- State and width codes of a port (R327). -/
def portCode : PortState → Nat
  | .down => 0 | .training => 1 | .up => 2 | .held => 3 | .suspect => 4 | .asym => 5
def widthCode (n : Nat) : Nat := if 8 ≤ n then 3 else if 6 ≤ n then 2 else if 4 ≤ n then 1 else 0

/-- The registers of a port (R326 to R328). -/
def Dev.portWord (d : Dev) (q o : Nat) : Nat :=
  let p := d.port q
  if o == 0 then b2n p.disable
  else if o == 4 then
    portCode p.state + fld (widthCode p.width) 3 + fld (b2n p.reversed) 5 + fld p.pnSwap.toNat 6
      + fld (p.peerKind % 4) 14 + fld (p.peerPos % 65536) 16
  else if o == 8 || o == 0xC then part p.peerId.toNat 8 o
  else if o == 0x10 then p.peerPort % 256 + fld p.lanesUp.toNat 8 + fld p.rttNs.toNat 16
  else if o == 0x14 then p.evt.toNat
  else 0

/-- `RLY_` (R323 to R328). -/
def Dev.rlyWord (d : Dev) (o : Nat) : Nat :=
  if o == 0x8000 || o == 0x8004 then
    part (b2n d.rly.bank + fld (b2n d.scaleReady) 1 + fld d.rly.tag 8 + fld d.rly.expect.toNat 32) 0x8000 o
  else if 0x8400 ≤ o ∧ o < 0x8800 then (AMap.get (0 : W32) d.rly.land ((o - 0x8400) / 4)).toNat
  else if 0x9000 ≤ o ∧ o < 0x9400 then d.portWord ((o - 0x9000) / 0x40) ((o - 0x9000) % 0x40)
  else 0

/-- `RLY_DOM_STATUS` (R362). -/
def Dev.domStatus (d : Dev) : Nat :=
  let st := match d.dom.state with
    | .alone => 0 | .linking => 1 | .locking => 2 | .awaiting => 3 | .active => 4 | .refused => 5
  st + fld d.role 3 + fld (b2n d.dom.remapped) 5 + fld (d.pos.getD 0xFFFF) 16

/-- `RLY_DOM_` (R362 to R364). -/
def Dev.domWord (d : Dev) (o : Nat) : Nat :=
  if o == 0x9800 then d.domStatus
  else if o == 0x9808 then d.dom.evt.toNat
  else if 0x9820 ≤ o then numAt d.dom.dataReg (o - 0x9820) 4
  else 0

/-- `STR_UPD_` and `STR_RSET` (R343 to R345). -/
def Dev.updWord (d : Dev) (o : Nat) : Nat :=
  let u := d.upd
  if o == 0xA000 then b2n u.nf + fld (b2n u.nfSeen) 1 + fld u.lastUpd 2 + fld u.lastCmt 4
  else if o == 0xA008 || o == 0xA00C then part u.skips.toNat 0xA008 o
  else if o == 0xA010 || o == 0xA014 then part u.commits.toNat 0xA010 o
  else if o == 0xA018 || o == 0xA01C then part u.discards.toNat 0xA018 o
  else if 0xA100 ≤ o then
    let r := d.rset ((o - 0xA100) / 0x20)
    let k := (o - 0xA100) % 0x20
    let v := match k / 8 with
      | 0 => r.acc0 | 1 => r.acc1 | 2 => r.expFirst
      | _ => r.nrec + fld r.bankLen 28 + fld (b2n r.en) 56 + fld (b2n r.par) 57
    part v 0 (k % 8)
  else 0

/-- `RLY_MEMBER` (R365). -/
def Dev.memberWord (d : Dev) (o : Nat) : Nat :=
  if d.role ≤ 1 then
    let m := d.member ((o - 0xB000) / 8)
    let st := match m.state with
      | .absent => 0 | .active => 1 | .late => 2 | .lost => 3
    part (st + fld (m.feed % 256) 8 + fld m.lap.toNat 32) 0 (o % 8)
  else 0

/-- `FLT_CLUSTER` (R381). -/
def Dev.fltCluster (d : Dev) (c : Nat) : Nat :=
  b2n (d.spareIdle c) + fld (min 2 (d.fencedCores c).length) 1 + fld (b2n (NSet.has d.flt.run15 c)) 3
    + fld (b2n (NSet.has d.flt.halted c)) 4 + fld (b2n (AMap.get 0 d.flt.hangs c != 0)) 5

/-- `FLT_` (R380 to R382). -/
def Dev.fltWord (d : Dev) (o : Nat) : Nat :=
  if o == 0xC000 then d.flt.repl.toNat
  else if 0xC100 ≤ o ∧ o < 0xC300 then d.fltCluster ((o - 0xC100) / 4)
  else if 0xC300 ≤ o then b2n (NSet.has d.flt.stackLimit ((o - 0xC300) / 4))
  else 0

/-- `SWP_` (R383). -/
def Dev.swpWord (d : Dev) (o : Nat) : Nat :=
  let s := d.swp
  if o == 0xC804 then
    b2n s.full + fld (b2n d.anyUrgent) 1 + fld (b2n s.urgentSeen) 2 + fld (b2n s.fail) 3
  else if 0xC808 ≤ o then part s.passLap.toNat 0xC808 o
  else 0

/-- `SEC_STATUS` (R406). -/
def Dev.secStatus (d : Dev) : Nat :=
  let s := d.sec
  s.phase + fld (b2n s.source) 3 + fld (b2n s.pbank) 4 + fld (b2n s.due) 5 + fld (b2n s.valid) 6
    + fld (b2n !s.exposed.isEmpty) 7 + fld (b2n s.verifyPend) 8 + fld (b2n s.verifyFail) 9
    + fld (b2n s.mismatch) 10 + fld (b2n s.unrecoverable) 11

/-- `SEC_` (R405 to R407). -/
def Dev.secWord (d : Dev) (o : Nat) : Nat :=
  let s := d.sec
  let lead := decide (d.role ≤ 1)
  if o == 0xD004 then d.secStatus
  else if o < 0xD008 then 0
  else if o < 0xD010 then part s.snap 0xD008 o
  else if o < 0xD018 then part s.len 0xD010 o
  else if o < 0xD020 then part s.par0 0xD018 o
  else if o < 0xD028 then part s.par1 0xD020 o
  else if o < 0xD030 then part (s.listBase + fld s.listCount 48) 0xD028 o
  else if o < 0xD038 then part s.step.toNat 0xD030 o
  else if o < 0xD048 then part s.cursor.toNat 0xD038 o
  else if o < 0xD050 then part s.resumeStep.toNat 0xD048 o
  else if o < 0xD060 then part s.resumeCur.toNat 0xD050 o
  else if o < 0xD068 then part s.resumeLap.toNat 0xD060 o
  else if o < 0xD070 then part (s.number.toNat + fld s.pointLap.toNat 32) 0xD068 o
  else if !lead then 0
  else if o == 0xD070 then s.tLaps.toNat
  else if o == 0xD074 then s.cLaps.toNat
  else if o < 0xD080 then part s.mLaps.toNat 0xD078 o
  else if o < 0xD0A0 then numAt s.lossRef (o - 0xD080) 4
  else 0

/-- `BOOT_STATUS` (R436). -/
def Dev.bootStatus (d : Dev) : Nat :=
  let b := d.boot
  b2n b.slotB + fld (b2n b.fallback) 1 + fld (b2n b.logFull) 2 + fld (dbgCode b.dbg) 3 + fld b.revoked.toNat 8
    + fld b.result 16 + fld (b2n b.done) 24

/-- `BOOT_` (R436). -/
def Dev.bootWord (d : Dev) (o : Nat) : Nat :=
  let b := d.boot
  if o == 0xE000 then d.bootStatus
  else if o == 0xE008 || o == 0xE00C then part b.tokenAddr 0xE008 o
  else if o == 0xE010 then b.log.length
  else if 0xE020 ≤ o ∧ o < 0xE040 then part (nonce b.nonceUse).toNat 0xE020 o
  else if 0xE100 ≤ o ∧ o < 0xE300 then
    if (o - 0xE100) % 0x40 < 48 then
      numAt (beBytes 48 (AMap.get 0 b.meas ((o - 0xE100) / 0x40))) ((o - 0xE100) % 0x40) 4
    else 0
  else if 0xE400 ≤ o ∧ o < 0xE600 then
    if (o - 0xE400) % 0x80 < 96 then
      let k := AMap.get (0, 0) b.keys ((o - 0xE400) / 0x80)
      numAt (beBytes 48 k.1 ++ beBytes 48 k.2) ((o - 0xE400) % 0x80) 4
    else 0
  else 0

/-- The registers of a stream (R202 to R205). -/
def Dev.strWord (d : Dev) (c s o : Nat) : Nat :=
  let t := d.stream c s
  if o == 0 || o == 4 then part t.ring.toNat 0 o
  else if o == 8 || o == 0xC then part t.cplReg.toNat 8 o
  else if o == 0x10 then b2n t.enable
  else if o == 0x14 then d.streamState c s + fld t.halt 2 + fld (b2n t.dbReject) 6
  else if o == 0x18 then t.tail.toNat
  else if o == 0x1C then t.fetch.toNat
  else if o == 0x20 then (d.retire c s).toNat
  else if o == 0x24 then t.haltIdx.toNat
  else if o == 0x28 then t.cplHead.toNat
  else if o == 0x2C then t.cplTail.toNat
  else 0

/-- Code of a buffer state (R254). -/
def bufCode : BufState → Nat
  | .free => 0 | .writing => 1 | .current => 2 | .old => 3

/-- WAIT_OPEN of a set (R262). -/
def Dev.waitOpen (d : Dev) (w : Nat) : Bool :=
  d.mar.heats.any fun h => h.state == .waiting && !d.noDispatch h.id.cluster.val h.id.stream.num && (match h.body with
    | .update u => u.uop == 0 && u.wset == w && u.version == (d.wset w).version + 1
        && d.updVerdict u.skipHseq == some 1 && !(d.wset w).canOpen u.version && d.depsMet h
    | _ => false)

/-- The registers of a weight set (R259 to R263). -/
def Dev.wsetWord (d : Dev) (w o : Nat) : Nat :=
  let s := d.wset w
  if o == 0 || o == 4 then part (s.nbuf + s.base) 0 o
  else if o == 8 then s.pages
  else if o == 0xC then s.version.toNat
  else if o == 0x10 then
    (List.range 4).foldl (fun n b => n + fld (bufCode (s.buf b).state) (2 * b)) 0 + fld (b2n (d.waitOpen w)) 8
  else if o == 0x18 || o == 0x1C then
    part ((List.range 4).foldl (fun n b => n + fld (s.buf b).pins (16 * b)) 0) 0x18 o
  else 0

/-- The MSI-X table and pending bits (R423): a vector is masked until its control word says otherwise. -/
def Dev.msixWord (d : Dev) (o : Nat) : Nat :=
  if o < 0x208000 then
    let v := (o - 0x200000) / 16
    match (o % 16) / 4 with
    | 0 => part (AMap.get (0 : W64) d.pcie.msixAddr v).toNat 0 0
    | 1 => part (AMap.get (0 : W64) d.pcie.msixAddr v).toNat 0 4
    | 2 => (AMap.get (0 : W32) d.pcie.msixData v).toNat
    | _ => b2n (!NSet.has d.pcie.unmasked v)
  else (List.range 32).foldl (fun n i => n + fld (b2n (NSet.has d.pcie.pba (8 * (o - 0x208000) + i))) i) 0

/-- An entry of the measurement log (R434). -/
def Dev.logWord (d : Dev) (o : Nat) : Nat :=
  numAt (d.boot.log.getD ((o - 0x300000) / 64) []) (o % 64) 4

/-- The 32-bit word of BAR0 at an offset that is a multiple of 4; unoccupied offsets read 0 (R412, R413). -/
def Dev.word (d : Dev) (o : Nat) : Nat :=
  if o < 0x1000 then d.idWord o
  else if o < 0x2000 then d.lapWord o
  else if o < 0x3000 then d.imgWord o
  else if o < 0x4000 then d.evtWord o
  else if o < 0x5000 then d.ctxWord o
  else if o < 0x6000 then d.prmWord o
  else if o < 0x7000 then d.pwrWord o
  else if o < 0x8000 then (if o == 0x7000 then d.pcie.aper else 0)
  else if o < 0x9400 then d.rlyWord o
  else if o < 0x9800 then 0
  else if o < 0x9848 then d.domWord o
  else if o < 0xA000 then 0
  else if o < 0xA200 then d.updWord o
  else if o < 0xB000 then 0
  else if o < 0xB810 then d.memberWord o
  else if o < 0xC000 then 0
  else if o < 0xC350 then d.fltWord o
  else if o < 0xC800 then 0
  else if o < 0xC810 then d.swpWord o
  else if o < 0xD000 then 0
  else if o < 0xD0A0 then d.secWord o
  else if o < 0xE000 then 0
  else if o < 0xE600 then d.bootWord o
  else if o < 0x100000 then 0
  else if o < 0x108000 then
    (if o % 0x100 < 0xC0 then d.strWord ((o - 0x100000) / 0x100) (o % 0x100 / 0x40) (o % 0x40) else 0)
  else if o < 0x110000 then 0
  else if o < 0x110800 then d.wsetWord ((o - 0x110000) / 0x20) (o % 0x20)
  else if o < 0x120000 then 0
  else if o < 0x120F00 then (AMap.get (0 : W32) d.mar.signals ((o - 0x120000) / 4)).toNat
  else if o < 0x200000 then 0
  else if o < 0x208100 then d.msixWord o
  else if o < 0x300000 then 0
  else if o < 0x310000 then d.logWord o
  else 0

/-- A register read of 4 or 8 bytes: an 8-byte read returns one value (R412). -/
def Dev.readBytes (d : Dev) (o len : Nat) : Nat :=
  if len == 8 then d.word o + fld (d.word (o + 4)) 32 else d.word o

/-- What a host read of 4 or 8 bytes of BAR2 returns (R5, R292, R416): doorbells are write-only and read 0, as do
offsets that nothing occupies; the context window holds the records. -/
def Dev.bar2Bytes (d : Dev) (o len : Nat) : Nat :=
  if 0x8000000 ≤ o ∧ o < 0x8800000 then
    numAt (d.ctxAt ((o - 0x8000000) / 128)) ((o - 0x8000000) % 128) len
  else 0

/-! ### Writes -/

/-- A 64-bit register that begins at an offset (R412). -/
def wide (o : Nat) : Bool :=
  o == 0x2000 || o == 0x3000 || o == 0x7000 || o == 0x8000 || (decide (0xA100 ≤ o) && decide (o < 0xA200))
    || (decide (0xD008 ≤ o) && decide (o < 0xD068)) || o == 0xE008
    || (decide (0x100000 ≤ o) && decide (o < 0x108000) && (o % 0x40 == 0 || o % 0x40 == 8))
    || (decide (0x110000 ≤ o) && decide (o < 0x110800) && o % 0x20 == 0)

/-- A shadow field takes a value (R5). -/
def Dev.setShadow (d : Dev) (f : Conf → Conf) : Dev :=
  { d with img := { d.img with shadow := f d.img.shadow } }

/-- A write of `EVT_RING` (R429). -/
def Dev.evtRing (d : Dev) (v : Nat) : Dev :=
  let lg := bits v 4 0
  if !d.evt.enable && decide (6 ≤ lg ∧ lg ≤ 16) then
    { d with evt := { d.evt with ring := BitVec.ofNat 64 (bits v 63 12 * 4096 + lg), head := 0, tail := 0 } }
  else d.streamConfig 0x3000

/-- A write of `EVT_CTRL` (R429). -/
def Dev.evtCtrl (d : Dev) (v : Nat) : Dev := { d with evt := { d.evt with enable := bit v 0 } }

/-- A write of `EVT_HEAD` (R428, R429). -/
def Dev.evtHead (d : Dev) (v : W32) : Dev := { d with evt := { d.evt with head := v } }

/-- A write of `HOST_APER` (R418). -/
def Dev.aperture (d : Dev) (v : Nat) : Dev :=
  if bits v 9 0 ≤ 656 then { d with pcie := { d.pcie with aper := bits v 9 0 } } else d

/-- A register of the securing area (R405 to R407): set up only while PHASE is 0 or 3. -/
def Dev.secWrite (d : Dev) (o v : Nat) : Dev :=
  let s := d.sec
  let put := fun (s : Sec) => { d with sec := s }
  let area := fun (s : Sec) => if d.sec.phase == 0 || d.sec.phase == 3 then put s else d.streamConfig o
  match o with
  | 0xD008 => area { s with snap := bits v 47 12 * 4096 }
  | 0xD010 => area { s with len := bits v 19 0 }
  | 0xD018 => area { s with par0 := bits v 47 12 * 4096 }
  | 0xD020 => area { s with par1 := bits v 47 12 * 4096 }
  | 0xD028 => area { s with listBase := bits v 47 4 * 16, listCount := bits v 56 48 }
  | 0xD030 => put { s with step := BitVec.ofNat 64 v }
  | 0xD038 => put { s with cursor := BitVec.ofNat 128 (setBits s.cursor.toNat 63 0 v) }
  | 0xD040 => put { s with cursor := BitVec.ofNat 128 (setBits s.cursor.toNat 127 64 v) }
  | 0xD048 => put { s with resumeStep := BitVec.ofNat 64 v }
  | 0xD050 => put { s with resumeCur := BitVec.ofNat 128 (setBits s.resumeCur.toNat 63 0 v) }
  | 0xD058 => put { s with resumeCur := BitVec.ofNat 128 (setBits s.resumeCur.toNat 127 64 v) }
  | 0xD060 => put { s with resumeLap := BitVec.ofNat 64 v }
  | _ => d

/-- A whole 64-bit register is written. -/
def Dev.write64 (d : Dev) (o v : Nat) : Dev :=
  if o == 0x2000 then { d with img := { d.img with stageAddr := bits v 47 12 * 4096 } }
  else if o == 0x3000 then d.evtRing v
  else if o == 0x7000 then d.aperture v
  else if o == 0x8000 then
    { d with rly := { d.rly with tag := bits v 15 8, expect := BitVec.ofNat 32 (bits v 63 32) } }
  else if o < 0xA200 then d.rsetWrite ((o - 0xA100) / 0x20) ((o - 0xA100) % 0x20 / 8) v
  else if o < 0xE000 then d.secWrite o v
  else if o == 0xE008 then { d with boot := { d.boot with tokenAddr := bits v 47 6 * 64 } }
  else if o < 0x110000 then
    (if o % 0x100 < 0xC0 then
      d.strRing ((o - 0x100000) / 0x100) (o % 0x100 / 0x40) (o % 0x40 == 8) v else d)
  else (d.wsetCfg ((o - 0x110000) / 0x20) v).settle

/-- The supplies of cages are tried again (R462, R469): the bits clear and the ports train. -/
def Dev.cageRetry (d : Dev) (m : BitVec 16) : Dev :=
  let l := (List.range 16).filter fun q => m.toNat.testBit q && d.pwr.cageFault.toNat.testBit q
  let d := { d with pwr := { d.pwr with cageFault := d.pwr.cageFault &&& ~~~m } }
  l.foldl Dev.trainAgain d

/-- A write of 1 to bits of CAGE_FAULT; one set in the same cycle stays (R7, R469). -/
def Dev.cageClear (d : Dev) (m : BitVec 16) : Dev :=
  d.cageRetry (BitVec.ofNat 16 (d.clears 0x6014 (m.toNat * 2 ^ 16) / 2 ^ 16))

/-- A write of `PWR_PROT` (R469). -/
def Dev.protWrite (d : Dev) (v : Nat) : Dev :=
  let p := d.pwr
  let d := { d with pwr := { p with
    revSeen := d.w1c 0x6014 1 v p.revSeen, ovpSeen := d.w1c 0x6014 2 v p.ovpSeen
    contention := d.w1c 0x6014 3 v p.contention } }
  d.cageClear (BitVec.ofNat 16 (bits v 31 16))

/-- A write of `RLY_PORT_CTRL` (R326). -/
def Dev.portCtrl (d : Dev) (q v : Nat) : Dev :=
  let d := if bit v 0 == (d.port q).disable then d else d.portDisable q (bit v 0)
  let d := if bit v 1 then d.trainAgain q else d
  if bit v 2 then d.clearSuspect q else d

/-- A write of `STR_CTRL` (R203). -/
def Dev.strCtrl (d : Dev) (c s v : Nat) : Dev :=
  (if bit v 1 then d.hostCancel c s else d).enableStream c s (bit v 0)

/-- A 32-bit register of a stream is written. -/
def Dev.strWrite (d : Dev) (c s o v : Nat) : Dev :=
  if o == 0x10 then d.strCtrl c s v
  else if o == 0x14 then d.setStream c s fun t => { t with dbReject := d.w1c (strOffset c s 0x14) 6 v t.dbReject }
  else if o == 0x28 then d.setStream c s fun t => { t with cplHead := BitVec.ofNat 32 v }
  else d

/-- Pending messages whose vectors are unmasked are sent (R423). -/
def Dev.msixFlush (d : Dev) : Dev :=
  if !d.pcie.busMaster then d
  else
    d.pcie.pba.foldl (fun d x =>
      if x.2 && NSet.has d.pcie.unmasked x.1 then
        { d with pcie := { d.pcie with pba := NSet.del d.pcie.pba x.1 } }.emit (.msix x.1)
      else d) d

/-- A word of the MSI-X table is written (R423). -/
def Dev.msixWrite (d : Dev) (o v : Nat) : Dev :=
  let k := (o - 0x200000) / 16
  let a := (AMap.get (0 : W64) d.pcie.msixAddr k).toNat
  let addr := fun (n : Nat) => { d with pcie := { d.pcie with
    msixAddr := AMap.set 0 d.pcie.msixAddr k (BitVec.ofNat 64 n) } }
  match (o % 16) / 4 with
  | 0 => addr (setBits a 31 0 v)
  | 1 => addr (setBits a 63 32 v)
  | 2 => { d with pcie := { d.pcie with msixData := AMap.set 0 d.pcie.msixData k (BitVec.ofNat 32 v) } }
  | _ =>
    let u := if bit v 0 then NSet.del d.pcie.unmasked k else NSet.add d.pcie.unmasked k
    { d with pcie := { d.pcie with unmasked := u } }.msixFlush

/-- A W1C field of 8 bits. -/
def w1c8 (old : BitVec 8) (v : Nat) : BitVec 8 := old &&& ~~~(BitVec.ofNat 8 v)

/-- An orderly stop is asked for (R482, R484); it begins where the package runs. -/
def Dev.stopping (d : Dev) : Bool := d.pwr.state == 5

/-- A stop begins (R482): STOPPING, and a fault notice to the starter. During start-up it abandons the
running step. -/
def Dev.stop (d : Dev) : Dev :=
  if 1 ≤ d.pwr.state ∧ d.pwr.state ≤ 4 then
    ({ d with pwr := { d.pwr with state := 5 } }).notify 0xFF 0xFF .fault
  else d

/-- A 32-bit register is written (R5). -/
def Wk.write32 (w : Wk) (o v : Nat) : Wk :=
  if o == 0xD000 then w.secCtrl v
  else if o == 0xE004 then w.bootCtrl v
  else w.up fun d =>
    if o == 0x1008 then d.setShadow fun k => { k with period := bits v 10 0 }
    else if o == 0x100C then d.setShadow fun k => { k with grace := bits v 8 0 }
    else if o == 0x1010 then { d with lap := { d.lap with lockLost := d.w1c o 7 v d.lap.lockLost } }
    else if o == 0x2008 then { d with img := { d.img with stageLen := bits v 22 0 } }
    else if o == 0x200C then d.imgCtrl v
    else if o == 0x2010 then { d with img := { d.img with done := d.w1c o 4 v d.img.done } }
    else if o == 0x3008 then d.evtCtrl v
    else if o == 0x3010 then d.evtHead (BitVec.ofNat 32 v)
    else if o == 0x3018 then { d with evt := { d.evt with overflow := d.w1c o 0 v d.evt.overflow } }
    else if o == 0x4000 then d.ctxCtrl v
    else if 0x4040 ≤ o ∧ o < 0x4040 + 4 * 15 then
      { d with ctxRot := AMap.set 0 d.ctxRot ((o - 0x4040) / 4) (BitVec.ofNat 16 v) }
    else if o == 0x5000 then d.setShadow fun k => { k with budgetW := bits v 12 0, rampW := bits v 28 16 }
    else if o == 0x5008 then d.setShadow fun k => { k with reserve := bits v 12 0 }
    else if 0x5010 ≤ o ∧ o < 0x5030 then
      d.setShadow fun k => { k with grains := k.grains.set ((o - 0x5010) / 4) (bits v 12 0) }
    else if o == 0x5040 then { d with prm := { d.prm with tooLarge := d.w1c o 16 v d.prm.tooLarge } }
    else if o == 0x6010 then { d with pwr := { d.pwr with evt := d.pwr.evt &&& ~~~(BitVec.ofNat 9 (d.clears o v)) } }
    else if o == 0x6014 then d.protWrite v
    else if o == 0x6018 then (if bit v 0 then d.stop else d)
    else if o == 0x8008 then d.bankSet v
    else if 0x8400 ≤ o ∧ o < 0x8800 then d.landSet ((o - 0x8400) / 4) (BitVec.ofNat 32 v)
    else if 0x9000 ≤ o ∧ o < 0x9400 then
      let q := (o - 0x9000) / 0x40
      if o % 0x40 == 0 then d.portCtrl q v
      else if o % 0x40 == 0x14 then d.setPort q fun p => { p with evt := w1c8 p.evt (d.clears o v) }
      else d
    else if o == 0x9804 then (if bit v 0 then d.joinStart else d)
    else if o == 0x9808 then { d with dom := { d.dom with evt := w1c8 d.dom.evt (d.clears o v) } }
    else if o == 0xA000 then { d with upd := { d.upd with nfSeen := d.w1c o 1 v d.upd.nfSeen } }
    else if o == 0xC800 then (if bit v 0 then d.sweepFull else d)
    else if o == 0xC804 then
      { d with swp := { d.swp with urgentSeen := d.w1c o 2 v d.swp.urgentSeen, fail := d.w1c o 3 v d.swp.fail } }
    else if o == 0xD004 then
      { d with sec := { d.sec with verifyFail := d.w1c o 9 v d.sec.verifyFail, mismatch := d.w1c o 10 v d.sec.mismatch } }
    else if o == 0xE000 then { d with boot := { d.boot with done := d.w1c o 24 v d.boot.done } }
    else if 0x100000 ≤ o ∧ o < 0x108000 then
      (if o % 0x100 < 0xC0 then d.strWrite ((o - 0x100000) / 0x100) (o % 0x100 / 0x40) (o % 0x40) v else d)
    else if 0x110000 ≤ o ∧ o < 0x110800 then
      let k := (o - 0x110000) / 0x20
      if o % 0x20 == 8 then (d.wsetSize k v).settle
      else if o % 0x20 == 0xC then (d.wsetVer k v).settle
      else d
    else if 0x120000 ≤ o ∧ o < 0x120F00 then d.sigSet ((o - 0x120000) / 4) (BitVec.ofNat 32 v)
    else if 0x200000 ≤ o ∧ o < 0x208000 then d.msixWrite o v
    else d

/-- BAR0 serves an offset now (R476). -/
def Dev.serves (d : Dev) (o : Nat) : Bool :=
  d.hostOpen || (d.hostEarly && (decide (o < 0x1000) || (decide (0x3000 ≤ o) && decide (o < 0x4000))
    || (decide (0x6000 ≤ o) && decide (o < 0x7000)) || (decide (0xC000 ≤ o) && decide (o < 0xC350))
    || (decide (0xE000 ≤ o) && decide (o < 0xE600))))

/-- The offset of an `STR_CTRL` register (R415). -/
def isStrCtrl (o : Nat) : Bool :=
  decide (0x100000 ≤ o) && decide (o < 0x108000) && decide (o % 0x100 < 0xC0) && o % 0x40 == 0x10

/-- A write to an offset that BAR0 does not serve is ignored; a 1 to `STR_CTRL`.ENABLE is recorded (R476). -/
def Dev.unserved (d : Dev) (o v : Nat) : Dev :=
  if d.hostEarly && isStrCtrl o && bit v 0 then d.streamConfig o else d

/-- A write of 4 or 8 bytes to BAR0: a half of a 64-bit register joins the other half as it stands (log entry 80).
DESIGN CHOICE (log entry 116): 8 bytes that cover two registers of 32 bits are two writes, the lower offset
first; R412 does not say so. -/
def Wk.write (w : Wk) (o size v : Nat) : Wk :=
  let base := o / 8 * 8
  if !w.dev.serves o then w.up fun d => d.unserved o v
  else if wide base then
    let old := w.dev.readBytes base 8
    let new := if size == 8 then v else if o == base then setBits old 31 0 v else setBits old 63 32 v
    w.up fun d => d.write64 base new
  else if size == 8 then (w.write32 o (v % 2 ^ 32)).write32 (o + 4) (v / 2 ^ 32)
  else w.write32 o v

/-- A write of 4 or 8 bytes to BAR2 (R416): doorbells take 4 bytes only. -/
def Wk.write2 (w : Wk) (o size v : Nat) : Wk :=
  w.up fun d =>
    if !d.hostEarly then d
    else if o < 0x200000 then
      (if size == 4 && o % 0x1000 == 0 && decide (o % 0x4000 / 0x1000 < 3) then
        d.bell (o / 0x4000) (o % 0x4000 / 0x1000) (BitVec.ofNat 32 v) else d)
    else if 0x8000000 ≤ o ∧ o < 0x8800000 then d.ctxWindowWrite 2 (o - 0x8000000) (leBytes size v)
    else d

/-- REGISTER_WRITE (R5 to R7, R412, R416): an access that is not 4 or 8 bytes long and naturally aligned is an
Unsupported Request. -/
def execRegisterWrite (bar2 : Bool) (offset size : Nat) (v : BitVec 64) (s : State) :
    Host.Outcome State Fault Refusal :=
  done s fun w =>
    let limit := if bar2 then 2 ^ 28 else 2 ^ 26
    if !(size == 4 || size == 8) || offset % size != 0 || limit < offset + size then
      w.up fun d => d.emit .unsupportedRequest
    else if bar2 then w.write2 offset size (v.toNat % 2 ^ (8 * size))
    else w.write offset size (v.toNat % 2 ^ (8 * size))

end Sys2Proof.Machine
end

