-- ==== Sys2Proof/Machine/HostIf.lean ====
section
/-! DEFINITION. The host interface beside the registers (R408 to R439): the aperture, the event ring, bus
mastering and the management controller. -/

namespace Sys2Proof.Machine

open Sys2Proof.Config

/-! ### BAR4 (R418 to R421) -/

/-- Size of BAR4 (R411). -/
def bar4Size : Nat := 64 * 2 ^ 30

/-- BAR4 reaches HBM once its stacks have trained (R472). -/
def Dev.aperOpen (d : Dev) : Bool := decide (7 ≤ d.start.step)

/-- Module address of a BAR4 offset (R418). -/
def Dev.aperAddr (d : Dev) (o : Nat) : Nat := d.pcie.aper * 2 ^ 30 + o

/-- The first request of the host that is not served (R180). -/
def Dev.hostFirst (d : Dev) : Option Req := d.hbm.reqs.find? fun r => r.who == .host

/-- The host's requests get on, oldest first, as far as tokens, slots and the order of each line allow (R178 to
R186): each takes its tokens and slot, and is served. `errs` are what ECC finds in the lines served. What stays
goes on with REQUEST_ISSUE, READ_RETURN and WRITE_ACK. -/
def Wk.hostGo (errs : List (Nat × EccError)) : Nat → Wk → Wk
  | 0, w => w
  | n + 1, w =>
    match w.dev.hostFirst with
    | none => w
    | some r =>
      let w := w.ite (w.dev.issuable r && w.dev.isNext r) fun w => w.up fun d => d.issue r
      let r := { r with issued := r.issued || (w.dev.hbm.reqs.any fun q => q.id == r.id && q.issued) }
      if r.issued && w.dev.servable r then
        let mine := (errs.filter fun x => x.1 == r.line).map Prod.snd
        let w := if r.kind.isRead then w.deliver r mine else (w.ecc r.line (Rec.of 0 0) mine).serve r
        Wk.hostGo errs n (w.up fun d => (d.dropReq r.id).ringBells)
      else w.up fun d => d.noteWait r

/-- Every request of the host has its chance. -/
def Wk.hostRun (w : Wk) (errs : List (Nat × EccError)) : Wk := w.hostGo errs w.dev.hbm.reqs.length

/-- The parts of a range that lie in its lines: address and length. -/
def linePieces : Nat → Nat → Nat → List (Nat × Nat)
  | 0, _, _ => []
  | f + 1, a, n =>
    if n == 0 then []
    else
      let k := min n (128 - a % 128)
      (a, k) :: linePieces f (a + k) (n - k)

/-- A BAR4 read (R419 to R421): a request for each line; each line's data completes on its own, with poison
where a poisoned word lies in it. -/
def Dev.bar4Read (d : Dev) (a n : Nat) : Dev :=
  (linePieces (n / 128 + 2) a n).foldl (fun d x => d.post (Req.of .host [x.1 / 128] (.hostRead x.1 x.2))) d

/-- A BAR4 write of some bytes (R419): a request for each line. -/
def Dev.bar4Write (d : Dev) (a : Nat) (data : List Byte) : Dev :=
  (splitLines (data.length / 128 + 2) a data).foldl
    (fun d x => d.post (Req.of .host [x.1 / 128] (.write x.1 x.2))) d

/-- BAR4_READ (R411, R419 to R421): outside the aperture there is no address. -/
def execBar4Read (offset length : Nat) (errs : List (Nat × EccError)) (s : State) :
    Host.Outcome State Fault Refusal :=
  if bar4Size < offset + length then .fault .barRange
  else done s fun w =>
    if !w.dev.aperOpen then w.up fun d => d.emit .unsupportedRequest
    else (w.up fun d => d.bar4Read (d.aperAddr offset) length).hostRun errs

/-- Runs of enabled bytes: offset and bytes. -/
def enabledRuns : Nat → List (Option Byte) → List (Nat × List Byte)
  | _, [] => []
  | o, none :: l => enabledRuns (o + 1) l
  | o, some b :: l =>
    match enabledRuns (o + 1) l with
    | [] => [(o, [b])]
    | (p, x) :: r => if p == o + 1 then (o, b :: x) :: r else (o, [b]) :: (p, x) :: r

/-- The host bus address of a BAR4 offset: the base that the host gave BAR4 is a free value (log entry 3). -/
def Dev.busAddr (d : Dev) (o : Nat) : Nat :=
  (freeWord d.free 0).toNat + 2 ^ 32 * (freeWord d.free 1).toNat + o

/-- BAR4_WRITE (R411, R419, R421): enabled bytes are written; a poisoned write is discarded whole. -/
def execBar4Write (offset : Nat) (data : List (Option Byte)) (poisoned : Bool) (s : State) :
    Host.Outcome State Fault Refusal :=
  if bar4Size < offset + data.length then .fault .barRange
  else done s fun w =>
    if !w.dev.aperOpen then w.up fun d => d.emit .unsupportedRequest
    else if poisoned then
      w.up fun d =>
        let d := (d.emit .aerPoisonReceived).raise { Rec.of 0x00D1 1 with addr := d.busAddr offset }
        { d with free := d.free + 1 }
    else
      (w.up fun d => (enabledRuns 0 data).foldl (fun d x => d.bar4Write (d.aperAddr offset + x.1) x.2) d).hostRun []

/-- HOST_APER_WRITE (R418). -/
def execHostAperWrite (v : BitVec 64) (s : State) : Host.Outcome State Fault Refusal :=
  devOnly s fun d => d.hostWrite fun d => d.aperture v.toNat

/-! ### The event ring (R426 to R429) -/

/-- EVT_RING_WRITE (R429). -/
def execEvtRingWrite (v : BitVec 64) (s : State) : Host.Outcome State Fault Refusal :=
  devOnly s fun d => if d.hostEarly then d.evtRing v.toNat else d

/-- EVT_ENABLE (R429): the write of `EVT_CTRL`. -/
def execEvtEnable (v : BitVec 32) (s : State) : Host.Outcome State Fault Refusal :=
  devOnly s fun d => if d.hostEarly then d.evtCtrl v.toNat else d

/-- EVT_HEAD_WRITE (R428, R429). -/
def execEvtHeadWrite (v : BitVec 32) (s : State) : Host.Outcome State Fault Refusal :=
  devOnly s fun d => if d.hostEarly then d.evtHead v else d

/-- The oldest record goes to the ring (R426). -/
def Dev.ringWrite (d : Dev) (r : Rec) (rest : List Rec) : Dev :=
  let e := d.evt
  let k := e.tail.toNat
  let base := bits e.ring.toNat 63 12 * 4096
  let d := d.emit (.hostWrite (base + k % e.size * 64) (r.bytes e.lostBefore (k / e.size % 2 == 0)))
  { d with evt := { e with
      buffer := rest, reserve := e.reserve.filter fun q => q != r.seq, tail := e.tail + 1, lostBefore := false } }.msix
    (if r.severity ≤ 1 then 768 else 769)

/-- EVENT_RING_WRITE (R426, R427): where the ring is enabled and has room. -/
def execEventRingWrite (s : State) : Host.Outcome State Fault Refusal :=
  devOnly s fun d =>
    match d.evt.buffer with
    | [] => d
    | r :: rest => if d.evtRoom == 0 then d else d.ringWrite r rest

/-- BUS_MASTER_ENABLE (R410, R426): vectors that waited for it are sent. -/
def execBusMasterEnable (on : Bool) (s : State) : Host.Outcome State Fault Refusal :=
  devOnly s fun d => ({ d with pcie := { d.pcie with busMaster := on } }).msixFlush

/-! ### The management controller (R437 to R439) -/

/-- The management controller runs: 48 V is present (R13, R437). -/
def Dev.mgmtUp (d : Dev) : Bool := d.start.standby

/-- The package is powered and its H-die has left reset (R439, R472). -/
def Dev.packageUp (d : Dev) : Bool := decide (3 ≤ d.start.step)

/-- Offsets that READ_REG may read (R438), and those it reads while the package is unpowered (R439). -/
def mgmtReadable (o : Nat) : Bool :=
  decide (o < 0x1000) || o == 0x1010 || (decide (0xC000 ≤ o) && decide (o < 0xC350)) || o == 0xC804
    || o == 0x9800 || o == 0xD004 || o == 0xE000 || (decide (0x6000 ≤ o) && decide (o < 0x7000))
def mgmtStandby (o : Nat) : Bool :=
  decide (o < 0x1000) || o == 0xC000 || (decide (0x6000 ≤ o) && decide (o < 0x7000))

/-- Every word of an access passes a test. -/
def allWords (p : Nat → Bool) (o len : Nat) : Bool := p o && (len == 4 || p (o + 4))

/-- The answer to READ_REG. -/
def Dev.regAnswer (d : Dev) (o len : Nat) : Output :=
  let ok := (len == 4 || len == 8) && o % len == 0
  if !d.packageUp && !(ok && allWords mgmtStandby o len) then .notReady
  else if ok && allWords mgmtReadable o len then .regAnswer (some (d.readBytes o len))
  else .regAnswer none

/-- READ_REG (R438, R439). -/
def execReadReg (offset length : Nat) (s : State) : Host.Outcome State Fault Refusal :=
  devOnly s fun d => if d.mgmtUp then d.emit (d.regAnswer offset length) else d

/-- READ_EVENT (R438, R439): record `i` of the most recent, 0 the newest. -/
def execReadEvent (i : Nat) (s : State) : Host.Outcome State Fault Refusal :=
  devOnly s fun d =>
    if !d.mgmtUp then d
    else if !d.packageUp then d.emit .notReady
    else d.emit (.eventAnswer (d.evt.recent[i]?.map fun r => r.bytes false false))

/-- An answer whose content follows a DMTF standard: a free value (log entry 3). -/
def Dev.mctp (d : Dev) (kind : Nat) (request : List Byte) : Dev :=
  if d.mgmtUp then
    { d with free := d.free + 1 }.emit (.mctp (leBytes 1 kind ++ mctpAnswer kind request d.free))
  else d

/-- MCTP_CONTROL (R437). -/
def execMctpControl (request : List Byte) (s : State) : Host.Outcome State Fault Refusal :=
  devOnly s fun d => d.mctp 0x00 request

/-- PLDM (R437). -/
def execPldm (request : List Byte) (s : State) : Host.Outcome State Fault Refusal :=
  devOnly s fun d => d.mctp 0x01 request

/-- SPDM (R437). -/
def execSpdm (request : List Byte) (s : State) : Host.Outcome State Fault Refusal :=
  devOnly s fun d => d.mctp 0x05 request

end Sys2Proof.Machine
end

