-- ==== Sys2Proof/Machine/Power.lean ====
section
/-! DEFINITION. Power, cooling and the connectors (R447 to R470): samples, the throttle ladder, the shutdown
of rung 3, feed id, cage supplies, pin contention and LEDs. -/

namespace Sys2Proof.Machine

open Sys2Proof.Config

/-- The package runs, from STARTING to STOPPING (R451). -/
def Dev.packageOn (d : Dev) : Bool := decide (1 ≤ d.pwr.state) && decide (d.pwr.state ≤ 5)

/-- A record that only a running package can raise (R427, R476). -/
def Dev.say (d : Dev) (r : Rec) : Dev := if d.packageOn then d.raise r else d
def Dev.sayOnce (d : Dev) (key : Nat) (r : Rec) : Dev := if d.packageOn then d.raiseOnce key r else d

/-! ### Conditions (R448, R449, R453) -/

/-- Number of a condition, its bit of ACTIVE. -/
def condNum : Cond → Nat
  | .voltage => 0 | .power => 1 | .inlet => 2 | .flow => 3 | .die => 4 | .sensor => 5 | .leak => 6 | .regulation => 7

def Dev.cond (d : Dev) (k : Nat) : CondState := AMap.get .zero d.pwr.conds k

def Dev.setCond (d : Dev) (k : Nat) (c : CondState) : Dev :=
  { d with pwr := { d.pwr with conds := AMap.set .zero d.pwr.conds k c } }

/-- Samples of 1 ms that span a time of `ms` (R447). -/
def spanOf (ms : Nat) : Nat := ms + 1

/-- A condition after a sample: past its first threshold, past its second, past its third, or on the safe
side. What it asks for stays until it clears (R449). -/
def CondState.next (c : CondState) (bad worse worst safe : Bool) (cap clock wait : Nat) : CondState :=
  let severe := if worst then c.severe + 1 else 0
  let rung := if worst && decide (wait ≤ severe) then 3 else if worse then 2 else if bad then 1 else 0
  { cap := if bad then min c.cap cap else c.cap
    clock := if worse then max c.clock clock else c.clock
    rung := max c.rung rung
    timer := if bad then c.timer + 1 else 0
    severe := severe
    safe := if safe && c.rung != 0 then c.safe + 1 else 0 }

/-- Input above 60 V: samples so far and their peak in mV, kept beside the conditions (R448, R458). -/
def highKey : Nat := 8

/-- The voltage condition (R448, R449). -/
def Dev.voltageNext (d : Dev) (mv : Nat) : CondState :=
  let c := d.cond 0
  let n := c.next (decide (mv < 40000)) false (decide (mv < 38000)) (decide (41000 ≤ mv) && decide (mv ≤ 59000)) 4 0 (spanOf 1)
  if 60000 < mv ∧ spanOf 100 < (d.cond highKey).timer + 1 then { n with rung := 3 } else n

/-- The power condition (R448, R449): an eighth less for each 10 ms that it lasts, down to 4. -/
def Dev.powerNext (d : Dev) (w : Nat) : CondState :=
  let c := d.cond 1
  let budget := d.live.budgetW
  let over_ := decide (budget < w)
  let timer := if over_ then c.timer + 1 else 0
  let severe := if 7200 < w then c.severe + 1 else 0
  let fast := decide (2 ≤ severe)
  { cap := if over_ then min c.cap (max 4 (7 - (timer - 1) / 10)) else c.cap
    clock := if fast then max c.clock 2 else c.clock
    rung := max c.rung (if fast then 2 else if over_ then 1 else 0)
    timer := timer
    severe := severe
    safe := if w * 100 ≤ budget * 95 && c.rung != 0 then c.safe + 1 else 0 }

/-- Every condition after a sample, by number. -/
def Dev.condsNext (d : Dev) (r : Sensors) : List (Nat × CondState) :=
  let flow := if r.reverse then 0 else r.flow
  let failed := r.failed != 0
  let wet := r.leak != 0
  [(0, d.voltageNext r.vinMv),
   (1, d.powerNext r.pinW),
   (2, (d.cond 2).next (decide (450 < r.inlet)) (decide (480 < r.inlet)) (decide (520 < r.inlet)) (decide (r.inlet ≤ 430)) 6 1 (spanOf 1000)),
   (3, (d.cond 3).next (decide (flow < 1000)) (decide (flow < 800)) (decide (flow < 500)) (decide (1050 ≤ flow)) 6 2 (spanOf 2000)),
   (4, (d.cond 4).next (decide (950 < r.hottest)) (decide (1000 < r.hottest)) (decide (1050 < r.hottest)) (decide (r.hottest ≤ 930)) 6 1 1),
   (5, (d.cond 5).next failed false false false 4 0 1),
   (6, (d.cond 6).next wet false wet (!wet) 8 0 1),
   (7, (d.cond 7).next false false false (!d.packageOn) 8 0 1)]

/-- The level that the active conditions ask for: CAP_EIGHTHS, clock and rung (R448). -/
def Dev.level (d : Dev) : Nat × Nat × Nat :=
  let cs := (List.range 8).map d.cond
  let rung := cs.foldl (fun n c => max n c.rung) 0
  let cap := cs.foldl (fun n c => min n c.cap) 8
  (if rung == 3 then 0 else cap, cs.foldl (fun n c => max n c.clock) 0, rung)

/-- Conditions that hold the main path open (R473), as a mask kept beside the conditions. -/
def holdKey : Nat := 9

/-- ACTIVE (R453, R473). -/
def Dev.activeBits (d : Dev) : BitVec 8 :=
  BitVec.ofNat 8 ((List.range 8).foldl (fun n k => if (d.cond k).rung == 0 then n else n + 2 ^ k) 0)
    ||| BitVec.ofNat 8 (d.cond holdKey).timer

/-- Bits of `PWR_EVT` that are set raise vector 776 (R453). -/
def Dev.pwrEvt (d : Dev) (m : BitVec 9) : Dev :=
  if m == 0 then d
  else
    let l := (List.range 9).filter fun b => m.toNat.testBit b
    (l.foldl (fun (d : Dev) b => d.latch 0x6010 b) { d with pwr := { d.pwr with evt := d.pwr.evt ||| m } }).msix 776

/-- The state that shows the rung in force while the package is up (R451). -/
def Dev.showRung (d : Dev) : Dev :=
  if 2 ≤ d.pwr.state ∧ d.pwr.state ≤ 4 then
    { d with pwr := { d.pwr with state := 2 + min 2 d.pwr.rung } }
  else d

/-! ### Rung 3 (R450) -/

/-- Every running heat is cancelled (R191). -/
def Dev.cancelEverywhere (d : Dev) : Dev :=
  d.runningClusters.foldl (fun d c => d.cancelRunning c) d

/-- The shutdown of rung 3: STOPPING, the starter is told; a leak, a regulation fault or the hardware trip does
not wait for an edge. -/
def Dev.shutdown (d : Dev) (atOnce : Bool) : Dev :=
  if !d.packageOn then d
  else
    let d := d.raise { Rec.of 0x00BA 2 with detail := leBytes 2 d.pwr.active.toNat }
    let d := { d with pwr := { d.pwr with state := 5 } }.notify 0xFF 0xFF .goingDown
    if atOnce then { d with start := { d.start with stopping := true } }.cancelEverywhere else d

/-- The ladder follows its conditions (R448, R449): the capacity at once, the clock at the next effective
edge. -/
def Dev.ladder (d : Dev) (atOnce : Bool) : Dev :=
  let l := d.level
  let p := d.pwr
  let old := (d.prm.capEighths, p.clockNext, p.rung)
  if old == l then d
  else
    let up := decide (p.rung < l.2.2)
    let d := { d with
      prm := { d.prm with capEighths := l.1 }, pwr := { p with clockNext := l.2.1, rung := l.2.2 } }
    let d := d.showRung
    let d := d.say { Rec.of 0x00B0 1 with detail := leBytes 1 l.2.2 ++ leBytes 1 l.1 ++ leBytes 1 l.2.1 }
    let d := if up then d.pwrEvt 0x100 else d
    if up && l.2.2 == 3 then d.shutdown atOnce else d

/-- ACTIVE follows the conditions; a bit that becomes 1 is shown in `PWR_EVT` (R453). -/
def Dev.showActive (d : Dev) : Dev :=
  let v := d.activeBits
  let new := v &&& ~~~d.pwr.active
  { d with pwr := { d.pwr with active := v } }.pwrEvt (new.setWidth 9)

/-- The conditions take new values: the ones entered are shown and recorded, and the ladder follows. -/
def Dev.setConds (d : Dev) (l : List (Nat × CondState)) (reading : Nat → Nat) (atOnce : Bool) : Dev :=
  let entered := (l.filter fun x => (d.cond x.1).rung == 0 && x.2.rung != 0).map Prod.fst
  let d := l.foldl (fun d x => d.setCond x.1 x.2) d
  let d := d.showActive
  let d := (entered.filter fun k => decide (k < 5)).foldl (fun d k =>
    d.say { Rec.of (0x00B1 + k) 1 with detail := leBytes 2 (reading k) }) d
  d.ladder atOnce

/-! ### Samples (R447, R453, R458) -/

/-- The registers of a sample. -/
def Dev.readings (d : Dev) (r : Sensors) : Dev :=
  { d with pwr := { d.pwr with
      vinMv := r.vinMv, pinW := r.pinW, inlet := r.inlet, outlet := r.outlet
      flow := if r.reverse then 0 else r.flow
      leak := r.leak, hottest := r.hottest, die := r.die.val, failed := d.pwr.failed ||| r.failed } }

/-- Input above 60 V (R458): OVP_SEEN at once; when it ends within 100 ms, the record with its peak. -/
def Dev.overvoltage (d : Dev) (mv : Nat) : Dev :=
  let h := d.cond highKey
  if 60000 < mv then
    let d := d.setCond highKey { h with timer := h.timer + 1, severe := max h.severe mv }
    let d := d.latch 0x6014 2
    if d.pwr.ovpSeen then d else { d with pwr := { d.pwr with ovpSeen := true } }.msix 776
  else
    let d' := d.setCond highKey .zero
    if h.timer == 0 || spanOf 100 < h.timer then d'
    else d'.say { Rec.of 0x00BD 1 with detail := leBytes 2 (h.severe / 100) }

/-- Sensors that have failed (R370, R447, R454). -/
def Dev.sensorFaults (d : Dev) (failed : BitVec 32) : Dev :=
  if failed == 0 then d
  else
    let l := (List.range 32).filter fun n => failed.toNat.testBit n
    (l.foldl (fun d n => d.sayOnce (0x00B8 * 256 + n) { Rec.of 0x00B8 3 with detail := leBytes 1 n }) d).replace 8

/-- A leak (R370, R454). -/
def Dev.leakFault (d : Dev) (leak : BitVec 2) : Dev :=
  if leak == 0 then d
  else (d.sayOnce (0x00B6 * 256) { Rec.of 0x00B6 3 with detail := leBytes 1 leak.toNat }).replace 7

/-- The reading of a condition in its register's units (R454). -/
def readingOf (r : Sensors) : Nat → Nat
  | 0 => r.vinMv % 65536
  | 1 => r.pinW % 65536
  | 2 => unsigned 16 r.inlet
  | 3 => (if r.reverse then 0 else r.flow) % 65536
  | _ => unsigned 16 r.hottest

/-- SENSOR_SAMPLE (R447 to R450, R453, R458). -/
def execSensorSample (r : Sensors) (s : State) : Host.Outcome State Fault Refusal :=
  devOnly s fun d =>
    if !d.mgmtUp then d
    else
      let next := d.condsNext r
      let d := (((d.readings r).overvoltage r.vinMv).sensorFaults r.failed).leakFault r.leak
      let d := d.setConds next (readingOf r) (r.leak != 0)
      { d with mar := d.noteG.mar, prm := d.noteG.prm }

/-- HARDWARE_TRIP (R448, R450): 110 °C. -/
def execHardwareTrip (s : State) : Host.Outcome State Fault Refusal :=
  devOnly s fun d =>
    if d.packageOn then
      let c := d.cond 4
      d.setConds [(4, { c with rung := 3, cap := min c.cap 6, clock := max c.clock 1, safe := 0 })]
        (fun _ => unsigned 16 d.pwr.hottest) true
    else d

/-- A rail out of regulation (R370, R448, R450, R454). -/
def Dev.railFault (d : Dev) (rail : Nat) : Dev :=
  let d := (d.sayOnce (0x00B7 * 256 + rail) { Rec.of 0x00B7 3 with detail := leBytes 1 rail }).replace 6
  d.setConds [(7, { d.cond 7 with rung := 3, safe := 0 })] (fun _ => 0) true

/-- REGULATION_FAULT (R448, R450). -/
def execRegulationFault (rail : Fin 13) (s : State) : Host.Outcome State Fault Refusal :=
  devOnly s fun d => if d.packageOn then d.railFault rail.val else d

/-! ### Feed id (R459) and reversed input (R458) -/

/-- FEED_ID_SAMPLE (R459): a code of 16 equal samples; 0x00 means that no comb is fitted. -/
def execFeedIdSample (code : BitVec 8) (s : State) : Host.Outcome State Fault Refusal :=
  devOnly s fun d =>
    if !d.mgmtUp then d
    else
      let p := d.pwr
      let n := if code == p.feedLast then min 16 (p.feedRun + 1) else 1
      let p := { p with feedLast := code, feedRun := n }
      { d with pwr := if n == 16 then { p with feed := code, feedValid := code != 0 } else p }

/-- REVERSE_INPUT (R458): no rail is up then, and the flag is retained. -/
def execReverseInput (s : State) : Host.Outcome State Fault Refusal :=
  devOnly s fun d =>
    if d.mgmtUp then d else { d with pwr := { d.pwr with reversed := true, revFlag := true } }

/-! ### Cage supplies (R462) -/

/-- CAGE_SUPPLY_FAULT (R462, R470). -/
def execCageSupplyFault (port : Fin 16) (s : State) : Host.Outcome State Fault Refusal :=
  devOnly s fun d =>
    if !d.packageOn then d
    else
      let q := port.val
      let d := { d with pwr := { d.pwr with cageFault := d.pwr.cageFault ||| BitVec.ofNat 16 (2 ^ q) } }.latch 0x6014 (16 + q) |>.msix 776
      ((d.setPortState q .down).linkProgress).raise { Rec.of 0x00BC 1 with unit := q }

/-- CAGE_REFIT (R462): the supply is tried again. -/
def execCageRefit (port : Fin 16) (s : State) : Host.Outcome State Fault Refusal :=
  devOnly s fun d => if d.packageOn then d.cageRetry (BitVec.ofNat 16 (2 ^ port.val)) else d

/-- CAGE_FAULT_CLEAR (R462, R469): host software clears bits of CAGE_FAULT. -/
def execCageFaultClear (bits : BitVec 16) (s : State) : Host.Outcome State Fault Refusal :=
  devOnly s fun d => if d.hostEarly then d.cageClear bits else d

/-! ### The management connector (R465, R467) -/

/-- Pins that the module drives (R465). -/
def drivenPin (n : Nat) : Bool := n == 2 || n == 3 || n == 5 || n == 9 || n == 15 || n == 17 || n == 20

/-- A pin in contention (R467): released, except REPL_REQ#. -/
def Dev.contend (d : Dev) (n : Nat) : Dev :=
  if !d.mgmtUp || !drivenPin n then d
  else
    let p := d.pwr
    let rel := if n == 17 then p.released else NSet.add p.released n
    ({ d with pwr := { p with released := rel, contention := true } }.latch 0x6014 3 |>.msix 776).say
      { Rec.of 0x00BE 1 with detail := leBytes 1 n }

/-- MGMT_CONTENTION (R467). -/
def execMgmtContention (pin : Fin 21) (s : State) : Host.Outcome State Fault Refusal :=
  devOnly s fun d => d.contend pin.val

/-- CONTENTION_RECHECK (R467): the pin is driven again; it stays driven if the contention is gone. -/
def execContentionRecheck (pin : Fin 21) (clear : Bool) (s : State) : Host.Outcome State Fault Refusal :=
  devOnly s fun d =>
    if !d.mgmtUp || !(NSet.has d.pwr.released pin.val || pin.val == 17) then d
    else if clear then { d with pwr := { d.pwr with released := NSet.del d.pwr.released pin.val } }
    else d.contend pin.val

/-! ### LEDs (R468) -/

/-- What an LED shows. -/
inductive Led where
  | off | blink1 | blink4 | steady
deriving DecidableEq, Repr

/-- The green state LED. -/
def Dev.greenLed (d : Dev) : Led :=
  if !d.mgmtUp then .off
  else match d.pwr.state with
    | 0 | 6 => .blink1
    | 1 | 5 => .blink4
    | _ => .steady

/-- The amber service LED. -/
def Dev.amberLed (d : Dev) : Led :=
  if d.flt.repl.toNat.testBit 0 then .steady
  else if d.pwr.reversed || (List.range 8).any fun k => (d.cond k).rung == 3 then .blink1
  else .off

/-- The LED of a cage: amber or green, and what it shows. -/
def Dev.cageLed (d : Dev) (q : Nat) : Bool × Led :=
  let p := d.port q
  if d.pwr.cageFault.toNat.testBit q then (true, .steady)
  else match p.state with
    | .up => (false, if 8 ≤ p.width then .steady else .blink1)
    | .held | .suspect | .asym => (true, .steady)
    | _ => (false, .off)

end Sys2Proof.Machine
end

