-- ==== Sys2Proof/Machine/Startup.lean ====
section
/-! DEFINITION. Start-up, resets and shutdown (R472 to R486). -/

namespace Sys2Proof.Machine

open Sys2Proof.Config

/-! ### What a reset keeps (R479) -/

/-- Every byte of HBM and of the ponds back to what unlisted memory reads as (R138, R479; log entry 4). -/
def Wk.wipe (w : Wk) : Wk := w.op (.clear 0 (2 * pondBase))

/-- Fuses, key slots and boot flash survive every reset; measurements, their log and the debug state do not
(R430, R433, R435, R479). -/
def Boot.restart (b : Boot) : Boot :=
  { Boot.reset with
    keys := b.keys, revoked := b.revoked, dbgFuse := b.dbgFuse, flashA := b.flashA, flashB := b.flashB
    nonceUse := b.nonceUse, dbg := if b.dbgFuse then .fused else .locked }

/-- The package loses its state (R479, R482): fuses, flash, the management controller's registers and the
replacement request stay. -/
def Dev.packageReset (d : Dev) : Dev :=
  { Dev.reset with
    now := d.now, moduleId := d.moduleId, serialNo := d.serialNo, dateCode := d.dateCode
    boot := d.boot.restart, pwr := d.pwr, start := d.start
    flt := { Flt.reset with repl := d.flt.repl, replPin := d.flt.replPin }
    out := d.out, free := d.free }

/-- The state that a warm reset leaves (R479): the fence map, the fault registers, the power registers and the
buffered event records stay as well. -/
def Dev.warmed (d : Dev) : Dev :=
  { d.packageReset with
    flt := d.flt
    prm := { d.packageReset.prm with capEighths := d.prm.capEighths }
    evt := { Evt.reset with
      buffer := d.evt.buffer, reserve := d.evt.reserve, seq := d.evt.seq, recent := d.evt.recent, lostBefore := d.evt.lostBefore } }

/-- Rails down: the package is off, in STANDBY or TRIPPED (R474, R482, R450). -/
def Wk.powerOff (w : Wk) (state : Nat) : Wk :=
  w.wipe.up fun d =>
    let d := d.packageReset
    { d with
      pwr := { d.pwr with state := state, rails := [(0, true)], mainPath := false }
      start := { d.start with step := 0, stopping := false } }

/-! ### Cold start (R472 to R475) -/

/-- Step 2 begins: STARTING, the faults and the replacement request cleared, the sensor condition ended
(R371, R448, R472, R479). -/
def Wk.begin_ (w : Wk) : Wk :=
  w.wipe.up fun d =>
    let d := { d.packageReset with flt := .reset }
    let d := { d with
      pwr := { d.pwr with state := 1, failed := 0, mainPath := false }
      start := { d.start with step := 2, edge := false, stopping := false, stoppedAt := 0, lastReset := 0 } }
    let d := (d.setCond 5 .zero).setCond holdKey .zero
    let l := d.level
    { d with
      pwr := { d.pwr with active := d.activeBits, rung := l.2.2, clock := l.2.1, clockNext := l.2.1 }
      prm := { d.prm with capEighths := l.1 } }

/-- No condition asks for rung 3 (R450). -/
def Dev.tripClear (d : Dev) : Bool := d.level.2.2 != 3

/-- A remembered rising edge begins its cold start once the package is off and no rung-3 condition is left
(R472). -/
def Wk.edgeNow (w : Wk) : Wk :=
  let d := w.dev
  w.ite (d.start.edge && (d.pwr.state == 0 || (d.pwr.state == 6 && d.tripClear))) Wk.begin_

/-- A rising edge of PWR_EN (R472). -/
def Wk.pwrEnRise (w : Wk) : Wk :=
  (w.up fun d => { d with start := { d.start with pwrEn := true, edge := decide (d.pwr.state = 0) || decide (4 < d.pwr.state) } }).edgeNow

/-- COLD_START (R472): a rising edge of PWR_EN. -/
def execColdStart (s : State) : Host.Outcome State Fault Refusal :=
  done s fun w => if w.dev.mgmtUp && !w.dev.start.pwrEn then w.pwrEnRise else w

/-- STANDBY_POWER_ON (R458, R466, R472): 48 V applied the right way round; PWR_EN already high counts as a
rising edge. -/
def execStandbyPowerOn (addrSel : BitVec 3) (pwrEn : Bool) (s : State) : Host.Outcome State Fault Refusal :=
  done s fun w =>
    if w.dev.mgmtUp then w
    else
      let w := w.up fun d =>
        { d with
          pwr := { d.pwr with
            smbus := 0x58 + addrSel.toNat, reversed := false, rails := [(0, true)]
            revSeen := d.pwr.revFlag }
          start := { d.start with standby := true, step := 2, pwrEn := false } }
      if pwrEn then w.pwrEnRise else w

/-- INPUT_LOSS (R483): nothing is sequenced, and only what is fused, in flash or retained is left. -/
def execInputLoss (s : State) : Host.Outcome State Fault Refusal :=
  done s fun w =>
    w.wipe.up fun d =>
      let d := d.packageReset
      { d with pwr := { Pwr.reset with revFlag := d.pwr.revFlag }, start := .reset, prm := Dev.reset.prm }

/-- CONDITION_CLEAR (R448, R449): 1 s on the safe side. A failed sensor's condition lasts until the next cold
start. -/
def execConditionClear (c : Cond) (s : State) : Host.Outcome State Fault Refusal :=
  done s fun w =>
    let k := condNum c
    let x := w.dev.cond k
    if x.rung == 0 || k == 5 || decide (x.safe < spanOf 1000) then w
    else (w.up fun d => d.setConds [(k, .zero)] (fun _ => 0) false).edgeNow

/-- What keeps the main path open (R473), as bits of ACTIVE. -/
def holdMask (r : Sensors) : Nat :=
  let flow := if r.reverse then 0 else r.flow
  b2n (decide (r.vinMv < 40000) || decide (60000 < r.vinMv))
    + 4 * b2n (decide (r.inlet < 200) || decide (450 < r.inlet))
    + 8 * b2n (decide (flow < 1000))
    + 32 * b2n (r.failed != 0)
    + 64 * b2n (r.leak != 0)

/-- MAIN_PATH_CHECK (R473): the main path closes, or the module waits in STANDBY and shows why. -/
def execMainPathCheck (r : Sensors) (s : State) : Host.Outcome State Fault Refusal :=
  devOnly s fun d =>
    if d.start.step != 2 || !d.start.pwrEn || d.pwr.mainPath then d
    else
      let m := holdMask r
      let d := d.readings r
      let d := { d with pwr := { d.pwr with state := if m == 0 then 1 else 0, mainPath := m == 0 } }
      (d.setCond holdKey { CondState.zero with timer := m }).showActive

/-! ### The ends of the steps (R472, R477, R478) -/

def Dev.atStep (d : Dev) (n : Nat) : Dev := { d with start := { d.start with step := n } }

/-- A digest of a boot stage is measured (R433, R434); LAP_COUNT reads 0 before the first tick. -/
def Dev.measure (d : Dev) (index kind digest : Nat) : Dev := d.extend index kind digest d.lap.count

/-- Step 4 begins: a reversed input seen before this start-up is recorded (R458). -/
def Dev.enterBoot (d : Dev) : Dev :=
  let d := d.atStep 4
  if d.pwr.revFlag then
    (({ d with pwr := { d.pwr with revFlag := false } }).msix 776).raise (Rec.of 0x00BB 1)
  else d

/-- The rails are up: step 3, which ends at once where PERST# is released (R472, R474). -/
def Dev.railsUp (d : Dev) : Dev :=
  let d := { d with pwr := { d.pwr with rails := (List.range 13).map fun n => (n, true) } }
  if d.start.perst then d.atStep 3 else d.enterBoot

/-- A boot image runs (R433, R477). -/
def Dev.booted (d : Dev) (slotB aFailed bFailed : Bool) : Dev :=
  let d := { d with boot := { d.boot with
    slotB := slotB, fallback := slotB && aFailed
    flashA := d.boot.flashA && !aFailed, flashB := d.boot.flashB && !bFailed } }
  let d := d.measure 0 1 (bootDigest 0).toNat
  let d := d.measure 1 1 (bootDigest (if slotB then 8 else 1)).toNat
  let d := if d.pcie.width == 8 then d.raise { Rec.of 0x00D0 1 with detail := leBytes 1 8 } else d
  d.atStep 5

/-- The control-core runtime runs (R433). -/
def Dev.runtimeUp (d : Dev) : Dev :=
  let d := (d.measure 2 1 (bootDigest 2).toNat).measure 3 1 (bootDigest 3).toNat
  let d := d.measure 5 3 (fuseDigest d.boot.revoked.toNat)
  (d.measure 6 4 (debugDigest (dbgCode d.boot.dbg))).atStep 6

/-- The module is ready (R472, R486). -/
def Dev.ready (d : Dev) : Dev :=
  (d.atStep 0xF).raise { Rec.of 0x00CA 0 with detail := leBytes 1 d.start.lastReset }

/-- A step ends well (R472); a module of no domain has nothing to join in step 10 (log entry 127). -/
def Wk.stepDone (w : Wk) : Wk :=
  let d := w.dev
  let s := d.start.step
  if s == 2 && d.pwr.mainPath then w.up Dev.railsUp
  else if s == 5 then w.up Dev.runtimeUp
  else if s == 6 then w.up fun d => (d.atStep 7).startFull
  else if s == 7 && !d.swp.full then
    w.up fun d => { d.atStep 8 with pwr := { d.pwr with state := 2 + min 2 d.pwr.rung } }
  else if s == 8 && !d.live.image.isEmpty then w.up fun d => d.atStep 9
  else if s == 9 && d.dom.state != .linking then w.up fun d => d.atStep 10
  else if s == 10 && (d.dom.state == .active || !d.inDomain) then w.up Dev.ready
  else w

/-- Start-up stops: the module waits in STANDBY for a new rising edge (R477, R478). -/
def Wk.stopAt (w : Wk) (n : Nat) : Wk :=
  (w.powerOff 0).up fun d => { d with start := { d.start with stoppedAt := n } }

/-- STARTUP_STEP_END (R472, R477, R478). -/
def execStartupStepEnd (e : StepEnd) (s : State) : Host.Outcome State Fault Refusal :=
  done s fun w =>
    let d := w.dev
    let n := d.start.step
    if d.pwr.state == 0 || decide (4 < d.pwr.state) then w
    else match e with
      | .done => w.stepDone
      | .railFailed r => if n == 2 && d.pwr.mainPath then w.up fun d => d.railFault r.val else w
      | .booted slotB aFailed bFailed =>
        if n == 4 && slotB == aFailed && !(slotB && bFailed) then w.up fun d => d.booted slotB aFailed bFailed else w
      | .stackFailed k =>
        if n == 6 then
          (w.up fun d => d.raise { Rec.of 0x00C9 2 with detail := leBytes 1 6 ++ leBytes 1 k.val }).stopAt 6
        else w

/-- BOOT_FAILURE (R477): neither image verified by the limit of step 4. -/
def execBootFailure (s : State) : Host.Outcome State Fault Refusal :=
  done s fun w =>
    if w.dev.start.step == 4 && decide (1 ≤ w.dev.pwr.state) && decide (w.dev.pwr.state ≤ 4) then
      (w.up fun d => d.replace 9).stopAt 4
    else w

/-- BOOT_SLOT_REWRITE_DONE (R477): the slot that failed has been rewritten from the image that runs. -/
def execBootSlotRewriteDone (slotB ok : Bool) (s : State) : Host.Outcome State Fault Refusal :=
  devOnly s fun d =>
    let b := d.boot
    if decide (5 ≤ d.start.step) && b.fallback && slotB != b.slotB && !(if slotB then b.flashB else b.flashA) then
      let d := d.raise { Rec.of 0x00C8 1 with detail := leBytes 1 (b2n slotB) ++ leBytes 1 (b2n !ok) }
      if ok then { d with boot := { d.boot with flashA := b.flashA || !slotB, flashB := b.flashB || slotB } }
      else d.replace 9
    else d

/-! ### Stops (R482, R483) -/

/-- ORDERLY_STOP (R482): a falling edge of PWR_EN. -/
def execOrderlyStop (s : State) : Host.Outcome State Fault Refusal :=
  devOnly s fun d =>
    let d := { d with start := { d.start with pwrEn := false, edge := false } }
    ((d.setCond holdKey .zero).showActive).stop

/-- PWR_STOP (R482, R484): the write of `PWR_CTRL`. -/
def execPwrStop (v : BitVec 32) (s : State) : Host.Outcome State Fault Refusal :=
  devOnly s fun d => if d.hostEarly && bit v.toNat 0 then d.stop else d

/-- Heats have ended and dispatch has closed; during start-up nothing waits for an edge (R450, R482). -/
def Dev.stopDone (d : Dev) : Bool :=
  d.pwr.state == 5 && !(d.mar.heats.any Heat.running) && (d.start.stopping || decide (d.start.step < 8))

/-- STOP_COMPLETE (R450, R472, R482, R483): the rails are down; rung 3 governs. -/
def execStopComplete (s : State) : Host.Outcome State Fault Refusal :=
  done s fun w =>
    if w.dev.stopDone then (w.powerOff (if w.dev.pwr.rung == 3 then 6 else 0)).edgeNow else w

/-! ### Warm and function resets (R479 to R481, R483) -/

/-- The package runs and step 3 has ended: PERST# means a warm reset (R479, R483). -/
def Dev.warmable (d : Dev) : Bool :=
  decide (4 ≤ d.start.step) && decide (1 ≤ d.pwr.state) && decide (d.pwr.state ≤ 4)

/-- WARM_RESET (R479, R480, R483): steps 4 to 10 follow the release of PERST#; elsewhere the endpoint is only
held in reset. -/
def execWarmReset (s : State) : Host.Outcome State Fault Refusal :=
  done s fun w =>
    if w.dev.warmable then
      w.wipe.up fun d =>
        let d := (d.cancelEverywhere.notify 0xFF 0xFF .goingDown).warmed
        { d with
          pwr := { d.pwr with state := 1 }
          start := { d.start with step := 3, perst := true, lastReset := 1, stopping := false } }
    else w.up fun d => { d with start := { d.start with perst := true } }

/-- PERST_RELEASE (R409, R472, R479): the endpoint leaves reset and trains x8 or x16, 0 for not at all. -/
def execPerstRelease (width : Fin 3) (s : State) : Host.Outcome State Fault Refusal :=
  devOnly s fun d =>
    let d := { d with
      start := { d.start with perst := false }
      pcie := { d.pcie with width := if width.val == 0 then 0 else 8 * width.val } }
    if d.start.step == 3 && d.pwr.state == 1 then d.enterBoot else d

/-- Every stream is cancelled and its ENABLE cleared (R479). -/
def Dev.clearStreams (d : Dev) : Dev :=
  (d.streams.map Prod.fst).foldl (fun d k =>
    (d.hostCancel (k / 3) (k % 3)).setStream (k / 3) (k % 3) fun t => { t with enable := false }) d

/-- FUNCTION_RESET (R479, R481): FLR, Hot Reset and link loss alike. -/
def execFunctionReset (_kind : FuncReset) (s : State) : Host.Outcome State Fault Refusal :=
  devOnly s fun d =>
    if decide (3 ≤ d.start.step) && decide (1 ≤ d.pwr.state) && decide (d.pwr.state ≤ 5) then
      let d := d.clearStreams
      let d := { d with
        pcie := { Pcie.reset with width := d.pcie.width }
        evt := { Evt.reset with
          buffer := d.evt.buffer, reserve := d.evt.reserve, seq := d.evt.seq, recent := d.evt.recent, lostBefore := d.evt.lostBefore }
        start := { d.start with lastReset := 2 } }
      d.raise { Rec.of 0x00CA 0 with detail := leBytes 1 2 }
    else d

end Sys2Proof.Machine
end

