-- ==== Sys2Proof/Machine/Dispatch.lean ====
section
/-! DEFINITION. The dispatcher: one arm per constructor of `Instr`, each one direct call of its
meaning. -/

namespace Sys2Proof.Machine

/-- The effect of a command on everything but the queue. -/
def exec (i : Instr) (s : State) : Host.Outcome State Fault Refusal :=
  match i with
  | .noOperation h => Sys2Proof.Machine.execNoOperation h s
  | .move h => Sys2Proof.Machine.execMove h s
  | .fill h => Sys2Proof.Machine.execFill h s
  | .release h => Sys2Proof.Machine.execRelease h s
  | .copy h => Sys2Proof.Machine.execCopy h s
  | .gather h => Sys2Proof.Machine.execGather h s
  | .scatter h => Sys2Proof.Machine.execScatter h s
  | .denseMatrix h => Sys2Proof.Machine.execDenseMatrix h s
  | .sparseMatrix h => Sys2Proof.Machine.execSparseMatrix h s
  | .vector h => Sys2Proof.Machine.execVector h s
  | .rowReduce h => Sys2Proof.Machine.execRowReduce h s
  | .springMask h => Sys2Proof.Machine.execSpringMask h s
  | .relaySend h => Sys2Proof.Machine.execRelaySend h s
  | .relayReceive h => Sys2Proof.Machine.execRelayReceive h s
  | .apply h => Sys2Proof.Machine.execApply h s
  | .propose h => Sys2Proof.Machine.execPropose h s
  | .clear h => Sys2Proof.Machine.execClear h s
  | .versionPin h => Sys2Proof.Machine.execVersionPin h s
  | .versionRelease h => Sys2Proof.Machine.execVersionRelease h s
  | .signal h => Sys2Proof.Machine.execSignal h s
  | .wait h => Sys2Proof.Machine.execWait h s
  | .hurdle h => Sys2Proof.Machine.execHurdle h s
  | .cancel h => Sys2Proof.Machine.execCancel h s
  | .chained h => Sys2Proof.Machine.execChained h s
  | .ctxOpen h => Sys2Proof.Machine.execCtxOpen h s
  | .ctxPark h => Sys2Proof.Machine.execCtxPark h s
  | .ctxResume h => Sys2Proof.Machine.execCtxResume h s
  | .ctxCancel h => Sys2Proof.Machine.execCtxCancel h s
  | .ctxRetire h => Sys2Proof.Machine.execCtxRetire h s
  | .ctxBatch h => Sys2Proof.Machine.execCtxBatch h s
  | .ctxRelease h => Sys2Proof.Machine.execCtxRelease h s
  | .ctxAdvance h => Sys2Proof.Machine.execCtxAdvance h s
  | .kvAppend h => Sys2Proof.Machine.execKvAppend h s
  | .kvRead h => Sys2Proof.Machine.execKvRead h s
  | .sample h => Sys2Proof.Machine.execSample h s
  | .imgLoad v => Sys2Proof.Machine.execImgLoad v s
  | .imgLoadDone => Sys2Proof.Machine.execImgLoadDone s
  | .imgCommit v => Sys2Proof.Machine.execImgCommit v s
  | .imgCommitCheckDone => Sys2Proof.Machine.execImgCommitCheckDone s
  | .imgDiscard v => Sys2Proof.Machine.execImgDiscard v s
  | .streamEnable cluster stream enable => Sys2Proof.Machine.execStreamEnable cluster stream enable s
  | .hostCancel cluster stream enable => Sys2Proof.Machine.execHostCancel cluster stream enable s
  | .doorbell cluster stream tail => Sys2Proof.Machine.execDoorbell cluster stream tail s
  | .strRingWrite cluster stream completion v => Sys2Proof.Machine.execStrRingWrite cluster stream completion v s
  | .strWsetCfgWrite w v => Sys2Proof.Machine.execStrWsetCfgWrite w v s
  | .strWsetSizeWrite w v => Sys2Proof.Machine.execStrWsetSizeWrite w v s
  | .strWsetVerWrite w v => Sys2Proof.Machine.execStrWsetVerWrite w v s
  | .strRsetWrite entry reg v => Sys2Proof.Machine.execStrRsetWrite entry reg v s
  | .strSigWrite group counter v => Sys2Proof.Machine.execStrSigWrite group counter v s
  | .unbind v => Sys2Proof.Machine.execUnbind v s
  | .contextRecordWrite offset data => Sys2Proof.Machine.execContextRecordWrite offset data s
  | .rlyBankSet v => Sys2Proof.Machine.execRlyBankSet v s
  | .rlyLandWrite t v => Sys2Proof.Machine.execRlyLandWrite t v s
  | .portDisable port disable => Sys2Proof.Machine.execPortDisable port disable s
  | .retrain port => Sys2Proof.Machine.execRetrain port s
  | .clrSuspect port => Sys2Proof.Machine.execClrSuspect port s
  | .rejoin => Sys2Proof.Machine.execRejoin s
  | .sweepFull => Sys2Proof.Machine.execSweepFull s
  | .secResume => Sys2Proof.Machine.execSecResume s
  | .revoke v => Sys2Proof.Machine.execRevoke v s
  | .unlock v => Sys2Proof.Machine.execUnlock v s
  | .lock v => Sys2Proof.Machine.execLock v s
  | .dbgFuse v => Sys2Proof.Machine.execDbgFuse v s
  | .hostAperWrite v => Sys2Proof.Machine.execHostAperWrite v s
  | .evtRingWrite v => Sys2Proof.Machine.execEvtRingWrite v s
  | .evtEnable v => Sys2Proof.Machine.execEvtEnable v s
  | .evtHeadWrite v => Sys2Proof.Machine.execEvtHeadWrite v s
  | .cageFaultClear bits => Sys2Proof.Machine.execCageFaultClear bits s
  | .pwrStop v => Sys2Proof.Machine.execPwrStop v s
  | .registerWrite bar2 offset size v => Sys2Proof.Machine.execRegisterWrite bar2 offset size v s
  | .bar4Read offset length errs => Sys2Proof.Machine.execBar4Read offset length errs s
  | .bar4Write offset data poisoned => Sys2Proof.Machine.execBar4Write offset data poisoned s
  | .readReg offset length => Sys2Proof.Machine.execReadReg offset length s
  | .readEvent n => Sys2Proof.Machine.execReadEvent n s
  | .mctpControl request => Sys2Proof.Machine.execMctpControl request s
  | .pldm request => Sys2Proof.Machine.execPldm request s
  | .spdm request => Sys2Proof.Machine.execSpdm request s
  | .lapTick => Sys2Proof.Machine.execLapTick s
  | .effectiveEdge => Sys2Proof.Machine.execEffectiveEdge s
  | .lapOverrun => Sys2Proof.Machine.execLapOverrun s
  | .lapLockLoss => Sys2Proof.Machine.execLapLockLoss s
  | .tick port lap period grace => Sys2Proof.Machine.execTick port lap period grace s
  | .echoRequest port depart holding => Sys2Proof.Machine.execEchoRequest port depart holding s
  | .echoResponse port depart holding roundTripNs => Sys2Proof.Machine.execEchoResponse port depart holding roundTripNs s
  | .fetch cluster => Sys2Proof.Machine.execFetch cluster s
  | .permitGrant => Sys2Proof.Machine.execPermitGrant s
  | .dispatch cluster errs => Sys2Proof.Machine.execDispatch cluster errs s
  | .heatRetire h => Sys2Proof.Machine.execHeatRetire h s
  | .cancelComplete h => Sys2Proof.Machine.execCancelComplete h s
  | .watchdog cluster hang => Sys2Proof.Machine.execWatchdog cluster hang s
  | .waiterResume h => Sys2Proof.Machine.execWaiterResume h s
  | .drain cluster core upset => Sys2Proof.Machine.execDrain cluster core upset s
  | .sparePondCopyDone cluster => Sys2Proof.Machine.execSparePondCopyDone cluster s
  | .tokenPeriod die => Sys2Proof.Machine.execTokenPeriod die s
  | .requestIssue id => Sys2Proof.Machine.execRequestIssue id s
  | .readReturn id errs => Sys2Proof.Machine.execReadReturn id errs s
  | .writeAck id errs => Sys2Proof.Machine.execWriteAck id errs s
  | .correctedWriteback die => Sys2Proof.Machine.execCorrectedWriteback die s
  | .scrub line errs => Sys2Proof.Machine.execScrub line errs s
  | .ucieLaneFailure link repairable => Sys2Proof.Machine.execUcieLaneFailure link repairable s
  | .linkTraining port result => Sys2Proof.Machine.execLinkTraining port result s
  | .identity port id => Sys2Proof.Machine.execIdentity port id s
  | .laneDrop port lane => Sys2Proof.Machine.execLaneDrop port lane s
  | .linkDown port => Sys2Proof.Machine.execLinkDown port s
  | .dataFrame port frame adderFaults => Sys2Proof.Machine.execDataFrame port frame adderFaults s
  | .landingCounterIncrement n => Sys2Proof.Machine.execLandingCounterIncrement n s
  | .acknowledgement port channel seq refused => Sys2Proof.Machine.execAcknowledgement port channel seq refused s
  | .notice n => Sys2Proof.Machine.execNotice n s
  | .joinRequest c delayNs => Sys2Proof.Machine.execJoinRequest c delayNs s
  | .hurdleContribution c => Sys2Proof.Machine.execHurdleContribution c s
  | .hurdleDecide => Sys2Proof.Machine.execHurdleDecide s
  | .hurdleDecision d => Sys2Proof.Machine.execHurdleDecision d s
  | .joinRequestRepeat => Sys2Proof.Machine.execJoinRequestRepeat s
  | .noEchoLoss pos => Sys2Proof.Machine.execNoEchoLoss pos s
  | .standbyTakeover => Sys2Proof.Machine.execStandbyTakeover s
  | .parityPhaseDone => Sys2Proof.Machine.execParityPhaseDone s
  | .copyPhaseDone received => Sys2Proof.Machine.execCopyPhaseDone received s
  | .rebuildComplete solved => Sys2Proof.Machine.execRebuildComplete solved s
  | .restoreDone copies => Sys2Proof.Machine.execRestoreDone copies s
  | .sweepItem item result => Sys2Proof.Machine.execSweepItem item result s
  | .sweepPost item => Sys2Proof.Machine.execSweepPost item s
  | .sweepUrgent item => Sys2Proof.Machine.execSweepUrgent item s
  | .eventRingWrite => Sys2Proof.Machine.execEventRingWrite s
  | .sensorSample r => Sys2Proof.Machine.execSensorSample r s
  | .hardwareTrip => Sys2Proof.Machine.execHardwareTrip s
  | .conditionClear c => Sys2Proof.Machine.execConditionClear c s
  | .feedIdSample code => Sys2Proof.Machine.execFeedIdSample code s
  | .reverseInput => Sys2Proof.Machine.execReverseInput s
  | .cageSupplyFault port => Sys2Proof.Machine.execCageSupplyFault port s
  | .cageRefit port => Sys2Proof.Machine.execCageRefit port s
  | .mgmtContention pin => Sys2Proof.Machine.execMgmtContention pin s
  | .contentionRecheck pin clear => Sys2Proof.Machine.execContentionRecheck pin clear s
  | .standbyPowerOn addrSel pwrEn => Sys2Proof.Machine.execStandbyPowerOn addrSel pwrEn s
  | .inputLoss => Sys2Proof.Machine.execInputLoss s
  | .coldStart => Sys2Proof.Machine.execColdStart s
  | .mainPathCheck r => Sys2Proof.Machine.execMainPathCheck r s
  | .startupStepEnd e => Sys2Proof.Machine.execStartupStepEnd e s
  | .bootFailure => Sys2Proof.Machine.execBootFailure s
  | .orderlyStop => Sys2Proof.Machine.execOrderlyStop s
  | .stopComplete => Sys2Proof.Machine.execStopComplete s
  | .warmReset => Sys2Proof.Machine.execWarmReset s
  | .perstRelease width => Sys2Proof.Machine.execPerstRelease width s
  | .functionReset kind => Sys2Proof.Machine.execFunctionReset kind s
  | .regulationFault rail => Sys2Proof.Machine.execRegulationFault rail s
  | .bootSlotRewriteDone slotB ok => Sys2Proof.Machine.execBootSlotRewriteDone slotB ok s
  | .busMasterEnable on => Sys2Proof.Machine.execBusMasterEnable on s

end Sys2Proof.Machine
end

