-- ==== Sys2Proof/Machine/Idle.lean ====
section
/-! DEFINITION. What passes while no command waits: one cycle of the 1.2 GHz module time base (R46,
R51; log entry 6). Counters of cycles count, and version buffers left in the cycle before are FREE;
nothing else happens without a command of its own. -/

namespace Sys2Proof.Machine

/-- An OLD buffer whose last pin has gone is FREE once the next cycle comes (R254, R258). -/
def VBuf.expired (x : VBuf) (now : Nat) : Bool := x.gone != 0 && decide (x.gone ≤ now + 1)

def WSet.expire (now : Nat) (s : WSet) : WSet :=
  { s with bufs := s.bufs.map fun x => if x.expired now then { x with state := .free, gone := 0 } else x }

/-- Buffers become FREE, and updates that wait for them are judged. -/
def Dev.expire (d : Dev) : Dev :=
  let l := d.upd.wsets.filter fun x => x.2.bufs.any fun b => b.expired d.now
  if l.isEmpty then d else (l.foldl (fun d x => d.setWset x.1 (WSet.expire d.now)) d).settle

/-- One cycle of the time base. -/
def idleCycle (d : Dev) : Dev :=
  ({ d with
    now := d.now + 1
    lap := { d.lap with cycle := d.lap.cycle + 1, sinceNom := d.lap.sinceNom + 1 } } : Dev).expire

end Sys2Proof.Machine
end

