-- ==== Sys2Proof/Safety.lean ====
section
/-! DEFINITION. What counts as a safe step, and the terms in which statements speak of commands: those that name
an address outside the aperture, those of the block alone, and the heats that may go on. -/

namespace Sys2Proof.Machine

open Sys2Proof.Config

/-- A step is safe where it answers a next state. -/
def stepSafe (s : State) : Prop := ∃ t, step s = .next t

/-- A BAR4 access beyond the 64 GiB aperture (R411), the one thing no address of the module answers. -/
def outside : Instr → Bool
  | .bar4Read offset length _ => decide (bar4Size < offset + length)
  | .bar4Write offset data _ => decide (bar4Size < offset + data.length)
  | _ => false

/-- Commands that act on the block alone: they neither write memory nor move its poison. -/
def blockOnly : Instr → Bool
  | .hurdle _ | .imgLoad _ | .imgCommit _ | .imgCommitCheckDone | .imgDiscard _ => true
  | .streamEnable _ _ _ | .hostCancel _ _ _ | .doorbell _ _ _ | .strRingWrite _ _ _ _ => true
  | .strWsetCfgWrite _ _ | .strWsetSizeWrite _ _ | .strWsetVerWrite _ _ | .strRsetWrite _ _ _ => true
  | .strSigWrite _ _ _ | .unbind _ | .contextRecordWrite _ _ | .rlyBankSet _ | .rlyLandWrite _ _ => true
  | .portDisable _ _ | .retrain _ | .clrSuspect _ | .rejoin | .sweepFull | .hostAperWrite _ => true
  | .evtRingWrite _ | .evtEnable _ | .evtHeadWrite _ | .cageFaultClear _ | .pwrStop _ => true
  | .readReg _ _ | .readEvent _ | .mctpControl _ | .pldm _ | .spdm _ => true
  | .lapTick | .lapLockLoss | .tick _ _ _ _ | .echoRequest _ _ _ | .echoResponse _ _ _ _ => true
  | .permitGrant | .watchdog _ _ | .sparePondCopyDone _ | .tokenPeriod _ | .requestIssue _ => true
  | .correctedWriteback _ | .ucieLaneFailure _ _ | .linkTraining _ _ | .identity _ _ | .laneDrop _ _ => true
  | .linkDown _ | .acknowledgement _ _ _ _ | .notice _ | .joinRequest _ _ | .hurdleContribution _ => true
  | .hurdleDecide | .hurdleDecision _ | .joinRequestRepeat | .noEchoLoss _ | .standbyTakeover => true
  | .parityPhaseDone | .sweepPost _ | .sweepUrgent _ | .eventRingWrite | .sensorSample _ | .hardwareTrip => true
  | .feedIdSample _ | .reverseInput | .cageSupplyFault _ | .cageRefit _ | .mgmtContention _ => true
  | .contentionRecheck _ _ | .mainPathCheck _ | .orderlyStop | .perstRelease _ | .functionReset _ => true
  | .regulationFault _ | .bootSlotRewriteDone _ _ | .busMasterEnable _ => true
  | _ => false

/-- The values that are fused (R414, R430): the identity registers and the public keys. -/
def Dev.fused (d : Dev) : W64 × BitVec 40 × BitVec 16 × AMap (Nat × Nat) :=
  (d.moduleId, d.serialNo, d.dateCode, d.boot.keys)

/-- What only the host and the resets set: the fused values; the fuses; the token address; the aperture and the MSI-X
table; the event ring; the staging area of the image; the areas of the securing; and the group of CTX_CTRL. -/
def Dev.settings (d : Dev) :=
  (d.fused, (d.boot.revoked, d.boot.dbgFuse, d.boot.tokenAddr),
    (d.pcie.aper, d.pcie.msixAddr, d.pcie.msixData, d.pcie.unmasked),
    (d.evt.ring, d.evt.enable, d.evt.head), (d.img.stageAddr, d.img.stageLen),
    (d.sec.snap, d.sec.len, d.sec.par0, d.sec.par1, d.sec.listBase, d.sec.listCount), d.ctxGroup)

/-- The commands that may change a setting: the host's writes of one, the fuses, and what resets the package. -/
def setsSettings : Instr → Bool
  | .registerWrite _ _ _ _ | .hostAperWrite _ | .evtRingWrite _ | .evtEnable _ | .evtHeadWrite _ | .unbind _ => true
  | .revoke _ | .unlock _ | .lock _ | .dbgFuse _ | .coldStart | .standbyPowerOn _ _ | .inputLoss | .conditionClear _ => true
  | .startupStepEnd _ | .bootFailure | .stopComplete | .warmReset | .functionReset _ => true
  | _ => false

/-- The state with its block changed; memory and the queue stay. -/
def State.withDev (s : State) (f : Dev → Dev) : State := { s with dev := f s.dev }

/-- The working record with which a step begins. -/
def State.work (s : State) : Wk := ⟨s.mem, [], s.dev⟩

/-- The state that a working record leaves; the queue stays. -/
def State.after (s : State) (w : Wk) : State := run s fun _ => w

/-- The heat `h` is `x`, and it runs: its work is not finished, and it is not skipped. -/
def Dev.goes (d : Dev) (h : HeatId) (x : Heat) : Prop := d.heat h = some x ∧ x.mayRun = true

/-- The command `h` of the control family is `x`, and it may be dispatched now (R229). -/
def Dev.opens (d : Dev) (h : HeatId) (x : Heat) : Prop := d.heat h = some x ∧ d.directOpen x = true

/-- Where the completion record of a heat goes (R226): nowhere without CPL or without a ring. -/
def Dev.recordPlace (d : Dev) (x : Heat) : Option Nat :=
  let t := d.stream x.id.cluster.val x.id.stream.num
  if x.cpl && t.cplSize != 0 then some (bits t.cplReg.toNat 47 12 * 4096 + t.cplTail.toNat % t.cplSize * 16)
  else none

/-- An address outside a range of `n` bytes from `a`. -/
def beyond (a n x : Nat) : Prop := x < a ∨ a + n ≤ x

/-- No poisoned value is bound for HBM (R148). -/
def noHbmPoison (ps : List Piece) : Prop := ∀ q ∈ ps, q.1 < pondBase → q.2.2 = false

/-! ### The part that is left of a stage's work -/

/-- The part `p` is the one part known to be left of stage `st` of the heat `x`, and nothing holds it up: `w` is the record once
the plan `pl` has asked for its reads and `y` the heat there; the part's engines serve it, its lines are staged, its
accessors own turns, the slots that it reads are FULL and those that it writes can be claimed (R134, R139, R140,
R235), no pond word that it reads is poisoned (R148), and every other stage of the command has ended. -/
structure SolePart (s : State) (h : HeatId) (x y : Heat) (w : Wk) (st : Nat) (pl : Plan) (p : Part) : Prop where
  goes    : s.dev.goes h x
  notOver : (x.at st).ended = false
  alone   : ∀ k, k < x.body.stages.length → k ≠ st → (x.at k).ended = true
  unkept  : x.leave = []
  asked   : w = s.work.up fun d => d.ask x st pl
  heat    : w.dev.heat h = some y
  left    : pl.undone y st = [p]
  up      : w.dev.partUp y st p = true
  free    : w.dev.blocks y st [] p = []
  clean   : firstPoison (w.view h st 0) (pondPlaces (p.reads.map Rd.pl).flatten) = none

/-- The last part begins: the slots that it reads become EMPTY unless they are kept, and those that it writes are
claimed. -/
def Wk.begins (w : Wk) (h : HeatId) (st : Nat) (p : Part) : Wk :=
  w.up fun d => (d.consume h st (p.frees [])).claimFor h p.slots

/-- The last part ends: its slots but those in `temps` become FULL, and with it the stage. -/
def Wk.ends (w : Wk) (h : HeatId) (st : Nat) (temps : List Nat) (p : Part) : Wk :=
  (w.upHeat h fun x => x.ranPart st p).up fun d =>
    (d.fillFor h (p.slots.filter fun g => !temps.contains g)).finish h st temps

/-- The work of a heat is done, and the slots that a part has written are FULL and unclaimed. -/
def finished (t : State) (h : HeatId) (temps : List Nat) (p : Part) : Prop :=
  (∃ y, t.dev.heat h = some y ∧ y.done = true) ∧
  ∀ g ∈ p.slots, g ∉ temps → t.dev.isFull g = true ∧ t.dev.isClaimed g = false

/-- The command completes with a last part that has done `q`. -/
def completes (s : State) (h : HeatId) (st : Nat) (temps : List Nat) (p : Part) (q : Wk)
    (o : Host.Outcome State Fault Refusal) : Prop :=
  o = .next (s.after (q.ends h st temps p)) ∧ finished (s.after (q.ends h st temps p)) h temps p

/-- The command completes with a last part that stores these pieces and makes these atomic updates: in ponds at once, in
HBM by requests. No other byte of memory changes. Where poison is bound for HBM, or `bad` says that a contribution is
poisoned, the heat ends instead and nothing is stored (R148). -/
def settles (s : State) (h : HeatId) (w : Wk) (st : Nat) (temps : List Nat) (p : Part) (ps : List Piece)
    (atoms : List AtomOp) (bad : Bool) (o : Host.Outcome State Fault Refusal) : Prop :=
  let b := w.begins h st p
  let q := (b.store h p.who st p.no ps atoms bad).1
  (bad = false → noHbmPoison ps → completes s h st temps p q o ∧
    ∀ a, (∀ z ∈ ps, beyond z.1 z.2.1.length a) → (∀ z ∈ atoms, ∀ r ∈ z.range, beyond r.1 r.2 a) →
      (s.after (q.ends h st temps p)).mem.byte a = s.mem.byte a) ∧
  ((bad = true ∨ ¬ noHbmPoison ps) →
    ∃ z, b.dev.heat h = some z ∧ o = .next (s.after (b.up fun d => d.endHeat z)))

/-- The row that gets a heat with this body on. -/
def rowOf (h : HeatId) : Body → Option Instr
  | .stage (.move _ _ _) => some (.move h)
  | .stage (.gather _ _ _ _) => some (.gather h)
  | .stage (.scatter _ _ _ _ _) => some (.scatter h)
  | .stage (.matrix m) => some (if m.sparse then .sparseMatrix h else .denseMatrix h)
  | .stage (.vector _) => some (.vector h)
  | .stage (.rowReduce _) => some (.rowReduce h)
  | .stage (.spring _) => some (.springMask h)
  | .stage (.relaySend _) => some (.relaySend h)
  | .chained _ => some (.chained h)
  | .fill _ _ _ _ => some (.fill h)
  | .release _ _ => some (.release h)
  | .copy _ _ _ _ => some (.copy h)
  | .update u => match u.uop with
    | 0 => some (.apply h)
    | 1 => some (.propose h)
    | 2 => some (.clear h)
    | _ => none
  | .context x => match x.cop with
    | 0 => some (.ctxOpen h)
    | 1 => some (.ctxPark h)
    | 2 => some (.ctxResume h)
    | 3 => some (.ctxCancel h)
    | 4 => some (.ctxRetire h)
    | 5 => some (.ctxBatch h)
    | 6 => some (.ctxRelease h)
    | 7 => some (.ctxAdvance h)
    | 8 => some (.kvAppend h)
    | 9 => some (.kvRead h)
    | 0xA => some (.sample h)
    | _ => none
  | _ => none

end Sys2Proof.Machine
end

