-- ==== Sys2Proof/Certificates/Slice0/Obligations.lean ====
section
/-! DEFINITION. The statements for the provers: what the commands do to the block and to memory, by the rules of the
spec. -/

section Statements

open Sys2Proof Sys2Proof.Machine Sys2Proof.Config

/-! ### The block, its queue and its memory -/

/-- The command at the front of the queue runs on the state with the queue's rest. -/
def Obligations.StepRunsFront : Prop :=
  ∀ (c : Instr) (rest : List Instr) (s : State),
    step { s with pending := c :: rest } = exec c { s with pending := rest }

/-- With no command waiting one cycle of the time base passes (the model's choice, log entry 6): the three counters of
cycles change, memory stays, and in every weight set the buffers whose last pin has gone by then are FREE (R254, R258);
where there is none, nothing else changes. -/
def Obligations.IdleCountsACycle : Prop :=
  ∀ s : State, s.pending = [] →
    let count := fun (d : Dev) => { d with
      now := d.now + 1, lap := { d.lap with cycle := d.lap.cycle + 1, sinceNom := d.lap.sinceNom + 1 } }
    (∃ t, step s = .next t ∧ t.mem = s.mem ∧ t.pending = [] ∧ t.dev.now = s.dev.now + 1 ∧ t.dev.lap = (count s.dev).lap ∧
      ∀ k, t.dev.wset k = (s.dev.wset k).expire (s.dev.now + 1)) ∧
    ((∀ x ∈ s.dev.upd.wsets, ∀ b ∈ x.2.bufs, b.expired (s.dev.now + 1) = false) →
      step s = .next (s.withDev count))

/-- Memory has its canonical form at reset. -/
def Obligations.ResetMemoryCanonical : Prop := State.reset.mem.wf = true

/-- Every step keeps the canonical form of memory and of its poison, from every state that has it. -/
def Obligations.StepKeepsMemoryCanonical : Prop :=
  ∀ s t : State, s.mem.wf = true → step s = .next t → t.mem.wf = true

/-- No command moves the commands that wait. -/
def Obligations.CommandsKeepTheQueue : Prop :=
  ∀ (c : Instr) (s t : State), exec c s = .next t → t.pending = s.pending

/-- Every command completes in every state but a BAR4 access beyond the 64 GiB of R411, which faults. -/
def Obligations.OnlyTheApertureStops : Prop :=
  ∀ (c : Instr) (s : State),
    (outside c = false → ∃ t, exec c s = .next t) ∧ (outside c = true → exec c s = .fault .barRange)

/-- The commands of the block alone (`blockOnly`) leave every byte of memory and all its poison. -/
def Obligations.BlockCommandsKeepMemory : Prop :=
  ∀ (c : Instr) (s : State), blockOnly c = true → ∃ t, exec c s = .next t ∧ t.mem = s.mem ∧ t.pending = s.pending

/-- The identity registers (R414): whatever the command, the fused values stay; ID_MODULE, ID_PART and ID_SERIAL hold
what the table gives, and a write of one has no effect. -/
def Obligations.FusedValuesNeverChange : Prop :=
  (∀ (c : Instr) (s t : State), exec c s = .next t → t.dev.fused = s.dev.fused) ∧
  (∀ s : State, s.dev.readBytes 0x0 8 = s.dev.moduleId.toNat ∧ s.dev.readBytes 0x8 8 = 0x07200042 ∧
    s.dev.readBytes 0x10 8 = s.dev.serialNo.toNat + 2 ^ 40 * s.dev.dateCode.toNat) ∧
  (∀ (s : State) (o size : Nat) (v : BitVec 64), (size = 4 ∨ size = 8) → o % size = 0 → o + size ≤ 0x18 →
    exec (.registerWrite false o size v) s = .next s)

/-- The frame of every command that is no write of a setting and resets nothing (R5): the settings stay; and whatever the
command, a revocation fuse and the debug fuse that are blown stay so (R432, R435). -/
def Obligations.SettingsStay : Prop :=
  ∀ (c : Instr) (s t : State), exec c s = .next t →
    (setsSettings c = false → t.dev.settings = s.dev.settings) ∧
    s.dev.boot.revoked &&& t.dev.boot.revoked = s.dev.boot.revoked ∧
    (s.dev.boot.dbgFuse = true → t.dev.boot.dbgFuse = true)

/-- What reset leaves (R4, R5, R47 to R49, R72, R138, R204, R364, R453, R485): counters zero, default lap times,
every tag EMPTY, every claim clear, pond words zero, every stream DISABLED, the package off. -/
def Obligations.ResetState : Prop :=
  State.reset.pending = [] ∧
  State.reset.dev.lap.count = 0 ∧ State.reset.dev.live.period = 200 ∧ State.reset.dev.live.grace = 20 ∧
  State.reset.dev.lap.lock = false ∧ State.reset.dev.dom.state = .alone ∧
  (∀ g, State.reset.dev.isFull g = false ∧ State.reset.dev.isClaimed g = false) ∧
  (∀ a, pondBase ≤ a → State.reset.mem.byte a = 0) ∧
  (∀ c k, State.reset.dev.streamState c k = 0) ∧
  State.reset.dev.dom.dataReg = List.replicate 40 0 ∧
  State.reset.dev.pwr.state = 0 ∧ State.reset.dev.start.step = 1 ∧ State.reset.dev.start.stoppedAt = 0

/-! ### Streams and the marshal (R197 to R205, R228 to R240) -/

/-- STREAM_ENABLE and HOST_CANCEL (R203, R394, R476): the write of ENABLE takes effect and changes nothing else, and a 1 is
dropped with a stream-config record until step 7 ends and while a restore is not resumed; a CANCEL cancels every command
of the stream, stops fetching at TAIL and clears the halt unless the cluster is halted for good, ENABLE takes the bit
written as a write of it does, and memory stays. -/
def Obligations.StreamControlWrites : Prop :=
  (∀ (s : State) (c : Fin 128) (k : StreamName) (on : Bool), 4 ≤ s.dev.start.step →
    ((on = false ∨ (8 ≤ s.dev.start.step ∧ s.dev.sec.phase < 3)) →
      exec (.streamEnable c k on) s =
        .next (s.withDev fun d => d.setStream c.val k.num fun t => { t with enable := on })) ∧
    (on = true → (s.dev.start.step ≤ 7 ∨ 3 ≤ s.dev.sec.phase) →
      exec (.streamEnable c k on) s = .next (s.withDev fun d => d.streamConfig (strOffset c.val k.num 0x10)))) ∧
  (∀ (s : State) (c : Fin 128) (k : StreamName) (on : Bool), 6 ≤ s.dev.start.step →
    let q := s.dev.stream c.val k.num
    ∃ t, exec (.hostCancel c k on) s = .next t ∧ t.mem = s.mem ∧
      (t.dev.stream c.val k.num).fetch = q.tail ∧ (t.dev.stream c.val k.num).tail = q.tail ∧
      (t.dev.stream c.val k.num).enable =
        (if on = true ∧ (s.dev.start.step ≤ 7 ∨ 3 ≤ s.dev.sec.phase) then q.enable else on) ∧
      (t.dev.stream c.val k.num).halt = (if NSet.has s.dev.flt.halted c.val then q.halt else 0) ∧
      ∀ x ∈ t.dev.streamHeats c.val k.num, x.state = .cancelling)

/-- DOORBELL (R199, R420): it waits while BAR4 writes that came before it are not acknowledged, and is judged at once
where there are none: a tail that moves forward and fits its ring is taken; every other sets DB_REJECT with a record and
leaves TAIL. -/
def Obligations.DoorbellJudged : Prop :=
  ∀ (s : State) (c : Fin 128) (k : StreamName) (tail : BitVec 32), 4 ≤ s.dev.start.step →
    let t := s.dev.stream c.val k.num
    let good := s.dev.live.streamOn c.val k.num = true ∧ t.ring ≠ 0 ∧ serialBefore tail t.tail = false ∧
      (tail - s.dev.retire c.val k.num).toNat ≤ t.size
    (s.dev.hostWrites = [] → good → exec (.doorbell c k tail) s =
      .next (s.withDev fun d => d.setStream c.val k.num fun t => { t with tail := tail })) ∧
    (s.dev.hostWrites = [] → ¬ good → exec (.doorbell c k tail) s =
      .next (s.withDev fun d =>
        ((d.setStream c.val k.num fun t => { t with dbReject := true }).latch (strOffset c.val k.num 0x14) 6).raise
          { Rec.of 0x0045 1 with cluster := c.val, stream := k.num, detail := leBytes 4 tail.toNat })) ∧
    (s.dev.hostWrites ≠ [] → exec (.doorbell c k tail) s = .next (s.withDev fun d => { d with
      pcie := { d.pcie with bells := d.pcie.bells ++ [⟨c.val, k.num, tail, d.hostWrites⟩] } }))

/-- STR_RING_WRITE (R202): a ring of a DISABLED stream that has a size of its range and lies in HBM is set up and its
indices start from 0; every other write is dropped with a stream-config record. -/
def Obligations.StreamRingsSetUp : Prop :=
  ∀ (s : State) (c : Fin 128) (k : StreamName) (v : BitVec 64), 6 ≤ s.dev.start.step →
    let lg := bits v.toNat 4 0
    let base := bits v.toNat 47 12 * 4096
    let w := BitVec.ofNat 64 (base + lg)
    let idle := s.dev.streamState c.val k.num = 0
    let ring := idle ∧ 6 ≤ lg ∧ lg ≤ 20 ∧ base + 2 ^ lg * 64 ≤ hbmBytes
    let cpl := idle ∧ 4 ≤ lg ∧ lg ≤ 16 ∧ base + 2 ^ lg * 16 ≤ hbmBytes
    (ring → exec (.strRingWrite c k false v) s = .next (s.withDev fun d => d.setStream c.val k.num fun t => { t with
        ring := w, tail := 0, fetch := 0, dead := [], skips := [] })) ∧
    (cpl → exec (.strRingWrite c k true v) s = .next (s.withDev fun d => d.setStream c.val k.num fun t => { t with
        cplReg := w, cplHead := 0, cplTail := 0 })) ∧
    (¬ ring → exec (.strRingWrite c k false v) s =
      .next (s.withDev fun d => d.streamConfig (strOffset c.val k.num 0))) ∧
    (¬ cpl → exec (.strRingWrite c k true v) s =
      .next (s.withDev fun d => d.streamConfig (strOffset c.val k.num 8)))

/-- FETCH (R208, R228): from the first stream of the rotation that may fetch, one command is decoded: FETCH moves on
past it, or the stream halts with cause 0x2 at it; the rotation goes on with the next stream, and memory stays. -/
def Obligations.FetchTakesOneCommand : Prop :=
  ∀ (s : State) (c : Fin 128) (k : Nat),
    let r := AMap.get 0 s.dev.mar.rotation c.val
    let q := s.dev.stream c.val k
    [r % 3, (r + 1) % 3, (r + 2) % 3].find? (s.dev.mayFetch c.val) = some k →
    ∃ t, exec (.fetch c) s = .next t ∧ t.mem = s.mem ∧ AMap.get 0 t.dev.mar.rotation c.val = (k + 1) % 3 ∧
      (∀ x, decodeCommand s.mem s.dev c k q.fetch (s.mem.bytes (q.slot q.fetch) 64) = .ok x →
        (t.dev.stream c.val k).fetch = q.fetch + 1) ∧
      (∀ f, decodeCommand s.mem s.dev c k q.fetch (s.mem.bytes (q.slot q.fetch) 64) = .error f →
        (t.dev.stream c.val k).fetch = q.fetch ∧ (t.dev.stream c.val k).halt = 2 ∧
          (t.dev.stream c.val k).haltIdx = q.fetch)

/-- DISPATCH (R233): after the ECC events of the cluster's pond reads, in any cycle but that of the edge, the first READY
heat in dispatch order that fits becomes RUNNING with the next order number, and no other heat moves; a context operation
reads its records at once (R286). -/
def Obligations.DispatchStartsOneHeat : Prop :=
  ∀ (s : State) (c : Fin 128) (errs : List PondError) (x : Heat),
    let w := Wk.each (errs.filter fun e => e.cluster == c) Wk.pondError s.work
    w.dev.clusterOpen c.val = true → s.dev.lap.cycle ≠ 0 →
    ((w.dev.readyHeats c.val).map (w.dev.placed w.mem)).find? w.dev.fits = some x →
    ∃ t, exec (.dispatch c errs) s = .next t ∧ t = s.after (w.up fun d => d.dispatch w.mem x) ∧
      (x.body.isContext = false →
        (∃ y, t.dev.heat x.id = some y ∧ y.state = .running ∧ y.order = s.dev.mar.nextOrder ∧ y.engines = x.engines) ∧
        ∀ k, k ≠ x.id → t.dev.heat k = s.dev.heat k)

/-- HEAT_RETIRE and CANCEL_COMPLETE (R201, R226, R238): a heat whose work is done and whose writes and sends are all
acknowledged leaves the scoreboard, and so does a cancelled heat whose issued writes are; its completion record says how
it ended, and no other byte of memory changes. -/
def Obligations.EndedHeatsLeave : Prop :=
  let leaves := fun (s : State) (h : HeatId) (x : Heat) (status : Nat) (o : Host.Outcome State Fault Refusal) =>
    let q := s.dev.stream x.id.cluster.val x.id.stream.num
    ∃ t, o = .next t ∧ t.dev.heat h = none ∧
      (∀ p, s.dev.recordPlace x = some p →
        t.mem.bytes p 16 = cplBytes s.dev x status (q.cplTail.toNat / q.cplSize % 2 == 0)) ∧
      ∀ a, (∀ p, s.dev.recordPlace x = some p → beyond p 16 a) → t.mem.byte a = s.mem.byte a
  (∀ (s : State) (h : HeatId) (x : Heat), s.dev.heat h = some x → x.state = .running → x.done = true →
    (∀ r ∈ s.dev.hbm.reqs, r.isOf x = false) → s.dev.heatFrames h = 0 →
    leaves s h x (if x.skipped then 2 else if x.faulted then 3 else 0) (exec (.heatRetire h) s)) ∧
  (∀ (s : State) (h : HeatId) (x : Heat), s.dev.heat h = some x → x.state = .cancelling → s.dev.heatWrites h = [] →
    leaves s h x 1 (exec (.cancelComplete h) s))

/-- PERMIT_GRANT (R443, R444), WAITER_RESUME (R141) and DRAIN (R118, R119, R125): the request at the head of the governor's
queue is granted where it fits the live capacity and the ramp; a heat that waits on a slot gets on as its own row gets
it on; the next finished buffer of a core is drained where it passes its test, waits while the core's pond is copied, and
where the test fails nothing is written, the core is fenced and its unit is to be computed again. -/
def Obligations.PermitsWaitersAndDrains : Prop :=
  (∀ (s : State) (x : Heat) (l : List Heat),
    s.dev.requests.mergeSort Heat.asksFirst = x :: l →
    s.dev.gSum + s.dev.live.classGrains x.pclass ≤ s.dev.permitCap →
    s.dev.gSum + s.dev.live.classGrains x.pclass ≤ s.dev.gPeak + s.dev.rampGrains →
    ∃ t y, exec .permitGrant s = .next t ∧ t.mem = s.mem ∧ t.dev.heat x.id = some y ∧ y.granted = true ∧
      y.request = none ∧ y.state = .ready) ∧
  (∀ (s : State) (h : HeatId) (x : Heat) (c : Instr), s.dev.goes h x → rowOf h x.body = some c →
    (x.waits ≠ [] → exec (.waiterResume h) s = exec c s) ∧ (x.waits = [] → exec (.waiterResume h) s = .next s)) ∧
  (∀ (s : State) (c : Fin 128) (core : Fin 16) (upset : List (Nat × BitVec 32)) (key : Nat) (b : AccBuf)
      (x : Heat) (m : MatBody),
    s.dev.toDrain c.val core.val = some (key, b, x) → x.matrixAt b.stageNo = some m →
    AMap.get [] s.dev.mar.acc key = [b] →
    let y : MatCtx := ⟨x, b.stageNo, m⟩
    let hit := b.hit (y.plan b.unit).width upset
    let part := y.drainPart hit
    (x.state = .running → AMap.get 0 s.dev.flt.copying c.val = core.val + 1 → exec (.drain c core upset) s = .next s) ∧
    (x.state ≠ .running → exec (.drain c core upset) s = .next (s.withDev fun d => d.dropBuf key)) ∧
    (∀ o, x.state = .running → AMap.get 0 s.dev.flt.copying c.val ≠ core.val + 1 → hit.passesTest = true →
      y.drainBlocks s.work hit = [] → s.dev.partTurns part = true → (m.mapped = [] ∨ y.writing s.dev = false) →
      firstPoison s.mem.view (pondPlaces (part.reads.map Rd.pl).flatten) = none →
      y.discarded b.unit = false → y.mid b.unit = false → (y.drainTo b.unit).route = none →
      (y.drainTo b.unit).out = some o → o.tileMap = 0 →
      let q := y.output (s.work.view x.id b.stageNo part.no) hit o
      noHbmPoison q.1 →
      ∃ t, exec (.drain c core upset) s = .next t ∧ AMap.get [] t.dev.mar.acc key = [] ∧
        t.mem = (s.work.store x.id y.who b.stageNo part.no q.1 q.2.1 false).1.mem) ∧
    (x.state = .running → AMap.get 0 s.dev.flt.copying c.val ≠ core.val + 1 → hit.passesTest = false →
      ∃ t, exec (.drain c core upset) s = .next t ∧ t.mem = s.mem ∧
        (∀ i, i < 3 → AMap.get [] t.dev.mar.acc (accKey c.val core.val i) = []) ∧
        s.dev.physical c.val core.val ∈ t.dev.fencedCores c.val ∧
        ∀ z, t.dev.heat x.id = some z → b.unit + 1 ∉ (z.at b.stageNo).ran))

/-! ### Commands through their heats (R209 to R225, R286 to R290) -/

/-- NO_OPERATION, WAIT and SIGNAL (R209, R220): each retires in the cycle of its dispatch; a signal adds to its
counter first. No byte of memory changes but the completion record. -/
def Obligations.ControlCommandsRetire : Prop :=
  ∀ (s : State) (h : HeatId) (x : Heat), s.dev.opens h x →
    let leaves := fun (t : State) => t.dev.heat h = none ∧
      ∀ a, (∀ p, s.dev.recordPlace x = some p → beyond p 16 a) → t.mem.byte a = s.mem.byte a
    (x.body = .nop → ∃ t, exec (.noOperation h) s = .next t ∧ leaves t) ∧
    (∀ ctr v, x.body = .wait ctr v →
      notAfter v (AMap.get 0 s.dev.mar.signals (s.dev.signalKey h.cluster.val ctr)) = true →
      ∃ t, exec (.wait h) s = .next t ∧ leaves t) ∧
    (∀ ctr mark add, x.body = .signal ctr mark add →
      ∃ t, exec (.signal h) s = .next t ∧ leaves t ∧
        AMap.get 0 t.dev.mar.signals (s.dev.signalKey h.cluster.val ctr) =
          AMap.get 0 s.dev.mar.signals (s.dev.signalKey h.cluster.val ctr) + add)

/-- HURDLE (R222) arms; CANCEL (R223) cancels what it names within its cluster and retires; RELAY_RECEIVE (R310) retires
once its landing counter is not before EXPECT; a VERSION_PIN (R255) finds the CURRENT or OLD buffer of its version,
raises its count by 1 and no other, and retires; one whose version is neither held nor still to come is stale: its record
is written and it stays WAITING. -/
def Obligations.OtherControlCommands : Prop :=
  (∀ (s : State) (h : HeatId) (x : Heat) data kind hseq npart, s.dev.heat h = some x →
    x.body = .hurdle data kind hseq npart → s.dev.mayArm x = true →
    exec (.hurdle h) s =
      .next (s.withDev fun d => d.setHeat h fun x => { x with state := .armed, reserved := x.cpl })) ∧
  (∀ (s : State) (h : HeatId) (x : Heat) byId streams target, s.dev.opens h x → x.body = .cancel byId streams target →
    exec (.cancel h) s = .next (s.after ((s.work.up fun d =>
      d.cancelAll h.cluster.val (d.cancelTargets h byId streams target) true).retireAtOnce h))) ∧
  (∀ (s : State) (h : HeatId) (x : Heat) (r : Route), s.dev.opens h x → x.body = .relayReceive r →
    notAfter r.expect (AMap.get 0 s.dev.rly.land r.tag) = true →
    exec (.relayReceive h) s = .next (s.after (s.work.retire x).retryBlocked)) ∧
  (∀ (s : State) (h : HeatId) (x : Heat) (k : Nat) (v : W32), s.dev.opens h x → x.body = .pin k v → x.stale = false →
    (∀ b, (s.dev.wset k).holding v = some b → ((s.dev.wset k).buf b).pins < 65535 →
      ∃ t, exec (.versionPin h) s = .next t ∧ t.dev.heat h = none ∧
        ∀ j c, ((t.dev.wset j).buf c).pins =
          if j = k ∧ c = b then ((s.dev.wset j).buf c).pins + 1 else ((s.dev.wset j).buf c).pins) ∧
    ((s.dev.wset k).holding v = none → serialBefore (s.dev.wset k).version v = false →
      exec (.versionPin h) s = .next (s.withDev fun d =>
        (d.raise (versionRec 0x0060 x k v)).setHeat h fun y => { y with stale := true })))

/-- VERSION_RELEASE (R256): it lowers by 1 the pin count of the CURRENT or OLD buffer that holds its version, no other
count, and retires; where no such buffer holds it, or the count is 0 already, it retires, no buffer changes, and the
version-release record (code 0x61) is written. -/
def Obligations.VersionReleaseLowersItsCount : Prop :=
  ∀ (s : State) (h : HeatId) (x : Heat) (k : Nat) (v : W32), s.dev.opens h x → x.body = .unpin k v →
    (∀ b, (s.dev.wset k).holding v = some b → 0 < ((s.dev.wset k).buf b).pins →
      ∃ t, exec (.versionRelease h) s = .next t ∧ t.dev.heat h = none ∧
        ∀ j c, ((t.dev.wset j).buf c).pins =
          if j = k ∧ c = b then ((s.dev.wset j).buf c).pins - 1 else ((s.dev.wset j).buf c).pins) ∧
    ((∀ b, (s.dev.wset k).holding v = some b → ((s.dev.wset k).buf b).pins = 0) →
      ∃ t, exec (.versionRelease h) s = .next t ∧ t.dev.heat h = none ∧
        (∀ j, (t.dev.wset j).bufs = (s.dev.wset j).bufs ∧ (t.dev.wset j).version = (s.dev.wset j).version) ∧
        t = s.after ((s.work.up fun d => (d.setWset k fun w => { w with used := d.now + 1 }).raise
          (versionRec 0x0061 x k v)).retireAtOnce h))

/-- FILL and RELEASE (R145): where every slot of its range can be claimed and DMA-in owns turns on it, a fill that has
not begun leaves every one FULL with the pattern, and no byte outside them changes; where no slot of its range is
claimed, a release leaves every one EMPTY, its work is done, and memory stays. -/
def Obligations.FillAndReleaseTheirSlots : Prop :=
  (∀ (s : State) (h : HeatId) (x : Heat) (f a n : Nat) (v : W64), s.dev.goes h x → x.body = .fill f a n v →
     x.at 0 = .zero → x.leave = [] → x.gathers = 0 → 0 < n → a + n ≤ slotsPerCluster →
     (∀ k, k < n → let g := h.cluster.val * slotsPerCluster + a + k
       s.dev.claimFree h accIn g = true ∧ s.dev.turns accIn [(slotAddr g, slotBytes)] = true ∧ g ∉ x.claims) →
     ∃ t, exec (.fill h) s = .next t ∧ (∃ y, t.dev.heat h = some y ∧ y.done = true) ∧
       (∀ k, k < n → let g := h.cluster.val * slotsPerCluster + a + k
         t.dev.isFull g = true ∧ t.dev.isClaimed g = false ∧
           ∀ i, i < slotBytes → t.mem.byte (slotAddr g + i) = (fillBytes f v).getD i 0) ∧
       (∀ b, (∀ k, k < n → beyond (slotAddr (h.cluster.val * slotsPerCluster + a + k)) slotBytes b) →
         t.mem.byte b = s.mem.byte b)) ∧
  (∀ (s : State) (h : HeatId) (x : Heat) (a n : Nat), s.dev.goes h x → x.body = .release a n → x.at 0 = .zero →
     (∀ k, k < n → s.dev.isClaimed (h.cluster.val * slotsPerCluster + a + k) = false) →
     ∃ t y, exec (.release h) s = .next t ∧ t.mem = s.mem ∧ t.dev.heat h = some y ∧ y.done = true ∧
       ∀ k, k < n → t.dev.isFull (h.cluster.val * slotsPerCluster + a + k) = false)

/-- COPY (R146): where the two ranges are apart, the sources FULL and unpoisoned and the destinations can be claimed, a
copy that has not begun takes every slot's 2 KiB to its destination, which is FULL; the source is EMPTY unless it is
kept, and no other byte changes. -/
def Obligations.CopyCopiesItsSlots : Prop :=
  ∀ (s : State) (h : HeatId) (x : Heat) (a b n : Nat) (keep : Bool), s.dev.goes h x → x.body = .copy a b n keep →
    x.at 0 = .zero → x.leave = [] → x.gathers = 0 →
    let src := fun k => h.cluster.val * slotsPerCluster + a + k
    let dst := fun k => h.cluster.val * slotsPerCluster + b + k
    0 < n → a + n ≤ slotsPerCluster → b + n ≤ slotsPerCluster → (a + n ≤ b ∨ b + n ≤ a) →
    (∀ k, k < n → s.dev.readable (src k) = true ∧ s.dev.turns accOut [(slotAddr (src k), slotBytes)] = true ∧
      s.dev.claimFree h accIn (dst k) = true ∧ s.dev.turns accIn [(slotAddr (dst k), slotBytes)] = true ∧
      dst k ∉ x.claims ∧ firstPoison s.mem.view [(slotAddr (src k), slotBytes)] = none) →
    ∃ t, exec (.copy h) s = .next t ∧ (∃ y, t.dev.heat h = some y ∧ y.done = true) ∧
      (∀ k, k < n → t.dev.isFull (dst k) = true ∧ t.dev.isFull (src k) = keep ∧
        ∀ i, i < slotBytes → t.mem.byte (slotAddr (dst k) + i) = s.mem.byte (slotAddr (src k) + i)) ∧
      (∀ c, (∀ k, k < n → beyond (slotAddr (dst k)) slotBytes c) → t.mem.byte c = s.mem.byte c)

/-- MOVE (R160, R161, R164, R174, R211): with the part that is left of it, it converts and stores the elements of one
group of staged lines, or between equal MX codes and blocks copies them with their scales; under WMODE 0x2 it adds
every element, and poison ends it; the entries of a compressed destination come last. -/
def Obligations.MoveStores : Prop :=
  ∀ (s : State) (h : HeatId) (x y : Heat) (w : Wk) (a d : Desc) (keep : Bool),
    x.body = .stage (.move a d keep) →
    let c : MoveCtx := ⟨x, 0, a, d, keep, (x.at 0).words⟩
    let pl := movePlan 0 a d keep [] s.work x
    let v := w.view h 0
    let mapTiles := fun (t : Desc) => if t.tileMap == 0 then 0 else t.tiles
    mapTiles a + mapTiles d ≤ (x.at 0).words.length → pl.whole = true →
    (∀ k es, d.tileMap = 0 → d.wmode ≠ 2 → SolePart s h x y w 0 pl (c.part s.mem k es) →
      let u := c.see (v (k + 1))
      settles s h w 0 [] (c.part s.mem k es)
        (if mxSame a d then mxCopy a d (fun _ => u) (d.blocksOf es) d.stands id
         else d.piecesOn u x.ovf es d.stands (a.datum d (c.see u)))
        (d.foldOf (es.map (a.datum d (c.see u)))) false (exec (.move h) s)) ∧
    (d.tileMap = 0 → d.wmode = 2 → let gs := c.groups s.mem
      SolePart s h x y w 0 pl (c.addPart s.mem gs) →
      let ws := d.elems.map fun i => (i, a.datum d (c.see (v ((gs.findIdx fun es => es.contains i) + 1))) i)
      settles s h w 0 [] (c.addPart s.mem gs) [] (d.accAtoms ws ++ d.foldOf (ws.map Prod.snd))
        (ws.any fun y => y.2.2) (exec (.move h) s)) ∧
    (∀ no first tiles prev, d.tileMap ≠ 0 →
      let p := tileEntries s.work x (.dma h.cluster.val) 0 accIn d (x.at 0).words no first tiles prev
      SolePart s h x y w 0 pl p →
      settles s h w 0 [] p (tiles.mapIdx fun i n =>
        let e := (x.at 0).words.getD (first + i) (0, false)
        (d.tileMap + 8 * n, leBytes 8 e.1, e.2)) [] false (exec (.move h) s))

/-- VECTOR and SPRING_MASK (R216, R218, R230, R244): with the part that is left of it, each stores what its operation
gives for every element of one slot of OUT; a poisoned key ends a Spring mask. -/
def Obligations.VectorAndSpringStore : Prop :=
  ∀ (s : State) (h : HeatId) (x y : Heat) (w : Wk) (k : Nat) (g : Nat × List (List Nat)),
    let u := w.view h 0 (k + 1)
    (∀ b, x.body = .stage (.vector b) →
      SolePart s h x y w 0 (vectorPlan 0 b s.work x) (b.part x 0 s.mem k g) →
      let z := fun idx => (Datum.val (fval (vecOp b.op b.imm (optF32 b.in0 u idx) (optF32 b.in1 u idx)
        (b.in2.map fun d => (d.f32 u idx).1))), false)
      settles s h w 0 [] (b.part x 0 s.mem k g) (b.out.piecesOn u x.ovf g.2 b.out.stands z)
        (b.out.foldOf (g.2.map z)) false (exec (.vector h) s)) ∧
    (∀ b, x.body = .stage (.spring b) →
      SolePart s h x y w 0 (springPlan 0 b s.work x) (b.part x 0 s.mem k g) →
      let z := springElem b u ((b.keyCodes u).map fun c => BitVec.ofNat 32 c.1)
      ((b.keyCodes u).any Prod.snd = false →
        settles s h w 0 [] (b.part x 0 s.mem k g) (b.out.piecesOn u x.ovf g.2 b.out.stands z)
          (b.out.foldOf (g.2.map z)) false (exec (.springMask h) s)) ∧
      ((b.keyCodes u).any Prod.snd = true → ∃ c, (w.begins h 0 (b.part x 0 s.mem k g)).dev.heat h = some c ∧
        exec (.springMask h) s = .next (s.after ((w.begins h 0 (b.part x 0 s.mem k g)).up fun d => d.endHeat c))))

/-- GATHER (R165 to R169, R213): an index out of range under FAULT ends it with its record before anything is written;
else, with the part that is left of it, the elements of DST that some windows of 64 indices serve take the row that
their index names, +0 where it names none, or under WMODE 0x2 add it; the entries of a compressed DST come last. -/
def Obligations.GatherStores : Prop :=
  ∀ (s : State) (h : HeatId) (x y : Heat) (w : Wk) (tb ix d : Desc) (keep : Bool),
    x.body = .stage (.gather tb ix d keep) →
    let c : RowCtx := ⟨x, 0, tb, ix.size, (x.at 0).words⟩
    let pl := gatherPlan 0 tb ix d keep s.work x
    let v := w.view h 0
    let mapTiles := fun (t : Desc) => if t.tileMap == 0 then 0 else t.tiles
    ((x.at 0).begun = false → let p := indexPart x 0 tb ix keep false tb d
      SolePart s h x y w 0 pl p → ∀ j i, badIndex tb (ix.indices (v 0)) = some (j, i) →
      ∃ t, exec (.gather h) s = .next t ∧ t.mem = s.mem ∧
        ∃ z, (w.begins h 0 p).dev.heat h = some z ∧
          t = s.after ((w.begins h 0 p).up fun d => d.faultHeat z (indexFault z j i))) ∧
    ((x.at 0).begun = true → ix.size + mapTiles tb + mapTiles d ≤ (x.at 0).words.length →
      (∀ no lo n, let p := c.gatherPart s.work d no lo n
        SolePart s h x y w 0 pl p →
        let es := d.elems.filter fun i => decide (64 * lo ≤ i.getD tb.gdim 0 ∧ i.getD tb.gdim 0 < 64 * (lo + n))
        let f := c.gathered d v ((lo + 1) * 2 ^ 32)
        (d.tileMap = 0 → d.wmode ≠ 2 →
          settles s h w 0 [] p (c.gatherPieces d v ((lo + 1) * 2 ^ 32) es) (d.foldOf (es.map f)) false
            (exec (.gather h) s)) ∧
        (d.wmode = 2 → let ws := es.map fun i => (i, f i)
          settles s h w 0 [] p [] (d.accAtoms ws ++ d.foldOf (es.map f)) (ws.any fun y => y.2.2)
            (exec (.gather h) s))) ∧
      (∀ no first tiles prev, let p := c.entriesPart s.work d no first tiles prev
        SolePart s h x y w 0 pl p →
        settles s h w 0 [] p (tiles.mapIdx fun i n =>
          let e := (x.at 0).words.getD (first + i) (0, false)
          (d.tileMap + 8 * n, leBytes 8 e.1, e.2)) [] false (exec (.gather h) s)))

/-- SCATTER (R156, R165 to R170, R213): with the part that is left of it, the elements of one source row go to the table's
row that its index names: written, MX blocks of one code with their scales, or under WMODE 0x2 added, in HBM by atomic
updates and in a pond at once; blocks and tiles that are formed anew hold what the rows give them and else what they
held; the slots of a pond table that no row writes become FULL last. -/
def Obligations.ScatterStores : Prop :=
  ∀ (s : State) (h : HeatId) (x y : Heat) (w : Wk) (tb ix sr : Desc) (k1 k2 : Bool),
    x.body = .stage (.scatter tb ix sr k1 k2) → (x.at 0).begun = true →
    let c : RowCtx := ⟨x, 0, tb, ix.size, (x.at 0).words⟩
    let pl := scatterPlan 0 tb ix sr k1 k2 s.work x
    let v := w.view h 0
    let mapTiles := fun (t : Desc) => if t.tileMap == 0 then 0 else t.tiles
    ix.size + mapTiles sr + mapTiles tb ≤ (x.at 0).words.length →
    (∀ j, c.mixes sr = false → let p := c.scatterPart s.work sr k2 j
      SolePart s h x y w 0 pl p →
      let u := c.see [sr, tb] (v (j + 1))
      let ws := c.writes sr u j
      let fold := tb.foldOf (ws.map Prod.snd)
      let places := pondPlaces ((c.targets sr j).map tb.writePlaces).flatten
      (tb.wmode ≠ 2 → c.scatterCopies sr = true →
        settles s h w 0 [] p (mxCopy sr tb (fun _ => u) (tb.blocksOf (c.targets sr j)) (fun _ => true)
          fun i => i.set tb.gdim j) fold false (exec (.scatter h) s)) ∧
      (tb.wmode ≠ 2 → c.scatterCopies sr = false →
        settles s h w 0 [] p (ws.map fun z => tb.piece u x.ovf z.1 z.2) fold false (exec (.scatter h) s)) ∧
      (tb.wmode = 2 → tb.inPond = false →
        settles s h w 0 [] p [] (tb.accAtoms ws ++ fold) (ws.any fun z => z.2.2) (exec (.scatter h) s)) ∧
      (tb.wmode = 2 → tb.inPond = true → firstPoison s.mem.view places = none →
        completes s h 0 [] p ((Wk.each ws (fun w z => w.addPond h tb z) (w.begins h 0 p)).store
          h c.who 0 p.no [] fold false).1 (exec (.scatter h) s))) ∧
    (c.mixes sr = true → tb.tileMap = 0 → let p := c.mixPart s.work sr k2
      SolePart s h x y w 0 pl p →
      let ws := ((List.range ix.size).map fun j => c.writes sr (c.see [sr, tb] (v (j + 1))) j).flatten
      let u := c.see [sr, tb] (v (ix.size + 2))
      settles s h w 0 [] p
        (tb.mxPieces (tb.blocksOf ((List.range ix.size).map (c.targets sr)).flatten) (fun _ => true) (tb.after u ws))
        (tb.foldOf (ws.map Prod.snd)) false (exec (.scatter h) s)) ∧
    (∀ no first tiles prev, let p := c.entriesPart s.work tb no first tiles prev
      SolePart s h x y w 0 pl p →
      settles s h w 0 [] p (tiles.mapIdx fun i n =>
        let e := (x.at 0).words.getD (first + i) (0, false)
        (tb.tileMap + 8 * n, leBytes 8 e.1, e.2)) [] false (exec (.scatter h) s)) ∧
    (∀ no p, p ∈ c.lastPart sr no → SolePart s h x y w 0 pl p →
      completes s h 0 [] p (w.begins h 0 p) (exec (.scatter h) s))

/-- DENSE_MATRIX, SPARSE_MATRIX (R112, R114, R214, R230, R274) and CHAINED (R224, R225): the unit of a matrix command
whose turn it is is computed into an empty accumulator buffer of its core, and stays to be drained; with the part that
is left of one stage a chained command completes once every other stage has ended. -/
def Obligations.MatrixAndChainedRun : Prop :=
  (∀ (s : State) (h : HeatId) (x y : Heat) (w : Wk) (m : MatBody) (u key : Nat), s.dev.goes h x →
    x.body = .stage (.matrix m) → (x.at 0).ended = false →
    let c : MatCtx := ⟨x, 0, m⟩
    let pl := matrixPlan 0 m s.work x
    let p := c.unitPart s.work u
    w = s.work.up (fun d => d.ask x 0 pl) → w.dev.heat h = some y → w.dev.pick y 0 pl = some p →
    firstPoison (w.view h 0 0) (pondPlaces (p.reads.map Rd.pl).flatten) = none → c.bufFor s.dev u = some key →
    let v := w.view h 0 (u + 1)
    ∃ t z, (if m.sparse then exec (.sparseMatrix h) s else exec (.denseMatrix h) s) = .next t ∧
      AMap.get [] t.dev.mar.acc key =
        [if (c.plan u).engine == 1 then c.sparseUnit v (c.plan u) u else c.arrayUnit v (c.plan u) u] ∧
      t.dev.heat h = some z ∧ u + 1 ∈ (z.at 0).ran ∧ (m.mapped = [] → t.mem = s.mem)) ∧
  (∀ (s : State) (h : HeatId) (x y : Heat) (w q : Wk) (l : List Stage) (st : Nat) (g : Stage) (p : Part),
    x.body = .chained l → l[st]? = some g →
    let mk := g.plan st (l.drop (st + 1))
    let pl := mk s.work x
    pl.whole = true → SolePart s h x y w st pl p → p.run (w.view h st) (w.begins h st p) = (q, true) →
    let e := (q.upHeat h fun z => z.ranPart st p).up fun d =>
      d.fillFor h (p.slots.filter fun g => !pl.temps.contains g)
    ∀ z, e.dev.heat h = some z → z.mayRun = true → z.body = x.body → z.leave = [] → z.prog = (y.ranPart st p).prog →
      (mk e z).whole = true → (mk e z).undone z st = [] → (∀ r ∈ (mk e z).parts, r.no ∈ (z.at st).asked) →
      completes s h st pl.temps p q (exec (.chained h) s))

/-- ROW_REDUCE (R128 to R130, R217): with the part that is left of it, pass 2 of some rows stores their results and
statistics, from the statistics of pass 1, and adds their terms of dγ and dβ to the column sums in ascending row order. -/
def Obligations.RowReduceStores : Prop :=
  ∀ (s : State) (h : HeatId) (x y : Heat) (w : Wk) (b : RowBody) (k : Nat) (rs : List Nat),
    x.body = .stage (.rowReduce b) →
    let c : RowCmd := ⟨x, 0, b, (x.at 0).words, (x.at 0).ran⟩
    let p := c.pass2 s.work k rs
    SolePart s h x y w 0 (rowReducePlan 0 b s.work x) p →
    let u := w.view h 0 0
    let out := rs.map fun r => rowApply b.op (rowF32 (some b.x) u c.len r) (rowF32 b.dy u c.len r)
      (colF32 b.gamma u) (colF32 b.beta u) (c.given u r) (c.stats r)
    let put := fun (o : Option Desc) (n : Desc → Nat) (vals : List W32) => o.toList.map fun t => fun (w : Wk) =>
      let l := (rs.map (t.rowElems (n t))).flatten
      let f := fun idx => (Datum.val (fval (vals.getD (l.idxOf idx) fzero)), false)
      w.store h c.who 0 p.no (t.piecesOn u x.ovf l t.stands f) (t.foldOf (l.map f)) false
    let sums := fun (o : Option Desc) (f : RowOut → List W32) => (o.toList.map fun t =>
      out.mapIdx fun i r => fun (w : Wk) => w.addColumns c (0 < k || 0 < i) t (f r)).flatten
    let q := (w.begins h 0 p).chain
      (put b.out (fun t => t.size / max 1 b.x.rows) (out.map RowOut.y).flatten
        ++ put b.statsOut (fun _ => 2) (out.map fun r => [r.stats.1, r.stats.2]).flatten
        ++ sums b.dgamma RowOut.dgamma ++ sums b.dbeta RowOut.dbeta)
    q.2 = true → completes s h 0 [] p q.1 (exec (.rowReduce h) s)

/-- RELAY_SEND (R219, R305): with the part that is left of it, it sends one segment of values on the gradient traffic and
all its raw units on every other; poison in what it sends ends it instead. -/
def Obligations.RelaySendSends : Prop :=
  ∀ (s : State) (h : HeatId) (x y : Heat) (w : Wk) (b : SendBody), x.body = .stage (.relaySend b) →
    let pl := sendPlan b s.work x
    let poisoned := fun (p : Part) => exec (.relaySend h) s = .next (s.after ((w.begins h 0 p).up fun d => d.endHeat x))
    (∀ k, b.route.traffic = 0 → let p := segmentPart b s.work x k
      SolePart s h x y w 0 pl p →
      let vals := ((List.range (min 16384 (b.src.size - 16384 * k))).map fun i =>
        unravel b.src.ext (16384 * k + i)).map fun i => b.src.f32 (w.view h 0 (k + 1)) i
      (vals.any Prod.snd = false → completes s h 0 [] p
        ((w.begins h 0 p).sendSegment h b.route (b.rseg.toNat + k) (vals.map Prod.fst)) (exec (.relaySend h) s)) ∧
      (vals.any Prod.snd = true → poisoned p)) ∧
    (b.route.traffic ≠ 0 → let p := rawPart b s.work x
      SolePart s h x y w 0 pl p →
      let raw := b.src.rawBytes (w.view h 0 1) b.route.traffic
      (raw.2 = false → completes s h 0 [] p ((w.begins h 0 p).sendRaw h b.route raw.1) (exec (.relaySend h) s)) ∧
      (raw.2 = true → poisoned p))

/-- APPLY, PROPOSE and CLEAR (R334 to R337): with the part that is left of it, an APPLY stores the new master and moments
and the weights of some segments, a PROPOSE one history and its proposal, and a CLEAR marks one record FRESH; the
entries of a compressed OUT come last. -/
def Obligations.UpdatesStore : Prop :=
  ∀ (s : State) (h : HeatId) (x y : Heat) (w : Wk) (u : UpdBody), x.body = .update u →
    let who := Requester.dma h.cluster.val
    let o := u.out.getD .zero
    let v := w.view h 0
    let entries := fun (pl : Plan) (acc : Nat) (out : Host.Outcome State Fault Refusal) => ∀ no first tiles prev,
      let p := tileEntries s.work x who 0 acc o (x.at 0).words no first tiles prev
      pl.whole = true → o.tileMap ≠ 0 → SolePart s h x y w 0 pl p →
      settles s h w 0 pl.temps p (tiles.mapIdx fun i n =>
        let e := (x.at 0).words.getD (first + i) (0, false)
        (o.tileMap + 8 * n, leBytes 8 e.1, e.2)) [] false out
    (u.uop = 0 → (x.at 0).begun = true →
      let c : ApplyCtx := ⟨x, u, o, (x.at 0).words⟩
      let pl := applyPlan u o s.work x
      (∀ k is, o.tileMap = 0 → let p := c.part k is
        SolePart s h x y w 0 pl p →
        let els := is.map fun i => (i, (List.range 16384).map (u.element (c.see (v (i + 1))) i))
        let out := (els.map Prod.snd).flatten.map fun z => (Datum.val (fval z.1.1), z.2)
        let es := (is.map fun i => o.elemsFrom (16384 * i) 16384).flatten
        let f := fun idx => out.getD (ravel o.ext idx - 16384 * is.headD 0) (.code 0, false)
        let ps := (els.map fun z => c.planes z.1 z.2).flatten
        let b := (w.begins h 0 p).scratch (c.slots is)
        let q := if o.wmode == 2 then b.store h who 0 p.no ps (o.accAtoms (es.zip out) ++ o.foldOf out) (out.any Prod.snd)
          else b.store h who 0 p.no (ps ++ o.piecesOn (c.see (v (is.headD 0 + 1))) x.ovf es o.stands f) (o.foldOf out) false
        q.2 = true → completes s h 0 u.staging p q.1 (exec (.apply h) s)) ∧
      entries pl accVector (exec (.apply h) s)) ∧
    (u.uop = 1 → let pl := proposePlan u o s.work x
      (∀ i, o.tileMap = 0 → let p := proposePart x u o i
        SolePart s h x y w 0 pl p →
        let z := u.proposed (v (i + 1)) i
        let e := (Datum.code (unsigned 8 z.2.1), z.2.2)
        settles s h w 0 [] p (z.1 :: o.piecesOn (v (i + 1)) x.ovf [unravel o.ext i] o.stands fun _ => e) (o.foldOf [e]) false
          (exec (.propose h) s)) ∧
      entries pl accIn (exec (.propose h) s)) ∧
    (∀ i, u.uop = 2 → let p := clearPart x u i
      SolePart s h x y w 0 (clearPlan u s.work x) p →
      settles s h w 0 [] p [(u.record i + 0x10000, freshFlags, false)] [] false (exec (.clear h) s))

/-- OPEN, PARK, RESUME, CANCEL and RETIRE of a context (R284, R286, R287): on a context of the command's group whose
record passes its check and whose state the operation accepts, a PARK, RESUME or CANCEL that comes after every earlier
context operation gives the record its new state with a new check word, and its work is done; an OPEN, once its image is
read, makes the context READY with the image, or is refused where the image breaks R283; a RETIRE writes the record to T0
and, once that is acknowledged, frees the context. Memory stays. -/
def Obligations.SingleContextOperations : Prop :=
  ∀ (s : State) (h : HeatId) (x : Heat) (b : CtxBody), s.dev.goes h x → x.body = .context b →
    let r := s.dev.ctxAt b.ctx
    let becomes := fun (o : Host.Outcome State Fault Refusal) (new : List Byte) =>
      ∃ t y, o = .next t ∧ t.dev.ctxAt b.ctx = withCheck new ∧ t.mem = s.mem ∧
        t.dev.heat h = some y ∧ y.done = true
    (checkOk r = true → (x.at 0).begun = false → s.dev.ctxFirst x = true → ctxGroupOf r = s.dev.groupOf x →
      (b.cop = 1 → ctxState r = 1 → becomes (exec (.ctxPark h) s) (withState r 3)) ∧
      (b.cop = 2 → ctxState r = 3 → ctxPos r ≠ ctxMax r → becomes (exec (.ctxResume h) s) (withState r 1)) ∧
      (b.cop = 3 → (ctxState r = 1 ∨ ctxState r = 2 ∨ ctxState r = 3) →
        becomes (exec (.ctxCancel h) s) (withState r 0))) ∧
    (∀ (y : Heat) (w : Wk), (x.at 0).begun = true →
      let c : CtxRun := ⟨x, b, b.t0.getD .zero, (x.at 0).rows⟩
      let pl := contextPlan b s.work x
      let img := (List.range 128).map fun i => w.view h 0 1 (c.t.span.1 + i)
      (b.cop = 0 → SolePart s h x y w 0 pl c.openPart → img.any Prod.snd = false →
        (imageOk (img.map Prod.fst) = true →
          becomes (exec (.ctxOpen h) s) (setField (withState (img.map Prod.fst) 1) 2 1 (s.dev.groupOf x))) ∧
        (imageOk (img.map Prod.fst) = false →
          exec (.ctxOpen h) s = .next (s.after ((w.begins h 0 c.openPart).up fun d => d.ctxRefuse x b.ctx 0)))) ∧
      (∀ p1 p2, b.cop = 4 → c.retireParts s.work = [p1, p2] →
        (c.t.span.1 < pondBase → c.acting ≠ [] → w = s.work.up (fun d => d.ask x 0 pl) → w.dev.heat h = some y → (x.at 0).ended = false →
          pl.undone y 0 = [p1, p2] → w.dev.partUp y 0 p1 = true →
          ∃ t, exec (.ctxRetire h) s = .next t ∧ t.mem = s.mem ∧ t.dev.ctx = s.dev.ctx ∧
            ∀ z ∈ c.acting, ∃ q ∈ t.dev.hbm.reqs, q.isOf x = true ∧ q.stage = 0 ∧ q.grp = 1 ∧
              ∃ e data, q.kind = .write e data ∧ c.t.span.1 ≤ e ∧ e < c.t.span.1 + 128) ∧
        (SolePart s h x y w 0 pl p2 → becomes (exec (.ctxRetire h) s) (withState r 0))))

/-- BATCH (R288): its contexts were selected as it was dispatched; with the part that is left of it, it stores the list
of their ids and their rows, under WMODE 0x2 adding them; the entries of a compressed T0 come last. -/
def Obligations.BatchStores : Prop :=
  ∀ (s : State) (h : HeatId) (x y : Heat) (w : Wk) (b : CtxBody), x.body = .context b → b.cop = 5 →
    (x.at 0).begun = true →
    let c : CtxRun := ⟨x, b, b.t0.getD .zero, (x.at 0).rows⟩
    let l := b.list.getD .zero
    let t := c.t
    let pl := contextPlan b s.work x
    let v := w.view h 0
    let ids := l.piecesOn (v 0) x.ovf l.elems l.stands c.batchId
    let es := t.elems.map fun i => (i, c.batchElem v i)
    pl.whole = true →
    ∀ p tail, c.batchParts s.work = p :: tail →
      (SolePart s h x y w 0 pl p → t.tileMap = 0 →
        (t.wmode ≠ 2 → settles s h w 0 [] p (ids ++ t.piecesOn (v 0) x.ovf t.elems t.stands (c.batchElem v))
          (t.foldOf (es.map Prod.snd)) false (exec (.ctxBatch h) s)) ∧
        (t.wmode = 2 → settles s h w 0 [] p ids (t.accAtoms es ++ t.foldOf (es.map Prod.snd)) (es.any fun z => z.2.2)
          (exec (.ctxBatch h) s))) ∧
      (∀ e ∈ tail, SolePart s h x y w 0 pl e →
        settles s h w 0 [] e ((List.range t.tiles).mapIdx fun i n =>
          let z := (x.at 0).words.getD (t.tiles + i) (0, false)
          (t.tileMap + 8 * n, leBytes 8 z.1, z.2)) [] false (exec (.ctxBatch h) s))

/-- RELEASE, ADVANCE, KV_APPEND, KV_READ and SAMPLE (R289, R290): a RELEASE whose list may be read makes every BUSY context
of the group in it READY and is done; the others, once their list is read and with the part that is left of them, take
each acting context's token and position on, write its cache row, read its rows with their bias, or store its draws. -/
def Obligations.ListContextOperations : Prop :=
  ∀ (s : State) (h : HeatId) (x y : Heat) (w : Wk) (b : CtxBody), s.dev.goes h x → x.body = .context b →
    let c : CtxRun := ⟨x, b, b.t0.getD .zero, (x.at 0).rows⟩
    let l := b.list.getD .zero
    let t := c.t
    let bias := b.t1.getD .zero
    let pl := contextPlan b s.work x
    let v := w.view h 0
    (b.cop = 6 → (x.at 0).begun = false → s.dev.ctxFirst x = true → (∀ g ∈ l.slots, s.dev.readable g = true) →
      s.dev.turns accOut l.places = true → firstPoison s.mem.view l.places = none →
      let q := s.dev.readRows x 6 ((l.indices s.mem.view).map Prod.fst)
      let ids := (q.2.filterMap id).map Prod.fst
      ∃ r z, exec (.ctxRelease h) s = .next r ∧ r.mem = s.mem ∧ r.dev.heat h = some z ∧ z.done = true ∧
        ∀ i, r.dev.ctxAt i = if i ∈ ids then withCheck (withState (q.1.ctxAt i) 1) else q.1.ctxAt i) ∧
    ((x.at 0).begun = true →
      (b.cop = 7 → SolePart s h x y w 0 pl c.advancePart →
        let tok := fun i => t.code (v 1) (unravel t.ext i)
        (c.acting.any fun z => (tok z.1).2) = false →
        completes s h 0 [] c.advancePart ((w.begins h 0 c.advancePart).up fun d =>
          c.acting.foldl (fun d z => d.upCtx z.2.1 (advance z.2.2 (tok z.1).1)) d) (exec (.ctxAdvance h) s)) ∧
      (∀ z, b.cop = 8 → let p := c.appendPart s.mem z
        SolePart s h x y w 0 pl p →
        (∀ d, ctxPos z.2.2 ≠ ctxMax z.2.2 → c.cacheRow z.2.2 (ctxPos z.2.2) = some d →
          settles s h w 0 [] p (d.piecesOn (v (z.1 + 1)) x.ovf d.elems d.stands fun idx =>
            t.datum d (v (z.1 + 1)) [idx.getD 0 0, z.1]) [] false (exec (.kvAppend h) s)) ∧
        ((ctxPos z.2.2 = ctxMax z.2.2 ∨ c.cacheRow z.2.2 (ctxPos z.2.2) = none) →
          completes s h 0 [] p (w.begins h 0 p) (exec (.kvAppend h) s))) ∧
      (∀ p ∈ c.appendParts s.mem, b.cop = 8 → p.no = c.cs.length + 1 → SolePart s h x y w 0 pl p →
        completes s h 0 [] p (w.begins h 0 p) (exec (.kvAppend h) s)) ∧
      (b.cop = 9 → pl.whole = true → t.tileMap ≠ 0 →
        let p := tileEntries s.work x c.gather 0 accGather t (x.at 0).words 2 t.tiles (List.range t.tiles) 1
        SolePart s h x y w 0 pl p →
        settles s h w 0 [] p ((List.range t.tiles).mapIdx fun i n =>
          let z := (x.at 0).words.getD (t.tiles + i) (0, false)
          (t.tileMap + 8 * n, leBytes 8 z.1, z.2)) [] false (exec (.kvRead h) s)) ∧
      (∀ k rows, b.cop = 9 → t.tileMap = 0 → let p := c.readPart k rows
        SolePart s h x y w 0 pl p →
        let es := t.elems.filter fun idx => rows.contains (idx.getD 2 0)
        let bs := bias.elems.filter fun idx => rows.contains (idx.getD 1 0)
        let ps := if bias.wmode == 2 then [] else bias.piecesOn (v 0) x.ovf bs bias.stands c.readBias
        let add := (if bias.wmode == 2 then bias.accAtoms (bs.map fun i => (i, c.readBias i)) else [])
          ++ bias.foldOf (bs.map c.readBias)
        let ws := es.map fun i => (i, c.readElem v i)
        (t.wmode ≠ 2 → settles s h w 0 [] p (ps ++ t.piecesOn (v 0) x.ovf es t.stands (c.readElem v))
          (add ++ t.foldOf (es.map (c.readElem v))) false (exec (.kvRead h) s)) ∧
        (t.wmode = 2 → settles s h w 0 [] p ps (t.accAtoms ws ++ (add ++ t.foldOf (es.map (c.readElem v))))
          (ws.any fun z => z.2.2) (exec (.kvRead h) s))) ∧
      (∀ k g, b.cop = 0xA → let p := slotPart x 0 t (fun _ _ => []) (fun _ => .ok c.sampleElem) k g
        SolePart s h x y w 0 pl p →
        settles s h w 0 [] p (t.piecesOn (v (k + 1)) x.ovf g.2 t.stands c.sampleElem)
          (t.foldOf (g.2.map c.sampleElem)) false (exec (.sample h) s)))

/-! ### Hangs, the memory system and the Relay (R10, R119, R178 to R195, R240, R296 to R326) -/

/-- WATCHDOG (R240), SPARE_POND_COPY_DONE (R119, R120) and UCIE_LANE_FAILURE (R10): a cluster that has not reported by its
deadline, and that the watchdog has not acted on in this lap, has a core to fence or a marshal to reset, and goes on being
unreported; any other is left as it is; the pond copy ends; a repaired lane is recorded, a link beyond repair ends every
running heat. -/
def Obligations.HangsAndLanes : Prop :=
  (∀ (s : State) (c : Fin 128) (k : HangKind),
    let acts := NSet.has s.dev.mar.unreported c.val = true ∧ NSet.has s.dev.mar.watched c.val = false
    (acts → exec (.watchdog c k) s = .next (s.withDev fun d =>
      let d : Dev := { d with mar := { d.mar with watched := NSet.add d.mar.watched c.val } }
      match k with
      | .core i => d.fence c.val i.val (Rec.of 0x0021 2)
      | .marshal => d.marshalHang c.val)) ∧
    (¬ acts → exec (.watchdog c k) s = .next s)) ∧
  (∀ (s : State) (c : Fin 128), ∃ t, exec (.sparePondCopyDone c) s = .next t ∧ t.mem = s.mem ∧
    ∀ k, AMap.get 0 t.dev.flt.copying k = if k = c.val then 0 else AMap.get 0 s.dev.flt.copying k) ∧
  (∀ (s : State) (l : Fin 8),
    exec (.ucieLaneFailure l true) s = .next (s.withDev fun d => d.raise { Rec.of 0x0001 0 with unit := l.val }) ∧
    ∃ t, exec (.ucieLaneFailure l false) s = .next t ∧ t.mem = s.mem ∧ t.dev.anyRunning = false ∧
      t.dev.flt.repl.toNat.testBit 1 = true)

/-- TOKEN_PERIOD and REQUEST_ISSUE (R178 to R185): a period divides 115 tokens among the classes of its die by their
shares in 1/32 and keeps the fractions; a class with no request waiting loses its whole tokens first, none holds more than
512, and the other dies keep theirs. A request that has its tokens, a slot and the turn of its class issues and spends
its tokens at each die that stores a line of it; another waits, and nothing changes but the order of waiting.
CORRECTED_WRITEBACK and SCRUB (R195, R196): each spends one token that its class left unused, and a scrub that is urgent
one ahead of other requests; neither changes a byte. -/
def Obligations.TokensAreMadeAndSpent : Prop :=
  (∀ (s : State) (die : Fin 4), ∃ t, exec (.tokenPeriod die) s = .next t ∧ t.mem = s.mem ∧
    (∀ cls, cls < 3 →
      let held := s.dev.tokens die.val cls
      let old := if s.dev.hasRequests die.val cls = true then held else held % 32
      let add := 115 * s.dev.live.share die.val cls
      t.dev.tokens die.val cls = min (32 * 512) (old + add) ∧
      AMap.get 0 t.dev.hbm.unused (3 * die.val + cls) = min (min (32 * 512) (old + add) / 32) ((old % 32 + add) / 32)) ∧
    (∀ e cls, e ≠ die.val → cls < 3 → t.dev.tokens e cls = s.dev.tokens e cls)) ∧
  (∀ (s : State) (id : Nat) (r : Req), s.dev.hbm.reqs.find? (fun r => r.id == id) = some r →
    ((s.dev.issuable r = false ∨ s.dev.isNext r = false) →
      exec (.requestIssue id) s = .next (s.withDev fun d => d.noteWait r)) ∧
    (s.dev.issuable r = true → s.dev.isNext r = true →
      ∃ t, exec (.requestIssue id) s = .next t ∧ t.mem = s.mem ∧
        t.dev.hbm.reqs = (s.dev.hbm.reqs.filter fun q => q.id != id) ++ [{ r with issued := true }] ∧
        ∀ die, let cost := if die ∈ s.dev.diesOf r then s.dev.cost r die else (0, 0, 0)
          t.dev.tokens die 0 = s.dev.tokens die 0 - 32 * cost.1 ∧
          t.dev.tokens die 1 = s.dev.tokens die 1 - 32 * cost.2.1 ∧
          t.dev.tokens die 2 = s.dev.tokens die 2 - 32 * cost.2.2)) ∧
  (∀ (s : State) (die : Fin 4) (x : Nat) (l : List Nat),
    takeFirst (fun x => (s.dev.live.stored (32 * x)).1 == die.val) s.dev.hbm.writebacks = some (x, l) →
    s.dev.unusedToken die.val 1 = true →
    ∃ t, exec (.correctedWriteback die) s = .next t ∧ t.mem = s.mem ∧ t.dev.hbm.writebacks = l ∧
      t.dev.tokens die.val 1 = s.dev.tokens die.val 1 - 32) ∧
  (∀ (s : State) (line : Nat) (errs : List EccError), (line + 1) * 128 ≤ hbmBytes →
    let die := s.dev.dieOf line
    s.dev.slotFree (Req.of .scrub [line] .read) = true →
    (s.dev.unusedToken die 0 = true ∨ s.dev.scrubUrgent die line = true) →
    ∃ t, exec (.scrub line errs) s = .next t ∧ (∀ a, t.mem.byte a = s.mem.byte a) ∧
      t.dev.tokens die 0 = s.dev.tokens die 0 - 32 ∧
      AMap.get 0 t.dev.hbm.urgent die = AMap.get 0 s.dev.hbm.urgent die + b2n (!s.dev.unusedToken die 0) ∧
      (errs = [] → s.mem.poisonedWords line = [] → t.dev.evt = s.dev.evt))

/-- READ_RETURN (R176, R189, R192, R194): the line's 128 bytes reach the stage and group of the running heat that asked for
them, with the words that are poisoned; a heat that has ended or began anew since gets nothing; no byte changes, and the
request is served. -/
def Obligations.ReadsReturnTheLine : Prop :=
  ∀ (s : State) (id : Nat) (errs : List EccError) (r : Req) (h : HeatId) (x : Heat),
    s.dev.hbm.reqs.find? (fun r => r.id == id) = some r → r.issued = true → s.dev.servable r = true → r.kind = .read →
    r.heat = some h → s.dev.heat h = some x →
    (x.state = .running → x.order = r.order →
      ∃ t y, exec (.readReturn id errs) s = .next t ∧ (∀ a, t.mem.byte a = s.mem.byte a) ∧
        t.dev.hbm.reqs = s.dev.hbm.reqs.filter (fun q => q.id != id) ∧ t.dev.heat h = some y ∧
        y.staged = AMap.insert x.staged (stageKey r.stage r.grp r.line)
          ⟨s.mem.bytes (128 * r.line) 128, t.mem.poisonedWords r.line⟩) ∧
    ((x.state ≠ .running ∨ x.order ≠ r.order) →
      exec (.readReturn id errs) s = .next (s.withDev fun d => d.dropReq id))

/-- WRITE_ACK (R164, R187, R188, R194): a write's bytes are in memory and no other byte has changed; an atomic update takes
place where nothing that it reads is poisoned, with saturation noted in its heat (R91), and changes nothing in memory where
something is. Either way the request is served, and doorbells that waited for it are judged (R199). -/
def Obligations.WritesLand : Prop :=
  (∀ (s : State) (id : Nat) (errs : List EccError) (r : Req) (a : Nat) (data : List Byte),
    s.dev.hbm.reqs.find? (fun r => r.id == id) = some r → r.issued = true → s.dev.servable r = true →
    r.kind = .write a data →
    ∃ t, exec (.writeAck id errs) s = .next t ∧
      (∀ i, i < data.length → t.mem.byte (a + i) = data.getD i 0) ∧
      (∀ b, beyond a data.length b → t.mem.byte b = s.mem.byte b) ∧
      t.dev.hbm.reqs = s.dev.hbm.reqs.filter fun q => q.id != id) ∧
  (∀ (s : State) (id : Nat) (r : Req) (op : AtomOp),
    s.dev.hbm.reqs.find? (fun r => r.id == id) = some r → r.issued = true → s.dev.servable r = true →
    r.kind = .atomic op →
    ((∀ x ∈ op.guarded s.mem, firstPoison s.mem.view [x] = none) →
      exec (.writeAck id []) s = .next (s.after
        (((s.work.applyAtom op).ite (s.work.saturates op) fun w => w.up fun d => d.saturated r).up fun d =>
          (d.dropReq id).ringBells))) ∧
    (∀ x ∈ op.guarded s.mem, firstPoison s.mem.view [x] ≠ none →
      ∃ t, exec (.writeAck id []) s = .next t ∧ t.mem = s.mem ∧
        t.dev.hbm.reqs.find? (fun r => r.id == id) = none))

/-- LINK_TRAINING and IDENTITY (R297, R298, R317, R351, R352): training ends DOWN, ASYM or ready for the peer's identity
with the lanes that work; the identity of the relay map, or one the remap conditions admit, brings the port UP, any
other leaves it HELD. -/
def Obligations.LinksTrain : Prop :=
  (∀ (s : State) (q : Fin 16) (r : Training), s.dev.mayTrain q.val = true →
    ((s.dev.port q.val).state = .down ∨ (s.dev.port q.val).state = .training) →
    let used := lanesUsed (r.lanes &&& ~~~(s.dev.port q.val).dropped)
    let n := ((List.range 8).filter fun i => used.toNat.testBit i).length
    ∃ t, exec (.linkTraining q r) s = .next t ∧ t.mem = s.mem ∧ (t.dev.port q.val).width = n ∧
      (t.dev.port q.val).state = (if n = 0 then .down else if r.asym = true then .asym else .training) ∧
      (n ≠ 0 → (t.dev.port q.val).lanesUp = used)) ∧
  (∀ (s : State) (q : Fin 16) (id : Identity), s.dev.mayTrain q.val = true → (s.dev.port q.val).state = .training →
    ∃ t, exec (.identity q id) s = .next t ∧ t.mem = s.mem ∧ (t.dev.port q.val).peerId = id.moduleId ∧
      (t.dev.port q.val).state =
        (if s.dev.identityOk q.val id = true ∨ s.dev.remapOk q.val id = true then .up else .held) ∧
      (s.dev.identityOk q.val id = true → (t.dev.port q.val).remapped = false))

/-- LANE_DROP, LINK_DOWN, PORT_DISABLE, RETRAIN and CLR_SUSPECT (R304, R314, R315, R326): the states that a port
leaves its link for, and the dropped lanes that it remembers or forgets. -/
def Obligations.PortsLeaveTheirLink : Prop :=
  ∀ (s : State) (q : Fin 16),
    let p := s.dev.port q.val
    (∀ lane : Fin 8, p.lanesUp.toNat.testBit lane.val = true → (p.state = .up ∨ p.state = .held) →
      ∃ t, exec (.laneDrop q lane) s = .next t ∧ t.mem = s.mem ∧ (t.dev.port q.val).state = .training ∧
        (t.dev.port q.val).dropped = p.dropped ||| BitVec.ofNat 8 (2 ^ lane.val)) ∧
    ((p.state = .up ∨ p.state = .held) →
      ∃ t, exec (.linkDown q) s = .next t ∧ t.mem = s.mem ∧ (t.dev.port q.val).state = .down) ∧
    (6 ≤ s.dev.start.step → p.state ≠ .suspect →
      ∃ t, exec (.portDisable q true) s = .next t ∧ t.mem = s.mem ∧ (t.dev.port q.val).state = .down ∧
        (t.dev.port q.val).disable = true) ∧
    (6 ≤ s.dev.start.step → s.dev.mayTrain q.val = true →
      ∃ t, exec (.retrain q) s = .next t ∧ t.mem = s.mem ∧ (t.dev.port q.val).state = .training ∧
        (t.dev.port q.val).dropped = 0) ∧
    (6 ≤ s.dev.start.step → p.state = .suspect →
      ∃ t, exec (.clrSuspect q) s = .next t ∧ t.mem = s.mem ∧ (t.dev.port q.val).dropped = 0 ∧
        (t.dev.port q.val).state =
          (if p.disable = true ∨ s.dev.pwr.cageFault.toNat.testBit q.val = true then .down else .training))

/-- DATA_FRAME, LANDING_COUNTER_INCREMENT and ACKNOWLEDGEMENT (R299, R300, R308, R310, R313, R314): a frame that fails its
link check leaves nothing, one that may be processed is, and one that cannot be waits; a landing with no write left steps
its counter, and one that a refusal spoiled steps none; a frame accepted whole leaves the store, refused blocks are sent
again, and a fourth refusal of one makes the port SUSPECT. -/
def Obligations.FramesLandAndLeave : Prop :=
  (∀ (s : State) (q : Fin 16) (f : List Byte) (n : Nat),
    (lcrcOk f = false → exec (.dataFrame q f n) s = .next s) ∧
    (∀ w, s.dev.portUp q.val = true → lcrcOk f = true → numAt f 0 1 = 1 →
      s.work.receive q.val (Frame.ofBytes f) n = (w, true) →
      exec (.dataFrame q f n) s = .next (s.after w.retryBlocked)) ∧
    (∀ w, s.dev.portUp q.val = true → lcrcOk f = true → numAt f 0 1 = 1 →
      s.work.receive q.val (Frame.ofBytes f) n = (w, false) →
      exec (.dataFrame q f n) s = .next (s.after (w.up fun d =>
        { d with rly := { d.rly with blocked := d.rly.blocked ++ [(q.val, f)] } })))) ∧
  (∀ (s : State) (i : Nat) (l : Landing), s.dev.rly.landings[i]? = some l → s.dev.rly.blocked = [] →
    (∀ r ∈ s.dev.hbm.reqs, r.id ∉ l.reqs) →
    ∃ t, exec (.landingCounterIncrement i) s = .next t ∧ t.mem = s.mem ∧
      t.dev.rly.landings = s.dev.rly.landings.eraseIdx i ∧
      ∀ k, AMap.get 0 t.dev.rly.land k =
        if k = l.tag ∧ l.failed = false then AMap.get 0 s.dev.rly.land k + BitVec.ofNat 32 l.count
        else AMap.get 0 s.dev.rly.land k) ∧
  (∀ (s : State) (q : Fin 16) (ch : Fin 4) (seq : BitVec 32) (refused : BitVec 16),
    let p := s.dev.port q.val
    let found := p.store.find? fun x => x.channel == ch.val && x.seq == seq
    (found = none → exec (.acknowledgement q ch seq refused) s = .next s) ∧
    (∀ x, found = some x →
      let y := x.acked refused.toNat
      let others := p.store.filter fun z => z != x
      let fourth := y.blocks.any fun b => decide (4 ≤ b.2)
      (y.blocks = [] → exec (.acknowledgement q ch seq refused) s =
        .next (s.withDev fun d => d.setPort q.val fun p => { p with store := others })) ∧
      (y.blocks ≠ [] → fourth = false → exec (.acknowledgement q ch seq refused) s =
        .next (s.withDev fun d =>
          (y.split.foldl (fun d z => d.launch q.val z true) (d.setPort q.val fun p => { p with store := others })).portEvt q.val 1)) ∧
      (y.blocks ≠ [] → fourth = true → exec (.acknowledgement q ch seq refused) s =
        .next (s.withDev fun d =>
          (d.setPort q.val fun p => { p with store := others ++ y.split }).suspect q.val))))

/-! ### Domains, securing and laps (R30 to R51, R346 to R407) -/

/-- REJOIN, JOIN_REQUEST_REPEAT and JOIN_REQUEST (R349, R350, R357): the sequence starts from step 1; the 64th edge
repeats the request; the starter refuses for its cause or admits at the next edge, and every other module passes the
request up. -/
def Obligations.JoiningADomain : Prop :=
  (∀ s : State, 6 ≤ s.dev.start.step → exec .rejoin s = .next (s.withDev Dev.joinStart)) ∧
  (∀ s : State,
    let due := s.dev.dom.state = .awaiting ∧ s.dev.lap.lock = true ∧ 64 ≤ s.dev.dom.joinAge
    let m := Message.contribution s.dev.joinMessage
    (due → ∃ t, exec .joinRequestRepeat s = .next t ∧ t.mem = s.mem ∧ t.dev.dom.joinAge = 0 ∧
      ∀ q, s.dev.parentPort = some q → (s.dev.port q).peerKind ≠ 2 →
        t.dev.out = s.dev.out ++ [.control q m (m.frame s.dev.lap.cycle)]) ∧
    (¬ due → exec .joinRequestRepeat s = .next s)) ∧
  (∀ (s : State) (c : Contribution) (delay : BitVec 32), s.dev.inDomain = true → s.dev.dom.state ≠ .alone →
    let p := c.pos.toNat
    (s.dev.starting = false →
      exec (.joinRequest c delay) s = .next (s.withDev fun d => d.sendUp (.contribution c))) ∧
    (∀ n, s.dev.starting = true → s.dev.joinCause c delay.toNat = some n →
      exec (.joinRequest c delay) s = .next (s.withDev fun d => d.act 0x11 p (leBytes 1 n) 0)) ∧
    (s.dev.starting = true → s.dev.joinCause c delay.toNat = none →
      (s.dev.memberIn p = true ∨ s.dev.waiting 0x10 p = true) → exec (.joinRequest c delay) s = .next s) ∧
    (s.dev.starting = true → s.dev.joinCause c delay.toNat = none → s.dev.memberIn p = false →
      s.dev.waiting 0x10 p = false →
      ∃ t, exec (.joinRequest c delay) s = .next t ∧ t.mem = s.mem ∧ t.dev.waiting 0x10 p = true ∧
        (t.dev.member p).feed = byteAt c.data 0 0 ∧ AMap.get 0 t.dev.dom.delays p = delay.toNat))

/-- HURDLE_CONTRIBUTION and HURDLE_DECIDE (R43, R312, R340, R341, R355 to R357): the starter keeps the first contribution
of a sender to an undecided HSEQ, every other module passes it up; at the decision none is left, every HSEQ is decided for
the next edge, and each verdict is that of its kind. -/
def Obligations.HurdlesAreDecided : Prop :=
  (∀ (s : State) (c : Contribution), s.dev.inDomain = true → s.dev.dom.state ≠ .alone →
    (s.dev.starting = false →
      exec (.hurdleContribution c) s = .next (s.withDev fun d => d.sendUp (.contribution c))) ∧
    (s.dev.starting = true → c.hseq ≠ 0 →
      (∀ x ∈ s.dev.dom.collected, ¬ (x.hseq = c.hseq ∧ x.pos = c.pos)) →
      (∀ x ∈ s.dev.dom.kept ++ s.dev.dom.decided, x.hseq ≠ c.hseq) →
      exec (.hurdleContribution c) s = .next (s.withDev fun d =>
        { d with dom := { d.dom with collected := d.dom.collected ++ [c] } })) ∧
    (∀ x ∈ s.dev.dom.collected, s.dev.starting = true → x.hseq = c.hseq → x.pos = c.pos →
      exec (.hurdleContribution c) s = .next s)) ∧
  (∀ s : State, s.dev.starting = true →
    ∃ t, exec .hurdleDecide s = .next t ∧ t.mem = s.mem ∧ t.dev.dom.collected = [] ∧
      ∀ c ∈ s.dev.dom.collected, ∃ x ∈ t.dev.dom.decided, x.hseq = c.hseq ∧ x.lap = s.dev.nextEdge) ∧
  (∀ (d : Dev) (l : List Contribution) (data : List Byte),
    d.verdict 1 l true data = 3 ∧ d.verdict 2 l true data = 6 ∧ d.verdict 3 l true data = 3 ∧ d.verdict 4 l true data = 3 ∧
    d.verdict 5 l true data = 3 ∧ d.verdict 2 l false data = 5 ∧
    d.verdict 5 l false data = (if byteAt data 0 0 = 0 ∧ d.securingDue d.lap.count = true then 7 else 0) ∧ d.verdict 4 l false data = 0 ∧
    d.verdict 1 l false data = (if l.any fun c => c.hflags.toNat.testBit 0 then 2 else 1) ∧
    d.verdict 3 l false data = (if l.all fun c => c.hflags.toNat.testBit 1 then 4 else 3))

/-- HURDLE_DECISION, NO_ECHO_LOSS, NOTICE and STANDBY_TAKEOVER (R40, R301, R356, R357, R359, R360, R394): where the module
keeps lap lock a decision waits for its edge, one that comes after it stops dispatch and shows in RLY_DOM_EVT, and a
TAKEOVER that names another position deposes the starter; the starter declares a silent member lost and answers each
notice with its action; the standby sources the tick once ticks and the starter are gone. -/
def Obligations.DecisionsAndNotices : Prop :=
  (∀ (s : State) (x : Decision), s.dev.inDomain = true → s.dev.dom.state ≠ .alone →
    (s.dev.starting = false → s.dev.lap.lock = true → s.dev.lap.count.toNat < x.lap.toNat →
      ∃ t, exec (.hurdleDecision x) s = .next t ∧ t.mem = s.mem ∧ t.dev.dom.decided = s.dev.dom.decided ++ [x] ∧
        t.dev.lap = s.dev.lap) ∧
    (s.dev.starting = false → s.dev.lap.lock = true → x.lap.toNat ≤ s.dev.lap.count.toNat →
      ∃ t, exec (.hurdleDecision x) s = .next t ∧ t.mem = s.mem ∧ t.dev.dom.decided = s.dev.dom.decided ∧
        t.dev.lap.stopped = true ∧ t.dev.dom.evt.toNat.testBit 5 = true) ∧
    (s.dev.starting = true → x.verdict = 0x14 → s.dev.pos ≠ some x.pos.toNat →
      ∃ t, exec (.hurdleDecision x) s = .next t ∧ t.mem = s.mem ∧ t.dev.dom.state = .alone ∧
        t.dev.dom.newStarter = some x.pos.toNat ∧ t.dev.lap.stopped = true)) ∧
  (∀ (s : State) (p : Fin 258), s.dev.starting = true → s.dev.memberIn p.val = true → s.dev.waiting 0x12 p.val = false →
    ∃ t, exec (.noEchoLoss p) s = .next t ∧ t.mem = s.mem ∧ t.dev.waiting 0x12 p.val = true) ∧
  (∀ (s : State) (n : Notice), s.dev.inDomain = true → s.dev.starting = true →
    let p := n.pos.toNat
    ((n.kind = .overrun ∨ n.kind = .fault) →
      exec (.notice n) s = .next (s.withDev fun d => d.act 0x13 p (leBytes 1 0) 0)) ∧
    (n.kind = .shardPoison → exec (.notice n) s = .next (s.withDev fun d => d.act 0x13 p (leBytes 1 1) 0)) ∧
    ((n.kind = .lapLockLoss ∨ n.kind = .lateDecision ∨ n.kind = .goingDown) →
      exec (.notice n) s = .next (s.withDev fun d => d.declareLost p)) ∧
    (n.kind = .rebuilt →
      ∃ t, exec (.notice n) s = .next t ∧ t.mem = s.mem ∧ (t.dev.member p).counts = s.dev.nextEdge)) ∧
  (∀ s : State, s.dev.role = 1 → s.dev.dom.state = .active → 4 ≤ s.dev.lap.missed → s.dev.dom.starterLost = true →
    s.dev.dom.takeover = false →
    exec .standbyTakeover s = .next (s.withDev fun d => { d with
      lap := { d.lap with source := .starter, missed := 0 }, dom := { d.dom with takeover := true } }))

/-- PARITY_PHASE_DONE, COPY_PHASE_DONE, REBUILD_COMPLETE, RESTORE_DONE and SEC_RESUME (R350, R390, R391, R395 to R398,
R402): the parity phase ends once no entry and no landing of the parity tag is open and every frame sent is accepted; the copy phase ends with the image copied out,
and changes nothing outside the snapshot; the solved units are written where they belong and the rebuild is over; a
restore ends in PHASE 4 with its record loaded, or starts the rebuild where the record fails its check; the resume is
the write of SEC_CTRL. -/
def Obligations.SecuringAndRestoring : Prop :=
  (∀ s : State, s.dev.sec.phase = 1 → (∀ e ∈ s.dev.rly.entries, e.tag ≠ 255) →
    (∀ l ∈ s.dev.rly.landings, l.tag ≠ 255) → s.dev.paritySends = false →
    exec .parityPhaseDone s = .next (s.withDev fun d => { d with sec := { d.sec with parityDone := true } })) ∧
  (∀ (s : State) (received : List (Nat × BitVec 384)), s.dev.sec.phase = 2 → s.dev.sec.copyDone = false →
    ∃ t, exec (.copyPhaseDone received) s = .next t ∧ t.mem = s.work.copyOut.mem ∧ t.dev.sec.copyDone = true ∧
      ∀ a, beyond s.dev.sec.snap s.dev.secLen a → t.mem.byte a = s.mem.byte a) ∧
  (∀ (s : State) (solved : List (Nat × List Byte)), s.dev.sec.rebuild = true → s.dev.sec.phase = 3 →
    s.dev.sec.unrecoverable = false →
    ∃ t, exec (.rebuildComplete solved) s = .next t ∧ t.dev.sec.rebuild = false ∧
      (s.dev.sec.source = false → ∀ a, (∀ u ∈ solved, beyond (s.dev.sec.snap + u.1) u.2.length a) →
        t.mem.byte a = s.mem.byte a)) ∧
  (∀ (s : State) (copies : List (BitVec 384)), s.dev.sec.phase = 3 → s.dev.sec.rebuild = false →
    s.dev.sec.unrecoverable = false →
    let w := if s.dev.sec.source then s.work.copyOut else s.work.copyIn
    (recordOk w.savedRecord = true →
      ∃ t, exec (.restoreDone copies) s = .next t ∧ t.mem = w.mem ∧ t.dev.sec.phase = 4 ∧ t.dev.sec.valid = true) ∧
    (recordOk w.savedRecord = false →
      ∃ t, exec (.restoreDone copies) s = .next t ∧ t.mem = w.mem ∧ t.dev.sec.phase = 3 ∧ t.dev.sec.rebuild = true)) ∧
  (∀ s : State, 6 ≤ s.dev.start.step → exec .secResume s = .next (s.after (s.work.secCtrl 1)))

/-- LAP_TICK and EFFECTIVE_EDGE (R37, R42): the nominal edge holds the lap, and counts the laps that each cluster's
running heats hold; the effective edge comes once no heat runs, and it turns LAP_COUNT by one before anything else. -/
def Obligations.LapsTurnAtTheEffectiveEdge : Prop :=
  (∀ s : State, s.dev.lap.held = false → ∃ t, exec .lapTick s = .next t ∧ t.mem = s.mem ∧
    t.dev.lap.held = true ∧ t.dev.lap.sinceNom = 0 ∧ t.dev.lap.count = s.dev.lap.count ∧ t.dev.mar = s.dev.mar ∧
    ∀ c, c < 128 → AMap.get 0 t.dev.lap.heldLaps c =
      if c ∈ s.dev.runningClusters then AMap.get 0 s.dev.lap.heldLaps c + 1 else 0) ∧
  (∀ s : State, (s.dev.lap.held = false ∨ s.dev.anyRunning = true) → exec .effectiveEdge s = .next s) ∧
  (∀ s : State, s.dev.lap.held = true → s.dev.anyRunning = false →
    exec .effectiveEdge s = .next (s.after s.work.edge) ∧
    (s.dev.lap.loadLap = none → (s.dev.graceUse.turnLap).lap.count = s.dev.lap.count + 1 ∧
      (s.dev.graceUse.turnLap).lap.held = false ∧ (s.dev.graceUse.turnLap).lap.cycle = 0) ∧
    (∀ n, s.dev.lap.loadLap = some n → (s.dev.graceUse.turnLap).lap.count = n ∧
      (s.dev.graceUse.turnLap).lap.lock = true))

/-- LAP_OVERRUN (R40, R41, R240): at the end of the grace the lap overruns and its edge becomes effective: no heat of it
runs any more, every stream that owned one is halted, the runs of held laps end, LAP_COUNT goes up by one, and the starter
is told; a cluster whose cancelled heats have not ended has yet to report. Where the edge is not held or no heat runs,
nothing changes. -/
def Obligations.OverrunEndsTheLap : Prop :=
  (∀ s : State, (s.dev.lap.held = false ∨ s.dev.late = []) → exec .lapOverrun s = .next s) ∧
  (∀ (s : State) (h : Heat) (l : List Heat), s.dev.lap.held = true → s.dev.late = h :: l →
    let d := s.dev.overrun
    exec .lapOverrun s = .next (s.after ((s.work.up Dev.overrun).edge.up fun d =>
      d.notify h.id.cluster.val h.id.stream.num .overrun)) ∧
    d.anyRunning = false ∧
    (∀ x ∈ s.dev.late, d.streamState x.id.cluster.val x.id.stream.num = 3) ∧
    (∀ c ∈ s.dev.runningClusters, AMap.get 0 d.lap.heldLaps c = 0) ∧
    (s.dev.lap.loadLap = none →
      (d.graceUse.turnLap).lap.count = s.dev.lap.count + 1 ∧ (d.graceUse.turnLap).lap.held = false)) ∧
  (∀ (d : Dev) (c : Nat), c ∈ d.cancellingClusters →
    NSet.has d.edgeFields.mar.unreported c = true ∧ NSet.has d.edgeFields.mar.watched c = false)

/-- LAP_LOCK_LOSS, TICK, ECHO_REQUEST and ECHO_RESPONSE (R33 to R35, R301): the ninth missing tick in a row loses the
lock and stops dispatch; the source's tick is noted, or locks a module that joins, and any other changes nothing; an UP port answers an echo request;
half a round trip, rounded down (the model's choice, log entry 116), is the delay. -/
def Obligations.LapLockFollowsTheTick : Prop :=
  (∀ s : State, s.dev.lap.lock = true → 9 ≤ s.dev.lap.missed →
    ∃ t, exec .lapLockLoss s = .next t ∧ t.mem = s.mem ∧ t.dev.lap.lock = false ∧ t.dev.lap.lockLost = true ∧
      t.dev.lap.stopped = true ∧ t.dev.lap.source = .own ∧ t.dev.lap.missed = 0 ∧ t.dev.lap.count = s.dev.lap.count) ∧
  (∀ s : State, (s.dev.lap.lock = false ∨ s.dev.lap.missed < 9) → exec .lapLockLoss s = .next s) ∧
  (∀ (s : State) (q : Fin 16) (lap : W64) (period grace : BitVec 16),
    (s.dev.parentPort ≠ some q.val ∨ s.dev.role = 0 ∨ s.dev.dom.takeover = true) →
    exec (.tick q lap period grace) s = .next s) ∧
  (∀ (s : State) (q : Fin 16) (lap : W64) (period grace : BitVec 16), s.dev.parentPort = some q.val → s.dev.role ≠ 0 →
    s.dev.dom.takeover = false →
    (s.dev.lap.lock = true → exec (.tick q lap period grace) s =
      .next (s.withDev fun d => { d with lap := { d.lap with ticked := true } })) ∧
    (s.dev.lap.lock = false → s.dev.lap.echoed = true →
      (s.dev.dom.state = .locking ∨ s.dev.dom.state = .awaiting ∨ s.dev.dom.state = .refused) →
      exec (.tick q lap period grace) s = .next (s.withDev fun d => { d with lap := { d.lap with
        loadLap := some (lap + 1), loadPair := some (period.toNat, grace.toNat) } }))) ∧
  (∀ (s : State) (q : Fin 16) (a b : BitVec 32),
    (s.dev.portUp q.val = true →
      exec (.echoRequest q a b) s = .next (s.withDev fun d => d.send q.val (.echoResponse a b))) ∧
    (s.dev.portUp q.val = false → exec (.echoRequest q a b) s = .next s)) ∧
  (∀ (s : State) (q : Fin 16) (a b rtt : BitVec 32),
    (s.dev.parentPort = some q.val → exec (.echoResponse q a b rtt) s = .next (s.withDev fun d =>
      { d with lap := { d.lap with delayNs := rtt.toNat / 2, echoed := true } })) ∧
    (s.dev.parentPort ≠ some q.val → exec (.echoResponse q a b rtt) s = .next s))

/-- IMG_LOAD, IMG_LOAD_DONE, IMG_COMMIT, IMG_COMMIT_CHECK_DONE and IMG_DISCARD (R68 to R70, R75, R77, R487): a load is
refused while another runs, a commit also while one is checked (the model's choice, log entry 119) or pending; more than
one request in a write is refused; a load that fails leaves the shadow, one that passes fills it and gives the number that
IMG_SHADOW_SERIAL shows; a commit whose check passes is frozen as pending, and is not live yet; a DISCARD takes a pending
set back, or makes the shadow what is live. -/
def Obligations.ImagesLoadAndCommit : Prop :=
  (∀ (s : State) (v : BitVec 32), 6 ≤ s.dev.start.step →
    let i := s.dev.img
    let b := v.toNat % 8
    let under := i.loading = true ∨ i.checking = true ∨ i.pending.isSome = true
    (b = 1 → i.loading = false →
      exec (.imgLoad v) s = .next (s.withDev fun d => { d with img := { d.img with loading := true } })) ∧
    (b = 1 → i.loading = true → exec (.imgLoad v) s = .next (s.withDev fun d => d.imgDone resBusy 0)) ∧
    (b = 2 → ¬ under →
      exec (.imgCommit v) s = .next (s.withDev fun d => { d with img := { d.img with checking := true } })) ∧
    (b = 2 → under → exec (.imgCommit v) s = .next (s.withDev fun d => d.imgDone resBusy 0)) ∧
    (b = 4 → ¬ under → exec (.imgDiscard v) s =
      .next (s.withDev fun d => { d with img := { d.img with shadow := d.live } }.imgDone resOk 0)) ∧
    (∀ k, b = 4 → i.pending = some k → exec (.imgDiscard v) s =
      .next (s.withDev fun d => { d with img := { d.img with pending := none } }.imgDone 0x31 0)) ∧
    (b = 4 → under → i.pending = none → exec (.imgDiscard v) s = .next (s.withDev fun d => d.imgDone resBusy 0)) ∧
    ((b = 3 ∨ 5 ≤ b) → exec (.imgLoad v) s = .next (s.withDev fun d => d.imgDone resBadRequest 0))) ∧
  (∀ s : State, s.dev.img.loading = true →
    ∃ t, exec .imgLoadDone s = .next t ∧ t.mem = s.mem ∧ t.dev.img.loading = false ∧ t.dev.img.done = true ∧
      t.dev.live = s.dev.live ∧
      (∀ k, loadImage s.mem s.dev = .ok k →
        t.dev.img.shadow = k ∧ t.dev.img.loaded = k.serial ∧ t.dev.img.result = resOk ∧ t.dev.img.section_ = 0) ∧
      (∀ r sec, loadImage s.mem s.dev = .error (r, sec) → t.dev.img.shadow = s.dev.img.shadow ∧
        t.dev.img.loaded = s.dev.img.loaded ∧ t.dev.img.result = r ∧ t.dev.img.section_ = sec)) ∧
  (∀ s : State, s.dev.img.checking = true →
    ∃ t, exec .imgCommitCheckDone s = .next t ∧ t.mem = s.mem ∧ t.dev.img.checking = false ∧ t.dev.live = s.dev.live ∧
      t.dev.img.done = true ∧
      (s.dev.commitCheck = none → t.dev.img.pending = some s.dev.img.shadow ∧ t.dev.img.result = resOk) ∧
      (∀ r sec, s.dev.commitCheck = some (r, sec) → t.dev.img.pending = s.dev.img.pending ∧ t.dev.img.result = r ∧
        t.dev.img.section_ = sec))

/-! ### The host interface (R5, R47, R194, R259 to R263, R292, R324, R325, R345, R408 to R439) -/

/-- STR_WSET_CFG_WRITE, STR_WSET_SIZE_WRITE and STR_WSET_VER_WRITE (R258 to R261): a set with nothing WRITING and nothing
pinned, and that no pin, release or update has used in this cycle, takes the value where its buffers then lie in HBM; every
other write leaves every set. -/
def Obligations.WeightSetRegisters : Prop :=
  ∀ (s : State) (w : Fin 64) (v : BitVec 64) (u : BitVec 32), 6 ≤ s.dev.start.step →
    let old := s.dev.wset w.val
    let n := bits v.toNat 2 0
    let takes := fun (c : Instr) (ok : Bool) (new : WSet) => ∃ t, exec c s = .next t ∧ t.mem = s.mem ∧
      ∀ k, t.dev.wset k =
        if k = w.val ∧ ok = true ∧ old.quiet = true ∧ old.used ≠ s.dev.now + 1 ∧ new.fits = true then new
        else s.dev.wset k
    takes (.strWsetCfgWrite w v) (n == 0 || n == 2 || n == 3 || n == 4)
      (old.changed { old with nbuf := n, base := bits v.toNat 47 12 * 4096 }) ∧
    takes (.strWsetSizeWrite w u) true (old.changed { old with pages := bits u.toNat 27 0 }) ∧
    takes (.strWsetVerWrite w u) (old.nbuf != 0) (WSet.fresh { old with version := u })

/-- STR_RSET_WRITE, STR_SIG_WRITE, UNBIND, CONTEXT_RECORD_WRITE and REGISTER_WRITE (R5 to R7, R292, R293, R345, R412,
R415 to R417, R476): the registers take the value written, an entry of the scale set only while no hurdle of HKIND 0x3 is
armed; the BUSY contexts of an unbound group are READY again; a record is written in FREE, PARKED and FAULT alone and left
FREE or PARKED, and every other write of it is dropped with a record, record by record; none has an effect before BAR0 and
BAR2 serve it. What is no access of 4 or 8 bytes, naturally aligned and inside its BAR is an Unsupported Request; a shadow
field takes its bits while the live set stays; a bit of RLY_DOM_EVT is cleared by a 1 unless it was set in the same cycle;
a register write does what the row of its register does. -/
def Obligations.HostWritesTakeEffect : Prop :=
  ∀ s : State,
    (∀ (e : Fin 8) (reg : Fin 4) (v : BitVec 64),
      (s.dev.start.step < 6 → exec (.strRsetWrite e reg v) s = .next s) ∧
      (6 ≤ s.dev.start.step → s.dev.armedKind 3 = false → exec (.strRsetWrite e reg v) s =
        .next (s.withDev fun d => d.setRset e.val fun r => r.write reg.val v.toNat)) ∧
      (6 ≤ s.dev.start.step → s.dev.armedKind 3 = true → exec (.strRsetWrite e reg v) s =
        .next (s.withDev fun d => d.streamConfig (0xA100 + 0x20 * e.val + 8 * reg.val)))) ∧
    (∀ (g : Fin 15) (k : Fin 64) (v : BitVec 32),
      (s.dev.start.step < 6 → exec (.strSigWrite g k v) s = .next s) ∧
      (6 ≤ s.dev.start.step → ∃ t, exec (.strSigWrite g k v) s = .next t ∧ t.mem = s.mem ∧
        t = (s.withDev fun d => { d with mar := { d.mar with
          signals := AMap.set 0 d.mar.signals (64 * g.val + k.val) v } }) ∧
        t.dev.readBytes (0x120000 + 4 * (64 * g.val + k.val)) 4 = v.toNat)) ∧
    (∀ v : BitVec 32,
      (s.dev.start.step < 6 → exec (.unbind v) s = .next s) ∧
      (6 ≤ s.dev.start.step → ∃ t, exec (.unbind v) s = .next t ∧ t.mem = s.mem ∧ t.dev.ctxGroup = bits v.toNat 3 0 ∧
        (v.toNat.testBit 4 = false → t.dev.ctx = s.dev.ctx) ∧
        (v.toNat.testBit 4 = true → AMap.wf ctxFree s.dev.ctx = true → ∀ id, t.dev.ctxAt id =
          let old := s.dev.ctxAt id
          if ctxState old = 2 ∧ ctxGroupOf old = bits v.toNat 3 0 then withCheck (withState old 1) else old))) ∧
    (∀ (a : Nat) (data : List Byte), s.dev.start.step < 4 → exec (.contextRecordWrite a data) s = .next s) ∧
    (∀ (id o : Nat) (data : List Byte), 4 ≤ s.dev.start.step → id < 65536 → data ≠ [] → o + data.length ≤ 128 →
      let old := s.dev.ctxAt id
      let new := old.take o ++ data ++ old.drop (o + data.length)
      let may := (ctxState old = 0 ∨ ctxState old = 3 ∨ ctxState old = 4) ∧ (ctxState new = 0 ∨ ctxState new = 3)
      (may → exec (.contextRecordWrite (128 * id + o) data) s = .next (s.withDev fun d => d.setCtx id new)) ∧
      (¬ may → exec (.contextRecordWrite (128 * id + o) data) s =
        .next (s.withDev fun d => d.raise { Rec.of 0x0069 1 with detail := leBytes 2 id ++ leBytes 1 0xFF }))) ∧
    (∀ (a : Nat) (data : List Byte) (t : State), let k := 128 - a % 128
      4 ≤ s.dev.start.step → k < data.length → a < 0x800000 → exec (.contextRecordWrite a (data.take k)) s = .next t →
      exec (.contextRecordWrite a data) s = exec (.contextRecordWrite (a + k) (data.drop k)) t) ∧
    (∀ (bar2 : Bool) (o size : Nat) (v : BitVec 64),
      (size ≠ 4 ∧ size ≠ 8 ∨ o % size ≠ 0 ∨ (if bar2 then 2 ^ 28 else 2 ^ 26) < o + size) →
      exec (.registerWrite bar2 o size v) s = .next (s.withDev fun d => d.emit .unsupportedRequest)) ∧
    (6 ≤ s.dev.start.step →
      (∀ v : BitVec 64, ∃ t, exec (.registerWrite false 0x1008 4 v) s = .next t ∧ t.mem = s.mem ∧
        t.dev.live = s.dev.live ∧ t.dev.img.shadow = { s.dev.img.shadow with period := bits v.toNat 10 0 }) ∧
      (∀ v : BitVec 64, ∃ t, exec (.registerWrite false 0x9808 4 v) s = .next t ∧ t.mem = s.mem ∧
        ∀ b, b < 8 → t.dev.dom.evt.toNat.testBit b =
          (s.dev.dom.evt.toNat.testBit b && (!v.toNat.testBit b || s.dev.justSet 0x9808 b))) ∧
      (∀ (e : Fin 8) (reg : Fin 4) (v : BitVec 64),
        exec (.registerWrite false (0xA100 + 0x20 * e.val + 8 * reg.val) 8 v) s = exec (.strRsetWrite e reg v) s) ∧
      (∀ (g : Fin 15) (k : Fin 64) (v : BitVec 32),
        exec (.registerWrite false (0x120000 + 4 * (64 * g.val + k.val)) 4 (v.setWidth 64)) s
          = exec (.strSigWrite g k v) s) ∧
      (∀ v : BitVec 32, exec (.registerWrite false 0x4000 4 (v.setWidth 64)) s = exec (.unbind v) s) ∧
      (∀ (c : Fin 128) (k : StreamName) (v : BitVec 64),
        exec (.registerWrite false (0x100000 + 0x100 * c.val + 0x40 * k.num) 8 v) s = exec (.strRingWrite c k false v) s) ∧
      (∀ (c : Fin 128) (k : StreamName) (v : BitVec 32),
        exec (.registerWrite true (0x4000 * c.val + 0x1000 * k.num) 4 (v.setWidth 64)) s = exec (.doorbell c k v) s))

/-- Registers that read as their rules say: LAP_COUNT (R47) is the lap number, 0 at reset, and no write changes it;
RLY_BANK_SET (R324) is carried out only while no hurdle of HKIND 0x3 is armed, and else dropped with a stream-config
record, and reads 0; RLY_LAND (R325) takes the value written, is 0 at reset, and the registers of port p lie at
0x9000 + 0x40p. -/
def Obligations.RegistersReadAsWritten : Prop :=
  (∀ (s : State) (v : BitVec 64) (o : Nat), s.dev.readBytes 0x1000 8 = s.dev.lap.count.toNat ∧
    (6 ≤ s.dev.start.step → exec (.registerWrite false 0x1000 8 v) s = .next s ∧
      ((o = 0x1000 ∨ o = 0x1004) → exec (.registerWrite false o 4 v) s = .next s))) ∧
  State.reset.dev.readBytes 0x1000 8 = 0 ∧
  (∀ (s : State) (v : BitVec 32), s.dev.readBytes 0x8008 4 = 0 ∧ (6 ≤ s.dev.start.step →
    (s.dev.armedKind 3 = false → ∃ t, exec (.rlyBankSet v) s = .next t ∧
      t = (s.withDev fun d => { d with rly := { d.rly with bank := v.toNat.testBit 0 } }) ∧
      t.dev.readBytes 0x8000 4 % 2 = v.toNat % 2) ∧
    (s.dev.armedKind 3 = true →
      exec (.rlyBankSet v) s = .next (s.withDev fun d => d.streamConfig 0x8008)))) ∧
  (∀ (s : State) (t : Fin 256) (v : BitVec 32), 6 ≤ s.dev.start.step →
    ∃ r, exec (.rlyLandWrite t v) s = .next r ∧
      r = (s.withDev fun d => { d with rly := { d.rly with land := AMap.set 0 d.rly.land t.val v } }) ∧
      ∀ u : Fin 256, r.dev.readBytes (0x8400 + 4 * u.val) 4 =
        if u = t then v.toNat else s.dev.readBytes (0x8400 + 4 * u.val) 4) ∧
  (∀ t : Fin 256, State.reset.dev.readBytes (0x8400 + 4 * t.val) 4 = 0) ∧
  (∀ (s : State) (p : Fin 16) (o : Nat), o < 0x40 → s.dev.word (0x9000 + p.val * 0x40 + o) = s.dev.portWord p.val o)

/-- HOST_APER_WRITE, BAR4_WRITE and BAR4_READ (R178 to R186, R194, R411, R418 to R421): a base of at most 656 GiB is taken, a
larger one dropped. BAR4 reaches HBM once its stacks have trained; then, where no request is outstanding, every enabled
byte x is written at BASE_GIB · 2^30 + x or waits in a request of its line, and no other byte changes; a poisoned write
leaves memory; every line's part of a read is answered with the bytes there or waits, and no byte changes. Where what is
asked for lies in one line that may be served now, nothing waits. -/
def Obligations.ApertureReachesMemory : Prop :=
  (∀ (s : State) (v : BitVec 64), 6 ≤ s.dev.start.step →
    (bits v.toNat 9 0 ≤ 656 → exec (.hostAperWrite v) s = .next (s.withDev fun d =>
      { d with pcie := { d.pcie with aper := bits v.toNat 9 0 } })) ∧
    (656 < bits v.toNat 9 0 → exec (.hostAperWrite v) s = .next s)) ∧
  (∀ (s : State) (o n : Nat) (data : List (Option Byte)) (bad : Bool) (errs : List (Nat × EccError)),
    s.dev.start.step < 7 →
    (o + data.length ≤ 64 * 2 ^ 30 →
      exec (.bar4Write o data bad) s = .next (s.withDev fun d => d.emit .unsupportedRequest)) ∧
    (o + n ≤ 64 * 2 ^ 30 →
      exec (.bar4Read o n errs) s = .next (s.withDev fun d => d.emit .unsupportedRequest))) ∧
  (∀ (s : State) (o : Nat) (data : List (Option Byte)), 7 ≤ s.dev.start.step → o + data.length ≤ 64 * 2 ^ 30 →
    let a := s.dev.pcie.aper * 2 ^ 30 + o
    let d := (enabledRuns 0 data).foldl (fun d x => d.bar4Write (a + x.1) x.2) s.dev
    (s.dev.hbm.reqs = [] → ∃ t, exec (.bar4Write o data false) s = .next t ∧
      (∀ i b, data[i]? = some (some b) → t.mem.byte (a + i) = b ∨
        ∃ r e l, r ∈ t.dev.hbm.reqs ∧ r.kind = .write e l ∧ e ≤ a + i ∧ l[a + i - e]? = some b) ∧
      (∀ x, (∀ i b, data[i]? = some (some b) → x ≠ a + i) → t.mem.byte x = s.mem.byte x) ∧
      (∀ r, d.hbm.reqs = [r] → d.issuable r = true → t.dev.hbm.reqs = [])) ∧
    (∃ t, exec (.bar4Write o data true) s = .next t ∧ t.mem = s.mem ∧ Output.aerPoisonReceived ∈ t.dev.out)) ∧
  (∀ (s : State) (o n : Nat) (errs : List (Nat × EccError)), 7 ≤ s.dev.start.step → o + n ≤ 64 * 2 ^ 30 →
    s.dev.hbm.reqs = [] →
    let a := s.dev.pcie.aper * 2 ^ 30 + o
    let d := s.dev.bar4Read a n
    ∃ t, exec (.bar4Read o n errs) s = .next t ∧ (∀ x, t.mem.byte x = s.mem.byte x) ∧
      (∀ p ∈ linePieces (n / 128 + 2) a n,
        (∃ bad, Output.readData (s.mem.bytes p.1 p.2) bad ∈ t.dev.out ∧
          (errs = [] → s.mem.hbmPoison = [] → bad = false)) ∨
        ∃ r ∈ t.dev.hbm.reqs, r.kind = .hostRead p.1 p.2) ∧
      (∀ r, d.hbm.reqs = [r] → d.issuable r = true → t.dev.hbm.reqs = []))

/-- EVT_RING_WRITE, EVT_ENABLE, EVT_HEAD_WRITE, EVENT_RING_WRITE and BUS_MASTER_ENABLE (R410, R423, R426 to R429): the
ring is set up with a size of its range while it is not enabled, and a write at any other time is dropped with a record;
the oldest buffered record goes to its slot where there is room; the vectors that waited for bus mastering are sent. -/
def Obligations.EventRingAndVectors : Prop :=
  (∀ (s : State) (v : BitVec 64), 4 ≤ s.dev.start.step →
    (s.dev.evt.enable = false → 6 ≤ bits v.toNat 4 0 → bits v.toNat 4 0 ≤ 16 →
      exec (.evtRingWrite v) s = .next (s.withDev fun d => { d with evt := { d.evt with
        ring := BitVec.ofNat 64 (bits v.toNat 63 12 * 4096 + bits v.toNat 4 0), head := 0, tail := 0 } })) ∧
    ((s.dev.evt.enable = true ∨ bits v.toNat 4 0 < 6 ∨ 16 < bits v.toNat 4 0) →
      exec (.evtRingWrite v) s = .next (s.withDev fun d => d.streamConfig 0x3000))) ∧
  (∀ (s : State) (v : BitVec 32), 4 ≤ s.dev.start.step →
    exec (.evtEnable v) s =
      .next (s.withDev fun d => { d with evt := { d.evt with enable := v.toNat.testBit 0 } }) ∧
    exec (.evtHeadWrite v) s = .next (s.withDev fun d => { d with evt := { d.evt with head := v } })) ∧
  (∀ s : State, s.dev.evt.buffer = [] → exec .eventRingWrite s = .next s) ∧
  (∀ (s : State) (r : Rec) (rest : List Rec), s.dev.evt.buffer = r :: rest →
    (s.dev.evtRoom = 0 → exec .eventRingWrite s = .next s) ∧
    (s.dev.evtRoom ≠ 0 →
      let e := s.dev.evt
      let place := bits e.ring.toNat 63 12 * 4096 + e.tail.toNat % e.size * 64
      ∃ t, exec .eventRingWrite s = .next t ∧ t.mem = s.mem ∧ t.dev.evt.buffer = rest ∧
        t.dev.evt.tail = e.tail + 1 ∧ t.dev.evt.lostBefore = false ∧
        Output.hostWrite place (r.bytes e.lostBefore (e.tail.toNat / e.size % 2 == 0)) ∈ t.dev.out)) ∧
  (∀ s : State,
    exec (.busMasterEnable false) s =
      .next (s.withDev fun d => { d with pcie := { d.pcie with busMaster := false } }) ∧
    ∃ t, exec (.busMasterEnable true) s = .next t ∧ t.mem = s.mem ∧ t.dev.pcie.busMaster = true ∧
      ∀ v, NSet.has s.dev.pcie.pba v = true → NSet.has s.dev.pcie.unmasked v = true →
        NSet.has t.dev.pcie.pba v = false ∧ Output.msix v ∈ t.dev.out)

/-- READ_REG, READ_EVENT, MCTP_CONTROL, PLDM and SPDM (R437 to R439): with 48 V the registers and the records that the
controller may read are answered, in 4 or 8 bytes, others are not, and an unpowered package is not ready but for the
registers that the controller keeps; without 48 V nothing answers; an answer by another standard is some answer (a free
value, log entry 3). -/
def Obligations.ManagementAnswers : Prop :=
  (∀ (s : State) (o n i : Nat) (q : List Byte), s.dev.start.standby = false →
    exec (.readReg o n) s = .next s ∧ exec (.readEvent i) s = .next s ∧ exec (.mctpControl q) s = .next s ∧
    exec (.pldm q) s = .next s ∧ exec (.spdm q) s = .next s) ∧
  ∀ s : State, s.dev.start.standby = true →
    (∀ o, (3 ≤ s.dev.start.step ∨ mgmtStandby o = true) → o % 4 = 0 → mgmtReadable o = true →
      exec (.readReg o 4) s = .next (s.withDev fun d => d.emit (.regAnswer (some (s.dev.word o))))) ∧
    (∀ o, 3 ≤ s.dev.start.step → o % 8 = 0 → mgmtReadable o = true → mgmtReadable (o + 4) = true →
      exec (.readReg o 8) s = .next (s.withDev fun d =>
        d.emit (.regAnswer (some (s.dev.word o + 2 ^ 32 * s.dev.word (o + 4)))))) ∧
    (∀ o n, 3 ≤ s.dev.start.step → (mgmtReadable o = false ∨ n ≠ 4 ∧ n ≠ 8 ∨ o % n ≠ 0) →
      exec (.readReg o n) s = .next (s.withDev fun d => d.emit (.regAnswer none))) ∧
    (∀ o n i, s.dev.start.step < 3 → mgmtStandby o = false →
      exec (.readReg o n) s = .next (s.withDev fun d => d.emit .notReady) ∧
      exec (.readEvent i) s = .next (s.withDev fun d => d.emit .notReady)) ∧
    (∀ i, 3 ≤ s.dev.start.step → exec (.readEvent i) s = .next (s.withDev fun d =>
      d.emit (.eventAnswer (s.dev.evt.recent[i]?.map fun r => r.bytes false false)))) ∧
    (∀ req, ∃ a b c : List Byte,
      exec (.mctpControl req) s =
        .next (s.withDev fun d => Dev.emit { d with free := d.free + 1 } (.mctp (0x00 :: a))) ∧
      exec (.pldm req) s = .next (s.withDev fun d => Dev.emit { d with free := d.free + 1 } (.mctp (0x01 :: b))) ∧
      exec (.spdm req) s = .next (s.withDev fun d => Dev.emit { d with free := d.free + 1 } (.mctp (0x05 :: c))))

/-- REVOKE, UNLOCK, LOCK and DBG_FUSE (R432, R435, R436): a token that fails revokes and unlocks nothing; one that
passes revokes its slots, or unlocks its scope; the nonce changes at every UNLOCK; a fused module is FUSED; more than one
request in a write changes nothing but RESULT, and none before BAR0 serves BOOT_CTRL does anything. -/
def Obligations.KeysAndDebug : Prop :=
  (∀ (s : State) (v : BitVec 32), s.dev.start.step < 4 → exec (.revoke v) s = .next s ∧ exec (.unlock v) s = .next s ∧
    exec (.lock v) s = .next s ∧ exec (.dbgFuse v) s = .next s) ∧
  ∀ s : State, 4 ≤ s.dev.start.step →
    (∀ v : BitVec 32, v.toNat % 16 ∉ [0, 1, 2, 4, 8] →
      exec (.revoke v) s = .next (s.withDev fun d => { d with boot := { d.boot with result := bootState } })) ∧
    (∃ t, exec (.revoke 1) s = .next t ∧ t.mem = s.mem ∧ t.dev.boot.done = true ∧
      t.dev.boot.result = s.work.revokeResult ∧
      t.dev.boot.revoked = (if s.work.revokeResult = 0
        then s.dev.boot.revoked ||| BitVec.ofNat 4 (bits (numAt s.work.token 4 1) 3 0) else s.dev.boot.revoked)) ∧
    (∃ t, exec (.unlock 2) s = .next t ∧ t.mem = s.mem ∧ t.dev.boot.done = true ∧
      t.dev.boot.result = s.work.unlockResult ∧ t.dev.boot.nonceUse = s.dev.boot.nonceUse + 1 ∧
      (s.work.unlockResult = 0 → t.dev.boot.dbg = .unlocked ∧
        t.dev.boot.scope = bits (numAt s.work.token 4 1) 2 0) ∧
      (s.work.unlockResult ≠ 0 → t.dev.boot.dbg = s.dev.boot.dbg)) ∧
    (∃ t, exec (.lock 4) s = .next t ∧ t.mem = s.mem ∧ t.dev.boot.result = 0 ∧
      t.dev.boot.dbg = (if s.dev.boot.dbg = .unlocked then .locked else s.dev.boot.dbg)) ∧
    (∃ t, exec (.dbgFuse 8) s = .next t ∧ t.mem = s.mem ∧ t.dev.boot.result = 0 ∧ t.dev.boot.dbgFuse = true ∧
      t.dev.boot.dbg = .fused)

/-- SWEEP_FULL, SWEEP_ITEM, SWEEP_POST and SWEEP_URGENT (R373 to R379, R383): a full pass starts only while every stream is
DISABLED; an item notes its pieces and its completion with the lap; a test that is not urgent waits while a heat holds an engine of its core;
a failure shows in SWP_STATUS and fences the core or drops the lane; an item overdue by 512 laps is posted at priority 0,
and one posted at priority 7 becomes urgent at an effective edge, with its record. -/
def Obligations.SweepItems : Prop :=
  (∀ s : State, 6 ≤ s.dev.start.step →
    (s.dev.allDisabled = true → ∃ t, exec .sweepFull s = .next t ∧ t.mem = s.mem ∧ t.dev.swp.full = true ∧
      t.dev.swp.urgentSeen = true) ∧
    (s.dev.allDisabled = false → exec .sweepFull s = .next (s.withDev fun d => d.streamConfig 0xC800))) ∧
  (∀ (s : State) (i : SweepItem), s.dev.sweepMay i = true →
    (∃ t, exec (.sweepItem i .piece) s = .next t ∧ t.mem = s.mem ∧
      t.dev.item (sweepKey i) = { s.dev.item (sweepKey i) with
        pieces := (s.dev.item (sweepKey i)).pieces + 1, last := s.dev.lap.count + 1 }) ∧
    (∃ t, exec (.sweepItem i .complete) s = .next t ∧ t.mem = s.mem ∧
      t.dev.item (sweepKey i) = { Item.zero with lap := s.dev.lap.count + 1, doneFull := s.dev.swp.full })) ∧
  (∀ (s : State) (i : SweepItem) (r : SweepResult), s.dev.sweepMay i = false → exec (.sweepItem i r) s = .next s) ∧
  (∀ (s : State) (c : Fin 128) (p : Fin 17) (q : Fin 16) (l : Fin 8),
    (s.dev.sweepMay (.engine c p) = true →
      exec (.sweepItem (.engine c p) .fail) s = .next (s.withDev fun d => d.coreFail c.val p.val)) ∧
    (s.dev.sweepMay (.pond c p) = true →
      exec (.sweepItem (.pond c p) .fail) s = .next (s.withDev fun d => d.coreFail c.val p.val)) ∧
    exec (.sweepItem (.margin q l) .fail) s = .next (s.withDev fun d => (d.sweepFail).dropLane q.val l.val true)) ∧
  (∀ (s : State) (i : SweepItem), let x := s.dev.item (sweepKey i)
    (x.posted = false → s.dev.overdue (sweepKey i) = true →
      ∃ t, exec (.sweepPost i) s = .next t ∧ t.mem = s.mem ∧
        t.dev.item (sweepKey i) = { x with posted := true, prio := 0, age := 0 }) ∧
    ((x.posted = true ∨ s.dev.overdue (sweepKey i) = false) → exec (.sweepPost i) s = .next s)) ∧
  (∀ (s : State) (i : SweepItem), let x := s.dev.item (sweepKey i)
    let due := x.posted = true ∧ x.prio = 7 ∧ x.urgent = false ∧ sweepKind i ≠ 3 ∧ s.dev.lap.cycle = 0 ∧
      s.dev.lap.held = false
    (due → ∃ t, exec (.sweepUrgent i) s = .next t ∧ t.mem = s.mem ∧
      t.dev.item (sweepKey i) = { x with urgent := true } ∧ t.dev.swp.urgentSeen = true ∧
      t.dev.evt.seq = s.dev.evt.seq + 1) ∧
    (¬ due → exec (.sweepUrgent i) s = .next s))

/-! ### Power, cooling, pins and start-up (R440 to R486) -/

/-- SENSOR_SAMPLE, HARDWARE_TRIP, REGULATION_FAULT and CONDITION_CLEAR (R447 to R450, R453): the registers show the
sample, every condition takes its next value, and what the conditions ask for is in force; the trip and a rail out of
regulation stop the package at once; a condition that has been clear for its second is gone. -/
def Obligations.ThrottleLadder : Prop :=
  (∀ (s : State) (r : Sensors), s.dev.start.standby = true →
    ∃ t, exec (.sensorSample r) s = .next t ∧ t.mem = s.mem ∧
      t.dev.pwr.vinMv = r.vinMv ∧ t.dev.pwr.pinW = r.pinW ∧ t.dev.pwr.inlet = r.inlet ∧ t.dev.pwr.outlet = r.outlet ∧
      t.dev.pwr.flow = (if r.reverse then 0 else r.flow) ∧ t.dev.pwr.leak = r.leak ∧ t.dev.pwr.hottest = r.hottest ∧
      t.dev.pwr.die = r.die.val ∧
      (∀ x ∈ s.dev.condsNext r, t.dev.cond x.1 = x.2) ∧
      t.dev.prm.capEighths = t.dev.level.1 ∧ t.dev.pwr.clockNext = t.dev.level.2.1 ∧ t.dev.pwr.rung = t.dev.level.2.2) ∧
  (∀ (s : State) (rail : Fin 13), 1 ≤ s.dev.pwr.state → s.dev.pwr.state ≤ 5 → s.dev.pwr.rung < 3 →
    (∀ k, k < 8 → (s.dev.cond k).rung ≤ 3) →
    let stops := fun (o : Host.Outcome State Fault Refusal) => ∃ t, o = .next t ∧ t.mem = s.mem ∧
      t.dev.pwr.state = 5 ∧ t.dev.pwr.rung = 3 ∧ t.dev.prm.capEighths = 0 ∧ t.dev.start.stopping = true ∧
      t.dev.anyRunning = false
    stops (exec .hardwareTrip s) ∧ stops (exec (.regulationFault rail) s)) ∧
  (∀ (s : State) (c : Cond), (s.dev.cond (condNum c)).rung ≠ 0 → c ≠ .sensor → 1001 ≤ (s.dev.cond (condNum c)).safe →
    s.dev.start.edge = false →
    ∃ t, exec (.conditionClear c) s = .next t ∧ t.mem = s.mem ∧ t.dev.cond (condNum c) = .zero)

/-- FEED_ID_SAMPLE, REVERSE_INPUT, CAGE_SUPPLY_FAULT, CAGE_REFIT, CAGE_FAULT_CLEAR, MGMT_CONTENTION, CONTENTION_RECHECK
and PWR_STOP (R458, R459, R462, R467, R469, R484): what the connectors and the host's power writes leave. -/
def Obligations.ConnectorsAndPins : Prop :=
  ∀ s : State,
    (∀ code : BitVec 8, s.dev.start.standby = true →
      ∃ t, exec (.feedIdSample code) s = .next t ∧ t.mem = s.mem ∧
        (code = s.dev.pwr.feedLast → 15 ≤ s.dev.pwr.feedRun →
          t.dev.pwr.feed = code ∧ t.dev.pwr.feedValid = (code != 0)) ∧
        (code ≠ s.dev.pwr.feedLast → t.dev.pwr.feed = s.dev.pwr.feed ∧ t.dev.pwr.feedRun = 1)) ∧
    (s.dev.start.standby = false → exec .reverseInput s =
      .next (s.withDev fun d => { d with pwr := { d.pwr with reversed := true, revFlag := true } })) ∧
    (∀ q : Fin 16, 1 ≤ s.dev.pwr.state → s.dev.pwr.state ≤ 5 →
      (∃ t, exec (.cageSupplyFault q) s = .next t ∧ t.mem = s.mem ∧ (t.dev.port q.val).state = .down ∧
        t.dev.pwr.cageFault = s.dev.pwr.cageFault ||| BitVec.ofNat 16 (2 ^ q.val)) ∧
      (∃ t, exec (.cageRefit q) s = .next t ∧ t.mem = s.mem ∧
        t.dev.pwr.cageFault = s.dev.pwr.cageFault &&& ~~~(BitVec.ofNat 16 (2 ^ q.val)))) ∧
    (∀ m : BitVec 16, 4 ≤ s.dev.start.step → ∃ t, exec (.cageFaultClear m) s = .next t ∧ t.mem = s.mem ∧
      ∀ b, b < 16 → t.dev.pwr.cageFault.toNat.testBit b =
        (s.dev.pwr.cageFault.toNat.testBit b && (!m.toNat.testBit b || s.dev.justSet 0x6014 (16 + b)))) ∧
    (∀ pin : Fin 21, s.dev.start.standby = true →
      (drivenPin pin.val = true → ∃ t, exec (.mgmtContention pin) s = .next t ∧ t.mem = s.mem ∧
        t.dev.pwr.contention = true ∧ (pin ≠ 17 → NSet.has t.dev.pwr.released pin.val = true)) ∧
      (NSet.has s.dev.pwr.released pin.val = true →
        ∃ t, exec (.contentionRecheck pin true) s = .next t ∧ t.mem = s.mem ∧
          NSet.has t.dev.pwr.released pin.val = false)) ∧
    (∀ v : BitVec 32, 4 ≤ s.dev.start.step → v.toNat.testBit 0 = true → 1 ≤ s.dev.pwr.state → s.dev.pwr.state ≤ 4 →
      ∃ t, exec (.pwrStop v) s = .next t ∧ t.mem = s.mem ∧ t.dev.pwr.state = 5 ∧ t.dev.mar = s.dev.mar)

/-- STANDBY_POWER_ON, COLD_START, MAIN_PATH_CHECK, STARTUP_STEP_END, PERST_RELEASE, BOOT_FAILURE and
BOOT_SLOT_REWRITE_DONE (R458, R466, R472 to R478): the steps in their order, what ends each, and where start-up stops;
a cold start leaves every byte 0, every slot EMPTY and the replacement request clear, and keeps fuses and keys. -/
def Obligations.StartUpSteps : Prop :=
  ∀ s : State,
    (∀ a : BitVec 3, s.dev.start.standby = false →
      ∃ t, exec (.standbyPowerOn a false) s = .next t ∧ t.mem = s.mem ∧ t.dev.start.standby = true ∧
        t.dev.start.step = 2 ∧ t.dev.pwr.smbus = 0x58 + a.toNat ∧ t.dev.pwr.revSeen = s.dev.pwr.revFlag) ∧
    (s.dev.start.standby = true → s.dev.start.pwrEn = false → s.dev.pwr.state = 0 →
      ∃ t, exec .coldStart s = .next t ∧ (∀ a, a < 2 * pondBase → t.mem.byte a = 0) ∧
        (∀ g, t.dev.isFull g = false ∧ t.dev.isClaimed g = false) ∧ t.dev.start.step = 2 ∧ t.dev.pwr.state = 1 ∧
        t.dev.flt.repl = 0 ∧ t.dev.flt.replPin = false ∧ t.dev.start.stoppedAt = 0 ∧ t.dev.start.lastReset = 0 ∧
        t.dev.boot.keys = s.dev.boot.keys ∧ t.dev.boot.revoked = s.dev.boot.revoked ∧ t.dev.lap.count = 0) ∧
    (∀ r : Sensors, s.dev.start.step = 2 → s.dev.start.pwrEn = true → s.dev.pwr.mainPath = false →
      ∃ t, exec (.mainPathCheck r) s = .next t ∧ t.mem = s.mem ∧ t.dev.pwr.mainPath = (holdMask r == 0) ∧
        t.dev.pwr.state = if holdMask r = 0 then 1 else 0) ∧
    (1 ≤ s.dev.pwr.state → s.dev.pwr.state ≤ 4 →
      let n := s.dev.start.step
      let ends := fun (e : StepEnd) (m : Nat) =>
        ∃ t, exec (.startupStepEnd e) s = .next t ∧ t.mem = s.mem ∧ t.dev.start.step = m
      (n = 2 → s.dev.pwr.mainPath = true → ends .done (if s.dev.start.perst then 3 else 4)) ∧
      (n = 4 → ends (.booted false false false) 5 ∧ ends (.booted true true false) 5) ∧
      (n = 5 → ends .done 6) ∧ (n = 6 → ends .done 7) ∧ (n = 7 → s.dev.swp.full = false → ends .done 8) ∧
      (n = 8 → s.dev.live.image ≠ [] → ends .done 9) ∧ (n = 9 → s.dev.dom.state ≠ .linking → ends .done 10) ∧
      (n = 10 → s.dev.dom.state = .active → ends .done 0xF) ∧
      (∀ k : Fin 20, n = 6 → ∃ t, exec (.startupStepEnd (.stackFailed k)) s = .next t ∧ t.dev.pwr.state = 0 ∧
        t.dev.start.stoppedAt = 6) ∧
      (n = 4 → ∃ t, exec .bootFailure s = .next t ∧ t.dev.pwr.state = 0 ∧ t.dev.start.stoppedAt = 4 ∧
        t.dev.flt.repl.toNat.testBit 9 = true)) ∧
    (∀ w : Fin 3, ∃ t, exec (.perstRelease w) s = .next t ∧ t.mem = s.mem ∧ t.dev.start.perst = false ∧
      t.dev.pcie.width = (if w.val = 0 then 0 else 8 * w.val) ∧
      (s.dev.start.step = 3 → s.dev.pwr.state = 1 → t.dev.start.step = 4)) ∧
    (5 ≤ s.dev.start.step → s.dev.boot.fallback = true → s.dev.boot.slotB = true → s.dev.boot.flashA = false →
      (∃ t, exec (.bootSlotRewriteDone false true) s = .next t ∧ t.mem = s.mem ∧ t.dev.boot.flashA = true) ∧
      (∃ t, exec (.bootSlotRewriteDone false false) s = .next t ∧ t.mem = s.mem ∧ t.dev.boot.flashA = false ∧
        t.dev.flt.repl.toNat.testBit 9 = true))

/-- INPUT_LOSS, ORDERLY_STOP, STOP_COMPLETE, WARM_RESET and FUNCTION_RESET (R450, R479 to R483): what each leaves, and
what it keeps. -/
def Obligations.StopsAndResets : Prop :=
  ∀ s : State,
    (∃ t, exec .inputLoss s = .next t ∧ (∀ a, a < 2 * pondBase → t.mem.byte a = 0) ∧ t.dev.start = .reset ∧
      t.dev.pwr = { Pwr.reset with revFlag := s.dev.pwr.revFlag } ∧ t.dev.boot.keys = s.dev.boot.keys ∧
      t.dev.boot.revoked = s.dev.boot.revoked ∧ t.dev.boot.dbgFuse = s.dev.boot.dbgFuse) ∧
    (∃ t, exec .orderlyStop s = .next t ∧ t.mem = s.mem ∧ t.dev.start.pwrEn = false ∧ t.dev.start.edge = false ∧
      t.dev.pwr.state = (if 1 ≤ s.dev.pwr.state ∧ s.dev.pwr.state ≤ 4 then 5 else s.dev.pwr.state)) ∧
    (s.dev.stopDone = true → s.dev.start.edge = false →
      ∃ t, exec .stopComplete s = .next t ∧ (∀ a, a < 2 * pondBase → t.mem.byte a = 0) ∧
        t.dev.pwr.state = (if s.dev.pwr.rung = 3 then 6 else 0) ∧ t.dev.start.step = 0 ∧ t.dev.mar.heats = []) ∧
    (s.dev.stopDone = false → exec .stopComplete s = .next s) ∧
    (s.dev.warmable = true →
      ∃ t, exec .warmReset s = .next t ∧ (∀ a, a < 2 * pondBase → t.mem.byte a = 0) ∧ t.dev.mar.heats = [] ∧
        t.dev.start.step = 3 ∧ t.dev.start.perst = true ∧ t.dev.start.lastReset = 1 ∧ t.dev.pwr.state = 1 ∧
        t.dev.flt = s.dev.flt ∧ t.dev.boot.revoked = s.dev.boot.revoked) ∧
    (∀ k : FuncReset, 3 ≤ s.dev.start.step → 1 ≤ s.dev.pwr.state → s.dev.pwr.state ≤ 5 →
      ∃ t, exec (.functionReset k) s = .next t ∧ t.mem = s.mem ∧ (∀ c n, n < 3 → (t.dev.stream c n).enable = false) ∧
        t.dev.pcie = { Pcie.reset with width := s.dev.pcie.width } ∧ t.dev.evt.ring = 0 ∧ t.dev.evt.enable = false ∧
        t.dev.start.lastReset = 2)

end Statements
end

