-- ==== Sys2Proof/Laws/Maps.lean ====
section
/-! SUPPORT. Laws of the sparse maps: a read after a write, and the canonical form. -/

namespace Sys2Proof.Machine

/-! ### Reading after writing -/

theorem AMap.get_erase_same {α : Type} (d : α) (m : AMap α) (k : Nat) :
    AMap.get d (AMap.erase m k) k = d := by
  induction m with
  | nil => rfl
  | cons x m ih =>
    by_cases h : x.1 = k
    · simpa [AMap.erase, h] using ih
    · simpa [AMap.erase, AMap.get, h] using ih

theorem AMap.get_erase_other {α : Type} (d : α) (m : AMap α) {k j : Nat} (h : j ≠ k) :
    AMap.get d (AMap.erase m k) j = AMap.get d m j := by
  induction m with
  | nil => rfl
  | cons x m ih =>
    obtain ⟨i, v⟩ := x
    by_cases hk : i = k
    · subst hk; simpa [AMap.erase, AMap.get, Ne.symm h] using ih
    · simp only [AMap.erase, if_neg hk, AMap.get, ih]

theorem AMap.get_insert_same {α : Type} (d : α) (m : AMap α) (k : Nat) (v : α) :
    AMap.get d (AMap.insert m k v) k = v := by
  induction m with
  | nil => simp [AMap.insert, AMap.get]
  | cons x m ih =>
    obtain ⟨j, w⟩ := x
    simp only [AMap.insert]
    split
    · simp [AMap.get]
    · split
      · simp [AMap.get]
      · rename_i h; simp [AMap.get, Ne.symm h, ih]

theorem AMap.get_insert_other {α : Type} (d : α) (m : AMap α) {k j : Nat} (v : α) (h : j ≠ k) :
    AMap.get d (AMap.insert m k v) j = AMap.get d m j := by
  induction m with
  | nil => simp [AMap.insert, AMap.get, Ne.symm h]
  | cons x m ih =>
    obtain ⟨i, w⟩ := x
    simp only [AMap.insert]
    split
    · simp [AMap.get, Ne.symm h]
    · split
      · rename_i e; subst e; simp [AMap.get, Ne.symm h]
      · by_cases e : i = j <;> simp [AMap.get, e, ih]

/-- A key reads as what was written to it. -/
@[simp] theorem AMap.get_set_same {α : Type} [DecidableEq α] (d : α) (m : AMap α) (k : Nat) (v : α) :
    AMap.get d (AMap.set d m k v) k = v := by
  unfold AMap.set
  split
  · rename_i h; rw [AMap.get_erase_same, h]
  · exact AMap.get_insert_same d m k v

/-- A write leaves every other key alone. -/
theorem AMap.get_set_other {α : Type} [DecidableEq α] (d : α) (m : AMap α) {k j : Nat} (v : α) (h : j ≠ k) :
    AMap.get d (AMap.set d m k v) j = AMap.get d m j := by
  unfold AMap.set
  split
  · exact AMap.get_erase_other d m h
  · exact AMap.get_insert_other d m v h

theorem AMap.get_set {α : Type} [DecidableEq α] (d : α) (m : AMap α) (k j : Nat) (v : α) :
    AMap.get d (AMap.set d m k v) j = if j = k then v else AMap.get d m j := by
  split
  · rename_i h; subst h; simp
  · rename_i h; exact AMap.get_set_other d m v h

theorem AMap.get_upd {α : Type} [DecidableEq α] (d : α) (m : AMap α) (k j : Nat) (f : α → α) :
    AMap.get d (AMap.upd d m k f) j = if j = k then f (AMap.get d m k) else AMap.get d m j :=
  AMap.get_set d m k j _

/-! ### Sets -/

theorem NSet.has_add (s : NSet) (k j : Nat) : NSet.has (NSet.add s k) j = (decide (j = k) || NSet.has s j) := by
  unfold NSet.has NSet.add
  rw [AMap.get_set]
  by_cases h : j = k <;> simp [h]

theorem NSet.has_del (s : NSet) (k j : Nat) : NSet.has (NSet.del s k) j = (!decide (j = k) && NSet.has s j) := by
  unfold NSet.has NSet.del
  rw [AMap.get_set]
  by_cases h : j = k <;> simp [h]

/-! ### The canonical form -/

theorem AMap.okFrom_mono {α : Type} [DecidableEq α] (d : α) (m : AMap α) {a b : Nat} (h : a ≤ b) :
    AMap.okFrom d b m = true → AMap.okFrom d a m = true := by
  cases m with
  | nil => intro; rfl
  | cons x m =>
    simp only [AMap.okFrom, Bool.and_eq_true, decide_eq_true_eq]
    rintro ⟨⟨h1, h2⟩, h3⟩
    exact ⟨⟨by omega, h2⟩, h3⟩

theorem AMap.okFrom_erase {α : Type} [DecidableEq α] (d : α) (m : AMap α) (k : Nat) :
    ∀ a, AMap.okFrom d a m = true → AMap.okFrom d a (AMap.erase m k) = true := by
  induction m with
  | nil => intro a _; rfl
  | cons x m ih =>
    intro a h
    simp only [AMap.okFrom, Bool.and_eq_true, decide_eq_true_eq] at h
    simp only [AMap.erase]
    split
    · exact AMap.okFrom_mono d _ (by omega) (ih _ h.2)
    · simp only [AMap.okFrom, Bool.and_eq_true, decide_eq_true_eq]
      exact ⟨h.1, ih _ h.2⟩

theorem AMap.okFrom_insert {α : Type} [DecidableEq α] (d : α) (m : AMap α) (k : Nat) (v : α) (hv : v ≠ d) :
    ∀ a, a ≤ k → AMap.okFrom d a m = true → AMap.okFrom d a (AMap.insert m k v) = true := by
  induction m with
  | nil => intro a ha _; simp [AMap.insert, AMap.okFrom, ha, hv]
  | cons x m ih =>
    obtain ⟨j, w⟩ := x
    intro a ha h
    simp only [AMap.okFrom, Bool.and_eq_true, decide_eq_true_eq] at h
    simp only [AMap.insert]
    split
    · rename_i hk
      simp only [AMap.okFrom, Bool.and_eq_true, decide_eq_true_eq]
      exact ⟨⟨ha, hv⟩, ⟨by omega, h.1.2⟩, h.2⟩
    · split
      · rename_i e; subst e
        simp only [AMap.okFrom, Bool.and_eq_true, decide_eq_true_eq]
        exact ⟨⟨ha, hv⟩, h.2⟩
      · simp only [AMap.okFrom, Bool.and_eq_true, decide_eq_true_eq]
        exact ⟨h.1, ih _ (by omega) h.2⟩

/-- A write keeps the canonical form. -/
theorem AMap.wf_set {α : Type} [DecidableEq α] (d : α) (m : AMap α) (k : Nat) (v : α) (h : AMap.wf d m = true) :
    AMap.wf d (AMap.set d m k v) = true := by
  unfold AMap.set
  split
  · exact AMap.okFrom_erase d m k 0 h
  · rename_i hv; exact AMap.okFrom_insert d m k v hv 0 (Nat.zero_le _) h

theorem AMap.okFrom_filter {α : Type} [DecidableEq α] (d : α) (p : Nat × α → Bool) (m : AMap α) :
    ∀ a, AMap.okFrom d a m = true → AMap.okFrom d a (m.filter p) = true := by
  induction m with
  | nil => intro a _; rfl
  | cons x m ih =>
    intro a h
    simp only [AMap.okFrom, Bool.and_eq_true, decide_eq_true_eq] at h
    rw [List.filter_cons]
    split
    · simp only [AMap.okFrom, Bool.and_eq_true, decide_eq_true_eq]
      exact ⟨h.1, ih _ h.2⟩
    · exact AMap.okFrom_mono d _ (by omega) (ih _ h.2)

/-- Entries removed by a test leave the canonical form. -/
theorem AMap.wf_filter {α : Type} [DecidableEq α] (d : α) (p : Nat × α → Bool) (m : AMap α) (h : AMap.wf d m = true) :
    AMap.wf d (m.filter p) = true := AMap.okFrom_filter d p m 0 h

theorem NSet.wf_add (s : NSet) (k : Nat) (h : AMap.wf false s = true) : AMap.wf false (NSet.add s k) = true :=
  AMap.wf_set false s k true h

theorem NSet.wf_del (s : NSet) (k : Nat) (h : AMap.wf false s = true) : AMap.wf false (NSet.del s k) = true :=
  AMap.wf_set false s k false h

/-- What a filter on keys leaves reads as before, and the rest as unlisted. -/
theorem AMap.get_filter_key {α : Type} (d : α) (p : Nat → Bool) (m : AMap α) (k : Nat) :
    AMap.get d (m.filter fun x => p x.1) k = if p k then AMap.get d m k else d := by
  induction m with
  | nil => simp [AMap.get]
  | cons x m ih =>
    obtain ⟨j, v⟩ := x
    by_cases hj : p j <;> by_cases e : j = k
    · subst e; simp [hj, AMap.get]
    · simp [hj, AMap.get, e, ih]
    · subst e; simp [hj, ih]
    · simp [hj, AMap.get, e, ih]

end Sys2Proof.Machine
end

