-- ==== Sys2Proof/Laws/Memory.lean ====
section
/-! SUPPORT. Laws of memory: every operation keeps the canonical form, a read after a write gives what was
written, and a write leaves every other byte alone. -/

namespace Sys2Proof.Machine

/-! ### The canonical form -/

theorem writeCells_wf (d : List Byte) :
    ∀ (c : AMap Byte) (a : Nat), AMap.wf memInit c = true → AMap.wf memInit (writeCells c a d) = true := by
  induction d with
  | nil => intro c a h; exact h
  | cons b bs ih => intro c a h; exact ih _ _ (AMap.wf_set _ _ _ _ h)

theorem delRange_wf (n : Nat) :
    ∀ (s : NSet) (k : Nat), AMap.wf false s = true → AMap.wf false (NSet.delRange s k n) = true := by
  induction n with
  | zero => intro s k h; exact h
  | succ n ih => intro s k h; exact ih _ _ (NSet.wf_del _ _ h)

theorem copyCells_wf (l : AMap Byte) (src dst len : Nat) :
    ∀ c : AMap Byte, AMap.wf memInit c = true → AMap.wf memInit (copyCells l src dst len c) = true := by
  induction l with
  | nil => intro c h; exact h
  | cons x l ih =>
    intro c h
    simp only [copyCells]
    split
    · exact ih _ (AMap.wf_set _ _ _ _ h)
    · exact ih _ h

theorem copyWords_wf (l : NSet) (src dst len : Nat) :
    ∀ s : NSet, AMap.wf false s = true → AMap.wf false (copyWords l src dst len s) = true := by
  induction l with
  | nil => intro s h; exact h
  | cons x l ih =>
    intro s h
    simp only [copyWords]
    split
    · exact ih _ (NSet.wf_add _ _ h)
    · exact ih _ h

theorem moveCells_wf (f : Nat → Nat) (c : AMap Byte) : AMap.wf memInit (moveCells f c) = true := by
  induction c with
  | nil => rfl
  | cons x l ih => exact AMap.wf_set _ _ _ _ ih

theorem moveWords_wf (f : Nat → Nat) (s : NSet) : AMap.wf false (moveWords f s) = true := by
  induction s with
  | nil => rfl
  | cons x l ih =>
    simp only [moveWords]
    split
    · exact NSet.wf_add _ _ ih
    · exact ih

theorem Mem.wf_iff (m : Mem) : m.wf = true ↔
    AMap.wf memInit m.cells = true ∧ AMap.wf false m.hbmPoison = true ∧ AMap.wf false m.pondPoison = true := by
  simp [Mem.wf, and_assoc]

/-- Every memory operation keeps the canonical form. -/
theorem Mem.apply_wf (m : Mem) (o : MemOp) (h : m.wf = true) : (m.apply o).wf = true := by
  rw [Mem.wf_iff] at h ⊢
  obtain ⟨hc, hh, hp⟩ := h
  cases o with
  | store a d =>
    refine ⟨writeCells_wf _ _ _ hc, ?_, ?_⟩ <;> simp only [Mem.apply] <;> split <;>
      first | exact delRange_wf _ _ _ ‹_› | assumption
  | poisonHbm k => exact ⟨hc, NSet.wf_add _ _ hh, hp⟩
  | poisonPond k => exact ⟨hc, hh, NSet.wf_add _ _ hp⟩
  | copy s d n =>
    exact ⟨copyCells_wf _ _ _ _ _ (AMap.wf_filter _ _ _ hc), copyWords_wf _ _ _ _ _ (AMap.wf_filter _ _ _ hh), hp⟩
  | remark l => exact ⟨moveCells_wf _ _, moveWords_wf _ _, hp⟩
  | clear a n => exact ⟨AMap.wf_filter _ _ _ hc, AMap.wf_filter _ _ _ hh, AMap.wf_filter _ _ _ hp⟩

theorem Mem.applyAll_wf (l : List MemOp) : ∀ m : Mem, m.wf = true → (m.applyAll l).wf = true := by
  induction l with
  | nil => intro m h; exact h
  | cons o l ih => intro m h; exact ih _ (Mem.apply_wf m o h)

theorem Mem.applyAll_append (l k : List MemOp) : ∀ m : Mem, m.applyAll (l ++ k) = (m.applyAll l).applyAll k := by
  induction l with
  | nil => intro m; rfl
  | cons o l ih => intro m; exact ih _

/-! ### Reading after writing -/

/-- Bytes written from `a` on read back, and every other byte stays. -/
theorem get_writeCells (d : List Byte) : ∀ (c : AMap Byte) (a x : Nat),
    AMap.get memInit (writeCells c a d) x =
      if a ≤ x ∧ x < a + d.length then d.getD (x - a) memInit else AMap.get memInit c x := by
  induction d with
  | nil => intro c a x; simp [writeCells]
  | cons b bs ih =>
    intro c a x
    simp only [writeCells, ih, List.length_cons]
    by_cases h1 : a + 1 ≤ x ∧ x < a + 1 + bs.length
    · have e : x - a = (x - (a + 1)) + 1 := by omega
      rw [if_pos h1, if_pos (by omega), e]
      simp
    · rw [if_neg h1, AMap.get_set]
      by_cases h2 : x = a
      · subst h2; simp
      · rw [if_neg h2, if_neg (by omega)]

theorem Mem.byte_store (m : Mem) (a x : Nat) (d : List Byte) :
    (m.apply (.store a d)).byte x =
      if a ≤ x ∧ x < a + d.length then d.getD (x - a) memInit else m.byte x := get_writeCells d m.cells a x

@[simp] theorem Mem.byte_poisonHbm (m : Mem) (k x : Nat) : (m.apply (.poisonHbm k)).byte x = m.byte x := rfl
@[simp] theorem Mem.byte_poisonPond (m : Mem) (k x : Nat) : (m.apply (.poisonPond k)).byte x = m.byte x := rfl

/-- A cleared range reads as unlisted memory does, and every other byte stays. -/
theorem Mem.byte_clear (m : Mem) (a n x : Nat) :
    (m.apply (.clear a n)).byte x = if a ≤ x ∧ x < a + n then memInit else m.byte x := by
  simp only [Mem.byte, Mem.apply, keepCells]
  rw [AMap.get_filter_key memInit (fun k => !(decide (a ≤ k) && decide (k < a + n)))]
  by_cases h : a ≤ x ∧ x < a + n
  · simp [h]
  · simp only [h, if_false, Bool.not_and]
    rw [if_pos]
    simp only [Bool.or_eq_true, Bool.not_eq_true', decide_eq_false_iff_not]
    omega

/-! ### The working record -/

@[simp] theorem Wk.mem_up (w : Wk) (f : Dev → Dev) : (w.up f).mem = w.mem := rfl
@[simp] theorem Wk.dev_up (w : Wk) (f : Dev → Dev) : (w.up f).dev = f w.dev := rfl
@[simp] theorem Wk.dev_op (w : Wk) (o : MemOp) : (w.op o).dev = w.dev := rfl

@[simp] theorem Wk.mem_op (w : Wk) (o : MemOp) : (w.op o).mem = w.mem.apply o := by
  simp [Wk.mem, Wk.op, Mem.applyAll_append, Mem.applyAll]

@[simp] theorem Wk.dev_put (w : Wk) (a : Nat) (d : List Byte) : (w.put a d).dev = w.dev := by
  unfold Wk.put; split <;> rfl

theorem Wk.byte_put (w : Wk) (a x : Nat) (d : List Byte) :
    (w.put a d).mem.byte x = if a ≤ x ∧ x < a + d.length then d.getD (x - a) memInit else w.mem.byte x := by
  unfold Wk.put
  split
  · rename_i h
    have : d = [] := by simpa using h
    subst this
    simp only [List.length_nil]
    rw [if_neg (by omega)]
  · simp only [Wk.mem_op, Mem.byte_store]

end Sys2Proof.Machine
end

