-- ==== Sys2Proof/Laws/State.lean ====
section
/-! SUPPORT. What the small updates of the block leave alone: one lemma for each field and update, all true by
unfolding, so that no later proof unfolds a record update. -/

namespace Sys2Proof.Machine

/-! ### `Dev.emit` -/

@[simp] theorem Dev.emit_now (d : Dev) (o : Output) : (d.emit o).now = d.now := rfl
@[simp] theorem Dev.emit_moduleId (d : Dev) (o : Output) : (d.emit o).moduleId = d.moduleId := rfl
@[simp] theorem Dev.emit_serialNo (d : Dev) (o : Output) : (d.emit o).serialNo = d.serialNo := rfl
@[simp] theorem Dev.emit_dateCode (d : Dev) (o : Output) : (d.emit o).dateCode = d.dateCode := rfl
@[simp] theorem Dev.emit_lap (d : Dev) (o : Output) : (d.emit o).lap = d.lap := rfl
@[simp] theorem Dev.emit_img (d : Dev) (o : Output) : (d.emit o).img = d.img := rfl
@[simp] theorem Dev.emit_streams (d : Dev) (o : Output) : (d.emit o).streams = d.streams := rfl
@[simp] theorem Dev.emit_mar (d : Dev) (o : Output) : (d.emit o).mar = d.mar := rfl
@[simp] theorem Dev.emit_prm (d : Dev) (o : Output) : (d.emit o).prm = d.prm := rfl
@[simp] theorem Dev.emit_hbm (d : Dev) (o : Output) : (d.emit o).hbm = d.hbm := rfl
@[simp] theorem Dev.emit_upd (d : Dev) (o : Output) : (d.emit o).upd = d.upd := rfl
@[simp] theorem Dev.emit_rly (d : Dev) (o : Output) : (d.emit o).rly = d.rly := rfl
@[simp] theorem Dev.emit_dom (d : Dev) (o : Output) : (d.emit o).dom = d.dom := rfl
@[simp] theorem Dev.emit_sec (d : Dev) (o : Output) : (d.emit o).sec = d.sec := rfl
@[simp] theorem Dev.emit_flt (d : Dev) (o : Output) : (d.emit o).flt = d.flt := rfl
@[simp] theorem Dev.emit_swp (d : Dev) (o : Output) : (d.emit o).swp = d.swp := rfl
@[simp] theorem Dev.emit_evt (d : Dev) (o : Output) : (d.emit o).evt = d.evt := rfl
@[simp] theorem Dev.emit_pcie (d : Dev) (o : Output) : (d.emit o).pcie = d.pcie := rfl
@[simp] theorem Dev.emit_boot (d : Dev) (o : Output) : (d.emit o).boot = d.boot := rfl
@[simp] theorem Dev.emit_pwr (d : Dev) (o : Output) : (d.emit o).pwr = d.pwr := rfl
@[simp] theorem Dev.emit_start (d : Dev) (o : Output) : (d.emit o).start = d.start := rfl
@[simp] theorem Dev.emit_ctx (d : Dev) (o : Output) : (d.emit o).ctx = d.ctx := rfl
@[simp] theorem Dev.emit_ctxGroup (d : Dev) (o : Output) : (d.emit o).ctxGroup = d.ctxGroup := rfl
@[simp] theorem Dev.emit_ctxRot (d : Dev) (o : Output) : (d.emit o).ctxRot = d.ctxRot := rfl
@[simp] theorem Dev.emit_sram (d : Dev) (o : Output) : (d.emit o).sram = d.sram := rfl
@[simp] theorem Dev.emit_latched (d : Dev) (o : Output) : (d.emit o).latched = d.latched := rfl
@[simp] theorem Dev.emit_free (d : Dev) (o : Output) : (d.emit o).free = d.free := rfl

/-! ### `Dev.setStream` -/

@[simp] theorem Dev.setStream_now (d : Dev) (c k : Nat) (f : Stream → Stream) : (d.setStream c k f).now = d.now := rfl
@[simp] theorem Dev.setStream_moduleId (d : Dev) (c k : Nat) (f : Stream → Stream) : (d.setStream c k f).moduleId = d.moduleId := rfl
@[simp] theorem Dev.setStream_serialNo (d : Dev) (c k : Nat) (f : Stream → Stream) : (d.setStream c k f).serialNo = d.serialNo := rfl
@[simp] theorem Dev.setStream_dateCode (d : Dev) (c k : Nat) (f : Stream → Stream) : (d.setStream c k f).dateCode = d.dateCode := rfl
@[simp] theorem Dev.setStream_lap (d : Dev) (c k : Nat) (f : Stream → Stream) : (d.setStream c k f).lap = d.lap := rfl
@[simp] theorem Dev.setStream_img (d : Dev) (c k : Nat) (f : Stream → Stream) : (d.setStream c k f).img = d.img := rfl
@[simp] theorem Dev.setStream_mar (d : Dev) (c k : Nat) (f : Stream → Stream) : (d.setStream c k f).mar = d.mar := rfl
@[simp] theorem Dev.setStream_prm (d : Dev) (c k : Nat) (f : Stream → Stream) : (d.setStream c k f).prm = d.prm := rfl
@[simp] theorem Dev.setStream_hbm (d : Dev) (c k : Nat) (f : Stream → Stream) : (d.setStream c k f).hbm = d.hbm := rfl
@[simp] theorem Dev.setStream_upd (d : Dev) (c k : Nat) (f : Stream → Stream) : (d.setStream c k f).upd = d.upd := rfl
@[simp] theorem Dev.setStream_rly (d : Dev) (c k : Nat) (f : Stream → Stream) : (d.setStream c k f).rly = d.rly := rfl
@[simp] theorem Dev.setStream_dom (d : Dev) (c k : Nat) (f : Stream → Stream) : (d.setStream c k f).dom = d.dom := rfl
@[simp] theorem Dev.setStream_sec (d : Dev) (c k : Nat) (f : Stream → Stream) : (d.setStream c k f).sec = d.sec := rfl
@[simp] theorem Dev.setStream_flt (d : Dev) (c k : Nat) (f : Stream → Stream) : (d.setStream c k f).flt = d.flt := rfl
@[simp] theorem Dev.setStream_swp (d : Dev) (c k : Nat) (f : Stream → Stream) : (d.setStream c k f).swp = d.swp := rfl
@[simp] theorem Dev.setStream_evt (d : Dev) (c k : Nat) (f : Stream → Stream) : (d.setStream c k f).evt = d.evt := rfl
@[simp] theorem Dev.setStream_pcie (d : Dev) (c k : Nat) (f : Stream → Stream) : (d.setStream c k f).pcie = d.pcie := rfl
@[simp] theorem Dev.setStream_boot (d : Dev) (c k : Nat) (f : Stream → Stream) : (d.setStream c k f).boot = d.boot := rfl
@[simp] theorem Dev.setStream_pwr (d : Dev) (c k : Nat) (f : Stream → Stream) : (d.setStream c k f).pwr = d.pwr := rfl
@[simp] theorem Dev.setStream_start (d : Dev) (c k : Nat) (f : Stream → Stream) : (d.setStream c k f).start = d.start := rfl
@[simp] theorem Dev.setStream_ctx (d : Dev) (c k : Nat) (f : Stream → Stream) : (d.setStream c k f).ctx = d.ctx := rfl
@[simp] theorem Dev.setStream_ctxGroup (d : Dev) (c k : Nat) (f : Stream → Stream) : (d.setStream c k f).ctxGroup = d.ctxGroup := rfl
@[simp] theorem Dev.setStream_ctxRot (d : Dev) (c k : Nat) (f : Stream → Stream) : (d.setStream c k f).ctxRot = d.ctxRot := rfl
@[simp] theorem Dev.setStream_sram (d : Dev) (c k : Nat) (f : Stream → Stream) : (d.setStream c k f).sram = d.sram := rfl
@[simp] theorem Dev.setStream_latched (d : Dev) (c k : Nat) (f : Stream → Stream) : (d.setStream c k f).latched = d.latched := rfl
@[simp] theorem Dev.setStream_out (d : Dev) (c k : Nat) (f : Stream → Stream) : (d.setStream c k f).out = d.out := rfl
@[simp] theorem Dev.setStream_free (d : Dev) (c k : Nat) (f : Stream → Stream) : (d.setStream c k f).free = d.free := rfl

/-! ### `Dev.setHeat` -/

@[simp] theorem Dev.setHeat_now (d : Dev) (h : HeatId) (f : Heat → Heat) : (d.setHeat h f).now = d.now := rfl
@[simp] theorem Dev.setHeat_moduleId (d : Dev) (h : HeatId) (f : Heat → Heat) : (d.setHeat h f).moduleId = d.moduleId := rfl
@[simp] theorem Dev.setHeat_serialNo (d : Dev) (h : HeatId) (f : Heat → Heat) : (d.setHeat h f).serialNo = d.serialNo := rfl
@[simp] theorem Dev.setHeat_dateCode (d : Dev) (h : HeatId) (f : Heat → Heat) : (d.setHeat h f).dateCode = d.dateCode := rfl
@[simp] theorem Dev.setHeat_lap (d : Dev) (h : HeatId) (f : Heat → Heat) : (d.setHeat h f).lap = d.lap := rfl
@[simp] theorem Dev.setHeat_img (d : Dev) (h : HeatId) (f : Heat → Heat) : (d.setHeat h f).img = d.img := rfl
@[simp] theorem Dev.setHeat_streams (d : Dev) (h : HeatId) (f : Heat → Heat) : (d.setHeat h f).streams = d.streams := rfl
@[simp] theorem Dev.setHeat_prm (d : Dev) (h : HeatId) (f : Heat → Heat) : (d.setHeat h f).prm = d.prm := rfl
@[simp] theorem Dev.setHeat_hbm (d : Dev) (h : HeatId) (f : Heat → Heat) : (d.setHeat h f).hbm = d.hbm := rfl
@[simp] theorem Dev.setHeat_upd (d : Dev) (h : HeatId) (f : Heat → Heat) : (d.setHeat h f).upd = d.upd := rfl
@[simp] theorem Dev.setHeat_rly (d : Dev) (h : HeatId) (f : Heat → Heat) : (d.setHeat h f).rly = d.rly := rfl
@[simp] theorem Dev.setHeat_dom (d : Dev) (h : HeatId) (f : Heat → Heat) : (d.setHeat h f).dom = d.dom := rfl
@[simp] theorem Dev.setHeat_sec (d : Dev) (h : HeatId) (f : Heat → Heat) : (d.setHeat h f).sec = d.sec := rfl
@[simp] theorem Dev.setHeat_flt (d : Dev) (h : HeatId) (f : Heat → Heat) : (d.setHeat h f).flt = d.flt := rfl
@[simp] theorem Dev.setHeat_swp (d : Dev) (h : HeatId) (f : Heat → Heat) : (d.setHeat h f).swp = d.swp := rfl
@[simp] theorem Dev.setHeat_evt (d : Dev) (h : HeatId) (f : Heat → Heat) : (d.setHeat h f).evt = d.evt := rfl
@[simp] theorem Dev.setHeat_pcie (d : Dev) (h : HeatId) (f : Heat → Heat) : (d.setHeat h f).pcie = d.pcie := rfl
@[simp] theorem Dev.setHeat_boot (d : Dev) (h : HeatId) (f : Heat → Heat) : (d.setHeat h f).boot = d.boot := rfl
@[simp] theorem Dev.setHeat_pwr (d : Dev) (h : HeatId) (f : Heat → Heat) : (d.setHeat h f).pwr = d.pwr := rfl
@[simp] theorem Dev.setHeat_start (d : Dev) (h : HeatId) (f : Heat → Heat) : (d.setHeat h f).start = d.start := rfl
@[simp] theorem Dev.setHeat_ctx (d : Dev) (h : HeatId) (f : Heat → Heat) : (d.setHeat h f).ctx = d.ctx := rfl
@[simp] theorem Dev.setHeat_ctxGroup (d : Dev) (h : HeatId) (f : Heat → Heat) : (d.setHeat h f).ctxGroup = d.ctxGroup := rfl
@[simp] theorem Dev.setHeat_ctxRot (d : Dev) (h : HeatId) (f : Heat → Heat) : (d.setHeat h f).ctxRot = d.ctxRot := rfl
@[simp] theorem Dev.setHeat_sram (d : Dev) (h : HeatId) (f : Heat → Heat) : (d.setHeat h f).sram = d.sram := rfl
@[simp] theorem Dev.setHeat_latched (d : Dev) (h : HeatId) (f : Heat → Heat) : (d.setHeat h f).latched = d.latched := rfl
@[simp] theorem Dev.setHeat_out (d : Dev) (h : HeatId) (f : Heat → Heat) : (d.setHeat h f).out = d.out := rfl
@[simp] theorem Dev.setHeat_free (d : Dev) (h : HeatId) (f : Heat → Heat) : (d.setHeat h f).free = d.free := rfl

/-! ### `Dev.dropHeat` -/

@[simp] theorem Dev.dropHeat_now (d : Dev) (h : HeatId) : (d.dropHeat h).now = d.now := rfl
@[simp] theorem Dev.dropHeat_moduleId (d : Dev) (h : HeatId) : (d.dropHeat h).moduleId = d.moduleId := rfl
@[simp] theorem Dev.dropHeat_serialNo (d : Dev) (h : HeatId) : (d.dropHeat h).serialNo = d.serialNo := rfl
@[simp] theorem Dev.dropHeat_dateCode (d : Dev) (h : HeatId) : (d.dropHeat h).dateCode = d.dateCode := rfl
@[simp] theorem Dev.dropHeat_lap (d : Dev) (h : HeatId) : (d.dropHeat h).lap = d.lap := rfl
@[simp] theorem Dev.dropHeat_img (d : Dev) (h : HeatId) : (d.dropHeat h).img = d.img := rfl
@[simp] theorem Dev.dropHeat_streams (d : Dev) (h : HeatId) : (d.dropHeat h).streams = d.streams := rfl
@[simp] theorem Dev.dropHeat_prm (d : Dev) (h : HeatId) : (d.dropHeat h).prm = d.prm := rfl
@[simp] theorem Dev.dropHeat_hbm (d : Dev) (h : HeatId) : (d.dropHeat h).hbm = d.hbm := rfl
@[simp] theorem Dev.dropHeat_upd (d : Dev) (h : HeatId) : (d.dropHeat h).upd = d.upd := rfl
@[simp] theorem Dev.dropHeat_rly (d : Dev) (h : HeatId) : (d.dropHeat h).rly = d.rly := rfl
@[simp] theorem Dev.dropHeat_dom (d : Dev) (h : HeatId) : (d.dropHeat h).dom = d.dom := rfl
@[simp] theorem Dev.dropHeat_sec (d : Dev) (h : HeatId) : (d.dropHeat h).sec = d.sec := rfl
@[simp] theorem Dev.dropHeat_flt (d : Dev) (h : HeatId) : (d.dropHeat h).flt = d.flt := rfl
@[simp] theorem Dev.dropHeat_swp (d : Dev) (h : HeatId) : (d.dropHeat h).swp = d.swp := rfl
@[simp] theorem Dev.dropHeat_evt (d : Dev) (h : HeatId) : (d.dropHeat h).evt = d.evt := rfl
@[simp] theorem Dev.dropHeat_pcie (d : Dev) (h : HeatId) : (d.dropHeat h).pcie = d.pcie := rfl
@[simp] theorem Dev.dropHeat_boot (d : Dev) (h : HeatId) : (d.dropHeat h).boot = d.boot := rfl
@[simp] theorem Dev.dropHeat_pwr (d : Dev) (h : HeatId) : (d.dropHeat h).pwr = d.pwr := rfl
@[simp] theorem Dev.dropHeat_start (d : Dev) (h : HeatId) : (d.dropHeat h).start = d.start := rfl
@[simp] theorem Dev.dropHeat_ctx (d : Dev) (h : HeatId) : (d.dropHeat h).ctx = d.ctx := rfl
@[simp] theorem Dev.dropHeat_ctxGroup (d : Dev) (h : HeatId) : (d.dropHeat h).ctxGroup = d.ctxGroup := rfl
@[simp] theorem Dev.dropHeat_ctxRot (d : Dev) (h : HeatId) : (d.dropHeat h).ctxRot = d.ctxRot := rfl
@[simp] theorem Dev.dropHeat_sram (d : Dev) (h : HeatId) : (d.dropHeat h).sram = d.sram := rfl
@[simp] theorem Dev.dropHeat_latched (d : Dev) (h : HeatId) : (d.dropHeat h).latched = d.latched := rfl
@[simp] theorem Dev.dropHeat_out (d : Dev) (h : HeatId) : (d.dropHeat h).out = d.out := rfl
@[simp] theorem Dev.dropHeat_free (d : Dev) (h : HeatId) : (d.dropHeat h).free = d.free := rfl

/-! ### `Dev.setPort` -/

@[simp] theorem Dev.setPort_now (d : Dev) (p : Nat) (f : Port → Port) : (d.setPort p f).now = d.now := rfl
@[simp] theorem Dev.setPort_moduleId (d : Dev) (p : Nat) (f : Port → Port) : (d.setPort p f).moduleId = d.moduleId := rfl
@[simp] theorem Dev.setPort_serialNo (d : Dev) (p : Nat) (f : Port → Port) : (d.setPort p f).serialNo = d.serialNo := rfl
@[simp] theorem Dev.setPort_dateCode (d : Dev) (p : Nat) (f : Port → Port) : (d.setPort p f).dateCode = d.dateCode := rfl
@[simp] theorem Dev.setPort_lap (d : Dev) (p : Nat) (f : Port → Port) : (d.setPort p f).lap = d.lap := rfl
@[simp] theorem Dev.setPort_img (d : Dev) (p : Nat) (f : Port → Port) : (d.setPort p f).img = d.img := rfl
@[simp] theorem Dev.setPort_streams (d : Dev) (p : Nat) (f : Port → Port) : (d.setPort p f).streams = d.streams := rfl
@[simp] theorem Dev.setPort_mar (d : Dev) (p : Nat) (f : Port → Port) : (d.setPort p f).mar = d.mar := rfl
@[simp] theorem Dev.setPort_prm (d : Dev) (p : Nat) (f : Port → Port) : (d.setPort p f).prm = d.prm := rfl
@[simp] theorem Dev.setPort_hbm (d : Dev) (p : Nat) (f : Port → Port) : (d.setPort p f).hbm = d.hbm := rfl
@[simp] theorem Dev.setPort_upd (d : Dev) (p : Nat) (f : Port → Port) : (d.setPort p f).upd = d.upd := rfl
@[simp] theorem Dev.setPort_dom (d : Dev) (p : Nat) (f : Port → Port) : (d.setPort p f).dom = d.dom := rfl
@[simp] theorem Dev.setPort_sec (d : Dev) (p : Nat) (f : Port → Port) : (d.setPort p f).sec = d.sec := rfl
@[simp] theorem Dev.setPort_flt (d : Dev) (p : Nat) (f : Port → Port) : (d.setPort p f).flt = d.flt := rfl
@[simp] theorem Dev.setPort_swp (d : Dev) (p : Nat) (f : Port → Port) : (d.setPort p f).swp = d.swp := rfl
@[simp] theorem Dev.setPort_evt (d : Dev) (p : Nat) (f : Port → Port) : (d.setPort p f).evt = d.evt := rfl
@[simp] theorem Dev.setPort_pcie (d : Dev) (p : Nat) (f : Port → Port) : (d.setPort p f).pcie = d.pcie := rfl
@[simp] theorem Dev.setPort_boot (d : Dev) (p : Nat) (f : Port → Port) : (d.setPort p f).boot = d.boot := rfl
@[simp] theorem Dev.setPort_pwr (d : Dev) (p : Nat) (f : Port → Port) : (d.setPort p f).pwr = d.pwr := rfl
@[simp] theorem Dev.setPort_start (d : Dev) (p : Nat) (f : Port → Port) : (d.setPort p f).start = d.start := rfl
@[simp] theorem Dev.setPort_ctx (d : Dev) (p : Nat) (f : Port → Port) : (d.setPort p f).ctx = d.ctx := rfl
@[simp] theorem Dev.setPort_ctxGroup (d : Dev) (p : Nat) (f : Port → Port) : (d.setPort p f).ctxGroup = d.ctxGroup := rfl
@[simp] theorem Dev.setPort_ctxRot (d : Dev) (p : Nat) (f : Port → Port) : (d.setPort p f).ctxRot = d.ctxRot := rfl
@[simp] theorem Dev.setPort_sram (d : Dev) (p : Nat) (f : Port → Port) : (d.setPort p f).sram = d.sram := rfl
@[simp] theorem Dev.setPort_latched (d : Dev) (p : Nat) (f : Port → Port) : (d.setPort p f).latched = d.latched := rfl
@[simp] theorem Dev.setPort_out (d : Dev) (p : Nat) (f : Port → Port) : (d.setPort p f).out = d.out := rfl
@[simp] theorem Dev.setPort_free (d : Dev) (p : Nat) (f : Port → Port) : (d.setPort p f).free = d.free := rfl

/-! ### `Dev.setWset` -/

@[simp] theorem Dev.setWset_now (d : Dev) (k : Nat) (f : WSet → WSet) : (d.setWset k f).now = d.now := rfl
@[simp] theorem Dev.setWset_moduleId (d : Dev) (k : Nat) (f : WSet → WSet) : (d.setWset k f).moduleId = d.moduleId := rfl
@[simp] theorem Dev.setWset_serialNo (d : Dev) (k : Nat) (f : WSet → WSet) : (d.setWset k f).serialNo = d.serialNo := rfl
@[simp] theorem Dev.setWset_dateCode (d : Dev) (k : Nat) (f : WSet → WSet) : (d.setWset k f).dateCode = d.dateCode := rfl
@[simp] theorem Dev.setWset_lap (d : Dev) (k : Nat) (f : WSet → WSet) : (d.setWset k f).lap = d.lap := rfl
@[simp] theorem Dev.setWset_img (d : Dev) (k : Nat) (f : WSet → WSet) : (d.setWset k f).img = d.img := rfl
@[simp] theorem Dev.setWset_streams (d : Dev) (k : Nat) (f : WSet → WSet) : (d.setWset k f).streams = d.streams := rfl
@[simp] theorem Dev.setWset_mar (d : Dev) (k : Nat) (f : WSet → WSet) : (d.setWset k f).mar = d.mar := rfl
@[simp] theorem Dev.setWset_prm (d : Dev) (k : Nat) (f : WSet → WSet) : (d.setWset k f).prm = d.prm := rfl
@[simp] theorem Dev.setWset_hbm (d : Dev) (k : Nat) (f : WSet → WSet) : (d.setWset k f).hbm = d.hbm := rfl
@[simp] theorem Dev.setWset_rly (d : Dev) (k : Nat) (f : WSet → WSet) : (d.setWset k f).rly = d.rly := rfl
@[simp] theorem Dev.setWset_dom (d : Dev) (k : Nat) (f : WSet → WSet) : (d.setWset k f).dom = d.dom := rfl
@[simp] theorem Dev.setWset_sec (d : Dev) (k : Nat) (f : WSet → WSet) : (d.setWset k f).sec = d.sec := rfl
@[simp] theorem Dev.setWset_flt (d : Dev) (k : Nat) (f : WSet → WSet) : (d.setWset k f).flt = d.flt := rfl
@[simp] theorem Dev.setWset_swp (d : Dev) (k : Nat) (f : WSet → WSet) : (d.setWset k f).swp = d.swp := rfl
@[simp] theorem Dev.setWset_evt (d : Dev) (k : Nat) (f : WSet → WSet) : (d.setWset k f).evt = d.evt := rfl
@[simp] theorem Dev.setWset_pcie (d : Dev) (k : Nat) (f : WSet → WSet) : (d.setWset k f).pcie = d.pcie := rfl
@[simp] theorem Dev.setWset_boot (d : Dev) (k : Nat) (f : WSet → WSet) : (d.setWset k f).boot = d.boot := rfl
@[simp] theorem Dev.setWset_pwr (d : Dev) (k : Nat) (f : WSet → WSet) : (d.setWset k f).pwr = d.pwr := rfl
@[simp] theorem Dev.setWset_start (d : Dev) (k : Nat) (f : WSet → WSet) : (d.setWset k f).start = d.start := rfl
@[simp] theorem Dev.setWset_ctx (d : Dev) (k : Nat) (f : WSet → WSet) : (d.setWset k f).ctx = d.ctx := rfl
@[simp] theorem Dev.setWset_ctxGroup (d : Dev) (k : Nat) (f : WSet → WSet) : (d.setWset k f).ctxGroup = d.ctxGroup := rfl
@[simp] theorem Dev.setWset_ctxRot (d : Dev) (k : Nat) (f : WSet → WSet) : (d.setWset k f).ctxRot = d.ctxRot := rfl
@[simp] theorem Dev.setWset_sram (d : Dev) (k : Nat) (f : WSet → WSet) : (d.setWset k f).sram = d.sram := rfl
@[simp] theorem Dev.setWset_latched (d : Dev) (k : Nat) (f : WSet → WSet) : (d.setWset k f).latched = d.latched := rfl
@[simp] theorem Dev.setWset_out (d : Dev) (k : Nat) (f : WSet → WSet) : (d.setWset k f).out = d.out := rfl
@[simp] theorem Dev.setWset_free (d : Dev) (k : Nat) (f : WSet → WSet) : (d.setWset k f).free = d.free := rfl

/-! ### `Dev.setRset` -/

@[simp] theorem Dev.setRset_now (d : Dev) (e : Nat) (f : RSet → RSet) : (d.setRset e f).now = d.now := rfl
@[simp] theorem Dev.setRset_moduleId (d : Dev) (e : Nat) (f : RSet → RSet) : (d.setRset e f).moduleId = d.moduleId := rfl
@[simp] theorem Dev.setRset_serialNo (d : Dev) (e : Nat) (f : RSet → RSet) : (d.setRset e f).serialNo = d.serialNo := rfl
@[simp] theorem Dev.setRset_dateCode (d : Dev) (e : Nat) (f : RSet → RSet) : (d.setRset e f).dateCode = d.dateCode := rfl
@[simp] theorem Dev.setRset_lap (d : Dev) (e : Nat) (f : RSet → RSet) : (d.setRset e f).lap = d.lap := rfl
@[simp] theorem Dev.setRset_img (d : Dev) (e : Nat) (f : RSet → RSet) : (d.setRset e f).img = d.img := rfl
@[simp] theorem Dev.setRset_streams (d : Dev) (e : Nat) (f : RSet → RSet) : (d.setRset e f).streams = d.streams := rfl
@[simp] theorem Dev.setRset_mar (d : Dev) (e : Nat) (f : RSet → RSet) : (d.setRset e f).mar = d.mar := rfl
@[simp] theorem Dev.setRset_prm (d : Dev) (e : Nat) (f : RSet → RSet) : (d.setRset e f).prm = d.prm := rfl
@[simp] theorem Dev.setRset_hbm (d : Dev) (e : Nat) (f : RSet → RSet) : (d.setRset e f).hbm = d.hbm := rfl
@[simp] theorem Dev.setRset_rly (d : Dev) (e : Nat) (f : RSet → RSet) : (d.setRset e f).rly = d.rly := rfl
@[simp] theorem Dev.setRset_dom (d : Dev) (e : Nat) (f : RSet → RSet) : (d.setRset e f).dom = d.dom := rfl
@[simp] theorem Dev.setRset_sec (d : Dev) (e : Nat) (f : RSet → RSet) : (d.setRset e f).sec = d.sec := rfl
@[simp] theorem Dev.setRset_flt (d : Dev) (e : Nat) (f : RSet → RSet) : (d.setRset e f).flt = d.flt := rfl
@[simp] theorem Dev.setRset_swp (d : Dev) (e : Nat) (f : RSet → RSet) : (d.setRset e f).swp = d.swp := rfl
@[simp] theorem Dev.setRset_evt (d : Dev) (e : Nat) (f : RSet → RSet) : (d.setRset e f).evt = d.evt := rfl
@[simp] theorem Dev.setRset_pcie (d : Dev) (e : Nat) (f : RSet → RSet) : (d.setRset e f).pcie = d.pcie := rfl
@[simp] theorem Dev.setRset_boot (d : Dev) (e : Nat) (f : RSet → RSet) : (d.setRset e f).boot = d.boot := rfl
@[simp] theorem Dev.setRset_pwr (d : Dev) (e : Nat) (f : RSet → RSet) : (d.setRset e f).pwr = d.pwr := rfl
@[simp] theorem Dev.setRset_start (d : Dev) (e : Nat) (f : RSet → RSet) : (d.setRset e f).start = d.start := rfl
@[simp] theorem Dev.setRset_ctx (d : Dev) (e : Nat) (f : RSet → RSet) : (d.setRset e f).ctx = d.ctx := rfl
@[simp] theorem Dev.setRset_ctxGroup (d : Dev) (e : Nat) (f : RSet → RSet) : (d.setRset e f).ctxGroup = d.ctxGroup := rfl
@[simp] theorem Dev.setRset_ctxRot (d : Dev) (e : Nat) (f : RSet → RSet) : (d.setRset e f).ctxRot = d.ctxRot := rfl
@[simp] theorem Dev.setRset_sram (d : Dev) (e : Nat) (f : RSet → RSet) : (d.setRset e f).sram = d.sram := rfl
@[simp] theorem Dev.setRset_latched (d : Dev) (e : Nat) (f : RSet → RSet) : (d.setRset e f).latched = d.latched := rfl
@[simp] theorem Dev.setRset_out (d : Dev) (e : Nat) (f : RSet → RSet) : (d.setRset e f).out = d.out := rfl
@[simp] theorem Dev.setRset_free (d : Dev) (e : Nat) (f : RSet → RSet) : (d.setRset e f).free = d.free := rfl

/-! ### `Dev.setCtx` -/

@[simp] theorem Dev.setCtx_now (d : Dev) (id : Nat) (r : List Byte) : (d.setCtx id r).now = d.now := rfl
@[simp] theorem Dev.setCtx_moduleId (d : Dev) (id : Nat) (r : List Byte) : (d.setCtx id r).moduleId = d.moduleId := rfl
@[simp] theorem Dev.setCtx_serialNo (d : Dev) (id : Nat) (r : List Byte) : (d.setCtx id r).serialNo = d.serialNo := rfl
@[simp] theorem Dev.setCtx_dateCode (d : Dev) (id : Nat) (r : List Byte) : (d.setCtx id r).dateCode = d.dateCode := rfl
@[simp] theorem Dev.setCtx_lap (d : Dev) (id : Nat) (r : List Byte) : (d.setCtx id r).lap = d.lap := rfl
@[simp] theorem Dev.setCtx_img (d : Dev) (id : Nat) (r : List Byte) : (d.setCtx id r).img = d.img := rfl
@[simp] theorem Dev.setCtx_streams (d : Dev) (id : Nat) (r : List Byte) : (d.setCtx id r).streams = d.streams := rfl
@[simp] theorem Dev.setCtx_mar (d : Dev) (id : Nat) (r : List Byte) : (d.setCtx id r).mar = d.mar := rfl
@[simp] theorem Dev.setCtx_prm (d : Dev) (id : Nat) (r : List Byte) : (d.setCtx id r).prm = d.prm := rfl
@[simp] theorem Dev.setCtx_hbm (d : Dev) (id : Nat) (r : List Byte) : (d.setCtx id r).hbm = d.hbm := rfl
@[simp] theorem Dev.setCtx_upd (d : Dev) (id : Nat) (r : List Byte) : (d.setCtx id r).upd = d.upd := rfl
@[simp] theorem Dev.setCtx_rly (d : Dev) (id : Nat) (r : List Byte) : (d.setCtx id r).rly = d.rly := rfl
@[simp] theorem Dev.setCtx_dom (d : Dev) (id : Nat) (r : List Byte) : (d.setCtx id r).dom = d.dom := rfl
@[simp] theorem Dev.setCtx_sec (d : Dev) (id : Nat) (r : List Byte) : (d.setCtx id r).sec = d.sec := rfl
@[simp] theorem Dev.setCtx_flt (d : Dev) (id : Nat) (r : List Byte) : (d.setCtx id r).flt = d.flt := rfl
@[simp] theorem Dev.setCtx_swp (d : Dev) (id : Nat) (r : List Byte) : (d.setCtx id r).swp = d.swp := rfl
@[simp] theorem Dev.setCtx_evt (d : Dev) (id : Nat) (r : List Byte) : (d.setCtx id r).evt = d.evt := rfl
@[simp] theorem Dev.setCtx_pcie (d : Dev) (id : Nat) (r : List Byte) : (d.setCtx id r).pcie = d.pcie := rfl
@[simp] theorem Dev.setCtx_boot (d : Dev) (id : Nat) (r : List Byte) : (d.setCtx id r).boot = d.boot := rfl
@[simp] theorem Dev.setCtx_pwr (d : Dev) (id : Nat) (r : List Byte) : (d.setCtx id r).pwr = d.pwr := rfl
@[simp] theorem Dev.setCtx_start (d : Dev) (id : Nat) (r : List Byte) : (d.setCtx id r).start = d.start := rfl
@[simp] theorem Dev.setCtx_ctxGroup (d : Dev) (id : Nat) (r : List Byte) : (d.setCtx id r).ctxGroup = d.ctxGroup := rfl
@[simp] theorem Dev.setCtx_ctxRot (d : Dev) (id : Nat) (r : List Byte) : (d.setCtx id r).ctxRot = d.ctxRot := rfl
@[simp] theorem Dev.setCtx_sram (d : Dev) (id : Nat) (r : List Byte) : (d.setCtx id r).sram = d.sram := rfl
@[simp] theorem Dev.setCtx_latched (d : Dev) (id : Nat) (r : List Byte) : (d.setCtx id r).latched = d.latched := rfl
@[simp] theorem Dev.setCtx_out (d : Dev) (id : Nat) (r : List Byte) : (d.setCtx id r).out = d.out := rfl
@[simp] theorem Dev.setCtx_free (d : Dev) (id : Nat) (r : List Byte) : (d.setCtx id r).free = d.free := rfl

/-! ### `Dev.latch` -/

@[simp] theorem Dev.latch_now (d : Dev) (reg b : Nat) : (d.latch reg b).now = d.now := rfl
@[simp] theorem Dev.latch_moduleId (d : Dev) (reg b : Nat) : (d.latch reg b).moduleId = d.moduleId := rfl
@[simp] theorem Dev.latch_serialNo (d : Dev) (reg b : Nat) : (d.latch reg b).serialNo = d.serialNo := rfl
@[simp] theorem Dev.latch_dateCode (d : Dev) (reg b : Nat) : (d.latch reg b).dateCode = d.dateCode := rfl
@[simp] theorem Dev.latch_lap (d : Dev) (reg b : Nat) : (d.latch reg b).lap = d.lap := rfl
@[simp] theorem Dev.latch_img (d : Dev) (reg b : Nat) : (d.latch reg b).img = d.img := rfl
@[simp] theorem Dev.latch_streams (d : Dev) (reg b : Nat) : (d.latch reg b).streams = d.streams := rfl
@[simp] theorem Dev.latch_mar (d : Dev) (reg b : Nat) : (d.latch reg b).mar = d.mar := rfl
@[simp] theorem Dev.latch_prm (d : Dev) (reg b : Nat) : (d.latch reg b).prm = d.prm := rfl
@[simp] theorem Dev.latch_hbm (d : Dev) (reg b : Nat) : (d.latch reg b).hbm = d.hbm := rfl
@[simp] theorem Dev.latch_upd (d : Dev) (reg b : Nat) : (d.latch reg b).upd = d.upd := rfl
@[simp] theorem Dev.latch_rly (d : Dev) (reg b : Nat) : (d.latch reg b).rly = d.rly := rfl
@[simp] theorem Dev.latch_dom (d : Dev) (reg b : Nat) : (d.latch reg b).dom = d.dom := rfl
@[simp] theorem Dev.latch_sec (d : Dev) (reg b : Nat) : (d.latch reg b).sec = d.sec := rfl
@[simp] theorem Dev.latch_flt (d : Dev) (reg b : Nat) : (d.latch reg b).flt = d.flt := rfl
@[simp] theorem Dev.latch_swp (d : Dev) (reg b : Nat) : (d.latch reg b).swp = d.swp := rfl
@[simp] theorem Dev.latch_evt (d : Dev) (reg b : Nat) : (d.latch reg b).evt = d.evt := rfl
@[simp] theorem Dev.latch_pcie (d : Dev) (reg b : Nat) : (d.latch reg b).pcie = d.pcie := rfl
@[simp] theorem Dev.latch_boot (d : Dev) (reg b : Nat) : (d.latch reg b).boot = d.boot := rfl
@[simp] theorem Dev.latch_pwr (d : Dev) (reg b : Nat) : (d.latch reg b).pwr = d.pwr := rfl
@[simp] theorem Dev.latch_start (d : Dev) (reg b : Nat) : (d.latch reg b).start = d.start := rfl
@[simp] theorem Dev.latch_ctx (d : Dev) (reg b : Nat) : (d.latch reg b).ctx = d.ctx := rfl
@[simp] theorem Dev.latch_ctxGroup (d : Dev) (reg b : Nat) : (d.latch reg b).ctxGroup = d.ctxGroup := rfl
@[simp] theorem Dev.latch_ctxRot (d : Dev) (reg b : Nat) : (d.latch reg b).ctxRot = d.ctxRot := rfl
@[simp] theorem Dev.latch_sram (d : Dev) (reg b : Nat) : (d.latch reg b).sram = d.sram := rfl
@[simp] theorem Dev.latch_out (d : Dev) (reg b : Nat) : (d.latch reg b).out = d.out := rfl
@[simp] theorem Dev.latch_free (d : Dev) (reg b : Nat) : (d.latch reg b).free = d.free := rfl

/-! ### `Dev.tag` -/

@[simp] theorem Dev.tag_now (d : Dev) (g : Nat) (full claim : Bool) (leave : Nat) : (d.tag g full claim leave).now = d.now := rfl
@[simp] theorem Dev.tag_moduleId (d : Dev) (g : Nat) (full claim : Bool) (leave : Nat) : (d.tag g full claim leave).moduleId = d.moduleId := rfl
@[simp] theorem Dev.tag_serialNo (d : Dev) (g : Nat) (full claim : Bool) (leave : Nat) : (d.tag g full claim leave).serialNo = d.serialNo := rfl
@[simp] theorem Dev.tag_dateCode (d : Dev) (g : Nat) (full claim : Bool) (leave : Nat) : (d.tag g full claim leave).dateCode = d.dateCode := rfl
@[simp] theorem Dev.tag_lap (d : Dev) (g : Nat) (full claim : Bool) (leave : Nat) : (d.tag g full claim leave).lap = d.lap := rfl
@[simp] theorem Dev.tag_img (d : Dev) (g : Nat) (full claim : Bool) (leave : Nat) : (d.tag g full claim leave).img = d.img := rfl
@[simp] theorem Dev.tag_streams (d : Dev) (g : Nat) (full claim : Bool) (leave : Nat) : (d.tag g full claim leave).streams = d.streams := rfl
@[simp] theorem Dev.tag_prm (d : Dev) (g : Nat) (full claim : Bool) (leave : Nat) : (d.tag g full claim leave).prm = d.prm := rfl
@[simp] theorem Dev.tag_hbm (d : Dev) (g : Nat) (full claim : Bool) (leave : Nat) : (d.tag g full claim leave).hbm = d.hbm := rfl
@[simp] theorem Dev.tag_upd (d : Dev) (g : Nat) (full claim : Bool) (leave : Nat) : (d.tag g full claim leave).upd = d.upd := rfl
@[simp] theorem Dev.tag_rly (d : Dev) (g : Nat) (full claim : Bool) (leave : Nat) : (d.tag g full claim leave).rly = d.rly := rfl
@[simp] theorem Dev.tag_dom (d : Dev) (g : Nat) (full claim : Bool) (leave : Nat) : (d.tag g full claim leave).dom = d.dom := rfl
@[simp] theorem Dev.tag_sec (d : Dev) (g : Nat) (full claim : Bool) (leave : Nat) : (d.tag g full claim leave).sec = d.sec := rfl
@[simp] theorem Dev.tag_flt (d : Dev) (g : Nat) (full claim : Bool) (leave : Nat) : (d.tag g full claim leave).flt = d.flt := rfl
@[simp] theorem Dev.tag_swp (d : Dev) (g : Nat) (full claim : Bool) (leave : Nat) : (d.tag g full claim leave).swp = d.swp := rfl
@[simp] theorem Dev.tag_evt (d : Dev) (g : Nat) (full claim : Bool) (leave : Nat) : (d.tag g full claim leave).evt = d.evt := rfl
@[simp] theorem Dev.tag_pcie (d : Dev) (g : Nat) (full claim : Bool) (leave : Nat) : (d.tag g full claim leave).pcie = d.pcie := rfl
@[simp] theorem Dev.tag_boot (d : Dev) (g : Nat) (full claim : Bool) (leave : Nat) : (d.tag g full claim leave).boot = d.boot := rfl
@[simp] theorem Dev.tag_pwr (d : Dev) (g : Nat) (full claim : Bool) (leave : Nat) : (d.tag g full claim leave).pwr = d.pwr := rfl
@[simp] theorem Dev.tag_start (d : Dev) (g : Nat) (full claim : Bool) (leave : Nat) : (d.tag g full claim leave).start = d.start := rfl
@[simp] theorem Dev.tag_ctx (d : Dev) (g : Nat) (full claim : Bool) (leave : Nat) : (d.tag g full claim leave).ctx = d.ctx := rfl
@[simp] theorem Dev.tag_ctxGroup (d : Dev) (g : Nat) (full claim : Bool) (leave : Nat) : (d.tag g full claim leave).ctxGroup = d.ctxGroup := rfl
@[simp] theorem Dev.tag_ctxRot (d : Dev) (g : Nat) (full claim : Bool) (leave : Nat) : (d.tag g full claim leave).ctxRot = d.ctxRot := rfl
@[simp] theorem Dev.tag_sram (d : Dev) (g : Nat) (full claim : Bool) (leave : Nat) : (d.tag g full claim leave).sram = d.sram := rfl
@[simp] theorem Dev.tag_latched (d : Dev) (g : Nat) (full claim : Bool) (leave : Nat) : (d.tag g full claim leave).latched = d.latched := rfl
@[simp] theorem Dev.tag_out (d : Dev) (g : Nat) (full claim : Bool) (leave : Nat) : (d.tag g full claim leave).out = d.out := rfl
@[simp] theorem Dev.tag_free (d : Dev) (g : Nat) (full claim : Bool) (leave : Nat) : (d.tag g full claim leave).free = d.free := rfl

/-! ### `Dev.fillSlot` -/

@[simp] theorem Dev.fillSlot_now (d : Dev) (g : Nat) : (d.fillSlot g).now = d.now := by
  unfold Dev.fillSlot; dsimp only; split <;> rfl
@[simp] theorem Dev.fillSlot_moduleId (d : Dev) (g : Nat) : (d.fillSlot g).moduleId = d.moduleId := by
  unfold Dev.fillSlot; dsimp only; split <;> rfl
@[simp] theorem Dev.fillSlot_serialNo (d : Dev) (g : Nat) : (d.fillSlot g).serialNo = d.serialNo := by
  unfold Dev.fillSlot; dsimp only; split <;> rfl
@[simp] theorem Dev.fillSlot_dateCode (d : Dev) (g : Nat) : (d.fillSlot g).dateCode = d.dateCode := by
  unfold Dev.fillSlot; dsimp only; split <;> rfl
@[simp] theorem Dev.fillSlot_lap (d : Dev) (g : Nat) : (d.fillSlot g).lap = d.lap := by
  unfold Dev.fillSlot; dsimp only; split <;> rfl
@[simp] theorem Dev.fillSlot_img (d : Dev) (g : Nat) : (d.fillSlot g).img = d.img := by
  unfold Dev.fillSlot; dsimp only; split <;> rfl
@[simp] theorem Dev.fillSlot_streams (d : Dev) (g : Nat) : (d.fillSlot g).streams = d.streams := by
  unfold Dev.fillSlot; dsimp only; split <;> rfl
@[simp] theorem Dev.fillSlot_prm (d : Dev) (g : Nat) : (d.fillSlot g).prm = d.prm := by
  unfold Dev.fillSlot; dsimp only; split <;> rfl
@[simp] theorem Dev.fillSlot_hbm (d : Dev) (g : Nat) : (d.fillSlot g).hbm = d.hbm := by
  unfold Dev.fillSlot; dsimp only; split <;> rfl
@[simp] theorem Dev.fillSlot_upd (d : Dev) (g : Nat) : (d.fillSlot g).upd = d.upd := by
  unfold Dev.fillSlot; dsimp only; split <;> rfl
@[simp] theorem Dev.fillSlot_rly (d : Dev) (g : Nat) : (d.fillSlot g).rly = d.rly := by
  unfold Dev.fillSlot; dsimp only; split <;> rfl
@[simp] theorem Dev.fillSlot_dom (d : Dev) (g : Nat) : (d.fillSlot g).dom = d.dom := by
  unfold Dev.fillSlot; dsimp only; split <;> rfl
@[simp] theorem Dev.fillSlot_sec (d : Dev) (g : Nat) : (d.fillSlot g).sec = d.sec := by
  unfold Dev.fillSlot; dsimp only; split <;> rfl
@[simp] theorem Dev.fillSlot_flt (d : Dev) (g : Nat) : (d.fillSlot g).flt = d.flt := by
  unfold Dev.fillSlot; dsimp only; split <;> rfl
@[simp] theorem Dev.fillSlot_swp (d : Dev) (g : Nat) : (d.fillSlot g).swp = d.swp := by
  unfold Dev.fillSlot; dsimp only; split <;> rfl
@[simp] theorem Dev.fillSlot_evt (d : Dev) (g : Nat) : (d.fillSlot g).evt = d.evt := by
  unfold Dev.fillSlot; dsimp only; split <;> rfl
@[simp] theorem Dev.fillSlot_pcie (d : Dev) (g : Nat) : (d.fillSlot g).pcie = d.pcie := by
  unfold Dev.fillSlot; dsimp only; split <;> rfl
@[simp] theorem Dev.fillSlot_boot (d : Dev) (g : Nat) : (d.fillSlot g).boot = d.boot := by
  unfold Dev.fillSlot; dsimp only; split <;> rfl
@[simp] theorem Dev.fillSlot_pwr (d : Dev) (g : Nat) : (d.fillSlot g).pwr = d.pwr := by
  unfold Dev.fillSlot; dsimp only; split <;> rfl
@[simp] theorem Dev.fillSlot_start (d : Dev) (g : Nat) : (d.fillSlot g).start = d.start := by
  unfold Dev.fillSlot; dsimp only; split <;> rfl
@[simp] theorem Dev.fillSlot_ctx (d : Dev) (g : Nat) : (d.fillSlot g).ctx = d.ctx := by
  unfold Dev.fillSlot; dsimp only; split <;> rfl
@[simp] theorem Dev.fillSlot_ctxGroup (d : Dev) (g : Nat) : (d.fillSlot g).ctxGroup = d.ctxGroup := by
  unfold Dev.fillSlot; dsimp only; split <;> rfl
@[simp] theorem Dev.fillSlot_ctxRot (d : Dev) (g : Nat) : (d.fillSlot g).ctxRot = d.ctxRot := by
  unfold Dev.fillSlot; dsimp only; split <;> rfl
@[simp] theorem Dev.fillSlot_sram (d : Dev) (g : Nat) : (d.fillSlot g).sram = d.sram := by
  unfold Dev.fillSlot; dsimp only; split <;> rfl
@[simp] theorem Dev.fillSlot_latched (d : Dev) (g : Nat) : (d.fillSlot g).latched = d.latched := by
  unfold Dev.fillSlot; dsimp only; split <;> rfl
@[simp] theorem Dev.fillSlot_out (d : Dev) (g : Nat) : (d.fillSlot g).out = d.out := by
  unfold Dev.fillSlot; dsimp only; split <;> rfl
@[simp] theorem Dev.fillSlot_free (d : Dev) (g : Nat) : (d.fillSlot g).free = d.free := by
  unfold Dev.fillSlot; dsimp only; split <;> rfl

/-! ### `Dev.emptySlot` -/

@[simp] theorem Dev.emptySlot_now (d : Dev) (g : Nat) : (d.emptySlot g).now = d.now := rfl
@[simp] theorem Dev.emptySlot_moduleId (d : Dev) (g : Nat) : (d.emptySlot g).moduleId = d.moduleId := rfl
@[simp] theorem Dev.emptySlot_serialNo (d : Dev) (g : Nat) : (d.emptySlot g).serialNo = d.serialNo := rfl
@[simp] theorem Dev.emptySlot_dateCode (d : Dev) (g : Nat) : (d.emptySlot g).dateCode = d.dateCode := rfl
@[simp] theorem Dev.emptySlot_lap (d : Dev) (g : Nat) : (d.emptySlot g).lap = d.lap := rfl
@[simp] theorem Dev.emptySlot_img (d : Dev) (g : Nat) : (d.emptySlot g).img = d.img := rfl
@[simp] theorem Dev.emptySlot_streams (d : Dev) (g : Nat) : (d.emptySlot g).streams = d.streams := rfl
@[simp] theorem Dev.emptySlot_prm (d : Dev) (g : Nat) : (d.emptySlot g).prm = d.prm := rfl
@[simp] theorem Dev.emptySlot_hbm (d : Dev) (g : Nat) : (d.emptySlot g).hbm = d.hbm := rfl
@[simp] theorem Dev.emptySlot_upd (d : Dev) (g : Nat) : (d.emptySlot g).upd = d.upd := rfl
@[simp] theorem Dev.emptySlot_rly (d : Dev) (g : Nat) : (d.emptySlot g).rly = d.rly := rfl
@[simp] theorem Dev.emptySlot_dom (d : Dev) (g : Nat) : (d.emptySlot g).dom = d.dom := rfl
@[simp] theorem Dev.emptySlot_sec (d : Dev) (g : Nat) : (d.emptySlot g).sec = d.sec := rfl
@[simp] theorem Dev.emptySlot_flt (d : Dev) (g : Nat) : (d.emptySlot g).flt = d.flt := rfl
@[simp] theorem Dev.emptySlot_swp (d : Dev) (g : Nat) : (d.emptySlot g).swp = d.swp := rfl
@[simp] theorem Dev.emptySlot_evt (d : Dev) (g : Nat) : (d.emptySlot g).evt = d.evt := rfl
@[simp] theorem Dev.emptySlot_pcie (d : Dev) (g : Nat) : (d.emptySlot g).pcie = d.pcie := rfl
@[simp] theorem Dev.emptySlot_boot (d : Dev) (g : Nat) : (d.emptySlot g).boot = d.boot := rfl
@[simp] theorem Dev.emptySlot_pwr (d : Dev) (g : Nat) : (d.emptySlot g).pwr = d.pwr := rfl
@[simp] theorem Dev.emptySlot_start (d : Dev) (g : Nat) : (d.emptySlot g).start = d.start := rfl
@[simp] theorem Dev.emptySlot_ctx (d : Dev) (g : Nat) : (d.emptySlot g).ctx = d.ctx := rfl
@[simp] theorem Dev.emptySlot_ctxGroup (d : Dev) (g : Nat) : (d.emptySlot g).ctxGroup = d.ctxGroup := rfl
@[simp] theorem Dev.emptySlot_ctxRot (d : Dev) (g : Nat) : (d.emptySlot g).ctxRot = d.ctxRot := rfl
@[simp] theorem Dev.emptySlot_sram (d : Dev) (g : Nat) : (d.emptySlot g).sram = d.sram := rfl
@[simp] theorem Dev.emptySlot_latched (d : Dev) (g : Nat) : (d.emptySlot g).latched = d.latched := rfl
@[simp] theorem Dev.emptySlot_out (d : Dev) (g : Nat) : (d.emptySlot g).out = d.out := rfl
@[simp] theorem Dev.emptySlot_free (d : Dev) (g : Nat) : (d.emptySlot g).free = d.free := rfl

/-! ### `Dev.claimSlot` -/

@[simp] theorem Dev.claimSlot_now (d : Dev) (g : Nat) : (d.claimSlot g).now = d.now := rfl
@[simp] theorem Dev.claimSlot_moduleId (d : Dev) (g : Nat) : (d.claimSlot g).moduleId = d.moduleId := rfl
@[simp] theorem Dev.claimSlot_serialNo (d : Dev) (g : Nat) : (d.claimSlot g).serialNo = d.serialNo := rfl
@[simp] theorem Dev.claimSlot_dateCode (d : Dev) (g : Nat) : (d.claimSlot g).dateCode = d.dateCode := rfl
@[simp] theorem Dev.claimSlot_lap (d : Dev) (g : Nat) : (d.claimSlot g).lap = d.lap := rfl
@[simp] theorem Dev.claimSlot_img (d : Dev) (g : Nat) : (d.claimSlot g).img = d.img := rfl
@[simp] theorem Dev.claimSlot_streams (d : Dev) (g : Nat) : (d.claimSlot g).streams = d.streams := rfl
@[simp] theorem Dev.claimSlot_prm (d : Dev) (g : Nat) : (d.claimSlot g).prm = d.prm := rfl
@[simp] theorem Dev.claimSlot_hbm (d : Dev) (g : Nat) : (d.claimSlot g).hbm = d.hbm := rfl
@[simp] theorem Dev.claimSlot_upd (d : Dev) (g : Nat) : (d.claimSlot g).upd = d.upd := rfl
@[simp] theorem Dev.claimSlot_rly (d : Dev) (g : Nat) : (d.claimSlot g).rly = d.rly := rfl
@[simp] theorem Dev.claimSlot_dom (d : Dev) (g : Nat) : (d.claimSlot g).dom = d.dom := rfl
@[simp] theorem Dev.claimSlot_sec (d : Dev) (g : Nat) : (d.claimSlot g).sec = d.sec := rfl
@[simp] theorem Dev.claimSlot_flt (d : Dev) (g : Nat) : (d.claimSlot g).flt = d.flt := rfl
@[simp] theorem Dev.claimSlot_swp (d : Dev) (g : Nat) : (d.claimSlot g).swp = d.swp := rfl
@[simp] theorem Dev.claimSlot_evt (d : Dev) (g : Nat) : (d.claimSlot g).evt = d.evt := rfl
@[simp] theorem Dev.claimSlot_pcie (d : Dev) (g : Nat) : (d.claimSlot g).pcie = d.pcie := rfl
@[simp] theorem Dev.claimSlot_boot (d : Dev) (g : Nat) : (d.claimSlot g).boot = d.boot := rfl
@[simp] theorem Dev.claimSlot_pwr (d : Dev) (g : Nat) : (d.claimSlot g).pwr = d.pwr := rfl
@[simp] theorem Dev.claimSlot_start (d : Dev) (g : Nat) : (d.claimSlot g).start = d.start := rfl
@[simp] theorem Dev.claimSlot_ctx (d : Dev) (g : Nat) : (d.claimSlot g).ctx = d.ctx := rfl
@[simp] theorem Dev.claimSlot_ctxGroup (d : Dev) (g : Nat) : (d.claimSlot g).ctxGroup = d.ctxGroup := rfl
@[simp] theorem Dev.claimSlot_ctxRot (d : Dev) (g : Nat) : (d.claimSlot g).ctxRot = d.ctxRot := rfl
@[simp] theorem Dev.claimSlot_sram (d : Dev) (g : Nat) : (d.claimSlot g).sram = d.sram := rfl
@[simp] theorem Dev.claimSlot_latched (d : Dev) (g : Nat) : (d.claimSlot g).latched = d.latched := rfl
@[simp] theorem Dev.claimSlot_out (d : Dev) (g : Nat) : (d.claimSlot g).out = d.out := rfl
@[simp] theorem Dev.claimSlot_free (d : Dev) (g : Nat) : (d.claimSlot g).free = d.free := rfl

/-! ### `Dev.unclaimSlot` -/

@[simp] theorem Dev.unclaimSlot_now (d : Dev) (g : Nat) : (d.unclaimSlot g).now = d.now := by
  unfold Dev.unclaimSlot; dsimp only; split <;> rfl
@[simp] theorem Dev.unclaimSlot_moduleId (d : Dev) (g : Nat) : (d.unclaimSlot g).moduleId = d.moduleId := by
  unfold Dev.unclaimSlot; dsimp only; split <;> rfl
@[simp] theorem Dev.unclaimSlot_serialNo (d : Dev) (g : Nat) : (d.unclaimSlot g).serialNo = d.serialNo := by
  unfold Dev.unclaimSlot; dsimp only; split <;> rfl
@[simp] theorem Dev.unclaimSlot_dateCode (d : Dev) (g : Nat) : (d.unclaimSlot g).dateCode = d.dateCode := by
  unfold Dev.unclaimSlot; dsimp only; split <;> rfl
@[simp] theorem Dev.unclaimSlot_lap (d : Dev) (g : Nat) : (d.unclaimSlot g).lap = d.lap := by
  unfold Dev.unclaimSlot; dsimp only; split <;> rfl
@[simp] theorem Dev.unclaimSlot_img (d : Dev) (g : Nat) : (d.unclaimSlot g).img = d.img := by
  unfold Dev.unclaimSlot; dsimp only; split <;> rfl
@[simp] theorem Dev.unclaimSlot_streams (d : Dev) (g : Nat) : (d.unclaimSlot g).streams = d.streams := by
  unfold Dev.unclaimSlot; dsimp only; split <;> rfl
@[simp] theorem Dev.unclaimSlot_prm (d : Dev) (g : Nat) : (d.unclaimSlot g).prm = d.prm := by
  unfold Dev.unclaimSlot; dsimp only; split <;> rfl
@[simp] theorem Dev.unclaimSlot_hbm (d : Dev) (g : Nat) : (d.unclaimSlot g).hbm = d.hbm := by
  unfold Dev.unclaimSlot; dsimp only; split <;> rfl
@[simp] theorem Dev.unclaimSlot_upd (d : Dev) (g : Nat) : (d.unclaimSlot g).upd = d.upd := by
  unfold Dev.unclaimSlot; dsimp only; split <;> rfl
@[simp] theorem Dev.unclaimSlot_rly (d : Dev) (g : Nat) : (d.unclaimSlot g).rly = d.rly := by
  unfold Dev.unclaimSlot; dsimp only; split <;> rfl
@[simp] theorem Dev.unclaimSlot_dom (d : Dev) (g : Nat) : (d.unclaimSlot g).dom = d.dom := by
  unfold Dev.unclaimSlot; dsimp only; split <;> rfl
@[simp] theorem Dev.unclaimSlot_sec (d : Dev) (g : Nat) : (d.unclaimSlot g).sec = d.sec := by
  unfold Dev.unclaimSlot; dsimp only; split <;> rfl
@[simp] theorem Dev.unclaimSlot_flt (d : Dev) (g : Nat) : (d.unclaimSlot g).flt = d.flt := by
  unfold Dev.unclaimSlot; dsimp only; split <;> rfl
@[simp] theorem Dev.unclaimSlot_swp (d : Dev) (g : Nat) : (d.unclaimSlot g).swp = d.swp := by
  unfold Dev.unclaimSlot; dsimp only; split <;> rfl
@[simp] theorem Dev.unclaimSlot_evt (d : Dev) (g : Nat) : (d.unclaimSlot g).evt = d.evt := by
  unfold Dev.unclaimSlot; dsimp only; split <;> rfl
@[simp] theorem Dev.unclaimSlot_pcie (d : Dev) (g : Nat) : (d.unclaimSlot g).pcie = d.pcie := by
  unfold Dev.unclaimSlot; dsimp only; split <;> rfl
@[simp] theorem Dev.unclaimSlot_boot (d : Dev) (g : Nat) : (d.unclaimSlot g).boot = d.boot := by
  unfold Dev.unclaimSlot; dsimp only; split <;> rfl
@[simp] theorem Dev.unclaimSlot_pwr (d : Dev) (g : Nat) : (d.unclaimSlot g).pwr = d.pwr := by
  unfold Dev.unclaimSlot; dsimp only; split <;> rfl
@[simp] theorem Dev.unclaimSlot_start (d : Dev) (g : Nat) : (d.unclaimSlot g).start = d.start := by
  unfold Dev.unclaimSlot; dsimp only; split <;> rfl
@[simp] theorem Dev.unclaimSlot_ctx (d : Dev) (g : Nat) : (d.unclaimSlot g).ctx = d.ctx := by
  unfold Dev.unclaimSlot; dsimp only; split <;> rfl
@[simp] theorem Dev.unclaimSlot_ctxGroup (d : Dev) (g : Nat) : (d.unclaimSlot g).ctxGroup = d.ctxGroup := by
  unfold Dev.unclaimSlot; dsimp only; split <;> rfl
@[simp] theorem Dev.unclaimSlot_ctxRot (d : Dev) (g : Nat) : (d.unclaimSlot g).ctxRot = d.ctxRot := by
  unfold Dev.unclaimSlot; dsimp only; split <;> rfl
@[simp] theorem Dev.unclaimSlot_sram (d : Dev) (g : Nat) : (d.unclaimSlot g).sram = d.sram := by
  unfold Dev.unclaimSlot; dsimp only; split <;> rfl
@[simp] theorem Dev.unclaimSlot_latched (d : Dev) (g : Nat) : (d.unclaimSlot g).latched = d.latched := by
  unfold Dev.unclaimSlot; dsimp only; split <;> rfl
@[simp] theorem Dev.unclaimSlot_out (d : Dev) (g : Nat) : (d.unclaimSlot g).out = d.out := by
  unfold Dev.unclaimSlot; dsimp only; split <;> rfl
@[simp] theorem Dev.unclaimSlot_free (d : Dev) (g : Nat) : (d.unclaimSlot g).free = d.free := by
  unfold Dev.unclaimSlot; dsimp only; split <;> rfl

/-! ### Reading back what an update wrote -/

@[simp] theorem Dev.stream_setStream (d : Dev) (c k : Nat) (f : Stream → Stream) :
    (d.setStream c k f).stream c k = f (d.stream c k) := by simp [Dev.stream, Dev.setStream, AMap.get_upd]

theorem Dev.stream_setStream_other (d : Dev) {c k c' k' : Nat} (f : Stream → Stream) (h : strKey c' k' ≠ strKey c k) :
    (d.setStream c k f).stream c' k' = d.stream c' k' := by simp [Dev.stream, Dev.setStream, AMap.get_upd, h]

@[simp] theorem Dev.port_setPort (d : Dev) (p : Nat) (f : Port → Port) : (d.setPort p f).port p = f (d.port p) := by
  simp [Dev.port, Dev.setPort, AMap.get_upd]

theorem Dev.port_setPort_other (d : Dev) {p q : Nat} (f : Port → Port) (h : q ≠ p) :
    (d.setPort p f).port q = d.port q := by simp [Dev.port, Dev.setPort, AMap.get_upd, h]

@[simp] theorem Dev.wset_setWset (d : Dev) (k : Nat) (f : WSet → WSet) : (d.setWset k f).wset k = f (d.wset k) := by
  simp [Dev.wset, Dev.setWset, AMap.get_upd]

theorem Dev.wset_setWset_other (d : Dev) {k j : Nat} (f : WSet → WSet) (h : j ≠ k) :
    (d.setWset k f).wset j = d.wset j := by simp [Dev.wset, Dev.setWset, AMap.get_upd, h]

/-- Updating a heat that keeps its name updates what is found under the name. -/
theorem Dev.heat_setHeat (d : Dev) (h : HeatId) (f : Heat → Heat) (hf : ∀ x, (f x).id = x.id) :
    (d.setHeat h f).heat h = (d.heat h).map f := by
  simp only [Dev.heat, Dev.setHeat, updWhere]
  induction d.mar.heats with
  | nil => rfl
  | cons x l ih =>
    rw [List.map_cons, List.find?_cons, List.find?_cons, ih]
    by_cases e : x.id = h
    · simp [e, hf]
    · have e' : (x.id == h) = false := by simpa using e
      simp [e']

/-- Updating one heat leaves the others. -/
theorem Dev.heat_setHeat_other (d : Dev) {h g : HeatId} (f : Heat → Heat) (hf : ∀ x, (f x).id = x.id) (hg : g ≠ h) :
    (d.setHeat h f).heat g = d.heat g := by
  simp only [Dev.heat, Dev.setHeat, updWhere]
  induction d.mar.heats with
  | nil => rfl
  | cons x l ih =>
    rw [List.map_cons, List.find?_cons, List.find?_cons, ih]
    by_cases e : x.id = h
    · have e' : (h == g) = false := by simpa using Ne.symm hg
      simp [e, hf, e']
    · have e' : (x.id == h) = false := by simpa using e
      simp [e']

theorem Dev.rset_setRset (d : Dev) (e j : Nat) (f : RSet → RSet) :
    (d.setRset e f).rset j = if j = e then f (d.rset e) else d.rset j := by
  simp [Dev.rset, Dev.setRset, AMap.get_upd]

/-- A context record reads as what was written to it, and every other stays. -/
theorem Dev.ctxAt_setCtx (d : Dev) (id j : Nat) (r : List Byte) :
    (d.setCtx id r).ctxAt j = if j = id then r else d.ctxAt j := by
  simp [Dev.ctxAt, Dev.setCtx, AMap.get_set]

/-- A bit that is set now was set in this cycle (R7). -/
theorem Dev.justSet_latch (d : Dev) (reg b r c : Nat) :
    (d.latch reg b).justSet r c = (decide (64 * r + c = 64 * reg + b) || d.justSet r c) := by
  simp only [Dev.justSet, Dev.latch, AMap.get_set]
  by_cases h : 64 * r + c = 64 * reg + b <;> simp [h]

/-! ### Slot tags -/

/-- What the tags of one slot read as once they are set. -/
theorem Dev.isFull_tag (d : Dev) (g k leave : Nat) (full claim : Bool) :
    (d.tag g full claim leave).isFull k =
      if k = g then full && !(leave != 0 && decide (leave ≤ d.now + 1)) else d.isFull k := by
  simp only [Dev.isFull, Dev.left, Dev.tag, NSet.has, AMap.get_set]
  by_cases h : k = g <;> simp [h]

theorem Dev.isClaimed_tag (d : Dev) (g k leave : Nat) (full claim : Bool) :
    (d.tag g full claim leave).isClaimed k = if k = g then claim else d.isClaimed k := by
  simp only [Dev.isClaimed, Dev.tag, NSet.has, AMap.get_set]

/-- Heats changed: no tag moves. -/
theorem Dev.isFull_heats (d : Dev) (l : List Heat) (k : Nat) :
    Dev.isFull { d with mar := { d.mar with heats := l } } k = d.isFull k := rfl

@[simp] theorem Dev.isFull_fillSlot (d : Dev) (g k : Nat) : (d.fillSlot g).isFull k = (decide (k = g) || d.isFull k) := by
  unfold Dev.fillSlot
  dsimp only
  split
  · rw [Dev.isFull_heats, Dev.isFull_tag]
    by_cases h : k = g <;> simp [h]
  · rw [Dev.isFull_tag]
    by_cases h : k = g <;> simp [h]

@[simp] theorem Dev.isClaimed_fillSlot (d : Dev) (g k : Nat) :
    (d.fillSlot g).isClaimed k = (!decide (k = g) && d.isClaimed k) := by
  have e : (d.fillSlot g).isClaimed k = (d.tag g true false 0).isClaimed k := by
    unfold Dev.fillSlot; dsimp only; split <;> rfl
  rw [e, Dev.isClaimed_tag]
  by_cases h : k = g <;> simp [h]

@[simp] theorem Dev.isFull_emptySlot (d : Dev) (g k : Nat) :
    (d.emptySlot g).isFull k = (!decide (k = g) && d.isFull k) := by
  rw [Dev.emptySlot, Dev.isFull_tag]
  by_cases h : k = g <;> simp [h]

@[simp] theorem Dev.isClaimed_emptySlot (d : Dev) (g k : Nat) : (d.emptySlot g).isClaimed k = d.isClaimed k := by
  rw [Dev.emptySlot, Dev.isClaimed_tag]
  by_cases h : k = g <;> simp [h]

@[simp] theorem Dev.isFull_claimSlot (d : Dev) (g k : Nat) :
    (d.claimSlot g).isFull k = (!decide (k = g) && d.isFull k) := by
  rw [Dev.claimSlot, Dev.isFull_tag]
  by_cases h : k = g <;> simp [h]

@[simp] theorem Dev.isClaimed_claimSlot (d : Dev) (g k : Nat) :
    (d.claimSlot g).isClaimed k = (decide (k = g) || d.isClaimed k) := by
  rw [Dev.claimSlot, Dev.isClaimed_tag]
  by_cases h : k = g <;> simp [h]

@[simp] theorem Dev.isFull_unclaimSlot (d : Dev) (g k : Nat) :
    (d.unclaimSlot g).isFull k = (!decide (k = g) && d.isFull k) := by
  have e : (d.unclaimSlot g).isFull k = (d.tag g false false 0).isFull k := by
    unfold Dev.unclaimSlot; dsimp only; split <;> rfl
  rw [e, Dev.isFull_tag]
  by_cases h : k = g <;> simp [h]

@[simp] theorem Dev.isClaimed_unclaimSlot (d : Dev) (g k : Nat) :
    (d.unclaimSlot g).isClaimed k = (!decide (k = g) && d.isClaimed k) := by
  have e : (d.unclaimSlot g).isClaimed k = (d.tag g false false 0).isClaimed k := by
    unfold Dev.unclaimSlot; dsimp only; split <;> rfl
  rw [e, Dev.isClaimed_tag]
  by_cases h : k = g <;> simp [h]

end Sys2Proof.Machine
end

