-- ==== Sys2Proof/Laws/Ops.lean ====
section
/-! SUPPORT. What the shared operations of the block do: the fields that records, interrupts, notices, halts
and dropped writes leave alone, and a command of the block alone. -/

namespace Sys2Proof.Machine

/-! ### Commands that always complete -/

/-- A command of the block alone leaves memory and the queue. -/
theorem devOnly_eq (s : State) (f : Dev → Dev) : devOnly s f = .next { s with dev := f s.dev } := rfl

@[simp] theorem run_pending (s : State) (f : Wk → Wk) : (run s f).pending = s.pending := rfl

/-- What `run` leaves in memory is what its action made of the state's memory. -/
theorem run_mem (s : State) (f : Wk → Wk) : (run s f).mem = s.mem.applyAll (f ⟨s.mem, [], s.dev⟩).ops := rfl

theorem run_dev (s : State) (f : Wk → Wk) : (run s f).dev = (f ⟨s.mem, [], s.dev⟩).dev := rfl

/-! ### `Dev.msix` -/

@[simp] theorem Dev.msix_now (d : Dev) (v : Nat) : (d.msix v).now = d.now := by
  unfold Dev.msix; split <;> [rfl; (split <;> rfl)]
@[simp] theorem Dev.msix_moduleId (d : Dev) (v : Nat) : (d.msix v).moduleId = d.moduleId := by
  unfold Dev.msix; split <;> [rfl; (split <;> rfl)]
@[simp] theorem Dev.msix_serialNo (d : Dev) (v : Nat) : (d.msix v).serialNo = d.serialNo := by
  unfold Dev.msix; split <;> [rfl; (split <;> rfl)]
@[simp] theorem Dev.msix_dateCode (d : Dev) (v : Nat) : (d.msix v).dateCode = d.dateCode := by
  unfold Dev.msix; split <;> [rfl; (split <;> rfl)]
@[simp] theorem Dev.msix_lap (d : Dev) (v : Nat) : (d.msix v).lap = d.lap := by
  unfold Dev.msix; split <;> [rfl; (split <;> rfl)]
@[simp] theorem Dev.msix_img (d : Dev) (v : Nat) : (d.msix v).img = d.img := by
  unfold Dev.msix; split <;> [rfl; (split <;> rfl)]
@[simp] theorem Dev.msix_streams (d : Dev) (v : Nat) : (d.msix v).streams = d.streams := by
  unfold Dev.msix; split <;> [rfl; (split <;> rfl)]
@[simp] theorem Dev.msix_mar (d : Dev) (v : Nat) : (d.msix v).mar = d.mar := by
  unfold Dev.msix; split <;> [rfl; (split <;> rfl)]
@[simp] theorem Dev.msix_prm (d : Dev) (v : Nat) : (d.msix v).prm = d.prm := by
  unfold Dev.msix; split <;> [rfl; (split <;> rfl)]
@[simp] theorem Dev.msix_hbm (d : Dev) (v : Nat) : (d.msix v).hbm = d.hbm := by
  unfold Dev.msix; split <;> [rfl; (split <;> rfl)]
@[simp] theorem Dev.msix_upd (d : Dev) (v : Nat) : (d.msix v).upd = d.upd := by
  unfold Dev.msix; split <;> [rfl; (split <;> rfl)]
@[simp] theorem Dev.msix_rly (d : Dev) (v : Nat) : (d.msix v).rly = d.rly := by
  unfold Dev.msix; split <;> [rfl; (split <;> rfl)]
@[simp] theorem Dev.msix_dom (d : Dev) (v : Nat) : (d.msix v).dom = d.dom := by
  unfold Dev.msix; split <;> [rfl; (split <;> rfl)]
@[simp] theorem Dev.msix_sec (d : Dev) (v : Nat) : (d.msix v).sec = d.sec := by
  unfold Dev.msix; split <;> [rfl; (split <;> rfl)]
@[simp] theorem Dev.msix_flt (d : Dev) (v : Nat) : (d.msix v).flt = d.flt := by
  unfold Dev.msix; split <;> [rfl; (split <;> rfl)]
@[simp] theorem Dev.msix_swp (d : Dev) (v : Nat) : (d.msix v).swp = d.swp := by
  unfold Dev.msix; split <;> [rfl; (split <;> rfl)]
@[simp] theorem Dev.msix_evt (d : Dev) (v : Nat) : (d.msix v).evt = d.evt := by
  unfold Dev.msix; split <;> [rfl; (split <;> rfl)]
@[simp] theorem Dev.msix_boot (d : Dev) (v : Nat) : (d.msix v).boot = d.boot := by
  unfold Dev.msix; split <;> [rfl; (split <;> rfl)]
@[simp] theorem Dev.msix_pwr (d : Dev) (v : Nat) : (d.msix v).pwr = d.pwr := by
  unfold Dev.msix; split <;> [rfl; (split <;> rfl)]
@[simp] theorem Dev.msix_start (d : Dev) (v : Nat) : (d.msix v).start = d.start := by
  unfold Dev.msix; split <;> [rfl; (split <;> rfl)]
@[simp] theorem Dev.msix_ctx (d : Dev) (v : Nat) : (d.msix v).ctx = d.ctx := by
  unfold Dev.msix; split <;> [rfl; (split <;> rfl)]
@[simp] theorem Dev.msix_ctxGroup (d : Dev) (v : Nat) : (d.msix v).ctxGroup = d.ctxGroup := by
  unfold Dev.msix; split <;> [rfl; (split <;> rfl)]
@[simp] theorem Dev.msix_ctxRot (d : Dev) (v : Nat) : (d.msix v).ctxRot = d.ctxRot := by
  unfold Dev.msix; split <;> [rfl; (split <;> rfl)]
@[simp] theorem Dev.msix_sram (d : Dev) (v : Nat) : (d.msix v).sram = d.sram := by
  unfold Dev.msix; split <;> [rfl; (split <;> rfl)]
@[simp] theorem Dev.msix_latched (d : Dev) (v : Nat) : (d.msix v).latched = d.latched := by
  unfold Dev.msix; split <;> [rfl; (split <;> rfl)]
@[simp] theorem Dev.msix_free (d : Dev) (v : Nat) : (d.msix v).free = d.free := by
  unfold Dev.msix; split <;> [rfl; (split <;> rfl)]

/-! ### `Dev.raise` -/

@[simp] theorem Dev.raise_now (d : Dev) (r : Rec) : (d.raise r).now = d.now := by
  simp only [Dev.raise]; split <;> split <;> rfl
@[simp] theorem Dev.raise_moduleId (d : Dev) (r : Rec) : (d.raise r).moduleId = d.moduleId := by
  simp only [Dev.raise]; split <;> split <;> rfl
@[simp] theorem Dev.raise_serialNo (d : Dev) (r : Rec) : (d.raise r).serialNo = d.serialNo := by
  simp only [Dev.raise]; split <;> split <;> rfl
@[simp] theorem Dev.raise_dateCode (d : Dev) (r : Rec) : (d.raise r).dateCode = d.dateCode := by
  simp only [Dev.raise]; split <;> split <;> rfl
@[simp] theorem Dev.raise_lap (d : Dev) (r : Rec) : (d.raise r).lap = d.lap := by
  simp only [Dev.raise]; split <;> split <;> rfl
@[simp] theorem Dev.raise_img (d : Dev) (r : Rec) : (d.raise r).img = d.img := by
  simp only [Dev.raise]; split <;> split <;> rfl
@[simp] theorem Dev.raise_streams (d : Dev) (r : Rec) : (d.raise r).streams = d.streams := by
  simp only [Dev.raise]; split <;> split <;> rfl
@[simp] theorem Dev.raise_mar (d : Dev) (r : Rec) : (d.raise r).mar = d.mar := by
  simp only [Dev.raise]; split <;> split <;> rfl
@[simp] theorem Dev.raise_prm (d : Dev) (r : Rec) : (d.raise r).prm = d.prm := by
  simp only [Dev.raise]; split <;> split <;> rfl
@[simp] theorem Dev.raise_hbm (d : Dev) (r : Rec) : (d.raise r).hbm = d.hbm := by
  simp only [Dev.raise]; split <;> split <;> rfl
@[simp] theorem Dev.raise_upd (d : Dev) (r : Rec) : (d.raise r).upd = d.upd := by
  simp only [Dev.raise]; split <;> split <;> rfl
@[simp] theorem Dev.raise_rly (d : Dev) (r : Rec) : (d.raise r).rly = d.rly := by
  simp only [Dev.raise]; split <;> split <;> rfl
@[simp] theorem Dev.raise_dom (d : Dev) (r : Rec) : (d.raise r).dom = d.dom := by
  simp only [Dev.raise]; split <;> split <;> rfl
@[simp] theorem Dev.raise_sec (d : Dev) (r : Rec) : (d.raise r).sec = d.sec := by
  simp only [Dev.raise]; split <;> split <;> rfl
@[simp] theorem Dev.raise_flt (d : Dev) (r : Rec) : (d.raise r).flt = d.flt := by
  simp only [Dev.raise]; split <;> split <;> rfl
@[simp] theorem Dev.raise_swp (d : Dev) (r : Rec) : (d.raise r).swp = d.swp := by
  simp only [Dev.raise]; split <;> split <;> rfl
@[simp] theorem Dev.raise_pcie (d : Dev) (r : Rec) : (d.raise r).pcie = d.pcie := by
  simp only [Dev.raise]; split <;> split <;> rfl
@[simp] theorem Dev.raise_boot (d : Dev) (r : Rec) : (d.raise r).boot = d.boot := by
  simp only [Dev.raise]; split <;> split <;> rfl
@[simp] theorem Dev.raise_pwr (d : Dev) (r : Rec) : (d.raise r).pwr = d.pwr := by
  simp only [Dev.raise]; split <;> split <;> rfl
@[simp] theorem Dev.raise_start (d : Dev) (r : Rec) : (d.raise r).start = d.start := by
  simp only [Dev.raise]; split <;> split <;> rfl
@[simp] theorem Dev.raise_ctx (d : Dev) (r : Rec) : (d.raise r).ctx = d.ctx := by
  simp only [Dev.raise]; split <;> split <;> rfl
@[simp] theorem Dev.raise_ctxGroup (d : Dev) (r : Rec) : (d.raise r).ctxGroup = d.ctxGroup := by
  simp only [Dev.raise]; split <;> split <;> rfl
@[simp] theorem Dev.raise_ctxRot (d : Dev) (r : Rec) : (d.raise r).ctxRot = d.ctxRot := by
  simp only [Dev.raise]; split <;> split <;> rfl
@[simp] theorem Dev.raise_sram (d : Dev) (r : Rec) : (d.raise r).sram = d.sram := by
  simp only [Dev.raise]; split <;> split <;> rfl
@[simp] theorem Dev.raise_free (d : Dev) (r : Rec) : (d.raise r).free = d.free := by
  simp only [Dev.raise]; split <;> split <;> rfl

/-! ### `Dev.raiseOnce` -/

@[simp] theorem Dev.raiseOnce_now (d : Dev) (k : Nat) (r : Rec) : (d.raiseOnce k r).now = d.now := by
  unfold Dev.raiseOnce; split <;> simp
@[simp] theorem Dev.raiseOnce_moduleId (d : Dev) (k : Nat) (r : Rec) : (d.raiseOnce k r).moduleId = d.moduleId := by
  unfold Dev.raiseOnce; split <;> simp
@[simp] theorem Dev.raiseOnce_serialNo (d : Dev) (k : Nat) (r : Rec) : (d.raiseOnce k r).serialNo = d.serialNo := by
  unfold Dev.raiseOnce; split <;> simp
@[simp] theorem Dev.raiseOnce_dateCode (d : Dev) (k : Nat) (r : Rec) : (d.raiseOnce k r).dateCode = d.dateCode := by
  unfold Dev.raiseOnce; split <;> simp
@[simp] theorem Dev.raiseOnce_lap (d : Dev) (k : Nat) (r : Rec) : (d.raiseOnce k r).lap = d.lap := by
  unfold Dev.raiseOnce; split <;> simp
@[simp] theorem Dev.raiseOnce_img (d : Dev) (k : Nat) (r : Rec) : (d.raiseOnce k r).img = d.img := by
  unfold Dev.raiseOnce; split <;> simp
@[simp] theorem Dev.raiseOnce_streams (d : Dev) (k : Nat) (r : Rec) : (d.raiseOnce k r).streams = d.streams := by
  unfold Dev.raiseOnce; split <;> simp
@[simp] theorem Dev.raiseOnce_mar (d : Dev) (k : Nat) (r : Rec) : (d.raiseOnce k r).mar = d.mar := by
  unfold Dev.raiseOnce; split <;> simp
@[simp] theorem Dev.raiseOnce_prm (d : Dev) (k : Nat) (r : Rec) : (d.raiseOnce k r).prm = d.prm := by
  unfold Dev.raiseOnce; split <;> simp
@[simp] theorem Dev.raiseOnce_hbm (d : Dev) (k : Nat) (r : Rec) : (d.raiseOnce k r).hbm = d.hbm := by
  unfold Dev.raiseOnce; split <;> simp
@[simp] theorem Dev.raiseOnce_upd (d : Dev) (k : Nat) (r : Rec) : (d.raiseOnce k r).upd = d.upd := by
  unfold Dev.raiseOnce; split <;> simp
@[simp] theorem Dev.raiseOnce_rly (d : Dev) (k : Nat) (r : Rec) : (d.raiseOnce k r).rly = d.rly := by
  unfold Dev.raiseOnce; split <;> simp
@[simp] theorem Dev.raiseOnce_dom (d : Dev) (k : Nat) (r : Rec) : (d.raiseOnce k r).dom = d.dom := by
  unfold Dev.raiseOnce; split <;> simp
@[simp] theorem Dev.raiseOnce_sec (d : Dev) (k : Nat) (r : Rec) : (d.raiseOnce k r).sec = d.sec := by
  unfold Dev.raiseOnce; split <;> simp
@[simp] theorem Dev.raiseOnce_swp (d : Dev) (k : Nat) (r : Rec) : (d.raiseOnce k r).swp = d.swp := by
  unfold Dev.raiseOnce; split <;> simp
@[simp] theorem Dev.raiseOnce_pcie (d : Dev) (k : Nat) (r : Rec) : (d.raiseOnce k r).pcie = d.pcie := by
  unfold Dev.raiseOnce; split <;> simp
@[simp] theorem Dev.raiseOnce_boot (d : Dev) (k : Nat) (r : Rec) : (d.raiseOnce k r).boot = d.boot := by
  unfold Dev.raiseOnce; split <;> simp
@[simp] theorem Dev.raiseOnce_pwr (d : Dev) (k : Nat) (r : Rec) : (d.raiseOnce k r).pwr = d.pwr := by
  unfold Dev.raiseOnce; split <;> simp
@[simp] theorem Dev.raiseOnce_start (d : Dev) (k : Nat) (r : Rec) : (d.raiseOnce k r).start = d.start := by
  unfold Dev.raiseOnce; split <;> simp
@[simp] theorem Dev.raiseOnce_ctx (d : Dev) (k : Nat) (r : Rec) : (d.raiseOnce k r).ctx = d.ctx := by
  unfold Dev.raiseOnce; split <;> simp
@[simp] theorem Dev.raiseOnce_ctxGroup (d : Dev) (k : Nat) (r : Rec) : (d.raiseOnce k r).ctxGroup = d.ctxGroup := by
  unfold Dev.raiseOnce; split <;> simp
@[simp] theorem Dev.raiseOnce_ctxRot (d : Dev) (k : Nat) (r : Rec) : (d.raiseOnce k r).ctxRot = d.ctxRot := by
  unfold Dev.raiseOnce; split <;> simp
@[simp] theorem Dev.raiseOnce_sram (d : Dev) (k : Nat) (r : Rec) : (d.raiseOnce k r).sram = d.sram := by
  unfold Dev.raiseOnce; split <;> simp
@[simp] theorem Dev.raiseOnce_free (d : Dev) (k : Nat) (r : Rec) : (d.raiseOnce k r).free = d.free := by
  unfold Dev.raiseOnce; split <;> simp

/-! ### `Dev.streamConfig` -/

@[simp] theorem Dev.streamConfig_now (d : Dev) (n : Nat) : (d.streamConfig n).now = d.now := by
  unfold Dev.streamConfig; simp
@[simp] theorem Dev.streamConfig_moduleId (d : Dev) (n : Nat) : (d.streamConfig n).moduleId = d.moduleId := by
  unfold Dev.streamConfig; simp
@[simp] theorem Dev.streamConfig_serialNo (d : Dev) (n : Nat) : (d.streamConfig n).serialNo = d.serialNo := by
  unfold Dev.streamConfig; simp
@[simp] theorem Dev.streamConfig_dateCode (d : Dev) (n : Nat) : (d.streamConfig n).dateCode = d.dateCode := by
  unfold Dev.streamConfig; simp
@[simp] theorem Dev.streamConfig_lap (d : Dev) (n : Nat) : (d.streamConfig n).lap = d.lap := by
  unfold Dev.streamConfig; simp
@[simp] theorem Dev.streamConfig_img (d : Dev) (n : Nat) : (d.streamConfig n).img = d.img := by
  unfold Dev.streamConfig; simp
@[simp] theorem Dev.streamConfig_streams (d : Dev) (n : Nat) : (d.streamConfig n).streams = d.streams := by
  unfold Dev.streamConfig; simp
@[simp] theorem Dev.streamConfig_mar (d : Dev) (n : Nat) : (d.streamConfig n).mar = d.mar := by
  unfold Dev.streamConfig; simp
@[simp] theorem Dev.streamConfig_prm (d : Dev) (n : Nat) : (d.streamConfig n).prm = d.prm := by
  unfold Dev.streamConfig; simp
@[simp] theorem Dev.streamConfig_hbm (d : Dev) (n : Nat) : (d.streamConfig n).hbm = d.hbm := by
  unfold Dev.streamConfig; simp
@[simp] theorem Dev.streamConfig_upd (d : Dev) (n : Nat) : (d.streamConfig n).upd = d.upd := by
  unfold Dev.streamConfig; simp
@[simp] theorem Dev.streamConfig_rly (d : Dev) (n : Nat) : (d.streamConfig n).rly = d.rly := by
  unfold Dev.streamConfig; simp
@[simp] theorem Dev.streamConfig_dom (d : Dev) (n : Nat) : (d.streamConfig n).dom = d.dom := by
  unfold Dev.streamConfig; simp
@[simp] theorem Dev.streamConfig_sec (d : Dev) (n : Nat) : (d.streamConfig n).sec = d.sec := by
  unfold Dev.streamConfig; simp
@[simp] theorem Dev.streamConfig_flt (d : Dev) (n : Nat) : (d.streamConfig n).flt = d.flt := by
  unfold Dev.streamConfig; simp
@[simp] theorem Dev.streamConfig_swp (d : Dev) (n : Nat) : (d.streamConfig n).swp = d.swp := by
  unfold Dev.streamConfig; simp
@[simp] theorem Dev.streamConfig_pcie (d : Dev) (n : Nat) : (d.streamConfig n).pcie = d.pcie := by
  unfold Dev.streamConfig; simp
@[simp] theorem Dev.streamConfig_boot (d : Dev) (n : Nat) : (d.streamConfig n).boot = d.boot := by
  unfold Dev.streamConfig; simp
@[simp] theorem Dev.streamConfig_pwr (d : Dev) (n : Nat) : (d.streamConfig n).pwr = d.pwr := by
  unfold Dev.streamConfig; simp
@[simp] theorem Dev.streamConfig_start (d : Dev) (n : Nat) : (d.streamConfig n).start = d.start := by
  unfold Dev.streamConfig; simp
@[simp] theorem Dev.streamConfig_ctx (d : Dev) (n : Nat) : (d.streamConfig n).ctx = d.ctx := by
  unfold Dev.streamConfig; simp
@[simp] theorem Dev.streamConfig_ctxGroup (d : Dev) (n : Nat) : (d.streamConfig n).ctxGroup = d.ctxGroup := by
  unfold Dev.streamConfig; simp
@[simp] theorem Dev.streamConfig_ctxRot (d : Dev) (n : Nat) : (d.streamConfig n).ctxRot = d.ctxRot := by
  unfold Dev.streamConfig; simp
@[simp] theorem Dev.streamConfig_sram (d : Dev) (n : Nat) : (d.streamConfig n).sram = d.sram := by
  unfold Dev.streamConfig; simp
@[simp] theorem Dev.streamConfig_free (d : Dev) (n : Nat) : (d.streamConfig n).free = d.free := by
  unfold Dev.streamConfig; simp

/-! ### `Dev.send` -/

@[simp] theorem Dev.send_now (d : Dev) (q : Nat) (m : Message) : (d.send q m).now = d.now := by
  unfold Dev.send; split <;> rfl
@[simp] theorem Dev.send_moduleId (d : Dev) (q : Nat) (m : Message) : (d.send q m).moduleId = d.moduleId := by
  unfold Dev.send; split <;> rfl
@[simp] theorem Dev.send_serialNo (d : Dev) (q : Nat) (m : Message) : (d.send q m).serialNo = d.serialNo := by
  unfold Dev.send; split <;> rfl
@[simp] theorem Dev.send_dateCode (d : Dev) (q : Nat) (m : Message) : (d.send q m).dateCode = d.dateCode := by
  unfold Dev.send; split <;> rfl
@[simp] theorem Dev.send_lap (d : Dev) (q : Nat) (m : Message) : (d.send q m).lap = d.lap := by
  unfold Dev.send; split <;> rfl
@[simp] theorem Dev.send_img (d : Dev) (q : Nat) (m : Message) : (d.send q m).img = d.img := by
  unfold Dev.send; split <;> rfl
@[simp] theorem Dev.send_streams (d : Dev) (q : Nat) (m : Message) : (d.send q m).streams = d.streams := by
  unfold Dev.send; split <;> rfl
@[simp] theorem Dev.send_mar (d : Dev) (q : Nat) (m : Message) : (d.send q m).mar = d.mar := by
  unfold Dev.send; split <;> rfl
@[simp] theorem Dev.send_prm (d : Dev) (q : Nat) (m : Message) : (d.send q m).prm = d.prm := by
  unfold Dev.send; split <;> rfl
@[simp] theorem Dev.send_hbm (d : Dev) (q : Nat) (m : Message) : (d.send q m).hbm = d.hbm := by
  unfold Dev.send; split <;> rfl
@[simp] theorem Dev.send_upd (d : Dev) (q : Nat) (m : Message) : (d.send q m).upd = d.upd := by
  unfold Dev.send; split <;> rfl
@[simp] theorem Dev.send_rly (d : Dev) (q : Nat) (m : Message) : (d.send q m).rly = d.rly := by
  unfold Dev.send; split <;> rfl
@[simp] theorem Dev.send_dom (d : Dev) (q : Nat) (m : Message) : (d.send q m).dom = d.dom := by
  unfold Dev.send; split <;> rfl
@[simp] theorem Dev.send_sec (d : Dev) (q : Nat) (m : Message) : (d.send q m).sec = d.sec := by
  unfold Dev.send; split <;> rfl
@[simp] theorem Dev.send_flt (d : Dev) (q : Nat) (m : Message) : (d.send q m).flt = d.flt := by
  unfold Dev.send; split <;> rfl
@[simp] theorem Dev.send_swp (d : Dev) (q : Nat) (m : Message) : (d.send q m).swp = d.swp := by
  unfold Dev.send; split <;> rfl
@[simp] theorem Dev.send_evt (d : Dev) (q : Nat) (m : Message) : (d.send q m).evt = d.evt := by
  unfold Dev.send; split <;> rfl
@[simp] theorem Dev.send_pcie (d : Dev) (q : Nat) (m : Message) : (d.send q m).pcie = d.pcie := by
  unfold Dev.send; split <;> rfl
@[simp] theorem Dev.send_boot (d : Dev) (q : Nat) (m : Message) : (d.send q m).boot = d.boot := by
  unfold Dev.send; split <;> rfl
@[simp] theorem Dev.send_pwr (d : Dev) (q : Nat) (m : Message) : (d.send q m).pwr = d.pwr := by
  unfold Dev.send; split <;> rfl
@[simp] theorem Dev.send_start (d : Dev) (q : Nat) (m : Message) : (d.send q m).start = d.start := by
  unfold Dev.send; split <;> rfl
@[simp] theorem Dev.send_ctx (d : Dev) (q : Nat) (m : Message) : (d.send q m).ctx = d.ctx := by
  unfold Dev.send; split <;> rfl
@[simp] theorem Dev.send_ctxGroup (d : Dev) (q : Nat) (m : Message) : (d.send q m).ctxGroup = d.ctxGroup := by
  unfold Dev.send; split <;> rfl
@[simp] theorem Dev.send_ctxRot (d : Dev) (q : Nat) (m : Message) : (d.send q m).ctxRot = d.ctxRot := by
  unfold Dev.send; split <;> rfl
@[simp] theorem Dev.send_sram (d : Dev) (q : Nat) (m : Message) : (d.send q m).sram = d.sram := by
  unfold Dev.send; split <;> rfl
@[simp] theorem Dev.send_latched (d : Dev) (q : Nat) (m : Message) : (d.send q m).latched = d.latched := by
  unfold Dev.send; split <;> rfl
@[simp] theorem Dev.send_free (d : Dev) (q : Nat) (m : Message) : (d.send q m).free = d.free := by
  unfold Dev.send; split <;> rfl

/-! ### `Dev.notify` -/

@[simp] theorem Dev.notify_now (d : Dev) (c k : Nat) (x : NoticeKind) : (d.notify c k x).now = d.now := by
  unfold Dev.notify; split <;> simp
@[simp] theorem Dev.notify_moduleId (d : Dev) (c k : Nat) (x : NoticeKind) : (d.notify c k x).moduleId = d.moduleId := by
  unfold Dev.notify; split <;> simp
@[simp] theorem Dev.notify_serialNo (d : Dev) (c k : Nat) (x : NoticeKind) : (d.notify c k x).serialNo = d.serialNo := by
  unfold Dev.notify; split <;> simp
@[simp] theorem Dev.notify_dateCode (d : Dev) (c k : Nat) (x : NoticeKind) : (d.notify c k x).dateCode = d.dateCode := by
  unfold Dev.notify; split <;> simp
@[simp] theorem Dev.notify_lap (d : Dev) (c k : Nat) (x : NoticeKind) : (d.notify c k x).lap = d.lap := by
  unfold Dev.notify; split <;> simp
@[simp] theorem Dev.notify_img (d : Dev) (c k : Nat) (x : NoticeKind) : (d.notify c k x).img = d.img := by
  unfold Dev.notify; split <;> simp
@[simp] theorem Dev.notify_streams (d : Dev) (c k : Nat) (x : NoticeKind) : (d.notify c k x).streams = d.streams := by
  unfold Dev.notify; split <;> simp
@[simp] theorem Dev.notify_mar (d : Dev) (c k : Nat) (x : NoticeKind) : (d.notify c k x).mar = d.mar := by
  unfold Dev.notify; split <;> simp
@[simp] theorem Dev.notify_prm (d : Dev) (c k : Nat) (x : NoticeKind) : (d.notify c k x).prm = d.prm := by
  unfold Dev.notify; split <;> simp
@[simp] theorem Dev.notify_hbm (d : Dev) (c k : Nat) (x : NoticeKind) : (d.notify c k x).hbm = d.hbm := by
  unfold Dev.notify; split <;> simp
@[simp] theorem Dev.notify_upd (d : Dev) (c k : Nat) (x : NoticeKind) : (d.notify c k x).upd = d.upd := by
  unfold Dev.notify; split <;> simp
@[simp] theorem Dev.notify_rly (d : Dev) (c k : Nat) (x : NoticeKind) : (d.notify c k x).rly = d.rly := by
  unfold Dev.notify; split <;> simp
@[simp] theorem Dev.notify_dom (d : Dev) (c k : Nat) (x : NoticeKind) : (d.notify c k x).dom = d.dom := by
  unfold Dev.notify; split <;> simp
@[simp] theorem Dev.notify_sec (d : Dev) (c k : Nat) (x : NoticeKind) : (d.notify c k x).sec = d.sec := by
  unfold Dev.notify; split <;> simp
@[simp] theorem Dev.notify_flt (d : Dev) (c k : Nat) (x : NoticeKind) : (d.notify c k x).flt = d.flt := by
  unfold Dev.notify; split <;> simp
@[simp] theorem Dev.notify_swp (d : Dev) (c k : Nat) (x : NoticeKind) : (d.notify c k x).swp = d.swp := by
  unfold Dev.notify; split <;> simp
@[simp] theorem Dev.notify_evt (d : Dev) (c k : Nat) (x : NoticeKind) : (d.notify c k x).evt = d.evt := by
  unfold Dev.notify; split <;> simp
@[simp] theorem Dev.notify_pcie (d : Dev) (c k : Nat) (x : NoticeKind) : (d.notify c k x).pcie = d.pcie := by
  unfold Dev.notify; split <;> simp
@[simp] theorem Dev.notify_boot (d : Dev) (c k : Nat) (x : NoticeKind) : (d.notify c k x).boot = d.boot := by
  unfold Dev.notify; split <;> simp
@[simp] theorem Dev.notify_pwr (d : Dev) (c k : Nat) (x : NoticeKind) : (d.notify c k x).pwr = d.pwr := by
  unfold Dev.notify; split <;> simp
@[simp] theorem Dev.notify_start (d : Dev) (c k : Nat) (x : NoticeKind) : (d.notify c k x).start = d.start := by
  unfold Dev.notify; split <;> simp
@[simp] theorem Dev.notify_ctx (d : Dev) (c k : Nat) (x : NoticeKind) : (d.notify c k x).ctx = d.ctx := by
  unfold Dev.notify; split <;> simp
@[simp] theorem Dev.notify_ctxGroup (d : Dev) (c k : Nat) (x : NoticeKind) : (d.notify c k x).ctxGroup = d.ctxGroup := by
  unfold Dev.notify; split <;> simp
@[simp] theorem Dev.notify_ctxRot (d : Dev) (c k : Nat) (x : NoticeKind) : (d.notify c k x).ctxRot = d.ctxRot := by
  unfold Dev.notify; split <;> simp
@[simp] theorem Dev.notify_sram (d : Dev) (c k : Nat) (x : NoticeKind) : (d.notify c k x).sram = d.sram := by
  unfold Dev.notify; split <;> simp
@[simp] theorem Dev.notify_latched (d : Dev) (c k : Nat) (x : NoticeKind) : (d.notify c k x).latched = d.latched := by
  unfold Dev.notify; split <;> simp
@[simp] theorem Dev.notify_free (d : Dev) (c k : Nat) (x : NoticeKind) : (d.notify c k x).free = d.free := by
  unfold Dev.notify; split <;> simp

/-! ### `Dev.halt` -/

@[simp] theorem Dev.halt_now (d : Dev) (c k cause : Nat) (i : W32) : (d.halt c k cause i).now = d.now := by
  simp only [Dev.halt]; split <;> [simp; (split <;> simp)]
@[simp] theorem Dev.halt_moduleId (d : Dev) (c k cause : Nat) (i : W32) : (d.halt c k cause i).moduleId = d.moduleId := by
  simp only [Dev.halt]; split <;> [simp; (split <;> simp)]
@[simp] theorem Dev.halt_serialNo (d : Dev) (c k cause : Nat) (i : W32) : (d.halt c k cause i).serialNo = d.serialNo := by
  simp only [Dev.halt]; split <;> [simp; (split <;> simp)]
@[simp] theorem Dev.halt_dateCode (d : Dev) (c k cause : Nat) (i : W32) : (d.halt c k cause i).dateCode = d.dateCode := by
  simp only [Dev.halt]; split <;> [simp; (split <;> simp)]
@[simp] theorem Dev.halt_lap (d : Dev) (c k cause : Nat) (i : W32) : (d.halt c k cause i).lap = d.lap := by
  simp only [Dev.halt]; split <;> [simp; (split <;> simp)]
@[simp] theorem Dev.halt_img (d : Dev) (c k cause : Nat) (i : W32) : (d.halt c k cause i).img = d.img := by
  simp only [Dev.halt]; split <;> [simp; (split <;> simp)]
@[simp] theorem Dev.halt_mar (d : Dev) (c k cause : Nat) (i : W32) : (d.halt c k cause i).mar = d.mar := by
  simp only [Dev.halt]; split <;> [simp; (split <;> simp)]
@[simp] theorem Dev.halt_prm (d : Dev) (c k cause : Nat) (i : W32) : (d.halt c k cause i).prm = d.prm := by
  simp only [Dev.halt]; split <;> [simp; (split <;> simp)]
@[simp] theorem Dev.halt_hbm (d : Dev) (c k cause : Nat) (i : W32) : (d.halt c k cause i).hbm = d.hbm := by
  simp only [Dev.halt]; split <;> [simp; (split <;> simp)]
@[simp] theorem Dev.halt_upd (d : Dev) (c k cause : Nat) (i : W32) : (d.halt c k cause i).upd = d.upd := by
  simp only [Dev.halt]; split <;> [simp; (split <;> simp)]
@[simp] theorem Dev.halt_rly (d : Dev) (c k cause : Nat) (i : W32) : (d.halt c k cause i).rly = d.rly := by
  simp only [Dev.halt]; split <;> [simp; (split <;> simp)]
@[simp] theorem Dev.halt_dom (d : Dev) (c k cause : Nat) (i : W32) : (d.halt c k cause i).dom = d.dom := by
  simp only [Dev.halt]; split <;> [simp; (split <;> simp)]
@[simp] theorem Dev.halt_sec (d : Dev) (c k cause : Nat) (i : W32) : (d.halt c k cause i).sec = d.sec := by
  simp only [Dev.halt]; split <;> [simp; (split <;> simp)]
@[simp] theorem Dev.halt_flt (d : Dev) (c k cause : Nat) (i : W32) : (d.halt c k cause i).flt = d.flt := by
  simp only [Dev.halt]; split <;> [simp; (split <;> simp)]
@[simp] theorem Dev.halt_swp (d : Dev) (c k cause : Nat) (i : W32) : (d.halt c k cause i).swp = d.swp := by
  simp only [Dev.halt]; split <;> [simp; (split <;> simp)]
@[simp] theorem Dev.halt_evt (d : Dev) (c k cause : Nat) (i : W32) : (d.halt c k cause i).evt = d.evt := by
  simp only [Dev.halt]; split <;> [simp; (split <;> simp)]
@[simp] theorem Dev.halt_boot (d : Dev) (c k cause : Nat) (i : W32) : (d.halt c k cause i).boot = d.boot := by
  simp only [Dev.halt]; split <;> [simp; (split <;> simp)]
@[simp] theorem Dev.halt_pwr (d : Dev) (c k cause : Nat) (i : W32) : (d.halt c k cause i).pwr = d.pwr := by
  simp only [Dev.halt]; split <;> [simp; (split <;> simp)]
@[simp] theorem Dev.halt_start (d : Dev) (c k cause : Nat) (i : W32) : (d.halt c k cause i).start = d.start := by
  simp only [Dev.halt]; split <;> [simp; (split <;> simp)]
@[simp] theorem Dev.halt_ctx (d : Dev) (c k cause : Nat) (i : W32) : (d.halt c k cause i).ctx = d.ctx := by
  simp only [Dev.halt]; split <;> [simp; (split <;> simp)]
@[simp] theorem Dev.halt_ctxGroup (d : Dev) (c k cause : Nat) (i : W32) : (d.halt c k cause i).ctxGroup = d.ctxGroup := by
  simp only [Dev.halt]; split <;> [simp; (split <;> simp)]
@[simp] theorem Dev.halt_ctxRot (d : Dev) (c k cause : Nat) (i : W32) : (d.halt c k cause i).ctxRot = d.ctxRot := by
  simp only [Dev.halt]; split <;> [simp; (split <;> simp)]
@[simp] theorem Dev.halt_sram (d : Dev) (c k cause : Nat) (i : W32) : (d.halt c k cause i).sram = d.sram := by
  simp only [Dev.halt]; split <;> [simp; (split <;> simp)]
@[simp] theorem Dev.halt_latched (d : Dev) (c k cause : Nat) (i : W32) : (d.halt c k cause i).latched = d.latched := by
  simp only [Dev.halt]; split <;> [simp; (split <;> simp)]
@[simp] theorem Dev.halt_free (d : Dev) (c k cause : Nat) (i : W32) : (d.halt c k cause i).free = d.free := by
  simp only [Dev.halt]; split <;> [simp; (split <;> simp)]

/-! ### The event log -/

/-- A record takes the next SEQ, and the newest place of the recent ones. -/
theorem Dev.raise_seq (d : Dev) (r : Rec) : (d.raise r).evt.seq = d.evt.seq + 1 := by
  have h : (d.buffer { r with seq := d.evt.seq, lap := d.lap.count, cycle := d.lap.cycle }).1.seq = d.evt.seq := by
    simp only [Dev.buffer]
    repeat' split
    all_goals rfl
  simp only [Dev.raise]
  split <;> split <;> simp [Dev.emit, Dev.latch, h]

end Sys2Proof.Machine
end

