-- ==== Sys2Proof/Laws/Scoreboard.lean ====
section
/-! SUPPORT. What the scoreboard's operations leave alone (R201, R229, R238): one lemma for each, which says every field
that it keeps. -/

namespace Sys2Proof.Machine

/-- What every step of a fold keeps, the fold keeps. -/
theorem foldl_keeps {α β : Type} (p : Dev → β) (f : Dev → α → Dev) (h : ∀ d x, p (f d x) = p d) (l : List α) :
    ∀ d, p (l.foldl f d) = p d := by
  induction l with
  | nil => intro d; rfl
  | cons a l ih => intro d; rw [List.foldl_cons, ih, h]

/-- What every step of a fold preserves, the fold preserves. -/
theorem foldl_inv {α : Type} (p : Dev → Prop) (f : Dev → α → Dev) (h : ∀ d x, p d → p (f d x)) (l : List α) :
    ∀ d, p d → p (l.foldl f d) := by
  induction l with
  | nil => intro d hd; exact hd
  | cons a l ih => intro d hd; exact ih _ (h d a hd)

/-- A change of heats changes no other part of the marshal. -/
@[simp] theorem Dev.setHeat_mar_frame (d : Dev) (h : HeatId) (f : Heat → Heat) :
    (d.setHeat h f).mar.rotation = d.mar.rotation ∧
    (d.setHeat h f).mar.nextOrder = d.mar.nextOrder ∧
    (d.setHeat h f).mar.acc = d.mar.acc ∧
    (d.setHeat h f).mar.weights = d.mar.weights ∧
    (d.setHeat h f).mar.wlive = d.mar.wlive ∧
    (d.setHeat h f).mar.store = d.mar.store ∧
    (d.setHeat h f).mar.unreported = d.mar.unreported ∧
    (d.setHeat h f).mar.watched = d.mar.watched ∧
    (d.setHeat h f).mar.full = d.mar.full ∧
    (d.setHeat h f).mar.claim = d.mar.claim ∧
    (d.setHeat h f).mar.leaving = d.mar.leaving ∧
    (d.setHeat h f).mar.pondSeen = d.mar.pondSeen ∧
    (d.setHeat h f).mar.hbmSeen = d.mar.hbmSeen ∧
    (d.setHeat h f).mar.signals = d.mar.signals := by
  exact ⟨rfl, rfl, rfl, rfl, rfl, rfl, rfl, rfl, rfl, rfl, rfl, rfl, rfl, rfl⟩

/-- Dropping an entry changes no other part of the marshal. -/
@[simp] theorem Dev.dropHeat_mar_frame (d : Dev) (h : HeatId) :
    (d.dropHeat h).mar.rotation = d.mar.rotation ∧
    (d.dropHeat h).mar.nextOrder = d.mar.nextOrder ∧
    (d.dropHeat h).mar.acc = d.mar.acc ∧
    (d.dropHeat h).mar.weights = d.mar.weights ∧
    (d.dropHeat h).mar.wlive = d.mar.wlive ∧
    (d.dropHeat h).mar.store = d.mar.store ∧
    (d.dropHeat h).mar.unreported = d.mar.unreported ∧
    (d.dropHeat h).mar.watched = d.mar.watched ∧
    (d.dropHeat h).mar.full = d.mar.full ∧
    (d.dropHeat h).mar.claim = d.mar.claim ∧
    (d.dropHeat h).mar.leaving = d.mar.leaving ∧
    (d.dropHeat h).mar.pondSeen = d.mar.pondSeen ∧
    (d.dropHeat h).mar.hbmSeen = d.mar.hbmSeen ∧
    (d.dropHeat h).mar.signals = d.mar.signals := by
  exact ⟨rfl, rfl, rfl, rfl, rfl, rfl, rfl, rfl, rfl, rfl, rfl, rfl, rfl, rfl⟩

/-- Only the permit history can change. -/
@[simp] theorem Dev.noteG_frame (d : Dev)  :
    (d.noteG).now = d.now ∧
    (d.noteG).moduleId = d.moduleId ∧
    (d.noteG).serialNo = d.serialNo ∧
    (d.noteG).dateCode = d.dateCode ∧
    (d.noteG).lap = d.lap ∧
    (d.noteG).img = d.img ∧
    (d.noteG).streams = d.streams ∧
    (d.noteG).hbm = d.hbm ∧
    (d.noteG).upd = d.upd ∧
    (d.noteG).rly = d.rly ∧
    (d.noteG).dom = d.dom ∧
    (d.noteG).sec = d.sec ∧
    (d.noteG).flt = d.flt ∧
    (d.noteG).swp = d.swp ∧
    (d.noteG).boot = d.boot ∧
    (d.noteG).pwr = d.pwr ∧
    (d.noteG).start = d.start ∧
    (d.noteG).ctx = d.ctx ∧
    (d.noteG).ctxGroup = d.ctxGroup ∧
    (d.noteG).ctxRot = d.ctxRot ∧
    (d.noteG).sram = d.sram ∧
    (d.noteG).free = d.free ∧
    (d.noteG).mar = d.mar ∧
    (d.noteG).evt = d.evt ∧
    (d.noteG).pcie = d.pcie ∧
    (d.noteG).out = d.out ∧
    (d.noteG).latched = d.latched := by
  simp only [Dev.noteG]
  split <;> simp

/-- A permit request changes heats, permits and what it says. -/
@[simp] theorem Dev.requestPermit_frame (d : Dev) (h : Heat) :
    (d.requestPermit h).now = d.now ∧
    (d.requestPermit h).moduleId = d.moduleId ∧
    (d.requestPermit h).serialNo = d.serialNo ∧
    (d.requestPermit h).dateCode = d.dateCode ∧
    (d.requestPermit h).lap = d.lap ∧
    (d.requestPermit h).img = d.img ∧
    (d.requestPermit h).streams = d.streams ∧
    (d.requestPermit h).hbm = d.hbm ∧
    (d.requestPermit h).upd = d.upd ∧
    (d.requestPermit h).rly = d.rly ∧
    (d.requestPermit h).dom = d.dom ∧
    (d.requestPermit h).sec = d.sec ∧
    (d.requestPermit h).flt = d.flt ∧
    (d.requestPermit h).swp = d.swp ∧
    (d.requestPermit h).boot = d.boot ∧
    (d.requestPermit h).pwr = d.pwr ∧
    (d.requestPermit h).start = d.start ∧
    (d.requestPermit h).ctx = d.ctx ∧
    (d.requestPermit h).ctxGroup = d.ctxGroup ∧
    (d.requestPermit h).ctxRot = d.ctxRot ∧
    (d.requestPermit h).sram = d.sram ∧
    (d.requestPermit h).free = d.free ∧
    (d.requestPermit h).mar.rotation = d.mar.rotation ∧
    (d.requestPermit h).mar.nextOrder = d.mar.nextOrder ∧
    (d.requestPermit h).mar.acc = d.mar.acc ∧
    (d.requestPermit h).mar.weights = d.mar.weights ∧
    (d.requestPermit h).mar.wlive = d.mar.wlive ∧
    (d.requestPermit h).mar.store = d.mar.store ∧
    (d.requestPermit h).mar.unreported = d.mar.unreported ∧
    (d.requestPermit h).mar.watched = d.mar.watched ∧
    (d.requestPermit h).mar.full = d.mar.full ∧
    (d.requestPermit h).mar.claim = d.mar.claim ∧
    (d.requestPermit h).mar.leaving = d.mar.leaving ∧
    (d.requestPermit h).mar.pondSeen = d.mar.pondSeen ∧
    (d.requestPermit h).mar.hbmSeen = d.mar.hbmSeen ∧
    (d.requestPermit h).mar.signals = d.mar.signals := by
  simp only [Dev.requestPermit]
  split <;> simp

/-- Judging one heat changes heats, permits and what it says. -/
@[simp] theorem Dev.settleOne_frame (d : Dev) (h : Heat) :
    (d.settleOne h).now = d.now ∧
    (d.settleOne h).moduleId = d.moduleId ∧
    (d.settleOne h).serialNo = d.serialNo ∧
    (d.settleOne h).dateCode = d.dateCode ∧
    (d.settleOne h).lap = d.lap ∧
    (d.settleOne h).img = d.img ∧
    (d.settleOne h).streams = d.streams ∧
    (d.settleOne h).hbm = d.hbm ∧
    (d.settleOne h).upd = d.upd ∧
    (d.settleOne h).rly = d.rly ∧
    (d.settleOne h).dom = d.dom ∧
    (d.settleOne h).sec = d.sec ∧
    (d.settleOne h).flt = d.flt ∧
    (d.settleOne h).swp = d.swp ∧
    (d.settleOne h).boot = d.boot ∧
    (d.settleOne h).pwr = d.pwr ∧
    (d.settleOne h).start = d.start ∧
    (d.settleOne h).ctx = d.ctx ∧
    (d.settleOne h).ctxGroup = d.ctxGroup ∧
    (d.settleOne h).ctxRot = d.ctxRot ∧
    (d.settleOne h).sram = d.sram ∧
    (d.settleOne h).free = d.free ∧
    (d.settleOne h).mar.rotation = d.mar.rotation ∧
    (d.settleOne h).mar.nextOrder = d.mar.nextOrder ∧
    (d.settleOne h).mar.acc = d.mar.acc ∧
    (d.settleOne h).mar.weights = d.mar.weights ∧
    (d.settleOne h).mar.wlive = d.mar.wlive ∧
    (d.settleOne h).mar.store = d.mar.store ∧
    (d.settleOne h).mar.unreported = d.mar.unreported ∧
    (d.settleOne h).mar.watched = d.mar.watched ∧
    (d.settleOne h).mar.full = d.mar.full ∧
    (d.settleOne h).mar.claim = d.mar.claim ∧
    (d.settleOne h).mar.leaving = d.mar.leaving ∧
    (d.settleOne h).mar.pondSeen = d.mar.pondSeen ∧
    (d.settleOne h).mar.hbmSeen = d.mar.hbmSeen ∧
    (d.settleOne h).mar.signals = d.mar.signals := by
  simp only [Dev.settleOne]
  repeat' split
  all_goals simp

/-- Judging every heat changes heats, permits and what it says. -/
@[simp] theorem Dev.settle_frame (d : Dev)  :
    (d.settle).now = d.now ∧
    (d.settle).moduleId = d.moduleId ∧
    (d.settle).serialNo = d.serialNo ∧
    (d.settle).dateCode = d.dateCode ∧
    (d.settle).lap = d.lap ∧
    (d.settle).img = d.img ∧
    (d.settle).streams = d.streams ∧
    (d.settle).hbm = d.hbm ∧
    (d.settle).upd = d.upd ∧
    (d.settle).rly = d.rly ∧
    (d.settle).dom = d.dom ∧
    (d.settle).sec = d.sec ∧
    (d.settle).flt = d.flt ∧
    (d.settle).swp = d.swp ∧
    (d.settle).boot = d.boot ∧
    (d.settle).pwr = d.pwr ∧
    (d.settle).start = d.start ∧
    (d.settle).ctx = d.ctx ∧
    (d.settle).ctxGroup = d.ctxGroup ∧
    (d.settle).ctxRot = d.ctxRot ∧
    (d.settle).sram = d.sram ∧
    (d.settle).free = d.free ∧
    (d.settle).mar.rotation = d.mar.rotation ∧
    (d.settle).mar.nextOrder = d.mar.nextOrder ∧
    (d.settle).mar.acc = d.mar.acc ∧
    (d.settle).mar.weights = d.mar.weights ∧
    (d.settle).mar.wlive = d.mar.wlive ∧
    (d.settle).mar.store = d.mar.store ∧
    (d.settle).mar.unreported = d.mar.unreported ∧
    (d.settle).mar.watched = d.mar.watched ∧
    (d.settle).mar.full = d.mar.full ∧
    (d.settle).mar.claim = d.mar.claim ∧
    (d.settle).mar.leaving = d.mar.leaving ∧
    (d.settle).mar.pondSeen = d.mar.pondSeen ∧
    (d.settle).mar.hbmSeen = d.mar.hbmSeen ∧
    (d.settle).mar.signals = d.mar.signals := by
  unfold Dev.settle
  simp only [Dev.noteG_frame]
  refine ⟨?_, ?_, ?_, ?_, ?_, ?_, ?_, ?_, ?_, ?_, ?_, ?_, ?_, ?_, ?_, ?_, ?_, ?_, ?_, ?_, ?_, ?_, ?_, ?_, ?_, ?_, ?_, ?_, ?_, ?_, ?_, ?_, ?_, ?_, ?_, ?_⟩
  · exact foldl_keeps (fun d => d.now) _ (fun d h => by split <;> simp) _ d
  · exact foldl_keeps (fun d => d.moduleId) _ (fun d h => by split <;> simp) _ d
  · exact foldl_keeps (fun d => d.serialNo) _ (fun d h => by split <;> simp) _ d
  · exact foldl_keeps (fun d => d.dateCode) _ (fun d h => by split <;> simp) _ d
  · exact foldl_keeps (fun d => d.lap) _ (fun d h => by split <;> simp) _ d
  · exact foldl_keeps (fun d => d.img) _ (fun d h => by split <;> simp) _ d
  · exact foldl_keeps (fun d => d.streams) _ (fun d h => by split <;> simp) _ d
  · exact foldl_keeps (fun d => d.hbm) _ (fun d h => by split <;> simp) _ d
  · exact foldl_keeps (fun d => d.upd) _ (fun d h => by split <;> simp) _ d
  · exact foldl_keeps (fun d => d.rly) _ (fun d h => by split <;> simp) _ d
  · exact foldl_keeps (fun d => d.dom) _ (fun d h => by split <;> simp) _ d
  · exact foldl_keeps (fun d => d.sec) _ (fun d h => by split <;> simp) _ d
  · exact foldl_keeps (fun d => d.flt) _ (fun d h => by split <;> simp) _ d
  · exact foldl_keeps (fun d => d.swp) _ (fun d h => by split <;> simp) _ d
  · exact foldl_keeps (fun d => d.boot) _ (fun d h => by split <;> simp) _ d
  · exact foldl_keeps (fun d => d.pwr) _ (fun d h => by split <;> simp) _ d
  · exact foldl_keeps (fun d => d.start) _ (fun d h => by split <;> simp) _ d
  · exact foldl_keeps (fun d => d.ctx) _ (fun d h => by split <;> simp) _ d
  · exact foldl_keeps (fun d => d.ctxGroup) _ (fun d h => by split <;> simp) _ d
  · exact foldl_keeps (fun d => d.ctxRot) _ (fun d h => by split <;> simp) _ d
  · exact foldl_keeps (fun d => d.sram) _ (fun d h => by split <;> simp) _ d
  · exact foldl_keeps (fun d => d.free) _ (fun d h => by split <;> simp) _ d
  · exact foldl_keeps (fun d => d.mar.rotation) _ (fun d h => by split <;> simp) _ d
  · exact foldl_keeps (fun d => d.mar.nextOrder) _ (fun d h => by split <;> simp) _ d
  · exact foldl_keeps (fun d => d.mar.acc) _ (fun d h => by split <;> simp) _ d
  · exact foldl_keeps (fun d => d.mar.weights) _ (fun d h => by split <;> simp) _ d
  · exact foldl_keeps (fun d => d.mar.wlive) _ (fun d h => by split <;> simp) _ d
  · exact foldl_keeps (fun d => d.mar.store) _ (fun d h => by split <;> simp) _ d
  · exact foldl_keeps (fun d => d.mar.unreported) _ (fun d h => by split <;> simp) _ d
  · exact foldl_keeps (fun d => d.mar.watched) _ (fun d h => by split <;> simp) _ d
  · exact foldl_keeps (fun d => d.mar.full) _ (fun d h => by split <;> simp) _ d
  · exact foldl_keeps (fun d => d.mar.claim) _ (fun d h => by split <;> simp) _ d
  · exact foldl_keeps (fun d => d.mar.leaving) _ (fun d h => by split <;> simp) _ d
  · exact foldl_keeps (fun d => d.mar.pondSeen) _ (fun d h => by split <;> simp) _ d
  · exact foldl_keeps (fun d => d.mar.hbmSeen) _ (fun d h => by split <;> simp) _ d
  · exact foldl_keeps (fun d => d.mar.signals) _ (fun d h => by split <;> simp) _ d

/-- A mark changes its stream only. -/
@[simp] theorem Dev.markDead_frame (d : Dev) (h : HeatId) (c : Bool) :
    (d.markDead h c).now = d.now ∧
    (d.markDead h c).moduleId = d.moduleId ∧
    (d.markDead h c).serialNo = d.serialNo ∧
    (d.markDead h c).dateCode = d.dateCode ∧
    (d.markDead h c).lap = d.lap ∧
    (d.markDead h c).img = d.img ∧
    (d.markDead h c).hbm = d.hbm ∧
    (d.markDead h c).upd = d.upd ∧
    (d.markDead h c).rly = d.rly ∧
    (d.markDead h c).dom = d.dom ∧
    (d.markDead h c).sec = d.sec ∧
    (d.markDead h c).flt = d.flt ∧
    (d.markDead h c).swp = d.swp ∧
    (d.markDead h c).boot = d.boot ∧
    (d.markDead h c).pwr = d.pwr ∧
    (d.markDead h c).start = d.start ∧
    (d.markDead h c).ctx = d.ctx ∧
    (d.markDead h c).ctxGroup = d.ctxGroup ∧
    (d.markDead h c).ctxRot = d.ctxRot ∧
    (d.markDead h c).sram = d.sram ∧
    (d.markDead h c).free = d.free ∧
    (d.markDead h c).mar = d.mar ∧
    (d.markDead h c).prm = d.prm ∧
    (d.markDead h c).evt = d.evt ∧
    (d.markDead h c).pcie = d.pcie ∧
    (d.markDead h c).out = d.out := by
  simp [Dev.markDead]

/-- Withholding changes the domain's list only. -/
@[simp] theorem Dev.withhold_frame (d : Dev) (h : Heat) :
    (d.withhold h).now = d.now ∧
    (d.withhold h).moduleId = d.moduleId ∧
    (d.withhold h).serialNo = d.serialNo ∧
    (d.withhold h).dateCode = d.dateCode ∧
    (d.withhold h).lap = d.lap ∧
    (d.withhold h).img = d.img ∧
    (d.withhold h).streams = d.streams ∧
    (d.withhold h).hbm = d.hbm ∧
    (d.withhold h).upd = d.upd ∧
    (d.withhold h).rly = d.rly ∧
    (d.withhold h).sec = d.sec ∧
    (d.withhold h).flt = d.flt ∧
    (d.withhold h).swp = d.swp ∧
    (d.withhold h).boot = d.boot ∧
    (d.withhold h).pwr = d.pwr ∧
    (d.withhold h).start = d.start ∧
    (d.withhold h).ctx = d.ctx ∧
    (d.withhold h).ctxGroup = d.ctxGroup ∧
    (d.withhold h).ctxRot = d.ctxRot ∧
    (d.withhold h).sram = d.sram ∧
    (d.withhold h).free = d.free ∧
    (d.withhold h).mar = d.mar ∧
    (d.withhold h).prm = d.prm ∧
    (d.withhold h).evt = d.evt ∧
    (d.withhold h).pcie = d.pcie ∧
    (d.withhold h).out = d.out := by
  unfold Dev.withhold
  split
  · split <;> simp
  · simp

/-- Withdrawing changes requests only. -/
@[simp] theorem Dev.withdraw_frame (d : Dev) (h : HeatId) :
    (d.withdraw h).now = d.now ∧
    (d.withdraw h).moduleId = d.moduleId ∧
    (d.withdraw h).serialNo = d.serialNo ∧
    (d.withdraw h).dateCode = d.dateCode ∧
    (d.withdraw h).lap = d.lap ∧
    (d.withdraw h).img = d.img ∧
    (d.withdraw h).streams = d.streams ∧
    (d.withdraw h).upd = d.upd ∧
    (d.withdraw h).rly = d.rly ∧
    (d.withdraw h).dom = d.dom ∧
    (d.withdraw h).sec = d.sec ∧
    (d.withdraw h).flt = d.flt ∧
    (d.withdraw h).swp = d.swp ∧
    (d.withdraw h).boot = d.boot ∧
    (d.withdraw h).pwr = d.pwr ∧
    (d.withdraw h).start = d.start ∧
    (d.withdraw h).ctx = d.ctx ∧
    (d.withdraw h).ctxGroup = d.ctxGroup ∧
    (d.withdraw h).ctxRot = d.ctxRot ∧
    (d.withdraw h).sram = d.sram ∧
    (d.withdraw h).free = d.free ∧
    (d.withdraw h).mar = d.mar ∧
    (d.withdraw h).prm = d.prm ∧
    (d.withdraw h).evt = d.evt ∧
    (d.withdraw h).pcie = d.pcie ∧
    (d.withdraw h).out = d.out := by
  simp [Dev.withdraw]

/-- Freeing an entry changes the scoreboard, and may raise the stream's vector. -/
@[simp] theorem Dev.freeEntry_frame (d : Dev) (h : HeatId) :
    (d.freeEntry h).now = d.now ∧
    (d.freeEntry h).moduleId = d.moduleId ∧
    (d.freeEntry h).serialNo = d.serialNo ∧
    (d.freeEntry h).dateCode = d.dateCode ∧
    (d.freeEntry h).lap = d.lap ∧
    (d.freeEntry h).img = d.img ∧
    (d.freeEntry h).streams = d.streams ∧
    (d.freeEntry h).hbm = d.hbm ∧
    (d.freeEntry h).upd = d.upd ∧
    (d.freeEntry h).rly = d.rly ∧
    (d.freeEntry h).dom = d.dom ∧
    (d.freeEntry h).sec = d.sec ∧
    (d.freeEntry h).flt = d.flt ∧
    (d.freeEntry h).swp = d.swp ∧
    (d.freeEntry h).boot = d.boot ∧
    (d.freeEntry h).pwr = d.pwr ∧
    (d.freeEntry h).start = d.start ∧
    (d.freeEntry h).ctx = d.ctx ∧
    (d.freeEntry h).ctxGroup = d.ctxGroup ∧
    (d.freeEntry h).ctxRot = d.ctxRot ∧
    (d.freeEntry h).sram = d.sram ∧
    (d.freeEntry h).free = d.free ∧
    (d.freeEntry h).prm = d.prm ∧
    (d.freeEntry h).evt = d.evt ∧
    (d.freeEntry h).mar.rotation = d.mar.rotation ∧
    (d.freeEntry h).mar.nextOrder = d.mar.nextOrder ∧
    (d.freeEntry h).mar.wlive = d.mar.wlive ∧
    (d.freeEntry h).mar.store = d.mar.store ∧
    (d.freeEntry h).mar.unreported = d.mar.unreported ∧
    (d.freeEntry h).mar.watched = d.mar.watched ∧
    (d.freeEntry h).mar.full = d.mar.full ∧
    (d.freeEntry h).mar.claim = d.mar.claim ∧
    (d.freeEntry h).mar.leaving = d.mar.leaving ∧
    (d.freeEntry h).mar.pondSeen = d.mar.pondSeen ∧
    (d.freeEntry h).mar.hbmSeen = d.mar.hbmSeen ∧
    (d.freeEntry h).mar.signals = d.mar.signals := by
  simp only [Dev.freeEntry]
  split <;> simp

/-- A withdrawn claim changes tags, and what releases wait for. -/
@[simp] theorem Dev.unclaimSlot_mar_frame (d : Dev) (g : Nat) :
    (d.unclaimSlot g).mar.rotation = d.mar.rotation ∧
    (d.unclaimSlot g).mar.nextOrder = d.mar.nextOrder ∧
    (d.unclaimSlot g).mar.wlive = d.mar.wlive ∧
    (d.unclaimSlot g).mar.store = d.mar.store ∧
    (d.unclaimSlot g).mar.unreported = d.mar.unreported ∧
    (d.unclaimSlot g).mar.watched = d.mar.watched ∧
    (d.unclaimSlot g).mar.pondSeen = d.mar.pondSeen ∧
    (d.unclaimSlot g).mar.hbmSeen = d.mar.hbmSeen ∧
    (d.unclaimSlot g).mar.signals = d.mar.signals := by
  unfold Dev.unclaimSlot
  dsimp only
  split <;> exact ⟨rfl, rfl, rfl, rfl, rfl, rfl, rfl, rfl, rfl⟩

/-- Withdrawn claims change slot tags only, and what releases wait for. -/
theorem Dev.unclaim_keeps {β : Type} (p : Dev → β) (h : ∀ d g, p (Dev.unclaimSlot d g) = p d) (l : List Nat) (d : Dev) :
    p (l.foldl Dev.unclaimSlot d) = p d := foldl_keeps p _ h l d

/-- A cancellation changes the scoreboard, requests, slot tags, its stream and the domain's withheld list. -/
@[simp] theorem Dev.cancelHeat_frame (d : Dev) (h : Heat) (c : Bool) :
    (d.cancelHeat h c).now = d.now ∧
    (d.cancelHeat h c).moduleId = d.moduleId ∧
    (d.cancelHeat h c).serialNo = d.serialNo ∧
    (d.cancelHeat h c).dateCode = d.dateCode ∧
    (d.cancelHeat h c).lap = d.lap ∧
    (d.cancelHeat h c).img = d.img ∧
    (d.cancelHeat h c).upd = d.upd ∧
    (d.cancelHeat h c).rly = d.rly ∧
    (d.cancelHeat h c).sec = d.sec ∧
    (d.cancelHeat h c).flt = d.flt ∧
    (d.cancelHeat h c).swp = d.swp ∧
    (d.cancelHeat h c).boot = d.boot ∧
    (d.cancelHeat h c).pwr = d.pwr ∧
    (d.cancelHeat h c).start = d.start ∧
    (d.cancelHeat h c).ctx = d.ctx ∧
    (d.cancelHeat h c).ctxGroup = d.ctxGroup ∧
    (d.cancelHeat h c).ctxRot = d.ctxRot ∧
    (d.cancelHeat h c).sram = d.sram ∧
    (d.cancelHeat h c).free = d.free ∧
    (d.cancelHeat h c).prm = d.prm ∧
    (d.cancelHeat h c).evt = d.evt ∧
    (d.cancelHeat h c).mar.rotation = d.mar.rotation ∧
    (d.cancelHeat h c).mar.nextOrder = d.mar.nextOrder ∧
    (d.cancelHeat h c).mar.wlive = d.mar.wlive ∧
    (d.cancelHeat h c).mar.store = d.mar.store ∧
    (d.cancelHeat h c).mar.unreported = d.mar.unreported ∧
    (d.cancelHeat h c).mar.watched = d.mar.watched ∧
    (d.cancelHeat h c).mar.pondSeen = d.mar.pondSeen ∧
    (d.cancelHeat h c).mar.hbmSeen = d.mar.hbmSeen ∧
    (d.cancelHeat h c).mar.signals = d.mar.signals := by
  simp only [Dev.cancelHeat]
  split
  · simp
  · refine ⟨?_, ?_, ?_, ?_, ?_, ?_, ?_, ?_, ?_, ?_, ?_, ?_, ?_, ?_, ?_, ?_, ?_, ?_, ?_, ?_, ?_, ?_, ?_, ?_, ?_, ?_, ?_, ?_, ?_, ?_⟩
    · refine Eq.trans (b := (h.claims.foldl Dev.unclaimSlot (d.markDead h.id c)).now) (by simp) ?_
      exact (Dev.unclaim_keeps (fun d => d.now) (fun _ _ => by simp) _ _).trans (by simp)
    · refine Eq.trans (b := (h.claims.foldl Dev.unclaimSlot (d.markDead h.id c)).moduleId) (by simp) ?_
      exact (Dev.unclaim_keeps (fun d => d.moduleId) (fun _ _ => by simp) _ _).trans (by simp)
    · refine Eq.trans (b := (h.claims.foldl Dev.unclaimSlot (d.markDead h.id c)).serialNo) (by simp) ?_
      exact (Dev.unclaim_keeps (fun d => d.serialNo) (fun _ _ => by simp) _ _).trans (by simp)
    · refine Eq.trans (b := (h.claims.foldl Dev.unclaimSlot (d.markDead h.id c)).dateCode) (by simp) ?_
      exact (Dev.unclaim_keeps (fun d => d.dateCode) (fun _ _ => by simp) _ _).trans (by simp)
    · refine Eq.trans (b := (h.claims.foldl Dev.unclaimSlot (d.markDead h.id c)).lap) (by simp) ?_
      exact (Dev.unclaim_keeps (fun d => d.lap) (fun _ _ => by simp) _ _).trans (by simp)
    · refine Eq.trans (b := (h.claims.foldl Dev.unclaimSlot (d.markDead h.id c)).img) (by simp) ?_
      exact (Dev.unclaim_keeps (fun d => d.img) (fun _ _ => by simp) _ _).trans (by simp)
    · refine Eq.trans (b := (h.claims.foldl Dev.unclaimSlot (d.markDead h.id c)).upd) (by simp) ?_
      exact (Dev.unclaim_keeps (fun d => d.upd) (fun _ _ => by simp) _ _).trans (by simp)
    · refine Eq.trans (b := (h.claims.foldl Dev.unclaimSlot (d.markDead h.id c)).rly) (by simp) ?_
      exact (Dev.unclaim_keeps (fun d => d.rly) (fun _ _ => by simp) _ _).trans (by simp)
    · refine Eq.trans (b := (h.claims.foldl Dev.unclaimSlot (d.markDead h.id c)).sec) (by simp) ?_
      exact (Dev.unclaim_keeps (fun d => d.sec) (fun _ _ => by simp) _ _).trans (by simp)
    · refine Eq.trans (b := (h.claims.foldl Dev.unclaimSlot (d.markDead h.id c)).flt) (by simp) ?_
      exact (Dev.unclaim_keeps (fun d => d.flt) (fun _ _ => by simp) _ _).trans (by simp)
    · refine Eq.trans (b := (h.claims.foldl Dev.unclaimSlot (d.markDead h.id c)).swp) (by simp) ?_
      exact (Dev.unclaim_keeps (fun d => d.swp) (fun _ _ => by simp) _ _).trans (by simp)
    · refine Eq.trans (b := (h.claims.foldl Dev.unclaimSlot (d.markDead h.id c)).boot) (by simp) ?_
      exact (Dev.unclaim_keeps (fun d => d.boot) (fun _ _ => by simp) _ _).trans (by simp)
    · refine Eq.trans (b := (h.claims.foldl Dev.unclaimSlot (d.markDead h.id c)).pwr) (by simp) ?_
      exact (Dev.unclaim_keeps (fun d => d.pwr) (fun _ _ => by simp) _ _).trans (by simp)
    · refine Eq.trans (b := (h.claims.foldl Dev.unclaimSlot (d.markDead h.id c)).start) (by simp) ?_
      exact (Dev.unclaim_keeps (fun d => d.start) (fun _ _ => by simp) _ _).trans (by simp)
    · refine Eq.trans (b := (h.claims.foldl Dev.unclaimSlot (d.markDead h.id c)).ctx) (by simp) ?_
      exact (Dev.unclaim_keeps (fun d => d.ctx) (fun _ _ => by simp) _ _).trans (by simp)
    · refine Eq.trans (b := (h.claims.foldl Dev.unclaimSlot (d.markDead h.id c)).ctxGroup) (by simp) ?_
      exact (Dev.unclaim_keeps (fun d => d.ctxGroup) (fun _ _ => by simp) _ _).trans (by simp)
    · refine Eq.trans (b := (h.claims.foldl Dev.unclaimSlot (d.markDead h.id c)).ctxRot) (by simp) ?_
      exact (Dev.unclaim_keeps (fun d => d.ctxRot) (fun _ _ => by simp) _ _).trans (by simp)
    · refine Eq.trans (b := (h.claims.foldl Dev.unclaimSlot (d.markDead h.id c)).sram) (by simp) ?_
      exact (Dev.unclaim_keeps (fun d => d.sram) (fun _ _ => by simp) _ _).trans (by simp)
    · refine Eq.trans (b := (h.claims.foldl Dev.unclaimSlot (d.markDead h.id c)).free) (by simp) ?_
      exact (Dev.unclaim_keeps (fun d => d.free) (fun _ _ => by simp) _ _).trans (by simp)
    · refine Eq.trans (b := (h.claims.foldl Dev.unclaimSlot (d.markDead h.id c)).prm) (by simp) ?_
      exact (Dev.unclaim_keeps (fun d => d.prm) (fun _ _ => by simp) _ _).trans (by simp)
    · refine Eq.trans (b := (h.claims.foldl Dev.unclaimSlot (d.markDead h.id c)).evt) (by simp) ?_
      exact (Dev.unclaim_keeps (fun d => d.evt) (fun _ _ => by simp) _ _).trans (by simp)
    · refine Eq.trans (b := (h.claims.foldl Dev.unclaimSlot (d.markDead h.id c)).mar.rotation) (by simp) ?_
      exact (Dev.unclaim_keeps (fun d => d.mar.rotation) (fun _ _ => by simp) _ _).trans (by simp)
    · refine Eq.trans (b := (h.claims.foldl Dev.unclaimSlot (d.markDead h.id c)).mar.nextOrder) (by simp) ?_
      exact (Dev.unclaim_keeps (fun d => d.mar.nextOrder) (fun _ _ => by simp) _ _).trans (by simp)
    · refine Eq.trans (b := (h.claims.foldl Dev.unclaimSlot (d.markDead h.id c)).mar.wlive) (by simp) ?_
      exact (Dev.unclaim_keeps (fun d => d.mar.wlive) (fun _ _ => by simp) _ _).trans (by simp)
    · refine Eq.trans (b := (h.claims.foldl Dev.unclaimSlot (d.markDead h.id c)).mar.store) (by simp) ?_
      exact (Dev.unclaim_keeps (fun d => d.mar.store) (fun _ _ => by simp) _ _).trans (by simp)
    · refine Eq.trans (b := (h.claims.foldl Dev.unclaimSlot (d.markDead h.id c)).mar.unreported) (by simp) ?_
      exact (Dev.unclaim_keeps (fun d => d.mar.unreported) (fun _ _ => by simp) _ _).trans (by simp)
    · refine Eq.trans (b := (h.claims.foldl Dev.unclaimSlot (d.markDead h.id c)).mar.watched) (by simp) ?_
      exact (Dev.unclaim_keeps (fun d => d.mar.watched) (fun _ _ => by simp) _ _).trans (by simp)
    · refine Eq.trans (b := (h.claims.foldl Dev.unclaimSlot (d.markDead h.id c)).mar.pondSeen) (by simp) ?_
      exact (Dev.unclaim_keeps (fun d => d.mar.pondSeen) (fun _ _ => by simp) _ _).trans (by simp)
    · refine Eq.trans (b := (h.claims.foldl Dev.unclaimSlot (d.markDead h.id c)).mar.hbmSeen) (by simp) ?_
      exact (Dev.unclaim_keeps (fun d => d.mar.hbmSeen) (fun _ _ => by simp) _ _).trans (by simp)
    · refine Eq.trans (b := (h.claims.foldl Dev.unclaimSlot (d.markDead h.id c)).mar.signals) (by simp) ?_
      exact (Dev.unclaim_keeps (fun d => d.mar.signals) (fun _ _ => by simp) _ _).trans (by simp)
  · simp
  · simp

/-- The chain changes what cancellations change. -/
@[simp] theorem Dev.chainRun_frame (d : Dev) (n c : Nat) :
    (Dev.chainRun n c d).now = d.now ∧
    (Dev.chainRun n c d).moduleId = d.moduleId ∧
    (Dev.chainRun n c d).serialNo = d.serialNo ∧
    (Dev.chainRun n c d).dateCode = d.dateCode ∧
    (Dev.chainRun n c d).lap = d.lap ∧
    (Dev.chainRun n c d).img = d.img ∧
    (Dev.chainRun n c d).upd = d.upd ∧
    (Dev.chainRun n c d).rly = d.rly ∧
    (Dev.chainRun n c d).sec = d.sec ∧
    (Dev.chainRun n c d).flt = d.flt ∧
    (Dev.chainRun n c d).swp = d.swp ∧
    (Dev.chainRun n c d).boot = d.boot ∧
    (Dev.chainRun n c d).pwr = d.pwr ∧
    (Dev.chainRun n c d).start = d.start ∧
    (Dev.chainRun n c d).ctx = d.ctx ∧
    (Dev.chainRun n c d).ctxGroup = d.ctxGroup ∧
    (Dev.chainRun n c d).ctxRot = d.ctxRot ∧
    (Dev.chainRun n c d).sram = d.sram ∧
    (Dev.chainRun n c d).free = d.free ∧
    (Dev.chainRun n c d).prm = d.prm ∧
    (Dev.chainRun n c d).evt = d.evt ∧
    (Dev.chainRun n c d).mar.rotation = d.mar.rotation ∧
    (Dev.chainRun n c d).mar.nextOrder = d.mar.nextOrder ∧
    (Dev.chainRun n c d).mar.wlive = d.mar.wlive ∧
    (Dev.chainRun n c d).mar.store = d.mar.store ∧
    (Dev.chainRun n c d).mar.unreported = d.mar.unreported ∧
    (Dev.chainRun n c d).mar.watched = d.mar.watched ∧
    (Dev.chainRun n c d).mar.pondSeen = d.mar.pondSeen ∧
    (Dev.chainRun n c d).mar.hbmSeen = d.mar.hbmSeen ∧
    (Dev.chainRun n c d).mar.signals = d.mar.signals := by
  induction n generalizing d with
  | zero => simp [Dev.chainRun]
  | succ n ih =>
    simp only [Dev.chainRun]
    split
    · simp
    · rename_i h _; have := ih (d.cancelHeat h true); simpa using this

/-- The chain changes what cancellations change. -/
@[simp] theorem Dev.chain_frame (d : Dev) (c : Nat) :
    (d.chain c).now = d.now ∧
    (d.chain c).moduleId = d.moduleId ∧
    (d.chain c).serialNo = d.serialNo ∧
    (d.chain c).dateCode = d.dateCode ∧
    (d.chain c).lap = d.lap ∧
    (d.chain c).img = d.img ∧
    (d.chain c).upd = d.upd ∧
    (d.chain c).rly = d.rly ∧
    (d.chain c).sec = d.sec ∧
    (d.chain c).flt = d.flt ∧
    (d.chain c).swp = d.swp ∧
    (d.chain c).boot = d.boot ∧
    (d.chain c).pwr = d.pwr ∧
    (d.chain c).start = d.start ∧
    (d.chain c).ctx = d.ctx ∧
    (d.chain c).ctxGroup = d.ctxGroup ∧
    (d.chain c).ctxRot = d.ctxRot ∧
    (d.chain c).sram = d.sram ∧
    (d.chain c).free = d.free ∧
    (d.chain c).mar.rotation = d.mar.rotation ∧
    (d.chain c).mar.nextOrder = d.mar.nextOrder ∧
    (d.chain c).mar.wlive = d.mar.wlive ∧
    (d.chain c).mar.store = d.mar.store ∧
    (d.chain c).mar.unreported = d.mar.unreported ∧
    (d.chain c).mar.watched = d.mar.watched ∧
    (d.chain c).mar.pondSeen = d.mar.pondSeen ∧
    (d.chain c).mar.hbmSeen = d.mar.hbmSeen ∧
    (d.chain c).mar.signals = d.mar.signals := by
  simp [Dev.chain]

/-- Cancelling a set changes what cancellations change. -/
@[simp] theorem Dev.cancelAll_frame (d : Dev) (c : Nat) (l : List Heat) (ch : Bool) :
    (d.cancelAll c l ch).now = d.now ∧
    (d.cancelAll c l ch).moduleId = d.moduleId ∧
    (d.cancelAll c l ch).serialNo = d.serialNo ∧
    (d.cancelAll c l ch).dateCode = d.dateCode ∧
    (d.cancelAll c l ch).lap = d.lap ∧
    (d.cancelAll c l ch).img = d.img ∧
    (d.cancelAll c l ch).upd = d.upd ∧
    (d.cancelAll c l ch).rly = d.rly ∧
    (d.cancelAll c l ch).sec = d.sec ∧
    (d.cancelAll c l ch).flt = d.flt ∧
    (d.cancelAll c l ch).swp = d.swp ∧
    (d.cancelAll c l ch).boot = d.boot ∧
    (d.cancelAll c l ch).pwr = d.pwr ∧
    (d.cancelAll c l ch).start = d.start ∧
    (d.cancelAll c l ch).ctx = d.ctx ∧
    (d.cancelAll c l ch).ctxGroup = d.ctxGroup ∧
    (d.cancelAll c l ch).ctxRot = d.ctxRot ∧
    (d.cancelAll c l ch).sram = d.sram ∧
    (d.cancelAll c l ch).free = d.free ∧
    (d.cancelAll c l ch).mar.rotation = d.mar.rotation ∧
    (d.cancelAll c l ch).mar.nextOrder = d.mar.nextOrder ∧
    (d.cancelAll c l ch).mar.wlive = d.mar.wlive ∧
    (d.cancelAll c l ch).mar.store = d.mar.store ∧
    (d.cancelAll c l ch).mar.unreported = d.mar.unreported ∧
    (d.cancelAll c l ch).mar.watched = d.mar.watched ∧
    (d.cancelAll c l ch).mar.pondSeen = d.mar.pondSeen ∧
    (d.cancelAll c l ch).mar.hbmSeen = d.mar.hbmSeen ∧
    (d.cancelAll c l ch).mar.signals = d.mar.signals := by
  have h : (l.foldl (fun d h => d.cancelHeat h ch) d).now = d.now ∧ (l.foldl (fun d h => d.cancelHeat h ch) d).moduleId = d.moduleId ∧ (l.foldl (fun d h => d.cancelHeat h ch) d).serialNo = d.serialNo ∧ (l.foldl (fun d h => d.cancelHeat h ch) d).dateCode = d.dateCode ∧ (l.foldl (fun d h => d.cancelHeat h ch) d).lap = d.lap ∧ (l.foldl (fun d h => d.cancelHeat h ch) d).img = d.img ∧ (l.foldl (fun d h => d.cancelHeat h ch) d).upd = d.upd ∧ (l.foldl (fun d h => d.cancelHeat h ch) d).rly = d.rly ∧ (l.foldl (fun d h => d.cancelHeat h ch) d).sec = d.sec ∧ (l.foldl (fun d h => d.cancelHeat h ch) d).flt = d.flt ∧ (l.foldl (fun d h => d.cancelHeat h ch) d).swp = d.swp ∧ (l.foldl (fun d h => d.cancelHeat h ch) d).boot = d.boot ∧ (l.foldl (fun d h => d.cancelHeat h ch) d).pwr = d.pwr ∧ (l.foldl (fun d h => d.cancelHeat h ch) d).start = d.start ∧ (l.foldl (fun d h => d.cancelHeat h ch) d).ctx = d.ctx ∧ (l.foldl (fun d h => d.cancelHeat h ch) d).ctxGroup = d.ctxGroup ∧ (l.foldl (fun d h => d.cancelHeat h ch) d).ctxRot = d.ctxRot ∧ (l.foldl (fun d h => d.cancelHeat h ch) d).sram = d.sram ∧ (l.foldl (fun d h => d.cancelHeat h ch) d).free = d.free ∧ (l.foldl (fun d h => d.cancelHeat h ch) d).mar.rotation = d.mar.rotation ∧ (l.foldl (fun d h => d.cancelHeat h ch) d).mar.nextOrder = d.mar.nextOrder ∧ (l.foldl (fun d h => d.cancelHeat h ch) d).mar.wlive = d.mar.wlive ∧ (l.foldl (fun d h => d.cancelHeat h ch) d).mar.store = d.mar.store ∧ (l.foldl (fun d h => d.cancelHeat h ch) d).mar.unreported = d.mar.unreported ∧ (l.foldl (fun d h => d.cancelHeat h ch) d).mar.watched = d.mar.watched ∧ (l.foldl (fun d h => d.cancelHeat h ch) d).mar.pondSeen = d.mar.pondSeen ∧ (l.foldl (fun d h => d.cancelHeat h ch) d).mar.hbmSeen = d.mar.hbmSeen ∧ (l.foldl (fun d h => d.cancelHeat h ch) d).mar.signals = d.mar.signals := by
    refine ⟨?_, ?_, ?_, ?_, ?_, ?_, ?_, ?_, ?_, ?_, ?_, ?_, ?_, ?_, ?_, ?_, ?_, ?_, ?_, ?_, ?_, ?_, ?_, ?_, ?_, ?_, ?_, ?_⟩
    · exact foldl_keeps (fun d => d.now) _ (fun d h => by simp) _ d
    · exact foldl_keeps (fun d => d.moduleId) _ (fun d h => by simp) _ d
    · exact foldl_keeps (fun d => d.serialNo) _ (fun d h => by simp) _ d
    · exact foldl_keeps (fun d => d.dateCode) _ (fun d h => by simp) _ d
    · exact foldl_keeps (fun d => d.lap) _ (fun d h => by simp) _ d
    · exact foldl_keeps (fun d => d.img) _ (fun d h => by simp) _ d
    · exact foldl_keeps (fun d => d.upd) _ (fun d h => by simp) _ d
    · exact foldl_keeps (fun d => d.rly) _ (fun d h => by simp) _ d
    · exact foldl_keeps (fun d => d.sec) _ (fun d h => by simp) _ d
    · exact foldl_keeps (fun d => d.flt) _ (fun d h => by simp) _ d
    · exact foldl_keeps (fun d => d.swp) _ (fun d h => by simp) _ d
    · exact foldl_keeps (fun d => d.boot) _ (fun d h => by simp) _ d
    · exact foldl_keeps (fun d => d.pwr) _ (fun d h => by simp) _ d
    · exact foldl_keeps (fun d => d.start) _ (fun d h => by simp) _ d
    · exact foldl_keeps (fun d => d.ctx) _ (fun d h => by simp) _ d
    · exact foldl_keeps (fun d => d.ctxGroup) _ (fun d h => by simp) _ d
    · exact foldl_keeps (fun d => d.ctxRot) _ (fun d h => by simp) _ d
    · exact foldl_keeps (fun d => d.sram) _ (fun d h => by simp) _ d
    · exact foldl_keeps (fun d => d.free) _ (fun d h => by simp) _ d
    · exact foldl_keeps (fun d => d.mar.rotation) _ (fun d h => by simp) _ d
    · exact foldl_keeps (fun d => d.mar.nextOrder) _ (fun d h => by simp) _ d
    · exact foldl_keeps (fun d => d.mar.wlive) _ (fun d h => by simp) _ d
    · exact foldl_keeps (fun d => d.mar.store) _ (fun d h => by simp) _ d
    · exact foldl_keeps (fun d => d.mar.unreported) _ (fun d h => by simp) _ d
    · exact foldl_keeps (fun d => d.mar.watched) _ (fun d h => by simp) _ d
    · exact foldl_keeps (fun d => d.mar.pondSeen) _ (fun d h => by simp) _ d
    · exact foldl_keeps (fun d => d.mar.hbmSeen) _ (fun d h => by simp) _ d
    · exact foldl_keeps (fun d => d.mar.signals) _ (fun d h => by simp) _ d
  simp only [Dev.cancelAll]
  split <;> simp [h]

/-- Cancelling what runs changes what cancellations change. -/
@[simp] theorem Dev.cancelRunning_frame (d : Dev) (c : Nat) :
    (d.cancelRunning c).now = d.now ∧
    (d.cancelRunning c).moduleId = d.moduleId ∧
    (d.cancelRunning c).serialNo = d.serialNo ∧
    (d.cancelRunning c).dateCode = d.dateCode ∧
    (d.cancelRunning c).lap = d.lap ∧
    (d.cancelRunning c).img = d.img ∧
    (d.cancelRunning c).upd = d.upd ∧
    (d.cancelRunning c).rly = d.rly ∧
    (d.cancelRunning c).sec = d.sec ∧
    (d.cancelRunning c).flt = d.flt ∧
    (d.cancelRunning c).swp = d.swp ∧
    (d.cancelRunning c).boot = d.boot ∧
    (d.cancelRunning c).pwr = d.pwr ∧
    (d.cancelRunning c).start = d.start ∧
    (d.cancelRunning c).ctx = d.ctx ∧
    (d.cancelRunning c).ctxGroup = d.ctxGroup ∧
    (d.cancelRunning c).ctxRot = d.ctxRot ∧
    (d.cancelRunning c).sram = d.sram ∧
    (d.cancelRunning c).free = d.free ∧
    (d.cancelRunning c).mar.rotation = d.mar.rotation ∧
    (d.cancelRunning c).mar.nextOrder = d.mar.nextOrder ∧
    (d.cancelRunning c).mar.wlive = d.mar.wlive ∧
    (d.cancelRunning c).mar.store = d.mar.store ∧
    (d.cancelRunning c).mar.unreported = d.mar.unreported ∧
    (d.cancelRunning c).mar.watched = d.mar.watched ∧
    (d.cancelRunning c).mar.pondSeen = d.mar.pondSeen ∧
    (d.cancelRunning c).mar.hbmSeen = d.mar.hbmSeen ∧
    (d.cancelRunning c).mar.signals = d.mar.signals := by
  simp [Dev.cancelRunning]

/-- A fault that ends a heat changes what a cancellation changes, and halts its stream. -/
@[simp] theorem Dev.endHeat_frame (d : Dev) (h : Heat) :
    (d.endHeat h).now = d.now ∧
    (d.endHeat h).moduleId = d.moduleId ∧
    (d.endHeat h).serialNo = d.serialNo ∧
    (d.endHeat h).dateCode = d.dateCode ∧
    (d.endHeat h).lap = d.lap ∧
    (d.endHeat h).img = d.img ∧
    (d.endHeat h).upd = d.upd ∧
    (d.endHeat h).rly = d.rly ∧
    (d.endHeat h).sec = d.sec ∧
    (d.endHeat h).flt = d.flt ∧
    (d.endHeat h).swp = d.swp ∧
    (d.endHeat h).boot = d.boot ∧
    (d.endHeat h).pwr = d.pwr ∧
    (d.endHeat h).start = d.start ∧
    (d.endHeat h).ctx = d.ctx ∧
    (d.endHeat h).ctxGroup = d.ctxGroup ∧
    (d.endHeat h).ctxRot = d.ctxRot ∧
    (d.endHeat h).sram = d.sram ∧
    (d.endHeat h).free = d.free ∧
    (d.endHeat h).mar.rotation = d.mar.rotation ∧
    (d.endHeat h).mar.nextOrder = d.mar.nextOrder ∧
    (d.endHeat h).mar.wlive = d.mar.wlive ∧
    (d.endHeat h).mar.store = d.mar.store ∧
    (d.endHeat h).mar.unreported = d.mar.unreported ∧
    (d.endHeat h).mar.watched = d.mar.watched ∧
    (d.endHeat h).mar.pondSeen = d.mar.pondSeen ∧
    (d.endHeat h).mar.hbmSeen = d.mar.hbmSeen ∧
    (d.endHeat h).mar.signals = d.mar.signals := by
  simp [Dev.endHeat]

/-! ### Heats -/

/-- A change of a heat that keeps its id; it may become WAITING or READY, nothing else. -/
def Heat.judges (h : HeatId) (f : Heat → Heat) : Prop :=
  ∀ x, x.id = h → (f x).id = h ∧ ((f x).state = x.state ∨ (f x).state = .waiting ∨ (f x).state = .ready)

/-- Two changes of the heats of one id are one. -/
theorem updWhere_twice (h : HeatId) (f g : Heat → Heat) (hf : ∀ x, x.id = h → (f x).id = h) (l : List Heat) :
    updWhere (fun x => x.id == h) g (updWhere (fun x => x.id == h) f l) = updWhere (fun x => x.id == h) (fun x => g (f x)) l := by
  simp only [updWhere, List.map_map]
  apply List.map_congr_left
  intro x _
  by_cases hx : x.id = h
  · simp [hx, hf x hx]
  · simp [hx]

/-- Judging one heat changes heats of its id only, and only while it waits. -/
theorem Dev.settleOne_heats (d : Dev) (h : Heat) :
    (∃ f, Heat.judges h.id f ∧ (d.settleOne h).mar.heats = updWhere (fun x => x.id == h.id) f d.mar.heats) ∧
    (h.state ≠ .waiting → d.settleOne h = d) := by
  have same : ∃ f, Heat.judges h.id f ∧ d.mar.heats = updWhere (fun x => x.id == h.id) f d.mar.heats :=
    ⟨fun x => x, fun x hx => ⟨hx, .inl rfl⟩, by simp [updWhere]⟩
  refine ⟨?_, fun hs => by simp [Dev.settleOne, hs]⟩
  simp only [Dev.settleOne]
  split
  · exact same
  · rename_i hc
    have hw : h.state = .waiting := by
      by_contra hne; exact hc (by simp [hne])
    have hgid : (d.markSkip h).id = h.id := by simp only [Dev.markSkip]
    have hgst : (d.markSkip h).state = .waiting := by simp only [Dev.markSkip]; exact hw
    have key : ∀ e : Dev, (∃ f, Heat.judges h.id f ∧ e.mar.heats = updWhere (fun x => x.id == h.id) f d.mar.heats) →
        ∀ g : Heat → Heat, Heat.judges h.id g →
        ∃ f, Heat.judges h.id f ∧ (e.setHeat h.id g).mar.heats = updWhere (fun x => x.id == h.id) f d.mar.heats := by
      rintro e ⟨f, hf, he⟩ g hg
      refine ⟨fun x => g (f x), fun x hx => ?_, ?_⟩
      · obtain ⟨a, b⟩ := hf x hx
        obtain ⟨p, q⟩ := hg (f x) a
        refine ⟨p, ?_⟩
        rcases q with q | q | q
        · rw [q]; exact b
        · exact .inr (.inl q)
        · exact .inr (.inr q)
      · show updWhere _ g e.mar.heats = _
        rw [he, updWhere_twice _ _ _ fun x hx => (hf x hx).1]
    have base : ∃ f, Heat.judges h.id f ∧ (if (d.markSkip h == h) = true then d else d.setHeat h.id fun _ => d.markSkip h).mar.heats
        = updWhere (fun x => x.id == h.id) f d.mar.heats := by
      split
      · exact same
      · exact key d same _ fun x _ => ⟨hgid, .inr (.inl hgst)⟩
    generalize (if (d.markSkip h == h) = true then d else d.setHeat h.id fun _ => d.markSkip h) = e0 at base ⊢
    split
    · exact base
    · split
      · split
        · exact base
        · have hreq : ∀ (e : Dev) (g : Heat), ∃ f : Heat → Heat, (∀ x, f x = { x with request := some e.mar.nextArrival }) ∧
              (e.requestPermit g).mar.heats = (e.setHeat g.id f).mar.heats := by
            intro e g
            refine ⟨fun x => { x with request := some e.mar.nextArrival }, fun _ => rfl, ?_⟩
            simp only [Dev.requestPermit]
            split <;> simp [Dev.setHeat]
          obtain ⟨f, hf, he⟩ := hreq e0 (d.markSkip h)
          rw [he, hgid]
          exact key _ base f fun x hx => by rw [hf]; exact ⟨hx, .inl rfl⟩
      · exact key _ base _ fun x hx => ⟨hx, .inr (.inr rfl)⟩

/-- Judging one heat keeps every id. -/
theorem Dev.settleOne_ids (d : Dev) (h : Heat) : (d.settleOne h).mar.heats.map Heat.id = d.mar.heats.map Heat.id := by
  obtain ⟨f, hf, he⟩ := (d.settleOne_heats h).1
  rw [he]
  simp only [updWhere, List.map_map]
  apply List.map_congr_left
  intro x _
  by_cases hx : x.id = h.id
  · simp [hx, (hf x hx).1]
  · simp [hx]

/-- Judging every heat keeps every id. -/
theorem Dev.settle_ids (d : Dev) : d.settle.mar.heats.map Heat.id = d.mar.heats.map Heat.id := by
  simp only [Dev.settle, Dev.noteG_frame]
  exact foldl_keeps (fun d => d.mar.heats.map Heat.id) _ (fun d h => by split <;> simp [Dev.settleOne_ids]) _ d

/-- A heat is found by its id exactly where some entry bears it. -/
theorem Dev.heat_none_iff (d : Dev) (h : HeatId) : d.heat h = none ↔ h ∉ d.mar.heats.map Heat.id := by
  simp [Dev.heat, List.find?_eq_none]

/-- A heat that is gone stays gone. -/
theorem Dev.settle_heat_none (d : Dev) (h : HeatId) : d.settle.heat h = none ↔ d.heat h = none := by
  rw [Dev.heat_none_iff, Dev.heat_none_iff, Dev.settle_ids]

/-- The heat found by an id bears it. -/
theorem Dev.heat_id {d : Dev} {h : HeatId} {x : Heat} (e : d.heat h = some x) : x.id = h := by
  have := List.find?_some e; simpa using this

/-- A heat that does not wait stays as it is. -/
theorem Dev.settle_heat_some (d : Dev) (h : HeatId) (x : Heat) (e : d.heat h = some x) (hs : x.state ≠ .waiting) :
    d.settle.heat h = some x := by
  suffices h : (d.settle.mar.heats.find? fun y => y.id == h) = some x from h
  simp only [Dev.settle, Dev.noteG_frame]
  refine foldl_inv (fun d => (d.mar.heats.find? fun y => y.id == h) = some x) _ (fun d g e => ?_) _ d e
  split
  · rename_i k hk
    by_cases hh : g.id = h
    · subst hh
      have : some x = some k := e.symm.trans hk
      injection this with this; subst this
      rw [(d.settleOne_heats x).2 hs]; exact e
    · obtain ⟨f, hf, he⟩ := (d.settleOne_heats k).1
      have hkid : k.id = g.id := Dev.heat_id hk
      rw [he]
      simp only [updWhere]
      clear he hk
      generalize d.mar.heats = l at e ⊢
      induction l with
      | nil => simp at e
      | cons a l ih =>
        by_cases ha : a.id = h
        · have hne : ¬ a.id = k.id := by rw [ha, hkid]; exact fun c => hh c.symm
          have hax : a = x := by simpa [ha] using e
          subst hax
          rw [List.map_cons, if_neg (by simpa using hne), List.find?_cons_of_pos (by simpa using ha)]
        · have hl : l.find? (fun x => x.id == h) = some x := by simpa [ha] using e
          have hfa : ¬ (if (a.id == k.id) = true then f a else a).id = h := by
            split
            · rename_i hak
              have hak : a.id = k.id := by simpa using hak
              rw [(hf a hak).1, ← hak]; exact ha
            · exact ha
          rw [List.map_cons, List.find?_cons_of_neg (by simpa using hfa)]
          exact ih hl
  · exact e

/-- Judging every heat starts none. -/
theorem Dev.settle_running (d : Dev) (hn : ∀ x ∈ d.mar.heats, x.state ≠ .running) :
    ∀ x ∈ d.settle.mar.heats, x.state ≠ .running := by
  have one : ∀ (d : Dev) (h : Heat), (∀ x ∈ d.mar.heats, x.state ≠ .running) →
      ∀ x ∈ (d.settleOne h).mar.heats, x.state ≠ .running := by
    intro d h hn x hx
    obtain ⟨f, hf, he⟩ := (d.settleOne_heats h).1
    rw [he] at hx
    simp only [updWhere, List.mem_map] at hx
    obtain ⟨y, hy, rfl⟩ := hx
    split
    · rename_i hid
      rcases (hf y (by simpa using hid)).2 with q | q | q
      · rw [q]; exact hn y hy
      · rw [q]; decide
      · rw [q]; decide
    · exact hn y hy
  simp only [Dev.settle, Dev.noteG_frame]
  refine foldl_inv (fun d => ∀ x ∈ d.mar.heats, x.state ≠ .running) _ (fun d g e => ?_) _ d hn
  split
  · exact one d _ e
  · exact e

/-! ### Completion and retirement (R201, R226) -/

/-- Bytes of memory that a working record has not changed since another. -/
def Wk.sameOutside (p : Nat → Prop) (w v : Wk) : Prop := ∀ a, ¬ p a → v.mem.byte a = w.mem.byte a

/-- The place of a heat's completion record, where it has one (R226). -/
def Dev.recordAt (d : Dev) (x : Heat) (a : Nat) : Prop :=
  let t := d.stream x.id.cluster.val x.id.stream.num
  let p := bits t.cplReg.toNat 47 12 * 4096 + t.cplTail.toNat % t.cplSize * 16
  x.cpl = true ∧ t.cplSize ≠ 0 ∧ p ≤ a ∧ a < p + 16

/-- A completion record has 16 bytes. -/
theorem cplBytes_length (d : Dev) (h : Heat) (status : Nat) (phase : Bool) : (cplBytes d h status phase).length = 16 := by
  simp [cplBytes, leBytes]

/-- A completion record changes its 16 bytes, and of the block its stream, and what the vector says. -/
theorem Wk.complete_mem (w : Wk) (h : Heat) (st a : Nat) (ha : ¬ w.dev.recordAt h a) :
    (w.complete h st).mem.byte a = w.mem.byte a := by
  simp only [Wk.complete]
  split
  · rfl
  · split
    · rfl
    · rename_i h1 h2
      have hb : ∀ x : Wk, (x.ite h.irq fun w => w.up fun d => d.msix (3 * h.id.cluster.val + h.id.stream.num)).mem = x.mem := by
        intro x; unfold Wk.ite; split <;> rfl
      rw [hb]
      simp only [Wk.mem_up]
      rw [Wk.byte_put]
      rw [if_neg]
      intro hc
      apply ha
      rw [cplBytes_length] at hc
      exact ⟨by simpa using h1, by simpa using h2, hc.1, hc.2⟩

/-- The part of the block that a completion record keeps. -/
theorem Wk.complete_frame (w : Wk) (h : Heat) (st : Nat) :
    (w.complete h st).dev.mar = w.dev.mar ∧ (w.complete h st).dev.lap = w.dev.lap ∧
    (w.complete h st).dev.img = w.dev.img ∧ (w.complete h st).dev.upd = w.dev.upd ∧
    (w.complete h st).dev.rly = w.dev.rly ∧ (w.complete h st).dev.hbm = w.dev.hbm ∧
    (w.complete h st).dev.dom = w.dev.dom ∧ (w.complete h st).dev.sec = w.dev.sec ∧
    (w.complete h st).dev.flt = w.dev.flt ∧ (w.complete h st).dev.prm = w.dev.prm ∧
    (w.complete h st).dev.evt = w.dev.evt ∧ (w.complete h st).dev.start = w.dev.start ∧
    (w.complete h st).dev.pwr = w.dev.pwr ∧ (w.complete h st).dev.ctx = w.dev.ctx := by
  simp only [Wk.complete, Wk.ite]
  split
  · simp
  · split
    · simp
    · split <;> simp

/-- A freed entry is gone. -/
theorem Dev.freeEntry_heat (d : Dev) (h : HeatId) : (d.freeEntry h).heat h = none := by
  simp only [Dev.freeEntry]
  split <;> simp [Dev.heat, Dev.dropHeat]

/-- A freed entry is the one entry that goes. -/
theorem Dev.freeEntry_heats (d : Dev) (h : HeatId) :
    (d.freeEntry h).mar.heats = d.mar.heats.filter fun x => x.id != h := by
  simp only [Dev.freeEntry]
  split <;> simp [Dev.dropHeat]

/-- A heat that retires is gone. -/
theorem Wk.retire_heat (w : Wk) (x : Heat) : (w.retire x).dev.heat x.id = none := by
  simp only [Wk.retire, Wk.dev_up]
  rw [Dev.settle_heat_none]
  have : ∀ e : Dev, e.mar.heats = ((w.complete x (if x.skipped then 2 else if x.faulted then 3 else 0)).dev.freeEntry x.id).mar.heats →
      e.heat x.id = none := by
    intro e he
    unfold Dev.heat
    rw [he]
    exact Dev.freeEntry_heat _ _
  apply this
  simp only
  split <;> simp

/-- Retirement changes no byte but its record's. -/
theorem Wk.retire_mem (w : Wk) (x : Heat) (a : Nat) (ha : ¬ w.dev.recordAt x a) :
    (w.retire x).mem.byte a = w.mem.byte a := by
  simp only [Wk.retire, Wk.mem_up]
  exact Wk.complete_mem w x _ a ha

/-! ### Streams under cancellation -/

/-- Two streams agree but for the marks of what was cancelled. -/
def Stream.sameButDead (a b : Stream) : Prop := ∃ l, a = { b with dead := l }

theorem Stream.sameButDead_refl (a : Stream) : a.sameButDead a := ⟨a.dead, rfl⟩

theorem Stream.sameButDead_trans {a b c : Stream} (h : a.sameButDead b) (k : b.sameButDead c) : a.sameButDead c := by
  obtain ⟨l, rfl⟩ := h
  obtain ⟨m, rfl⟩ := k
  exact ⟨l, rfl⟩

/-- A cancellation changes of every stream its marks only. -/
theorem Dev.cancelHeat_stream (d : Dev) (h : Heat) (ch : Bool) (c s : Nat) :
    ((d.cancelHeat h ch).stream c s).sameButDead (d.stream c s) := by
  have hs : (d.cancelHeat h ch).streams = (d.markDead h.id ch).streams := by
    simp only [Dev.cancelHeat]
    split
    · rfl
    · simp
      exact (Dev.unclaim_keeps (fun d => d.streams) (fun _ _ => by simp) _ _).trans rfl
    · simp
    · simp
  unfold Dev.stream
  rw [hs]
  simp only [Dev.markDead, Dev.setStream, AMap.get_upd]
  split
  · rename_i hk
    rw [hk]
    split
    · exact ⟨_, rfl⟩
    · exact ⟨_, rfl⟩
  · exact Stream.sameButDead_refl _

/-- A cancelled set changes of every stream its marks only. -/
theorem Dev.cancelAll_stream (d : Dev) (n : Nat) (l : List Heat) (ch : Bool) (c s : Nat) :
    ((d.cancelAll n l ch).stream c s).sameButDead (d.stream c s) := by
  have fold : ((l.foldl (fun d h => d.cancelHeat h ch) d).stream c s).sameButDead (d.stream c s) :=
    foldl_inv (fun e => (e.stream c s).sameButDead (d.stream c s)) _
      (fun e x h => Stream.sameButDead_trans (Dev.cancelHeat_stream e x ch c s) h) l d (Stream.sameButDead_refl _)
  have run : ∀ (k : Nat) (e : Dev), ((Dev.chainRun k n e).stream c s).sameButDead (e.stream c s) := by
    intro k
    induction k with
    | zero => intro e; exact Stream.sameButDead_refl _
    | succ k ih =>
      intro e
      simp only [Dev.chainRun]
      split
      · exact Stream.sameButDead_refl _
      · exact Stream.sameButDead_trans (ih _) (Dev.cancelHeat_stream _ _ _ _ _)
  have st : ∀ e : Dev, e.settle.stream c s = e.stream c s := by
    intro e; unfold Dev.stream; rw [(Dev.settle_frame e).2.2.2.2.2.2.1]
  simp only [Dev.cancelAll]
  split
  · simp only [Dev.chain, st]
    exact Stream.sameButDead_trans (run _ _) fold
  · rw [st]; exact fold

end Sys2Proof.Machine
end

