-- ==== Sys2Proof/Laws/Work.lean ====
section
/-! SUPPORT. What the shared operations of running heats do: to a heat's entry, to the tags of slots, and to memory. How the
last part of a stage ends it is said once, by `Wk.stage_last`, and what a store leaves by `Wk.store_stays`. -/

namespace Sys2Proof.Machine

open Sys2Proof.Config

/-! ### A heat's entry -/

theorem foldl_heat {α : Type} (f : Dev → α → Dev) (h : ∀ d x k, (f d x).heat k = d.heat k) (l : List α) (d : Dev)
    (k : HeatId) : (l.foldl f d).heat k = d.heat k := foldl_keeps (fun d => d.heat k) f (fun d x => h d x k) l d

@[simp] theorem Dev.post_heat (d : Dev) (r : Req) (k : HeatId) : (d.post r).heat k = d.heat k := rfl
@[simp] theorem Dev.post_mar (d : Dev) (r : Req) : (d.post r).mar = d.mar := rfl
@[simp] theorem Dev.tag_heat (d : Dev) (g : Nat) (a b : Bool) (n : Nat) (k : HeatId) : (d.tag g a b n).heat k = d.heat k := rfl
@[simp] theorem Dev.emptySlot_heat (d : Dev) (g : Nat) (k : HeatId) : (d.emptySlot g).heat k = d.heat k := rfl
@[simp] theorem Dev.claimSlot_heat (d : Dev) (g : Nat) (k : HeatId) : (d.claimSlot g).heat k = d.heat k := rfl

theorem Dev.heat_setHeat_some {d : Dev} {id : HeatId} {f : Heat → Heat} {x : Heat} (h : d.heat id = some x)
    (hf : ∀ y, (f y).id = y.id) : (d.setHeat id f).heat id = some (f x) := by rw [Dev.heat_setHeat d id f hf, h]; rfl

/-- Two heats that agree in all but the slots a release waits for (R145). -/
def Heat.near (x y : Heat) : Prop :=
  y.id = x.id ∧ y.body = x.body ∧ y.state = x.state ∧ y.done = x.done ∧ y.skipped = x.skipped ∧ y.leave = x.leave ∧
    y.claims = x.claims ∧ ∀ st, (y.at st).ended = (x.at st).ended

theorem Heat.near_refl (x : Heat) : x.near x := ⟨rfl, rfl, rfl, rfl, rfl, rfl, rfl, fun _ => rfl⟩
theorem Heat.near_trans {x y z : Heat} (h : x.near y) (k : y.near z) : x.near z :=
  ⟨k.1.trans h.1, k.2.1.trans h.2.1, k.2.2.1.trans h.2.2.1, k.2.2.2.1.trans h.2.2.2.1, k.2.2.2.2.1.trans h.2.2.2.2.1,
    k.2.2.2.2.2.1.trans h.2.2.2.2.2.1, k.2.2.2.2.2.2.1.trans h.2.2.2.2.2.2.1,
    fun st => (k.2.2.2.2.2.2.2 st).trans (h.2.2.2.2.2.2.2 st)⟩

@[simp] theorem Heat.at_upAt (x : Heat) (k j : Nat) (f : Prog → Prog) :
    (x.upAt k f).at j = if j = k then f (x.at k) else x.at j := by
  simp only [Heat.at, Heat.upAt, AMap.get_upd]

theorem Heat.near_upAt (x : Heat) (k : Nat) (f : Prog → Prog) (h : ∀ p, (f p).ended = p.ended) : x.near (x.upAt k f) := by
  refine ⟨rfl, rfl, rfl, rfl, rfl, rfl, rfl, fun st => ?_⟩
  rw [Heat.at_upAt]
  split
  · rename_i e; rw [h, e]
  · rfl

/-- Every heat of `d` is in `e`, near to what it was. -/
def Dev.nearHeats (d e : Dev) : Prop := ∀ k x, d.heat k = some x → ∃ y, e.heat k = some y ∧ x.near y

theorem Dev.nearHeats_of_eq {d e : Dev} (h : ∀ k, e.heat k = d.heat k) : d.nearHeats e :=
  fun k x hx => ⟨x, (h k).trans hx, x.near_refl⟩
theorem Dev.nearHeats_refl (d : Dev) : d.nearHeats d := Dev.nearHeats_of_eq fun _ => rfl
theorem Dev.nearHeats_trans {a b c : Dev} (h : a.nearHeats b) (k : b.nearHeats c) : a.nearHeats c := fun i x hx =>
  let ⟨_, hy, ny⟩ := h i x hx
  let ⟨z, hz, nz⟩ := k i _ hy
  ⟨z, hz, Heat.near_trans ny nz⟩

theorem Dev.nearHeats_foldl {α : Type} (f : Dev → α → Dev) (h : ∀ (d : Dev) x, d.nearHeats (f d x)) (l : List α) (d : Dev) :
    d.nearHeats (l.foldl f d) := by
  induction l generalizing d with
  | nil => exact d.nearHeats_refl
  | cons a l ih => exact Dev.nearHeats_trans (h d a) (ih _)

theorem Dev.heat_updWhere (d : Dev) (q : Heat → Bool) (f : Heat → Heat) (hf : ∀ x, (f x).id = x.id) (k : HeatId) :
    Dev.heat { d with mar := { d.mar with heats := updWhere q f d.mar.heats } } k =
      (d.heat k).map fun x => if q x then f x else x := by
  simp only [Dev.heat, updWhere]
  induction d.mar.heats with
  | nil => rfl
  | cons x l ih =>
    have e : (if q x then f x else x).id = x.id := by split <;> simp [hf]
    rw [List.map_cons, List.find?_cons, List.find?_cons, ih, e]
    split <;> simp

theorem Dev.nearHeats_updWhere (d : Dev) (q : Heat → Bool) (f : Heat → Heat) (hf : ∀ x : Heat, x.near (f x)) :
    d.nearHeats { d with mar := { d.mar with heats := updWhere q f d.mar.heats } } := by
  intro k x hx
  refine ⟨if q x then f x else x, ?_, ?_⟩
  · rw [Dev.heat_updWhere d q f (fun x => (hf x).1), hx]; rfl
  · split
    · exact hf x
    · exact x.near_refl

theorem Dev.fillSlot_near (d : Dev) (g : Nat) : d.nearHeats (d.fillSlot g) := by
  unfold Dev.fillSlot
  dsimp only
  split
  · exact Dev.nearHeats_updWhere (d.tag g true false _) _ _ fun x => x.near_upAt 0 _ fun _ => rfl
  · exact Dev.nearHeats_of_eq fun _ => rfl

theorem Dev.unclaimSlot_near (d : Dev) (g : Nat) : d.nearHeats (d.unclaimSlot g) := by
  unfold Dev.unclaimSlot
  dsimp only
  split
  · exact Dev.nearHeats_updWhere (d.tag g false false 0) _ _ fun x => x.near_upAt 0 _ fun _ => rfl
  · exact Dev.nearHeats_of_eq fun _ => rfl

/-! ### Tags -/

theorem foldl_fillSlot_full (l : List Nat) (d : Dev) (g : Nat) :
    (l.foldl Dev.fillSlot d).isFull g = (decide (g ∈ l) || d.isFull g) := by
  induction l generalizing d with
  | nil => simp
  | cons a l ih =>
    rw [List.foldl_cons, ih, Dev.isFull_fillSlot]
    by_cases c : g = a <;> simp [c]

theorem foldl_fillSlot_claimed (l : List Nat) (d : Dev) (g : Nat) :
    (l.foldl Dev.fillSlot d).isClaimed g = (!decide (g ∈ l) && d.isClaimed g) := by
  induction l generalizing d with
  | nil => simp
  | cons a l ih =>
    rw [List.foldl_cons, ih, Dev.isClaimed_fillSlot]
    by_cases c : g = a <;> simp [c]

theorem foldl_emptySlot_full (l : List Nat) (d : Dev) (g : Nat) :
    (l.foldl Dev.emptySlot d).isFull g = (!decide (g ∈ l) && d.isFull g) := by
  induction l generalizing d with
  | nil => simp
  | cons a l ih =>
    rw [List.foldl_cons, ih, Dev.isFull_emptySlot]
    by_cases c : g = a <;> simp [c]

theorem foldl_unclaimSlot_full (l : List Nat) (d : Dev) (g : Nat) :
    (l.foldl Dev.unclaimSlot d).isFull g = (!decide (g ∈ l) && d.isFull g) := by
  induction l generalizing d with
  | nil => simp
  | cons a l ih =>
    rw [List.foldl_cons, ih, Dev.isFull_unclaimSlot]
    by_cases c : g = a <;> simp [c]

theorem foldl_unclaimSlot_claimed (l : List Nat) (d : Dev) (g : Nat) :
    (l.foldl Dev.unclaimSlot d).isClaimed g = (!decide (g ∈ l) && d.isClaimed g) := by
  induction l generalizing d with
  | nil => simp
  | cons a l ih =>
    rw [List.foldl_cons, ih, Dev.isClaimed_unclaimSlot]
    by_cases c : g = a <;> simp [c]

/-! ### Memory -/

theorem Wk.mem_put_outside (w : Wk) (a x : Nat) (d : List Byte) (h : beyond a d.length x) :
    (w.put a d).mem.byte x = w.mem.byte x := by
  rw [Wk.byte_put]
  unfold beyond at h
  split
  · omega
  · rfl

@[simp] theorem Wk.base_up (w : Wk) (f : Dev → Dev) : (w.up f).base = w.base := rfl
@[simp] theorem Wk.base_put (w : Wk) (a : Nat) (d : List Byte) : (w.put a d).base = w.base := by
  unfold Wk.put; split <;> rfl

/-! ### Asking -/

theorem Dev.setHeat_near (d : Dev) (id : HeatId) (f : Heat → Heat) (hf : ∀ x : Heat, x.near (f x)) : d.nearHeats (d.setHeat id f) :=
  d.nearHeats_updWhere _ f hf

theorem Dev.askPart_near (h : Heat) (st : Nat) (d : Dev) (p : Part) : d.nearHeats (Dev.askPart h st d p) := by
  unfold Dev.askPart
  dsimp only
  refine Dev.nearHeats_trans ?_ (Dev.setHeat_near _ h.id _ fun x => x.near_upAt st _ fun _ => rfl)
  exact Dev.nearHeats_of_eq fun k => foldl_heat (fun d (x : Nat × Nat) => d.post (Req.forHeat h p.who [x.2] .read st x.1 p.targets))
    (fun _ _ _ => rfl) _ d k

/-- Asking for reads changes no heat but in the parts that it has asked for. -/
theorem Dev.ask_near (d : Dev) (h : Heat) (st : Nat) (pl : Plan) : d.nearHeats (d.ask h st pl) := by
  unfold Dev.ask
  split
  · exact Dev.nearHeats_foldl _ (Dev.askPart_near h st) _ d
  · exact d.nearHeats_refl

/-- Nothing is asked for twice. -/
theorem Dev.ask_none (d : Dev) (h : Heat) (st : Nat) (pl : Plan) (ha : ∀ p ∈ pl.parts, p.no ∈ (h.at st).asked) :
    d.ask h st pl = d := by
  have e : (pl.parts.filter fun p => !(h.at st).asked.contains p.no) = [] :=
    List.filter_eq_nil_iff.mpr fun p hp => by simp [ha p hp]
  unfold Dev.ask
  rw [e]
  split <;> rfl

/-! ### The end of a stage -/

/-- With its end a stage is ended, and the heat's work is done where every other stage had ended; slots outside `temps`
keep their tags where none waited for another stage. -/
theorem Dev.finish_ends (d : Dev) (id : HeatId) (st : Nat) (temps : List Nat) (x : Heat) (hx : d.heat id = some x) :
    (∃ y, (d.finish id st temps).heat id = some y ∧ (y.at st).ended = true ∧
      ((∀ k, k < x.body.stages.length → k ≠ st → (x.at k).ended = true) → st < max 1 x.body.stages.length → y.done = true)) ∧
    ∀ g, g ∉ temps → x.leave = [] →
      (d.finish id st temps).isFull g = d.isFull g ∧ (d.finish id st temps).isClaimed g = d.isClaimed g := by
  have e : d.finish id st temps = ((List.foldl Dev.emptySlot
      (List.foldl Dev.unclaimSlot d (temps.filter x.claims.contains))
      ((x.upAt st fun g => { g with ended := true }).leave.filter fun g =>
        !(x.upAt st fun g => { g with ended := true }).readElse st g))).setHeat id fun y =>
      { y.upAt st (fun g => { g with ended := true }) with
        claims := y.claims.filter fun g => !(temps.filter x.claims.contains).contains g
        leave := y.leave.filter fun g => !((x.upAt st fun g => { g with ended := true }).leave.filter fun g =>
          !(x.upAt st fun g => { g with ended := true }).readElse st g).contains g
        waits := y.waits.filter fun w => w.part / 2 ^ 40 != st
        done := (List.range (max 1 x.body.stages.length)).all fun k =>
          ((x.upAt st fun g => { g with ended := true }).at k).ended } := by
    simp only [Dev.finish, hx]; rfl
  constructor
  · obtain ⟨y, hy, _⟩ := Dev.nearHeats_trans
      (Dev.nearHeats_foldl _ Dev.unclaimSlot_near (temps.filter x.claims.contains) d)
      (Dev.nearHeats_foldl Dev.emptySlot (fun d _ => d.nearHeats_of_eq fun _ => rfl)
        ((x.upAt st fun g => { g with ended := true }).leave.filter fun g =>
          !(x.upAt st fun g => { g with ended := true }).readElse st g) _) id x hx
    rw [e]
    refine ⟨_, Dev.heat_setHeat_some hy (by intro; rfl), ?_, fun ho hst => ?_⟩
    · show ((y.upAt st fun g => { g with ended := true }).at st).ended = true
      rw [Heat.at_upAt, if_pos rfl]
    · refine List.all_eq_true.mpr fun k hk => ?_
      rw [Heat.at_upAt]
      split
      · rfl
      · rename_i c
        refine ho k ?_ c
        have := List.mem_range.mp hk
        by_cases z : 1 ≤ x.body.stages.length <;> omega
  · intro g hg hl
    have l0 : (x.upAt st fun g => { g with ended := true }).leave = [] := hl
    have b : decide (g ∈ temps.filter x.claims.contains) = false := by simp [hg]
    have t1 := foldl_unclaimSlot_full (temps.filter x.claims.contains) d g
    have t2 := foldl_unclaimSlot_claimed (temps.filter x.claims.contains) d g
    rw [b] at t1 t2
    simp only [Bool.not_false, Bool.true_and] at t1 t2
    rw [e, l0]
    exact ⟨t1, t2⟩

/-- The heat after the end of a part. -/
theorem Wk.ends_heat (q : Wk) (h : HeatId) (st : Nat) (temps : List Nat) (p : Part) (z : Heat) (hz : q.dev.heat h = some z) :
    ∃ y, ((q.upHeat h fun x => x.ranPart st p).up fun d =>
        d.fillFor h (p.slots.filter fun g => !temps.contains g)).dev.heat h = some y ∧
      y.body = z.body ∧ y.leave = z.leave ∧ y.state = z.state ∧ y.done = z.done ∧ y.skipped = z.skipped ∧
      ∀ k, (y.at k).ended = (z.at k).ended := by
  have h1 : (q.upHeat h fun x => x.ranPart st p).dev.heat h = some (z.ranPart st p) := by
    exact Dev.heat_setHeat_some hz (by intro; rfl)
  obtain ⟨y, hy, n⟩ := Dev.nearHeats_foldl _ Dev.fillSlot_near (p.slots.filter fun g => !temps.contains g) _ h _ h1
  refine ⟨{ y with claims := y.claims.filter fun g => !(p.slots.filter fun g => !temps.contains g).contains g }, ?_,
    n.2.1, n.2.2.2.2.2.1, n.2.2.1, n.2.2.2.1, n.2.2.2.2.1, fun k => ?_⟩
  · show (Dev.setHeat _ _ _).heat h = _
    exact Dev.heat_setHeat_some hy (by intro; rfl)
  · refine (n.2.2.2.2.2.2.2 k).trans ?_
    have : (z.ranPart st p).at k = (z.upAt st fun g => { g with ran := g.ran ++ [p.no] }).at k := rfl
    rw [this, Heat.at_upAt]
    split
    · rename_i c; rw [c]
    · rfl

/-- The end of the last part of the last stage of a heat. -/
theorem Wk.ends_finished (s : State) (q : Wk) (h : HeatId) (st : Nat) (temps : List Nat) (p : Part) (z : Heat)
    (hz : q.dev.heat h = some z) (hl : z.leave = []) (hs : st < max 1 z.body.stages.length)
    (ho : ∀ k, k < z.body.stages.length → k ≠ st → (z.at k).ended = true) :
    finished (s.after (q.ends h st temps p)) h temps p := by
  obtain ⟨y, hy, yb, yl, -, -, -, ye⟩ := Wk.ends_heat q h st temps p z hz
  obtain ⟨⟨v, hv, -, hd⟩, ht⟩ := Dev.finish_ends _ h st temps y hy
  constructor
  · exact ⟨v, hv, hd (fun k hk hn => (ye k).trans (ho k (yb ▸ hk) hn)) (yb ▸ hs)⟩
  · intro g hg hn
    obtain ⟨t1, t2⟩ := ht g hn (yl.trans hl)
    have m : g ∈ p.slots.filter fun g => !temps.contains g := by simp [hg, hn]
    have f1 := foldl_fillSlot_full (p.slots.filter fun g => !temps.contains g) (q.upHeat h fun x => x.ranPart st p).dev g
    have f2 := foldl_fillSlot_claimed (p.slots.filter fun g => !temps.contains g) (q.upHeat h fun x => x.ranPart st p).dev g
    rw [decide_eq_true m] at f1 f2
    exact ⟨t1.trans f1, t2.trans f2⟩

/-! ### The last part of a stage -/

theorem others_self (p : Part) : others p [p] = [] := by simp [others]

/-- A stage that has ended does nothing more. -/
theorem Wk.go_ended (mk : Wk → Heat → Plan) (id : HeatId) (st n : Nat) (w : Wk) (x : Heat) (hx : w.dev.heat id = some x)
    (he : (x.at st).ended = true) : Wk.go mk id st n w = w := by
  cases n with
  | zero => rfl
  | succ n => simp [Wk.go, hx, he]

theorem Wk.stage_ended (w : Wk) (mk : Wk → Heat → Plan) (id : HeatId) (st : Nat) (x : Heat) (hx : w.dev.heat id = some x)
    (he : (x.at st).ended = true) : w.stage mk id st = w := by
  simp only [Wk.stage]
  rw [Wk.go_ended mk id st _ w x hx he, Wk.go_ended mk id st _ w x hx he]

/-- The one part that is left runs, and where the plan made anew holds nothing more, the stage ends with it. -/
theorem Wk.stage_last (s : State) (h : HeatId) (x y : Heat) (w q : Wk) (st : Nat) (mk : Wk → Heat → Plan) (p : Part)
    (hs : SolePart s h x y w st (mk s.work x) p) (hr : p.run (w.view h st) (w.begins h st p) = (q, true))
    (z : Heat) (hz : ((q.upHeat h fun x => x.ranPart st p).up fun d =>
      d.fillFor h (p.slots.filter fun g => !(mk s.work x).temps.contains g)).dev.heat h = some z)
    (hg : z.mayRun = true) (hn : (z.at st).ended = false)
    (hw : (mk ((q.upHeat h fun x => x.ranPart st p).up fun d =>
      d.fillFor h (p.slots.filter fun g => !(mk s.work x).temps.contains g)) z).whole = true)
    (ht : (mk ((q.upHeat h fun x => x.ranPart st p).up fun d =>
      d.fillFor h (p.slots.filter fun g => !(mk s.work x).temps.contains g)) z).temps = (mk s.work x).temps)
    (hu : (mk ((q.upHeat h fun x => x.ranPart st p).up fun d =>
      d.fillFor h (p.slots.filter fun g => !(mk s.work x).temps.contains g)) z).undone z st = [])
    (ha : ∀ r ∈ (mk ((q.upHeat h fun x => x.ranPart st p).up fun d =>
      d.fillFor h (p.slots.filter fun g => !(mk s.work x).temps.contains g)) z).parts, r.no ∈ (z.at st).asked) :
    s.work.stage mk h st = q.ends h st (mk s.work x).temps p := by
  have hx : s.work.dev.heat h = some x := hs.goes.1
  have xid : x.id = h := Dev.heat_id hs.goes.1
  have yid : y.id = h := Dev.heat_id hs.heat
  generalize he : ((q.upHeat h fun x => x.ranPart st p).up fun d =>
      d.fillFor h (p.slots.filter fun g => !(mk s.work x).temps.contains g)) = e at hz hw ht hu ha
  have hrest : others p ((mk s.work x).undone y st) = [] := by rw [hs.left]; exact others_self p
  have hpick : w.dev.pick y st (mk s.work x) = some p := by
    simp only [Dev.pick, hs.left, laneHeads, List.filter_nil, others_self, hs.free, List.find?_cons, hs.up]
    rfl
  have hrun : w.partRun y st (mk s.work x).temps [] p = e := by
    rw [← he]
    have hr' : p.run (w.view h st) (w.up fun d => (d.consume h st (p.frees [])).claimFor h p.slots) = (q, true) := hr
    simp only [Wk.partRun, yid, hs.clean, hr', List.map_nil, List.flatten_nil, List.append_nil]
  have hlen : 0 < (mk s.work x).parts.length := by
    rcases hp : (mk s.work x).parts with _ | ⟨a, l⟩
    · have hl := hs.left
      simp only [Plan.undone, hp, List.filter_nil] at hl
      cases hl
    · simp
  have hend : (e.up fun d => d.finish h st (mk s.work x).temps) = q.ends h st (mk s.work x).temps p := by rw [← he]; rfl
  have goOne : ∀ n, Wk.go mk h st (n + 1) e = q.ends h st (mk s.work x).temps p := by
    intro n
    have ask := Dev.ask_none e.dev z st (mk e z) ha
    have hz' : (e.up fun d => d.ask z st (mk e z)).dev.heat h = some z := by
      show (e.dev.ask z st (mk e z)).heat h = _
      rw [ask]; exact hz
    have hpk : (e.up fun d => d.ask z st (mk e z)).dev.pick z st (mk e z) = none := by
      simp only [Dev.pick, hu, laneHeads, List.find?_nil]
    simp only [Wk.go, hz, hg, hn, Bool.not_true, Bool.or_self, Bool.false_eq_true, if_false, hz', hpk]
    have : ((e.up fun d => d.ask z st (mk e z)).up fun d => d.rest z st (mk e z)) =
        e.up fun d => d.finish h st (mk s.work x).temps := by
      simp only [Wk.up, ask, Dev.rest, hw, hu, List.isEmpty_nil, Bool.and_self, if_true, ht, Dev.heat_id hz]
    rw [this, hend]
  have hgo : ∀ n, 0 < n → Wk.go mk h st (n + 1) s.work = q.ends h st (mk s.work x).temps p := by
    intro n hn0
    obtain ⟨m, rfl⟩ : ∃ m, n = m + 1 := ⟨n - 1, by omega⟩
    have hask : (s.work.up fun d => d.ask x st (mk s.work x)) = w := hs.asked.symm
    have h2 : w.dev.heat h = some y := hs.heat
    rw [Wk.go]
    simp only [hx, hs.goes.2, hs.notOver, Bool.not_true, Bool.or_self, Bool.false_eq_true, if_false, hask, h2, hpick, hrest,
      hrun]
    exact goOne m
  have hsteps : s.work.steps mk h = (mk s.work x).parts.length + 1 := by simp only [Wk.steps, hx]
  obtain ⟨⟨v, hv, hve, -⟩, -⟩ := Dev.finish_ends e.dev h st (mk s.work x).temps z hz
  have hv' : (q.ends h st (mk s.work x).temps p).dev.heat h = some v := by rw [← hend]; exact hv
  simp only [Wk.stage, hsteps, hgo _ hlen]
  exact Wk.go_ended mk h st _ _ v hv' hve

/-! ### Storing -/

/-- No byte outside a set of addresses has changed, no heat and no tag. -/
def Wk.changes (w p : Wk) (inside : Nat → Prop) : Prop :=
  p.base = w.base ∧ p.dev.mar.heats = w.dev.mar.heats ∧ p.dev.mar.full = w.dev.mar.full ∧
    p.dev.mar.claim = w.dev.mar.claim ∧ ∀ a, ¬ inside a → p.mem.byte a = w.mem.byte a

theorem Wk.changes_refl (w : Wk) (i : Nat → Prop) : w.changes w i := ⟨rfl, rfl, rfl, rfl, fun _ _ => rfl⟩
theorem Wk.changes_trans {a b c : Wk} {i : Nat → Prop} (h : a.changes b i) (k : b.changes c i) : a.changes c i :=
  ⟨k.1.trans h.1, k.2.1.trans h.2.1, k.2.2.1.trans h.2.2.1, k.2.2.2.1.trans h.2.2.2.1,
    fun x hx => (k.2.2.2.2 x hx).trans (h.2.2.2.2 x hx)⟩

theorem Wk.changes_each {α : Type} (i : Nat → Prop) (f : Wk → α → Wk) (l : List α)
    (h : ∀ w : Wk, ∀ x ∈ l, w.changes (f w x) i) (w : Wk) : w.changes (Wk.each l f w) i := by
  induction l generalizing w with
  | nil => exact w.changes_refl i
  | cons x l ih =>
    exact Wk.changes_trans (h w x (List.mem_cons_self ..)) (ih (fun w y hy => h w y (List.mem_cons_of_mem _ hy)) _)

theorem Wk.put_changes (w : Wk) (i : Nat → Prop) (a : Nat) (d : List Byte) (h : ∀ x, ¬ i x → beyond a d.length x) :
    w.changes (w.put a d) i :=
  ⟨w.base_put a d, by rw [Wk.dev_put], by rw [Wk.dev_put], by rw [Wk.dev_put], fun x hx => w.mem_put_outside a x d (h x hx)⟩

theorem Wk.pondPut_changes (w : Wk) (i : Nat → Prop) (a : Nat) (d : List Byte) (h : ∀ x, ¬ i x → beyond a d.length x) :
    w.changes (w.pondPut a d) i := by
  obtain ⟨h1, h2, h3, h4, h5⟩ := w.put_changes i a d h
  exact ⟨h1, h2, h3, h4, h5⟩

theorem Wk.hbmPut_changes (w : Wk) (i : Nat → Prop) (a : Nat) (d : List Byte) (h : ∀ x, ¬ i x → beyond a d.length x) :
    w.changes (w.hbmPut a d) i := by
  obtain ⟨h1, h2, h3, h4, h5⟩ := w.put_changes i a d h
  exact ⟨h1, h2, h3, h4, h5⟩

theorem Wk.rewrite_changes (w : Wk) (i : Nat → Prop) (a : Nat) (d : List Byte) (h : ∀ x, ¬ i x → beyond a d.length x) :
    w.changes (w.rewrite a d) i := by
  unfold Wk.rewrite
  split
  · exact w.hbmPut_changes i a d h
  · exact w.pondPut_changes i a d h

theorem mem_insertPiece (p q : Piece) (l : List Piece) : q ∈ insertPiece p l ↔ q = p ∨ q ∈ l := by
  induction l with
  | nil => simp [insertPiece]
  | cons a l ih =>
    simp only [insertPiece]
    split
    · simp
    · simp only [List.mem_cons, ih]; tauto

theorem mem_insertAll (q : Piece) (l : List Piece) : ∀ k : List Piece,
    q ∈ l.foldl (fun l p => insertPiece p l) k ↔ q ∈ l ∨ q ∈ k := by
  induction l with
  | nil => simp
  | cons a l ih =>
    intro k
    rw [List.foldl_cons, ih, mem_insertPiece, List.mem_cons]
    tauto

/-- Joined writes write no byte that no piece holds. -/
theorem joinPieces.join_inside (l : List Piece) : ∀ z ∈ joinPieces.join l, ∀ x, ¬ beyond z.1 z.2.length x →
    ∃ p ∈ l, ¬ beyond p.1 p.2.1.length x := by
  induction l with
  | nil => intro z hz; simp [joinPieces.join] at hz
  | cons p l ih =>
    intro z hz x hx
    have here : ¬ beyond p.1 p.2.1.length x → ∃ q ∈ p :: l, ¬ beyond q.1 q.2.1.length x := fun h =>
      ⟨p, List.mem_cons_self .., h⟩
    have there : ∀ z ∈ joinPieces.join l, ¬ beyond z.1 z.2.length x → ∃ q ∈ p :: l, ¬ beyond q.1 q.2.1.length x := fun z hz hx =>
      let ⟨q, hq, k⟩ := ih z hz x hx
      ⟨q, List.mem_cons_of_mem _ hq, k⟩
    simp only [joinPieces.join] at hz
    rcases hj : joinPieces.join l with _ | ⟨⟨b, y⟩, r⟩
    · rw [hj] at hz
      simp only [List.mem_singleton] at hz
      subst hz; exact here hx
    · rw [hj] at hz there
      simp only at hz
      split at hz
      · rename_i e
        have e : p.1 + p.2.1.length = b := by simpa using e
        rcases List.mem_cons.mp hz with rfl | hz
        · by_cases c : beyond p.1 p.2.1.length x
          · refine there (b, y) (List.mem_cons_self ..) fun k => hx ?_
            simp only [beyond, List.length_append] at *
            omega
          · exact here c
        · exact there z (List.mem_cons_of_mem _ hz) hx
      · rcases List.mem_cons.mp hz with rfl | hz
        · exact here hx
        · exact there z hz hx

theorem Wk.pondBad_changes (w : Wk) (i : Nat → Prop) (p : Piece) : w.changes (w.pondBad p) i := by
  unfold Wk.pondBad
  exact Wk.changes_each i (fun w j => w.op (.poisonPond ((touchedWords 8 (p.1 - pondBase) p.2.1.length).1 + j))) _
    (fun w x _ => ⟨rfl, rfl, rfl, rfl, fun a _ => by rw [Wk.mem_op, Mem.byte_poisonPond]⟩) _

theorem Wk.pondPieces_changes (w : Wk) (i : Nat → Prop) (ps : List Piece)
    (h : ∀ x, ¬ i x → ∀ p ∈ ps, beyond p.1 p.2.1.length x) : w.changes (w.pondPieces ps) i := by
  unfold Wk.pondPieces
  refine Wk.changes_trans (Wk.changes_each i _ (joinPieces ps) (fun w z hz => w.pondPut_changes i z.1 z.2 fun x hx => ?_) w)
    (Wk.changes_each i _ _ (fun w p _ => w.pondBad_changes i p) _)
  by_contra c
  obtain ⟨p, hp, k⟩ := joinPieces.join_inside _ z hz x c
  rw [mem_insertAll] at hp
  exact k (h x hx p (by simpa using hp))

/-- The atomic updates of FP32 and INT32 additions and of amax folds. -/
def AtomOp.plain : AtomOp → Bool
  | .addF _ _ | .addI _ _ | .amax _ _ _ => true
  | _ => false

theorem length_leBytes (n v : Nat) : (leBytes n v).length = n := by
  induction n generalizing v with
  | zero => rfl
  | succ n ih => simp [leBytes, ih]

theorem Mem.bytes_length (m : Mem) (a n : Nat) : (m.bytes a n).length = n := by
  induction n generalizing a with
  | zero => rfl
  | succ n ih => simp [Mem.bytes, ih]

theorem foldAmax_length (r : List Byte) (m : W32) (b : Bool) (h : r.length = 64) : (foldAmax r m b).length = 64 := by
  unfold foldAmax
  dsimp only
  split
  · simp [length_leBytes, h]
  · simp [length_leBytes, h]; omega

/-- A plain atomic update changes no byte outside its range. -/
theorem Wk.applyAtom_changes (w : Wk) (o : AtomOp) (ho : o.plain = true) (i : Nat → Prop)
    (h : ∀ x, ¬ i x → ∀ r ∈ o.range, beyond r.1 r.2 x) : w.changes (w.applyAtom o) i := by
  cases o with
  | addF a v => exact w.rewrite_changes i _ _ fun x hx => by rw [length_leBytes]; exact h x hx (a, 4) (by simp [AtomOp.range])
  | addI a v => exact w.rewrite_changes i _ _ fun x hx => by rw [length_leBytes]; exact h x hx (a, 4) (by simp [AtomOp.range])
  | amax a m nf =>
    refine w.rewrite_changes i _ _ fun x hx => ?_
    have e : (foldAmax (w.bytes a 64) m nf).length = 64 := foldAmax_length _ _ _ (Mem.bytes_length _ _ _)
    rw [e]
    exact h x hx (a, 64) (by simp [AtomOp.range])
  | entry => simp [AtomOp.plain] at ho
  | entryF => simp [AtomOp.plain] at ho

/-- What a store without poison leaves: it goes on, each heat stays but for its saturation, slots keep their tags, and no byte
outside the pieces and the ranges of the atomic updates changes. -/
theorem Wk.store_stays (w : Wk) (id : HeatId) (x : Heat) (who : Requester) (st no : Nat) (ps : List Piece)
    (atoms : List AtomOp) (hx : w.dev.heat id = some x) (hn : noHbmPoison ps) (ha : ∀ o ∈ atoms, o.plain = true) :
    (w.store id who st no ps atoms false).2 = true ∧ (w.store id who st no ps atoms false).1.base = w.base ∧
    (∃ b, (w.store id who st no ps atoms false).1.dev.heat id = some { x with sat := b }) ∧
    ∀ a, (∀ z ∈ ps, beyond z.1 z.2.1.length a) → (∀ z ∈ atoms, ∀ r ∈ z.range, beyond r.1 r.2 a) →
      (w.store id who st no ps atoms false).1.mem.byte a = w.mem.byte a := by
  have h0 : ((ps.filter fun p => decide (p.1 < pondBase)).any fun p => p.2.2) = false := by
    rw [List.any_eq_false]
    intro q hq
    rw [List.mem_filter] at hq
    simpa using hn q hq.1 (by simpa using hq.2)
  let i : Nat → Prop := fun a => ¬ ((∀ q ∈ ps, beyond q.1 q.2.1.length a) ∧ ∀ o ∈ atoms, ∀ r ∈ o.range, beyond r.1 r.2 a)
  have c1 : w.changes (w.pondPieces (ps.filter fun p => decide (pondBase ≤ p.1))) i :=
    w.pondPieces_changes i _ fun a ha p hp => (not_not.mp ha).1 p (List.mem_of_mem_filter hp)
  generalize hw : w.pondPieces (ps.filter fun p => decide (pondBase ≤ p.1)) = u at c1
  have atom : ∀ (l : List AtomOp), (∀ o ∈ l, o ∈ atoms) → ∀ v : Wk, ∀ b,
      v.dev.heat id = some { x with sat := b } →
      (Wk.each l (fun w a => w.pondAtom id a) v).base = v.base ∧
      (∃ b, (Wk.each l (fun w a => w.pondAtom id a) v).dev.heat id = some { x with sat := b }) ∧
      ∀ a, ¬ i a → (Wk.each l (fun w a => w.pondAtom id a) v).mem.byte a = v.mem.byte a := by
    intro l
    induction l with
    | nil => intro _ v b hv; exact ⟨rfl, ⟨b, hv⟩, fun _ _ => rfl⟩
    | cons o l ih =>
      intro hl v b hv
      obtain ⟨k1, k2, -, -, k5⟩ := v.applyAtom_changes o (ha o (hl o (List.mem_cons_self ..))) i fun a hai =>
        (not_not.mp hai).2 o (hl o (List.mem_cons_self ..))
      have hv1 : (v.applyAtom o).dev.heat id = some { x with sat := b } := by
        show (v.applyAtom o).dev.mar.heats.find? _ = _
        rw [k2]; exact hv
      have m : (v.pondAtom id o).base = v.base ∧ (∃ b, (v.pondAtom id o).dev.heat id = some { x with sat := b }) ∧
          ∀ a, ¬ i a → (v.pondAtom id o).mem.byte a = v.mem.byte a := by
        unfold Wk.pondAtom Wk.ite
        split
        · refine ⟨k1, ⟨true, ?_⟩, k5⟩
          have := Dev.heat_setHeat_some (f := fun x => { x with sat := true }) hv1 (by intro; rfl)
          exact this
        · exact ⟨k1, ⟨b, hv1⟩, k5⟩
      obtain ⟨m1, ⟨b', m2⟩, m3⟩ := m
      obtain ⟨n1, n2, n3⟩ := ih (fun o ho => hl o (List.mem_cons_of_mem _ ho)) (v.pondAtom id o) b' m2
      exact ⟨n1.trans m1, n2, fun a hai => (n3 a hai).trans (m3 a hai)⟩
  obtain ⟨b1, b2, -, -, b5⟩ := c1
  have hu : u.dev.heat id = some { x with sat := x.sat } := by
    show u.dev.mar.heats.find? _ = _
    rw [b2]; exact hx
  obtain ⟨k1, ⟨b, k2⟩, k3⟩ := atom (atoms.filter fun a => decide (pondBase ≤ a.addr)) (fun o ho => List.mem_of_mem_filter ho) u _ hu
  generalize hv : Wk.each (atoms.filter fun a => decide (pondBase ≤ a.addr)) (fun w a => w.pondAtom id a) u = v at k1 k2 k3
  have e : w.store id who st no ps atoms false = (v.up fun d =>
      (atoms.filter fun a => decide (a.addr < pondBase)).foldl
        (fun d a => d.post (Req.forHeat x who a.lines (.atomic a) st no []))
        ((hbmWrites (ps.filter fun p => decide (p.1 < pondBase))).foldl
          (fun d z => d.post (Req.forHeat x who [z.1 / 128] (.write z.1 z.2) st no [])) d), true) := by
    simp only [Wk.store, hx, h0, Bool.or_self, Bool.false_eq_true, if_false, hw, hv]
  rw [e]
  refine ⟨rfl, k1.trans b1, ⟨b, ?_⟩, fun a p1 p2 => (k3 a (not_not.mpr ⟨p1, p2⟩)).trans (b5 a (not_not.mpr ⟨p1, p2⟩))⟩
  exact (foldl_heat (fun d (a : AtomOp) => d.post (Req.forHeat x who a.lines (.atomic a) st no [])) (fun _ _ _ => rfl) _ _ id).trans
    ((foldl_heat (fun d (z : Nat × List Byte) => d.post (Req.forHeat x who [z.1 / 128] (.write z.1 z.2) st no []))
      (fun _ _ _ => rfl) _ _ id).trans k2)

/-- A store of poison bound for HBM, or of a poisoned contribution, ends the heat and stores nothing (R148). -/
theorem Wk.store_poisoned (w : Wk) (id : HeatId) (x : Heat) (who : Requester) (st no : Nat) (ps : List Piece)
    (atoms : List AtomOp) (bad : Bool) (hx : w.dev.heat id = some x) (hb : bad = true ∨ ¬ noHbmPoison ps) :
    w.store id who st no ps atoms bad = (w.up fun d => d.endHeat x, false) := by
  have h0 : (bad || (ps.filter fun p => decide (p.1 < pondBase)).any fun p => p.2.2) = true := by
    rcases hb with rfl | hb
    · rfl
    · simp only [noHbmPoison, not_forall] at hb
      obtain ⟨q, hq, hl, hp⟩ := hb
      rw [Bool.or_eq_true]
      exact Or.inr (List.any_eq_true.mpr ⟨q, List.mem_filter.mpr ⟨hq, by simpa using hl⟩, by simpa using hp⟩)
  simp only [Wk.store, hx, h0, if_true]

end Sys2Proof.Machine
end

