-- ==== Sys2Proof/Laws/Step.lean ====
section
/-! SUPPORT. The shape of every command's outcome, the equations that turn a meaning into its next state, and what a
retiring heat leaves. -/

namespace Sys2Proof.Machine

open Sys2Proof.Config

/-! ### The outcome of a command -/

/-- A command either takes one action on the block and memory, or stops at the aperture. -/
theorem exec_shape (c : Instr) (s : State) : (∃ f, exec c s = done s f) ∨ exec c s = .fault .barRange := by
  cases c
  case bar4Read o l e =>
    by_cases h : bar4Size < o + l
    · right; show execBar4Read o l e s = _; rw [execBar4Read, if_pos h]
    · left; exact ⟨_, by show execBar4Read o l e s = _; rw [execBar4Read, if_neg h]⟩
  case bar4Write o l e =>
    by_cases h : bar4Size < o + l.length
    · right; show execBar4Write o l e s = _; rw [execBar4Write, if_pos h]
    · left; exact ⟨_, by show execBar4Write o l e s = _; rw [execBar4Write, if_neg h]⟩
  all_goals exact Or.inl ⟨_, rfl⟩

/-- A command that `blockOnly` names changes the block alone. -/
theorem exec_blockOnly (c : Instr) (s : State) (h : blockOnly c = true) : ∃ f, exec c s = devOnly s f := by
  cases c <;> first | exact absurd h Bool.false_ne_true | exact ⟨_, rfl⟩

theorem devOnly_next_of (s : State) {f g : Dev → Dev} (h : f s.dev = g s.dev) : devOnly s f = .next (s.withDev g) := by
  rw [devOnly_eq, h]; rfl

theorem done_next_of (s : State) {f : Wk → Wk} {w : Wk} (h : f s.work = w) : done s f = .next (s.after w) := by
  subst h; rfl

theorem done_same (s : State) {f : Wk → Wk} (h : f s.work = s.work) : done s f = .next s := by
  show Host.Outcome.next (run s f) = _
  have : run s f = s := by
    show ({ s with mem := s.mem.applyAll (f s.work).ops, dev := (f s.work).dev } : State) = s
    rw [h]; rfl
  rw [this]

theorem devOnly_same (s : State) {f : Dev → Dev} (h : f s.dev = s.dev) : devOnly s f = .next s := by
  rw [devOnly_eq, h]

theorem Dev.hostWrite_open {d : Dev} (h : 6 ≤ d.start.step) (f : Dev → Dev) : d.hostWrite f = f d := by
  simp [Dev.hostWrite, Dev.hostOpen, h]

theorem Dev.hostEarly_of {d : Dev} (h : 4 ≤ d.start.step) : d.hostEarly = true := by simp [Dev.hostEarly, h]

/-- A running heat's meaning: where it takes `x` to `w`, the command answers the state after `w`. -/
theorem done_withHeat (s : State) (h : HeatId) (x : Heat) (hx : s.dev.heat h = some x) (hr : x.mayRun = true)
    (f : Heat → Wk → Wk) (e : Host.Outcome State Fault Refusal)
    (he : e = done s fun w => w.withHeat h f) (w : Wk) (hw : f x s.work = w) : e = .next (s.after w) := by
  rw [he]
  refine done_next_of s ?_
  simp only [Wk.withHeat]
  have hx' : s.work.dev.heat h = some x := hx
  simp only [hx', hr, if_true, hw]

/-! ### Retirement -/

theorem Dev.notAt_of_beyond {d : Dev} {x : Heat} {a : Nat} (h : ∀ p, d.recordPlace x = some p → beyond p 16 a) : ¬ d.recordAt x a := by
  rintro ⟨h1, h2, h3, h4⟩
  have := h _ (by simp [Dev.recordPlace, h1, h2]; rfl)
  unfold beyond at this
  omega

theorem Wk.complete_base (w : Wk) (x : Heat) (n : Nat) : (w.complete x n).base = w.base := by
  simp only [Wk.complete]
  split
  · rfl
  · split
    · rfl
    · simp only [Wk.ite, Wk.put, Wk.op]; split <;> split <;> rfl

theorem Wk.retire_base (w : Wk) (x : Heat) : (w.retire x).base = w.base := by
  simp only [Wk.retire, Wk.up, Wk.complete]
  split
  · rfl
  · split
    · rfl
    · simp only [Wk.ite, Wk.put, Wk.op]; split <;> split <;> rfl

theorem run_mem_of_base (s : State) (f : Wk → Wk) (hb : (f s.work).base = s.mem) : (run s f).mem = (f s.work).mem := by
  show s.mem.applyAll (f s.work).ops = (f s.work).base.applyAll (f s.work).ops
  rw [hb]

theorem State.after_dev (s : State) (w : Wk) : (s.after w).dev = w.dev := rfl

theorem State.after_mem (s : State) (w : Wk) (h : w.base = s.mem) : (s.after w).mem = w.mem := by
  show s.mem.applyAll w.ops = w.base.applyAll w.ops
  rw [h]

theorem Wk.up_base (w : Wk) (f : Dev → Dev) : (w.up f).base = w.base := rfl

theorem Wk.retire_leaves_of (s : State) (f : Wk → Wk) (h : HeatId) (x : Heat) (e : x.id = h) (w : Wk)
    (hw : f s.work = w.retire x) (hm : w.mem = s.mem) (hb : w.base = s.mem) (hs : w.dev.streams = s.dev.streams) :
    (run s f).dev.heat h = none ∧ ∀ a, (∀ p, s.dev.recordPlace x = some p → beyond p 16 a) →
      (run s f).mem.byte a = s.mem.byte a := by
  constructor
  · show (f s.work).dev.heat h = none
    rw [hw, ← e]; exact Wk.retire_heat w x
  · intro a ha
    rw [run_mem_of_base s f (by rw [hw, Wk.retire_base, hb]), hw, Wk.retire_mem, hm]
    have : w.dev.recordAt x a = s.dev.recordAt x a := by
      simp only [Dev.recordAt, Dev.stream, hs]
    rw [this]; exact Dev.notAt_of_beyond ha

/-- What a retiring heat leaves: no entry of its own, and every byte but its completion record. -/
theorem Wk.retire_leaves (s : State) (h : HeatId) (x : Heat) (e : x.id = h) (w : Wk)
    (hm : w.mem = s.mem) (hb : w.base = s.mem) (hs : w.dev.streams = s.dev.streams) :
    (s.after (w.retire x)).dev.heat h = none ∧ ∀ a, (∀ p, s.dev.recordPlace x = some p → beyond p 16 a) →
      (s.after (w.retire x)).mem.byte a = s.mem.byte a :=
  Wk.retire_leaves_of s (fun _ => w.retire x) h x e w rfl hm hb hs

theorem Dev.learnRoutes_streams (b : Body) (d : Dev) : (d.learnRoutes b).streams = d.streams := by
  unfold Dev.learnRoutes
  refine foldl_keeps (fun d => d.streams) _ (fun _ _ => ?_) _ d
  rfl

theorem Dev.report_heat (d : Dev) (c : Nat) (h : HeatId) : (d.report c).heat h = d.heat h := by
  unfold Dev.report
  split <;> rfl

theorem Wk.retire_upd (w : Wk) (x : Heat) : (w.retire x).dev.upd = w.dev.upd := by
  simp [Wk.retire, Wk.up]
  split <;> simp [Wk.complete] <;> (repeat' split) <;> simp [Wk.up, Wk.put, Wk.op, Wk.ite] <;>
    (repeat' split) <;> simp

/-! ### Buffers of a weight set -/

theorem WSet.buf_setBuf (t : WSet) (b c : Nat) (f : VBuf → VBuf) (h0 : b < t.bufs.length) :
    (t.setBuf b f).buf c = if c = b then f (t.buf b) else t.buf c := by
  simp only [WSet.setBuf, WSet.buf, List.getD_eq_getElem?_getD, List.getElem?_mapIdx]
  by_cases h : c = b
  · subst h; simp [h0]
  · simp only [h, if_false]
    cases e : t.bufs[c]? <;> simp [h]

/-! ### Atoms and operands of a stage -/

theorem Desc.amaxOp_plain (t : Desc) (l : List W32) : ∀ o ∈ t.amaxOp l, o.plain = true := by
  intro o ho
  unfold Desc.amaxOp at ho
  split at ho
  · split at ho
    · simp at ho
    · rw [List.mem_singleton] at ho; subst ho; rfl
  · simp at ho

theorem Desc.foldOf_plain (t : Desc) (x) : ∀ o ∈ t.foldOf x, o.plain = true := by
  intro o ho
  exact Desc.amaxOp_plain t _ o ho

theorem Desc.accAtoms_plain (t : Desc) (ws) : ∀ o ∈ t.accAtoms ws, o.plain = true := by
  intro o ho
  simp only [Desc.accAtoms, List.mem_map] at ho
  obtain ⟨w, _, rfl⟩ := ho
  split <;> rfl

theorem AtomOp.plain_append {a b : List AtomOp} (ha : ∀ o ∈ a, o.plain = true) (hb : ∀ o ∈ b, o.plain = true) :
    ∀ o ∈ a ++ b, o.plain = true := by
  intro o ho
  rcases List.mem_append.mp ho with h | h
  · exact ha o h
  · exact hb o h

theorem slotAddr_inj (a b : Nat) (i j : Nat) (hi : i < slotBytes) (hj : j < slotBytes) (h : slotAddr a + i = slotAddr b + j) : a = b := by
  simp only [slotAddr, slotsPerCluster, slotBytes, pondBase, pondWindow] at *
  omega

theorem Dev.copyingSlot_of_flt {d e : Dev} (h : d.flt = e.flt) (g : Nat) : d.copyingSlot g = e.copyingSlot g := by
  simp only [Dev.copyingSlot, h]

/-! ### Contexts -/

theorem Dev.readCtx_ok (d : Dev) (x : Heat) (id cop : Nat) (h : checkOk (d.ctxAt id) = true) : d.readCtx x id cop = (d, some (d.ctxAt id)) := by
  simp only [Dev.readCtx, h, if_true]

end Sys2Proof.Machine
end

