-- ==== Sys2Proof/WellFormed.lean ====
section
/-! DEFINITION. What a well-formed command is: the bounds that the constructors' types do not carry. A command
outside them names something the module does not have; its meaning is total all the same. -/

namespace Sys2Proof

open Sys2Proof.Config

/-- Readings fit their registers (R453): 16 bits each, temperatures signed. -/
def Sensors.wf (r : Sensors) : Bool :=
  decide (r.vinMv < 65536) && decide (r.pinW < 65536) && decide (r.flow < 65536)
    && decide (-32768 ≤ r.inlet) && decide (r.inlet < 32768)
    && decide (-32768 ≤ r.outlet) && decide (r.outlet < 32768)
    && decide (-32768 ≤ r.hottest) && decide (r.hottest < 32768)

/-- ECC reports each of the four words of a line at most once (R193). -/
def eccWf (l : List EccError) : Bool := decide ((l.map EccError.word).Nodup)

/-- A contribution carries 32 B of DATA (R353). -/
def Contribution.wf (c : Contribution) : Bool := c.data.length == 32

/-- A decision carries 32 B of DATA (R353). -/
def Decision.wf (d : Decision) : Bool := d.data.length == 32

/-- The bounds of a command. -/
def Instr.wf : Instr → Bool
  | .contextRecordWrite offset data =>
    decide (0 < data.length) && decide (offset + data.length ≤ 8 * 2 ^ 20)
  | .registerWrite bar2 offset size _ =>
    (size == 4 || size == 8) && offset % size == 0 && decide (offset + size ≤ if bar2 then 2 ^ 28 else 2 ^ 26)
  | .bar4Read offset length errs =>
    decide (0 < length) && decide (offset + length ≤ 64 * 2 ^ 30) && errs.all fun e => decide (e.1 < hbmBytes / 128)
  | .bar4Write offset data _ => decide (0 < data.length) && decide (offset + data.length ≤ 64 * 2 ^ 30)
  | .readReg offset length => (length == 4 || length == 8) && offset % length == 0
  | .readEvent i => decide (i < 256)
  | .readReturn _ errs => eccWf errs
  | .writeAck _ errs => eccWf errs
  | .scrub line errs => decide (line < hbmBytes / 128) && eccWf errs
  | .dataFrame _ frame _ => frame.length == 1120
  | .joinRequest c _ => c.wf
  | .hurdleContribution c => c.wf
  | .hurdleDecision d => d.wf
  | .copyPhaseDone received => decide ((received.map Prod.fst).Nodup)
  | .sensorSample r => r.wf
  | .mainPathCheck r => r.wf
  | _ => true

end Sys2Proof
end

