-- ==== Sys2Proof/Tests/Slice0.lean ====
section
/-! SUPPORT. The model's own tests: an ill-formed command for each check of `Instr.wf`; for each statement states and
operands that meet its hypotheses, clause by clause; and single steps whose expected results come from the rules named. -/

namespace Sys2Proof.Tests

open Sys2Proof Sys2Proof.Machine Sys2Proof.Config

/-! ### Small states -/

/-- A heat of a body, the first of stream F of cluster 0, in a state. -/
def heatOf (b : Body) (st : HState) : Heat where
  id := ⟨0, .f, 0⟩
  cmdId := 7
  prio := 0
  pclass := 0
  heavy := false
  prefetch := false
  cpl := false
  irq := false
  ovf := false
  dep := []
  depMask := 0
  body := b
  state := st
  age := 0
  since := 0
  request := none
  granted := false
  reserved := false
  engines := []
  gathers := 0
  order := 0
  dispatch := 0
  staged := []
  claims := []
  waits := []
  prog := []
  leave := []
  thresh := 0
  done := false
  sat := false
  clip := false
  nonfinite := false
  skipped := false
  taint := false
  faulted := false
  stale := false

/-- The heat named by every test. -/
def hid : HeatId := ⟨0, .f, 0⟩

/-- A turn table that gives every accessor two turns on every bank of cluster 0. -/
def turnBytes : List Byte :=
  List.replicate 8 0 ++ (List.replicate 32 ((List.range 8).map fun t => BitVec.ofNat 8 (2 ^ t))).flatten

/-- A block whose start-up has ended. -/
def ready : Dev := { Dev.reset with
  img := { Img.reset with live := { Conf.reset with turns := turnBytes } }
  start := { Start.reset with step := 0xF, standby := true, pwrEn := true, perst := false }
  pwr := { Pwr.reset with state := 4 } }

/-- A state of a block. -/
def st (d : Dev) : State := { State.reset with dev := d }

/-- A block that holds heats. -/
def withHeats (l : List Heat) : Dev := { ready with mar := { Marshal.reset with heats := l } }

/-- A state with one running heat of a body. -/
def running (b : Body) : State := st (withHeats [heatOf b .running])

/-- A state with one waiting heat of a body. -/
def waiting (b : Body) : State := st (withHeats [heatOf b .waiting])

/-- Whether an outcome is a next state that passes a test. -/
def nextIs (o : Host.Outcome State Fault Refusal) (f : State → Bool) : Bool :=
  match o with
  | .next t => f t
  | _ => false

/-! ### Ill-formed commands, one for each check of `Instr.wf` -/

theorem smoke_context_record_empty : Instr.wf (.contextRecordWrite 0 []) = false := by decide
theorem smoke_context_record_beyond : Instr.wf (.contextRecordWrite (8 * 2 ^ 20) [0]) = false := by decide
theorem smoke_register_size : Instr.wf (.registerWrite false 0 2 0) = false := by decide
theorem smoke_register_align : Instr.wf (.registerWrite false 4 8 0) = false := by decide
theorem smoke_register_bar0 : Instr.wf (.registerWrite false (2 ^ 26) 4 0) = false := by decide
theorem smoke_register_bar2 : Instr.wf (.registerWrite true (2 ^ 28) 4 0) = false := by decide
theorem smoke_bar4_read_empty : Instr.wf (.bar4Read 0 0 []) = false := by decide
theorem smoke_bar4_read_beyond : Instr.wf (.bar4Read (64 * 2 ^ 30) 1 []) = false := by decide
theorem smoke_bar4_read_line : Instr.wf (.bar4Read 0 1 [(hbmBytes / 128, ⟨0, .corrected⟩)]) = false := by decide
theorem smoke_bar4_write_empty : Instr.wf (.bar4Write 0 [] false) = false := by decide
theorem smoke_bar4_write_beyond : Instr.wf (.bar4Write (64 * 2 ^ 30) [some 0] false) = false := by decide
theorem smoke_read_reg_length : Instr.wf (.readReg 0 2) = false := by decide
theorem smoke_read_reg_align : Instr.wf (.readReg 4 8) = false := by decide
theorem smoke_read_event : Instr.wf (.readEvent 256) = false := by decide
theorem smoke_read_return : Instr.wf (.readReturn 0 [⟨0, .corrected⟩, ⟨0, .corrected⟩]) = false := by decide
theorem smoke_write_ack : Instr.wf (.writeAck 0 [⟨0, .corrected⟩, ⟨0, .corrected⟩]) = false := by decide
theorem smoke_scrub_line : Instr.wf (.scrub (hbmBytes / 128) []) = false := by decide
theorem smoke_scrub_errors : Instr.wf (.scrub 0 [⟨0, .corrected⟩, ⟨0, .corrected⟩]) = false := by decide
theorem smoke_data_frame : Instr.wf (.dataFrame 0 [] 0) = false := by decide
theorem smoke_join_request : Instr.wf (.joinRequest ⟨0, 0, 0, 0, 0, []⟩ 0) = false := by decide
theorem smoke_contribution : Instr.wf (.hurdleContribution ⟨0, 0, 0, 0, 0, []⟩) = false := by decide
theorem smoke_decision : Instr.wf (.hurdleDecision ⟨0, 0, 0, 0, 0, [], 0⟩) = false := by decide
theorem smoke_copy_phase : Instr.wf (.copyPhaseDone [(0, 0), (0, 1)]) = false := by decide

/-- A reading with one field out of its register. -/
def badSensors : List Sensors :=
  let z : Sensors := ⟨0, 0, 0, 0, 0, false, 0, 0, 0, 0⟩
  [{ z with vinMv := 65536 }, { z with pinW := 65536 }, { z with flow := 65536 }, { z with inlet := -32769 },
    { z with inlet := 32768 }, { z with outlet := -32769 }, { z with outlet := 32768 }, { z with hottest := -32769 },
    { z with hottest := 32768 }]
theorem smoke_sensors : (badSensors.all fun r => !Instr.wf (.sensorSample r) && !Instr.wf (.mainPathCheck r)) = true := by
  decide
theorem smoke_well_formed : (Instr.wf (.registerWrite true (2 ^ 28 - 4) 4 0) && Instr.wf (.scrub (hbmBytes / 128 - 1) [])
    && Instr.wf (.bar4Read (64 * 2 ^ 30 - 1) 1 []) && Instr.wf .rejoin) = true := by decide

/-! ### Hypotheses of the statements about the queue, memory and streams -/

theorem wit_IdleCountsACycle :
    State.reset.pending = [] ∧ ∀ x ∈ State.reset.dev.upd.wsets, ∀ b ∈ x.2.bufs, b.expired (State.reset.dev.now + 1) = false := by
  decide
theorem wit_StepKeepsMemoryCanonical : ∃ t, State.reset.mem.wf = true ∧ step State.reset = .next t :=
  ⟨_, by decide, rfl⟩
theorem wit_CommandsKeepTheQueue : ∃ t, exec .rejoin State.reset = .next t := ⟨_, rfl⟩
theorem wit_OnlyTheApertureStops : outside (.bar4Read (64 * 2 ^ 30 - 1) 1 []) = false
    ∧ outside (.bar4Read (64 * 2 ^ 30) 1 []) = true ∧ outside (.bar4Write (64 * 2 ^ 30) [some 0] false) = true := by decide
theorem wit_BlockCommandsKeepMemory : blockOnly .rejoin = true := rfl

/-- A block that holds a ring of 64 slots in every stream's place, enabled by the image and its bit. -/
def ringed (tail fetch : W32) : Dev := { ready with
  img := { Img.reset with live := { Conf.reset with partition := [0x70] } }
  streams := [(0, { Stream.zero with ring := 6, enable := true, tail := tail, fetch := fetch })] }

theorem wit_StreamControlWrites :
    (4 ≤ (st { ready with start := { ready.start with step := 4 } }).dev.start.step ∧ 4 ≤ 7)
    ∧ (8 ≤ (st ready).dev.start.step ∧ (st ready).dev.sec.phase < 3)
    ∧ (4 ≤ (st ready).dev.start.step ∧ 3 ≤ ({ ready with sec := { Sec.reset with phase := 3 } } : Dev).sec.phase)
    ∧ NSet.has (st ready).dev.flt.halted 0 = false := by decide

theorem wit_DoorbellJudged :
    let d := ringed 0 0
    let good := fun (tail : W32) => d.live.streamOn 0 0 = true ∧ (d.stream 0 0).ring ≠ 0
      ∧ serialBefore tail (d.stream 0 0).tail = false ∧ (tail - d.retire 0 0).toNat ≤ (d.stream 0 0).size
    4 ≤ d.start.step ∧ good 0 ∧ good 64 ∧ ¬ good 65 ∧ d.hostWrites = [] ∧
    ({ d with hbm := { d.hbm with reqs := [Req.of .host [0] (.write 0 [1])] } } : Dev).hostWrites ≠ [] := by decide

theorem wit_StreamRingsSetUp :
    6 ≤ (st ready).dev.start.step ∧ (st ready).dev.streamState 0 0 = 0 ∧ (ringed 0 0).streamState 0 0 ≠ 0
    ∧ (6 ≤ bits 6 4 0 ∧ bits 6 4 0 ≤ 20 ∧ bits 6 47 12 * 4096 + 2 ^ bits 6 4 0 * 64 ≤ hbmBytes)
    ∧ (6 ≤ bits 20 4 0 ∧ bits 20 4 0 ≤ 20 ∧ bits 20 47 12 * 4096 + 2 ^ bits 20 4 0 * 64 ≤ hbmBytes)
    ∧ (4 ≤ bits 4 4 0 ∧ bits 4 4 0 ≤ 16 ∧ bits 4 47 12 * 4096 + 2 ^ bits 4 4 0 * 16 ≤ hbmBytes)
    ∧ (4 ≤ bits 16 4 0 ∧ bits 16 4 0 ≤ 16 ∧ bits 16 47 12 * 4096 + 2 ^ bits 16 4 0 * 16 ≤ hbmBytes) := by decide

theorem wit_FusedValuesNeverChange : ∃ t, exec .coldStart State.reset = .next t := ⟨_, rfl⟩

theorem wit_FusedValuesNeverChange_writes : (8 = 4 ∨ 8 = 8) ∧ 0x10 % 8 = 0 ∧ 0x10 + 8 ≤ 0x18 := by decide

theorem wit_SettingsStay : setsSettings .lapTick = false ∧ ∃ t, exec .lapTick State.reset = .next t := ⟨rfl, _, rfl⟩

theorem wit_SettingsStay_fused :
    { Dev.reset with boot := { Boot.reset with dbgFuse := true } }.boot.dbgFuse = true ∧
    ∃ t, exec (.evtEnable 1) (st { Dev.reset with boot := { Boot.reset with dbgFuse := true } }) = .next t := ⟨rfl, _, rfl⟩

theorem wit_FetchTakesOneCommand :
    [0, 1, 2].find? ((ringed 1 0).mayFetch 0) = some 0
    ∧ [1, 2, 0].find? ((ringed 1 0).mayFetch 0) = some 0 := by decide

/-- Whether a decode succeeds. -/
def decodes (m : Mem) : Bool :=
  match decodeCommand m (ringed 1 0) 0 0 0 (m.bytes 0 64) with
  | .ok _ => true
  | .error _ => false

/-- 64 zero bytes are a no-operation (R206, R209); opcode 0x04 is invalid (R208). -/
theorem wit_FetchTakesOneCommand_decodes : decodes ⟨[], [], []⟩ = true ∧ decodes ⟨[(0, 4)], [], []⟩ = false := by decide

/-! ### Hypotheses of the statements about heats -/

/-- A state whose one heat is this, with these pond slots FULL. -/
def holding (l : NSet) (x : Heat) : State :=
  st { ready with mar := { Marshal.reset with heats := [x], full := l } }

/-- A state whose one heat runs or waits, with these pond slots FULL. -/
def fullOf (l : NSet) (b : Body) (h : HState) : State := holding l (heatOf b h)

/-- The running heat of every test may go on, and the waiting one may be dispatched. -/
theorem goes_running (l : NSet) (b : Body) : (fullOf l b .running).dev.goes hid (heatOf b .running) := ⟨rfl, rfl⟩
theorem opens_waiting (b : Body) : (waiting b).dev.opens hid (heatOf b .waiting) := ⟨rfl, rfl⟩

/-- Whether a part of a plan is the one left, and nothing holds it up. -/
def soleOk (s : State) (x : Heat) (st : Nat) (pl : Plan) (p : Part) : Bool :=
  let w := s.work.up fun d => d.ask x st pl
  decide (s.dev.heat x.id = some x) && x.mayRun && !(x.at st).ended && x.leave.isEmpty
    && ((List.range x.body.stages.length).all fun k => k == st || (x.at k).ended)
    && match w.dev.heat x.id with
      | none => false
      | some y => decide (((pl.parts.map Part.no).filter fun n => !(y.at st).ran.contains n) = [p.no])
        && w.dev.partUp y st p && (w.dev.blocks y st [] p).isEmpty
        && (firstPoison (w.view x.id st 0) (pondPlaces (p.reads.map Rd.pl).flatten)).isNone

theorem filter_one (f : Nat → Bool) (l : List Part) (p : Part) (hp : p ∈ l) (h : (l.map Part.no).filter f = [p.no]) :
    l.filter (fun q => f q.no) = [p] := by
  rw [List.filter_map] at h
  have hl : (l.filter (fun q => f q.no)).length = 1 := by
    have := congrArg List.length h
    simpa [Function.comp_def] using this
  obtain ⟨q, hq⟩ := List.length_eq_one_iff.mp hl
  have hf : f p.no = true := by
    have : p.no ∈ (l.filter (f ∘ Part.no)).map Part.no := by rw [h]; exact List.mem_singleton.mpr rfl
    obtain ⟨r, hr, e⟩ := List.mem_map.mp this
    rw [← e]; exact (List.mem_filter.mp hr).2
  have hm : p ∈ l.filter (fun q => f q.no) := List.mem_filter.mpr ⟨hp, hf⟩
  rw [hq] at hm ⊢
  rw [List.mem_singleton.mp hm]

/-- A part that passes the check is the sole part of its stage. -/
theorem sole_of {s : State} {x : Heat} {st : Nat} {pl : Plan} {p : Part} (hp : p ∈ pl.parts)
    (h : soleOk s x st pl p = true) :
    ∃ y, SolePart s x.id x y (s.work.up fun d => d.ask x st pl) st pl p := by
  unfold soleOk at h
  dsimp only at h
  generalize hw : (s.work.up fun d => d.ask x st pl) = w at h ⊢
  cases hy : w.dev.heat x.id with
  | none => simp [hy] at h
  | some y =>
    simp only [hy, Bool.and_eq_true, decide_eq_true_eq, Bool.not_eq_true', List.isEmpty_iff, List.all_eq_true,
      List.mem_range, Bool.or_eq_true, beq_iff_eq, Option.isNone_iff_eq_none] at h
    obtain ⟨⟨⟨⟨⟨h1, h2⟩, h3⟩, h4⟩, h5⟩, ⟨⟨h6, h7⟩, h8⟩, h9⟩ := h
    exact ⟨y, ⟨h1, h2⟩, h3, fun k hk hn => (h5 k hk).resolve_left hn, h4, hw.symm, hy,
      filter_one _ _ _ hp h6, h7, h8, h9⟩

theorem wit_DispatchStartsOneHeat :
    let s := st { withHeats [heatOf .nop .ready] with lap := { Lap.reset with cycle := 1 } }
    s.dev.clusterOpen 0 = true ∧ s.dev.lap.cycle ≠ 0 ∧ (heatOf .nop .ready).body.isContext = false ∧
    ((s.dev.readyHeats 0).map (s.dev.placed s.mem)).find? s.dev.fits = some (s.dev.placed s.mem (heatOf .nop .ready)) := by
  intro s
  refine ⟨rfl, by decide, rfl, ?_⟩
  have e : s.dev.readyHeats 0 = [heatOf .nop .ready] := by
    unfold Dev.readyHeats sortHeats
    rw [show (s.dev.mar.heats.filter fun h => h.id.cluster.val == 0 && h.state == .ready && decide (h.since ≤ s.dev.now)
      && !s.dev.noDispatch 0 h.id.stream.num) = [heatOf .nop .ready] from rfl]
    simp
  simp only [e]
  decide

theorem wit_EndedHeatsLeave :
    let x : Heat := { heatOf .nop .running with done := true }
    let d := withHeats [x]
    d.heat hid = some x ∧ x.state = .running ∧ x.done = true ∧ (∀ r ∈ d.hbm.reqs, r.isOf x = false) ∧ d.heatFrames hid = 0
    ∧ d.recordPlace x = none := by decide

/-- A completion ring of 16 entries at 4 KiB: the record of a heat with CPL goes to its first entry (R226). -/
theorem wit_EndedHeatsLeave_record :
    let x : Heat := { heatOf .nop .running with done := true, cpl := true }
    let d : Dev := { withHeats [x] with streams := [(0, { Stream.zero with cplReg := 0x1004 })] }
    d.heat hid = some x ∧ d.recordPlace x = some 0x1000 ∧ d.heatFrames hid = 0 := by decide

theorem wit_EndedHeatsLeave_cancelled :
    let x := heatOf .nop .cancelling
    (withHeats [x]).heat hid = some x ∧ x.state = .cancelling ∧ (withHeats [x]).heatWrites hid = [] := by decide

theorem wit_PermitGrant :
    let x : Heat := { heatOf .nop .waiting with heavy := true, request := some 0 }
    let d : Dev := { withHeats [x] with prm := { Dev.reset.prm with capEighths := 8 } }
    d.requests.mergeSort Heat.asksFirst = x :: [] ∧
    d.gSum + d.live.classGrains x.pclass ≤ d.permitCap ∧
    d.gSum + d.live.classGrains x.pclass ≤ d.gPeak + d.rampGrains := by
  refine ⟨?_, by decide, by decide⟩
  exact List.mergeSort_singleton _

theorem wit_WaiterResume :
    let x : Heat := { heatOf (.release 0 1) .running with waits := [⟨0, 0, false, accIn⟩] }
    (withHeats [x]).heat hid = some x ∧ x.mayRun = true ∧ x.waits ≠ [] ∧ rowOf hid x.body = some (.release hid) ∧
    (heatOf (.release 0 1) .running).waits = [] := by decide

/-- One FP32 element. -/
def one (a : Nat) : Desc := ⟨a, .fp32, 0, 0, 0, [1], [4], none, 0⟩

/-- A dense or sparse matrix command of one element each of slots 0 and 32, to HBM. -/
def matBody (sparse : Bool) : MatBody where
  sparse := sparse
  a := one pondBase
  w := one (pondBase + 0x10000)
  out := some (one 0x1000)
  route := none
  transW := false
  tandem := false
  keepA := true
  keepW := true
  sparseW := false
  stages := 0
  act := 0
  scale := 0x3F800000
  clamp := 0
  accSrc := none
  bias := none
  discard := []
  a2 := none
  out2 := none
  route2 := none
  stages2 := 0
  acc2 := none
  pred := none
  rseg := 0
  tiles := if sparse then [2 ^ 40] else []
  feed := if sparse then some ⟨pondBase, .fp32, 0, 0, 1, [128, 128], [4, 512], none, 0⟩ else none
  shape := 0
  partner := 0

/-- A running matrix heat whose one unit has been computed. -/
def computed (c : Nat) : Heat :=
  { heatOf (.stage (.matrix (matBody false))) .running with prog := [(0, { Prog.zero with ran := [c] })] }

/-- A finished buffer of a unit, with the checksum sums of its rows. -/
def accBuf (c : W32) : AccBuf := ⟨hid, 0, 0, false, 1, [[1]], [[c]], [[1]], [], [false], false⟩

/-- A block with that buffer in core 0, its heat running or cancelled, and its pond copied or not. -/
def draining (c : W32) (x : Heat) (copying : Nat) : Dev :=
  { withHeats [x] with
    flt := { ready.flt with copying := [(0, copying)] }
    mar := { Marshal.reset with heats := [x], acc := [(0, [accBuf c])] } }

theorem wit_Drain :
    let x := computed 1
    let y : MatCtx := ⟨x, 0, matBody false⟩
    let d := draining 1 x 0
    let hit := (accBuf 1).hit (y.plan 0).width []
    let part := y.drainPart hit
    d.toDrain 0 0 = some (0, accBuf 1, x) ∧ x.matrixAt 0 = some (matBody false) ∧ AMap.get [] d.mar.acc 0 = [accBuf 1] ∧
    x.state = .running ∧ AMap.get 0 d.flt.copying 0 ≠ 0 + 1 ∧ AMap.get 0 (draining 1 x 1).flt.copying 0 = 0 + 1 ∧
    hit.passesTest = true ∧ y.drainBlocks (st d).work hit = [] ∧ d.partTurns part = true ∧ (matBody false).mapped = [] ∧
    firstPoison (st d).mem.view (pondPlaces (part.reads.map Rd.pl).flatten) = none ∧
    y.discarded 0 = false ∧ y.mid 0 = false ∧ (y.drainTo 0).route = none ∧ (y.drainTo 0).out = some (one 0x1000) ∧
    (one 0x1000).tileMap = 0 ∧
    (∀ q ∈ (y.output ((st d).work.view hid 0 part.no) hit (one 0x1000)).1, q.1 < pondBase → q.2.2 = false) := by
  decide +kernel

/-- A sum that is off by one unit of 2^30 fails, and fences the core. -/
theorem wit_Drain_fails :
    let x := computed 1
    let y : MatCtx := ⟨x, 0, matBody false⟩
    let b := { accBuf 0x4E800000 with vals := [[0x3F800000]], h := [[0x3F800000]] }
    ((b.hit (y.plan 0).width []).passesTest = false) ∧
    (draining 1 { computed 1 with state := .cancelling } 0).toDrain 0 0 =
      some (0, accBuf 1, { computed 1 with state := .cancelling }) := by decide +kernel

theorem wit_ControlCommandsRetire :
    notAfter (0 : W32) (AMap.get (0 : W32) (waiting (.wait 0 0)).dev.mar.signals ((waiting (.wait 0 0)).dev.signalKey 0 0)) = true := by
  decide

/-- A set of two buffers that holds version 0 with `n` pins. -/
def pinned (n : Nat) : Dev := { ready with
  upd := { Update.reset with wsets := [(3, { WSet.zero with nbuf := 2, bufs := [⟨.current, 0, n, 0⟩, .zero] })] } }

theorem wit_OtherControlCommands :
    (waiting (.hurdle none 1 1 1)).dev.mayArm (heatOf (.hurdle none 1 1 1) .waiting) = true ∧
    notAfter (0 : W32) (AMap.get (0 : W32) (waiting .nop).dev.rly.land 0) = true ∧
    ((pinned 65534).wset 3).holding 0 = some 0 ∧ (((pinned 65534).wset 3).buf 0).pins < 65535 ∧
    ((pinned 1).wset 3).holding (-1) = none ∧ serialBefore ((pinned 1).wset 3).version (-1) = false := by decide

theorem wit_VersionRelease :
    ((pinned 1).wset 3).holding 0 = some 0 ∧ 0 < (((pinned 1).wset 3).buf 0).pins ∧
    ((pinned 0).wset 3).holding 0 = some 0 ∧ (((pinned 0).wset 3).buf 0).pins = 0 ∧
    ((pinned 1).wset 3).holding 1 = none := by decide

/-- The last slot of a cluster is free for a fill; a release finds no claim on slot 0. -/
theorem wit_FillAndRelease :
    let s := running (.fill 0 (slotsPerCluster - 1) 1 5)
    let g := slotsPerCluster - 1
    let x := heatOf (.fill 0 (slotsPerCluster - 1) 1 5) .running
    x.at 0 = .zero ∧ x.leave = [] ∧ x.gathers = 0 ∧ slotsPerCluster - 1 + 1 ≤ slotsPerCluster ∧
    s.dev.claimFree hid accIn g = true ∧ s.dev.turns accIn [(slotAddr g, slotBytes)] = true ∧ g ∉ x.claims ∧
    (running (.release 0 1)).dev.isClaimed 0 = false := by decide +kernel

/-- A view without poison finds none. -/
theorem clean_places (v : View) (h : ∀ a, (v a).2 = false) (l : List (Nat × Nat)) : firstPoison v l = none := by
  induction l with
  | nil => rfl
  | cons p l ih =>
    have e : (List.range p.2).find? (fun _ => false) = none := by simp
    simp [firstPoison, h, ih, e]

theorem clean_reset (i : Nat) : (State.reset.mem.view i).2 = false := by
  simp only [Mem.view]; split <;> rfl

/-- Slot 0 is FULL and unpoisoned, slot 1 EMPTY and unclaimed. -/
theorem wit_CopyCopiesItsSlots :
    let s := fullOf [(0, true)] (.copy 0 1 1 true) .running
    s.dev.readable 0 = true ∧ s.dev.turns accOut [(slotAddr 0, slotBytes)] = true ∧ s.dev.claimFree hid accIn 1 = true ∧
    s.dev.turns accIn [(slotAddr 1, slotBytes)] = true ∧ firstPoison s.mem.view [(slotAddr 0, slotBytes)] = none :=
  ⟨by decide, by decide +kernel, by decide, by decide +kernel, clean_places _ clean_reset _⟩

/-! ### The part that is left -/

/-- A running heat that has kept these words, with these parts of its one stage done. -/
def kept (b : Body) (ws : List (Nat × Bool)) (ran : List Nat) : Heat :=
  { heatOf b .running with prog := [(0, { Prog.zero with words := ws, begun := true, asked := ran, ran := ran })] }

/-- A running heat for which a line of zeros is staged, with its first word poisoned or not. -/
def withLine (x : Heat) (grp line : Nat) (first : Byte) (bad : Bool) : Heat :=
  { x with staged := [(stageKey 0 grp line, ⟨first :: List.replicate 127 0, if bad then [0] else []⟩)] }

/-- With these slots FULL and this heat running, a part of its plan is the one left. -/
def Left (l : NSet) (x : Heat) (mk : Wk → Heat → Plan) (p : Part) : Prop :=
  ∃ y, SolePart (holding l x) x.id x y ((holding l x).work.up fun d => d.ask x 0 (mk (holding l x).work x)) 0
    (mk (holding l x).work x) p

theorem left_of {l : NSet} {x : Heat} {mk : Wk → Heat → Plan} {p : Part} (hp : p ∈ (mk (holding l x).work x).parts)
    (h : soleOk (holding l x) x 0 (mk (holding l x).work x) p = true) : Left l x mk p := sole_of hp h

/-- Memory at reset, as a heat sees it. -/
def mem0 : Mem := State.reset.mem

/-! #### Move -/

/-- A move of one element from slot 0 to HBM, of one MX element, and one that adds. -/
def moveOf (f : Fmt) (w : Nat) : Body :=
  .stage (.move { one pondBase with fmt := f } { one 0x1000 with fmt := f, wmode := w } true)

theorem wit_MoveStores_converts :
    let x := heatOf (moveOf .fp32 0) .running
    Left [(0, true)] x (movePlan 0 (one pondBase) (one 0x1000) true [])
      ((⟨x, 0, one pondBase, one 0x1000, true, []⟩ : MoveCtx).part mem0 0 [[0]]) :=
  left_of (List.mem_singleton.mpr rfl) (by decide +kernel)

/-- An MX move: its first group. -/
def mxMove : MoveCtx :=
  ⟨heatOf (moveOf .mxE4m3 0) .running, 0, { one pondBase with fmt := .mxE4m3 }, { one 0x1000 with fmt := .mxE4m3 }, true, []⟩
def mxGroup : List (List Nat) := (mxMove.groups mem0).headD []
theorem wit_MoveStores_copies :
    mxSame mxMove.s mxMove.d = true ∧
    Left [(0, true)] mxMove.h (movePlan 0 mxMove.s mxMove.d true []) (mxMove.part mem0 0 mxGroup) := by
  refine ⟨by decide, left_of (List.mem_mapIdx.mpr ⟨0, by decide +kernel, ?_⟩) (by decide +kernel)⟩
  have e : (mxMove.groups mem0)[0]'(by decide +kernel) = mxGroup := by decide +kernel
  exact congrArg (mxMove.part mem0 0) e

theorem wit_MoveStores_adds :
    let x := heatOf (moveOf .fp32 2) .running
    let d := { one 0x1000 with wmode := 2 }
    let c : MoveCtx := ⟨x, 0, one pondBase, d, true, []⟩
    Left [(0, true)] x (movePlan 0 (one pondBase) d true []) (c.addPart mem0 (c.groups mem0)) :=
  left_of (List.mem_singleton.mpr rfl) (by decide +kernel)

/-- A poisoned element is bound for HBM. -/
theorem wit_MoveStores_poison :
    let a := one 0x2000
    let x := withLine (heatOf (.stage (.move a (one 0x1000) true)) .running) 1 64 0 true
    let c : MoveCtx := ⟨x, 0, a, one 0x1000, true, []⟩
    Left [] x (movePlan 0 a (one 0x1000) true []) (c.part mem0 0 [[0]]) ∧
    (c.datum (heatView mem0 x.staged 0 1) [0]).2 = true :=
  ⟨left_of (List.mem_singleton.mpr rfl) (by decide +kernel), by decide +kernel⟩

/-- A tensor of one tile, compressed or not, and a broadcast of one element to its size. -/
def tiled (a tm : Nat) : Desc := ⟨a, .fp32, 0, 0, 1, [128, 128], [4, 512], none, tm⟩
def spread : Desc := { tiled pondBase 0 with stride := [0, 0] }

/-- What reads nothing, and writes to HBM alone, is left once the part before it has run. -/
theorem left_entries {l : NSet} {b : Body} {ws : List (Nat × Bool)} {mk : Wk → Heat → Plan} {q p : Part}
    (hpl : (mk (holding l (kept b ws [0, 1])).work (kept b ws [0, 1])).parts = [q, p]) (hq : q.no = 1) (h0 : p.no ≠ 0)
    (h1 : p.no ≠ 1) (hr : p.reads = []) (he : p.engines = []) (hf : p.full = []) (hs : p.slots = [])
    (hw : pondPlaces p.writes = []) (hy : p.ready = true) (hst : b.stages.length ≤ 1) :
    Left l (kept b ws [0, 1]) mk p := by
  unfold Left
  generalize hP : mk (holding l (kept b ws [0, 1])).work (kept b ws [0, 1]) = pl at hpl
  have lines : p.lines = [] := by simp [Part.lines, hr]
  have n1 : ([0, 1] : List Nat).contains q.no = true := by rw [hq]; rfl
  have n2 : ([0, 1] : List Nat).contains p.no = false := by simp [h0, h1]
  have ask : (holding l (kept b ws [0, 1])).dev.ask (kept b ws [0, 1]) 0 pl =
      (holding l (kept b ws [0, 1])).dev.setHeat hid fun y => y.upAt 0 fun g => { g with asked := g.asked ++ [p.no] } := by
    have : (pl.parts.filter fun p => !((kept b ws [0, 1]).at 0).asked.contains p.no) = [p] := by
      rw [hpl]
      show ([q, p].filter fun p => !([0, 1] : List Nat).contains p.no) = [p]
      rw [List.filter_cons, List.filter_cons, n1, n2]; rfl
    unfold Dev.ask
    rw [this]
    simp only [List.foldl_cons, List.foldl_nil, Dev.askPart, lines]
    rfl
  let y := (kept b ws [0, 1]).upAt 0 fun g => { g with asked := g.asked ++ [p.no] }
  have hy' : ((holding l (kept b ws [0, 1])).dev.ask (kept b ws [0, 1]) 0 pl).heat hid = some y := by
    rw [ask]
    exact Dev.heat_setHeat_some (x := kept b ws [0, 1]) rfl (fun _ => rfl)
  refine ⟨y, ⟨rfl, rfl⟩, rfl, fun k hk hn => ?_, rfl, rfl, hy', ?_, ?_, ?_, ?_⟩
  · exact absurd (show k = 0 by have : k < b.stages.length := hk; omega) hn
  · have e : (y.at 0).ran = [0, 1] := rfl
    rw [Plan.undone, hpl, e, List.filter_cons, List.filter_cons, n1, n2]
    rfl
  · have t : ∀ (d : Dev) a, d.turns a [] = true := fun _ _ => rfl
    have s0 : ∀ d : Dev, d.served y [] = true := fun d => by simp [Dev.served]
    simp only [Dev.partUp, hy, he, s0, Dev.streamsFor, Heat.hasLines, lines, Dev.partTurns, hr, hw, t]
    rfl
  · simp [Dev.blocks, hr, hf, hs]
  · simp [hr, pondPlaces, firstPoison]

theorem cutLines_ne (pl : List Nat → List (Nat × Nat)) : ∀ l cur lines, (cur ≠ [] ∨ l ≠ []) → (∀ a ∈ l, a ≠ []) →
    cutLines pl l cur lines ≠ [] := by
  intro l
  induction l with
  | nil => intro cur lines h _; simp at h; simp [cutLines, h]
  | cons a l ih =>
    intro cur lines _ ha
    have na := ha a (List.mem_cons_self ..)
    have nl := fun b hb => ha b (List.mem_cons_of_mem a hb)
    simp only [cutLines]
    split
    · exact ih _ _ (Or.inl (by simp [na])) nl
    · simp

theorem wit_MoveStores_entries :
    let d := tiled 0x10000 0x9000
    let x := kept (.stage (.move spread d true)) [(0, false), (5, false)] [0, 1]
    d.tiles ≤ (x.at 0).words.length ∧
    ∃ no first, Left [(0, true)] x (movePlan 0 spread d true [])
      (tileEntries (holding [(0, true)] x).work x (.dma 0) 0 accIn d (x.at 0).words no first [0] 1) := by
  refine ⟨by decide, ?_⟩
  let x := kept (.stage (.move spread (tiled 0x10000 0x9000) true)) [(0, false), (5, false)] [0, 1]
  let c : MoveCtx := ⟨x, 0, spread, tiled 0x10000 0x9000, true, (x.at 0).words⟩
  let w := (holding [(0, true)] x).work
  generalize hg : cutLines (spread.loadPlaces (c.see w.mem.view)) (((tiled 0x10000 0x9000).tileElems 0).map fun i => [i]) [] [] = gs
  have ne : gs ≠ [] := by
    rw [← hg]
    refine cutLines_ne _ _ _ _ (Or.inr ?_) (fun a ha => ?_)
    · simp [Desc.tileElems]
    · obtain ⟨i, _, rfl⟩ := List.mem_map.mp ha
      simp
  have len : gs.length ≠ 0 := fun h => ne (List.length_eq_zero_iff.mp h)
  have hpl : (movePlan 0 spread (tiled 0x10000 0x9000) true [] w x).parts = c.tileParts w 0 1 gs := by
    have : (movePlan 0 spread (tiled 0x10000 0x9000) true [] w x).parts = c.tiled w 1 1 := rfl
    rw [this, MoveCtx.tiled]
    have h0 : c.d.tiles - (0 + 1) = 0 := by decide
    simp only [h0]
    rw [show cutLines (c.s.loadPlaces (c.see w.mem.view)) ((c.d.tileElems 0).map fun i => [i]) [] [] = gs from hg]
    exact List.append_nil _
  exact ⟨1 + gs.length, (if c.s.tileMap == 0 then 0 else c.s.tiles) + c.d.tiles + 0, left_entries hpl rfl (by show 1 + gs.length ≠ 0; omega) (by show 1 + gs.length ≠ 1; omega)
    rfl rfl rfl rfl rfl rfl (by decide)⟩

/-! #### Vector and Spring -/

/-- A vector command on an element of slot 0, and a mask of four key words there. -/
def vecBody : VecBody := ⟨some (one pondBase), none, none, one 0x1000, 0, 1, 0⟩
def springBody (key : Nat) : SpringBody := ⟨one 0x1000, none, { one key with ext := [4] }, 0, 0x10000, 0, 0, true⟩
/-- The one group of elements of OUT. -/
def oneGroup : Nat × List (List Nat) := (one 0x1000).slotGroups.headD (0, [])

theorem wit_VectorAndSpringStore_vector :
    let x := heatOf (.stage (.vector vecBody)) .running
    Left [(0, true)] x (vectorPlan 0 vecBody) (vecBody.part x 0 mem0 0 oneGroup) :=
  left_of (List.mem_singleton.mpr rfl) (by decide +kernel)

theorem wit_VectorAndSpringStore_spring :
    let b := springBody pondBase
    let x := heatOf (.stage (.spring b)) .running
    Left [(0, true)] x (springPlan 0 b) (b.part x 0 mem0 0 oneGroup) ∧
    (b.keyCodes (heatView mem0 x.staged 0 1)).any Prod.snd = false :=
  ⟨left_of (List.mem_singleton.mpr rfl) (by decide +kernel), by decide +kernel⟩

theorem wit_VectorAndSpringStore_poison :
    let b := springBody 0x2000
    let x := withLine (heatOf (.stage (.spring b)) .running) 1 64 0 true
    Left [] x (springPlan 0 b) (b.part x 0 mem0 0 oneGroup) ∧
    (b.keyCodes (heatView mem0 x.staged 0 1)).any Prod.snd = true :=
  ⟨left_of (List.mem_singleton.mpr rfl) (by decide +kernel), by decide +kernel⟩

/-! #### Gather and scatter -/

/-- A table of one row of one element in slot 1, and an index tensor of one index. -/
def table : Desc := ⟨pondBase + 2048, .fp32, 0, 0, 1, [1, 1], [4, 4], none, 0⟩
def index (a : Nat) : Desc := { one a with fmt := .int32 }
/-- A destination of one row in HBM. -/
def rowDst (w tm : Nat) : Desc := { table with base := 0x1000, wmode := w, tileMap := tm }

theorem wit_GatherStores_fault :
    let ix := index 0x2000
    let d := rowDst 0 0
    let x := withLine (heatOf (.stage (.gather table ix d true)) .running) 0 64 1 false
    (x.at 0).begun = false ∧ badIndex table (ix.indices (heatView mem0 x.staged 0 0)) = some (0, 1) ∧
    Left [(1, true)] x (gatherPlan 0 table ix d true) (indexPart x 0 table ix true false table d) :=
  ⟨rfl, by decide +kernel, left_of (List.mem_singleton.mpr rfl) (by decide +kernel)⟩

theorem wit_GatherStores (w : Nat) (h : w = 0 ∨ w = 2) :
    let ix := index pondBase
    let d := rowDst w 0
    let x := kept (.stage (.gather table ix d true)) [(0, false)] [0]
    (x.at 0).begun = true ∧ ix.size ≤ (x.at 0).words.length ∧
    Left [(0, true), (1, true)] x (gatherPlan 0 table ix d true)
      ((⟨x, 0, table, 1, [(0, false)]⟩ : RowCtx).gatherPart (holding [(0, true), (1, true)] x).work d 1 0 1) := by
  rcases h with rfl | rfl
  · exact ⟨rfl, by decide, left_of (List.mem_singleton.mpr rfl) (by decide +kernel)⟩
  · exact ⟨rfl, by decide, left_of (List.mem_singleton.mpr rfl) (by decide +kernel)⟩

theorem wit_GatherStores_entries :
    let ix := index pondBase
    let d := rowDst 0 0x9000
    let x := kept (.stage (.gather table ix d true)) [(0, false), (5, false)] [0, 1]
    ix.size + d.tiles ≤ (x.at 0).words.length ∧
    Left [(0, true), (1, true)] x (gatherPlan 0 table ix d true)
      ((⟨x, 0, table, 1, (x.at 0).words⟩ : RowCtx).entriesPart (holding [(0, true), (1, true)] x).work d 2 1
        (gatherTiles table d 2 0) 1) :=
  ⟨by decide, left_of (List.mem_cons_of_mem _ (List.mem_singleton.mpr rfl)) (by decide +kernel)⟩

/-- A scatter of one element of slot 0 to a table, its index read. -/
def scatterHeat (tb sr : Desc) : Heat := kept (.stage (.scatter tb (index (pondBase + 2048)) sr true true)) [(0, false)] [0]
def scatterCtx (tb sr : Desc) : RowCtx := ⟨scatterHeat tb sr, 0, tb, 1, [(0, false)]⟩
def scatterPl (tb sr : Desc) : Wk → Heat → Plan := scatterPlan 0 tb (index (pondBase + 2048)) sr true true
def rowSrc : Desc := { table with base := pondBase }
/-- A source row's part is the one left. -/
def scatterLeft (tb sr : Desc) : Prop :=
  Left [(0, true)] (scatterHeat tb sr) (scatterPl tb sr)
    ((scatterCtx tb sr).scatterPart (holding [(0, true)] (scatterHeat tb sr)).work sr true 0)

/-- A table in HBM, one that adds there, and one that adds in a pond. -/
theorem wit_ScatterStores (tb : Desc)
    (h : tb = rowDst 0 0 ∨ tb = rowDst 2 0 ∨ tb = { rowDst 2 0 with base := pondBase + 0x4000 }) :
    (scatterCtx tb rowSrc).mixes rowSrc = false ∧ (scatterCtx tb rowSrc).scatterCopies rowSrc = false ∧
    (tb.inPond = true → firstPoison mem0.view
      (pondPlaces (((scatterCtx tb rowSrc).targets rowSrc 0).map tb.writePlaces).flatten) = none) ∧
    scatterLeft tb rowSrc := by
  rcases h with rfl | rfl | rfl
  · exact ⟨by decide, by decide, by decide +kernel, left_of (List.mem_singleton.mpr rfl) (by decide +kernel)⟩
  · exact ⟨by decide, by decide, by decide +kernel, left_of (List.mem_singleton.mpr rfl) (by decide +kernel)⟩
  · exact ⟨by decide, by decide, by decide +kernel, left_of (List.mem_singleton.mpr rfl) (by decide +kernel)⟩

/-- A pond table of two rows, of which one index names the first: the second row's slot is left to become FULL. -/
def twoRows : Desc := ⟨pondBase + 0x4000, .fp32, 0, 0, 1, [1, 2], [4, 2048], none, 0⟩
theorem wit_ScatterStores_last :
    let x : Heat := { scatterHeat twoRows rowSrc with
      prog := [(0, { Prog.zero with words := [(0, false)], begun := true, asked := [0, 1], ran := [0, 1] })] }
    let c : RowCtx := ⟨x, 0, twoRows, 1, [(0, false)]⟩
    ∃ p ∈ c.lastPart rowSrc 2, Left [(0, true)] x (scatterPl twoRows rowSrc) p := by
  intro x c
  have e : (c.unwritten rowSrc).isEmpty = false := by decide +kernel
  have hl : ∃ p, c.lastPart rowSrc 2 = [p] := ⟨_, by unfold RowCtx.lastPart; rw [e]; rfl⟩
  have hs : ((c.lastPart rowSrc 2).all fun p => soleOk (holding [(0, true)] x) x 0
    (scatterPl twoRows rowSrc (holding [(0, true)] x).work x) p) = true := by decide +kernel
  obtain ⟨p, hp⟩ := hl
  have hm : p ∈ c.lastPart rowSrc 2 := by rw [hp]; exact List.mem_singleton.mpr rfl
  exact ⟨p, hm, left_of (List.mem_cons_of_mem _ hm) (List.all_eq_true.mp hs p hm)⟩

/-- MX blocks of one row are copied with their scales; blocks that take elements of several rows are formed anew. -/
def mxRow (a g : Nat) : Desc := ⟨a, .mxE4m3, 0, 0, g, [1, 1], [1, 1], some ⟨a + 1024, 0, 0, 0⟩, 0⟩
theorem wit_ScatterStores_copies :
    (scatterCtx (mxRow 0x1000 1) (mxRow pondBase 1)).mixes (mxRow pondBase 1) = false ∧
    (scatterCtx (mxRow 0x1000 1) (mxRow pondBase 1)).scatterCopies (mxRow pondBase 1) = true ∧
    scatterLeft (mxRow 0x1000 1) (mxRow pondBase 1) :=
  ⟨by decide, by decide, left_of (List.mem_singleton.mpr rfl) (by decide +kernel)⟩
theorem wit_ScatterStores_mixes :
    let tb := mxRow (pondBase + 0x4000) 0
    let sr := mxRow pondBase 0
    (scatterCtx tb sr).mixes sr = true ∧
    Left [(0, true)] (scatterHeat tb sr) (scatterPl tb sr)
      ((scatterCtx tb sr).mixPart (holding [(0, true)] (scatterHeat tb sr)).work sr true) :=
  ⟨by decide, left_of (List.mem_singleton.mpr rfl) (by decide +kernel)⟩

/-! #### Matrix, chained, row-reduce and send -/

/-- The first unit of a dense or sparse matrix command may be computed. -/
theorem wit_MatrixAndChainedRun_unit (sp : Bool) :
    let m := matBody sp
    let x := heatOf (.stage (.matrix m)) .running
    let s := holding [(0, true), (32, true)] x
    let c : MatCtx := ⟨x, 0, m⟩
    let pl := matrixPlan 0 m s.work x
    let w := s.work.up fun d => d.ask x 0 pl
    ∃ y key, w.dev.heat hid = some y ∧ w.dev.pick y 0 pl = some (c.unitPart s.work 0) ∧
      firstPoison (w.view hid 0 0) (pondPlaces ((c.unitPart s.work 0).reads.map Rd.pl).flatten) = none ∧
      c.bufFor s.dev 0 = some key ∧ m.mapped = [] := by
  cases sp
  · exact ⟨_, 0, rfl, rfl, by decide +kernel, by decide +kernel, rfl⟩
  · exact ⟨_, 2, rfl, rfl, by decide +kernel, by decide +kernel, rfl⟩

/-- A chain of one vector stage: nothing is left after its one part. -/
theorem wit_MatrixAndChainedRun_chained :
    let x := heatOf (.chained [.vector vecBody]) .running
    let s := holding [(0, true)] x
    let mk := (Stage.vector vecBody).plan 0 []
    let pl := mk s.work x
    let w := s.work.up fun d => d.ask x 0 pl
    let p := vecBody.part x 0 mem0 0 oneGroup
    let q := (p.run (w.view hid 0) (w.begins hid 0 p)).1
    let e := (q.upHeat hid fun z => z.ranPart 0 p).up fun d => d.fillFor hid (p.slots.filter fun g => !pl.temps.contains g)
    [Stage.vector vecBody][0]? = some (.vector vecBody) ∧ pl.whole = true ∧ (∃ y, SolePart s hid x y w 0 pl p) ∧
    (p.run (w.view hid 0) (w.begins hid 0 p)).2 = true ∧
    (match w.dev.heat hid, e.dev.heat hid with
      | some y, some z => z.mayRun && decide (z.body = x.body) && decide (z.leave = [])
        && decide (z.prog = (y.ranPart 0 p).prog) && (mk e z).whole && ((mk e z).undone z 0).isEmpty
        && (mk e z).parts.all fun r => (z.at 0).asked.contains r.no
      | _, _ => false) = true :=
  ⟨rfl, rfl, left_of (mk := vectorPlan 0 vecBody) (List.mem_singleton.mpr rfl) (by decide +kernel), by decide +kernel, by decide +kernel⟩

/-- A row-reduce of one element of slot 0, its first pass done. -/
def rowBody : RowBody := ⟨one pondBase, none, none, none, none, some (one 0x1000), none, none, none, 0, 1, 0⟩

theorem wit_RowReduceStores :
    let x := kept (.stage (.rowReduce rowBody)) [(0, false), (0, false)] [0]
    let s := holding [(0, true)] x
    let c : RowCmd := ⟨x, 0, rowBody, (x.at 0).words, (x.at 0).ran⟩
    let p := c.pass2 s.work 0 [0]
    let w := s.work.up fun d => d.ask x 0 (rowReducePlan 0 rowBody s.work x)
    Left [(0, true)] x (rowReducePlan 0 rowBody) p ∧ (p.run (w.view hid 0) (w.begins hid 0 p)).2 = true :=
  ⟨left_of (List.mem_cons_of_mem _ (List.mem_singleton.mpr rfl)) (by decide +kernel), by decide +kernel⟩

/-- A send of one element of a tensor by a route of a traffic. -/
def sendBody (a t : Nat) : SendBody :=
  ⟨one a, true, ⟨t, 0, false, false, false, 0, false, 0, [], [], 0, 1, 1, 0, 0, 0, 0, 0, 0⟩, 0⟩
/-- A send from slot 0, and one of a poisoned line of HBM. -/
def sendHeat (t : Nat) : Heat := heatOf (.stage (.relaySend (sendBody pondBase t))) .running
def badSend (t : Nat) : Heat := withLine (heatOf (.stage (.relaySend (sendBody 0x2000 t))) .running) 1 64 0 true

theorem wit_RelaySendSends_segment :
    let b := sendBody pondBase 0
    let x := sendHeat 0
    Left [(0, true)] x (sendPlan b) (segmentPart b (holding [(0, true)] x).work x 0) ∧
    (b.src.f32 (heatView mem0 x.staged 0 1) [0]).2 = false :=
  ⟨left_of (List.mem_singleton.mpr rfl) (by decide +kernel), by decide +kernel⟩

theorem wit_RelaySendSends_raw :
    let b := sendBody pondBase 1
    let x := sendHeat 1
    Left [(0, true)] x (sendPlan b) (rawPart b (holding [(0, true)] x).work x) ∧
    (b.src.rawBytes (heatView mem0 x.staged 0 1) 1).2 = false :=
  ⟨left_of (List.mem_singleton.mpr rfl) (by decide +kernel), by decide +kernel⟩

theorem wit_RelaySendSends_poison :
    Left [] (badSend 0) (sendPlan (sendBody 0x2000 0)) (segmentPart (sendBody 0x2000 0) (holding [] (badSend 0)).work (badSend 0) 0) ∧
    ((sendBody 0x2000 0).src.f32 (heatView mem0 (badSend 0).staged 0 1) [0]).2 = true ∧
    Left [] (badSend 1) (sendPlan (sendBody 0x2000 1)) (rawPart (sendBody 0x2000 1) (holding [] (badSend 1)).work (badSend 1)) ∧
    ((sendBody 0x2000 1).src.rawBytes (heatView mem0 (badSend 1).staged 0 1) 1).2 = true :=
  ⟨left_of (List.mem_singleton.mpr rfl) (by decide +kernel), by decide +kernel,
    left_of (List.mem_singleton.mpr rfl) (by decide +kernel), by decide +kernel⟩

/-! #### Updates -/

/-- An update of one segment, with OUT in HBM. -/
def upd (uop : Nat) (o : Desc) : UpdBody :=
  ⟨0, false, false, uop, some o, 1, 0, 1, 0x100000, 0x200000, 0x300000, 0x400000, 0x10000, none, 0, 0⟩

/-- A line of zeros staged for each line of a fetch group. -/
def staged (grp : Nat) (lines : List Nat) : AMap Line := lines.map fun l => (stageKey 0 grp l, ⟨List.replicate 128 0, []⟩)

theorem wit_UpdatesStore_propose :
    let u := upd 1 (one 0x1000)
    let x : Heat := { heatOf (.update u) .running with staged := staged 1 (hbmLines [(u.record 0 + 0x10100, 12)]) }
    Left [] x (proposePlan u (one 0x1000)) (proposePart x u (one 0x1000) 0) :=
  left_of (List.mem_singleton.mpr rfl) (by decide +kernel)

theorem wit_UpdatesStore_clear :
    let u := upd 2 .zero
    let x := heatOf (.update u) .running
    Left [] x (clearPlan u) (clearPart x u 0) :=
  left_of (List.mem_singleton.mpr rfl) (by decide +kernel)

theorem wit_UpdatesStore_proposeEntries :
    let o := { one 0x1000 with tileMap := 0x9000 }
    let u := upd 1 o
    let x := kept (.update u) [(0, false)] [0, 1]
    Left [] x (proposePlan u o) (tileEntries (holding [] x).work x (.dma 0) 0 accIn o (x.at 0).words 2 0 [] 1) :=
  left_of (List.mem_cons_of_mem _ (List.mem_singleton.mpr rfl)) (by decide +kernel)

theorem wit_UpdatesStore_applyEntries :
    let o := { one 0x1000 with tileMap := 0x9000 }
    let u := upd 0 o
    let x := kept (.update u) [(0, false)] [0, 1]
    (x.at 0).begun = true ∧
    Left [] x (applyPlan u o) (tileEntries (holding [] x).work x (.dma 0) 0 accVector o (x.at 0).words 2 10 [] 1) :=
  ⟨rfl, left_entries (b := .update (upd 0 { one 0x1000 with tileMap := 0x9000 })) rfl rfl (by decide) (by decide) rfl rfl rfl rfl
    rfl rfl (by decide)⟩

/-! #### Contexts -/

/-- A context command of an operation on context 0, its list in slot 0. -/
def ctxBody (cop : Nat) (t0 : Desc) : CtxBody := ⟨cop, some (index pondBase), some t0, some (one 0x2000), 0, 0, 0, false, false⟩

/-- A record of a state in stream group 0, at position 0 of 2. -/
def ctxRec (n : Nat) : List Byte := withCheck [BitVec.ofNat 8 n, 0, 0, 1, 0, 0, 0, 0, 2]

/-- A block whose context 0 is that record, whose clusters are group 0, and whose one heat runs. -/
def ctxState0 (n : Nat) (b : Body) : State :=
  st { ready with
    ctx := [(0, ctxRec n)]
    img := { Img.reset with live := { Conf.reset with partition := [0x70], turns := turnBytes } }
    mar := { Marshal.reset with heats := [heatOf b .running], full := [(0, true)] } }

theorem wit_SingleContextOperations :
    let x := heatOf (.context (ctxBody 1 (one 0x1000))) .running
    let s := fun n => ctxState0 n (.context (ctxBody 1 (one 0x1000)))
    let r := fun n => (s n).dev.ctxAt 0
    (x.at 0).begun = false ∧
    ([1, 2, 3].all fun n => checkOk (r n) && (s n).dev.ctxFirst x && ctxState (r n) == n
      && ctxGroupOf (r n) == (s n).dev.groupOf x && ctxPos (r n) != ctxMax (r n)) = true := by decide +kernel

/-- The fields of a record as a heat holds it: position p of 2. -/
def rowRec (p : Byte) : List Byte := [2, 0, 0, 1, p, 0, 0, 0, 2]

/-- The heat of a context command whose records are read: context 0 acts in row 0. -/
def rowHeat (b : CtxBody) (ran : List Nat) : Heat :=
  { heatOf (.context b) .running with
    prog := [(0, { Prog.zero with words := [(0, false), (0, false)], begun := true, asked := ran, ran := ran, rows := [some (0, rowRec 0)] })] }
def rowRun (b : CtxBody) (t : Desc) (ran : List Nat) : CtxRun := ⟨rowHeat b ran, b, t, [some (0, rowRec 0)]⟩

/-- The image of a context in HBM: BF16 rows of 64 bytes at address 0, one position. -/
def imageBytes : List Byte :=
  [0, 0, 0, 1, 0, 0, 0, 0, 1] ++ List.replicate 15 0 ++ [64] ++ List.replicate 103 0

theorem wit_ContextOpen (good : Bool) :
    let b := ctxBody 0 (one 0x1000)
    let x : Heat := { rowHeat b [] with
      staged := [(stageKey 0 1 32, ⟨if good then imageBytes else List.replicate 128 0, []⟩)] }
    let c : CtxRun := ⟨x, b, one 0x1000, [some (0, rowRec 0)]⟩
    let img := (List.range 128).map fun i => heatView mem0 x.staged 0 1 (0x1000 + i)
    Left [] x (contextPlan b) c.openPart ∧ img.any Prod.snd = false ∧ imageOk (img.map Prod.fst) = good := by
  cases good
  · exact ⟨left_of (List.mem_singleton.mpr rfl) (by decide +kernel), by decide +kernel, by decide +kernel⟩
  · exact ⟨left_of (List.mem_singleton.mpr rfl) (by decide +kernel), by decide +kernel, by decide +kernel⟩

theorem wit_ContextRetire :
    let b := ctxBody 4 (one 0x1000)
    let c := rowRun b (one 0x1000) []
    let s := holding [] (rowHeat b [])
    let pl := contextPlan b s.work (rowHeat b [])
    let w := s.work.up fun d => d.ask (rowHeat b []) 0 pl
    ∃ y p1 p2, c.retireParts s.work = [p1, p2] ∧ c.t.span.1 < pondBase ∧ c.acting ≠ [] ∧ w.dev.heat hid = some y ∧
      pl.undone y 0 = [p1, p2] ∧ w.dev.partUp y 0 p1 = true :=
  ⟨_, _, _, rfl, by decide, by decide +kernel, rfl, rfl, by decide +kernel⟩

theorem wit_ContextRetire_last :
    let b := ctxBody 4 (one 0x1000)
    let c := rowRun b (one 0x1000) [1]
    ∃ p1 p2, c.retireParts (holding [] (rowHeat b [1])).work = [p1, p2] ∧ Left [] (rowHeat b [1]) (contextPlan b) p2 := by
  refine ⟨_, _, rfl, left_of (List.mem_cons_of_mem _ (List.mem_singleton.mpr rfl)) ?_⟩
  decide +kernel

/-- A batch of one context, and one that adds; the row at its XROW is staged. -/
theorem wit_BatchStores (w : Nat) (h : w = 0 ∨ w = 2) :
    let t := rowDst w 0
    let b : CtxBody := { ctxBody 5 t with list := some (index 0x3000) }
    let x := { rowHeat b [] with staged := staged 1 (hbmLines ((rowRun b t []).xrows.map Rd.pl).flatten) }
    let c : CtxRun := ⟨x, b, t, [some (0, rowRec 0)]⟩
    ∃ p, c.batchParts (holding [] x).work = [p] ∧ Left [] x (contextPlan b) p := by
  rcases h with rfl | rfl
  · refine ⟨_, rfl, left_of (List.mem_singleton.mpr rfl) ?_⟩
    decide +kernel
  · refine ⟨_, rfl, left_of (List.mem_singleton.mpr rfl) ?_⟩
    decide +kernel

theorem wit_BatchStores_entries :
    let t := rowDst 0 0x9000
    let b : CtxBody := { ctxBody 5 t with list := some (index 0x3000) }
    let x := rowHeat b [0, 1]
    (contextPlan b (holding [] x).work x).whole = true ∧
    ∃ p e, (rowRun b t [0, 1]).batchParts (holding [] x).work = p :: [e] ∧ Left [] x (contextPlan b) e := by
  refine ⟨by decide +kernel, _, _, rfl, left_of (List.mem_cons_of_mem _ (List.mem_singleton.mpr rfl)) ?_⟩
  decide +kernel

/-- A RELEASE whose list may be read, and one acting row of every other list operation. -/
theorem wit_ListContextOperations_release :
    let b := ctxBody 6 .zero
    let x := heatOf (.context b) .running
    let s := ctxState0 2 (.context b)
    (x.at 0).begun = false ∧ s.dev.ctxFirst x = true ∧ ((index pondBase).slots.all s.dev.readable) = true ∧
    s.dev.turns accOut (index pondBase).places = true ∧ firstPoison s.mem.view (index pondBase).places = none := by decide +kernel

theorem wit_ListContextOperations_advance :
    let b := ctxBody 7 (one pondBase)
    let c := rowRun b (one pondBase) []
    Left [(0, true)] c.h (contextPlan b) c.advancePart ∧
    (c.acting.any fun z => (c.t.code (heatView mem0 c.h.staged 0 1) (unravel c.t.ext z.1)).2) = false :=
  ⟨left_of (List.mem_singleton.mpr rfl) (by decide +kernel), by decide +kernel⟩

/-- A KV_APPEND at a position that it writes, and one at the last. -/
def kvRow : Desc := { rowSrc with fmt := .bf16, stride := [2, 2] }
def kvRun (p : Byte) : CtxRun :=
  let b := ctxBody 8 kvRow
  ⟨{ rowHeat b [] with prog := [(0, { Prog.zero with begun := true, rows := [some (0, rowRec p)] })] }, b, kvRow, [some (0, rowRec p)]⟩
theorem wit_ListContextOperations_append :
    Left [(0, true)] (kvRun 0).h (contextPlan (kvRun 0).x) ((kvRun 0).appendPart mem0 (0, 0, rowRec 0)) ∧
    ctxPos (rowRec 0) ≠ ctxMax (rowRec 0) ∧ ((kvRun 0).cacheRow (rowRec 0) 0).isSome = true ∧
    Left [(0, true)] (kvRun 2).h (contextPlan (kvRun 2).x) ((kvRun 2).appendPart mem0 (0, 0, rowRec 2)) ∧
    ctxPos (rowRec 2) = ctxMax (rowRec 2) := by
  have m : ∀ p, (kvRun p).appendPart mem0 (0, 0, rowRec p) ∈
      (contextPlan (kvRun p).x (holding [(0, true)] (kvRun p).h).work (kvRun p).h).parts := fun p => List.mem_cons_self ..
  exact ⟨left_of (m 0) (by decide +kernel), by decide +kernel, by decide +kernel, left_of (m 2) (by decide +kernel), by decide +kernel⟩

/-- A KV_READ of one row, one that adds, and the entries of a compressed one. -/
def readDst (w tm : Nat) : Desc := ⟨0x1000, .fp32, w, 0, 2, [1, 1, 1], [4, 4, 4], none, tm⟩
theorem wit_ListContextOperations_read (w : Nat) (h : w = 0 ∨ w = 2) :
    let b := ctxBody 9 (readDst w 0)
    Left [] (rowHeat b []) (contextPlan b) ((rowRun b (readDst w 0) []).readPart 0 [0]) := by
  rcases h with rfl | rfl
  · exact left_of (List.mem_singleton.mpr rfl) (by decide +kernel)
  · exact left_of (List.mem_singleton.mpr rfl) (by decide +kernel)
theorem wit_ListContextOperations_readEntries :
    let t := readDst 0 0x9000
    let b := ctxBody 9 t
    let x := rowHeat b [0, 1]
    (contextPlan b (holding [] x).work x).whole = true ∧
    Left [] x (contextPlan b) (tileEntries (holding [] x).work x (.gather 0) 0 accGather t (x.at 0).words 2 t.tiles
      (List.range t.tiles) 1) :=
  ⟨by decide +kernel, left_of (List.mem_cons_of_mem _ (List.mem_singleton.mpr rfl)) (by decide +kernel)⟩

theorem wit_ListContextOperations_sample :
    let t := one 0x1000
    let b := ctxBody 0xA t
    Left [] (rowHeat b []) (contextPlan b)
      (slotPart (rowHeat b []) 0 t (fun _ _ => []) (fun _ => .ok (rowRun b t []).sampleElem) 0 oneGroup) :=
  left_of (List.mem_singleton.mpr rfl) (by decide +kernel)

/-! #### An APPLY of one segment -/

/-- A view without poison reads no poison. -/
theorem num_clean (v : View) (h : ∀ a, (v a).2 = false) : ∀ n a, (v.num a n).2 = false
  | 0, _ => rfl
  | n + 1, a => by simp [View.num, h a, num_clean v h n (a + 1)]

theorem element_clean (u : UpdBody) (v : View) (h : ∀ a, (v a).2 = false) (i j : Nat) : (u.element v i j).2 = false := by
  have e := num_clean v h
  unfold UpdBody.element
  split
  · simp [View.w32, e]
  · simp only [View.w32, e, UpdBody.sumAt]
    split <;> simp

/-- Staged lines without poison, over memory without poison, are a clean view. -/
theorem staged_clean (lines : List Nat) (a : Nat) : (heatView mem0 (staged 1 lines) 0 1 a).2 = false := by
  unfold heatView
  split
  · split
    · rename_i x hf
      obtain ⟨l, _, rfl⟩ := List.mem_map.mp (List.mem_of_find?_eq_some hf)
      rfl
    · simp only [Mem.view]; split <;> rfl
  · simp only [Mem.view]; split <;> rfl

/-- The weights: one FP32 segment in HBM, written or added. -/
def weightsOut (w : Nat) : Desc := { one 0x500000 with ext := [16384], stride := [1], wmode := w }
theorem weightsOut_place (w : Nat) (idx : List Nat) (j : Nat) (h : idx = unravel [16384] j) :
    (weightsOut w).writePlaces idx = [((0x500000 + 4 * (j % 16384) : Nat), 4)] := by
  subst h
  simp only [Desc.writePlaces, Desc.scalePlace, weightsOut, one, Desc.place, Desc.offset, dot, unravel, Fmt.subByte, Fmt.bits]
  simp
  omega
theorem weightsOut_below (w : Nat) (is : List Nat) (p : Nat × Nat)
    (h : p ∈ ((is.map fun i => (weightsOut w).elemsFrom (16384 * i) 16384).flatten.map (weightsOut w).writePlaces).flatten) :
    p.1 < pondBase := by
  simp only [List.mem_flatten, List.mem_map] at h
  obtain ⟨l, ⟨idx, ⟨m, ⟨i, _, rfl⟩, hm⟩, rfl⟩, hp⟩ := h
  obtain ⟨j, _, rfl⟩ := List.mem_map.mp hm
  rw [show (weightsOut w).ext = [16384] from rfl, weightsOut_place w _ (16384 * i + j) rfl, List.mem_singleton] at hp
  subst hp
  have := Nat.mod_lt (16384 * i + j) (show 0 < 16384 by omega)
  simp only [pondBase]
  omega

/-- An APPLY of version 1, its hyperparameters read and the lines of segment 0 staged. -/
def applyUpd (w : Nat) : UpdBody := upd 0 (weightsOut w)
def applyHeat (w : Nat) (lines : List Nat) : Heat := { kept (.update (applyUpd w)) (List.replicate 10 (0, false)) [0, 1] with
  prog := [(0, { Prog.zero with words := List.replicate 10 (0, false), begun := true, asked := [0, 1], ran := [0] })]
  staged := staged 1 lines }
def applyCtx (w : Nat) (lines : List Nat) : ApplyCtx := ⟨applyHeat w lines, applyUpd w, weightsOut w, List.replicate 10 (0, false)⟩

theorem pond_none (l : List (Nat × Nat)) (h : ∀ p ∈ l, p.1 < pondBase) : pondSlots l = [] ∧ pondPlaces l = [] := by
  have e : ∀ f : Nat × Nat → Bool, (∀ p ∈ l, f p = false) → l.filter f = [] := fun f hf =>
    List.filter_eq_nil_iff.mpr fun p hp => by simp [hf p hp]
  constructor
  · unfold pondSlots
    rw [e _ fun p hp => by simp [inPond, Nat.not_le.mpr (h p hp)]]
    rfl
  · exact e _ fun p hp => by simp [h p hp]

theorem part_writes (c : ApplyCtx) (k : Nat) (is : List Nat) (h : c.o.tileMap = 0) :
    (c.part k is).writes = ((is.map fun i => c.o.elemsFrom (16384 * i) 16384).flatten.map c.o.writePlaces).flatten ∧
    (c.part k is).slots = pondSlots (c.part k is).writes ++ c.slots is := by
  unfold ApplyCtx.part
  generalize 16384 = n
  simp [h]

theorem apply_slots (w : Nat) (lines : List Nat) :
    ((applyCtx w lines).part 0 [0]).slots = [] ∧ pondPlaces ((applyCtx w lines).part 0 [0]).writes = [] := by
  obtain ⟨e1, e2⟩ := part_writes (applyCtx w lines) 0 [0] rfl
  obtain ⟨p1, p2⟩ := pond_none _ (weightsOut_below w [0])
  refine ⟨?_, ?_⟩
  · rw [e2, e1, show (applyCtx w lines).o = weightsOut w from rfl, p1]
    rfl
  · rw [e1]
    exact p2

theorem apply_reads (w : Nat) (lines : List Nat) :
    ((applyCtx w lines).part 0 [0]).reads = [⟨1, (applyUpd 0).reads 0, accIn, false⟩] := rfl

/-- The one part that is left. -/
theorem apply_left (w : Nat) (h : w = 0 ∨ w = 2) (lines : List Nat) (hl : hbmLines ((applyUpd 0).reads 0) = lines) :
    SolePart (holding [] (applyHeat w lines)) hid (applyHeat w lines) (applyHeat w lines) (holding [] (applyHeat w lines)).work 0
      (applyPlan (applyUpd w) (weightsOut w) (holding [] (applyHeat w lines)).work (applyHeat w lines)) ((applyCtx w lines).part 0 [0]) := by
  obtain ⟨hs, hw⟩ := apply_slots w lines
  have hr := apply_reads w lines
  have r1 : pondPlaces ((applyUpd 0).reads 0) = [] := by decide
  have r2 : pondSlots ((applyUpd 0).reads 0) = [] := by decide
  have hlines : ((applyCtx w lines).part 0 [0]).lines = lines.map fun l => (1, l) := by
    rw [← hl]
    exact List.append_nil _
  constructor
  · exact ⟨rfl, rfl⟩
  · rfl
  · intro k hk; exact absurd hk (Nat.not_lt_zero k)
  · rfl
  · rcases h with rfl | rfl <;> rfl
  · rfl
  · rcases h with rfl | rfl <;> rfl
  · unfold Dev.partUp
    simp only [Bool.and_eq_true]
    refine ⟨⟨⟨⟨rfl, ?_⟩, rfl⟩, ?_⟩, ?_⟩
    · rfl
    · unfold Heat.hasLines
      rw [hlines, List.all_map, List.all_eq_true]
      intro l h
      rw [Function.comp, List.any_eq_true]
      exact ⟨_, List.mem_map.mpr ⟨l, h, rfl⟩, by simp⟩
    · unfold Dev.partTurns
      rw [hw, hr, List.all_cons, r1]
      rfl
  · unfold Dev.blocks
    rw [hs, hr]
    simp only [List.map_cons, List.map_nil, r2]
    rfl
  · rw [hr, List.map_cons, List.flatten_cons, List.map_nil, List.flatten_nil, List.append_nil, r1]
    rfl

theorem getD_clean (l : List (Datum × Bool)) (h : ∀ z ∈ l, z.2 = false) (k : Nat) : (l.getD k (.code 0, false)).2 = false := by
  rw [List.getD_eq_getElem?_getD]
  cases hg : l[k]? with
  | none => rfl
  | some y => exact h y (List.mem_of_getElem? hg)

theorem see_clean (c : ApplyCtx) (v : View) (ht : c.o.tileMap = 0) (hw : c.ws = List.replicate 10 (0, false))
    (hv : ∀ a, (v a).2 = false) (a : Nat) : (c.see v a).2 = false := by
  unfold ApplyCtx.see Desc.knowing View.known
  rw [if_pos (by simp [ht]), hw]
  split
  · show ((List.replicate 10 ((0 : Nat), false)).getD _ (0, false)).2 = false
    rw [List.getD_eq_getElem?_getD, List.getElem?_replicate]
    split <;> rfl
  · exact hv a

/-- A store of clean values by an uncompressed tensor without scales goes on, written or added. -/
theorem put_clean (b : Wk) (x : Heat) (no : Nat) (ps : List Piece) (es : List (List Nat)) (out : List (Datum × Bool)) (o : Desc)
    (v : View) (f : List Nat → Datum × Bool) (hb : b.dev.heat hid = some x) (hps : ∀ z ∈ ps, z.2.2 = false)
    (hout : ∀ z ∈ out, z.2 = false) (hf : ∀ i, (f i).2 = false) (hs : o.scale = none) (hm : o.fmt = .fp32) :
    (if o.wmode == 2 then b.store hid (.dma 0) 0 no ps (o.accAtoms (es.zip out) ++ o.foldOf out) (out.any Prod.snd)
      else b.store hid (.dma 0) 0 no (ps ++ o.piecesOn v x.ovf es o.stands f) (o.foldOf out) false).2 = true := by
  have hfold : o.foldOf out = [] := by simp [Desc.foldOf, Desc.amaxOp, hs]
  have ha : out.any Prod.snd = false := List.any_eq_false.mpr fun z hz => by simp [hout z hz]
  rw [hfold, ha, List.append_nil]
  split
  · refine (b.store_stays hid x (.dma 0) 0 no ps _ hb (fun z hz _ => hps z hz) fun y hy => ?_).1
    obtain ⟨z, _, rfl⟩ := List.mem_map.mp hy
    simp [hm, AtomOp.plain]
  · refine (b.store_stays hid x (.dma 0) 0 no _ [] hb (fun z hz _ => ?_) (fun y hy => nomatch hy)).1
    rcases List.mem_append.mp hz with hz | hz
    · exact hps z hz
    · unfold Desc.piecesOn at hz
      rw [if_neg (by simp [hm, Fmt.isMx])] at hz
      obtain ⟨i, _, rfl⟩ := List.mem_map.mp hz
      exact hf i

theorem elements_clean (u : UpdBody) (g : Nat → View) (is l : List Nat) (h : ∀ i ∈ is, ∀ a, (g i a).2 = false) :
    ∀ z ∈ ((is.map fun i => (i, l.map (u.element (g i) i))).map Prod.snd).flatten, z.2 = false := by
  intro z hz
  simp only [List.map_map, List.mem_flatten, List.mem_map, Function.comp] at hz
  obtain ⟨_, ⟨i, hi, rfl⟩, hz⟩ := hz
  obtain ⟨j, _, rfl⟩ := List.mem_map.mp hz
  exact element_clean u (g i) (h i hi) i j

theorem planes_clean (c : ApplyCtx) (els : List (Nat × List ((W32 × W32 × W32) × Bool)))
    (h : ∀ z ∈ (els.map Prod.snd).flatten, z.2 = false) :
    ∀ z ∈ (els.map fun z => c.planes z.1 z.2).flatten, (z : Piece).2.2 = false := by
  intro z hz
  simp only [ApplyCtx.planes, List.mem_flatten, List.mem_map] at hz
  obtain ⟨l, ⟨e, he, rfl⟩, hz⟩ := hz
  simp only [List.mem_flatten, List.mem_mapIdx] at hz
  obtain ⟨l, ⟨j, hj, rfl⟩, hz⟩ := hz
  have hm : e.2[j].2 = false := h _ (List.mem_flatten.mpr ⟨e.2, List.mem_map.mpr ⟨e, he, rfl⟩, List.getElem_mem hj⟩)
  simp only [List.mem_cons, List.not_mem_nil, or_false] at hz
  rcases hz with rfl | rfl | rfl <;> exact hm

/-- Its heat stands as it begins. -/
theorem apply_heat (w : Nat) (lines : List Nat) (p : Part) (hs : p.slots = []) (hf : p.frees [] = []) :
    (((holding [] (applyHeat w lines)).work.begins hid 0 p).scratch []).dev.heat hid = some (applyHeat w lines) := by
  unfold Wk.begins
  rw [hs, hf]
  rfl

/-- What such a part stores is not poisoned, whatever the size of a segment. -/
theorem store_clean (n : Nat) (b : Wk) (x : Heat) (c : ApplyCtx) (u : UpdBody) (o : Desc) (no : Nat) (is : List Nat) (v : Nat → View)
    (hb : b.dev.heat hid = some x) (hv : ∀ i ∈ is, ∀ a, (c.see (v (i + 1)) a).2 = false) (hs : o.scale = none) (hm : o.fmt = .fp32) :
    let els := is.map fun i => (i, (List.range n).map (u.element (c.see (v (i + 1))) i))
    let out := (els.map Prod.snd).flatten.map fun z => (Datum.val (fval z.1.1), z.2)
    let es := (is.map fun i => o.elemsFrom (n * i) n).flatten
    let f := fun idx => out.getD (ravel o.ext idx - n * is.headD 0) (.code 0, false)
    let ps := (els.map fun z => c.planes z.1 z.2).flatten
    (if o.wmode == 2 then b.store hid (.dma 0) 0 no ps (o.accAtoms (es.zip out) ++ o.foldOf out) (out.any Prod.snd)
      else b.store hid (.dma 0) 0 no (ps ++ o.piecesOn (c.see (v (is.headD 0 + 1))) x.ovf es o.stands f) (o.foldOf out) false).2
      = true := by
  intro els out es f ps
  have hels : ∀ z ∈ (els.map Prod.snd).flatten, z.2 = false := elements_clean u (fun i => c.see (v (i + 1))) is _ hv
  have hout : ∀ z ∈ out, z.2 = false := by
    intro z hz
    obtain ⟨e, he, rfl⟩ := List.mem_map.mp hz
    exact hels e he
  exact put_clean b x no ps es out o _ f hb (planes_clean c els hels) hout (fun i => getD_clean out hout _) hs hm

theorem apply_clean (w : Nat) (lines : List Nat) : ∀ i ∈ [0], ∀ a,
    ((applyCtx w lines).see ((holding [] (applyHeat w lines)).work.view hid 0 (i + 1)) a).2 = false := by
  intro i hi a
  rw [List.mem_singleton] at hi
  subst hi
  exact see_clean _ _ rfl rfl (staged_clean lines) a

/-- A part that is the last one, and the store that it makes goes on. -/
theorem wit_UpdatesStore_apply (w : Nat) (h : w = 0 ∨ w = 2) :
    let lines := hbmLines ((applyUpd 0).reads 0)
    let x := applyHeat w lines
    let s := holding [] x
    let c := applyCtx w lines
    let u := applyUpd w
    let o := weightsOut w
    let p := c.part 0 [0]
    let v := s.work.view hid 0
    let b := (s.work.begins hid 0 p).scratch (c.slots [0])
    (x.at 0).begun = true ∧ o.tileMap = 0 ∧ c = ⟨x, u, o, (x.at 0).words⟩ ∧
    SolePart s hid x x s.work 0 (applyPlan u o s.work x) p ∧
    let els := [0].map fun i => (i, (List.range 16384).map (u.element (c.see (v (i + 1))) i))
    let out := (els.map Prod.snd).flatten.map fun z => (Datum.val (fval z.1.1), z.2)
    let es := ([0].map fun i => o.elemsFrom (16384 * i) 16384).flatten
    let f := fun idx => out.getD (ravel o.ext idx - 16384 * [0].headD 0) (.code 0, false)
    let ps := (els.map fun z => c.planes z.1 z.2).flatten
    (if o.wmode == 2 then b.store hid (.dma 0) 0 p.no ps (o.accAtoms (es.zip out) ++ o.foldOf out) (out.any Prod.snd)
      else b.store hid (.dma 0) 0 p.no (ps ++ o.piecesOn (c.see (v ([0].headD 0 + 1))) x.ovf es o.stands f) (o.foldOf out) false).2
      = true := by
  intro lines x s c u o p v b
  have hb : b.dev.heat hid = some x := apply_heat w lines p (apply_slots w lines).1
    (by unfold Part.frees; rw [show p.reads = _ from apply_reads w lines]; rfl)
  refine ⟨rfl, rfl, rfl, apply_left w h lines rfl, ?_⟩
  exact store_clean 16384 b x c u o p.no [0] v hb (apply_clean w lines) rfl rfl

/-! ### Hypotheses of the statements about the memory system and the Relay -/

theorem wit_HangsAndLanes :
    NSet.has ({ ready with mar := { Marshal.reset with unreported := [(127, true)] } } : Dev).mar.unreported 127 = true := by
  decide

/-- A cluster that has not reported is acted on once, and one that has is not. -/
theorem wit_HangsAndLanes_acts :
    let d : Dev := { ready with mar := { Marshal.reset with unreported := [(127, true)] } }
    (NSet.has d.mar.unreported 127 = true ∧ NSet.has d.mar.watched 127 = false) ∧
    ¬ (NSet.has Dev.reset.mar.unreported 127 = true ∧ NSet.has Dev.reset.mar.watched 127 = false) := by decide

/-- A request for line 32 by the DMA engine of cluster 0 for the running heat. -/
def req (kind : ReqKind) (issued : Bool) : Req :=
  { Req.forHeat (heatOf .nop .running) (.dma 0) [32] kind 0 0 [] with issued := issued }

/-- A block with that request and all its dies' tokens. -/
def asking (r : Req) (tokens : Nat) : Dev :=
  { withHeats [heatOf .nop .running] with
    hbm := ⟨[r], 1, 0, (List.range 12).map fun k => (k, tokens), [(1, 3)], [(0, 1), (1, 1)], [128], []⟩ }

theorem wit_TokensAreMadeAndSpent :
    let r := req .read false
    (asking r 64).hbm.reqs.find? (fun r => r.id == 0) = some r ∧ (asking r 0).issuable r = false ∧
    (asking r (32 * 512)).issuable r = true ∧ (asking r (32 * 512)).isNext r = true := by decide +kernel

/-- Two requesters in whose rotation the other comes first: the later one is not next. -/
theorem wit_TokensAreMadeAndSpent_notNext :
    let r := req .read false
    let q := { r with id := 1, who := .dma 1 }
    let d := { asking r (32 * 512) with hbm := { (asking r (32 * 512)).hbm with reqs := [r, q], served := [] } }
    (d.isNext r = false ∨ d.isNext q = false) ∧ d.issuable r = true ∧ d.issuable q = true := by decide +kernel

theorem wit_ReadsReturnTheLine :
    let r := req .read true
    let d := asking r 0
    d.hbm.reqs.find? (fun r => r.id == 0) = some r ∧ d.servable r = true ∧ r.kind = .read ∧ r.heat = some hid ∧
    d.heat hid = some (heatOf .nop .running) ∧ (heatOf .nop .running).state = .running ∧
    (heatOf .nop .running).order = r.order ∧ (heatOf .nop .running).order ≠ ({ r with order := 9 } : Req).order ∧
    (asking { r with order := 9 } 0).servable { r with order := 9 } = true := by decide +kernel

theorem wit_WritesLand :
    let r := req (.write 0x1000 [1, 2]) true
    let q := req (.atomic (.addF 0x1000 0x3F800000)) true
    (asking r 0).servable r = true ∧ (asking q 0).servable q = true ∧
    (asking q 0).hbm.reqs.find? (fun r => r.id == 0) = some q ∧
    (∀ x ∈ (AtomOp.addF 0x1000 0x3F800000).guarded ⟨[], [], []⟩, firstPoison (Mem.view ⟨[], [], []⟩) [x] = none) ∧
    (∃ x ∈ (AtomOp.addF 0x1000 0x3F800000).guarded ⟨[], [(128, true)], []⟩,
      firstPoison (Mem.view ⟨[], [(128, true)], []⟩) [x] ≠ none) := by decide +kernel

/-- A corrected word waits, and a token of the period is left for it; a scrub takes an unused token, or an urgent one
takes another. -/
theorem wit_TokensAreMadeAndSpent_unused :
    let d := asking (req .read true) 32
    let e := { d with hbm := { d.hbm with unused := [(0, 1)] } }
    let u := { d with swp := { d.swp with full := true } }
    takeFirst (fun x => (d.live.stored (32 * x)).1 == 0) d.hbm.writebacks = some (128, []) ∧
    d.unusedToken 0 1 = true ∧ (0 + 1) * 128 ≤ hbmBytes ∧ d.dieOf 0 = 0 ∧ d.slotFree (Req.of .scrub [0] .read) = true ∧
    e.unusedToken 0 0 = true ∧ u.unusedToken 0 0 = false ∧ u.scrubUrgent 0 0 = true := by decide +kernel

/-- Three modules: the starter, its standby and one runner, linked to one another; the starter's links are its ports
0 and 1. -/
def rolesOf : List Byte :=
  [3, 0, 1, 0] ++ List.replicate 12 0 ++ leBytes 8 10 ++ [0, 0xFF, 0, 1, 0xFF, 0xFF, 0, 0]
    ++ leBytes 8 11 ++ [1, 0xFF, 0, 2, 0xFF, 0xFF, 0, 0] ++ leBytes 8 12 ++ [2, 0xFF, 0, 3, 0, 0, 0, 0]
def relayOf : List Byte :=
  List.replicate 16 0 ++ [0, 0, 0xFF, 0, 1, 0, 0, 1, 2, 0, 0, 1] ++ List.replicate 56 0
    ++ [0, 0, 0, 0, 0, 0, 0, 1, 2, 0, 1, 1] ++ List.replicate 56 0
    ++ [0, 0, 0, 0, 0, 0, 1, 1, 1, 0, 1, 1] ++ List.replicate 56 0

/-- The module at a position of that domain. -/
def memberAt (p : Nat) (s : DomState) : Dev := { ready with
  moduleId := BitVec.ofNat 64 (10 + p)
  img := { Img.reset with live := { Conf.reset with roles := rolesOf, relay := relayOf } }
  dom := { Domain.reset with state := s, members := [(1, { Member.zero with state := .active })] } }

theorem domain_members :
    (memberAt 0 .active).role = 0 ∧ (memberAt 1 .active).role = 1 ∧ (memberAt 2 .active).role = 2 ∧
    (memberAt 0 .active).parentPort = none ∧ (memberAt 2 .active).parentPort = some 0 ∧
    (memberAt 0 .active).starting = true ∧ (memberAt 2 .active).starting = false ∧ (memberAt 2 .active).inDomain = true := by
  decide

/-- A port in a state, of a module that may train it. -/
def portOf (p : Nat) (s : PortState) (f : Port → Port) : Dev :=
  { memberAt p .linking with rly := { Relay.reset with ports := [(0, f { Port.zero with state := s })] } }

theorem wit_LinksTrain :
    ([PortState.down, .training].all fun x => (portOf 0 x id).mayTrain 0 && ((portOf 0 x id).port 0).state == x) = true ∧
    (portOf 0 .training id).identityOk 0 ⟨11, 0, .mz1, 0⟩ = true ∧ (portOf 0 .training id).identityOk 0 ⟨12, 0, .mz1, 0⟩ = false ∧
    (portOf 0 .training id).remapOk 0 ⟨12, 0, .mz1, 0⟩ = false := by decide

theorem wit_PortsLeaveTheirLink :
    (((portOf 0 .up fun p => { p with lanesUp := 0x80 }).port 0).lanesUp.toNat.testBit 7 = true) ∧
    ((portOf 0 .held id).port 0).state = .held ∧ ((portOf 0 .up id).port 0).state ≠ .suspect ∧
    (portOf 0 .up id).mayTrain 0 = true ∧ ((portOf 0 .suspect id).port 0).state = .suspect ∧ 6 ≤ (portOf 0 .up id).start.step := by
  decide

/-- A frame of 1,120 zero bytes fails its link check: the CRC of zeros is not zero. -/
theorem wit_FramesLandAndLeave_bad : lcrcOk [] = false := by decide

theorem wit_FramesLandAndLeave :
    let l : Landing := ⟨3, 2, [], false⟩
    let x : Sent := ⟨1, 7, [], none, [(0, 0), (1, 2)]⟩
    let y : Sent := ⟨1, 7, [], none, [(0, 3)]⟩
    let d := fun (x : Sent) => { memberAt 0 .linking with
      rly := { Relay.reset with landings := [l], ports := [(0, { Port.zero with state := .up, store := [x] })] } }
    (d x).rly.landings[0]? = some l ∧ (d x).rly.blocked = [] ∧ (∀ r ∈ (d x).hbm.reqs, r.id ∉ l.reqs) ∧ l.failed = false ∧
    ((d x).port 0).store.find? (fun x => x.channel == 1 && x.seq == 7) = some x ∧
    (x.acked 3).blocks ≠ [] ∧ ((x.acked 3).blocks.any fun b => decide (4 ≤ b.2)) = false ∧
    ((y.acked 1).blocks.any fun b => decide (4 ≤ b.2)) = true := by decide

/-! ### Hypotheses of the statements about domains, securing and laps -/

/-- A domain's join request from position 2. -/
def joinOf (data : List Byte) : Contribution := ⟨0, 0, 0, 2, 0, data⟩

theorem wit_JoiningADomain :
    let a : Dev := { memberAt 2 .awaiting with
      lap := { Lap.reset with lock := true }
      dom := { Domain.reset with state := .awaiting, joinAge := 64 } }
    a.dom.state = .awaiting ∧ a.lap.lock = true ∧ 64 ≤ a.dom.joinAge ∧ a.parentPort = some 0 ∧ (a.port 0).peerKind ≠ 2 ∧
    (memberAt 2 .active).inDomain = true ∧ (memberAt 0 .active).memberIn 1 = true ∧
    (memberAt 0 .active).joinCause ⟨0, 0, 0, 1, 0, List.replicate 32 0⟩ 0 = none ∧
    (memberAt 0 .active).dom.state ≠ .alone ∧
    (memberAt 0 .active).joinCause (joinOf (List.replicate 8 0 ++ leBytes 8 1 ++ List.replicate 16 0)) 0 = some 1 ∧
    (memberAt 0 .active).joinCause (joinOf (List.replicate 32 0)) 0 = none ∧
    (memberAt 0 .active).joinCause (joinOf (List.replicate 32 0)) 180000 = some 3 ∧
    (memberAt 0 .active).memberIn 2 = false ∧ (memberAt 0 .active).waiting 0x10 2 = false := by decide

theorem wit_HurdlesAreDecided :
    let c : Contribution := ⟨1, 1, 0, 2, 0, List.replicate 32 0⟩
    let d : Dev := { memberAt 0 .active with dom := { (memberAt 0 .active).dom with collected := [c] } }
    c.hseq ≠ 0 ∧ (∀ x ∈ (memberAt 0 .active).dom.collected, ¬ (x.hseq = c.hseq ∧ x.pos = c.pos)) ∧
    (∀ x ∈ (memberAt 0 .active).dom.kept ++ (memberAt 0 .active).dom.decided, x.hseq ≠ c.hseq) ∧
    c ∈ d.dom.collected ∧ d.starting = true := by decide

theorem wit_DecisionsAndNotices :
    let x : Decision := ⟨1, 1, 1, 1, 5, List.replicate 32 0, 0⟩
    let d := fun (n : W64) => { memberAt 2 .active with lap := { Lap.reset with lock := true, count := n } }
    let t : Dev := { memberAt 1 .active with
      lap := { Lap.reset with missed := 4 }
      dom := { (memberAt 1 .active).dom with starterLost := true } }
    (d 4).inDomain = true ∧ (d 4).starting = false ∧ (d 4).lap.lock = true ∧ (d 4).lap.count.toNat < x.lap.toNat ∧
    x.lap.toNat ≤ (d 5).lap.count.toNat ∧ (memberAt 0 .active).pos ≠ some x.pos.toNat ∧
    (memberAt 0 .active).memberIn 1 = true ∧ (memberAt 0 .active).waiting 0x12 1 = false ∧
    t.role = 1 ∧ t.dom.state = .active ∧ 4 ≤ t.lap.missed ∧ t.dom.starterLost = true ∧ t.dom.takeover = false := by decide

/-- R387: in rotation 2 of a group of 9, list place 4 holds data place 2 and list place 1 the parity row. -/
theorem test_stripe_parts : stripePart 9 2 4 = 2 ∧ stripePart 9 2 1 = 8 := by decide

/-- A module that secures or restores. -/
def securing (phase : Nat) (f : Sec → Sec) : State :=
  st { ready with sec := f { Sec.reset with phase := phase } }

theorem wit_SecuringAndRestoring :
    (securing 1 id).dev.sec.phase = 1 ∧ (∀ e ∈ (securing 1 id).dev.rly.entries, e.tag ≠ 255) ∧
    (∀ l ∈ (securing 1 id).dev.rly.landings, l.tag ≠ 255) ∧ (securing 1 id).dev.paritySends = false ∧
    (securing 2 id).dev.sec.phase = 2 ∧ (securing 2 id).dev.sec.copyDone = false ∧
    (securing 3 fun s => { s with rebuild := true }).dev.sec.rebuild = true ∧ (securing 3 id).dev.sec.rebuild = false ∧
    (securing 3 id).dev.sec.unrecoverable = false ∧ 6 ≤ (securing 3 id).dev.start.step := by decide

theorem wit_LapsTurnAtTheEffectiveEdge :
    let d := fun (held : Bool) (h : HState) (n : Option W64) =>
      ({ withHeats [heatOf .nop h] with lap := { Lap.reset with held := held, loadLap := n } } : Dev)
    (d false .waiting none).lap.held = false ∧ (d true .running none).anyRunning = true ∧
    (d true .waiting none).lap.held = true ∧ (d true .waiting none).anyRunning = false ∧
    (d true .waiting (some 9)).lap.loadLap = some 9 := by decide

theorem wit_OverrunEndsTheLap :
    let d : Dev := { withHeats [heatOf .nop .running] with lap := { Lap.reset with held := true } }
    d.lap.held = true ∧ d.late = heatOf .nop .running :: [] ∧ (withHeats []).late = [] ∧ d.runningClusters = [0] ∧
    d.lap.loadLap = none ∧ (withHeats [heatOf .nop .cancelling]).cancellingClusters = [0] := by decide

theorem wit_LapLockFollowsTheTick :
    let d := fun (lock echoed : Bool) (missed : Nat) (s : DomState) =>
      ({ memberAt 2 s with lap := { Lap.reset with lock := lock, echoed := echoed, missed := missed } } : Dev)
    (d true false 9 .active).lap.lock = true ∧ 9 ≤ (d true false 9 .active).lap.missed ∧
    (d true true 0 .active).parentPort = some 0 ∧ (d true true 0 .active).role ≠ 0 ∧
    (d true true 0 .active).dom.takeover = false ∧
    ([DomState.locking, .awaiting, .refused].all fun s => !(d false true 0 s).lap.lock && (d false true 0 s).lap.echoed
      && (d false true 0 s).dom.state == s) = true ∧
    (portOf 2 .up id).portUp 0 = true := by decide

theorem wit_ImagesLoadAndCommit :
    ({ Img.reset with loading := true } : Img).loading = true ∧ ({ Img.reset with checking := true } : Img).checking = true ∧
    6 ≤ ready.start.step ∧ 9 % 8 = 1 ∧ ready.img.loading = false ∧ ready.img.checking = false ∧ ready.img.pending = none ∧
    ({ Img.reset with pending := some Conf.reset } : Img).pending = some Conf.reset ∧
    ready.commitCheck = some (0x26, 1) := by decide

theorem wit_ImagesLoadAndCommit_passes :
    let i : Img := { (memberAt 2 .active).img with checking := true, shadow := (memberAt 2 .active).live }
    Dev.commitCheck { memberAt 2 .active with img := i } = none := by decide

theorem leNat_leBytes : ∀ n v : Nat, leNat (leBytes n v) = v % 256 ^ n
  | 0, v => by simp [leBytes, leNat, Nat.mod_one]
  | n + 1, v => by
    have e : (BitVec.ofNat 8 v).toNat = v % 256 := by rw [BitVec.toNat_ofNat]
    simp only [leBytes, leNat, leNat_leBytes n, e]
    rw [Nat.pow_succ', Nat.mod_mul]

theorem leBytes_length : ∀ n v : Nat, (leBytes n v).length = n
  | 0, _ => rfl
  | n + 1, v => by simp [leBytes, leBytes_length n]

/-- A frame of a header of 60 bytes and a body, with its link check. -/
def frameWith (h b : List Byte) : List Byte := h ++ leBytes 4 (crc32c (h ++ b)).toNat ++ b

theorem frameWith_ok (h b : List Byte) (e : h.length = 60) (eb : b.length = 1056) : lcrcOk (frameWith h b) = true := by
  have l4 := leBytes_length 4 (crc32c (h ++ b)).toNat
  have h1 : (frameWith h b).take 0x3C = h := by
    rw [frameWith, List.append_assoc, List.take_left' e]
  have h2 : (frameWith h b).drop 0x40 = b := by
    rw [frameWith, List.drop_left' (by simp [l4, e])]
  have h3 : numAt (frameWith h b) 0x3C 4 = (crc32c (h ++ b)).toNat := by
    rw [numAt, frameWith, List.append_assoc, List.drop_left' e, List.take_left' l4, leNat_leBytes]
    exact Nat.mod_eq_of_lt (crc32c _).isLt
  have h4 : (frameWith h b).length = 1120 := by simp [frameWith, l4, e, eb]
  rw [lcrcOk, h1, h2, h3, h4]
  simp

/-- That frame with a zero body. -/
def frameOf (h : List Byte) : List Byte := frameWith h (List.replicate 1056 0)
theorem frameOf_ok (h : List Byte) (e : h.length = 60) : lcrcOk (frameOf h) = true :=
  frameWith_ok h _ e List.length_replicate

/-- The header of a frame of traffic 0x0 for position `n`, which no block fills. -/
def header (n : Nat) : List Byte := [1, 0, 0, 0, 0, 0] ++ leBytes 2 n ++ List.replicate 52 0

/-- A frame for another module may be processed; one for a module that has no route of its tag waits. -/
theorem wit_FramesLandAndLeave_frames :
    let d : Dev := { ready with rly := { Relay.reset with ports := [(0, { Port.zero with state := .up })] } }
    let f := fun n => frameOf (header n)
    d.portUp 0 = true ∧ lcrcOk (f 0) = true ∧ lcrcOk (f 0xFFFF) = true ∧ numAt (f 0) 0 1 = 1 ∧ numAt (f 0xFFFF) 0 1 = 1 ∧
    ((st d).work.receive 0 (Frame.ofBytes (f 0)) 0).2 = true ∧
    ((st d).work.receive 0 (Frame.ofBytes (f 0xFFFF)) 0).2 = false :=
  ⟨by decide, frameOf_ok _ rfl, frameOf_ok _ rfl, by decide, by decide, by decide, by decide⟩

theorem bytes_length (m : Mem) : ∀ n a, (m.bytes a n).length = n
  | 0, _ => rfl
  | n + 1, a => by simp [Mem.bytes, bytes_length m n]

theorem bytes_get (m : Mem) : ∀ n a i, i < n → (m.bytes a n)[i]? = some (m.byte (a + i))
  | 0, _, _, h => by omega
  | n + 1, a, 0, _ => by simp [Mem.bytes]
  | n + 1, a, i + 1, h => by
    simp only [Mem.bytes, List.getElem?_cons_succ]
    rw [bytes_get m n (a + 1) i (by omega), show a + 1 + i = a + (i + 1) by omega]

/-- Memory that holds only these bytes from `n` on. -/
def memWith (n : Nat) (d : List Byte) : Mem := State.reset.mem.apply (.store n d)

theorem memWith_bytes (n : Nat) (d : List Byte) : (memWith n d).bytes 0 (n + d.length) = List.replicate n 0 ++ d := by
  apply List.ext_getElem?
  intro i
  by_cases h : i < n + d.length
  · rw [bytes_get _ _ _ _ h, memWith, Mem.byte_store, Nat.zero_add]
    by_cases hi : i < n
    · rw [List.getElem?_append_left (by simpa using hi), List.getElem?_replicate, if_pos hi]
      simp [show ¬ n ≤ i by omega]
      rfl
    · rw [List.getElem?_append_right (by simpa using hi), List.length_replicate]
      simp only [show n ≤ i by omega, show i < n + d.length from h, and_self, if_true]
      rw [List.getD_eq_getElem?_getD, List.getElem?_eq_getElem (by omega)]
      rfl
  · rw [List.getElem?_eq_none (by rw [bytes_length]; omega), List.getElem?_eq_none (by simp; omega)]

theorem recordOk_of (r : List Byte) (n : Nat) (d : List Byte) (h : r = List.replicate n 0 ++ d) (hn : n = 0x1FFC)
    (hd : d = leBytes 4 (crc32c (List.replicate n 0)).toNat) : recordOk r = true := by
  have l4 : d.length = 4 := by rw [hd, leBytes_length]
  have e1 : r.take 0x1FFC = List.replicate n 0 := by
    rw [h, List.take_left' (by rw [List.length_replicate, hn])]
  have e2 : numAt r 0x1FFC 4 = (crc32c (List.replicate n 0)).toNat := by
    rw [numAt, h, List.drop_left' (by rw [List.length_replicate, hn]), ← l4, List.take_length, hd, leNat_leBytes]
    exact Nat.mod_eq_of_lt (crc32c _).isLt
  have e3 : r.length = 0x2000 := by rw [h, List.length_append, List.length_replicate, l4, hn]
  rw [recordOk, e1, e2, e3]
  simp

/-- A restore whose shard image is empty and whose one extent begins at address 0; its record passes, or there is none. -/
def restoring (list : Nat) (source : Bool) : Dev := { ready with
  sec := { Sec.reset with phase := 3, source := source, listCount := list, listBase := 0x10000 } }

theorem wit_RestoreDone_passes : ∃ m : Mem, ∀ source,
    let s : State := { State.reset with mem := m, dev := restoring 1 source }
    recordOk (if s.dev.sec.source then s.work.copyOut else s.work.copyIn).savedRecord = true := by
  generalize hn : (0x1FFC : Nat) = n
  refine ⟨memWith n (leBytes 4 (crc32c (List.replicate n 0)).toNat), fun source => ?_⟩
  have hb := memWith_bytes n (leBytes 4 (crc32c (List.replicate n 0)).toNat)
  rw [leBytes_length] at hb
  have hz : ∀ x, 0x10000 ≤ x → (memWith n (leBytes 4 (crc32c (List.replicate n 0)).toNat)).byte x = 0 := by
    intro x hx
    rw [memWith, Mem.byte_store, leBytes_length, if_neg (by omega)]
    rfl
  generalize memWith n (leBytes 4 (crc32c (List.replicate n 0)).toNat) = m at hb hz ⊢
  have e : ∀ w : Wk, w.dev = restoring 1 source → w.mem = m → w.savedRecord = m.bytes 0 0x2000 := by
    intro w hd hm
    have hx : w.dev.secExtents w.mem = [(leNat (m.bytes 0x10000 6), leNat (m.bytes 0x10008 8))] := by rw [hd, hm]; rfl
    have h0 : leNat (m.bytes 0x10000 6) = 0 := by
      simp only [Mem.bytes, hz 0x10000 (by omega), hz (0x10000 + 1) (by omega), hz (0x10000 + 1 + 1) (by omega),
        hz (0x10000 + 1 + 1 + 1) (by omega), hz (0x10000 + 1 + 1 + 1 + 1) (by omega),
        hz (0x10000 + 1 + 1 + 1 + 1 + 1) (by omega)]
      rfl
    rw [Wk.savedRecord, hx, List.getElem?_cons_zero]
    simp only [h0, Wk.bytes, hm]
  have e2 : m.bytes 0 0x2000 = List.replicate n 0 ++ leBytes 4 (crc32c (List.replicate n 0)).toNat := by
    rw [← hb, ← hn]
  have e3 : ∀ w : Wk, w.dev = restoring 1 source → w.mem = m → recordOk w.savedRecord = true := fun w h1 h2 =>
    recordOk_of _ n _ ((e w h1 h2).trans e2) hn.symm rfl
  have hp : ∀ mm, (restoring 1 source).shardPieces mm = [] := fun mm => by
    simp only [Dev.shardPieces, Dev.secLen, Dev.secExtents, restoring, Sec.reset, Nat.zero_mul]
    rfl
  have hl : (restoring 1 source).secLen = 0 := by simp only [Dev.secLen, restoring, Sec.reset, Nat.zero_mul]
  have hi : ∀ w : Wk, w.dev = restoring 1 source → w.copyIn = w ∧ w.copyOut = w := fun w h => by
    simp [Wk.copyIn, Wk.copyOut, h, hp, hl, Wk.each]
  intro s
  have hw := hi s.work rfl
  rw [hw.1, hw.2, ite_self]
  exact e3 _ rfl rfl

theorem wit_RestoreDone_fails : ∀ source,
    recordOk (if (restoring 0 source).sec.source then (st (restoring 0 source)).work.copyOut
      else (st (restoring 0 source)).work.copyIn).savedRecord = false := by decide

/-! ### Hypotheses of the statements about the host interface -/

theorem wit_WeightSetRegisters :
    let old := (pinned 0).wset 3
    6 ≤ (pinned 0).start.step ∧ old.quiet = true ∧ ((pinned 1).wset 3).quiet = false ∧ old.nbuf ≠ 0 ∧
    (old.changed { old with nbuf := 4, base := 0x1000 }).fits = true ∧
    (old.changed { old with pages := 2 ^ 28 - 1 }).fits = false := by decide

/-- A block with an armed hurdle of kind 0x3. -/
def armed3 : Dev := withHeats [heatOf (.hurdle none 3 1 1) .armed]

theorem wit_HostWritesTakeEffect :
    Dev.reset.start.step < 4 ∧ armed3.armedKind 3 = true ∧ ready.armedKind 3 = false ∧ 6 ≤ armed3.start.step ∧ AMap.wf ctxFree ready.ctx = true ∧
    (127 + [(0 : Byte)].length ≤ 128) ∧ ctxState (ready.ctxAt 65535) = 0 ∧
    ctxState ((ready.ctxAt 65535).take 0 ++ [3] ++ (ready.ctxAt 65535).drop 1) = 3 ∧
    ([1, 2].all fun n => ctxState ((ctxState0 n .nop).dev.ctxAt 0) == n) = true := by decide

/-- A BAR4 request that may issue at once, and the address that is asked for. -/
theorem wit_ApertureReachesMemory :
    let d : Dev := { ready with hbm := { ready.hbm with tokens := (List.range 12).map fun k => (k, 32 * 512) } }
    bits 656 9 0 ≤ 656 ∧ 656 < bits 657 9 0 ∧ 7 ≤ ready.start.step ∧ Dev.reset.start.step < 7 ∧
    (64 * 2 ^ 30 - 1) + [some (1 : Byte)].length ≤ 64 * 2 ^ 30 ∧ d.hbm.reqs = [] ∧
    ((d.bar4Read 0 4).hbm.reqs.map fun r => (d.bar4Read 0 4).issuable r) = [true] ∧
    (let e := (enabledRuns 0 [some 1]).foldl (fun d x => d.bar4Write (0 + x.1) x.2) d
     (e.hbm.reqs.map fun r => e.issuable r) = [true]) := by decide +kernel

/-- A block with one buffered record and an event ring of 64 slots, enabled. -/
def recording (head tail : W32) (on : Bool) : Dev :=
  { ready with pcie := { Pcie.reset with busMaster := true }, evt := { Evt.reset with ring := 0x1006, enable := on, head := head, tail := tail, buffer := [Rec.of 1 0] } }

theorem wit_EventRingAndVectors :
    4 ≤ ready.start.step ∧ ready.evt.enable = false ∧ (recording 0 0 true).evt.enable = true ∧
    6 ≤ bits 0x1006 4 0 ∧ bits 0x1010 4 0 ≤ 16 ∧ (recording 0 0 true).evt.buffer = Rec.of 1 0 :: [] ∧
    (recording 0 64 true).evtRoom = 0 ∧ (recording 1 64 true).evtRoom ≠ 0 ∧ (recording 0 0 false).evtRoom = 0 ∧
    (let d : Dev := { ready with pcie := { Pcie.reset with pba := [(768, true)], unmasked := [(768, true)] } }
     NSet.has d.pcie.pba 768 = true ∧ NSet.has d.pcie.unmasked 768 = true) := by decide

theorem wit_ManagementAnswers :
    let off : Dev := { ready with start := { ready.start with step := 2 } }
    ready.start.standby = true ∧ 3 ≤ ready.start.step ∧ mgmtReadable 0xC34C = true ∧ 0xC34C % 4 = 0 ∧
    mgmtReadable 0xC350 = false ∧ off.start.step < 3 ∧ mgmtStandby 0xC000 = true ∧ mgmtStandby 0xC004 = false := by decide

/-- A revocation token for slot 1, signed by slot 0, whose key is the base point, with 2 as its secret (R431, R432). -/
def tokenBytes : List Byte :=
  [0x4D, 0x5A, 0x52, 0x56, 2] ++ List.replicate 59 0
    ++ beBytes 48 0x8d999057ba3d2d969260045c55b97f089025959a6f434d651d207d19fb96e9e4fe0e86ebe0e64f85b96a9c75295df61
    ++ beBytes 48 0x1855fdbe59d145d08ac612fd699084d1946fe62eeb9ed22d4002d5518fcf10e9a325282d968173bd54a3e369e4447a43
theorem wit_KeysAndDebug_signed :
    (State.work { st { ready with boot := { Boot.reset with keys := [(0, (ecGx, ecGy))] } } with
      mem := memWith 0 tokenBytes }).revokeResult = 0 := by decide +kernel

/-- Memory without a token: each request answers SIGNATURE. -/
theorem wit_KeysAndDebug :
    4 ≤ ready.start.step ∧ (st ready).work.revokeResult ≠ 0 ∧ (st ready).work.unlockResult ≠ 0 := by decide

theorem wit_SweepItems :
    let k := sweepKey (.engine 127 16)
    let x := fun (p : Nat) => ({ ready with swp := { Dev.reset.swp with items := [(k, { Item.zero with posted := true, prio := p })] } } : Dev)
    ready.allDisabled = true ∧ (ringed 1 0).allDisabled = false ∧
    ({ withHeats [{ heatOf .nop .running with engines := [0] }] with ctxGroup := 0 } : Dev).sweepMay (.engine 0 0) = false ∧
    ((x 7).item k).posted = true ∧ ((x 7).item k).prio = 7 ∧ ((x 7).item k).urgent = false ∧
    sweepKind (.engine 127 16) ≠ 3 ∧ sweepKind (.margin 0 0) = 3 ∧ (ready.item k).posted = false ∧ (x 7).lap.cycle = 0 ∧
    (x 7).lap.held = false ∧ ready.sweepMay (.engine 0 0) = true ∧ ready.sweepMay (.pond 0 0) = true := by decide

/-- An item is not overdue at lap 0, and is after the longest that it may wait, whenever in the 60 minutes it is due. -/
theorem wit_SweepItems_overdue (k : Nat) :
    ready.overdue k = false ∧ ({ ready with lap := { Lap.reset with count := 0x7FFFFFFF } } : Dev).overdue k = true := by
  have h : ∀ n : W64, ({ ready with lap := { Lap.reset with count := n } } : Dev).dueLap k =
      min (sweepDue k 18000000) (18000000 - 4096) := fun n => by
    show 0 + min (sweepDue k (3600000000 / max 1 200)) (3600000000 / max 1 200 - 4096) = _
    norm_num
  have e : ∀ n : W64, ({ ready with lap := { Lap.reset with count := n } } : Dev).overdue k =
      (decide (min (sweepDue k 18000000) (18000000 - 4096) + 512 ≤ n.toNat) && decide (0 + 512 ≤ n.toNat + 1)) := fun n => by
    unfold Dev.overdue
    rw [h]
    rfl
  refine ⟨?_, ?_⟩
  · rw [show ready = ({ ready with lap := { Lap.reset with count := 0 } } : Dev) from rfl, e]
    simp
  · rw [e]
    simp

/-! ### Hypotheses of the statements about power and start-up -/

theorem wit_ThrottleLadder :
    let c : CondState := { CondState.zero with rung := 1, safe := 1001 }
    let d : Dev := { ready with pwr := { ready.pwr with conds := [(4, c)] } }
    ready.start.standby = true ∧ 1 ≤ ready.pwr.state ∧ ready.pwr.state ≤ 5 ∧ ready.pwr.rung < 3 ∧
    (∀ k, k < 8 → (ready.cond k).rung ≤ 3) ∧ (d.cond (condNum .die)).rung ≠ 0 ∧ Cond.die ≠ .sensor ∧
    1001 ≤ (d.cond (condNum .die)).safe ∧ d.start.edge = false := by decide

theorem wit_ConnectorsAndPins :
    let d : Dev := { ready with pwr := { ready.pwr with feedLast := 9, feedRun := 15, released := [(20, true)] } }
    d.pwr.feedLast = 9 ∧ 15 ≤ d.pwr.feedRun ∧ NSet.has d.pwr.released 20 = true ∧ drivenPin 2 = true ∧ drivenPin 17 = true ∧
    Dev.reset.start.standby = false ∧ (1 : BitVec 32).toNat.testBit 0 = true ∧ 1 ≤ ready.pwr.state ∧ ready.pwr.state ≤ 4 := by
  decide

/-- A block at a step of start-up. -/
def atStep (n : Nat) : Dev := { ready with
  start := { ready.start with step := n }
  pwr := { ready.pwr with state := 1, mainPath := true } }

theorem wit_StartUpSteps :
    let cold : Dev := { Dev.reset with start := { Start.reset with standby := true } }
    let held : Dev := { atStep 2 with pwr := { ready.pwr with mainPath := false } }
    let flash : Dev := { ready with boot := { Boot.reset with fallback := true, slotB := true, flashA := false } }
    Dev.reset.start.standby = false ∧ cold.start.pwrEn = false ∧ cold.pwr.state = 0 ∧ held.start.step = 2 ∧
    held.start.pwrEn = true ∧ held.pwr.mainPath = false ∧ (atStep 2).pwr.mainPath = true ∧ 1 ≤ (atStep 2).pwr.state ∧
    (atStep 7).swp.full = false ∧ (atStep 9).dom.state ≠ .linking ∧ (memberAt 0 .active).dom.state = .active ∧
    ({ Conf.reset with image := [0] } : Conf).image ≠ [] ∧ 5 ≤ flash.start.step ∧ flash.boot.fallback = true ∧
    flash.boot.slotB = true ∧ flash.boot.flashA = false := by decide

theorem wit_StopsAndResets :
    let d : Dev := { ready with pwr := { ready.pwr with state := 5 }, start := { ready.start with stopping := true } }
    d.stopDone = true ∧ d.start.edge = false ∧ ready.stopDone = false ∧ ready.warmable = true ∧ 3 ≤ ready.start.step := by decide

/-! ### Worked examples of the spec, and single steps -/

/-- R28's example: slot 1,234 of cluster 77 is at 0x1000_4D26_9000, in logical core 2. -/
theorem test_slot_address : slotAddr (77 * slotsPerCluster + 1234) = 0x10004D269000 ∧ slotCore (77 * slotsPerCluster + 1234) = 2 := by
  decide

/-- R25's example: with granule set 0 interleaved, line 0x002D_0000_3040 is on die 3, in page 65,536 of granule 0. -/
theorem test_interleaved_line :
    ({ Conf.reset with regions := [1] } : Conf).stored 0x002D00003040 = (3, (65536 * 4096 + 0x40) / 128) := by decide

/-- R163's examples: extents 3 and 2 with strides 2 and 3, and windows of 128 with strides 1 and 64, fail the test. -/
theorem test_injectivity : reachOk [(2, 3), (3, 2)] 0 = false ∧ reachOk [(1, 128), (64, 4)] 0 = false
    ∧ reachOk [(1, 128), (128, 4)] 0 = true := by decide

/-- R86's example: 464 is 448 in E4M3, and 480 saturates to it too. -/
theorem test_e4m3 : Fmt.e4m3.shape.encode .even true (fval 0x43E80000) = 0x7E ∧
    Fmt.e4m3.shape.encode .even true (fval 0x43F00000) = 0x7E := by decide

/-- CRC-32C of "123456789". -/
theorem test_crc32c : crc32c [0x31, 0x32, 0x33, 0x34, 0x35, 0x36, 0x37, 0x38, 0x39] = 0xE3069283 := by decide +kernel

/-- SHA-384 of "abc" (FIPS 180-4). -/
theorem test_sha384 : sha384 [0x61, 0x62, 0x63] =
    0xcb00753f45a35e8bb5a03d699ac65007272c32ab0eded1631a8b605a43ff5bed8086072ba1e7cc2358baeca134c825a7 := by decide +kernel

/-- The front command leaves the queue, and the next stays. -/
theorem test_step_pops : nextIs (step { State.reset with pending := [.evtEnable 1, .rejoin] }) (fun t => t.pending == [.rejoin]) = true := by
  decide

/-- No row of the table has a word. -/
theorem test_no_words : decodeTableWord 32 0 = none ∧ State.reset.withFetchWord 32 0 = State.reset := by decide

/-- R47's column of the example of held edges: LAP_COUNT stays at the nominal edge and turns at the effective one. -/
theorem test_lap_tick : nextIs (exec .lapTick (st { ready with lap := { Lap.reset with count := 1000 } }))
    (fun t => t.dev.lap.held && t.dev.lap.count == 1000) = true := by decide
theorem test_effective_edge : nextIs (exec .effectiveEdge (st { ready with lap := { Lap.reset with count := 1000, held := true } }))
    (fun t => !t.dev.lap.held && t.dev.lap.count == 1001) = true := by decide +kernel

/-- A heat that runs holds the edge (R37). -/
theorem test_edge_held : nextIs (exec .effectiveEdge
      (st { withHeats [heatOf .nop .running] with lap := { Lap.reset with count := 1000, held := true } }))
    (fun t => t.dev.lap.held && t.dev.lap.count == 1000) = true := by decide

/-- A signal adds to its counter and retires (R220). -/
theorem test_signal : nextIs (exec (.signal hid) (waiting (.signal 3 false 5)))
    (fun t => t.dev.mar.heats.isEmpty && t.dev.mar.signals.any fun x => x.2 == 5) = true := by decide

/-- A wait for a value that its counter has not reached stays (R220). -/
theorem test_wait_stays : nextIs (exec (.wait hid) (waiting (.wait 3 1))) (fun t => t.dev.mar.heats.length == 1) = true := by
  decide

/-- A release empties slot 0 (R145). -/
theorem test_release : nextIs (exec (.release hid) (fullOf [(0, true)] (.release 0 1) .running)) (fun t => !t.dev.isFull 0) = true := by
  decide

/-- A doorbell sets TAIL (R199); one beyond the ring is rejected. -/
theorem test_doorbell : nextIs (exec (.doorbell 0 .f 5) (st (ringed 0 0))) (fun t => (t.dev.stream 0 0).tail == 5) = true
    ∧ nextIs (exec (.doorbell 0 .f 65) (st (ringed 0 0)))
      (fun t => (t.dev.stream 0 0).tail == 0 && (t.dev.stream 0 0).dbReject) = true := by decide

/-- ID_PART reads 0x0720_0042 (R414) over the management connector. -/
theorem test_read_id : nextIs (exec (.readReg 8 4) (st ready)) (fun t => t.dev.out == [.regAnswer (some 0x07200042)]) = true := by
  decide

/-- Bytes written through BAR4 reach BASE_GIB · 2^30 + x (R418); beyond its 64 GiB there is no address. -/
theorem test_bar4_write : nextIs (exec (.bar4Write 16 [some 7, none, some 9] false)
      (st { ready with
        pcie := { Pcie.reset with aper := 2 }
        hbm := { ready.hbm with tokens := (List.range 12).map fun k => (k, 32 * 512) } }))
    (fun t => t.mem.cells == [(2 * 2 ^ 30 + 16, 7), (2 * 2 ^ 30 + 18, 9)]) = true := by decide +kernel
theorem test_bar4_beyond : exec (.bar4Read (64 * 2 ^ 30) 1 []) State.reset = .fault .barRange := rfl

/-- The SMBus address is 0x58 plus the pins (R466). -/
theorem test_smbus : nextIs (exec (.standbyPowerOn 5 false) State.reset) (fun t => t.dev.pwr.smbus == 0x5D) = true := by decide

/-- A rising edge of PWR_EN starts step 2 (R472); a falling edge of a running module begins a stop (R482). -/
theorem test_cold_start : nextIs (exec .coldStart (st { Dev.reset with start := { Start.reset with standby := true } }))
    (fun t => t.dev.start.step == 2 && t.dev.pwr.state == 1) = true := by decide +kernel
theorem test_orderly_stop : nextIs (exec .orderlyStop (st ready)) (fun t => t.dev.pwr.state == 5) = true := by decide +kernel

/-- A load asked for while one runs is BUSY (R487), code 0x30 in R76. -/
theorem test_load_busy : nextIs (exec (.imgLoad 1) (st { ready with img := { Img.reset with loading := true } }))
    (fun t => t.dev.img.result == resBusy && t.dev.img.done) = true := by decide

/-- UNLOCK without a token answers SIGNATURE, code 0x1 in R436. -/
theorem test_unlock : nextIs (exec (.unlock 2) (st ready)) (fun t => t.dev.boot.result == 1 && t.dev.boot.done) = true := by decide +kernel

/-- A disabled port is DOWN (R326). -/
theorem test_port_disable : nextIs (exec (.portDisable 0 true) (st (portOf 0 .up id)))
    (fun t => (t.dev.port 0).state == .down && (t.dev.port 0).disable) = true := by decide +kernel

end Sys2Proof.Tests
end

section
/-! SETTINGS: what every operation of the model leaves of `Dev.settings`. One lemma per operation, in the order of the
model's files: the settings of the result are those of the argument. -/

namespace Sys2Proof.Machine
open Sys2Proof.Config

/-! ### Settings of a changed block -/

/-- The parts that hold settings, each with its settings alone. -/
theorem Dev.settings_of {d e : Dev} (hf : e.fused = d.fused)
    (hb : (e.boot.revoked, e.boot.dbgFuse, e.boot.tokenAddr) = (d.boot.revoked, d.boot.dbgFuse, d.boot.tokenAddr))
    (hp : (e.pcie.aper, e.pcie.msixAddr, e.pcie.msixData, e.pcie.unmasked)
      = (d.pcie.aper, d.pcie.msixAddr, d.pcie.msixData, d.pcie.unmasked))
    (he : (e.evt.ring, e.evt.enable, e.evt.head) = (d.evt.ring, d.evt.enable, d.evt.head))
    (hi : (e.img.stageAddr, e.img.stageLen) = (d.img.stageAddr, d.img.stageLen))
    (hs : (e.sec.snap, e.sec.len, e.sec.par0, e.sec.par1, e.sec.listBase, e.sec.listCount)
      = (d.sec.snap, d.sec.len, d.sec.par0, d.sec.par1, d.sec.listBase, d.sec.listCount))
    (hc : e.ctxGroup = d.ctxGroup) : e.settings = d.settings := by
  rw [Dev.settings, hf, hb, hp, he, hi, hs, hc, Dev.settings]

/-- The parts of the block that hold no setting may change. The proof term is `(rfl)`, not `rfl`: so `simp` rewrites
by the equation and does not hand the whole new block to the kernel. -/
theorem Dev.settings_up {d : Dev} {now lap streams mar prm hbm upd rly dom flt swp pwr start ctx ctxRot sram latched
    out free} :
    Dev.settings { d with
      now := now, lap := lap, streams := streams, mar := mar, prm := prm, hbm := hbm, upd := upd, rly := rly,
      dom := dom, flt := flt, swp := swp, pwr := pwr, start := start, ctx := ctx, ctxRot := ctxRot, sram := sram,
      latched := latched, out := out, free := free }
      = d.settings := (rfl)

/-- Every field of `img` but the staging area may change. -/
theorem Dev.settings_img {d : Dev} {upd rly loading checking pending quiesce afterHeld periodSent done result section_
    shadow live liveLap loaded} :
    Dev.settings { d with
      upd := upd, rly := rly
      img := { d.img with
        loading := loading, checking := checking, pending := pending, quiesce := quiesce, afterHeld := afterHeld,
        periodSent := periodSent, done := done, result := result, section_ := section_, shadow := shadow,
        live := live, liveLap := liveLap, loaded := loaded } } = d.settings := (rfl)

/-- Every field of `boot` but the fuses and the address of the token may change. -/
theorem Dev.settings_boot {d : Dev} {dbg scope slotB fallback logFull result done nonceUse meas log logSeq flashA
    flashB} :
    Dev.settings { d with
      boot := { d.boot with
        dbg := dbg, scope := scope, slotB := slotB, fallback := fallback, logFull := logFull, result := result,
        done := done, nonceUse := nonceUse, meas := meas, log := log, logSeq := logSeq, flashA := flashA,
        flashB := flashB } } = d.settings := (rfl)

/-- Every field of `pcie` but the aperture and the MSI-X table may change. -/
theorem Dev.settings_pcie {d : Dev} {start config bells busMaster width pba} :
    Dev.settings { d with
      start := start
      pcie := { d.pcie with
        config := config, bells := bells, busMaster := busMaster, width := width, pba := pba } } = d.settings := (rfl)

/-- Every field of `sec` but those that set the securing area up may change. -/
theorem Dev.settings_sec {d : Dev} {lap mar rly upd ctxRot phase source pbank due valid exposed verifyPend verifyFail
    mismatch unrecoverable step cursor resumeStep resumeCur resumeLap number pointLap tLaps cLaps mLaps lossRef
    parityDone copyDone resumed digest digests lost rebuild beginLap lastLoss lastDone gaps admitted lossData} :
    Dev.settings { d with
      lap := lap, mar := mar, rly := rly, upd := upd, ctxRot := ctxRot
      sec := { d.sec with
        phase := phase, source := source, pbank := pbank, due := due, valid := valid, exposed := exposed,
        verifyPend := verifyPend, verifyFail := verifyFail, mismatch := mismatch, unrecoverable := unrecoverable,
        step := step, cursor := cursor, resumeStep := resumeStep, resumeCur := resumeCur, resumeLap := resumeLap,
        number := number, pointLap := pointLap, tLaps := tLaps, cLaps := cLaps, mLaps := mLaps, lossRef := lossRef,
        parityDone := parityDone, copyDone := copyDone, resumed := resumed, digest := digest, digests := digests,
        lost := lost, rebuild := rebuild, beginLap := beginLap, lastLoss := lastLoss, lastDone := lastDone,
        gaps := gaps, admitted := admitted, lossData := lossData } } = d.settings := (rfl)

theorem foldl_settings {α : Type} {f : Dev → α → Dev} {l : List α} {d : Dev}
    (h : ∀ d x, (f d x).settings = d.settings) : (l.foldl f d).settings = d.settings :=
  foldl_keeps Dev.settings f h l d

theorem Wk.each_settings {α : Type} {f : Wk → α → Wk} {l : List α} {w : Wk}
    (h : ∀ w x, (f w x).dev.settings = w.dev.settings) : (Wk.each l f w).dev.settings = w.dev.settings :=
  List.foldlRecOn (motive := fun v : Wk => v.dev.settings = w.dev.settings) l f rfl fun v hv a _ => (h v a).trans hv

/-- The event buffer takes a record beside the ring's settings. -/
theorem Dev.buffer_settings (d : Dev) (r : Rec) :
    ((d.buffer r).1.ring, (d.buffer r).1.enable, (d.buffer r).1.head) = (d.evt.ring, d.evt.enable, d.evt.head) := by
  simp only [Dev.buffer]
  repeat' split
  all_goals rfl

/-! ### Operations of Machine/Ops -/

theorem Dev.setStream_settings (d : Dev) (c s : Nat) (f : Stream → Stream) :
    (d.setStream c s f).settings = d.settings := by
  simp only [Dev.setStream, ↓Dev.settings_up]

theorem Dev.setHeat_settings (d : Dev) (h : HeatId) (f : Heat → Heat) : (d.setHeat h f).settings = d.settings := by
  simp only [Dev.setHeat, ↓Dev.settings_up]

theorem Dev.dropHeat_settings (d : Dev) (h : HeatId) : (d.dropHeat h).settings = d.settings := by
  simp only [Dev.dropHeat, ↓Dev.settings_up]

theorem Dev.setPort_settings (d : Dev) (p : Nat) (f : Port → Port) : (d.setPort p f).settings = d.settings := by
  simp only [Dev.setPort, ↓Dev.settings_up]

theorem Dev.setWset_settings (d : Dev) (w : Nat) (f : WSet → WSet) : (d.setWset w f).settings = d.settings := by
  simp only [Dev.setWset, ↓Dev.settings_up]

theorem Dev.tag_settings (d : Dev) (g : Nat) (full claim : Bool) (leave : Nat) :
    (d.tag g full claim leave).settings = d.settings := by
  simp only [Dev.tag, ↓Dev.settings_up]

theorem Dev.fillSlot_settings (d : Dev) (g : Nat) : (d.fillSlot g).settings = d.settings := by
  simp only [Dev.fillSlot, ↓Dev.settings_up, ↓Dev.tag_settings, ↓apply_ite Dev.settings, ite_self]

theorem Dev.emptySlot_settings (d : Dev) (g : Nat) : (d.emptySlot g).settings = d.settings := by
  simp only [Dev.emptySlot, ↓Dev.tag_settings]

theorem Dev.claimSlot_settings (d : Dev) (g : Nat) : (d.claimSlot g).settings = d.settings := by
  simp only [Dev.claimSlot, ↓Dev.tag_settings]

theorem Dev.unclaimSlot_settings (d : Dev) (g : Nat) : (d.unclaimSlot g).settings = d.settings := by
  simp only [Dev.unclaimSlot, ↓Dev.settings_up, ↓Dev.tag_settings, ↓apply_ite Dev.settings, ite_self]

theorem Dev.emit_settings (d : Dev) (o : Output) : (d.emit o).settings = d.settings := by
  simp only [Dev.emit, ↓Dev.settings_up]

theorem Dev.msix_settings (d : Dev) (v : Nat) : (d.msix v).settings = d.settings := by
  simp only [Dev.msix, ↓Dev.settings_pcie, ↓Dev.emit_settings, ↓apply_ite Dev.settings, ite_self]

theorem Dev.latch_settings (d : Dev) (reg b : Nat) : (d.latch reg b).settings = d.settings := by
  simp only [Dev.latch, ↓Dev.settings_up]

theorem Dev.raise_settings (d : Dev) (r : Rec) : (d.raise r).settings = d.settings := by
  refine Dev.settings_of (by simp [Dev.fused]) (by simp) (by simp) ?_ (by simp) (by simp) (by simp)
  simp only [Dev.raise]
  split <;> split <;> exact d.buffer_settings _

theorem Dev.raiseOnce_settings (d : Dev) (key : Nat) (r : Rec) : (d.raiseOnce key r).settings = d.settings := by
  simp only [Dev.raiseOnce, ↓Dev.settings_up, ↓Dev.raise_settings, ↓apply_ite Dev.settings, ite_self]

theorem Dev.streamConfig_settings (d : Dev) (offset : Nat) : (d.streamConfig offset).settings = d.settings := by
  simp only [Dev.streamConfig, ↓Dev.raise_settings]

theorem Dev.replace_settings (d : Dev) (n : Nat) : (d.replace n).settings = d.settings := by
  simp only [Dev.replace, ↓Dev.settings_up, ↓Dev.msix_settings, ↓Dev.emit_settings, ↓Dev.raiseOnce_settings,
    ↓apply_ite Dev.settings, ite_self]

theorem Dev.send_settings (d : Dev) (port : Nat) (m : Message) : (d.send port m).settings = d.settings := by
  simp only [Dev.send, ↓Dev.emit_settings, ↓apply_ite Dev.settings, ite_self]

theorem Dev.notify_settings (d : Dev) (cluster stream : Nat) (k : NoticeKind) :
    (d.notify cluster stream k).settings = d.settings := by
  simp only [Dev.notify]
  split <;> simp only [↓Dev.send_settings]

theorem Dev.halt_settings (d : Dev) (c s cause : Nat) (idx : W32) : (d.halt c s cause idx).settings = d.settings := by
  simp only [Dev.halt, ↓Dev.msix_settings, ↓Dev.setStream_settings, ↓apply_ite Dev.settings, ite_self]

theorem Dev.hostWrite_settings {f : Dev → Dev} (hf : ∀ d, (f d).settings = d.settings) (d : Dev) :
    (d.hostWrite f).settings = d.settings := by
  simp only [Dev.hostWrite, ↓apply_ite Dev.settings, hf, ite_self]

/-! ### Operations of Machine/Operands -/

theorem Wk.pondPut_settings (w : Wk) (a : Nat) (data : List Byte) :
    (w.pondPut a data).dev.settings = w.dev.settings := by
  simp only [Wk.pondPut, ↓Dev.settings_up, Wk.dev_up, Wk.dev_put]

theorem Dev.hbmFresh_settings (d : Dev) (a n : Nat) : (d.hbmFresh a n).settings = d.settings := by
  simp only [Dev.hbmFresh, ↓Dev.settings_up]

theorem Wk.hbmPut_settings (w : Wk) (a : Nat) (data : List Byte) : (w.hbmPut a data).dev.settings = w.dev.settings := by
  simp only [Wk.hbmPut, ↓Dev.hbmFresh_settings, Wk.dev_up, Wk.dev_put]

theorem Wk.pondBad_settings (w : Wk) (p : Piece) : (w.pondBad p).dev.settings = w.dev.settings := by
  simp only [Wk.pondBad]
  exact Wk.each_settings fun _ _ => rfl

theorem Wk.pondPieces_settings (w : Wk) (ps : List Piece) : (w.pondPieces ps).dev.settings = w.dev.settings := by
  simp only [Wk.pondPieces, ↓Wk.each_settings, ↓Wk.pondBad_settings, ↓Wk.pondPut_settings, implies_true]

theorem Wk.foldEntry_settings (w : Wk) (record blk flags : Nat) (amax : W32) :
    (w.foldEntry record blk flags amax).dev.settings = w.dev.settings := by
  simp only [Wk.foldEntry, ↓Dev.settings_up, ↓Dev.latch_settings, Wk.dev_up, Wk.dev_put, ↓apply_ite Wk.dev,
    ↓apply_ite Dev.settings, ite_self]

theorem Wk.applyEntry_settings (w : Wk) (record blk : Nat) (sums : List Int) (flags : Nat) (amax : W32)
    (residue : Nat) : (w.applyEntry record blk sums flags amax residue).dev.settings = w.dev.settings := by
  simp only [Wk.applyEntry, ↓Dev.settings_up, ↓Wk.foldEntry_settings, ↓Wk.hbmPut_settings, Wk.dev_up]

theorem Wk.rewrite_settings (w : Wk) (a : Nat) (data : List Byte) :
    (w.rewrite a data).dev.settings = w.dev.settings := by
  simp only [Wk.rewrite, ↓Wk.hbmPut_settings, ↓Wk.pondPut_settings, ↓apply_ite Wk.dev, ↓apply_ite Dev.settings,
    ite_self]

theorem Wk.applyAtom_settings (w : Wk) (o : AtomOp) : (w.applyAtom o).dev.settings = w.dev.settings := by
  cases o <;> simp only [Wk.applyAtom, Wk.rewrite_settings, Wk.applyEntry_settings, Wk.foldEntry_settings,
    Wk.hbmPut_settings]

/-! ### Operations of Machine/Scoreboard -/

theorem Dev.noteG_settings (d : Dev) : d.noteG.settings = d.settings := by
  simp only [Dev.noteG, ↓Dev.settings_up, ↓apply_ite Dev.settings, ite_self]

theorem Dev.requestPermit_settings (d : Dev) (h : Heat) : (d.requestPermit h).settings = d.settings := by
  simp only [Dev.requestPermit, ↓Dev.settings_up, ↓Dev.setHeat_settings, ↓Dev.raise_settings, ↓Dev.latch_settings,
    ↓apply_ite Dev.settings, ite_self]

theorem Dev.settleOne_settings (d : Dev) (h : Heat) : (d.settleOne h).settings = d.settings := by
  simp only [Dev.settleOne, ↓Dev.setHeat_settings, ↓Dev.requestPermit_settings, ↓apply_ite Dev.settings, ite_self]

theorem Dev.settle_settings (d : Dev) : d.settle.settings = d.settings := by
  simp only [Dev.settle, ↓Dev.noteG_settings]
  refine foldl_settings fun d h => ?_
  split
  · exact d.settleOne_settings _
  · rfl

theorem Dev.post_settings (d : Dev) (r : Req) : (d.post r).settings = d.settings := by
  simp only [Dev.post, ↓Dev.settings_up]

theorem Dev.withdraw_settings (d : Dev) (h : HeatId) : (d.withdraw h).settings = d.settings := by
  simp only [Dev.withdraw, ↓Dev.settings_up]

theorem Dev.freeEntry_settings (d : Dev) (h : HeatId) : (d.freeEntry h).settings = d.settings := by
  simp only [Dev.freeEntry, ↓Dev.settings_up, ↓Dev.dropHeat_settings, ↓Dev.msix_settings, ↓apply_ite Dev.settings,
    ite_self]

theorem Dev.markDead_settings (d : Dev) (h : HeatId) (chain : Bool) : (d.markDead h chain).settings = d.settings := by
  simp only [Dev.markDead, ↓Dev.setStream_settings]

theorem Dev.withhold_settings (d : Dev) (h : Heat) : (d.withhold h).settings = d.settings := by
  simp only [Dev.withhold]
  split <;> simp only [↓Dev.settings_up, ↓apply_ite Dev.settings, ite_self]

theorem Dev.cancelHeat_settings (d : Dev) (h : Heat) (chain : Bool) : (d.cancelHeat h chain).settings = d.settings := by
  simp only [Dev.cancelHeat]
  split <;> simp only [↓foldl_settings, ↓Dev.markDead_settings, ↓Dev.withdraw_settings, ↓Dev.unclaimSlot_settings,
    ↓Dev.setHeat_settings, ↓Dev.freeEntry_settings, ↓Dev.withhold_settings, implies_true]

theorem Dev.chainRun_settings (n c : Nat) (d : Dev) : (Dev.chainRun n c d).settings = d.settings := by
  induction n generalizing d with
  | zero => rfl
  | succ n ih =>
    simp only [Dev.chainRun]
    split
    · rfl
    · rw [ih, Dev.cancelHeat_settings]

theorem Dev.chain_settings (d : Dev) (c : Nat) : (d.chain c).settings = d.settings := by
  simp only [Dev.chain, Dev.settle_settings, Dev.chainRun_settings]

theorem Dev.cancelAll_settings (d : Dev) (c : Nat) (l : List Heat) (chain : Bool) :
    (d.cancelAll c l chain).settings = d.settings := by
  simp only [Dev.cancelAll, ↓foldl_settings, ↓Dev.cancelHeat_settings, ↓Dev.chain_settings, ↓Dev.settle_settings,
    ↓apply_ite Dev.settings, ite_self, implies_true]

theorem Dev.endHeat_settings (d : Dev) (h : Heat) : (d.endHeat h).settings = d.settings := by
  simp only [Dev.endHeat, ↓Dev.notify_settings, ↓Dev.settle_settings, ↓Dev.halt_settings, ↓Dev.cancelHeat_settings]

theorem Dev.faultHeat_settings (d : Dev) (h : Heat) (r : Rec) : (d.faultHeat h r).settings = d.settings := by
  simp only [Dev.faultHeat, ↓Dev.endHeat_settings, ↓Dev.raise_settings]

theorem Dev.cancelRunning_settings (d : Dev) (c : Nat) : (d.cancelRunning c).settings = d.settings := by
  simp only [Dev.cancelRunning, ↓Dev.cancelAll_settings]

theorem Dev.pondPoisonHeat_settings (d : Dev) (h : Heat) (addr : Nat) :
    (d.pondPoisonHeat h addr).settings = d.settings := by
  simp only [Dev.pondPoisonHeat, ↓Dev.faultHeat_settings]

theorem Wk.complete_settings (w : Wk) (h : Heat) (status : Nat) :
    (w.complete h status).dev.settings = w.dev.settings := by
  simp only [Wk.complete, ↓Dev.setStream_settings, ↓Dev.msix_settings, Wk.dev_up, Wk.dev_put, Wk.ite,
    ↓apply_ite Wk.dev, ↓apply_ite Dev.settings, ite_self]

theorem Wk.retire_settings (w : Wk) (h : Heat) : (w.retire h).dev.settings = w.dev.settings := by
  simp only [Wk.retire, ↓Dev.settings_up, ↓Wk.complete_settings, ↓Dev.freeEntry_settings, ↓Dev.setStream_settings,
    ↓Dev.settle_settings, Wk.dev_up, ↓apply_ite Dev.settings, ite_self]

theorem Wk.retireAtOnce_settings (w : Wk) (id : HeatId) : (w.retireAtOnce id).dev.settings = w.dev.settings := by
  simp only [Wk.retireAtOnce]
  split <;> simp only [↓Wk.retire_settings]

theorem Dev.start__settings (d : Dev) (h : Heat) : (d.start_ h).settings = d.settings := by
  simp only [Dev.start_]
  split <;> simp only [↓Dev.settings_up, ↓Dev.setHeat_settings, ↓Dev.setWset_settings, ↓apply_ite Dev.settings,
    ite_self]

/-! ### Operations of Machine/Contexts -/

theorem Dev.setCtx_settings (d : Dev) (id : Nat) (r : List Byte) : (d.setCtx id r).settings = d.settings := by
  simp only [Dev.setCtx, ↓Dev.settings_up]

theorem Dev.putCtx_settings (d : Dev) (id : Nat) (r : List Byte) : (d.putCtx id r).settings = d.settings := by
  simp only [Dev.putCtx, ↓Dev.setCtx_settings]

theorem Dev.readCtx_settings (d : Dev) (h : Heat) (id cop : Nat) : (d.readCtx h id cop).1.settings = d.settings := by
  simp only [Dev.readCtx, ↓Dev.raise_settings, ↓Dev.putCtx_settings, ↓apply_ite Prod.fst, ↓apply_ite Dev.settings,
    ite_self]

theorem Dev.ctxEnd_settings (d : Dev) (id : HeatId) (fault : Bool) : (d.ctxEnd id fault).settings = d.settings := by
  simp only [Dev.ctxEnd, ↓Dev.setHeat_settings]

theorem Dev.ctxHold_settings (d : Dev) (id : HeatId) (rows : List (Option (Nat × List Byte))) :
    (d.ctxHold id rows).settings = d.settings := by
  simp only [Dev.ctxHold, ↓Dev.setHeat_settings]

theorem Dev.ctxRefuse_settings (d : Dev) (h : Heat) (id cop : Nat) : (d.ctxRefuse h id cop).settings = d.settings := by
  simp only [Dev.ctxRefuse, ↓Dev.ctxEnd_settings, ↓Dev.raise_settings]

theorem Dev.onContext_settings {f : List Byte → Dev → Dev} (hf : ∀ r d, (f r d).settings = d.settings) (d : Dev)
    (h : Heat)
    (x : CtxBody) (states : List Nat) : (d.onContext h x states f).settings = d.settings := by
  have hr := d.readCtx_settings h x.ctx x.cop
  simp only [Dev.onContext]
  split <;> rename_i e <;> rw [e] at hr
  · rw [Dev.ctxEnd_settings]; exact hr
  · simpa only [↓apply_ite Dev.settings, hf, Dev.ctxRefuse_settings, ite_self] using hr

theorem Dev.ctxKeep_settings (d : Dev) (h : Heat) (x : CtxBody) (states : List Nat) :
    (d.ctxKeep h x states).settings = d.settings :=
  Dev.onContext_settings (fun _ d => d.ctxHold_settings _ _) d h x states

theorem Dev.ctxTurnTo_settings (d : Dev) (h : Heat) (x : CtxBody) (states : List Nat) (to_ : Nat) :
    (d.ctxTurnTo h x states to_).settings = d.settings := by
  refine Dev.onContext_settings (fun r d => ?_) d h x states
  simp only [↓apply_ite Dev.settings, Dev.ctxRefuse_settings, Dev.ctxEnd_settings, Dev.putCtx_settings, ite_self]

theorem Dev.select_settings (h : Heat) (l : List Nat) (n : Nat) (d : Dev) :
    (d.select h n l).1.settings = d.settings := by
  induction l generalizing n d with
  | nil => cases n <;> rfl
  | cons id l ih =>
    cases n with
    | zero => rfl
    | succ n =>
      have hr := d.readCtx_settings h id 5
      simp only [Dev.select]
      split <;> rename_i e <;> rw [e] at hr
      · rw [ih]; exact hr
      · simpa only [ih, Dev.putCtx_settings] using hr

theorem Dev.batchSelect_settings (d : Dev) (h : Heat) (x : CtxBody) : (d.batchSelect h x).settings = d.settings := by
  simp only [Dev.batchSelect, Dev.ctxHold_settings]
  split <;> simp only [Dev.settings_up, Dev.select_settings]

theorem Dev.readRows_settings (h : Heat) (cop : Nat) (l : List Int) (d : Dev) :
    (d.readRows h cop l).1.settings = d.settings := by
  induction l generalizing d with
  | nil => rfl
  | cons i l ih =>
    have hr := d.readCtx_settings h i.toNat cop
    simp only [Dev.readRows, ih]
    split
    · rfl
    · split <;> rename_i e <;> rw [e] at hr
      · exact hr
      · simpa only [↓apply_ite Prod.fst, ↓apply_ite Dev.settings, Dev.raise_settings, ite_self] using hr

theorem Dev.upCtx_settings (d : Dev) (id : Nat) (f : List Byte → List Byte) : (d.upCtx id f).settings = d.settings := by
  simp only [Dev.upCtx, ↓Dev.putCtx_settings]

theorem Dev.readList_settings (d : Dev) (mem : Mem) (h : Heat) (x : CtxBody) :
    (d.readList mem h x).settings = d.settings := by
  simp only [Dev.readList]
  split
  · split
    · rfl
    · split
      · exact d.pondPoisonHeat_settings _ _
      · simp only [↓apply_ite Dev.settings, Dev.ctxEnd_settings, Dev.ctxHold_settings, ↓foldl_settings,
        Dev.upCtx_settings,
          Dev.readRows_settings, implies_true, ite_self]
  · exact d.setHeat_settings _ _

theorem Dev.ctxBegin_settings (d : Dev) (mem : Mem) (id : HeatId) : (d.ctxBegin mem id).settings = d.settings := by
  simp only [Dev.ctxBegin]
  repeat' split
  all_goals simp only [↓Dev.ctxKeep_settings, ↓Dev.ctxTurnTo_settings, ↓Dev.batchSelect_settings,
    ↓Dev.readList_settings]

theorem Dev.dispatch_settings (d : Dev) (mem : Mem) (h : Heat) : (d.dispatch mem h).settings = d.settings := by
  simp only [Dev.dispatch, ↓Dev.ctxBegin_settings, ↓Dev.start__settings]

/-! ### Operations of Machine/Fence -/

theorem Dev.fencePhys_settings (d : Dev) (c p : Nat) : (d.fencePhys c p).settings = d.settings := by
  simp only [Dev.fencePhys, ↓Dev.settings_up]

theorem Dev.haltCluster_settings (d : Dev) (c cause : Nat) : (d.haltCluster c cause).settings = d.settings := by
  simp only [Dev.haltCluster, ↓foldl_settings, ↓Dev.halt_settings, implies_true]

theorem Dev.loseCluster_settings (d : Dev) (c : Nat) : (d.loseCluster c).settings = d.settings := by
  simp only [Dev.loseCluster, ↓Dev.settings_up, ↓Dev.cancelRunning_settings, ↓Dev.haltCluster_settings,
    ↓Dev.notify_settings]

theorem Dev.fence_settings (d : Dev) (c i : Nat) (r : Rec) : (d.fence c i r).settings = d.settings := by
  simp only [Dev.fence, ↓Dev.settings_up, ↓Dev.raise_settings, ↓Dev.fencePhys_settings, ↓Dev.replace_settings,
    ↓Dev.loseCluster_settings, ↓apply_ite Dev.settings, ite_self]

theorem Wk.pondError_settings (w : Wk) (e : PondError) : (w.pondError e).dev.settings = w.dev.settings := by
  simp only [Wk.pondError]
  split <;> simp only [↓Dev.settings_up, ↓Dev.raise_settings, Wk.dev_up, Wk.dev_op, ↓apply_ite Dev.settings, ite_self]

theorem Dev.marshalHang_settings (d : Dev) (c : Nat) : (d.marshalHang c).settings = d.settings := by
  simp only [Dev.marshalHang, ↓Dev.settings_up, ↓foldl_settings, ↓Dev.raise_settings, ↓Dev.halt_settings,
    ↓Dev.cancelAll_settings, ↓Dev.replace_settings, ↓Dev.notify_settings, ↓apply_ite Dev.settings, ite_self,
    implies_true]

/-! ### Operations of Machine/Marshal -/

theorem Dev.learnRoutes_settings (d : Dev) (b : Body) : (d.learnRoutes b).settings = d.settings :=
  foldl_settings fun _ _ => rfl

theorem Wk.fetchFrom_settings (w : Wk) (c : Fin 128) (s : Nat) : (w.fetchFrom c s).dev.settings = w.dev.settings := by
  simp only [Wk.fetchFrom, Wk.dev_up]
  repeat' split
  all_goals simp only [↓Dev.settings_up, ↓Dev.notify_settings, ↓Dev.raise_settings, ↓Dev.halt_settings,
    ↓Dev.learnRoutes_settings, ↓Dev.setStream_settings, ↓Dev.settle_settings, ↓Dev.cancelHeat_settings]

theorem Dev.doorbell_settings (d : Dev) (c s : Nat) (tail : W32) : (d.doorbell c s tail).settings = d.settings := by
  simp only [Dev.doorbell, ↓Dev.setStream_settings, ↓Dev.raise_settings, ↓Dev.latch_settings, ↓apply_ite Dev.settings,
    ite_self]

theorem Dev.bell_settings (d : Dev) (c s : Nat) (tail : W32) : (d.bell c s tail).settings = d.settings := by
  simp only [Dev.bell, ↓Dev.settings_pcie, ↓Dev.doorbell_settings, ↓apply_ite Dev.settings, ite_self]

theorem Dev.ringBells_settings (d : Dev) : d.ringBells.settings = d.settings := by
  simp only [Dev.ringBells, ↓Dev.settings_pcie, ↓foldl_settings, ↓Dev.doorbell_settings, implies_true]

theorem Dev.report_settings (d : Dev) (c : Nat) : (d.report c).settings = d.settings := by
  simp only [Dev.report, ↓Dev.settings_up, ↓apply_ite Dev.settings, ite_self]

theorem Dev.grants_settings (peak ramp : Nat) (l : List Heat) (n : Nat) (d : Dev) :
    (Dev.grants peak ramp n l d).settings = d.settings := by
  induction l generalizing n d with
  | nil => cases n <;> rfl
  | cons h l ih =>
    cases n with
    | zero => rfl
    | succ n => simp only [Dev.grants, ↓apply_ite Dev.settings, ih, Dev.setHeat_settings, ite_self]

/-! ### Operations of Machine/MemSys -/

theorem Dev.spend_settings (d : Dev) (die cls n : Nat) : (d.spend die cls n).settings = d.settings := by
  simp only [Dev.spend, ↓Dev.settings_up]

theorem Dev.pay_settings (r : Req) (d : Dev) (die : Nat) : (Dev.pay r d die).settings = d.settings := by
  simp only [Dev.pay, ↓Dev.settings_up, ↓Dev.spend_settings]

theorem Dev.claimTarget_settings (d : Dev) (r : Req) : (d.claimTarget r).settings = d.settings := by
  simp only [Dev.claimTarget]
  split <;> simp only [↓foldl_settings, ↓Dev.setHeat_settings, ↓Dev.claimSlot_settings, implies_true]

theorem Dev.issue_settings (d : Dev) (r : Req) : (d.issue r).settings = d.settings := by
  simp only [Dev.issue, ↓Dev.settings_up, ↓foldl_settings, ↓Dev.claimTarget_settings, ↓Dev.pay_settings, implies_true]

theorem Dev.noteWait_settings (d : Dev) (r : Req) : (d.noteWait r).settings = d.settings := by
  simp only [Dev.noteWait, ↓Dev.settings_up, ↓apply_ite Dev.settings, ite_self]

theorem Dev.countPoison_settings (d : Dev) (line : Nat) : (d.countPoison line).settings = d.settings := by
  simp only [Dev.countPoison, ↓Dev.settings_up, ↓Dev.replace_settings, ↓apply_ite Dev.settings, ite_self]

theorem Wk.eccError_settings (line : Nat) (r : Rec) (w : Wk) (e : EccError) :
    (Wk.eccError line r w e).dev.settings = w.dev.settings := by
  simp only [Wk.eccError]
  split <;> simp only [↓Dev.settings_up, ↓Dev.raise_settings, ↓Dev.countPoison_settings, Wk.dev_up, Wk.dev_op,
    ↓apply_ite Dev.settings, ite_self]

theorem Wk.ecc_settings (w : Wk) (line : Nat) (r : Rec) (errs : List EccError) :
    (w.ecc line r errs).dev.settings = w.dev.settings := by
  simp only [Wk.ecc, ↓Wk.each_settings, ↓Wk.eccError_settings, implies_true]

theorem Dev.dropReq_settings (d : Dev) (id : Nat) : (d.dropReq id).settings = d.settings := by
  simp only [Dev.dropReq, ↓Dev.settings_up]

theorem Dev.shardNotice_settings (d : Dev) (mem : Mem) (line : Nat) :
    (d.shardNotice mem line).settings = d.settings := by
  simp only [Dev.shardNotice, ↓Dev.notify_settings, ↓apply_ite Dev.settings, ite_self]

theorem Dev.refuseAtom_settings (d : Dev) (mem : Mem) (r : Req) (line : Nat) :
    (d.refuseAtom mem r line).settings = d.settings := by
  simp only [Dev.refuseAtom]
  repeat' split
  all_goals simp only [↓Dev.settings_up, ↓Dev.raise_settings, ↓Dev.shardNotice_settings, ↓Dev.endHeat_settings,
    ↓Dev.notify_settings]

theorem Dev.saturated_settings (d : Dev) (r : Req) : (d.saturated r).settings = d.settings := by
  simp only [Dev.saturated, ↓Dev.settings_up]

theorem Wk.serve_settings (w : Wk) (r : Req) : (w.serve r).dev.settings = w.dev.settings := by
  simp only [Wk.serve]
  split
  · rfl
  · rfl
  · exact w.hbmPut_settings _ _
  · split
    · simp only [Wk.ite, ↓apply_ite Wk.dev, ↓apply_ite Dev.settings, Wk.dev_up, Dev.saturated_settings,
      Wk.applyAtom_settings, ite_self]
    · simp only [Wk.dev_up, Dev.refuseAtom_settings]

theorem Wk.hostData_settings (w : Wk) (line addr len : Nat) :
    (w.hostData line addr len).dev.settings = w.dev.settings := by
  simp only [Wk.hostData, ↓Dev.emit_settings, ↓Dev.shardNotice_settings, ↓Dev.raise_settings, Wk.dev_up,
    ↓apply_ite Dev.settings, ite_self]

theorem Wk.deliver_settings (w : Wk) (r : Req) (errs : List EccError) :
    (w.deliver r errs).dev.settings = w.dev.settings := by
  simp only [Wk.deliver]
  repeat' split
  all_goals simp only [↓Wk.hostData_settings, ↓Wk.ecc_settings, ↓Dev.shardNotice_settings, ↓Dev.raise_settings,
    ↓Dev.setHeat_settings, Wk.dev_up]

theorem Dev.scrubPay_settings (d : Dev) (die : Nat) : (d.scrubPay die).settings = d.settings := by
  simp only [Dev.scrubPay, ↓Dev.settings_up, ↓Dev.spend_settings, ↓apply_ite Dev.settings, ite_self]

/-! ### Operations of Machine/Work -/

/-- A part's action leaves the settings. -/
def Part.Keeps (p : Part) : Prop := ∀ v w, (p.run v w).1.dev.settings = w.dev.settings

/-- Every part of a plan leaves the settings. -/
def Plan.Keeps (pl : Plan) : Prop := ∀ p ∈ pl.parts, p.Keeps

theorem Wk.upHeat_settings (w : Wk) (id : HeatId) (f : Heat → Heat) :
    (w.upHeat id f).dev.settings = w.dev.settings := by
  simp only [Wk.upHeat, ↓Dev.setHeat_settings, Wk.dev_up]

theorem laneHeads_subset (l : List Part) : laneHeads l ⊆ l := by
  induction l with
  | nil => exact fun _ h => h
  | cons p l ih =>
    rw [laneHeads, List.cons_subset]
    exact ⟨List.mem_cons_self, fun q hq => List.mem_cons_of_mem _ (ih (List.mem_of_mem_filter hq))⟩

/-- The part that runs now is one of the plan's. -/
theorem Dev.pick_mem {d : Dev} {h : Heat} {st : Nat} {pl : Plan} {p : Part} (hp : d.pick h st pl = some p) :
    p ∈ pl.parts :=
  List.mem_of_mem_filter (laneHeads_subset _ (List.mem_of_find?_eq_some hp))

theorem Dev.askPart_settings (h : Heat) (st : Nat) (d : Dev) (p : Part) :
    (Dev.askPart h st d p).settings = d.settings := by
  simp only [Dev.askPart, ↓foldl_settings, ↓Dev.post_settings, ↓Dev.setHeat_settings, implies_true]

theorem Dev.ask_settings (d : Dev) (h : Heat) (st : Nat) (pl : Plan) : (d.ask h st pl).settings = d.settings := by
  simp only [Dev.ask, ↓foldl_settings, ↓Dev.askPart_settings, ↓apply_ite Dev.settings, ite_self, implies_true]

theorem Dev.claimFor_settings (d : Dev) (h : HeatId) (slots : List Nat) :
    (d.claimFor h slots).settings = d.settings := by
  simp only [Dev.claimFor, ↓foldl_settings, ↓Dev.setHeat_settings, ↓Dev.claimSlot_settings, implies_true]

theorem Dev.fillFor_settings (d : Dev) (h : HeatId) (slots : List Nat) : (d.fillFor h slots).settings = d.settings := by
  simp only [Dev.fillFor, ↓foldl_settings, ↓Dev.setHeat_settings, ↓Dev.fillSlot_settings, implies_true]

theorem Dev.consume_settings (d : Dev) (id : HeatId) (st : Nat) (slots : List Nat) :
    (d.consume id st slots).settings = d.settings := by
  simp only [Dev.consume]
  split <;> simp only [↓foldl_settings, ↓Dev.setHeat_settings, ↓Dev.emptySlot_settings, implies_true]

theorem Wk.pondAtom_settings (w : Wk) (id : HeatId) (a : AtomOp) : (w.pondAtom id a).dev.settings = w.dev.settings := by
  simp only [Wk.pondAtom, Wk.ite, ↓apply_ite Wk.dev, ↓apply_ite Dev.settings, Wk.upHeat_settings,
    Wk.applyAtom_settings, ite_self]

theorem Wk.store_settings (w : Wk) (id : HeatId) (who : Requester) (st no : Nat) (ps : List Piece)
    (atoms : List AtomOp) (bad : Bool) : (w.store id who st no ps atoms bad).1.dev.settings = w.dev.settings := by
  simp only [Wk.store]
  split <;> simp only [↓foldl_settings, ↓Wk.each_settings, ↓Dev.endHeat_settings, ↓Wk.pondPieces_settings,
    ↓Wk.pondAtom_settings, ↓Dev.post_settings, Wk.dev_up, ↓apply_ite Prod.fst, ↓apply_ite Wk.dev,
    ↓apply_ite Dev.settings, ite_self, implies_true]

theorem Wk.partRun_settings {w : Wk} {h : Heat} {st : Nat} {temps : List Nat} {rest : List Part} {p : Part} (hp :
    p.Keeps) :
    (w.partRun h st temps rest p).dev.settings = w.dev.settings := by
  have hr := hp (w.view h.id st) (w.up fun d => (d.consume h.id st (p.frees rest)).claimFor h.id p.slots)
  simp only [Wk.dev_up, Dev.claimFor_settings, Dev.consume_settings] at hr
  simp only [Wk.partRun]
  split
  · simp only [Wk.dev_up, Dev.pondPoisonHeat_settings]
  · split <;> rename_i e <;> rw [e] at hr
    · exact hr
    · simpa only [Wk.dev_up, Dev.fillFor_settings, Wk.upHeat_settings] using hr

theorem Dev.finish_settings (d : Dev) (id : HeatId) (st : Nat) (temps : List Nat) :
    (d.finish id st temps).settings = d.settings := by
  simp only [Dev.finish]
  split <;> simp only [↓foldl_settings, ↓Dev.emptySlot_settings, ↓Dev.unclaimSlot_settings, ↓Dev.setHeat_settings,
    implies_true]

theorem Dev.rest_settings (d : Dev) (h : Heat) (st : Nat) (pl : Plan) : (d.rest h st pl).settings = d.settings := by
  simp only [Dev.rest, ↓Dev.finish_settings, ↓Dev.setHeat_settings, ↓apply_ite Dev.settings, ite_self]

theorem Wk.go_settings {mk : Wk → Heat → Plan} (hm : ∀ w h, (mk w h).Keeps) (id : HeatId) (st n : Nat) (w : Wk) :
    (Wk.go mk id st n w).dev.settings = w.dev.settings := by
  induction n generalizing w with
  | zero => rfl
  | succ n ih =>
    simp only [Wk.go]
    split
    · rfl
    · split
      · rfl
      · split
        · simp only [Wk.dev_up, Dev.ask_settings]
        · split
          · rename_i hp
            rw [ih, Wk.partRun_settings (hm _ _ _ (Dev.pick_mem hp))]
            simp only [Wk.dev_up, Dev.ask_settings]
          · simp only [Wk.dev_up, Dev.rest_settings, Dev.ask_settings]

theorem Wk.stage_settings {mk : Wk → Heat → Plan} (hm : ∀ w h, (mk w h).Keeps) (w : Wk) (id : HeatId) (st : Nat) :
    (w.stage mk id st).dev.settings = w.dev.settings := by
  simp only [Wk.stage, Wk.go_settings hm]

theorem Wk.withHeat_settings {w : Wk} {id : HeatId} {f : Heat → Wk → Wk}
    (h : ∀ x w, (f x w).dev.settings = w.dev.settings) : (w.withHeat id f).dev.settings = w.dev.settings := by
  simp only [Wk.withHeat]
  split <;> simp only [h, ↓apply_ite Wk.dev, ↓apply_ite Dev.settings, ite_self]

/-! ### Operations of Machine/Frames -/

theorem Dev.launch_settings (d : Dev) (q : Nat) (s : Sent) (fresh : Bool) :
    (d.launch q s fresh).settings = d.settings := by
  simp only [Dev.launch, ↓Dev.setPort_settings, ↓Dev.emit_settings]

theorem Dev.transmit_settings (d : Dev) (q : Nat) (s : Sent) : (d.transmit q s).settings = d.settings := by
  simp only [Dev.transmit, ↓Dev.launch_settings]

theorem Dev.sendOut_settings (d : Dev) (s : Sent) : (d.sendOut s).settings = d.settings := by
  simp only [Dev.sendOut]
  split <;> simp only [↓Dev.settings_up, ↓Dev.transmit_settings]

theorem Dev.sendFrame_settings (d : Dev) (f : Frame) (heat : Option HeatId) :
    (d.sendFrame f heat).settings = d.settings := by
  simp only [Dev.sendFrame, ↓Dev.sendOut_settings]

theorem Dev.reroute_settings (d : Dev) : d.reroute.settings = d.settings := by
  simp only [Dev.reroute, ↓Dev.settings_up, ↓foldl_settings, ↓Dev.sendOut_settings, implies_true]

theorem Dev.resendStore_settings (d : Dev) (q : Nat) : (d.resendStore q).settings = d.settings := by
  simp only [Dev.resendStore, ↓Dev.settings_up, ↓Dev.setPort_settings, ↓Dev.reroute_settings]

theorem Dev.portEvt_settings (d : Dev) (q n : Nat) : (d.portEvt q n).settings = d.settings := by
  simp only [Dev.portEvt, ↓Dev.msix_settings, ↓Dev.latch_settings, ↓Dev.setPort_settings]

theorem Dev.retryRec_settings (d : Dev) (q seg blk : Nat) : (d.retryRec q seg blk).settings = d.settings := by
  simp only [Dev.retryRec, ↓Dev.portEvt_settings, ↓Dev.raise_settings]

theorem Dev.noteRemap_settings (d : Dev) : d.noteRemap.settings = d.settings := by
  simp only [Dev.noteRemap, ↓Dev.settings_up]

theorem Dev.setPortState_settings (d : Dev) (q : Nat) (st : PortState) :
    (d.setPortState q st).settings = d.settings := by
  simp only [Dev.setPortState, ↓Dev.setPort_settings, ↓Dev.resendStore_settings, ↓Dev.portEvt_settings,
    ↓Dev.noteRemap_settings, ↓Dev.reroute_settings, ↓apply_ite Dev.settings, ite_self]

theorem Dev.setEntries_settings (d : Dev) (l : List Entry) : (d.setEntries l).settings = d.settings := by
  simp only [Dev.setEntries, ↓Dev.settings_up]

theorem Dev.suspect_settings (d : Dev) (q : Nat) : (d.suspect q).settings = d.settings := by
  simp only [Dev.suspect, ↓Dev.setPort_settings, ↓Dev.setPortState_settings, ↓Dev.setEntries_settings,
    ↓Dev.portEvt_settings, ↓Dev.raise_settings, ↓Dev.replace_settings, ↓apply_ite Dev.settings, ite_self]

theorem Dev.sumFaults_settings (d : Dev) (n q seg blk : Nat) : (d.sumFaults n q seg blk).settings = d.settings := by
  simp only [Dev.sumFaults, ↓Dev.retryRec_settings, ↓Dev.suspect_settings, ↓apply_ite Dev.settings, ite_self]

theorem Wk.landAt_settings (w : Wk) (q a : Nat) (data : List Byte) :
    (w.landAt q a data).1.dev.settings = w.dev.settings := by
  simp only [Wk.landAt, ↓foldl_settings, ↓Dev.post_settings, ↓Wk.pondPut_settings, ↓Dev.raise_settings, Wk.dev_up,
    ↓apply_ite Prod.fst, ↓apply_ite Wk.dev, ↓apply_ite Dev.settings, ite_self, implies_true]

theorem Dev.addLanding_settings (d : Dev) (tag count : Nat) (reqs : List Nat) :
    (d.addLanding tag count reqs).settings = d.settings := by
  simp only [Dev.addLanding, ↓Dev.settings_up]

theorem Wk.landUnits_settings (w : Wk) (q tag addr : Nat) (units : List (List Byte)) (gather deq : Bool) (e : Int) :
    (w.landUnits q tag addr units gather deq e).dev.settings = w.dev.settings := by
  simp only [Wk.landUnits, Wk.dev_up, ↓apply_ite Dev.settings, Dev.addLanding_settings, ite_self]
  refine List.foldlRecOn (motive := fun x : Wk × Landed => x.1.dev.settings = w.dev.settings) _ _ rfl fun x hx i _ => ?_
  have hl := x.1.landAt_settings q
  split <;> rename_i e <;> exact ((congrArg (fun y => y.1.dev.settings) e).symm.trans (hl _ _)).trans hx

theorem Wk.accumulate_settings (w : Wk) (r : Route) (x : Entry) : (w.accumulate r x).dev.settings = w.dev.settings := by
  simp only [Wk.accumulate, ↓Dev.addLanding_settings, ↓Dev.post_settings, Wk.dev_up]

theorem Dev.addEntry_settings (d : Dev) (r : Route) (level : Nat) (c : Contrib) :
    (d.addEntry r level c).1.settings = d.settings := by
  simp only [Dev.addEntry, ↓Dev.setEntries_settings, ↓apply_ite Prod.fst, ↓apply_ite Dev.settings, ite_self]

theorem Wk.ownerArrive_settings (w : Wk) (r : Route) (level : Nat) (c : Contrib) :
    (w.ownerArrive r level c).dev.settings = w.dev.settings := by
  have ha := w.dev.addEntry_settings r level c
  simp only [Wk.ownerArrive]
  split
  · simp only [Wk.dev_up, Dev.portEvt_settings, Dev.raise_settings]
  · split <;> rename_i e <;> rw [e] at ha
    · exact ha
    · rw [Wk.accumulate_settings]; exact ha

theorem Wk.passUp_settings (w : Wk) (r : Route) (x : Entry) : (w.passUp r x).dev.settings = w.dev.settings := by
  simp only [Wk.passUp]
  split <;> simp only [↓Wk.ownerArrive_settings, ↓Dev.sendFrame_settings, Wk.dev_up, ↓apply_ite Wk.dev,
    ↓apply_ite Dev.settings, ite_self]

theorem Wk.arrive_settings (w : Wk) (r : Route) (level : Nat) (c : Contrib) :
    (w.arrive r level c).dev.settings = w.dev.settings := by
  have ha := w.dev.addEntry_settings r 1 c
  simp only [Wk.arrive]
  split
  · rfl
  · split
    · split <;> rename_i e <;> rw [e] at ha
      · exact ha
      · rw [Wk.passUp_settings]; exact ha
    · exact w.ownerArrive_settings r level c

theorem Wk.parityArrive_settings (w : Wk) (r : Route) (src mb addr : Nat) (u : List Byte) :
    (w.parityArrive r src mb addr u).dev.settings = w.dev.settings := by
  simp only [Wk.parityArrive, ↓Wk.landUnits_settings, ↓Dev.setEntries_settings, ↓apply_ite Wk.dev,
    ↓apply_ite Dev.settings, ite_self]

theorem Wk.consumeFrame_settings (w : Wk) (q : Nat) (f : Frame) (take : List Nat) :
    (w.consumeFrame q f take).dev.settings = w.dev.settings := by
  simp only [Wk.consumeFrame]
  repeat' split
  all_goals simp only [↓Wk.each_settings, ↓Wk.arrive_settings, ↓Wk.parityArrive_settings, ↓Wk.landUnits_settings,
    implies_true]

theorem Wk.takeLocal_settings (w : Wk) (f : Frame) : (w.takeLocal f).dev.settings = w.dev.settings := by
  simp only [Wk.takeLocal, ↓Dev.settings_up, ↓Wk.consumeFrame_settings, Wk.dev_up, ↓apply_ite Wk.dev,
    ↓apply_ite Dev.settings, ite_self]

theorem Wk.sendSegment_settings (w : Wk) (id : HeatId) (r : Route) (seg : Nat) (vals : List W32) :
    (w.sendSegment id r seg vals).dev.settings = w.dev.settings := by
  simp only [Wk.sendSegment, ↓Wk.each_settings, ↓Wk.upHeat_settings, ↓Wk.takeLocal_settings, ↓Dev.sendFrame_settings,
    Wk.dev_up, ↓apply_ite Wk.dev, ↓apply_ite Dev.settings, ite_self, implies_true]

theorem Wk.sendRaw_settings (w : Wk) (id : HeatId) (r : Route) (data : List Byte) :
    (w.sendRaw id r data).dev.settings = w.dev.settings := by
  simp only [Wk.sendRaw]
  repeat' split
  all_goals simp only [↓Wk.each_settings, ↓Dev.sendFrame_settings, ↓Wk.takeLocal_settings, Wk.dev_up, implies_true]

/-! ### Operations of Machine/Transfer -/

theorem Wk.settings_of_store {w v : Wk} {id : HeatId} {who : Requester} {st no : Nat} {ps : List Piece} {atoms : List
    AtomOp}
    {bad k : Bool} (e : w.store id who st no ps atoms bad = (v, k)) : v.dev.settings = w.dev.settings := by
  have h := w.store_settings id who st no ps atoms bad
  rwa [e] at h

theorem Wk.storeTiles_settings (w : Wk) (h : Heat) (who : Requester) (st no : Nat) (ps : List Piece)
    (q : List (Piece × Piece)) (fold : List AtomOp) :
    (w.storeTiles h who st no ps q fold).1.dev.settings = w.dev.settings := by
  simp only [Wk.storeTiles, ↓Wk.store_settings, ↓Wk.upHeat_settings]

theorem Dev.releaseAll_settings (d : Dev) (h : Heat) (slots : List Nat) :
    (d.releaseAll h slots).settings = d.settings := by
  simp only [Dev.releaseAll, ↓foldl_settings, ↓Dev.setHeat_settings, ↓Dev.emptySlot_settings, implies_true]

theorem Dev.releaseOn_settings (d : Dev) (h : Heat) : (d.releaseOn h).settings = d.settings := by
  simp only [Dev.releaseOn, ↓foldl_settings, ↓Dev.setHeat_settings, ↓Dev.emptySlot_settings, ↓Dev.finish_settings,
    ↓apply_ite Dev.settings, ite_self, implies_true]

theorem Wk.releaseStep_settings (w : Wk) (x : Heat) (a n : Nat) :
    (w.releaseStep x a n).dev.settings = w.dev.settings := by
  simp only [Wk.releaseStep, Wk.dev_up, ↓apply_ite Wk.dev]
  repeat' split
  all_goals simp only [↓Dev.releaseAll_settings, ↓Dev.releaseOn_settings]

theorem Wk.addPond_settings (w : Wk) (id : HeatId) (d : Desc) (x : List Nat × Datum × Bool) :
    (w.addPond id d x).dev.settings = w.dev.settings := by
  simp only [Wk.addPond]
  split <;> simp only [↓Wk.pondAtom_settings, ↓Wk.pondBad_settings, Wk.ite, ↓apply_ite Wk.dev, ↓apply_ite Dev.settings,
    ite_self]

/-! ### Operations of Machine/Relay -/

theorem Dev.forward_settings (d : Dev) (q : Nat) (f : Frame) (take : List Nat) :
    (d.forward q f take).settings = d.settings := by
  simp only [Dev.forward, ↓foldl_settings, ↓Dev.sendFrame_settings, ↓apply_ite Dev.settings, ite_self, implies_true]

theorem Dev.judge_settings (d : Dev) (q ch : Nat) (f : Frame) (take bad : List Nat) :
    (d.judge q ch f take bad).settings = d.settings := by
  simp only [Dev.judge, ↓foldl_settings, ↓Dev.setPort_settings, ↓Dev.retryRec_settings, ↓Dev.send_settings,
    ↓apply_ite Dev.settings, ite_self, implies_true]

theorem Wk.receive_settings (w : Wk) (q : Nat) (f : Frame) (faults : Nat) :
    (w.receive q f faults).1.dev.settings = w.dev.settings := by
  simp only [Wk.receive, ↓Dev.forward_settings, ↓Dev.judge_settings, ↓Wk.consumeFrame_settings,
    ↓Dev.sumFaults_settings, Wk.dev_up, Wk.ite, ↓apply_ite Prod.fst, ↓apply_ite Wk.dev, ↓apply_ite Dev.settings,
    ite_self]

theorem Wk.retryBlocked_settings (w : Wk) : w.retryBlocked.dev.settings = w.dev.settings := by
  simp only [Wk.retryBlocked]
  refine Eq.trans (Wk.each_settings fun w x => ?_) rfl
  have hr := w.receive_settings x.1 (Frame.ofBytes x.2) 0
  split <;> rename_i e <;> rw [e] at hr <;> exact hr

theorem Dev.linkProgress_settings (d : Dev) : d.linkProgress.settings = d.settings := by
  simp only [Dev.linkProgress, ↓Dev.settings_up, ↓apply_ite Dev.settings, ite_self]

theorem Dev.domEvt_settings (d : Dev) (n : Nat) : (d.domEvt n).settings = d.settings := by
  simp only [Dev.domEvt, ↓Dev.settings_up, ↓Dev.msix_settings, ↓Dev.latch_settings]

theorem Dev.dropLane_settings (d : Dev) (q lane : Nat) (margin : Bool) :
    (d.dropLane q lane margin).settings = d.settings := by
  simp only [Dev.dropLane, ↓Dev.setPort_settings, ↓Dev.setPortState_settings, ↓Dev.portEvt_settings,
    ↓Dev.raise_settings, ↓apply_ite Dev.settings, ite_self]

theorem Dev.trainAgain_settings (d : Dev) (q : Nat) : (d.trainAgain q).settings = d.settings := by
  simp only [Dev.trainAgain, ↓Dev.setPort_settings, ↓Dev.setPortState_settings, ↓apply_ite Dev.settings, ite_self]

theorem Dev.bankSet_settings (d : Dev) (v : Nat) : (d.bankSet v).settings = d.settings := by
  simp only [Dev.bankSet, ↓Dev.settings_up, ↓Dev.streamConfig_settings, ↓apply_ite Dev.settings, ite_self]

theorem Dev.landSet_settings (d : Dev) (t : Nat) (v : W32) : (d.landSet t v).settings = d.settings := by
  simp only [Dev.landSet, ↓Dev.settings_up]

theorem Dev.portDisable_settings (d : Dev) (q : Nat) (disable : Bool) :
    (d.portDisable q disable).settings = d.settings := by
  simp only [Dev.portDisable, ↓Dev.setPort_settings, ↓Dev.linkProgress_settings, ↓Dev.setPortState_settings,
    ↓Dev.trainAgain_settings, ↓apply_ite Dev.settings, ite_self]

theorem Dev.clearSuspect_settings (d : Dev) (q : Nat) : (d.clearSuspect q).settings = d.settings := by
  simp only [Dev.clearSuspect, ↓Dev.trainAgain_settings, ↓Dev.setPort_settings, ↓apply_ite Dev.settings, ite_self]

/-! ### Operations of Machine/VectorUnit -/

theorem Wk.addColumns_settings (w : Wk) (x : RowCmd) (started : Bool) (t : Desc) (l : List W32) :
    (w.addColumns x started t l).1.dev.settings = w.dev.settings := by
  simp only [Wk.addColumns, ↓Wk.store_settings]

theorem Wk.chain_settings {l : List (Wk → Wk × Bool)} (h : ∀ f ∈ l, ∀ w : Wk, (f w).1.dev.settings = w.dev.settings)
    (w : Wk) :
    (w.chain l).1.dev.settings = w.dev.settings := by
  induction l generalizing w with
  | nil => rfl
  | cons f l ih =>
    have hf := h f List.mem_cons_self w
    simp only [Wk.chain]
    split
    · rename_i v e
      rw [e] at hf
      exact (ih (fun g hg => h g (List.mem_cons_of_mem _ hg)) v).trans hf
    · exact hf

/-! ### Operations of Machine/Matrix -/

theorem Dev.useWeights_settings (d : Dev) (key : Nat) (b : WBuf) : (d.useWeights key b).settings = d.settings := by
  simp only [Dev.useWeights]
  split <;> simp only [↓Dev.settings_up, ↓apply_ite Dev.settings, ite_self]

theorem MatCtx.compute_settings (x : MatCtx) (u key : Nat) (v : View) (w : Wk) :
    (MatCtx.compute x u key v w).1.dev.settings = w.dev.settings := by
  simp only [MatCtx.compute, ↓Dev.settings_up, ↓foldl_settings, ↓Dev.useWeights_settings, ↓Wk.upHeat_settings,
    Wk.dev_up, ↓apply_ite Dev.settings, ite_self, implies_true]

theorem Dev.dropBuf_settings (d : Dev) (key : Nat) : (d.dropBuf key).settings = d.settings := by
  simp only [Dev.dropBuf, ↓Dev.settings_up]

theorem MatCtx.send_settings (x : MatCtx) (b : AccBuf) (w : Wk) : (x.send b w).1.dev.settings = w.dev.settings := by
  simp only [MatCtx.send]
  split
  · rfl
  split
  · split
    · rfl
    · rw [Wk.store_settings]
  split
  · rw [Wk.sendSegment_settings]
  · rfl
  split
  · split <;> rename_i e
    · exact Wk.settings_of_store e
    · rw [Wk.upHeat_settings, Wk.settings_of_store e]
  · split <;> rename_i e
    · exact Wk.settings_of_store e
    · rw [Wk.upHeat_settings, Wk.settings_of_store e]

theorem Wk.matrixEnd_settings (w : Wk) (m : MatBody) (id : HeatId) (st : Nat) :
    (w.matrixEnd m id st).dev.settings = w.dev.settings := by
  simp only [Wk.matrixEnd]
  split <;> simp only [↓Dev.finish_settings, Wk.dev_up, ↓apply_ite Wk.dev, ↓apply_ite Dev.settings, ite_self]

theorem Wk.drainOut_settings (w : Wk) (x : MatCtx) (b : AccBuf) (key : Nat) :
    (w.drainOut x b key).dev.settings = w.dev.settings := by
  simp only [Wk.drainOut]
  split
  · rw [Wk.upHeat_settings]
  split
  · rw [Wk.upHeat_settings]
  split
  · rw [Wk.dev_up, Dev.pondPoisonHeat_settings]
  split <;> rename_i e <;> have hs := (congrArg (fun y => y.1.dev.settings) e).symm.trans (MatCtx.send_settings ..)
  · simpa only [Wk.dev_up, Dev.claimFor_settings, Dev.consume_settings, Wk.upHeat_settings] using hs
  · rw [Wk.matrixEnd_settings, Wk.dev_up]
    split <;> simpa only [Wk.dev_up, Dev.fillFor_settings, Wk.upHeat_settings, Dev.dropBuf_settings,
      Dev.claimFor_settings,
      Dev.consume_settings] using hs

theorem Dev.again_settings (d : Dev) (b : AccBuf) : (d.again b).settings = d.settings := by
  simp only [Dev.again, ↓Dev.setHeat_settings]

theorem Wk.mismatch_settings (w : Wk) (c core : Nat) : (w.mismatch c core).dev.settings = w.dev.settings := by
  simp only [Wk.mismatch, ↓foldl_settings, ↓Dev.fence_settings, ↓Dev.dropBuf_settings, ↓Dev.again_settings, Wk.dev_up,
    implies_true]

/-! ### Operations of Machine/Update -/

theorem Wk.scratch_settings (w : Wk) (slots : List Nat) : (w.scratch slots).dev.settings = w.dev.settings := by
  simp only [Wk.scratch, ↓Dev.settings_up, ↓Wk.each_settings, ↓Wk.pondPut_settings, Wk.dev_up, Wk.ite,
    ↓apply_ite Wk.dev, ↓apply_ite Dev.settings, ite_self, implies_true]

theorem Wk.judgePin_settings (w : Wk) (h : Heat) (set_ : Nat) (v : W32) :
    (w.judgePin h set_ v).dev.settings = w.dev.settings := by
  simp only [Wk.judgePin]
  split <;> simp only [↓Wk.retireAtOnce_settings, ↓Dev.setWset_settings, ↓Wk.upHeat_settings, ↓Dev.raise_settings,
    Wk.dev_up, ↓apply_ite Wk.dev, ↓apply_ite Dev.settings, ite_self]

theorem Dev.unpin_settings (d : Dev) (h : Heat) (set_ : Nat) (v : W32) : (d.unpin h set_ v).settings = d.settings := by
  simp only [Dev.unpin]
  split <;> simp only [↓Dev.setWset_settings, ↓Dev.raise_settings]

theorem Dev.wsetWrite_settings (d : Dev) (w off : Nat) (ok : Bool) (new : WSet) :
    (d.wsetWrite w off ok new).settings = d.settings := by
  simp only [Dev.wsetWrite, ↓Dev.setWset_settings, ↓Dev.streamConfig_settings, ↓apply_ite Dev.settings, ite_self]

theorem Dev.wsetCfg_settings (d : Dev) (w v : Nat) : (d.wsetCfg w v).settings = d.settings := by
  simp only [Dev.wsetCfg, ↓Dev.wsetWrite_settings]

theorem Dev.wsetSize_settings (d : Dev) (w v : Nat) : (d.wsetSize w v).settings = d.settings := by
  simp only [Dev.wsetSize, ↓Dev.wsetWrite_settings]

theorem Dev.wsetVer_settings (d : Dev) (w v : Nat) : (d.wsetVer w v).settings = d.settings := by
  simp only [Dev.wsetVer, ↓Dev.wsetWrite_settings]

theorem Dev.setRset_settings (d : Dev) (e : Nat) (f : RSet → RSet) : (d.setRset e f).settings = d.settings := by
  simp only [Dev.setRset, ↓Dev.settings_up]

theorem Dev.rsetWrite_settings (d : Dev) (e reg v : Nat) : (d.rsetWrite e reg v).settings = d.settings := by
  simp only [Dev.rsetWrite, ↓Dev.streamConfig_settings, ↓Dev.setRset_settings, ↓apply_ite Dev.settings, ite_self]

/-! ### Operations of Machine/Control -/

theorem Wk.withDirect_settings {w : Wk} {id : HeatId} {f : Heat → Wk → Wk}
    (h : ∀ x w, (f x w).dev.settings = w.dev.settings) : (w.withDirect id f).dev.settings = w.dev.settings := by
  simp only [Wk.withDirect]
  split <;> simp only [h, ↓apply_ite Wk.dev, ↓apply_ite Dev.settings, ite_self]

theorem Dev.stepMarker_settings (d : Dev) : d.stepMarker.settings = d.settings := by
  simp only [Dev.stepMarker, ↓Dev.settings_sec]

theorem Dev.sigSet_settings (d : Dev) (k : Nat) (v : W32) : (d.sigSet k v).settings = d.settings := by
  simp only [Dev.sigSet, ↓Dev.settings_up]

/-! ### Operations of Machine/Image -/

theorem Dev.imgDone_settings (d : Dev) (result sec : Nat) : (d.imgDone result sec).settings = d.settings := by
  simp only [Dev.imgDone, ↓Dev.settings_img, ↓Dev.msix_settings, ↓Dev.latch_settings]

theorem Dev.imgReject_settings (d : Dev) (result sec : Nat) : (d.imgReject result sec).settings = d.settings := by
  simp only [Dev.imgReject, ↓Dev.raise_settings, ↓apply_ite Dev.settings, ite_self]

theorem Dev.loadDone_settings (d : Dev) (mem : Mem) : (d.loadDone mem).settings = d.settings := by
  simp only [Dev.loadDone]
  repeat' split
  all_goals simp only [↓Dev.settings_img, ↓Dev.imgDone_settings, ↓Dev.imgReject_settings]

theorem Dev.commitDone_settings (d : Dev) : d.commitDone.settings = d.settings := by
  simp only [Dev.commitDone]
  repeat' split
  all_goals simp only [↓Dev.settings_img, ↓Dev.imgReject_settings, ↓Dev.imgDone_settings]

theorem Dev.imgCtrl_settings (d : Dev) (v : Nat) : (d.imgCtrl v).settings = d.settings := by
  simp only [Dev.imgCtrl, ↓Dev.settings_img, ↓Dev.imgDone_settings, ↓apply_ite Dev.settings, ite_self]

theorem Dev.extend_settings (d : Dev) (index kind digest : Nat) (lap : W64) :
    (d.extend index kind digest lap).settings = d.settings := by
  simp only [Dev.extend, ↓Dev.settings_boot]

theorem Dev.goLive_settings (d : Dev) : d.goLive.settings = d.settings := by
  simp only [Dev.goLive]
  split <;> simp only [↓Dev.settings_img, ↓Dev.settings_sec, ↓Dev.extend_settings, ↓Dev.msix_settings,
    ↓Dev.latch_settings, ↓apply_ite Dev.settings, ite_self]

theorem Dev.setPair_settings (d : Dev) (period grace : Nat) : (d.setPair period grace).settings = d.settings := by
  simp only [Dev.setPair, ↓Dev.settings_img]

/-! ### Operations of Machine/Rollout -/

theorem CtxRun.put_settings (c : CtxRun) (no : Nat) (es : List (List Nat)) (v : View) (ws : List (Nat × Bool))
    (first : List Piece) (folds : List AtomOp) (f : List Nat → Datum × Bool) (w : Wk) :
    (CtxRun.put c no es v ws first folds f w).1.dev.settings = w.dev.settings := by
  simp only [CtxRun.put, ↓Wk.storeTiles_settings, ↓Wk.store_settings, ↓apply_ite Prod.fst, ↓apply_ite Wk.dev,
    ↓apply_ite Dev.settings, ite_self]

theorem Dev.unbindGroup_settings (d : Dev) (g : Nat) : (d.unbindGroup g).settings = d.settings := by
  simp only [Dev.unbindGroup, ↓foldl_settings, ↓Dev.putCtx_settings, implies_true]

theorem Dev.ctxHostWrite_settings (d : Dev) (id o : Nat) (data : List Byte) :
    (d.ctxHostWrite id o data).settings = d.settings := by
  simp only [Dev.ctxHostWrite, ↓Dev.setCtx_settings, ↓Dev.raise_settings, ↓apply_ite Dev.settings, ite_self]

theorem Dev.ctxWindowWrite_settings (n : Nat) (d : Dev) (a : Nat) (data : List Byte) :
    (d.ctxWindowWrite n a data).settings = d.settings := by
  induction n generalizing d a data with
  | zero => rfl
  | succ n ih => simp only [Dev.ctxWindowWrite, ↓apply_ite Dev.settings, ih, Dev.ctxHostWrite_settings, ite_self]

/-! ### Operations of Machine/Streams -/

theorem Dev.strRing_settings (d : Dev) (c s : Nat) (completion : Bool) (v : Nat) :
    (d.strRing c s completion v).settings = d.settings := by
  simp only [Dev.strRing, ↓Dev.setStream_settings, ↓Dev.streamConfig_settings, ↓apply_ite Dev.settings, ite_self]

theorem Dev.enableStream_settings (d : Dev) (c s : Nat) (on : Bool) :
    (d.enableStream c s on).settings = d.settings := by
  simp only [Dev.enableStream, ↓Dev.streamConfig_settings, ↓Dev.setStream_settings, ↓apply_ite Dev.settings, ite_self]

theorem Dev.hostCancel_settings (d : Dev) (c s : Nat) : (d.hostCancel c s).settings = d.settings := by
  simp only [Dev.hostCancel, ↓Dev.setStream_settings, ↓Dev.cancelAll_settings, ↓apply_ite Dev.settings, ite_self]

/-! ### Operations of Machine/Sweep -/

theorem Dev.setItem_settings (d : Dev) (k : Nat) (f : Item → Item) : (d.setItem k f).settings = d.settings := by
  simp only [Dev.setItem, ↓Dev.settings_up]

theorem Dev.sweepFail_settings (d : Dev) : d.sweepFail.settings = d.settings := by
  simp only [Dev.sweepFail, ↓Dev.settings_up, ↓Dev.msix_settings, ↓Dev.latch_settings]

theorem Dev.coreFail_settings (d : Dev) (c p : Nat) : (d.coreFail c p).settings = d.settings := by
  simp only [Dev.coreFail]
  split <;> simp only [↓Dev.sweepFail_settings, ↓Dev.fence_settings, ↓Dev.fencePhys_settings, ↓Dev.raise_settings]

theorem Dev.itemDone_settings (d : Dev) (k : Nat) : (d.itemDone k).settings = d.settings := by
  simp only [Dev.itemDone, ↓Dev.settings_up, ↓Dev.setItem_settings, ↓apply_ite Dev.settings, ite_self]

theorem Dev.marched_settings (d : Dev) (c p : Nat) : (d.marched c p).settings = d.settings := by
  simp only [Dev.marched]
  split <;> simp only [↓Dev.settings_up]

theorem Wk.marchWord_settings (w : Wk) (e : PondError) : (w.marchWord e).dev.settings = w.dev.settings := by
  simp only [Wk.marchWord]
  repeat' split
  all_goals simp only [↓Dev.settings_up, ↓Wk.pondError_settings, ↓Dev.raise_settings, Wk.dev_up]

theorem Dev.pieceDone_settings (d : Dev) (k : Nat) : (d.pieceDone k).settings = d.settings := by
  simp only [Dev.pieceDone, ↓Dev.setItem_settings]

theorem Wk.sweepStep_settings (w : Wk) (i : SweepItem) (r : SweepResult) :
    (w.sweepStep i r).dev.settings = w.dev.settings := by
  simp only [Wk.sweepStep]
  repeat' split
  all_goals simp only [↓Dev.pieceDone_settings, ↓Dev.itemDone_settings, ↓Dev.marched_settings, ↓Dev.coreFail_settings,
    ↓Dev.dropLane_settings, ↓Dev.sweepFail_settings, ↓Wk.marchWord_settings, Wk.dev_up]

theorem Dev.ageSweep_settings (d : Dev) : d.ageSweep.settings = d.settings := by
  simp only [Dev.ageSweep, ↓Dev.settings_up]

theorem Dev.sweepPass_settings (d : Dev) : d.sweepPass.settings = d.settings := by
  simp only [Dev.sweepPass, ↓Dev.settings_up, ↓apply_ite Dev.settings, ite_self]

theorem Dev.startFull_settings (d : Dev) : d.startFull.settings = d.settings := by
  simp only [Dev.startFull, ↓Dev.settings_up, ↓Dev.msix_settings, ↓Dev.latch_settings]

theorem Dev.sweepFull_settings (d : Dev) : d.sweepFull.settings = d.settings := by
  simp only [Dev.sweepFull, ↓Dev.startFull_settings, ↓Dev.streamConfig_settings, ↓apply_ite Dev.settings, ite_self]

/-! ### Operations of Machine/Securing -/

theorem Dev.sendDown_settings (d : Dev) (x : Decision) : (d.sendDown x).settings = d.settings := by
  simp only [Dev.sendDown, ↓foldl_settings, ↓Dev.send_settings, implies_true]

theorem Dev.decide__settings (d : Dev) (x : Decision) : (d.decide_ x).settings = d.settings := by
  simp only [Dev.decide_, ↓Dev.settings_up, ↓Dev.sendDown_settings]

theorem Dev.act_settings (d : Dev) (verdict pos : Nat) (data : List Byte) (arg : W32) :
    (d.act verdict pos data arg).settings = d.settings := by
  simp only [Dev.act, ↓Dev.decide__settings]

theorem Dev.setPhase_settings (d : Dev) (n : Nat) : (d.setPhase n).settings = d.settings := by
  simp only [Dev.setPhase, ↓Dev.settings_sec, ↓Dev.msix_settings, ↓apply_ite Dev.settings, ite_self]

theorem Dev.setDue_settings (d : Dev) (b : Bool) : (d.setDue b).settings = d.settings := by
  simp only [Dev.setDue, ↓Dev.settings_sec, ↓Dev.msix_settings, ↓apply_ite Dev.settings, ite_self]

theorem Wk.writeRecord_settings (w : Wk) : w.writeRecord.dev.settings = w.dev.settings := by
  simp only [Wk.writeRecord]
  split <;> simp only [↓Wk.hbmPut_settings]

theorem Dev.loadRecord_settings (d : Dev) (r : List Byte) : (d.loadRecord r).settings = d.settings := by
  simp only [Dev.loadRecord, ↓Dev.settings_sec, ↓foldl_settings, ↓Dev.setWset_settings, ↓Dev.setRset_settings,
    ↓Dev.setStream_settings, implies_true]

theorem Wk.loadContexts_settings (w : Wk) : w.loadContexts.dev.settings = w.dev.settings := by
  simp only [Wk.loadContexts]
  split <;> simp only [↓foldl_settings, ↓Dev.setCtx_settings, Wk.dev_up, implies_true]

theorem Wk.copyOut_settings (w : Wk) : w.copyOut.dev.settings = w.dev.settings := by
  simp only [Wk.copyOut, ↓Wk.each_settings, ↓Dev.hbmFresh_settings, Wk.dev_up, Wk.dev_op, ↓apply_ite Wk.dev,
    ↓apply_ite Dev.settings, ite_self, implies_true]

theorem Wk.copyIn_settings (w : Wk) : w.copyIn.dev.settings = w.dev.settings := by
  simp only [Wk.copyIn, ↓Wk.each_settings, ↓Dev.hbmFresh_settings, Wk.dev_up, Wk.dev_op, implies_true]

theorem Dev.noteInterval_settings (d : Dev) : d.noteInterval.settings = d.settings := by
  simp only [Dev.noteInterval, ↓Dev.settings_sec, ↓apply_ite Dev.settings, ite_self]

theorem Dev.setMember_settings (d : Dev) (p : Nat) (f : Member → Member) : (d.setMember p f).settings = d.settings := by
  simp only [Dev.setMember, ↓Dev.settings_up]

theorem Dev.setMState_settings (d : Dev) (p : Nat) (st : MState) : (d.setMState p st).settings = d.settings := by
  simp only [Dev.setMState, ↓Dev.setMember_settings]

theorem Dev.noteExposure_settings (d : Dev) : d.noteExposure.settings = d.settings := by
  simp only [Dev.noteExposure, ↓Dev.settings_sec, ↓foldl_settings, ↓Dev.raise_settings, ↓apply_ite Dev.settings,
    ite_self, implies_true]

theorem Dev.voidSecuring_settings (d : Dev) : d.voidSecuring.settings = d.settings := by
  simp only [Dev.voidSecuring, ↓Dev.settings_sec, ↓Dev.setPhase_settings]

theorem Dev.completePoint_settings (d : Dev) : d.completePoint.settings = d.settings := by
  simp only [Dev.completePoint, ↓Dev.settings_sec]

theorem Dev.verifyLoss_settings (d : Dev) (data : List Byte) : (d.verifyLoss data).settings = d.settings := by
  simp only [Dev.verifyLoss, ↓Dev.settings_sec, ↓Dev.raise_settings, ↓Dev.latch_settings, ↓Dev.act_settings,
    ↓apply_ite Dev.settings, ite_self]

theorem Wk.sendUnit_settings (w : Wk) (dst : Nat) (addr : Nat → Option Nat) (data : List Byte) :
    (w.sendUnit dst addr data).dev.settings = w.dev.settings := by
  refine Wk.each_settings fun w i => ?_
  split
  · rfl
  · exact Dev.sendFrame_settings _ _ _

theorem Wk.sendParity_settings (w : Wk) : w.sendParity.dev.settings = w.dev.settings := by
  simp only [Wk.sendParity]
  split <;> simp only [↓Wk.each_settings, ↓Wk.sendUnit_settings, ↓apply_ite Wk.dev, ↓apply_ite Dev.settings, ite_self,
    implies_true]

theorem Wk.rebuildUnit_settings (w : Wk) (l : List Nat) (scheme lost : Nat) (s : Nat × Nat) :
    (w.rebuildUnit l scheme lost s).1.dev.settings = w.dev.settings := by
  simp only [Wk.rebuildUnit, ↓Wk.sendUnit_settings, ↓apply_ite Prod.fst, ↓apply_ite Wk.dev, ↓apply_ite Dev.settings,
    ite_self]

theorem Wk.sendRebuild_settings (w : Wk) (lost : Nat) : (w.sendRebuild lost).dev.settings = w.dev.settings := by
  simp only [Wk.sendRebuild]
  split
  · rfl
  · simp only [↓apply_ite Wk.dev, ↓apply_ite Dev.settings, Wk.dev_up, Dev.emit_settings, ite_self]
    split
    · rfl
    · exact List.foldlRecOn (motive := fun x : Wk × Bool => x.1.dev.settings = w.dev.settings) _ _ rfl
        fun x hx s _ => (Wk.rebuildUnit_settings ..).trans hx

theorem Wk.rebuildSends_settings (w : Wk) (x : Decision) : (w.rebuildSends x).dev.settings = w.dev.settings := by
  simp only [Wk.rebuildSends, ↓Wk.each_settings, ↓Wk.sendRebuild_settings, ↓apply_ite Wk.dev, ↓apply_ite Dev.settings,
    ite_self, implies_true]

theorem Wk.secureDecision_settings (w : Wk) (x : Decision) : (w.secureDecision x).dev.settings = w.dev.settings := by
  simp only [Wk.secureDecision]
  split <;> simp only [↓Dev.settings_sec, ↓Dev.setDue_settings, ↓Wk.sendParity_settings, ↓Wk.writeRecord_settings,
    ↓Dev.setPhase_settings, ↓Dev.voidSecuring_settings, ↓Dev.completePoint_settings, ↓Dev.noteInterval_settings,
    ↓Dev.verifyLoss_settings, Wk.dev_up, Wk.ite, ↓apply_ite Wk.dev, ↓apply_ite Dev.settings, ite_self]

theorem Dev.unrecoverable_settings (d : Dev) (n : Nat) : (d.unrecoverable n).settings = d.settings := by
  simp only [Dev.unrecoverable, ↓Dev.settings_sec, ↓Dev.raise_settings]

theorem Dev.cancelStreams_settings (d : Dev) : d.cancelStreams.settings = d.settings := by
  simp only [Dev.cancelStreams, ↓foldl_settings, ↓Dev.hostCancel_settings, implies_true]

theorem Dev.unbindAll_settings (d : Dev) : d.unbindAll.settings = d.settings := by
  simp only [Dev.unbindAll, ↓foldl_settings, ↓Dev.unbindGroup_settings, implies_true]

theorem Dev.enterRestore_settings (d : Dev) : d.enterRestore.settings = d.settings := by
  simp only [Dev.enterRestore, ↓Dev.settings_sec, ↓Dev.setPhase_settings]

theorem Dev.startRestore_settings (d : Dev) : d.startRestore.settings = d.settings := by
  have judged : ∀ e : Dev, (if !e.sec.valid then e.unrecoverable (e.pos.getD 0xFFFF) else
      e.tooManyLost.elim e e.unrecoverable).settings = e.settings := by
    intro e
    split
    · exact e.unrecoverable_settings _
    · cases e.tooManyLost with
      | none => rfl
      | some p => exact e.unrecoverable_settings p
  simp only [Dev.startRestore, judged, Dev.enterRestore_settings, Dev.unbindAll_settings, Dev.cancelStreams_settings]

theorem Dev.verifyDigest_settings (d : Dev) (dig : Nat) (copies : List (BitVec 384)) :
    (d.verifyDigest dig copies).settings = d.settings := by
  simp only [Dev.verifyDigest, ↓Dev.settings_sec, ↓Dev.raise_settings, ↓Dev.latch_settings, ↓apply_ite Dev.settings,
    ite_self]

theorem Wk.secCtrl_settings (w : Wk) (v : Nat) : (w.secCtrl v).dev.settings = w.dev.settings := by
  simp only [Wk.secCtrl, ↓Dev.settings_sec, ↓Dev.setPhase_settings, ↓Dev.raise_settings, ↓Dev.latch_settings,
    Wk.dev_up, ↓apply_ite Wk.dev, ↓apply_ite Dev.settings, ite_self]

theorem Dev.countLoss_settings (d : Dev) (p : Nat) : (d.countLoss p).settings = d.settings := by
  simp only [Dev.countLoss, ↓Dev.settings_sec, ↓Dev.setMState_settings, ↓Dev.noteInterval_settings,
    ↓Dev.noteExposure_settings, ↓apply_ite Dev.settings, ite_self]

theorem Dev.lossEffect_settings (d : Dev) (p : Nat) : (d.lossEffect p).settings = d.settings := by
  simp only [Dev.lossEffect, ↓Dev.settings_sec, ↓Dev.countLoss_settings, ↓Dev.startRestore_settings,
    ↓apply_ite Dev.settings, ite_self]

theorem Dev.resumeHalted_settings (d : Dev) : d.resumeHalted.settings = d.settings := by
  simp only [Dev.resumeHalted, ↓foldl_settings, ↓Dev.setStream_settings, implies_true]

theorem Dev.abandonEffect_settings (d : Dev) (p cause : Nat) : (d.abandonEffect p cause).settings = d.settings := by
  simp only [Dev.abandonEffect, ↓Dev.settings_sec, ↓Dev.resumeHalted_settings, ↓Dev.startRestore_settings,
    ↓apply_ite Dev.settings, ite_self]

theorem Dev.startRebuild_settings (d : Dev) : d.startRebuild.settings = d.settings := by
  simp only [Dev.startRebuild, ↓Dev.settings_sec, ↓Dev.setPhase_settings, ↓apply_ite Dev.settings, ite_self]

theorem Dev.resumeAt_settings (d : Dev) : d.resumeAt.settings = d.settings := by
  simp only [Dev.resumeAt, ↓Dev.settings_sec, ↓apply_ite Dev.settings, ite_self]

/-! ### Operations of Machine/Domain -/

theorem Dev.setLock_settings (d : Dev) (b : Bool) : (d.setLock b).settings = d.settings := by
  simp only [Dev.setLock, ↓Dev.settings_up, ↓Dev.msix_settings, ↓apply_ite Dev.settings, ite_self]

theorem Dev.joinStart_settings (d : Dev) : d.joinStart.settings = d.settings := by
  simp only [Dev.joinStart, ↓Dev.settings_up, ↓foldl_settings, ↓Dev.setLock_settings, ↓Dev.trainAgain_settings,
    ↓Dev.linkProgress_settings, ↓apply_ite Dev.settings, ite_self, implies_true]

theorem Dev.sendUp_settings (d : Dev) (m : Message) : (d.sendUp m).settings = d.settings := by
  simp only [Dev.sendUp]
  split <;> simp only [↓Dev.send_settings]

theorem Dev.requestJoin_settings (d : Dev) : d.requestJoin.settings = d.settings := by
  simp only [Dev.requestJoin, ↓Dev.settings_up, ↓Dev.sendUp_settings]

theorem Wk.contribute_settings (w : Wk) (again : Bool) : (w.contribute again).dev.settings = w.dev.settings := by
  have hw : (w.ite again fun w => w.up fun d =>
      let d : Dev := { d with dom := { d.dom with resend := false } }
      d.dom.hurdles.foldl (fun d p => d.sendUp (.contribution p.sent)) d).dev.settings = w.dev.settings := by
    simp only [Wk.ite, ↓apply_ite Wk.dev, ↓apply_ite Dev.settings, Wk.dev_up, ↓foldl_settings, Dev.sendUp_settings,
      Dev.settings_up,
      implies_true, ite_self]
  simp only [Wk.contribute]
  split
  · exact hw
  · refine (Wk.each_settings fun w q => ?_).trans hw
    split
    · rfl
    · simp only [Wk.dev_up, ↓apply_ite Dev.settings, Dev.sendUp_settings, ↓Dev.settings_up, ite_self]

theorem Dev.setLast_settings (d : Dev) (upd cmt : Nat) : (d.setLast upd cmt).settings = d.settings := by
  simp only [Dev.setLast, ↓Dev.settings_up, ↓Dev.msix_settings, ↓apply_ite Dev.settings, ite_self]

theorem Dev.eachWset_settings (d : Dev) (f : WSet → WSet) : (d.eachWset f).settings = d.settings := by
  simp only [Dev.eachWset, ↓foldl_settings, ↓Dev.setWset_settings, implies_true]

theorem Dev.updateDecision_settings (d : Dev) (q : W32) (v : Nat) : (d.updateDecision q v).settings = d.settings := by
  simp only [Dev.updateDecision, ↓Dev.settings_up, ↓Dev.eachWset_settings, ↓Dev.settle_settings, ↓Dev.setLast_settings,
    ↓apply_ite Dev.settings, ite_self]

theorem Dev.commitDecision_settings (d : Dev) (q : W32) (v : Nat) : (d.commitDecision q v).settings = d.settings := by
  simp only [Dev.commitDecision, ↓Dev.settings_up, ↓Dev.eachWset_settings, ↓Dev.settle_settings, ↓Dev.setLast_settings,
    ↓apply_ite Dev.settings, ite_self]

theorem Wk.acceptScale_settings (w : Wk) : w.acceptScale.dev.settings = w.dev.settings := by
  simp only [Wk.acceptScale, ↓Dev.settings_up, ↓Wk.each_settings, ↓Wk.hbmPut_settings, ↓Dev.setRset_settings,
    Wk.dev_up, ↓apply_ite Wk.dev, ↓apply_ite Dev.settings, ite_self, implies_true]

theorem Dev.admitEffect_settings (d : Dev) (p : Nat) : (d.admitEffect p).settings = d.settings := by
  simp only [Dev.admitEffect, ↓Dev.settings_up, ↓Dev.settings_sec, ↓Dev.setMState_settings, ↓Dev.setMember_settings,
    ↓Dev.noteInterval_settings, ↓Dev.noteExposure_settings, ↓Dev.startRebuild_settings, ↓Dev.domEvt_settings,
    ↓apply_ite Dev.settings, ite_self]

theorem Dev.refuseEffect_settings (d : Dev) (p cause : Nat) : (d.refuseEffect p cause).settings = d.settings := by
  simp only [Dev.refuseEffect, ↓Dev.settings_up, ↓Dev.setMState_settings, ↓Dev.domEvt_settings,
    ↓apply_ite Dev.settings, ite_self]

theorem Dev.takeoverEffect_settings (d : Dev) (p : Nat) : (d.takeoverEffect p).settings = d.settings := by
  simp only [Dev.takeoverEffect, ↓Dev.settings_up, ↓Dev.domEvt_settings]

theorem Dev.action_settings (d : Dev) (x : Decision) : (d.action x).settings = d.settings := by
  simp only [Dev.action]
  split <;> simp only [↓Dev.admitEffect_settings, ↓Dev.refuseEffect_settings, ↓Dev.lossEffect_settings,
    ↓Dev.joinStart_settings, ↓Dev.abandonEffect_settings, ↓Dev.takeoverEffect_settings, ↓Dev.setPair_settings,
    ↓apply_ite Dev.settings, ite_self]

theorem Wk.retireHurdle_settings (w : Wk) (q : W32) : (w.retireHurdle q).dev.settings = w.dev.settings := by
  simp only [Wk.retireHurdle, ↓Wk.each_settings, ↓Wk.retire_settings, ↓apply_ite Wk.dev, ↓apply_ite Dev.settings,
    ite_self, implies_true]

theorem Wk.applyDecision_settings (w : Wk) (x : Decision) : (w.applyDecision x).dev.settings = w.dev.settings := by
  simp only [Wk.applyDecision]
  repeat' split
  all_goals simp only [↓Dev.settings_up, ↓Wk.rebuildSends_settings, ↓Dev.action_settings, ↓Dev.updateDecision_settings,
    ↓Dev.commitDecision_settings, ↓Wk.acceptScale_settings, ↓Wk.secureDecision_settings, ↓Wk.retireHurdle_settings,
    Wk.dev_up, Wk.ite, ↓apply_ite Wk.dev, ↓apply_ite Dev.settings, ite_self]

theorem Wk.decisions_settings (w : Wk) : w.decisions.dev.settings = w.dev.settings := by
  simp only [Wk.decisions, ↓Dev.settings_up, ↓Wk.each_settings, ↓Wk.retireHurdle_settings, ↓Wk.applyDecision_settings,
    Wk.dev_up, Wk.ite, ↓apply_ite Wk.dev, ↓apply_ite Dev.settings, ite_self, implies_true]

theorem Dev.declareLost_settings (d : Dev) (p : Nat) : (d.declareLost p).settings = d.settings := by
  simp only [Dev.declareLost, ↓Dev.act_settings, ↓apply_ite Dev.settings, ite_self]

theorem Dev.noteMissing_settings (d : Dev) (present : List Nat) : (d.noteMissing present).settings = d.settings := by
  simp only [Dev.noteMissing, ↓foldl_settings, ↓Dev.setMember_settings, ↓Dev.setMState_settings,
    ↓Dev.declareLost_settings, ↓apply_ite Dev.settings, ite_self, implies_true]

theorem Dev.decideOne_settings (d : Dev) (q : W32) : (d.decideOne q).settings = d.settings := by
  simp only [Dev.decideOne, ↓Dev.decide__settings]

theorem Dev.settleNotice_settings (d : Dev) (n : Notice) : (d.settleNotice n).settings = d.settings := by
  simp only [Dev.settleNotice]
  split <;> simp only [↓Dev.act_settings, ↓Dev.declareLost_settings, ↓Dev.setMember_settings]

theorem Dev.depose_settings (d : Dev) (p : Nat) : (d.depose p).settings = d.settings := by
  simp only [Dev.depose, ↓Dev.settings_up, ↓Dev.raise_settings]

theorem Dev.lateDecision_settings (d : Dev) (x : Decision) : (d.lateDecision x).settings = d.settings := by
  simp only [Dev.lateDecision, ↓Dev.settings_up, ↓Dev.raise_settings, ↓Dev.notify_settings, ↓Dev.domEvt_settings]

theorem Dev.takeDecision_settings (d : Dev) (x : Decision) : (d.takeDecision x).settings = d.settings := by
  simp only [Dev.takeDecision, ↓Dev.settings_up, ↓Dev.depose_settings, ↓Dev.joinStart_settings,
    ↓Dev.lateDecision_settings, ↓apply_ite Dev.settings, ite_self]

theorem Dev.sendTakeover_settings (d : Dev) : d.sendTakeover.settings = d.settings := by
  simp only [Dev.sendTakeover, ↓Dev.settings_up, ↓Dev.act_settings, ↓apply_ite Dev.settings, ite_self]

/-! ### Operations of Machine/Laps -/

theorem Dev.countTick_settings (d : Dev) : d.countTick.settings = d.settings := by
  simp only [Dev.countTick, ↓Dev.settings_up]

theorem Dev.overrunRec_settings (d : Dev) (c s : Nat) (id idx : W32) (kind disp addr slot writer : Nat) :
    (d.overrunRec c s id idx kind disp addr slot writer).settings = d.settings := by
  simp only [Dev.overrunRec, ↓Dev.settings_up, ↓Dev.raise_settings]

theorem Dev.heatOverrun_settings (d : Dev) (h : Heat) (stall : Option (Nat × Bool)) :
    (d.heatOverrun h stall).settings = d.settings := by
  simp only [Dev.heatOverrun]
  split <;> simp only [↓Dev.overrunRec_settings]

theorem Dev.haltLate_settings (d : Dev) (c : Nat) : (d.haltLate c).settings = d.settings := by
  simp only [Dev.haltLate, ↓foldl_settings, ↓Dev.halt_settings, implies_true]

theorem Dev.overrun_settings (d : Dev) : d.overrun.settings = d.settings := by
  simp only [Dev.overrun, ↓Dev.settings_up, ↓foldl_settings, ↓Dev.haltLate_settings, ↓Dev.heatOverrun_settings,
    ↓Dev.cancelRunning_settings, implies_true]

theorem Dev.graceUse_settings (d : Dev) : d.graceUse.settings = d.settings := by
  simp only [Dev.graceUse, ↓Dev.settings_up, ↓foldl_settings, ↓Dev.overrunRec_settings, implies_true]

theorem Dev.acquire_settings (d : Dev) (lap : W64) : (d.acquire lap).settings = d.settings := by
  simp only [Dev.acquire, ↓Dev.settings_up, ↓Dev.setPair_settings, ↓Dev.setLock_settings, ↓Dev.requestJoin_settings,
    ↓apply_ite Dev.settings, ite_self]

theorem Dev.turnLap_settings (d : Dev) : d.turnLap.settings = d.settings := by
  simp only [Dev.turnLap]
  split <;> simp only [↓Dev.settings_up, ↓Dev.acquire_settings]

theorem Dev.sendPeriod_settings (d : Dev) (k : Conf) : (d.sendPeriod k).settings = d.settings := by
  simp only [Dev.sendPeriod, ↓Dev.settings_img, ↓Dev.act_settings]

theorem Dev.newRoles_settings (d : Dev) (was : Nat) : (d.newRoles was).settings = d.settings := by
  simp only [Dev.newRoles, ↓Dev.settings_up, ↓Dev.setLock_settings, ↓apply_ite Dev.settings, ite_self]

theorem Dev.pendingEdge_settings (d : Dev) (quiesced : Bool) : (d.pendingEdge quiesced).settings = d.settings := by
  simp only [Dev.pendingEdge]
  split <;> simp only [↓Dev.settings_img, ↓Dev.sendPeriod_settings, ↓Dev.goLive_settings, ↓Dev.newRoles_settings,
    ↓Dev.joinStart_settings, ↓apply_ite Dev.settings, ite_self]

theorem Dev.ageHeats_settings (d : Dev) : d.ageHeats.settings = d.settings := by
  simp only [Dev.ageHeats, ↓Dev.settings_up]

theorem Dev.urgent_settings (d : Dev) (mem : Mem) : (d.urgent mem).settings = d.settings := by
  simp only [Dev.urgent, ↓foldl_settings, ↓Dev.dispatch_settings, ↓apply_ite Dev.settings, ite_self, implies_true]

theorem Dev.edgeMessages_settings (d : Dev) : d.edgeMessages.settings = d.settings := by
  simp only [Dev.edgeMessages, ↓foldl_settings, ↓Dev.send_settings, ↓Dev.sendUp_settings, ↓apply_ite Dev.settings,
    ite_self, implies_true]

theorem Dev.openLap_settings (d : Dev) (mem : Mem) : (d.openLap mem).settings = d.settings := by
  simp only [Dev.openLap, ↓Dev.noteG_settings, ↓Dev.urgent_settings, ↓Dev.ageSweep_settings, ↓Dev.ageHeats_settings,
    ↓apply_ite Dev.settings, ite_self]

theorem Dev.edgeFields_settings (d : Dev) : d.edgeFields.settings = d.settings := by
  simp only [Dev.edgeFields, ↓Dev.settings_up]

theorem Wk.pendingEdge_settings (w : Wk) (quiesced : Bool) :
    (w.pendingEdge quiesced).dev.settings = w.dev.settings := by
  simp only [Wk.pendingEdge, Wk.ite]
  split <;> exact w.dev.pendingEdge_settings quiesced

theorem Wk.edge_settings (w : Wk) : w.edge.dev.settings = w.dev.settings := by
  simp only [Wk.edge, ↓Dev.turnLap_settings, ↓Dev.graceUse_settings, ↓Wk.decisions_settings, ↓Wk.pendingEdge_settings,
    ↓Dev.settle_settings, ↓Dev.edgeMessages_settings, ↓Dev.sendTakeover_settings, ↓Dev.sweepPass_settings,
    ↓Dev.resumeAt_settings, ↓Dev.edgeFields_settings, ↓Wk.contribute_settings, ↓Wk.retryBlocked_settings,
    ↓Dev.openLap_settings, Wk.dev_up]

/-! ### Operations of Machine/Security -/

theorem Dev.bootDone_settings (d : Dev) (result : Nat) : (d.bootDone result).settings = d.settings := by
  simp only [Dev.bootDone, ↓Dev.settings_boot, ↓Dev.latch_settings]

theorem Dev.setDebug_settings (d : Dev) (st : DebugState) (scope : Nat) :
    (d.setDebug st scope).settings = d.settings := by
  simp only [Dev.setDebug, ↓Dev.settings_boot, ↓Dev.raise_settings, ↓apply_ite Dev.settings, ite_self]

theorem Wk.unlockDebug_settings (w : Wk) : w.unlockDebug.dev.settings = w.dev.settings := by
  simp only [Wk.unlockDebug, ↓Dev.settings_boot, ↓Dev.bootDone_settings, ↓Dev.extend_settings, ↓Dev.setDebug_settings,
    Wk.dev_up, ↓apply_ite Dev.settings, ite_self]

theorem Dev.lockDebug_settings (d : Dev) : d.lockDebug.settings = d.settings := by
  simp only [Dev.lockDebug, ↓Dev.bootDone_settings, ↓Dev.setDebug_settings, ↓apply_ite Dev.settings, ite_self]

/-! ### Operations of Machine/Registers -/

theorem Dev.setShadow_settings (d : Dev) (f : Conf → Conf) : (d.setShadow f).settings = d.settings := by
  simp only [Dev.setShadow, ↓Dev.settings_img]

theorem Dev.cageRetry_settings (d : Dev) (m : BitVec 16) : (d.cageRetry m).settings = d.settings := by
  simp only [Dev.cageRetry, ↓Dev.settings_up, ↓foldl_settings, ↓Dev.trainAgain_settings, implies_true]

theorem Dev.cageClear_settings (d : Dev) (m : BitVec 16) : (d.cageClear m).settings = d.settings := by
  simp only [Dev.cageClear, ↓Dev.cageRetry_settings]

theorem Dev.protWrite_settings (d : Dev) (v : Nat) : (d.protWrite v).settings = d.settings := by
  simp only [Dev.protWrite, ↓Dev.settings_up, ↓Dev.cageClear_settings]

theorem Dev.portCtrl_settings (d : Dev) (q v : Nat) : (d.portCtrl q v).settings = d.settings := by
  simp only [Dev.portCtrl, ↓Dev.portDisable_settings, ↓Dev.trainAgain_settings, ↓Dev.clearSuspect_settings,
    ↓apply_ite Dev.settings, ite_self]

theorem Dev.strCtrl_settings (d : Dev) (c s v : Nat) : (d.strCtrl c s v).settings = d.settings := by
  simp only [Dev.strCtrl, ↓Dev.enableStream_settings, ↓Dev.hostCancel_settings, ↓apply_ite Dev.settings, ite_self]

theorem Dev.strWrite_settings (d : Dev) (c s o v : Nat) : (d.strWrite c s o v).settings = d.settings := by
  simp only [Dev.strWrite, ↓Dev.strCtrl_settings, ↓Dev.setStream_settings, ↓apply_ite Dev.settings, ite_self]

theorem Dev.msixFlush_settings (d : Dev) : d.msixFlush.settings = d.settings := by
  simp only [Dev.msixFlush, ↓Dev.settings_pcie, ↓foldl_settings, ↓Dev.emit_settings, ↓apply_ite Dev.settings, ite_self,
    implies_true]

theorem Dev.stop_settings (d : Dev) : d.stop.settings = d.settings := by
  simp only [Dev.stop, ↓Dev.settings_up, ↓Dev.notify_settings, ↓apply_ite Dev.settings, ite_self]

theorem Dev.unserved_settings (d : Dev) (o v : Nat) : (d.unserved o v).settings = d.settings := by
  simp only [Dev.unserved, ↓Dev.streamConfig_settings, ↓apply_ite Dev.settings, ite_self]

/-! ### Operations of Machine/HostIf -/

theorem Wk.hostGo_settings (errs : List (Nat × EccError)) (n : Nat) (w : Wk) :
    (Wk.hostGo errs n w).dev.settings = w.dev.settings := by
  induction n generalizing w with
  | zero => rfl
  | succ n ih =>
    simp only [Wk.hostGo]
    split
    · rfl
    · simp only [↓apply_ite Wk.dev, ↓apply_ite Dev.settings, ih, Wk.ite, Wk.dev_up, Dev.ringBells_settings,
      Dev.dropReq_settings,
        Wk.deliver_settings, Wk.serve_settings, Wk.ecc_settings, Dev.issue_settings, Dev.noteWait_settings, ite_self]

theorem Wk.hostRun_settings (w : Wk) (errs : List (Nat × EccError)) : (w.hostRun errs).dev.settings = w.dev.settings :=
  Wk.hostGo_settings errs _ w

theorem Dev.bar4Read_settings (d : Dev) (a n : Nat) : (d.bar4Read a n).settings = d.settings := by
  simp only [Dev.bar4Read, ↓foldl_settings, ↓Dev.post_settings, implies_true]

theorem Dev.bar4Write_settings (d : Dev) (a : Nat) (data : List Byte) : (d.bar4Write a data).settings = d.settings := by
  simp only [Dev.bar4Write, ↓foldl_settings, ↓Dev.post_settings, implies_true]

theorem Dev.ringWrite_settings (d : Dev) (r : Rec) (rest : List Rec) : (d.ringWrite r rest).settings = d.settings := by
  simp only [Dev.ringWrite, Dev.msix_settings]
  rfl

theorem Dev.mctp_settings (d : Dev) (kind : Nat) (request : List Byte) :
    (d.mctp kind request).settings = d.settings := by
  simp only [Dev.mctp, ↓Dev.settings_up, ↓Dev.emit_settings, ↓apply_ite Dev.settings, ite_self]

/-! ### Operations of Machine/Power -/

theorem Dev.say_settings (d : Dev) (r : Rec) : (d.say r).settings = d.settings := by
  simp only [Dev.say, ↓Dev.raise_settings, ↓apply_ite Dev.settings, ite_self]

theorem Dev.sayOnce_settings (d : Dev) (key : Nat) (r : Rec) : (d.sayOnce key r).settings = d.settings := by
  simp only [Dev.sayOnce, ↓Dev.raiseOnce_settings, ↓apply_ite Dev.settings, ite_self]

theorem Dev.setCond_settings (d : Dev) (k : Nat) (c : CondState) : (d.setCond k c).settings = d.settings := by
  simp only [Dev.setCond, ↓Dev.settings_up]

theorem Dev.pwrEvt_settings (d : Dev) (m : BitVec 9) : (d.pwrEvt m).settings = d.settings := by
  simp only [Dev.pwrEvt, ↓Dev.settings_up, ↓foldl_settings, ↓Dev.msix_settings, ↓Dev.latch_settings,
    ↓apply_ite Dev.settings, ite_self, implies_true]

theorem Dev.showRung_settings (d : Dev) : d.showRung.settings = d.settings := by
  simp only [Dev.showRung, ↓Dev.settings_up, ↓apply_ite Dev.settings, ite_self]

theorem Dev.cancelEverywhere_settings (d : Dev) : d.cancelEverywhere.settings = d.settings := by
  simp only [Dev.cancelEverywhere, ↓foldl_settings, ↓Dev.cancelRunning_settings, implies_true]

theorem Dev.shutdown_settings (d : Dev) (atOnce : Bool) : (d.shutdown atOnce).settings = d.settings := by
  simp only [Dev.shutdown, ↓Dev.settings_up, ↓Dev.raise_settings, ↓Dev.notify_settings, ↓Dev.cancelEverywhere_settings,
    ↓apply_ite Dev.settings, ite_self]

theorem Dev.ladder_settings (d : Dev) (atOnce : Bool) : (d.ladder atOnce).settings = d.settings := by
  simp only [Dev.ladder, ↓Dev.settings_up, ↓Dev.showRung_settings, ↓Dev.say_settings, ↓Dev.pwrEvt_settings,
    ↓Dev.shutdown_settings, ↓apply_ite Dev.settings, ite_self]

theorem Dev.showActive_settings (d : Dev) : d.showActive.settings = d.settings := by
  simp only [Dev.showActive, ↓Dev.settings_up, ↓Dev.pwrEvt_settings]

theorem Dev.setConds_settings (d : Dev) (l : List (Nat × CondState)) (reading : Nat → Nat) (atOnce : Bool) :
    (d.setConds l reading atOnce).settings = d.settings := by
  simp only [Dev.setConds, ↓foldl_settings, ↓Dev.setCond_settings, ↓Dev.showActive_settings, ↓Dev.say_settings,
    ↓Dev.ladder_settings, implies_true]

theorem Dev.readings_settings (d : Dev) (r : Sensors) : (d.readings r).settings = d.settings := by
  simp only [Dev.readings, ↓Dev.settings_up]

theorem Dev.overvoltage_settings (d : Dev) (mv : Nat) : (d.overvoltage mv).settings = d.settings := by
  simp only [Dev.overvoltage, ↓Dev.settings_up, ↓Dev.setCond_settings, ↓Dev.latch_settings, ↓Dev.msix_settings,
    ↓Dev.say_settings, ↓apply_ite Dev.settings, ite_self]

theorem Dev.sensorFaults_settings (d : Dev) (failed : BitVec 32) : (d.sensorFaults failed).settings = d.settings := by
  simp only [Dev.sensorFaults, ↓foldl_settings, ↓Dev.replace_settings, ↓Dev.sayOnce_settings, ↓apply_ite Dev.settings,
    ite_self, implies_true]

theorem Dev.leakFault_settings (d : Dev) (leak : BitVec 2) : (d.leakFault leak).settings = d.settings := by
  simp only [Dev.leakFault, ↓Dev.replace_settings, ↓Dev.sayOnce_settings, ↓apply_ite Dev.settings, ite_self]

theorem Dev.railFault_settings (d : Dev) (rail : Nat) : (d.railFault rail).settings = d.settings := by
  simp only [Dev.railFault, ↓Dev.replace_settings, ↓Dev.sayOnce_settings, ↓Dev.setConds_settings]

theorem Dev.contend_settings (d : Dev) (n : Nat) : (d.contend n).settings = d.settings := by
  simp only [Dev.contend, ↓Dev.settings_up, ↓Dev.say_settings, ↓Dev.msix_settings, ↓Dev.latch_settings,
    ↓apply_ite Dev.settings, ite_self]

/-! ### Operations of Machine/Startup -/

theorem Wk.wipe_settings (w : Wk) : w.wipe.dev.settings = w.dev.settings := by
  simp only [Wk.wipe, Wk.dev_op]

theorem Dev.atStep_settings (d : Dev) (n : Nat) : (d.atStep n).settings = d.settings := by
  simp only [Dev.atStep, ↓Dev.settings_up]

theorem Dev.measure_settings (d : Dev) (index kind digest : Nat) :
    (d.measure index kind digest).settings = d.settings := by
  simp only [Dev.measure, ↓Dev.extend_settings]

theorem Dev.enterBoot_settings (d : Dev) : d.enterBoot.settings = d.settings := by
  simp only [Dev.enterBoot, ↓Dev.settings_up, ↓Dev.atStep_settings, ↓Dev.raise_settings, ↓Dev.msix_settings,
    ↓apply_ite Dev.settings, ite_self]

theorem Dev.railsUp_settings (d : Dev) : d.railsUp.settings = d.settings := by
  simp only [Dev.railsUp, ↓Dev.settings_up, ↓Dev.atStep_settings, ↓Dev.enterBoot_settings, ↓apply_ite Dev.settings,
    ite_self]

theorem Dev.booted_settings (d : Dev) (slotB aFailed bFailed : Bool) :
    (d.booted slotB aFailed bFailed).settings = d.settings := by
  simp only [Dev.booted, ↓Dev.settings_boot, ↓Dev.measure_settings, ↓Dev.raise_settings, ↓Dev.atStep_settings,
    ↓apply_ite Dev.settings, ite_self]

theorem Dev.runtimeUp_settings (d : Dev) : d.runtimeUp.settings = d.settings := by
  simp only [Dev.runtimeUp, ↓Dev.measure_settings, ↓Dev.atStep_settings]

theorem Dev.ready_settings (d : Dev) : d.ready.settings = d.settings := by
  simp only [Dev.ready, ↓Dev.raise_settings, ↓Dev.atStep_settings]

theorem Wk.stepDone_settings (w : Wk) : w.stepDone.dev.settings = w.dev.settings := by
  simp only [Wk.stepDone, ↓Dev.settings_up, ↓Dev.railsUp_settings, ↓Dev.runtimeUp_settings, ↓Dev.startFull_settings,
    ↓Dev.atStep_settings, ↓Dev.ready_settings, Wk.dev_up, ↓apply_ite Wk.dev, ↓apply_ite Dev.settings, ite_self]

theorem Dev.clearStreams_settings (d : Dev) : d.clearStreams.settings = d.settings := by
  simp only [Dev.clearStreams, ↓foldl_settings, ↓Dev.setStream_settings, ↓Dev.hostCancel_settings, implies_true]

end Sys2Proof.Machine
end

section
/-! PARTS AND PLANS: the bodies of the heats are lists of parts; a plan keeps the settings where each of its parts does. -/

namespace Sys2Proof.Machine
open Sys2Proof.Config

/-- What holds of `f i x` for every place and member holds of all that `mapIdx` gives. -/
theorem forall_mem_mapIdx {α β : Type} {P : β → Prop} {f : Nat → α → β} {l : List α} (h : ∀ i x, P (f i x)) :
    ∀ y ∈ l.mapIdx f, P y := by
  intro y hy
  obtain ⟨i, hi, rfl⟩ := List.mem_mapIdx.mp hy
  exact h i _

/-- A stored piece of work leaves the settings. -/
theorem wordsPart_keeps {who : Requester} {reads : List Rd} {wacc : Nat} {id : HeatId} {st : Nat}
    {f : View → Wk → Except (Wk → Wk) (List (Nat × Bool))}
    (h : ∀ v w g, f v w = .error g → (g w).dev.settings = w.dev.settings) : (wordsPart who reads wacc id st f).Keeps := by
  intro v w
  simp only [wordsPart]
  split
  · rename_i e; exact h _ _ _ e
  · exact w.upHeat_settings _ _

theorem wordsPart_keeps_ok {who : Requester} {reads : List Rd} {wacc : Nat} {id : HeatId} {st : Nat}
    {f : View → List (Nat × Bool)} :
    (wordsPart who reads wacc id st fun v _ => .ok (f v)).Keeps :=
  wordsPart_keeps fun _ _ _ e => nomatch e

theorem tileEntries_keeps {w : Wk} {h : Heat} {who : Requester} {st acc : Nat} {o : Desc} {ws : List (Nat × Bool)}
    {no first : Nat} {tiles : List Nat} {after : Nat} : (tileEntries w h who st acc o ws no first tiles after).Keeps :=
  fun _ _ => Wk.store_settings ..

theorem slotPart_keeps {h : Heat} {st : Nat} {out : Desc} {reads : Nat → List (List Nat) → List Rd}
    {f : View → Except Unit (List Nat → Datum × Bool)} {k : Nat} {x : Nat × List (List Nat)} :
    (slotPart h st out reads f k x).Keeps := by
  intro v w
  simp only [slotPart]
  split
  · rw [Wk.dev_up]
    split
    · exact Dev.endHeat_settings ..
    · rfl
  · exact Wk.store_settings ..

theorem MoveCtx.part_keeps {x : MoveCtx} {mem : Mem} {k : Nat} {es : List (List Nat)} : (x.part mem k es).Keeps :=
  fun _ _ => Wk.store_settings ..

theorem MoveCtx.addPart_keeps {x : MoveCtx} {mem : Mem} {gs : List (List (List Nat))} : (x.addPart mem gs).Keeps :=
  fun _ _ => Wk.store_settings ..

theorem MoveCtx.tiled_keeps {x : MoveCtx} {w : Wk} {k base : Nat} : ∀ p ∈ x.tiled w k base, p.Keeps := by
  induction k generalizing base with
  | zero => simp [MoveCtx.tiled]
  | succ k ih =>
    intro p hp
    rcases List.mem_append.mp hp with h | h
    · rcases List.mem_pair.mp h with rfl | rfl
      · exact fun _ _ => Wk.storeTiles_settings ..
      · exact tileEntries_keeps
    · exact ih p h

theorem MoveCtx.feedPart_keeps {x : MoveCtx} {mem : Mem} {thin : Bool} {n : Nat} : (x.feedPart mem thin n).Keeps :=
  fun _ _ => Wk.store_settings ..

theorem movePlan_keeps {st : Nat} {s d : Desc} {keep : Bool} {later : List Stage} {w : Wk} {h : Heat} :
    (movePlan st s d keep later w h).Keeps := by
  simp only [movePlan]
  split
  · exact List.forall_mem_map.mpr fun n _ => MoveCtx.feedPart_keeps
  split
  · exact List.forall_mem_singleton.mpr wordsPart_keeps_ok
  split
  · exact MoveCtx.tiled_keeps
  split
  · exact List.forall_mem_singleton.mpr MoveCtx.addPart_keeps
  · exact forall_mem_mapIdx fun _ _ => MoveCtx.part_keeps

theorem fillPlan_keeps {cfmt first count : Nat} {v : W64} {w : Wk} {h : Heat} : (fillPlan cfmt first count v w h).Keeps :=
  List.forall_mem_map.mpr fun _ _ _ w => w.pondPut_settings _ _

theorem copyPlan_keeps {src dst count : Nat} {keep : Bool} {w : Wk} {h : Heat} : (copyPlan src dst count keep w h).Keeps :=
  List.forall_mem_map.mpr fun _ _ _ w => w.pondPut_settings _ _

theorem indexPart_keeps {h : Heat} {st : Nat} {t ix : Desc} {keep strict : Bool} {src dst : Desc} :
    (indexPart h st t ix keep strict src dst).Keeps := by
  unfold indexPart
  refine wordsPart_keeps fun v w g e => ?_
  dsimp only at e
  split at e
  · cases e
    rw [Wk.dev_up]
    split
    · exact Dev.faultHeat_settings ..
    · rfl
  · split at e <;> cases e
    rw [Wk.dev_up]
    split
    · exact Dev.endHeat_settings ..
    · rfl

theorem RowCtx.gatherPart_keeps {x : RowCtx} {w : Wk} {d : Desc} {no lo n : Nat} : (x.gatherPart w d no lo n).Keeps := by
  intro v w
  simp only [RowCtx.gatherPart]
  split
  · exact Wk.store_settings ..
  split
  · exact Wk.storeTiles_settings ..
  · exact Wk.store_settings ..

theorem gatherPlan_keeps {st : Nat} {t ix d : Desc} {keep : Bool} {w : Wk} {h : Heat} :
    (gatherPlan st t ix d keep w h).Keeps := by
  simp only [gatherPlan]
  split
  · exact List.forall_mem_singleton.mpr indexPart_keeps
  · refine List.forall_mem_flatten.mpr (List.forall_mem_map.mpr fun k _ =>
      List.forall_mem_cons.mpr ⟨RowCtx.gatherPart_keeps, ?_⟩)
    split
    · exact List.forall_mem_nil _
    · exact List.forall_mem_singleton.mpr tileEntries_keeps

theorem RowCtx.scatterPart_keeps {x : RowCtx} {w : Wk} {sr : Desc} {keep : Bool} {j : Nat} :
    (x.scatterPart w sr keep j).Keeps := by
  intro v w
  simp only [RowCtx.scatterPart]
  split
  · split
    · rw [Wk.dev_up]
      split
      · exact Dev.pondPoisonHeat_settings ..
      · rfl
    · rw [Wk.store_settings]
      exact Wk.each_settings fun w y => w.addPond_settings ..
  split
  · exact Wk.store_settings ..
  split <;> exact Wk.store_settings ..

theorem RowCtx.mixPart_keeps {x : RowCtx} {w : Wk} {sr : Desc} {keep : Bool} : (x.mixPart w sr keep).Keeps := by
  intro v w
  simp only [RowCtx.mixPart]
  split
  · exact Wk.store_settings ..
  · exact Wk.storeTiles_settings ..

theorem RowCtx.lastPart_keeps {x : RowCtx} {sr : Desc} {no : Nat} : ∀ p ∈ x.lastPart sr no, p.Keeps := by
  simp only [RowCtx.lastPart]
  split
  · exact List.forall_mem_nil _
  · exact List.forall_mem_singleton.mpr fun _ _ => rfl

theorem scatterPlan_keeps {st : Nat} {t ix sr : Desc} {keepIx keepSrc : Bool} {w : Wk} {h : Heat} :
    (scatterPlan st t ix sr keepIx keepSrc w h).Keeps := by
  simp only [scatterPlan]
  split
  · exact List.forall_mem_singleton.mpr indexPart_keeps
  split
  · refine List.forall_mem_append.mpr ⟨List.forall_mem_append.mpr ⟨List.forall_mem_singleton.mpr RowCtx.mixPart_keeps, ?_⟩,
      RowCtx.lastPart_keeps⟩
    split
    · exact List.forall_mem_nil _
    · exact List.forall_mem_singleton.mpr tileEntries_keeps
  · exact List.forall_mem_append.mpr ⟨List.forall_mem_map.mpr fun j _ => RowCtx.scatterPart_keeps, RowCtx.lastPart_keeps⟩

theorem segmentPart_keeps {b : SendBody} {w : Wk} {h : Heat} {k : Nat} : (segmentPart b w h k).Keeps := by
  intro v w
  simp only [segmentPart]
  split
  · rw [Wk.dev_up, Dev.endHeat_settings]
  · exact Wk.sendSegment_settings ..

theorem rawPart_keeps {b : SendBody} {w : Wk} {h : Heat} : (rawPart b w h).Keeps := by
  intro v w
  simp only [rawPart]
  split
  · rw [Wk.dev_up, Dev.endHeat_settings]
  · exact Wk.sendRaw_settings ..

theorem sendPlan_keeps {b : SendBody} {w : Wk} {h : Heat} : (sendPlan b w h).Keeps := by
  simp only [sendPlan]
  split
  · exact List.forall_mem_map.mpr fun k _ => segmentPart_keeps
  · exact List.forall_mem_singleton.mpr rawPart_keeps

theorem vectorPlan_keeps {st : Nat} {b : VecBody} {w : Wk} {h : Heat} : (vectorPlan st b w h).Keeps :=
  forall_mem_mapIdx fun _ _ => slotPart_keeps

theorem springPlan_keeps {st : Nat} {b : SpringBody} {w : Wk} {h : Heat} : (springPlan st b w h).Keeps :=
  forall_mem_mapIdx fun _ _ => slotPart_keeps

theorem RowCmd.pass1_keeps {x : RowCmd} {w : Wk} {r : Nat} : (x.pass1 w r).Keeps :=
  fun _ _ => Wk.upHeat_settings ..

theorem RowCmd.pass2_keeps {x : RowCmd} {w : Wk} {k : Nat} {rs : List Nat} : (x.pass2 w k rs).Keeps := by
  intro v w
  refine Wk.chain_settings (List.forall_mem_append.mpr
    ⟨List.forall_mem_append.mpr ⟨List.forall_mem_append.mpr ⟨?_, ?_⟩, ?_⟩, ?_⟩) w
  · exact List.forall_mem_map.mpr fun t _ w => Wk.store_settings ..
  · exact List.forall_mem_map.mpr fun t _ w => Wk.store_settings ..
  · exact List.forall_mem_flatten.mpr (List.forall_mem_map.mpr fun t _ =>
      forall_mem_mapIdx fun _ _ w => Wk.addColumns_settings ..)
  · exact List.forall_mem_flatten.mpr (List.forall_mem_map.mpr fun t _ =>
      forall_mem_mapIdx fun _ _ w => Wk.addColumns_settings ..)

theorem rowReducePlan_keeps {st : Nat} {b : RowBody} {w : Wk} {h : Heat} : (rowReducePlan st b w h).Keeps :=
  List.forall_mem_append.mpr ⟨List.forall_mem_map.mpr fun _ _ => RowCmd.pass1_keeps,
    forall_mem_mapIdx fun _ _ => RowCmd.pass2_keeps⟩

theorem MatCtx.unitPart_keeps {x : MatCtx} {w : Wk} {u : Nat} : (x.unitPart w u).Keeps := by
  intro v w
  simp only [MatCtx.unitPart]
  split
  · exact MatCtx.compute_settings ..
  · rfl

theorem matrixPlan_keeps {st : Nat} {m : MatBody} {w : Wk} {h : Heat} : (matrixPlan st m w h).Keeps := by
  simp only [matrixPlan]
  split
  · exact List.forall_mem_singleton.mpr fun _ w => w.upHeat_settings ..
  · exact List.forall_mem_append.mpr ⟨List.forall_mem_map.mpr fun u _ => MatCtx.unitPart_keeps,
      List.forall_mem_map.mpr fun i _ _ w => Wk.store_settings ..⟩

theorem Stage.plan_keeps {k : Nat} {later : List Stage} {x : Stage} {w : Wk} {h : Heat} : (x.plan k later w h).Keeps := by
  cases x with
  | move a b keep => exact movePlan_keeps
  | gather t i d keep => exact gatherPlan_keeps
  | scatter t i sr k1 k2 => exact scatterPlan_keeps
  | matrix m => exact matrixPlan_keeps
  | vector b => exact vectorPlan_keeps
  | rowReduce b => exact rowReducePlan_keeps
  | spring b => exact springPlan_keeps
  | relaySend b => exact sendPlan_keeps

theorem Wk.stages_settings (id : HeatId) (l : List Stage) (k : Nat) (w : Wk) :
    (Wk.stages id k l w).dev.settings = w.dev.settings := by
  induction l generalizing k w with
  | nil => rfl
  | cons x l ih => rw [Wk.stages, ih, Wk.stage_settings fun _ _ => Stage.plan_keeps]

theorem ApplyCtx.part_keeps {x : ApplyCtx} {k : Nat} {is : List Nat} : (x.part k is).Keeps := by
  intro v w
  simp only [ApplyCtx.part]
  split
  · rw [Wk.storeTiles_settings, Wk.scratch_settings]
  split <;> rw [Wk.store_settings, Wk.scratch_settings]

theorem applyPlan_keeps {u : UpdBody} {o : Desc} {w : Wk} {h : Heat} : (applyPlan u o w h).Keeps := by
  simp only [applyPlan]
  split
  · exact List.forall_mem_singleton.mpr wordsPart_keeps_ok
  split
  · refine List.forall_mem_cons.mpr ⟨ApplyCtx.part_keeps, ?_⟩
    split
    · exact List.forall_mem_nil _
    · exact List.forall_mem_singleton.mpr tileEntries_keeps
  · exact List.forall_mem_map.mpr fun i _ => ApplyCtx.part_keeps

theorem proposePlan_keeps {u : UpdBody} {o : Desc} {w : Wk} {h : Heat} : (proposePlan u o w h).Keeps := by
  simp only [proposePlan]
  split
  · exact List.forall_mem_map.mpr fun i _ _ w => Wk.store_settings ..
  split
  · exact List.forall_mem_singleton.mpr wordsPart_keeps_ok
  · exact List.forall_mem_cons.mpr ⟨fun _ w => Wk.storeTiles_settings .., List.forall_mem_singleton.mpr tileEntries_keeps⟩

theorem updatePlan_keeps {u : UpdBody} {w : Wk} {h : Heat} : (updatePlan u w h).Keeps := by
  generalize e : updatePlan u = mk
  unfold updatePlan at e
  split at e <;> subst e
  · exact applyPlan_keeps
  · exact proposePlan_keeps
  · exact List.forall_mem_map.mpr fun i _ _ w => Wk.store_settings ..

theorem CtxRun.openPart_keeps {c : CtxRun} : c.openPart.Keeps := by
  intro v w
  simp only [CtxRun.openPart]
  split
  · rw [Wk.dev_up, Dev.endHeat_settings]
  split
  · rw [Wk.dev_up, Dev.putCtx_settings]
  · rw [Wk.dev_up, Dev.ctxRefuse_settings]

theorem CtxRun.batchParts_keep {c : CtxRun} {w : Wk} : ∀ p ∈ c.batchParts w, p.Keeps := by
  refine List.forall_mem_cons.mpr ⟨fun _ w => CtxRun.put_settings .., ?_⟩
  split
  · exact List.forall_mem_nil _
  · exact List.forall_mem_singleton.mpr tileEntries_keeps

theorem CtxRun.advancePart_keeps {c : CtxRun} : c.advancePart.Keeps := by
  intro v w
  simp only [CtxRun.advancePart]
  split
  · rw [Wk.dev_up, Dev.endHeat_settings]
  · rw [Wk.dev_up, foldl_settings fun d y => d.upCtx_settings ..]

theorem CtxRun.appendPart_keeps {c : CtxRun} {mem : Mem} {y : Nat × Nat × List Byte} : (c.appendPart mem y).Keeps := by
  intro v w
  simp only [CtxRun.appendPart]
  split
  · rfl
  split
  · rfl
  · exact Wk.store_settings ..

theorem CtxRun.appendParts_keep {c : CtxRun} {mem : Mem} : ∀ p ∈ c.appendParts mem, p.Keeps := by
  refine List.forall_mem_append.mpr ⟨List.forall_mem_map.mpr fun y _ => CtxRun.appendPart_keeps, ?_⟩
  split
  · exact List.forall_mem_nil _
  · exact List.forall_mem_singleton.mpr fun _ _ => rfl

theorem CtxRun.readPart_keeps {c : CtxRun} {k : Nat} {rows : List Nat} : (c.readPart k rows).Keeps :=
  fun _ _ => CtxRun.put_settings ..

theorem CtxRun.readParts_keep {c : CtxRun} {w : Wk} : ∀ p ∈ c.readParts w, p.Keeps := by
  simp only [CtxRun.readParts]
  split
  · exact List.forall_mem_cons.mpr ⟨CtxRun.readPart_keeps, List.forall_mem_singleton.mpr tileEntries_keeps⟩
  split
  · exact List.forall_mem_singleton.mpr CtxRun.readPart_keeps
  · exact List.forall_mem_map.mpr fun i _ => CtxRun.readPart_keeps

theorem contextPlan_keeps {x : CtxBody} {w : Wk} {h : Heat} : (contextPlan x w h).Keeps := by
  simp only [contextPlan]
  split
  · exact List.forall_mem_singleton.mpr wordsPart_keeps_ok
  · simp only [Plan.Keeps]
    split
    · exact List.forall_mem_singleton.mpr CtxRun.openPart_keeps
    · exact List.forall_mem_cons.mpr ⟨fun _ w => Wk.store_settings ..,
        List.forall_mem_singleton.mpr fun _ w => Dev.upCtx_settings ..⟩
    · exact CtxRun.batchParts_keep
    · exact List.forall_mem_singleton.mpr CtxRun.advancePart_keeps
    · exact CtxRun.appendParts_keep
    · exact CtxRun.readParts_keep
    · exact forall_mem_mapIdx fun _ _ => slotPart_keeps
    · exact List.forall_mem_nil _

theorem Wk.contextStep_settings (w : Wk) (id : HeatId) (x : CtxBody) :
    (w.contextStep id x).dev.settings = w.dev.settings := by
  simp only [Wk.contextStep]
  split
  · rw [Wk.dev_up, Dev.ctxBegin_settings]
  · split
    · rw [Wk.stage_settings (fun _ _ => contextPlan_keeps), Wk.dev_up, Dev.ctxBegin_settings]
    · rw [Wk.dev_up, Dev.ctxBegin_settings]

theorem Wk.withCop_settings (w : Wk) (id : HeatId) (cop : Nat) : (w.withCop id cop).dev.settings = w.dev.settings := by
  refine Wk.withHeat_settings fun h w => ?_
  split
  · split
    · exact Wk.contextStep_settings ..
    · rfl
  · rfl

theorem Wk.bodyStep_settings (w : Wk) (h : Heat) : (w.bodyStep h).dev.settings = w.dev.settings := by
  simp only [Wk.bodyStep]
  split
  · exact Wk.stage_settings (fun _ _ => Stage.plan_keeps) ..
  · exact Wk.stages_settings ..
  · exact Wk.stage_settings (fun _ _ => fillPlan_keeps) ..
  · exact Wk.releaseStep_settings ..
  · exact Wk.stage_settings (fun _ _ => copyPlan_keeps) ..
  · exact Wk.stage_settings (fun _ _ => updatePlan_keeps) ..
  · exact Wk.contextStep_settings ..
  · rfl

end Sys2Proof.Machine
end

section
/-! ROWS: a command that sets nothing and resets nothing leaves the settings. -/

namespace Sys2Proof.Machine
open Sys2Proof.Config

/-- Where the outcome is a next state, its settings are those of `s`. -/
def Kept (s : State) (o : Host.Outcome State Fault Refusal) : Prop := ∀ t, o = .next t → t.dev.settings = s.dev.settings

theorem done_kept {s : State} {f : Wk → Wk} (h : ∀ w, (f w).dev.settings = w.dev.settings) : Kept s (done s f) := by
  rintro t ⟨⟩
  exact h s.work

theorem devOnly_kept {s : State} {f : Dev → Dev} (h : ∀ d, (f d).settings = d.settings) : Kept s (devOnly s f) := by
  rintro t ⟨⟩
  exact h s.dev

/-- A host write leaves the settings where what it does leaves them. -/
theorem hostWrite_kept {s : State} {f : Dev → Dev} (h : ∀ d, (f d).settings = d.settings) :
    Kept s (devOnly s fun d => d.hostWrite f) := devOnly_kept fun d => d.hostWrite_settings h

/-- A row of a running heat leaves the settings where its work does. -/
theorem heat_kept {s : State} {h : HeatId} {f : Heat → Wk → Wk} (hf : ∀ x w, (f x w).dev.settings = w.dev.settings) :
    Kept s (done s fun w => w.withHeat h f) := done_kept fun _ => Wk.withHeat_settings hf

/-- A row of the control family leaves the settings where its effect does. -/
theorem direct_kept {s : State} {h : HeatId} {f : Heat → Wk → Wk} (hf : ∀ x w, (f x w).dev.settings = w.dev.settings) :
    Kept s (done s fun w => w.withDirect h f) := done_kept fun _ => Wk.withDirect_settings hf

theorem clearPlan_keeps {u : UpdBody} {w : Wk} {h : Heat} : (clearPlan u w h).Keeps :=
  List.forall_mem_map.mpr fun _ _ _ _ => Wk.store_settings ..

theorem execNoOperation_kept (h : HeatId) (s : State) : Kept s (execNoOperation h s) :=
  direct_kept fun x w => by
    split
    · exact Wk.retireAtOnce_settings ..
    · rfl

theorem execMove_kept (h : HeatId) (s : State) : Kept s (execMove h s) :=
  heat_kept fun x w => by
    split
    · exact Wk.stage_settings (fun _ _ => movePlan_keeps) ..
    · rfl

theorem execFill_kept (h : HeatId) (s : State) : Kept s (execFill h s) :=
  heat_kept fun x w => by
    split
    · exact Wk.stage_settings (fun _ _ => fillPlan_keeps) ..
    · rfl

theorem execRelease_kept (h : HeatId) (s : State) : Kept s (execRelease h s) :=
  heat_kept fun x w => by
    split
    · exact Wk.releaseStep_settings ..
    · rfl

theorem execCopy_kept (h : HeatId) (s : State) : Kept s (execCopy h s) :=
  heat_kept fun x w => by
    split
    · exact Wk.stage_settings (fun _ _ => copyPlan_keeps) ..
    · rfl

theorem execGather_kept (h : HeatId) (s : State) : Kept s (execGather h s) :=
  heat_kept fun x w => by
    split
    · exact Wk.stage_settings (fun _ _ => gatherPlan_keeps) ..
    · rfl

theorem execScatter_kept (h : HeatId) (s : State) : Kept s (execScatter h s) :=
  heat_kept fun x w => by
    split
    · exact Wk.stage_settings (fun _ _ => scatterPlan_keeps) ..
    · rfl

theorem execDenseMatrix_kept (h : HeatId) (s : State) : Kept s (execDenseMatrix h s) :=
  heat_kept fun x w => by
    split
    · split
      · rfl
      · exact Wk.stage_settings (fun _ _ => matrixPlan_keeps) ..
    · rfl

theorem execSparseMatrix_kept (h : HeatId) (s : State) : Kept s (execSparseMatrix h s) :=
  heat_kept fun x w => by
    split
    · split
      · exact Wk.stage_settings (fun _ _ => matrixPlan_keeps) ..
      · rfl
    · rfl

theorem execVector_kept (h : HeatId) (s : State) : Kept s (execVector h s) :=
  heat_kept fun x w => by
    split
    · exact Wk.stage_settings (fun _ _ => vectorPlan_keeps) ..
    · rfl

theorem execRowReduce_kept (h : HeatId) (s : State) : Kept s (execRowReduce h s) :=
  heat_kept fun x w => by
    split
    · exact Wk.stage_settings (fun _ _ => rowReducePlan_keeps) ..
    · rfl

theorem execSpringMask_kept (h : HeatId) (s : State) : Kept s (execSpringMask h s) :=
  heat_kept fun x w => by
    split
    · exact Wk.stage_settings (fun _ _ => springPlan_keeps) ..
    · rfl

theorem execRelaySend_kept (h : HeatId) (s : State) : Kept s (execRelaySend h s) :=
  heat_kept fun x w => by
    split
    · exact Wk.stage_settings (fun _ _ => sendPlan_keeps) ..
    · rfl

theorem execRelayReceive_kept (h : HeatId) (s : State) : Kept s (execRelayReceive h s) := by
  refine done_kept fun _ => ?_
  repeat' split
  all_goals simp only [↓Wk.retryBlocked_settings, ↓Wk.retireAtOnce_settings, ↓apply_ite Wk.dev,
    ↓apply_ite Dev.settings, ite_self]

theorem execApply_kept (h : HeatId) (s : State) : Kept s (execApply h s) :=
  heat_kept fun x w => by
    split
    · split
      · exact Wk.stage_settings (fun _ _ => applyPlan_keeps) ..
      · rfl
    · rfl

theorem execPropose_kept (h : HeatId) (s : State) : Kept s (execPropose h s) :=
  heat_kept fun x w => by
    split
    · split
      · exact Wk.stage_settings (fun _ _ => proposePlan_keeps) ..
      · rfl
    · rfl

theorem execClear_kept (h : HeatId) (s : State) : Kept s (execClear h s) :=
  heat_kept fun x w => by
    split
    · split
      · exact Wk.stage_settings (fun _ _ => clearPlan_keeps) ..
      · rfl
    · rfl

theorem execVersionPin_kept (h : HeatId) (s : State) : Kept s (execVersionPin h s) := by
  refine done_kept fun _ => ?_
  repeat' split
  all_goals simp only [↓Wk.judgePin_settings]

theorem execVersionRelease_kept (h : HeatId) (s : State) : Kept s (execVersionRelease h s) := by
  refine done_kept fun _ => ?_
  repeat' split
  all_goals simp only [↓Wk.retireAtOnce_settings, ↓Dev.unpin_settings, Wk.dev_up]

theorem execSignal_kept (h : HeatId) (s : State) : Kept s (execSignal h s) :=
  direct_kept fun x w => by
    split
    · simp only [Wk.retireAtOnce_settings, Wk.ite, ↓apply_ite Wk.dev, ↓apply_ite Dev.settings, Wk.dev_up,
      Dev.stepMarker_settings, ↓Dev.settings_up, ite_self]
    · rfl

theorem execWait_kept (h : HeatId) (s : State) : Kept s (execWait h s) :=
  direct_kept fun x w => by
    split
    · split
      · exact Wk.retireAtOnce_settings ..
      · rfl
    · rfl

theorem execHurdle_kept (h : HeatId) (s : State) : Kept s (execHurdle h s) := by
  refine devOnly_kept fun _ => ?_
  repeat' split
  all_goals simp only [↓Dev.setHeat_settings]

theorem execCancel_kept (h : HeatId) (s : State) : Kept s (execCancel h s) :=
  direct_kept fun x w => by
    split
    · rw [Wk.retireAtOnce_settings, Wk.dev_up, Dev.cancelAll_settings]
    · rfl

theorem execChained_kept (h : HeatId) (s : State) : Kept s (execChained h s) :=
  heat_kept fun x w => by
    split
    · exact Wk.stages_settings ..
    · rfl

theorem execImgLoadDone_kept (s : State) : Kept s (execImgLoadDone s) := by
  refine done_kept fun _ => ?_
  simp only [↓Dev.loadDone_settings, Wk.dev_up]

theorem execStreamEnable_kept (cluster : Fin 128) (stream : StreamName) (enable : Bool) (s : State) :
    Kept s (execStreamEnable cluster stream enable s) := by
  refine devOnly_kept fun _ => ?_
  simp only [↓Dev.enableStream_settings, ↓apply_ite Dev.settings, ite_self]

theorem execHostCancel_kept (cluster : Fin 128) (stream : StreamName) (enable : Bool) (s : State) :
    Kept s (execHostCancel cluster stream enable s) := by
  refine devOnly_kept fun _ => ?_
  simp only [↓Dev.hostWrite_settings, ↓Dev.enableStream_settings, ↓Dev.hostCancel_settings, implies_true]

theorem execDoorbell_kept (cluster : Fin 128) (stream : StreamName) (tail : BitVec 32) (s : State) :
    Kept s (execDoorbell cluster stream tail s) := by
  refine devOnly_kept fun _ => ?_
  simp only [↓Dev.bell_settings, ↓apply_ite Dev.settings, ite_self]

theorem execContextRecordWrite_kept (offset : Nat) (data : List Byte) (s : State) :
    Kept s (execContextRecordWrite offset data s) := by
  refine devOnly_kept fun _ => ?_
  simp only [↓Dev.ctxWindowWrite_settings, ↓apply_ite Dev.settings, ite_self]

theorem execSecResume_kept (s : State) : Kept s (execSecResume s) := by
  refine done_kept fun _ => ?_
  simp only [↓Wk.secCtrl_settings, Wk.ite, ↓apply_ite Wk.dev, ↓apply_ite Dev.settings, ite_self]

theorem execCageFaultClear_kept (bits : BitVec 16) (s : State) : Kept s (execCageFaultClear bits s) := by
  refine devOnly_kept fun _ => ?_
  simp only [↓Dev.cageClear_settings, ↓apply_ite Dev.settings, ite_self]

theorem execPwrStop_kept (v : BitVec 32) (s : State) : Kept s (execPwrStop v s) := by
  refine devOnly_kept fun _ => ?_
  simp only [↓Dev.stop_settings, ↓apply_ite Dev.settings, ite_self]

theorem execBar4Read_kept (offset length : Nat) (errs : List (Nat × EccError)) (s : State) :
    Kept s (execBar4Read offset length errs s) := by
  unfold execBar4Read
  split
  · exact fun _ e => nomatch e
  · refine done_kept fun _ => ?_
    simp only [↓apply_ite Wk.dev, ↓apply_ite Dev.settings, Wk.dev_up, Dev.emit_settings, Wk.hostRun_settings,
      Dev.bar4Read_settings, ite_self]

theorem execBar4Write_kept (offset : Nat) (data : List (Option Byte)) (poisoned : Bool) (s : State) :
    Kept s (execBar4Write offset data poisoned s) := by
  unfold execBar4Write
  split
  · exact fun _ e => nomatch e
  · refine done_kept fun _ => ?_
    simp only [↓apply_ite Wk.dev, ↓apply_ite Dev.settings, Wk.dev_up, Dev.emit_settings, ↓Dev.settings_up,
      Dev.raise_settings, Wk.hostRun_settings, ↓foldl_settings, Dev.bar4Write_settings, implies_true, ite_self]

theorem execReadReg_kept (offset length : Nat) (s : State) : Kept s (execReadReg offset length s) := by
  refine devOnly_kept fun _ => ?_
  simp only [↓Dev.emit_settings, ↓apply_ite Dev.settings, ite_self]

theorem execReadEvent_kept (i : Nat) (s : State) : Kept s (execReadEvent i s) := by
  refine devOnly_kept fun _ => ?_
  simp only [↓Dev.emit_settings, ↓apply_ite Dev.settings, ite_self]

theorem execLapTick_kept (s : State) : Kept s (execLapTick s) := by
  refine devOnly_kept fun _ => ?_
  simp only [↓Dev.settings_up, ↓Dev.countTick_settings, ↓apply_ite Dev.settings, ite_self]

theorem execEffectiveEdge_kept (s : State) : Kept s (execEffectiveEdge s) := by
  refine done_kept fun _ => ?_
  simp only [↓Wk.edge_settings, ↓apply_ite Wk.dev, ↓apply_ite Dev.settings, ite_self]

theorem execLapOverrun_kept (s : State) : Kept s (execLapOverrun s) := by
  refine done_kept fun _ => ?_
  split <;> simp only [↓Wk.edge_settings, ↓Dev.overrun_settings, ↓Dev.notify_settings, Wk.dev_up, ↓apply_ite Wk.dev,
    ↓apply_ite Dev.settings, ite_self]

theorem execLapLockLoss_kept (s : State) : Kept s (execLapLockLoss s) := by
  refine devOnly_kept fun _ => ?_
  simp only [↓Dev.settings_up, ↓Dev.setLock_settings, ↓Dev.latch_settings, ↓Dev.notify_settings, ↓Dev.raise_settings,
    ↓apply_ite Dev.settings, ite_self]

theorem execTick_kept (port : Fin 16) (lap : BitVec 64) (period grace : BitVec 16) (s : State) :
    Kept s (execTick port lap period grace s) := by
  refine devOnly_kept fun _ => ?_
  simp only [↓Dev.settings_up, ↓apply_ite Dev.settings, ite_self]

theorem execEchoRequest_kept (port : Fin 16) (depart holding : BitVec 32) (s : State) :
    Kept s (execEchoRequest port depart holding s) := by
  refine devOnly_kept fun _ => ?_
  simp only [↓Dev.send_settings, ↓apply_ite Dev.settings, ite_self]

theorem execEchoResponse_kept (port : Fin 16) (_depart _holding roundTripNs : BitVec 32) (s : State) :
    Kept s (execEchoResponse port _depart _holding roundTripNs s) := by
  refine devOnly_kept fun _ => ?_
  simp only [↓Dev.settings_up, ↓apply_ite Dev.settings, ite_self]

theorem execFetch_kept (cluster : Fin 128) (s : State) : Kept s (execFetch cluster s) := by
  refine done_kept fun _ => ?_
  dsimp only
  repeat' split
  all_goals simp only [↓Dev.settings_up, ↓Wk.fetchFrom_settings, Wk.dev_up]

theorem execPermitGrant_kept (s : State) : Kept s (execPermitGrant s) := by
  refine devOnly_kept fun _ => ?_
  simp only [↓Dev.noteG_settings, ↓Dev.grants_settings]

theorem execDispatch_kept (cluster : Fin 128) (errs : List PondError) (s : State) :
    Kept s (execDispatch cluster errs s) := by
  refine done_kept fun _ => ?_
  simp only [↓Wk.each_settings, ↓Wk.pondError_settings, Wk.dev_up, ↓apply_ite Dev.settings, implies_true]
  repeat' split
  all_goals simp only [↓Wk.each_settings, ↓Wk.pondError_settings, ↓Dev.dispatch_settings, implies_true]

theorem execHeatRetire_kept (h : HeatId) (s : State) : Kept s (execHeatRetire h s) := by
  refine done_kept fun _ => ?_
  split <;> simp only [↓Wk.retire_settings, ↓apply_ite Wk.dev, ↓apply_ite Dev.settings, ite_self]

theorem execCancelComplete_kept (h : HeatId) (s : State) : Kept s (execCancelComplete h s) := by
  refine done_kept fun _ => ?_
  split <;> simp only [↓Wk.complete_settings, ↓Dev.report_settings, ↓Dev.settle_settings, ↓Dev.freeEntry_settings,
    Wk.dev_up, ↓apply_ite Wk.dev, ↓apply_ite Dev.settings, ite_self]

theorem execWatchdog_kept (cluster : Fin 128) (hang : HangKind) (s : State) : Kept s (execWatchdog cluster hang s) := by
  refine devOnly_kept fun _ => ?_
  split <;> simp only [↓Dev.settings_up, ↓Dev.fence_settings, ↓Dev.marshalHang_settings, ↓apply_ite Dev.settings,
    ite_self]

theorem execWaiterResume_kept (h : HeatId) (s : State) : Kept s (execWaiterResume h s) := by
  refine done_kept fun _ => ?_
  simp only [↓Wk.withHeat_settings, ↓Wk.bodyStep_settings, ↓apply_ite Wk.dev, ↓apply_ite Dev.settings, ite_self,
    implies_true]

theorem execDrain_kept (cluster : Fin 128) (core : Fin 16) (upset : List (Nat × BitVec 32)) (s : State) :
    Kept s (execDrain cluster core upset s) := by
  refine done_kept fun _ => ?_
  repeat' split
  all_goals simp only [↓Dev.settings_up, ↓Dev.dropBuf_settings, ↓Wk.drainOut_settings, ↓Wk.mismatch_settings,
    Wk.dev_up, ↓apply_ite Wk.dev, ↓apply_ite Dev.settings, ite_self]

theorem execSparePondCopyDone_kept (cluster : Fin 128) (s : State) : Kept s (execSparePondCopyDone cluster s) := by
  refine devOnly_kept fun _ => ?_
  simp only [↓Dev.settings_up]

theorem execTokenPeriod_kept (die : Fin 4) (s : State) : Kept s (execTokenPeriod die s) := by
  refine devOnly_kept fun _ => ?_
  simp only [↓Dev.settings_up, ↓foldl_settings, implies_true]

theorem execRequestIssue_kept (id : Nat) (s : State) : Kept s (execRequestIssue id s) := by
  refine devOnly_kept fun _ => ?_
  split <;> simp only [↓Dev.issue_settings, ↓Dev.noteWait_settings, ↓apply_ite Dev.settings, ite_self]

theorem execReadReturn_kept (id : Nat) (errs : List EccError) (s : State) : Kept s (execReadReturn id errs s) := by
  refine done_kept fun _ => ?_
  split <;> simp only [↓Wk.deliver_settings, ↓Dev.dropReq_settings, Wk.dev_up, ↓apply_ite Wk.dev,
    ↓apply_ite Dev.settings, ite_self]

theorem execWriteAck_kept (id : Nat) (errs : List EccError) (s : State) : Kept s (execWriteAck id errs s) := by
  refine done_kept fun _ => ?_
  split <;> simp only [↓Wk.ecc_settings, ↓Wk.serve_settings, ↓Dev.ringBells_settings, ↓Dev.dropReq_settings, Wk.dev_up,
    ↓apply_ite Wk.dev, ↓apply_ite Dev.settings, ite_self]

theorem execCorrectedWriteback_kept (die : Fin 4) (s : State) : Kept s (execCorrectedWriteback die s) := by
  refine devOnly_kept fun _ => ?_
  split <;> simp only [↓Dev.settings_up, ↓Dev.spend_settings, ↓apply_ite Dev.settings, ite_self]

theorem execScrub_kept (line : Nat) (errs : List EccError) (s : State) : Kept s (execScrub line errs s) := by
  refine done_kept fun _ => ?_
  simp only [↓Wk.ecc_settings, ↓Dev.scrubPay_settings, ↓Dev.shardNotice_settings, ↓Dev.raise_settings, Wk.dev_up,
    ↓apply_ite Wk.dev, ↓apply_ite Dev.settings, ite_self]

theorem execUcieLaneFailure_kept (link : Fin 8) (repairable : Bool) (s : State) :
    Kept s (execUcieLaneFailure link repairable s) := by
  refine devOnly_kept fun _ => ?_
  simp only [↓foldl_settings, ↓Dev.raise_settings, ↓Dev.cancelRunning_settings, ↓Dev.haltCluster_settings,
    ↓Dev.replace_settings, ↓Dev.raiseOnce_settings, ↓apply_ite Dev.settings, ite_self, implies_true]

theorem execLinkTraining_kept (port : Fin 16) (result : Training) (s : State) :
    Kept s (execLinkTraining port result s) := by
  refine devOnly_kept fun _ => ?_
  simp only [↓foldl_settings, ↓Dev.setPort_settings, ↓Dev.portEvt_settings, ↓Dev.raise_settings,
    ↓Dev.linkProgress_settings, ↓Dev.send_settings, ↓apply_ite Dev.settings, ite_self, implies_true]

theorem execIdentity_kept (port : Fin 16) (id : Identity) (s : State) : Kept s (execIdentity port id s) := by
  refine devOnly_kept fun _ => ?_
  simp only [↓Dev.setPort_settings, ↓Dev.raise_settings, ↓Dev.domEvt_settings, ↓Dev.noteRemap_settings,
    ↓Dev.linkProgress_settings, ↓Dev.reroute_settings, ↓apply_ite Dev.settings, ite_self]

theorem execLinkDown_kept (port : Fin 16) (s : State) : Kept s (execLinkDown port s) := by
  refine devOnly_kept fun _ => ?_
  simp only [↓Dev.linkProgress_settings, ↓Dev.setPortState_settings, ↓apply_ite Dev.settings, ite_self]

theorem execDataFrame_kept (port : Fin 16) (frame : List Byte) (adderFaults : Nat) (s : State) :
    Kept s (execDataFrame port frame adderFaults s) := by
  refine done_kept fun w => ?_
  have hr := w.receive_settings port.val (Frame.ofBytes frame) adderFaults
  split
  · rfl
  · split <;> rename_i e <;> rw [e] at hr
    · rw [Wk.retryBlocked_settings]; exact hr
    · exact hr

theorem execLandingCounterIncrement_kept (i : Nat) (s : State) : Kept s (execLandingCounterIncrement i s) := by
  refine done_kept fun _ => ?_
  split <;> simp only [↓Dev.settings_up, ↓Wk.retryBlocked_settings, Wk.dev_up, ↓apply_ite Wk.dev,
    ↓apply_ite Dev.settings, ite_self]

theorem execAcknowledgement_kept (port : Fin 16) (channel : Fin 4) (seq : BitVec 32) (refused : BitVec 16)
    (s : State) : Kept s (execAcknowledgement port channel seq refused s) := by
  refine devOnly_kept fun _ => ?_
  dsimp only
  repeat' split
  all_goals simp only [↓foldl_settings, ↓Dev.setPort_settings, ↓Dev.suspect_settings, ↓Dev.portEvt_settings,
    ↓Dev.launch_settings, implies_true]

theorem execNotice_kept (n : Notice) (s : State) : Kept s (execNotice n s) := by
  refine devOnly_kept fun _ => ?_
  simp only [↓Dev.settings_up, ↓Dev.settleNotice_settings, ↓Dev.sendUp_settings, ↓apply_ite Dev.settings, ite_self]

theorem execJoinRequest_kept (c : Contribution) (delayNs : BitVec 32) (s : State) :
    Kept s (execJoinRequest c delayNs s) := by
  refine devOnly_kept fun _ => ?_
  repeat' split
  all_goals simp only [↓Dev.settings_up, ↓Dev.sendUp_settings, ↓Dev.act_settings, ↓Dev.setMember_settings,
    ↓Dev.raise_settings, ↓apply_ite Dev.settings, ite_self]

theorem execHurdleContribution_kept (c : Contribution) (s : State) : Kept s (execHurdleContribution c s) := by
  refine devOnly_kept fun _ => ?_
  simp only [↓Dev.settings_up, ↓Dev.sendUp_settings, ↓apply_ite Dev.settings, ite_self]

theorem execHurdleDecide_kept (s : State) : Kept s (execHurdleDecide s) := by
  refine devOnly_kept fun _ => ?_
  simp only [↓Dev.settings_up, ↓foldl_settings, ↓Dev.noteMissing_settings, ↓Dev.decideOne_settings,
    ↓apply_ite Dev.settings, ite_self, implies_true]

theorem execHurdleDecision_kept (d : Decision) (s : State) : Kept s (execHurdleDecision d s) := by
  refine devOnly_kept fun _ => ?_
  simp only [↓Dev.takeDecision_settings, ↓Dev.sendDown_settings, ↓apply_ite Dev.settings, ite_self]

theorem execJoinRequestRepeat_kept (s : State) : Kept s (execJoinRequestRepeat s) := by
  refine devOnly_kept fun _ => ?_
  simp only [↓Dev.requestJoin_settings, ↓apply_ite Dev.settings, ite_self]

theorem execNoEchoLoss_kept (pos : Fin 258) (s : State) : Kept s (execNoEchoLoss pos s) := by
  refine devOnly_kept fun _ => ?_
  simp only [↓Dev.declareLost_settings, ↓apply_ite Dev.settings, ite_self]

theorem execStandbyTakeover_kept (s : State) : Kept s (execStandbyTakeover s) := by
  refine devOnly_kept fun _ => ?_
  simp only [↓Dev.settings_up, ↓apply_ite Dev.settings, ite_self]

theorem execParityPhaseDone_kept (s : State) : Kept s (execParityPhaseDone s) := by
  refine devOnly_kept fun _ => ?_
  simp only [↓Dev.settings_sec, ↓apply_ite Dev.settings, ite_self]

theorem execCopyPhaseDone_kept (received : List (Nat × BitVec 384)) (s : State) :
    Kept s (execCopyPhaseDone received s) := by
  refine done_kept fun _ => ?_
  simp only [↓Dev.settings_sec, ↓foldl_settings, ↓Wk.copyOut_settings, ↓Dev.emit_settings, Wk.dev_up,
    ↓apply_ite Wk.dev, ↓apply_ite Dev.settings, ite_self, implies_true]

theorem execRebuildComplete_kept (solved : List (Nat × List Byte)) (s : State) :
    Kept s (execRebuildComplete solved s) := by
  refine done_kept fun w => ?_
  split
  · rfl
  · rw [Wk.dev_up, Dev.notify_settings, Dev.settings_sec]
    refine Wk.each_settings fun w u => ?_
    split
    · split
      · exact Wk.hbmPut_settings ..
      · rfl
    · exact Wk.hbmPut_settings ..

theorem execRestoreDone_kept (copies : List (BitVec 384)) (s : State) : Kept s (execRestoreDone copies s) := by
  refine done_kept fun _ => ?_
  simp only [↓Dev.settings_sec, ↓foldl_settings, ↓Wk.copyOut_settings, ↓Wk.copyIn_settings, ↓Wk.loadContexts_settings,
    ↓Dev.loadRecord_settings, ↓Dev.completePoint_settings, ↓Dev.emit_settings, ↓Dev.verifyDigest_settings,
    ↓Dev.setPhase_settings, Wk.dev_up, Wk.ite, ↓apply_ite Wk.dev, ↓apply_ite Dev.settings, ite_self, implies_true]

theorem execSweepPost_kept (item : SweepItem) (s : State) : Kept s (execSweepPost item s) := by
  refine devOnly_kept fun _ => ?_
  simp only [↓Dev.setItem_settings, ↓apply_ite Dev.settings, ite_self]

theorem execSweepUrgent_kept (item : SweepItem) (s : State) : Kept s (execSweepUrgent item s) := by
  refine devOnly_kept fun _ => ?_
  simp only [↓Dev.settings_up, ↓Dev.setItem_settings, ↓Dev.msix_settings, ↓Dev.raise_settings, ↓Dev.latch_settings,
    ↓apply_ite Dev.settings, ite_self]

theorem execEventRingWrite_kept (s : State) : Kept s (execEventRingWrite s) := by
  refine devOnly_kept fun _ => ?_
  split <;> simp only [↓Dev.ringWrite_settings, ↓apply_ite Dev.settings, ite_self]

theorem execSensorSample_kept (r : Sensors) (s : State) : Kept s (execSensorSample r s) := by
  refine devOnly_kept fun _ => ?_
  simp only [↓Dev.settings_up, ↓Dev.leakFault_settings, ↓Dev.sensorFaults_settings, ↓Dev.overvoltage_settings,
    ↓Dev.readings_settings, ↓Dev.setConds_settings, ↓apply_ite Dev.settings, ite_self]

theorem execHardwareTrip_kept (s : State) : Kept s (execHardwareTrip s) := by
  refine devOnly_kept fun _ => ?_
  simp only [↓Dev.setConds_settings, ↓apply_ite Dev.settings, ite_self]

theorem execFeedIdSample_kept (code : BitVec 8) (s : State) : Kept s (execFeedIdSample code s) := by
  refine devOnly_kept fun _ => ?_
  simp only [↓Dev.settings_up, ↓apply_ite Dev.settings, ite_self]

theorem execReverseInput_kept (s : State) : Kept s (execReverseInput s) := by
  refine devOnly_kept fun _ => ?_
  simp only [↓Dev.settings_up, ↓apply_ite Dev.settings, ite_self]

theorem execCageSupplyFault_kept (port : Fin 16) (s : State) : Kept s (execCageSupplyFault port s) := by
  refine devOnly_kept fun _ => ?_
  simp only [↓Dev.settings_up, ↓Dev.msix_settings, ↓Dev.latch_settings, ↓Dev.raise_settings,
    ↓Dev.linkProgress_settings, ↓Dev.setPortState_settings, ↓apply_ite Dev.settings, ite_self]

theorem execCageRefit_kept (port : Fin 16) (s : State) : Kept s (execCageRefit port s) := by
  refine devOnly_kept fun _ => ?_
  simp only [↓Dev.cageRetry_settings, ↓apply_ite Dev.settings, ite_self]

theorem execContentionRecheck_kept (pin : Fin 21) (clear : Bool) (s : State) :
    Kept s (execContentionRecheck pin clear s) := by
  refine devOnly_kept fun _ => ?_
  simp only [↓Dev.settings_up, ↓Dev.contend_settings, ↓apply_ite Dev.settings, ite_self]

theorem execMainPathCheck_kept (r : Sensors) (s : State) : Kept s (execMainPathCheck r s) := by
  refine devOnly_kept fun _ => ?_
  simp only [↓Dev.settings_up, ↓Dev.readings_settings, ↓Dev.showActive_settings, ↓Dev.setCond_settings,
    ↓apply_ite Dev.settings, ite_self]

theorem execOrderlyStop_kept (s : State) : Kept s (execOrderlyStop s) := by
  refine devOnly_kept fun _ => ?_
  simp only [↓Dev.settings_up, ↓Dev.stop_settings, ↓Dev.showActive_settings, ↓Dev.setCond_settings]

theorem execPerstRelease_kept (width : Fin 3) (s : State) : Kept s (execPerstRelease width s) := by
  refine devOnly_kept fun _ => ?_
  simp only [↓Dev.settings_pcie, ↓Dev.enterBoot_settings, ↓apply_ite Dev.settings, ite_self]

theorem execRegulationFault_kept (rail : Fin 13) (s : State) : Kept s (execRegulationFault rail s) := by
  refine devOnly_kept fun _ => ?_
  simp only [↓Dev.railFault_settings, ↓apply_ite Dev.settings, ite_self]

theorem execBootSlotRewriteDone_kept (slotB ok : Bool) (s : State) : Kept s (execBootSlotRewriteDone slotB ok s) := by
  refine devOnly_kept fun _ => ?_
  simp only [↓Dev.settings_boot, ↓Dev.raise_settings, ↓Dev.replace_settings, ↓apply_ite Dev.settings, ite_self]

theorem execBusMasterEnable_kept (on : Bool) (s : State) : Kept s (execBusMasterEnable on s) := by
  refine devOnly_kept fun _ => ?_
  simp only [↓Dev.settings_pcie, ↓Dev.msixFlush_settings]

end Sys2Proof.Machine
end

section
/-! FUSES: what the host sets and what a reset clears undo no fuse (R432, R435). -/

namespace Sys2Proof.Machine
open Sys2Proof.Config

/-! ### What blows and stays blown (R432, R435) -/

/-- What no command undoes: the fused values stay, and a fuse that is blown stays so. -/
structure Dev.Burns (d e : Dev) : Prop where
  fused : e.fused = d.fused
  revoked : d.boot.revoked &&& e.boot.revoked = d.boot.revoked
  dbgFuse : d.boot.dbgFuse = true → e.boot.dbgFuse = true

namespace Dev.Burns

theorem of_settings {d e : Dev} (h : e.settings = d.settings) : d.Burns e := by
  simp only [Dev.settings, Prod.mk.injEq] at h
  obtain ⟨hf, ⟨hr, hd, _⟩, _⟩ := h
  exact ⟨hf, by rw [hr, BitVec.and_self], fun k => hd.trans k⟩

theorem refl (d : Dev) : d.Burns d := ⟨rfl, BitVec.and_self, id⟩

/-- Every part of the block but the fused values and `boot` may change. -/
theorem up {d : Dev} {now lap streams mar prm hbm upd rly dom flt swp pwr start ctx ctxRot sram latched out free pcie
    evt img sec ctxGroup} :
    d.Burns { d with
      now := now, lap := lap, streams := streams, mar := mar, prm := prm, hbm := hbm, upd := upd, rly := rly,
      dom := dom, flt := flt, swp := swp, pwr := pwr, start := start, ctx := ctx, ctxRot := ctxRot, sram := sram,
      latched := latched, out := out, free := free, pcie := pcie, evt := evt, img := img, sec := sec,
      ctxGroup := ctxGroup } :=
  ⟨rfl, BitVec.and_self, id⟩

/-- So may what `boot` holds beside its fuses. -/
theorem boot {d : Dev} {dbg scope slotB fallback logFull result done nonceUse meas log logSeq flashA flashB
    tokenAddr} :
    d.Burns { d with
      boot := { d.boot with
        dbg := dbg, scope := scope, slotB := slotB, fallback := fallback, logFull := logFull, result := result,
        done := done, nonceUse := nonceUse, meas := meas, log := log, logSeq := logSeq, flashA := flashA,
        flashB := flashB, tokenAddr := tokenAddr } } :=
  ⟨rfl, BitVec.and_self, id⟩

theorem trans {a b c : Dev} (h : a.Burns b) (k : b.Burns c) : a.Burns c :=
  ⟨k.fused.trans h.fused, by rw [← h.revoked, BitVec.and_assoc, k.revoked], fun x => k.dbgFuse (h.dbgFuse x)⟩

theorem ite {d a b : Dev} {p : Prop} [Decidable p] (h : d.Burns a) (k : d.Burns b) : d.Burns (if p then a else b) := by
  split
  · exact h
  · exact k

end Dev.Burns

theorem Dev.evtRing_burns (d : Dev) (v : Nat) : d.Burns (d.evtRing v) := by
  simp only [Dev.evtRing]
  exact .ite .up (.of_settings (d.streamConfig_settings _))

theorem Dev.aperture_burns (d : Dev) (v : Nat) : d.Burns (d.aperture v) := by
  simp only [Dev.aperture]
  exact .ite .up (.refl d)

theorem Dev.ctxCtrl_burns (d : Dev) (v : Nat) : d.Burns (d.ctxCtrl v) := by
  have h : d.Burns { d with ctxGroup := bits v 3 0 } := .up
  simp only [Dev.ctxCtrl]
  exact .ite (h.trans (.of_settings (Dev.unbindGroup_settings ..))) h

/-- A vector of the MSI-X table is masked or opened, and what it holds back goes out (R345). -/
theorem Dev.unmask_burns (d : Dev) (u : NSet) : d.Burns { d with pcie := { d.pcie with unmasked := u } }.msixFlush := by
  have h : d.Burns { d with pcie := { d.pcie with unmasked := u } } := .up
  exact h.trans (.of_settings (Dev.msixFlush_settings _))

theorem Dev.msixWrite_burns (d : Dev) (o v : Nat) : d.Burns (d.msixWrite o v) := by
  simp only [Dev.msixWrite]
  split
  · exact .up
  · exact .up
  · exact .up
  · exact d.unmask_burns _

theorem Dev.secWrite_burns (d : Dev) (o v : Nat) : d.Burns (d.secWrite o v) := by
  have area : ∀ s : Sec, d.Burns (if d.sec.phase == 0 || d.sec.phase == 3 then { d with sec := s } else d.streamConfig o) :=
    fun s => .ite .up (.of_settings (d.streamConfig_settings _))
  simp only [Dev.secWrite]
  split
  case h_1 | h_2 | h_3 | h_4 | h_5 => exact area _
  case h_13 => exact .refl d
  all_goals exact .up

theorem Dev.write64_burns (d : Dev) (o v : Nat) : d.Burns (d.write64 o v) := by
  rw [Dev.write64]
  exact .ite .up <|
  .ite (d.evtRing_burns v) <|
  .ite (d.aperture_burns v) <|
  .ite .up <|
  .ite (.of_settings (d.rsetWrite_settings ..)) <|
  .ite (d.secWrite_burns o v) <|
  .ite .boot <|
  .ite (.ite (.of_settings (d.strRing_settings ..)) (.refl d)) <|
  .of_settings ((Dev.settle_settings _).trans (d.wsetCfg_settings ..))

/-- Fuses are blown, never cleared: new ones come by `|||`. -/
theorem Dev.revoked_burns (d : Dev) (m : BitVec 4) :
    d.Burns { d with boot := { d.boot with revoked := d.boot.revoked ||| m } } :=
  ⟨rfl, by ext i; simp; tauto, id⟩

theorem Wk.revokeSlots_burns (w : Wk) : w.dev.Burns w.revokeSlots.dev := by
  rw [Wk.revokeSlots, Wk.dev_up]
  split
  · exact .of_settings (Dev.bootDone_settings ..)
  · dsimp only
    refine (w.dev.revoked_burns (BitVec.ofNat 4 (bits (numAt w.token 4 1) 3 0))).trans (.of_settings ?_)
    rw [Dev.bootDone_settings, Dev.raise_settings, Dev.extend_settings]

theorem Dev.fuseDebug_burns (d : Dev) : d.Burns d.fuseDebug := by
  have blown : d.Burns { d with boot := { d.boot with dbgFuse := true } } := ⟨rfl, BitVec.and_self, fun _ => rfl⟩
  refine blown.trans (.of_settings ?_)
  simp only [Dev.fuseDebug, Dev.bootDone_settings, Dev.setDebug_settings]

theorem Wk.bootCtrl_burns (w : Wk) (v : Nat) : w.dev.Burns (w.bootCtrl v).dev := by
  simp only [Wk.bootCtrl]
  split
  · exact .refl _
  · exact w.revokeSlots_burns
  · exact .of_settings w.unlockDebug_settings
  · exact .of_settings w.dev.lockDebug_settings
  · exact w.dev.fuseDebug_burns
  · rw [Wk.dev_up]
    exact .boot

/-- Register by register, in the order of the map. -/
theorem Wk.write32_burns (w : Wk) (o v : Nat) : w.dev.Burns (w.write32 o v).dev := by
  rw [Wk.write32, apply_ite Wk.dev, apply_ite Wk.dev, Wk.dev_up]
  exact
    .ite (.of_settings (w.secCtrl_settings v)) <|
    .ite (w.bootCtrl_burns v) <|
    .ite (.of_settings (Dev.setShadow_settings ..)) <|
    .ite (.of_settings (Dev.setShadow_settings ..)) <|
    .ite .up <|
    .ite .up <|
    .ite (.of_settings (Dev.imgCtrl_settings ..)) <|
    .ite .up <|
    .ite .up <|
    .ite .up <|
    .ite .up <|
    .ite (Dev.ctxCtrl_burns ..) <|
    .ite .up <|
    .ite (.of_settings (Dev.setShadow_settings ..)) <|
    .ite (.of_settings (Dev.setShadow_settings ..)) <|
    .ite (.of_settings (Dev.setShadow_settings ..)) <|
    .ite .up <|
    .ite .up <|
    .ite (.of_settings (Dev.protWrite_settings ..)) <|
    .ite (.ite (.of_settings (Dev.stop_settings _)) (.refl _)) <|
    .ite (.of_settings (Dev.bankSet_settings ..)) <|
    .ite (.of_settings (Dev.landSet_settings ..)) <|
    .ite (.ite (.of_settings (Dev.portCtrl_settings ..)) (.ite (.of_settings (Dev.setPort_settings ..)) (.refl _))) <|
    .ite (.ite (.of_settings (Dev.joinStart_settings _)) (.refl _)) <|
    .ite .up <|
    .ite .up <|
    .ite (.ite (.of_settings (Dev.sweepFull_settings _)) (.refl _)) <|
    .ite .up <|
    .ite .up <|
    .ite .boot <|
    .ite (.ite (.of_settings (Dev.strWrite_settings ..)) (.refl _)) <|
    .ite (.ite (.of_settings ((Dev.settle_settings _).trans (Dev.wsetSize_settings ..)))
      (.ite (.of_settings ((Dev.settle_settings _).trans (Dev.wsetVer_settings ..))) (.refl _))) <|
    .ite (.of_settings (Dev.sigSet_settings ..)) <|
    .ite (Dev.msixWrite_burns ..) <|
    .refl _

theorem Wk.write_burns (w : Wk) (o size v : Nat) : w.dev.Burns (w.write o size v).dev := by
  simp only [Wk.write]
  split
  · exact .of_settings (Dev.unserved_settings ..)
  split
  · exact Dev.write64_burns ..
  split
  · exact (w.write32_burns ..).trans (Wk.write32_burns ..)
  · exact w.write32_burns ..

theorem Wk.write2_settings (w : Wk) (o size v : Nat) : (w.write2 o size v).dev.settings = w.dev.settings := by
  simp only [Wk.write2, Wk.dev_up, ↓apply_ite Dev.settings, Dev.bell_settings, Dev.ctxWindowWrite_settings, ite_self]

/-! ### What a reset keeps (R479) -/

theorem Wk.powerOff_burns (w : Wk) (state : Nat) : w.dev.Burns (w.powerOff state).dev :=
  ⟨rfl, BitVec.and_self, id⟩

theorem Wk.stopAt_burns (w : Wk) (n : Nat) : w.dev.Burns (w.stopAt n).dev := (w.powerOff_burns 0).trans .up

theorem Wk.begin_burns (w : Wk) : w.dev.Burns w.begin_.dev := ⟨rfl, BitVec.and_self, id⟩

theorem Wk.edgeNow_burns (w : Wk) : w.dev.Burns w.edgeNow.dev := by
  simp only [Wk.edgeNow, Wk.ite]
  split
  · exact w.begin_burns
  · exact .refl _

theorem Wk.pwrEnRise_burns (w : Wk) : w.dev.Burns w.pwrEnRise.dev := by
  rw [Wk.pwrEnRise]
  refine .trans ?_ (Wk.edgeNow_burns _)
  rw [Wk.dev_up]
  exact .up

theorem Dev.warmed_burns (d : Dev) : d.Burns d.warmed := ⟨rfl, BitVec.and_self, id⟩

/-! ### The commands that set or reset -/

/-- Where the outcome is a next state, it undoes no fuse of `s`. -/
def Burnt (s : State) (o : Host.Outcome State Fault Refusal) : Prop := ∀ t, o = .next t → s.dev.Burns t.dev

theorem Kept.burnt {s : State} {o : Host.Outcome State Fault Refusal} (h : Kept s o) : Burnt s o :=
  fun t e => .of_settings (h t e)

theorem done_burnt {s : State} {f : Wk → Wk} (h : ∀ w : Wk, w.dev.Burns (f w).dev) : Burnt s (done s f) := by
  rintro t ⟨⟩
  exact h s.work

theorem devOnly_burnt {s : State} {f : Dev → Dev} (h : ∀ d : Dev, d.Burns (f d)) : Burnt s (devOnly s f) := by
  rintro t ⟨⟩
  exact h s.dev

theorem bootWrite_burnt {s : State} {v : Nat} : Burnt s (done s fun w => w.ite w.dev.hostEarly fun w => w.bootCtrl v) := by
  refine done_burnt fun w => ?_
  simp only [Wk.ite]
  split
  · exact w.bootCtrl_burns v
  · exact .refl _

theorem execRegisterWrite_burnt (bar2 : Bool) (o size : Nat) (v : BitVec 64) (s : State) :
    Burnt s (execRegisterWrite bar2 o size v s) := by
  refine done_burnt fun w => ?_
  dsimp only
  rw [apply_ite Wk.dev, apply_ite Wk.dev, Wk.dev_up]
  exact
    .ite (.of_settings (Dev.emit_settings ..)) <|
    .ite (.of_settings (w.write2_settings ..)) <|
    w.write_burns ..

theorem execStandbyPowerOn_burnt (a : BitVec 3) (p : Bool) (s : State) : Burnt s (execStandbyPowerOn a p s) := by
  refine done_burnt fun w => ?_
  split
  · exact .refl _
  split
  · refine .trans ?_ (Wk.pwrEnRise_burns _)
    rw [Wk.dev_up]
    exact .up
  · rw [Wk.dev_up]
    exact .up

theorem execColdStart_burnt (s : State) : Burnt s (execColdStart s) := by
  refine done_burnt fun w => ?_
  split
  · exact w.pwrEnRise_burns
  · exact .refl _

theorem execConditionClear_burnt (c : Cond) (s : State) : Burnt s (execConditionClear c s) := by
  refine done_burnt fun w => ?_
  dsimp only
  split
  · exact .refl _
  · refine .trans ?_ (Wk.edgeNow_burns _)
    rw [Wk.dev_up]
    exact .of_settings (Dev.setConds_settings ..)

theorem execStartupStepEnd_burnt (e : StepEnd) (s : State) : Burnt s (execStartupStepEnd e s) := by
  refine done_burnt fun w => ?_
  dsimp only
  split
  · exact .refl _
  split
  · exact .of_settings w.stepDone_settings
  · split
    · rw [Wk.dev_up]
      exact .of_settings (Dev.railFault_settings ..)
    · exact .refl _
  · split
    · rw [Wk.dev_up]
      exact .of_settings (Dev.booted_settings ..)
    · exact .refl _
  · split
    · refine .trans ?_ (Wk.stopAt_burns _ 6)
      rw [Wk.dev_up]
      exact .of_settings (Dev.raise_settings ..)
    · exact .refl _

theorem execBootFailure_burnt (s : State) : Burnt s (execBootFailure s) := by
  refine done_burnt fun w => ?_
  split
  · refine .trans ?_ (Wk.stopAt_burns _ 4)
    rw [Wk.dev_up]
    exact .of_settings (Dev.replace_settings ..)
  · exact .refl _

theorem execStopComplete_burnt (s : State) : Burnt s (execStopComplete s) := by
  refine done_burnt fun w => ?_
  split
  · exact (w.powerOff_burns _).trans (Wk.edgeNow_burns _)
  · exact .refl _

theorem execWarmReset_burnt (s : State) : Burnt s (execWarmReset s) := by
  refine done_burnt fun w => ?_
  split
  · have h : (w.dev.cancelEverywhere.notify 0xFF 0xFF .goingDown).settings = w.dev.settings := by
      rw [Dev.notify_settings, Dev.cancelEverywhere_settings]
    exact (Dev.Burns.of_settings h).trans ((Dev.warmed_burns _).trans .up)
  · exact .up

theorem execFunctionReset_burnt (k : FuncReset) (s : State) : Burnt s (execFunctionReset k s) := by
  refine devOnly_burnt fun d => ?_
  split
  · exact (Dev.Burns.of_settings d.clearStreams_settings).trans (.trans .up (.of_settings (Dev.raise_settings ..)))
  · exact .refl _

/-- No command of any kind undoes a fuse, and none changes a fused value. -/
theorem exec_burnt_of_sets (c : Instr) (hc : setsSettings c = true) (s : State) : Burnt s (exec c s) := by
  cases c with
  | registerWrite bar2 o size v => exact execRegisterWrite_burnt bar2 o size v s
  | hostAperWrite v => exact devOnly_burnt fun d => .ite (d.aperture_burns _) (.refl d)
  | evtRingWrite v => exact devOnly_burnt fun d => .ite (d.evtRing_burns _) (.refl d)
  | evtEnable v => exact devOnly_burnt fun d => .ite .up (.refl d)
  | evtHeadWrite v => exact devOnly_burnt fun d => .ite .up (.refl d)
  | unbind v => exact devOnly_burnt fun d => .ite (d.ctxCtrl_burns _) (.refl d)
  | revoke v => exact bootWrite_burnt
  | unlock v => exact bootWrite_burnt
  | lock v => exact bootWrite_burnt
  | dbgFuse v => exact bootWrite_burnt
  | coldStart => exact execColdStart_burnt s
  | standbyPowerOn a p => exact execStandbyPowerOn_burnt a p s
  | inputLoss => exact done_burnt fun w => ⟨rfl, BitVec.and_self, id⟩
  | conditionClear x => exact execConditionClear_burnt x s
  | startupStepEnd e => exact execStartupStepEnd_burnt e s
  | bootFailure => exact execBootFailure_burnt s
  | stopComplete => exact execStopComplete_burnt s
  | warmReset => exact execWarmReset_burnt s
  | functionReset k => exact execFunctionReset_burnt k s
  | _ => exact absurd hc Bool.false_ne_true

/-! ### Every command -/

/-- Row by row: a command that sets nothing keeps every setting. -/
theorem exec_kept (c : Instr) (hc : setsSettings c = false) (s : State) : Kept s (exec c s) := by
  cases c with
  | noOperation h => exact execNoOperation_kept h s
  | move h => exact execMove_kept h s
  | fill h => exact execFill_kept h s
  | release h => exact execRelease_kept h s
  | copy h => exact execCopy_kept h s
  | gather h => exact execGather_kept h s
  | scatter h => exact execScatter_kept h s
  | denseMatrix h => exact execDenseMatrix_kept h s
  | sparseMatrix h => exact execSparseMatrix_kept h s
  | vector h => exact execVector_kept h s
  | rowReduce h => exact execRowReduce_kept h s
  | springMask h => exact execSpringMask_kept h s
  | relaySend h => exact execRelaySend_kept h s
  | relayReceive h => exact execRelayReceive_kept h s
  | apply h => exact execApply_kept h s
  | propose h => exact execPropose_kept h s
  | clear h => exact execClear_kept h s
  | versionPin h => exact execVersionPin_kept h s
  | versionRelease h => exact execVersionRelease_kept h s
  | signal h => exact execSignal_kept h s
  | wait h => exact execWait_kept h s
  | hurdle h => exact execHurdle_kept h s
  | cancel h => exact execCancel_kept h s
  | chained h => exact execChained_kept h s
  | ctxOpen _ => exact done_kept fun _ => Wk.withCop_settings ..
  | ctxPark _ => exact done_kept fun _ => Wk.withCop_settings ..
  | ctxResume _ => exact done_kept fun _ => Wk.withCop_settings ..
  | ctxCancel _ => exact done_kept fun _ => Wk.withCop_settings ..
  | ctxRetire _ => exact done_kept fun _ => Wk.withCop_settings ..
  | ctxBatch _ => exact done_kept fun _ => Wk.withCop_settings ..
  | ctxRelease _ => exact done_kept fun _ => Wk.withCop_settings ..
  | ctxAdvance _ => exact done_kept fun _ => Wk.withCop_settings ..
  | kvAppend _ => exact done_kept fun _ => Wk.withCop_settings ..
  | kvRead _ => exact done_kept fun _ => Wk.withCop_settings ..
  | sample _ => exact done_kept fun _ => Wk.withCop_settings ..
  | imgLoad _ => exact hostWrite_kept fun _ => Dev.imgCtrl_settings ..
  | imgLoadDone => exact execImgLoadDone_kept s
  | imgCommit _ => exact hostWrite_kept fun _ => Dev.imgCtrl_settings ..
  | imgCommitCheckDone => exact devOnly_kept fun _ => Dev.commitDone_settings ..
  | imgDiscard _ => exact hostWrite_kept fun _ => Dev.imgCtrl_settings ..
  | streamEnable cluster stream enable => exact execStreamEnable_kept cluster stream enable s
  | hostCancel cluster stream enable => exact execHostCancel_kept cluster stream enable s
  | doorbell cluster stream tail => exact execDoorbell_kept cluster stream tail s
  | strRingWrite _ _ _ _ => exact hostWrite_kept fun _ => Dev.strRing_settings ..
  | strWsetCfgWrite _ _ => exact hostWrite_kept fun _ => (Dev.settle_settings _).trans (Dev.wsetCfg_settings ..)
  | strWsetSizeWrite _ _ => exact hostWrite_kept fun _ => (Dev.settle_settings _).trans (Dev.wsetSize_settings ..)
  | strWsetVerWrite _ _ => exact hostWrite_kept fun _ => (Dev.settle_settings _).trans (Dev.wsetVer_settings ..)
  | strRsetWrite _ _ _ => exact hostWrite_kept fun _ => Dev.rsetWrite_settings ..
  | strSigWrite _ _ _ => exact hostWrite_kept fun _ => Dev.sigSet_settings ..
  | contextRecordWrite offset data => exact execContextRecordWrite_kept offset data s
  | rlyBankSet _ => exact hostWrite_kept fun _ => Dev.bankSet_settings ..
  | rlyLandWrite _ _ => exact hostWrite_kept fun _ => Dev.landSet_settings ..
  | portDisable _ _ => exact hostWrite_kept fun _ => Dev.portDisable_settings ..
  | retrain _ => exact hostWrite_kept fun _ => Dev.trainAgain_settings ..
  | clrSuspect _ => exact hostWrite_kept fun _ => Dev.clearSuspect_settings ..
  | rejoin => exact hostWrite_kept fun _ => Dev.joinStart_settings ..
  | sweepFull => exact hostWrite_kept fun _ => Dev.sweepFull_settings ..
  | secResume => exact execSecResume_kept s
  | cageFaultClear bits => exact execCageFaultClear_kept bits s
  | pwrStop v => exact execPwrStop_kept v s
  | bar4Read offset length errs => exact execBar4Read_kept offset length errs s
  | bar4Write offset data poisoned => exact execBar4Write_kept offset data poisoned s
  | readReg offset length => exact execReadReg_kept offset length s
  | readEvent n => exact execReadEvent_kept n s
  | mctpControl _ => exact devOnly_kept fun _ => Dev.mctp_settings ..
  | pldm _ => exact devOnly_kept fun _ => Dev.mctp_settings ..
  | spdm _ => exact devOnly_kept fun _ => Dev.mctp_settings ..
  | lapTick => exact execLapTick_kept s
  | effectiveEdge => exact execEffectiveEdge_kept s
  | lapOverrun => exact execLapOverrun_kept s
  | lapLockLoss => exact execLapLockLoss_kept s
  | tick port lap period grace => exact execTick_kept port lap period grace s
  | echoRequest port depart holding => exact execEchoRequest_kept port depart holding s
  | echoResponse port depart holding roundTripNs => exact execEchoResponse_kept port depart holding roundTripNs s
  | fetch cluster => exact execFetch_kept cluster s
  | permitGrant => exact execPermitGrant_kept s
  | dispatch cluster errs => exact execDispatch_kept cluster errs s
  | heatRetire h => exact execHeatRetire_kept h s
  | cancelComplete h => exact execCancelComplete_kept h s
  | watchdog cluster hang => exact execWatchdog_kept cluster hang s
  | waiterResume h => exact execWaiterResume_kept h s
  | drain cluster core upset => exact execDrain_kept cluster core upset s
  | sparePondCopyDone cluster => exact execSparePondCopyDone_kept cluster s
  | tokenPeriod die => exact execTokenPeriod_kept die s
  | requestIssue id => exact execRequestIssue_kept id s
  | readReturn id errs => exact execReadReturn_kept id errs s
  | writeAck id errs => exact execWriteAck_kept id errs s
  | correctedWriteback die => exact execCorrectedWriteback_kept die s
  | scrub line errs => exact execScrub_kept line errs s
  | ucieLaneFailure link repairable => exact execUcieLaneFailure_kept link repairable s
  | linkTraining port result => exact execLinkTraining_kept port result s
  | identity port id => exact execIdentity_kept port id s
  | laneDrop _ _ => exact devOnly_kept fun _ => Dev.dropLane_settings ..
  | linkDown port => exact execLinkDown_kept port s
  | dataFrame port frame adderFaults => exact execDataFrame_kept port frame adderFaults s
  | landingCounterIncrement n => exact execLandingCounterIncrement_kept n s
  | acknowledgement port channel seq refused => exact execAcknowledgement_kept port channel seq refused s
  | notice n => exact execNotice_kept n s
  | joinRequest c delayNs => exact execJoinRequest_kept c delayNs s
  | hurdleContribution c => exact execHurdleContribution_kept c s
  | hurdleDecide => exact execHurdleDecide_kept s
  | hurdleDecision d => exact execHurdleDecision_kept d s
  | joinRequestRepeat => exact execJoinRequestRepeat_kept s
  | noEchoLoss pos => exact execNoEchoLoss_kept pos s
  | standbyTakeover => exact execStandbyTakeover_kept s
  | parityPhaseDone => exact execParityPhaseDone_kept s
  | copyPhaseDone received => exact execCopyPhaseDone_kept received s
  | rebuildComplete solved => exact execRebuildComplete_kept solved s
  | restoreDone copies => exact execRestoreDone_kept copies s
  | sweepItem _ _ => exact done_kept fun _ => Wk.sweepStep_settings ..
  | sweepPost item => exact execSweepPost_kept item s
  | sweepUrgent item => exact execSweepUrgent_kept item s
  | eventRingWrite => exact execEventRingWrite_kept s
  | sensorSample r => exact execSensorSample_kept r s
  | hardwareTrip => exact execHardwareTrip_kept s
  | feedIdSample code => exact execFeedIdSample_kept code s
  | reverseInput => exact execReverseInput_kept s
  | cageSupplyFault port => exact execCageSupplyFault_kept port s
  | cageRefit port => exact execCageRefit_kept port s
  | mgmtContention _ => exact devOnly_kept fun _ => Dev.contend_settings ..
  | contentionRecheck pin clear => exact execContentionRecheck_kept pin clear s
  | mainPathCheck r => exact execMainPathCheck_kept r s
  | orderlyStop => exact execOrderlyStop_kept s
  | perstRelease width => exact execPerstRelease_kept width s
  | regulationFault rail => exact execRegulationFault_kept rail s
  | bootSlotRewriteDone slotB ok => exact execBootSlotRewriteDone_kept slotB ok s
  | busMasterEnable on => exact execBusMasterEnable_kept on s
  | _ => exact absurd hc.symm Bool.false_ne_true

/-- No command of any kind undoes a fuse, and none changes a fused value. -/
theorem exec_burnt (c : Instr) (s : State) : Burnt s (exec c s) := by
  cases hc : setsSettings c with
  | false => exact (exec_kept c hc s).burnt
  | true => exact exec_burnt_of_sets c hc s

/-- Settles O9, row by row: a row that is no setting's write keeps the settings, and every row burns at most. -/
theorem settingsStay : Obligations.SettingsStay := by
  intro c s t e
  have b := exec_burnt c s t e
  exact ⟨fun hc => exec_kept c hc s t e, b.revoked, b.dbgFuse⟩

end Sys2Proof.Machine
end

section
/-! RESET: what the reset state holds (R4, R5, R138, R204). -/

namespace Sys2Proof.Machine

/-- Every pond slot is EMPTY and unclaimed at reset (R138). -/
theorem Dev.reset_slots (g : Nat) : Dev.reset.isFull g = false ∧ Dev.reset.isClaimed g = false := ⟨rfl, rfl⟩

/-- Every stream is DISABLED at reset (R204). -/
theorem Dev.reset_streamState (c k : Nat) : Dev.reset.streamState c k = 0 := rfl

/-- Settles O10: registers, tags, claims and streams at reset, and memory with no byte written. -/
theorem resetState : Obligations.ResetState :=
  ⟨rfl, rfl, rfl, rfl, rfl, rfl, Dev.reset_slots, fun _ _ => rfl, Dev.reset_streamState, rfl, rfl, rfl, rfl⟩

end Sys2Proof.Machine

end

section
/-! HOST WRITES: what a write of a register, of a context record and of a doorbell does (R5 to R7, R292, R293, R412,
R415, R416, R476). -/

namespace Sys2Proof.Machine
open Sys2Proof.Config

/-! ### Register writes that are served -/

/-- An action on the block alone, read off the state. -/
theorem State.after_up (s : State) (f : Dev → Dev) : s.after (s.work.up f) = s.withDev f := rfl

/-- A register's whole 64 bits are written at once. -/
theorem Wk.write_wide {w : Wk} {o : Nat} (v : Nat) (hs : 6 ≤ w.dev.start.step) (ha : o % 8 = 0) (hw : wide o = true) :
    w.write o 8 v = w.up fun d => d.write64 o v := by
  have hb : o / 8 * 8 = o := by omega
  simp [Wk.write, Dev.serves, Dev.hostOpen, hs, hb, hw]

/-- A register of 32 bits is written alone. -/
theorem Wk.write_narrow {w : Wk} {o : Nat} (v : Nat) (hs : 6 ≤ w.dev.start.step) (hw : wide (o / 8 * 8) = false) :
    w.write o 4 v = w.write32 o v := by
  simp [Wk.write, Dev.serves, Dev.hostOpen, hs, hw]

/-- An access of 4 or 8 bytes, aligned and inside its BAR, is a write there (R412, R416). -/
theorem exec_registerWrite_served {s : State} {bar2 : Bool} {o size : Nat} (v : BitVec 64) (hz : size = 4 ∨ size = 8)
    (ha : o % size = 0) (hl : o + size ≤ if bar2 then 2 ^ 28 else 2 ^ 26) :
    exec (.registerWrite bar2 o size v) s = done s fun w =>
      if bar2 then w.write2 o size (v.toNat % 2 ^ (8 * size)) else w.write o size (v.toNat % 2 ^ (8 * size)) := by
  show execRegisterWrite bar2 o size v s = _
  have hc : (!(size == 4 || size == 8) || o % size != 0 ||
      decide ((if bar2 then 2 ^ 28 else 2 ^ 26) < o + size)) = false := by
    rcases hz with rfl | rfl <;> simp [ha] <;> omega
  simp only [execRegisterWrite, hc, Bool.false_eq_true, if_false]

theorem toNat_setWidth_mod (v : BitVec 32) : (v.setWidth 64).toNat % 2 ^ 32 = v.toNat := by
  rw [BitVec.toNat_setWidth_of_le (by decide), Nat.mod_eq_of_lt v.isLt]

/-- A served write of a 64-bit register is what `write64` makes of the block. -/
theorem registerWrite_wide {s : State} {o : Nat} (v : BitVec 64) (hs : 6 ≤ s.dev.start.step) (ha : o % 8 = 0)
    (hl : o + 8 ≤ 2 ^ 26) (hw : wide o = true) :
    exec (.registerWrite false o 8 v) s = .next (s.withDev fun d => d.write64 o v.toNat) := by
  rw [exec_registerWrite_served (bar2 := false) v (.inr rfl) ha hl]
  rw [← State.after_up]
  refine done_next_of s ?_
  rw [Nat.mod_eq_of_lt v.isLt]
  exact Wk.write_wide _ hs ha hw

/-- A served write of a 32-bit register is what `write32` makes of the block. -/
theorem registerWrite_narrow {s : State} {o : Nat} (v : BitVec 64) (hs : 6 ≤ s.dev.start.step) (ha : o % 4 = 0)
    (hl : o + 4 ≤ 2 ^ 26) (hw : wide (o / 8 * 8) = false) {f : Dev → Dev}
    (hf : ∀ w : Wk, w.write32 o (v.toNat % 2 ^ 32) = w.up f) :
    exec (.registerWrite false o 4 v) s = .next (s.withDev f) := by
  rw [exec_registerWrite_served (bar2 := false) v (.inl rfl) ha hl]
  rw [← State.after_up]
  refine done_next_of s ?_
  rw [Wk.write_narrow _ hs hw]
  exact hf _

theorem Wk.write32_period (w : Wk) (v : Nat) :
    w.write32 0x1008 v = w.up fun d => d.setShadow fun k => { k with period := bits v 10 0 } := by
  simp only [Wk.write32]
  rfl

theorem Wk.write32_ctxCtrl (w : Wk) (v : Nat) : w.write32 0x4000 v = w.up fun d => d.ctxCtrl v := by
  simp [Wk.write32]

theorem Wk.write32_domEvt (w : Wk) (v : Nat) :
    w.write32 0x9808 v = w.up fun d => { d with dom := { d.dom with evt := w1c8 d.dom.evt (d.clears 0x9808 v) } } := by
  simp [Wk.write32]

theorem Wk.write32_signal (w : Wk) {o : Nat} (v : Nat) (hl : 0x120000 ≤ o) (hh : o < 0x120F00) :
    w.write32 o v = w.up fun d => d.sigSet ((o - 0x120000) / 4) (BitVec.ofNat 32 v) := by
  simp (disch := omega) only [Wk.write32, beq_iff_eq, if_neg, if_pos]

theorem Dev.write64_rset (d : Dev) {o : Nat} (v : Nat) (hl : 0xA100 ≤ o) (hh : o < 0xA200) :
    d.write64 o v = d.rsetWrite ((o - 0xA100) / 0x20) ((o - 0xA100) % 0x20 / 8) v := by
  simp (disch := omega) only [Dev.write64, beq_iff_eq, if_neg, if_pos]

theorem Dev.write64_strRing (d : Dev) {o : Nat} (v : Nat) (hl : 0x100000 ≤ o) (hh : o < 0x108000) (hk : o % 0x100 < 0xC0) :
    d.write64 o v = d.strRing ((o - 0x100000) / 0x100) (o % 0x100 / 0x40) (o % 0x40 == 8) v := by
  simp (disch := omega) only [Dev.write64, beq_iff_eq, if_neg, if_pos]

/-- What is no access of 4 or 8 bytes, aligned and inside its BAR answers Unsupported Request (R412). -/
theorem exec_registerWrite_unsupported {s : State} {bar2 : Bool} {o size : Nat} (v : BitVec 64)
    (h : size ≠ 4 ∧ size ≠ 8 ∨ o % size ≠ 0 ∨ (if bar2 then 2 ^ 28 else 2 ^ 26) < o + size) :
    exec (.registerWrite bar2 o size v) s = .next (s.withDev fun d => d.emit .unsupportedRequest) := by
  show execRegisterWrite bar2 o size v s = _
  have hc : (!(size == 4 || size == 8) || o % size != 0 ||
      decide ((if bar2 then 2 ^ 28 else 2 ^ 26) < o + size)) = true := by
    simp only [Bool.or_eq_true, Bool.not_eq_true', Bool.or_eq_false_iff, beq_eq_false_iff_ne, bne_iff_ne, decide_eq_true_eq]
    tauto
  rw [← State.after_up]
  refine done_next_of s ?_
  simp only [hc, if_true]

/-! ### Bits that a 1 clears (R7) -/

/-- A number put together bit by bit. -/
def bitsOf (p : Nat → Bool) (n : Nat) : Nat := (List.range n).foldl (fun n b => n + if p b then 2 ^ b else 0) 0

theorem bitsOf_succ (p : Nat → Bool) (n : Nat) : bitsOf p (n + 1) = 2 ^ n * (p n).toNat + bitsOf p n := by
  rw [bitsOf, List.range_succ, List.foldl_append, List.foldl_cons, List.foldl_nil, ← bitsOf, Nat.add_comm]
  cases p n <;> simp

theorem bitsOf_lt (p : Nat → Bool) (n : Nat) : bitsOf p n < 2 ^ n := by
  induction n with
  | zero => exact Nat.one_pos
  | succ n ih =>
    rw [bitsOf_succ, Nat.pow_succ]
    cases p n <;> simp <;> omega

theorem testBit_bitsOf (p : Nat → Bool) (n b : Nat) : (bitsOf p n).testBit b = (decide (b < n) && p b) := by
  induction n with
  | zero => simp [bitsOf]
  | succ n ih =>
    rw [bitsOf_succ, Nat.testBit_two_pow_mul_add _ (bitsOf_lt p n), ih]
    rcases Nat.lt_trichotomy b n with h | rfl | h
    · simp [h, Nat.lt_succ_of_lt h]
    · cases p b <;> simp
    · rw [if_neg (by omega), Nat.testBit_bool_toNat]
      have : ¬ b < n + 1 := by omega
      simp [this]; omega

theorem bit_eq_testBit (v n : Nat) : bit v n = v.testBit n := by
  rw [Nat.testBit_eq_decide_div_mod_eq, bit, Bool.beq_eq_decide_eq]

/-- The bits that a write clears: those it writes 1 to, unless they were set in the same cycle. -/
theorem Dev.testBit_clears (d : Dev) (reg v b : Nat) :
    (d.clears reg v).testBit b = (decide (b < 32) && (v.testBit b && !d.justSet reg b)) := by
  rw [← bit_eq_testBit v]
  exact testBit_bitsOf (fun b => bit v b && !d.justSet reg b) 32 b

theorem testBit_w1c8 (x : BitVec 8) (n : Nat) {b : Nat} (hb : b < 8) :
    (w1c8 x n).toNat.testBit b = (x.toNat.testBit b && !n.testBit b) := by
  simp only [w1c8, BitVec.testBit_toNat, BitVec.getLsbD_and, BitVec.getLsbD_not, BitVec.getLsbD_ofNat, hb,
    decide_true, Bool.true_and]

/-! ### Signals, contexts -/

theorem Dev.readBytes_signal (d : Dev) {k : Nat} (hk : k < 960) :
    d.readBytes (0x120000 + 4 * k) 4 = (AMap.get (0 : W32) d.mar.signals k).toNat := by
  have e : (0x120000 + 4 * k - 0x120000) / 4 = k := by omega
  simp (disch := omega) only [Dev.readBytes, Dev.word, beq_iff_eq, if_neg, if_pos, e]

theorem AMap.pairwise_of_okFrom {α : Type} [DecidableEq α] (d : α) {m : AMap α} {lo : Nat} (h : AMap.okFrom d lo m = true) :
    (∀ x ∈ m, lo ≤ x.1) ∧ m.Pairwise fun x y => x.1 ≠ y.1 := by
  induction m generalizing lo with
  | nil => exact ⟨fun _ hx => absurd hx List.not_mem_nil, .nil⟩
  | cons x m ih =>
    simp only [AMap.okFrom, Bool.and_eq_true, decide_eq_true_eq] at h
    obtain ⟨⟨hlo, _⟩, hm⟩ := h
    obtain ⟨hge, hp⟩ := ih hm
    refine ⟨fun y hy => ?_, .cons (fun y hy => ?_) hp⟩
    · rcases List.mem_cons.mp hy with rfl | hy
      · exact hlo
      · have := hge y hy
        omega
    · have := hge y hy
      omega

theorem AMap.get_of_mem {α : Type} (d : α) {m : AMap α} (hp : m.Pairwise fun x y => x.1 ≠ y.1) {x : Nat × α} (hx : x ∈ m) :
    AMap.get d m x.1 = x.2 := by
  induction m with
  | nil => exact absurd hx List.not_mem_nil
  | cons y m ih =>
    obtain ⟨hy, hm⟩ := List.pairwise_cons.mp hp
    rw [AMap.get]
    rcases List.mem_cons.mp hx with rfl | h
    · exact if_pos rfl
    · rw [if_neg (hy x h), ih hm h]

theorem AMap.get_of_not_mem {α : Type} (d : α) {m : AMap α} {k : Nat} (h : ∀ x ∈ m, x.1 ≠ k) : AMap.get d m k = d := by
  induction m with
  | nil => rfl
  | cons y m ih => rw [AMap.get, if_neg (h y List.mem_cons_self), ih fun x hx => h x (List.mem_cons_of_mem _ hx)]

/-- Records put one after another leave a record that is not among them. -/
theorem Dev.ctxAt_foldl_putCtx_of_not_mem (g : List Byte → List Byte) {l : AMap (List Byte)} {id : Nat}
    (h : ∀ x ∈ l, x.1 ≠ id) (d : Dev) : (l.foldl (fun d x => d.putCtx x.1 (g x.2)) d).ctxAt id = d.ctxAt id := by
  induction l generalizing d with
  | nil => rfl
  | cons x l ih =>
    rw [List.foldl_cons, ih fun y hy => h y (List.mem_cons_of_mem _ hy), Dev.putCtx, Dev.ctxAt_setCtx,
      if_neg (h x List.mem_cons_self).symm]

/-- A record among those put holds what was put there, where each is put once. -/
theorem Dev.ctxAt_foldl_putCtx_of_mem (g : List Byte → List Byte) {l : AMap (List Byte)}
    (hp : l.Pairwise fun x y => x.1 ≠ y.1) {x : Nat × List Byte} (hx : x ∈ l) (d : Dev) :
    (l.foldl (fun d x => d.putCtx x.1 (g x.2)) d).ctxAt x.1 = withCheck (g x.2) := by
  induction l generalizing d with
  | nil => exact absurd hx List.not_mem_nil
  | cons y l ih =>
    obtain ⟨hy, hl⟩ := List.pairwise_cons.mp hp
    rw [List.foldl_cons]
    rcases List.mem_cons.mp hx with rfl | h
    · rw [Dev.ctxAt_foldl_putCtx_of_not_mem g fun z hz => (hy z hz).symm, Dev.putCtx, Dev.ctxAt_setCtx, if_pos rfl]
    · exact ih hl h _

/-- The BUSY contexts of an unbound group are READY again, and every other record stays (R293). -/
theorem Dev.ctxAt_unbindGroup (d : Dev) (g id : Nat) (hw : AMap.wf ctxFree d.ctx = true) :
    (d.unbindGroup g).ctxAt id =
      if ctxState (d.ctxAt id) = 2 ∧ ctxGroupOf (d.ctxAt id) = g then withCheck (withState (d.ctxAt id) 1)
      else d.ctxAt id := by
  obtain ⟨_, hp⟩ := AMap.pairwise_of_okFrom ctxFree hw
  rw [Dev.unbindGroup]
  split
  case isTrue h =>
    have hm : (id, d.ctxAt id) ∈ d.ctx := by
      by_contra hn
      have h0 : d.ctxAt id = ctxFree := AMap.get_of_not_mem ctxFree fun x hx e => hn (by
        rw [← e, Dev.ctxAt, AMap.get_of_mem ctxFree hp hx]
        exact hx)
      rw [h0] at h
      exact absurd h.1 (by decide)
    exact Dev.ctxAt_foldl_putCtx_of_mem (withState · 1) (hp.filter _) (x := (id, d.ctxAt id))
      (List.mem_filter.mpr ⟨hm, by simp [h.1, h.2]⟩) d
  case isFalse h =>
    refine Dev.ctxAt_foldl_putCtx_of_not_mem (withState · 1) (fun x hx e => h ?_) d
    obtain ⟨hm, hs⟩ := List.mem_filter.mp hx
    rw [← e, Dev.ctxAt, AMap.get_of_mem ctxFree hp hm]
    simpa using hs

/-! ### The context window (R292, R416) -/

theorem Dev.ctxHostWrite_start (d : Dev) (id o : Nat) (data : List Byte) : (d.ctxHostWrite id o data).start = d.start := by
  simp only [Dev.ctxHostWrite]
  split
  · rfl
  · simp

/-- Nothing is left to write, or the window has ended. -/
theorem Dev.ctxWindowWrite_end (d : Dev) {n a : Nat} {data : List Byte} (h : data = [] ∨ 0x800000 ≤ a) :
    d.ctxWindowWrite n a data = d := by
  cases n with
  | zero => rfl
  | succ n => rw [Dev.ctxWindowWrite, if_pos (by simpa using h)]

/-- The part of one record is written or dropped, and the rest goes on at the next record. -/
theorem Dev.ctxWindowWrite_step (d : Dev) (n : Nat) {a : Nat} {data : List Byte} (hn : data ≠ []) (ha : a < 0x800000) :
    d.ctxWindowWrite (n + 1) a data =
      (d.ctxHostWrite (a / 128) (a % 128) (data.take (128 - a % 128))).ctxWindowWrite n (a + (128 - a % 128))
        (data.drop (128 - a % 128)) := by
  rw [Dev.ctxWindowWrite, if_neg (by simpa [hn] using ha)]

theorem Dev.ctxWindowWrite_within (d : Dev) (n : Nat) {a : Nat} {data : List Byte} (hn : data ≠ []) (ha : a < 0x800000)
    (hl : data.length ≤ 128 - a % 128) : d.ctxWindowWrite (n + 1) a data = d.ctxHostWrite (a / 128) (a % 128) data := by
  rw [Dev.ctxWindowWrite_step d n hn ha, List.take_of_length_le hl, List.drop_of_length_le hl,
    Dev.ctxWindowWrite_end _ (.inl rfl)]

/-- More steps than the bytes have records change nothing. -/
theorem Dev.ctxWindowWrite_succ {n a : Nat} {data : List Byte} (h : a % 128 + data.length ≤ 128 * n) (d : Dev) :
    d.ctxWindowWrite (n + 1) a data = d.ctxWindowWrite n a data := by
  induction n generalizing a data d with
  | zero =>
    have e : data = [] := List.length_eq_zero_iff.mp (by omega)
    rw [Dev.ctxWindowWrite_end d (.inl e), Dev.ctxWindowWrite_end d (.inl e)]
  | succ n ih =>
    by_cases he : data = [] ∨ 0x800000 ≤ a
    · rw [Dev.ctxWindowWrite_end d he, Dev.ctxWindowWrite_end d he]
    · obtain ⟨hn, ha⟩ := not_or.mp he
      rw [Dev.ctxWindowWrite_step d _ hn (by omega), Dev.ctxWindowWrite_step d _ hn (by omega)]
      refine ih ?_ _
      rw [List.length_drop]
      omega

theorem Dev.ctxWindowWrite_of_le {n m a : Nat} {data : List Byte} (h : a % 128 + data.length ≤ 128 * n) (hm : n ≤ m)
    (d : Dev) :
    d.ctxWindowWrite m a data = d.ctxWindowWrite n a data := by
  induction m, hm using Nat.le_induction with
  | base => rfl
  | succ m hm ih => rw [Dev.ctxWindowWrite_succ (by omega), ih]

theorem exec_contextRecordWrite {s : State} (h : 4 ≤ s.dev.start.step) (a : Nat) (data : List Byte) :
    exec (.contextRecordWrite a data) s = .next (s.withDev fun d => d.ctxWindowWrite (data.length / 128 + 2) a data) :=
  devOnly_next_of s (if_pos (Dev.hostEarly_of h))

/-- Bytes that stay in one record. -/
theorem exec_contextRecordWrite_within {s : State} (h : 4 ≤ s.dev.start.step) {a : Nat} {data : List Byte} (hn : data ≠ [])
    (ha : a < 0x800000) (hl : data.length ≤ 128 - a % 128) :
    exec (.contextRecordWrite a data) s = .next (s.withDev fun d => d.ctxHostWrite (a / 128) (a % 128) data) := by
  rw [exec_contextRecordWrite h]
  simp only [State.withDev, Dev.ctxWindowWrite_within _ _ hn ha hl]

/-- Bytes that pass the end of a record: the record's part first, then the rest as a write of its own. -/
theorem exec_contextRecordWrite_split {s t : State} (h : 4 ≤ s.dev.start.step) {a : Nat} {data : List Byte}
    (hl : 128 - a % 128 < data.length) (ha : a < 0x800000)
    (ht : exec (.contextRecordWrite a (data.take (128 - a % 128))) s = .next t) :
    exec (.contextRecordWrite a data) s =
      exec (.contextRecordWrite (a + (128 - a % 128)) (data.drop (128 - a % 128))) t := by
  have hn : data ≠ [] := List.ne_nil_of_length_pos (by omega)
  have hk : data.take (128 - a % 128) ≠ [] := List.ne_nil_of_length_pos (by rw [List.length_take]; omega)
  have hd := List.length_drop (i := 128 - a % 128) (l := data)
  rw [exec_contextRecordWrite_within h hk ha (List.length_take_le ..)] at ht
  obtain rfl := Host.Outcome.next.inj ht
  have h' : 4 ≤ (s.withDev fun d => d.ctxHostWrite (a / 128) (a % 128) (data.take (128 - a % 128))).dev.start.step := by
    simp only [State.withDev, Dev.ctxHostWrite_start]
    exact h
  rw [exec_contextRecordWrite h, exec_contextRecordWrite h']
  simp only [State.withDev]
  rw [Dev.ctxWindowWrite_step _ _ hn ha, Dev.ctxWindowWrite_of_le (n := (data.length - (128 - a % 128)) / 128 + 1),
    Dev.ctxWindowWrite_of_le (m := _ + 2) (n := (data.length - (128 - a % 128)) / 128 + 1)]
  all_goals omega

/-! ### Row by row -/

/-- A host write before BAR0 serves its register has no effect (R476). -/
theorem Dev.hostWrite_closed {d : Dev} (h : d.start.step < 6) (f : Dev → Dev) : d.hostWrite f = d := by
  simp [Dev.hostWrite, Dev.hostOpen, h]

theorem hostWrite_same {s : State} (h : s.dev.start.step < 6) (f : Dev → Dev) :
    devOnly s (fun d => d.hostWrite f) = .next s :=
  devOnly_same s (Dev.hostWrite_closed h f)

theorem hostWrite_next {s : State} (h : 6 ≤ s.dev.start.step) (f : Dev → Dev) :
    devOnly s (fun d => d.hostWrite f) = .next (s.withDev f) := devOnly_next_of s (Dev.hostWrite_open h f)

theorem exec_strRsetWrite {s : State} (h : 6 ≤ s.dev.start.step) (e : Fin 8) (reg : Fin 4) (v : BitVec 64) :
    exec (.strRsetWrite e reg v) s = .next (s.withDev fun d => d.rsetWrite e.val reg.val v.toNat) := hostWrite_next h _

theorem exec_strSigWrite {s : State} (h : 6 ≤ s.dev.start.step) (g : Fin 15) (k : Fin 64) (v : BitVec 32) :
    exec (.strSigWrite g k v) s = .next (s.withDev fun d => d.sigSet (64 * g.val + k.val) v) := hostWrite_next h _

theorem exec_unbind {s : State} (h : 6 ≤ s.dev.start.step) (v : BitVec 32) :
    exec (.unbind v) s = .next (s.withDev fun d => d.ctxCtrl v.toNat) := hostWrite_next h _

/-- An entry of the scale set takes the value only while no hurdle of HKIND 0x3 is armed (R345). -/
theorem rset_takes (s : State) (e : Fin 8) (reg : Fin 4) (v : BitVec 64) :
    (s.dev.start.step < 6 → exec (.strRsetWrite e reg v) s = .next s) ∧
    (6 ≤ s.dev.start.step → s.dev.armedKind 3 = false → exec (.strRsetWrite e reg v) s =
      .next (s.withDev fun d => d.setRset e.val fun r => r.write reg.val v.toNat)) ∧
    (6 ≤ s.dev.start.step → s.dev.armedKind 3 = true → exec (.strRsetWrite e reg v) s =
      .next (s.withDev fun d => d.streamConfig (0xA100 + 0x20 * e.val + 8 * reg.val))) := by
  refine ⟨fun h => hostWrite_same h _, fun h ha => ?_, fun h ha => ?_⟩
  all_goals rw [exec_strRsetWrite h]; simp only [State.withDev, Dev.rsetWrite, ha]; rfl

theorem sig_takes (s : State) (g : Fin 15) (k : Fin 64) (v : BitVec 32) :
    (s.dev.start.step < 6 → exec (.strSigWrite g k v) s = .next s) ∧
    (6 ≤ s.dev.start.step → ∃ t, exec (.strSigWrite g k v) s = .next t ∧ t.mem = s.mem ∧
      t = (s.withDev fun d => { d with mar := { d.mar with
        signals := AMap.set 0 d.mar.signals (64 * g.val + k.val) v } }) ∧
      t.dev.readBytes (0x120000 + 4 * (64 * g.val + k.val)) 4 = v.toNat) := by
  refine ⟨fun h => hostWrite_same h _, fun h => ⟨_, exec_strSigWrite h g k v, rfl, rfl, ?_⟩⟩
  rw [Dev.readBytes_signal _ (by omega)]
  simp only [State.withDev, Dev.sigSet, AMap.get_set_same]

theorem Dev.unbindGroup_ctxGroup (d : Dev) (g : Nat) : (d.unbindGroup g).ctxGroup = d.ctxGroup :=
  foldl_keeps Dev.ctxGroup (fun d (x : Nat × List Byte) => d.putCtx x.1 (withState x.2 1)) (fun _ _ => rfl) _ d

theorem unbind_takes (s : State) (v : BitVec 32) :
    (s.dev.start.step < 6 → exec (.unbind v) s = .next s) ∧
    (6 ≤ s.dev.start.step → ∃ t, exec (.unbind v) s = .next t ∧ t.mem = s.mem ∧ t.dev.ctxGroup = bits v.toNat 3 0 ∧
      (v.toNat.testBit 4 = false → t.dev.ctx = s.dev.ctx) ∧
      (v.toNat.testBit 4 = true → AMap.wf ctxFree s.dev.ctx = true → ∀ id, t.dev.ctxAt id =
        let old := s.dev.ctxAt id
        if ctxState old = 2 ∧ ctxGroupOf old = bits v.toNat 3 0 then withCheck (withState old 1) else old)) := by
  refine ⟨fun h => hostWrite_same h _, fun h => ⟨_, exec_unbind h v, rfl, ?_⟩⟩
  simp only [State.withDev, Dev.ctxCtrl, bit_eq_testBit]
  refine ⟨?_, fun hb => ?_, fun hb hw id => ?_⟩
  · split
    · exact Dev.unbindGroup_ctxGroup ..
    · rfl
  · rw [hb]; rfl
  · rw [if_pos hb]
    exact Dev.ctxAt_unbindGroup _ _ id hw

/-- A record takes a write in FREE, PARKED and FAULT alone, and is left FREE or PARKED (R292). -/
theorem Dev.ctxHostWrite_cases (d : Dev) (id o : Nat) (data : List Byte) :
    let old := d.ctxAt id
    let new := old.take o ++ data ++ old.drop (o + data.length)
    let may := (ctxState old = 0 ∨ ctxState old = 3 ∨ ctxState old = 4) ∧ (ctxState new = 0 ∨ ctxState new = 3)
    (may → d.ctxHostWrite id o data = d.setCtx id new) ∧
    (¬ may → d.ctxHostWrite id o data = d.raise { Rec.of 0x0069 1 with detail := leBytes 2 id ++ leBytes 1 0xFF }) := by
  intro old new may
  have hc : ([0, 3, 4].contains (ctxState old) && (ctxState new == 0 || ctxState new == 3)) = decide may := by
    rw [Bool.eq_iff_iff]
    simp [may]
  constructor
  · intro h
    exact if_pos (hc.trans (decide_eq_true h))
  · intro h
    exact if_neg (by rw [hc]; simpa using h)

theorem contextRecord_takes (s : State) (id o : Nat) (data : List Byte) (h : 4 ≤ s.dev.start.step) (hid : id < 65536)
    (hn : data ≠ []) (hl : o + data.length ≤ 128) :
    let old := s.dev.ctxAt id
    let new := old.take o ++ data ++ old.drop (o + data.length)
    let may := (ctxState old = 0 ∨ ctxState old = 3 ∨ ctxState old = 4) ∧ (ctxState new = 0 ∨ ctxState new = 3)
    (may → exec (.contextRecordWrite (128 * id + o) data) s = .next (s.withDev fun d => d.setCtx id new)) ∧
    (¬ may → exec (.contextRecordWrite (128 * id + o) data) s =
      .next (s.withDev fun d => d.raise { Rec.of 0x0069 1 with detail := leBytes 2 id ++ leBytes 1 0xFF })) := by
  intro old new may
  have h0 := List.length_pos_iff.mpr hn
  have hdiv : (128 * id + o) / 128 = id := by omega
  have hmod : (128 * id + o) % 128 = o := by omega
  obtain ⟨hy, hn'⟩ := s.dev.ctxHostWrite_cases id o data
  rw [exec_contextRecordWrite_within h hn (by omega) (by omega), hdiv, hmod]
  simp only [State.withDev]
  exact ⟨fun k => by rw [hy k], fun k => by rw [hn' k]⟩

/-- A shadow field takes its bits, and the live set stays (R5). -/
theorem registerWrite_period {s : State} (h : 6 ≤ s.dev.start.step) (v : BitVec 64) :
    exec (.registerWrite false 0x1008 4 v) s =
      .next (s.withDev fun d => d.setShadow fun k => { k with period := bits v.toNat 10 0 }) := by
  have e : bits (v.toNat % 2 ^ 32) 10 0 = bits v.toNat 10 0 := by
    simp only [bits]
    omega
  rw [← e]
  exact registerWrite_narrow v h rfl (by decide) rfl fun w => w.write32_period _

/-- A bit of `RLY_DOM_EVT` is cleared by a 1 unless it was set in the same cycle (R7). -/
theorem registerWrite_domEvt {s : State} (h : 6 ≤ s.dev.start.step) (v : BitVec 64) :
    ∃ t, exec (.registerWrite false 0x9808 4 v) s = .next t ∧ t.mem = s.mem ∧
      ∀ b, b < 8 → t.dev.dom.evt.toNat.testBit b =
        (s.dev.dom.evt.toNat.testBit b && (!v.toNat.testBit b || s.dev.justSet 0x9808 b)) := by
  refine ⟨_, registerWrite_narrow v h rfl (by decide) rfl fun w => w.write32_domEvt _, rfl, fun b hb => ?_⟩
  have h32 : b < 32 := by omega
  simp only [State.withDev, testBit_w1c8 _ _ hb, Dev.testBit_clears, Nat.testBit_mod_two_pow, h32, decide_true,
    Bool.true_and, Bool.not_and, Bool.not_not]

theorem registerWrite_rset {s : State} (h : 6 ≤ s.dev.start.step) (e : Fin 8) (reg : Fin 4) (v : BitVec 64) :
    exec (.registerWrite false (0xA100 + 0x20 * e.val + 8 * reg.val) 8 v) s = exec (.strRsetWrite e reg v) s := by
  have hw : wide (0xA100 + 0x20 * e.val + 8 * reg.val) = true := by
    simp only [wide, Bool.or_eq_true, Bool.and_eq_true, decide_eq_true_eq]
    omega
  have he : (0xA100 + 0x20 * e.val + 8 * reg.val - 0xA100) / 0x20 = e.val := by omega
  have hr : (0xA100 + 0x20 * e.val + 8 * reg.val - 0xA100) % 0x20 / 8 = reg.val := by omega
  rw [registerWrite_wide v h (by omega) (by omega) hw, exec_strRsetWrite h]
  simp only [State.withDev, Dev.write64_rset _ _ (show 0xA100 ≤ 0xA100 + 0x20 * e.val + 8 * reg.val by omega)
    (show 0xA100 + 0x20 * e.val + 8 * reg.val < 0xA200 by omega), he, hr]

theorem registerWrite_signal {s : State} (h : 6 ≤ s.dev.start.step) (g : Fin 15) (k : Fin 64) (v : BitVec 32) :
    exec (.registerWrite false (0x120000 + 4 * (64 * g.val + k.val)) 4 (v.setWidth 64)) s =
      exec (.strSigWrite g k v) s := by
  have hw : wide ((0x120000 + 4 * (64 * g.val + k.val)) / 8 * 8) = false := by
    simp only [wide, Bool.or_eq_false_iff, Bool.and_eq_false_iff, decide_eq_false_iff_not, beq_eq_false_iff_ne]
    omega
  have hk : (0x120000 + 4 * (64 * g.val + k.val) - 0x120000) / 4 = 64 * g.val + k.val := by omega
  rw [exec_strSigWrite h]
  refine registerWrite_narrow _ h (by omega) (by omega) hw fun w => ?_
  rw [w.write32_signal _ (by omega) (by omega), hk, toNat_setWidth_mod, BitVec.ofNat_toNat, BitVec.setWidth_eq]

theorem registerWrite_unbind {s : State} (h : 6 ≤ s.dev.start.step) (v : BitVec 32) :
    exec (.registerWrite false 0x4000 4 (v.setWidth 64)) s = exec (.unbind v) s := by
  rw [exec_unbind h]
  refine registerWrite_narrow _ h rfl (by decide) rfl fun w => ?_
  rw [w.write32_ctxCtrl, toNat_setWidth_mod]

theorem registerWrite_strRing {s : State} (h : 6 ≤ s.dev.start.step) (c : Fin 128) (k : StreamName) (v : BitVec 64) :
    exec (.registerWrite false (0x100000 + 0x100 * c.val + 0x40 * k.num) 8 v) s = exec (.strRingWrite c k false v) s := by
  have hn : k.num < 3 := by cases k <;> decide
  have hw : wide (0x100000 + 0x100 * c.val + 0x40 * k.num) = true := by
    simp only [wide, Bool.or_eq_true, Bool.and_eq_true, decide_eq_true_eq, beq_iff_eq]
    omega
  have hc : (0x100000 + 0x100 * c.val + 0x40 * k.num - 0x100000) / 0x100 = c.val := by omega
  have hk : (0x100000 + 0x100 * c.val + 0x40 * k.num) % 0x100 / 0x40 = k.num := by omega
  have hr : ((0x100000 + 0x100 * c.val + 0x40 * k.num) % 0x40 == 8) = false := by
    rw [beq_eq_false_iff_ne]
    omega
  have hs : exec (.strRingWrite c k false v) s = .next (s.withDev fun d => d.strRing c.val k.num false v.toNat) :=
    hostWrite_next h _
  rw [registerWrite_wide v h (by omega) (by omega) hw, hs]
  simp only [State.withDev]
  rw [Dev.write64_strRing _ _ (by omega) (by omega) (by omega), hc, hk, hr]

/-- A doorbell's offset in BAR2 takes 4 bytes (R416). -/
theorem Wk.write2_bell {w : Wk} {o : Nat} (v : Nat) (hs : 4 ≤ w.dev.start.step) (ho : o < 0x200000) (h0 : o % 0x1000 = 0)
    (hk : o % 0x4000 / 0x1000 < 3) :
    w.write2 o 4 v = w.up fun d => d.bell (o / 0x4000) (o % 0x4000 / 0x1000) (BitVec.ofNat 32 v) := by
  simp [Wk.write2, Wk.up, Dev.hostEarly_of hs, ho, h0, hk]

theorem registerWrite_doorbell {s : State} (h : 4 ≤ s.dev.start.step) (c : Fin 128) (k : StreamName) (v : BitVec 32) :
    exec (.registerWrite true (0x4000 * c.val + 0x1000 * k.num) 4 (v.setWidth 64)) s = exec (.doorbell c k v) s := by
  have hn : k.num < 3 := by cases k <;> decide
  have hd : exec (.doorbell c k v) s = .next (s.withDev fun d => d.bell c.val k.num v) :=
    devOnly_next_of s (if_pos (Dev.hostEarly_of h))
  have ho : 0x4000 * c.val + 0x1000 * k.num < 0x200000 := by omega
  have h0 : (0x4000 * c.val + 0x1000 * k.num) % 0x1000 = 0 := by omega
  have hk : (0x4000 * c.val + 0x1000 * k.num) % 0x4000 / 0x1000 = k.num := by omega
  have hc : (0x4000 * c.val + 0x1000 * k.num) / 0x4000 = c.val := by omega
  rw [hd, exec_registerWrite_served _ (.inl rfl) (by omega) (by simp only [if_true]; omega), ← State.after_up]
  refine done_next_of s ?_
  have hv : (v.setWidth 64).toNat % 2 ^ (8 * 4) = v.toNat := toNat_setWidth_mod v
  rw [if_pos rfl, Wk.write2_bell _ h ho h0 (hk.trans_lt hn), hk, hc, hv, BitVec.ofNat_toNat, BitVec.setWidth_eq]

/-- Settles O50, row by row: the rows' own equations, and for a register write the row of its register. -/
theorem hostWritesTakeEffect : Obligations.HostWritesTakeEffect := by
  intro s
  exact ⟨rset_takes s, sig_takes s, unbind_takes s,
    fun a data h => devOnly_same s (if_neg (by simp [Dev.hostEarly]; omega)),
    contextRecord_takes s,
    fun a data t h hl ha ht => exec_contextRecordWrite_split h hl ha ht,
    fun bar2 o size v hb => exec_registerWrite_unsupported v hb,
    fun h => ⟨fun v => ⟨_, registerWrite_period h v, rfl, rfl, rfl⟩, registerWrite_domEvt h, registerWrite_rset h,
      registerWrite_signal h, registerWrite_unbind h, registerWrite_strRing h, registerWrite_doorbell (by omega)⟩⟩

end Sys2Proof.Machine
end

section
/-! MEMORY: every step keeps its canonical form, and the commands of the block alone keep all of it (R22, R138). -/

namespace Sys2Proof.Machine

/-- An action reaches memory only through memory operations, and each of those keeps the canonical form. -/
theorem run_wf (s : State) (f : Wk → Wk) (h : s.mem.wf = true) : (run s f).mem.wf = true := by
  rw [run_mem]
  exact Mem.applyAll_wf _ _ h

/-- Every command that completes keeps the canonical form of memory. -/
theorem exec_wf {c : Instr} {s t : State} (h : s.mem.wf = true) (e : exec c s = .next t) : t.mem.wf = true := by
  rcases exec_shape c s with ⟨f, hf⟩ | hf
  · obtain rfl : run s f = t := Host.Outcome.next.inj (hf.symm.trans e)
    exact run_wf s f h
  · exact nomatch hf.symm.trans e

/-- Settles O4: a cycle without a command leaves memory, and a command applies memory operations. -/
theorem stepKeepsMemoryCanonical : Obligations.StepKeepsMemoryCanonical := by
  rintro ⟨m, d, q⟩ t h e
  cases q with
  | nil =>
    obtain rfl := Host.Outcome.next.inj e
    exact h
  | cons c rest =>
    exact exec_wf (s := ⟨m, d, rest⟩) h e

/-- Settles O7: such a command is an action on the block, which leaves the state's other fields. -/
theorem blockCommandsKeepMemory : Obligations.BlockCommandsKeepMemory := by
  intro c s hc
  obtain ⟨f, hf⟩ := exec_blockOnly c s hc
  exact ⟨{ s with dev := f s.dev }, hf.trans (devOnly_eq s f), rfl, rfl⟩

end Sys2Proof.Machine
end

section
/-! LAP TIMING: registers that read as their rules say (R47, R324, R325). -/

namespace Sys2Proof.Machine
open Sys2Proof.Config

/-! ### LAP_COUNT (R47) -/

/-- The two words of LAP_COUNT put together are the lap number. -/
theorem Dev.readBytes_lapCount (d : Dev) : d.readBytes 0x1000 8 = d.lap.count.toNat := by
  have hc := d.lap.count.isLt
  simp only [Dev.readBytes, Dev.word, Dev.lapWord, part, fld, BEq.rfl, ↓reduceIte, lt_self_iff_false, Nat.reduceLT,
    Nat.reduceAdd]
  omega

/-- No write acts on either half of LAP_COUNT. -/
theorem Wk.write32_lapCount (w : Wk) {o : Nat} (v : Nat) (ho : o = 0x1000 ∨ o = 0x1004) : w.write32 o v = w := by
  rcases ho with rfl | rfl <;> rfl

theorem registerWrite_lapCount {s : State} (h : 6 ≤ s.dev.start.step) (v : BitVec 64) :
    exec (.registerWrite false 0x1000 8 v) s = .next s := by
  rw [exec_registerWrite_served (bar2 := false) v (.inr rfl) rfl (by decide)]
  refine done_same s ?_
  have hw : wide (0x1000 / 8 * 8) = false := rfl
  have hs : s.work.dev.serves 0x1000 = true := by simp [Dev.serves, Dev.hostOpen, State.work, h]
  simp only [Wk.write, hs, hw, Wk.write32_lapCount _ _ (.inl rfl), Wk.write32_lapCount _ _ (.inr rfl)]
  rfl

theorem registerWrite_lapCountHalf {s : State} (h : 6 ≤ s.dev.start.step) (v : BitVec 64) {o : Nat}
    (ho : o = 0x1000 ∨ o = 0x1004) : exec (.registerWrite false o 4 v) s = .next s :=
  registerWrite_narrow (f := id) v h (by omega) (by omega) (by rcases ho with rfl | rfl <;> rfl)
    fun w => w.write32_lapCount _ ho

/-! ### RLY_BANK_SET (R324) -/

/-- RLY_SCALE shows the active bank in its bit 0. -/
theorem Dev.readBytes_bank (d : Dev) : d.readBytes 0x8000 4 % 2 = b2n d.rly.bank := by
  have hb : b2n d.rly.bank < 2 := by cases d.rly.bank <;> decide
  simp only [Dev.readBytes, Dev.word, Dev.rlyWord, part, fld, BEq.rfl, Nat.reduceBEq, Bool.false_eq_true, ↓reduceIte,
    Nat.reduceLT, lt_self_iff_false, Bool.or_false]
  omega

/-- RLY_BANK_SET is write-only. -/
theorem Dev.readBytes_bankSet (d : Dev) : d.readBytes 0x8008 4 = 0 := by
  simp [Dev.readBytes, Dev.word, Dev.rlyWord]

theorem b2n_bit_zero (v : Nat) : b2n (v.testBit 0) = v % 2 := by
  rw [Nat.testBit_zero]
  rcases Nat.mod_two_eq_zero_or_one v with h | h <;> rw [h] <;> rfl

theorem exec_rlyBankSet {s : State} (h : 6 ≤ s.dev.start.step) (v : BitVec 32) :
    exec (.rlyBankSet v) s = .next (s.withDev fun d => d.bankSet v.toNat) := hostWrite_next h _

/-- The bank is set only while no hurdle of HKIND 0x3 is armed. -/
theorem rlyBankSet_takes (s : State) (v : BitVec 32) (h : 6 ≤ s.dev.start.step) :
    (s.dev.armedKind 3 = false → ∃ t, exec (.rlyBankSet v) s = .next t ∧
      t = (s.withDev fun d => { d with rly := { d.rly with bank := v.toNat.testBit 0 } }) ∧
      t.dev.readBytes 0x8000 4 % 2 = v.toNat % 2) ∧
    (s.dev.armedKind 3 = true → exec (.rlyBankSet v) s = .next (s.withDev fun d => d.streamConfig 0x8008)) := by
  refine ⟨fun ha => ⟨_, ?_, rfl, (Dev.readBytes_bank _).trans (b2n_bit_zero _)⟩, fun ha => ?_⟩
  all_goals rw [exec_rlyBankSet h]; simp only [State.withDev, Dev.bankSet, ha, bit_eq_testBit]; rfl

/-! ### RLY_LAND and the registers of a port (R325 to R328) -/

theorem Dev.readBytes_land (d : Dev) (t : Fin 256) :
    d.readBytes (0x8400 + 4 * t.val) 4 = (AMap.get (0 : W32) d.rly.land t.val).toNat := by
  have e : (0x8400 + 4 * t.val - 0x8400) / 4 = t.val := by omega
  simp (disch := omega) only [Dev.readBytes, Dev.word, Dev.rlyWord, beq_iff_eq, Bool.or_eq_true, if_neg, if_pos, e]

theorem exec_rlyLandWrite {s : State} (h : 6 ≤ s.dev.start.step) (t : Fin 256) (v : BitVec 32) :
    exec (.rlyLandWrite t v) s = .next (s.withDev fun d => d.landSet t.val v) := hostWrite_next h _

theorem rlyLandWrite_takes (s : State) (t : Fin 256) (v : BitVec 32) (h : 6 ≤ s.dev.start.step) :
    ∃ r, exec (.rlyLandWrite t v) s = .next r ∧
      r = (s.withDev fun d => { d with rly := { d.rly with land := AMap.set 0 d.rly.land t.val v } }) ∧
      ∀ u : Fin 256, r.dev.readBytes (0x8400 + 4 * u.val) 4 =
        if u = t then v.toNat else s.dev.readBytes (0x8400 + 4 * u.val) 4 := by
  refine ⟨_, exec_rlyLandWrite h t v, rfl, fun u => ?_⟩
  simp only [Dev.readBytes_land, State.withDev, Dev.landSet, AMap.get_set, Fin.ext_iff]
  split <;> rfl

theorem Dev.word_port (d : Dev) (p : Fin 16) {o : Nat} (ho : o < 0x40) :
    d.word (0x9000 + p.val * 0x40 + o) = d.portWord p.val o := by
  have hq : (0x9000 + p.val * 0x40 + o - 0x9000) / 0x40 = p.val := by omega
  have hr : (0x9000 + p.val * 0x40 + o - 0x9000) % 0x40 = o := by omega
  simp (disch := omega) only [Dev.word, Dev.rlyWord, beq_iff_eq, Bool.or_eq_true, if_neg, if_pos, hq, hr]

/-- Settles O51, register by register. -/
theorem registersReadAsWritten : Obligations.RegistersReadAsWritten :=
  ⟨fun s v _ => ⟨s.dev.readBytes_lapCount, fun h => ⟨registerWrite_lapCount h v, registerWrite_lapCountHalf h v⟩⟩,
    Dev.readBytes_lapCount _, fun s v => ⟨s.dev.readBytes_bankSet, rlyBankSet_takes s v⟩, rlyLandWrite_takes,
    Dev.readBytes_land _, fun s p _ => s.dev.word_port p⟩

end Sys2Proof.Machine
end

section
/-! LAP TIMING: lap lock follows the tick (R33 to R35, R301; half of a round trip is rounded down, log entry 116). -/

namespace Sys2Proof.Machine
open Sys2Proof.Config

/-! ### The loss of lap lock (R34) -/

theorem Dev.setLock_lap (d : Dev) (b : Bool) : (d.setLock b).lap = { d.lap with lock := b } := by
  unfold Dev.setLock
  split
  · rename_i h
    rw [← beq_iff_eq.mp h]
  · simp

/-- What the ninth missing tick makes of the block. -/
def Dev.loseLock (d : Dev) : Dev :=
  let d := d.setLock false
  let d := { d with lap := { d.lap with lockLost := true, stopped := true, missed := 0, source := .own } }.latch 0x1010 7
  (d.raise (Rec.of 0x0031 2)).notify 0xFF 0xFF .lapLockLoss

theorem Dev.loseLock_lap (d : Dev) : d.loseLock.lap =
    { d.lap with lock := false, lockLost := true, stopped := true, missed := 0, source := .own } := by
  simp [Dev.loseLock, Dev.setLock_lap]

theorem exec_lapLockLoss_due {s : State} (hl : s.dev.lap.lock = true) (hm : 9 ≤ s.dev.lap.missed) :
    exec .lapLockLoss s = .next (s.withDev Dev.loseLock) :=
  devOnly_next_of s (if_pos (by simp [hl, hm]))

theorem exec_lapLockLoss_early {s : State} (h : s.dev.lap.lock = false ∨ s.dev.lap.missed < 9) :
    exec .lapLockLoss s = .next s :=
  devOnly_same s (if_neg (by rcases h with h | h <;> simp [h]))

theorem lapLockLoss_losesLock (s : State) (hl : s.dev.lap.lock = true) (hm : 9 ≤ s.dev.lap.missed) :
    ∃ t, exec .lapLockLoss s = .next t ∧ t.mem = s.mem ∧ t.dev.lap.lock = false ∧ t.dev.lap.lockLost = true ∧
      t.dev.lap.stopped = true ∧ t.dev.lap.source = .own ∧ t.dev.lap.missed = 0 ∧
      t.dev.lap.count = s.dev.lap.count := by
  refine ⟨_, exec_lapLockLoss_due hl hm, rfl, ?_⟩
  simp only [State.withDev, Dev.loseLock_lap, and_self]

/-! ### Ticks (R33 to R35) -/

/-- Only the tick of the source counts. -/
theorem exec_tick_other {s : State} {q : Fin 16} (lap : W64) (period grace : BitVec 16)
    (h : s.dev.parentPort ≠ some q.val ∨ s.dev.role = 0 ∨ s.dev.dom.takeover = true) :
    exec (.tick q lap period grace) s = .next s :=
  devOnly_same s (if_pos (by simpa [or_assoc] using h))

/-- The source's tick where the module keeps lap lock, and where it joins. -/
theorem exec_tick_source {s : State} {q : Fin 16} (lap : W64) (period grace : BitVec 16)
    (hp : s.dev.parentPort = some q.val) (hr : s.dev.role ≠ 0) (ht : s.dev.dom.takeover = false) :
    (s.dev.lap.lock = true → exec (.tick q lap period grace) s =
      .next (s.withDev fun d => { d with lap := { d.lap with ticked := true } })) ∧
    (s.dev.lap.lock = false → s.dev.lap.echoed = true →
      (s.dev.dom.state = .locking ∨ s.dev.dom.state = .awaiting ∨ s.dev.dom.state = .refused) →
      exec (.tick q lap period grace) s = .next (s.withDev fun d => { d with lap := { d.lap with
        loadLap := some (lap + 1), loadPair := some (period.toNat, grace.toNat) } })) := by
  have hs : ¬ (s.dev.parentPort != some q.val || s.dev.role == 0 || s.dev.dom.takeover) = true := by simp [hp, hr, ht]
  refine ⟨fun hl => devOnly_next_of s ((if_neg hs).trans (if_pos hl)), fun hl he hj => devOnly_next_of s ?_⟩
  have hj' : ((s.dev.dom.state == .locking || s.dev.dom.state == .awaiting || s.dev.dom.state == .refused)
      && s.dev.lap.echoed) = true := by
    simpa [he, or_assoc] using hj
  exact (if_neg hs).trans ((if_neg (by simp [hl])).trans (if_pos hj'))

/-! ### Echoes (R33, R301) -/

theorem exec_echoRequest (s : State) (q : Fin 16) (a b : BitVec 32) :
    (s.dev.portUp q.val = true →
      exec (.echoRequest q a b) s = .next (s.withDev fun d => d.send q.val (.echoResponse a b))) ∧
    (s.dev.portUp q.val = false → exec (.echoRequest q a b) s = .next s) :=
  ⟨fun h => devOnly_next_of s (if_pos h), fun h => devOnly_same s (if_neg (Bool.eq_false_iff.mp h))⟩

theorem exec_echoResponse (s : State) (q : Fin 16) (a b rtt : BitVec 32) :
    (s.dev.parentPort = some q.val → exec (.echoResponse q a b rtt) s = .next (s.withDev fun d =>
      { d with lap := { d.lap with delayNs := rtt.toNat / 2, echoed := true } })) ∧
    (s.dev.parentPort ≠ some q.val → exec (.echoResponse q a b rtt) s = .next s) :=
  ⟨fun h => devOnly_next_of s (if_pos (beq_iff_eq.mpr h)), fun h => devOnly_same s (if_neg (mt beq_iff_eq.mp h))⟩

/-- Settles O47: the loss of lap lock, the ticks and the echoes, each by its own equation. When a module
that joins takes lap lock and how the delay is rounded are the model's choices (log entries 76 and 116). -/
theorem lapLockFollowsTheTick : Obligations.LapLockFollowsTheTick :=
  ⟨lapLockLoss_losesLock, fun _ => exec_lapLockLoss_early, fun _ _ lap p g h => exec_tick_other lap p g h,
    fun _ _ lap p g hp hr ht => exec_tick_source lap p g hp hr ht, exec_echoRequest, exec_echoResponse⟩

end Sys2Proof.Machine
end

section
/-! LAP TIMING: hurdles, their decisions and notices (R40, R43, R301, R312, R340, R341, R355 to R360, R394). -/

namespace Sys2Proof.Machine
open Sys2Proof.Config

theorem State.withDev_mem (s : State) (f : Dev → Dev) : (s.withDev f).mem = s.mem := rfl

/-! ### What travelling messages and the members' records leave -/

theorem Dev.sendDown_lap (d : Dev) (x : Decision) : (d.sendDown x).lap = d.lap :=
  foldl_keeps Dev.lap _ (fun d q => d.send_lap q _) _ d

theorem Dev.sendDown_dom (d : Dev) (x : Decision) : (d.sendDown x).dom = d.dom :=
  foldl_keeps Dev.dom _ (fun d q => d.send_dom q _) _ d

theorem Dev.sendDown_img (d : Dev) (x : Decision) : (d.sendDown x).img = d.img :=
  foldl_keeps Dev.img _ (fun d q => d.send_img q _) _ d

theorem Dev.sendDown_moduleId (d : Dev) (x : Decision) : (d.sendDown x).moduleId = d.moduleId :=
  foldl_keeps Dev.moduleId _ (fun d q => d.send_moduleId q _) _ d

theorem Dev.sendDown_starting (d : Dev) (x : Decision) : (d.sendDown x).starting = d.starting := by
  simp only [Dev.starting, Dev.role, Dev.pos, Dev.live, Dev.sendDown_dom, Dev.sendDown_img, Dev.sendDown_moduleId]

theorem Dev.decide_lap (d : Dev) (x : Decision) : (d.decide_ x).lap = d.lap := Dev.sendDown_lap _ _

/-- What is decided waits for its edge on the starter too. -/
theorem Dev.decide_decided (d : Dev) (x : Decision) : (d.decide_ x).dom.decided = d.dom.decided ++ [x] :=
  congrArg Domain.decided (Dev.sendDown_dom _ _)

/-- An action of the starter waits for its edge. -/
theorem Dev.act_waiting (d : Dev) {v p : Nat} (data : List Byte) (arg : W32) (hv : v < 256) (hp : p < 65536) :
    (d.act v p data arg).waiting v p = true := by
  simp [Dev.waiting, Dev.act, Dev.decide_decided, Nat.mod_eq_of_lt hv, Nat.mod_eq_of_lt hp]

theorem Dev.declareLost_lap (d : Dev) (p : Nat) : (d.declareLost p).lap = d.lap := by
  unfold Dev.declareLost
  split
  · exact d.decide_lap _
  · rfl

theorem Dev.noteMissing_lap (d : Dev) (present : List Nat) : (d.noteMissing present).lap = d.lap := by
  refine foldl_keeps Dev.lap _ (fun d p => ?_) _ d
  dsimp only
  repeat' split
  · rfl
  · rfl
  · exact Dev.declareLost_lap _ _
  · rfl

theorem Dev.nextEdge_of_lap {d e : Dev} (h : e.lap = d.lap) : e.nextEdge = d.nextEdge := by
  rw [Dev.nextEdge, Dev.nextEdge, h]

/-- The starter in force is ACTIVE. -/
theorem Dev.active_of_starting {d : Dev} (h : d.starting = true) : d.dom.state = .active :=
  beq_iff_eq.mp (Bool.and_eq_true_iff.mp h).2

/-- A module that has joined a domain takes part in it. -/
theorem Dev.joined_of {d : Dev} (hd : d.inDomain = true) (ha : d.dom.state ≠ .alone) :
    ¬ (!d.inDomain || d.dom.state == .alone) = true := by
  simp [hd, ha]

/-! ### Contributions (R43, R356) -/

theorem exec_hurdleContribution (s : State) (c : Contribution) (hd : s.dev.inDomain = true)
    (ha : s.dev.dom.state ≠ .alone) :
    (s.dev.starting = false →
      exec (.hurdleContribution c) s = .next (s.withDev fun d => d.sendUp (.contribution c))) ∧
    (s.dev.starting = true → c.hseq ≠ 0 →
      (∀ x ∈ s.dev.dom.collected, ¬ (x.hseq = c.hseq ∧ x.pos = c.pos)) →
      (∀ x ∈ s.dev.dom.kept ++ s.dev.dom.decided, x.hseq ≠ c.hseq) →
      exec (.hurdleContribution c) s = .next (s.withDev fun d =>
        { d with dom := { d.dom with collected := d.dom.collected ++ [c] } })) ∧
    (∀ x ∈ s.dev.dom.collected, s.dev.starting = true → x.hseq = c.hseq → x.pos = c.pos →
      exec (.hurdleContribution c) s = .next s) := by
  have hj := Dev.joined_of hd ha
  refine ⟨fun hs => devOnly_next_of s ?_, fun hs hq hf hu => devOnly_next_of s ?_,
    fun x hx hs hq hp => devOnly_same s ?_⟩
  · exact (if_neg hj).trans (if_pos (by simp [hs]))
  all_goals refine (if_neg hj).trans ((if_neg (by simp [hs])).trans ?_)
  · have h1 : (s.dev.dom.collected.any fun x => x.hseq == c.hseq && x.pos == c.pos) = false := by
      simpa using fun x hx e => not_and.mp (hf x hx) e
    have h2 : ((s.dev.dom.kept ++ s.dev.dom.decided).any fun x => x.hseq == c.hseq) = false := by
      simpa only [List.any_eq_false, beq_iff_eq] using hu
    exact if_neg (by rw [h1, h2]; simpa using hq)
  · have h1 : (s.dev.dom.collected.any fun x => x.hseq == c.hseq && x.pos == c.pos) = true :=
      List.any_eq_true.mpr ⟨x, hx, by simp [hq, hp]⟩
    exact if_pos (by rw [h1]; simp)

/-! ### The decision of every hurdle (R43, R355 to R357) -/

theorem mem_nub {α : Type} [DecidableEq α] {a : α} {l acc : List α} : a ∈ nub l acc ↔ a ∈ l ∨ a ∈ acc := by
  induction l generalizing acc with
  | nil => simp [nub]
  | cons b l ih =>
    rw [nub]
    split
    case isTrue hb =>
      rw [ih, List.mem_cons]
      constructor
      · exact fun h => h.imp .inr id
      · rintro ((rfl | h) | h)
        exacts [.inr hb, .inl h, .inr h]
    case isFalse hb => rw [ih, List.mem_cons, List.mem_cons, or_left_comm, or_assoc]

theorem Dev.decideOne_lap (d : Dev) (q : W32) : (d.decideOne q).lap = d.lap := d.decide_lap _

/-- A decision for the next edge is added for the HSEQ. -/
theorem Dev.decideOne_decided (d : Dev) (q : W32) :
    ∃ x, (d.decideOne q).dom.decided = d.dom.decided ++ [x] ∧ x.hseq = q ∧ x.lap = d.nextEdge :=
  ⟨_, d.decide_decided _, rfl, rfl⟩

/-- What is decided stays decided while the other hurdles are. -/
theorem Dev.mem_decided_foldl_decideOne {d : Dev} {x : Decision} (h : x ∈ d.dom.decided) (qs : List W32) :
    x ∈ (qs.foldl Dev.decideOne d).dom.decided := by
  refine List.foldlRecOn (motive := fun d : Dev => x ∈ d.dom.decided) qs _ h fun d hd q _ => ?_
  obtain ⟨y, hy, -⟩ := d.decideOne_decided q
  exact hy ▸ List.mem_append_left _ hd

/-- Every HSEQ of a list is decided for the next edge. -/
theorem Dev.decided_of_foldl_decideOne {qs : List W32} {q : W32} (hq : q ∈ qs) (d : Dev) :
    ∃ x ∈ (qs.foldl Dev.decideOne d).dom.decided, x.hseq = q ∧ x.lap = d.nextEdge := by
  induction qs generalizing d with
  | nil => exact absurd hq List.not_mem_nil
  | cons p qs ih =>
    rcases List.mem_cons.mp hq with rfl | h
    · obtain ⟨x, hx, hxq⟩ := d.decideOne_decided q
      exact ⟨x, mem_decided_foldl_decideOne (hx ▸ List.mem_append_right _ List.mem_cons_self) qs, hxq⟩
    · rw [← Dev.nextEdge_of_lap (d.decideOne_lap p)]
      exact ih h _

/-- The HSEQs for which contributions are held, ascending. -/
def Dev.collectedSeqs (d : Dev) : List W32 :=
  (nub (d.dom.collected.map fun c => c.hseq) []).mergeSort fun a b => decide (a.toNat ≤ b.toNat)

theorem Dev.mem_collectedSeqs {d : Dev} {c : Contribution} (h : c ∈ d.dom.collected) : c.hseq ∈ d.collectedSeqs :=
  List.mem_mergeSort.mpr (mem_nub.mpr (.inl (List.mem_map_of_mem h)))

/-- The block once who was missing is settled for every hurdle. -/
def Dev.settleMissing (d : Dev) : Dev :=
  d.collectedSeqs.foldl (fun d q => d.noteMissing ((d.counting q).map fun c => c.pos.toNat)) d

theorem Dev.settleMissing_lap (d : Dev) : d.settleMissing.lap = d.lap :=
  foldl_keeps Dev.lap _ (fun d _ => d.noteMissing_lap _) _ d

theorem exec_hurdleDecide {s : State} (h : s.dev.starting = true) :
    exec .hurdleDecide s = .next (s.withDev fun d =>
      let e := d.collectedSeqs.foldl Dev.decideOne d.settleMissing
      { e with dom := { e.dom with collected := [] } }) :=
  devOnly_next_of s (if_neg (by simp [h]))

theorem hurdleDecide_decidesAll (s : State) (h : s.dev.starting = true) :
    ∃ t, exec .hurdleDecide s = .next t ∧ t.mem = s.mem ∧ t.dev.dom.collected = [] ∧
      ∀ c ∈ s.dev.dom.collected, ∃ x ∈ t.dev.dom.decided, x.hseq = c.hseq ∧ x.lap = s.dev.nextEdge := by
  refine ⟨_, exec_hurdleDecide h, rfl, rfl, fun c hc => ?_⟩
  rw [← Dev.nextEdge_of_lap s.dev.settleMissing_lap]
  exact Dev.decided_of_foldl_decideOne (Dev.mem_collectedSeqs hc) _

/-! ### Verdicts (R312, R340, R341, R355) -/

/-- A scale hurdle is accepted where every contribution is READY. -/
theorem Dev.verdict_scale (d : Dev) (l : List Contribution) (data : List Byte) :
    d.verdict 3 l false data = if l.all fun c => c.hflags.toNat.testBit 1 then 4 else 3 := by
  simp only [Dev.verdict, Bool.false_or, ← List.not_all_eq_any_not]
  cases l.all fun c => c.hflags.toNat.testBit 1 <;> rfl

/-- A securing is refused where it would begin before it is due. -/
theorem Dev.verdict_securing (d : Dev) (l : List Contribution) (data : List Byte) :
    d.verdict 5 l false data = if byteAt data 0 0 = 0 ∧ d.securingDue d.lap.count = true then 7 else 0 := by
  simp [Dev.verdict]

/-- Settles O42: contributions, the decision of every hurdle, and the verdicts kind by kind. That a decision
passes over an edge that is held and that a securing is judged by LAP_COUNT as it stands then are the model's choices
(log entries 56 and 68). -/
theorem hurdlesAreDecided : Obligations.HurdlesAreDecided :=
  ⟨exec_hurdleContribution, hurdleDecide_decidesAll, fun d l data =>
    ⟨rfl, rfl, rfl, rfl, rfl, rfl, d.verdict_securing l data, rfl, rfl, d.verdict_scale l data⟩⟩

/-! ### Decisions on their way (R301, R356, R360) -/

theorem exec_hurdleDecision {s : State} (x : Decision) (hd : s.dev.inDomain = true) (ha : s.dev.dom.state ≠ .alone) :
    exec (.hurdleDecision x) s =
      .next (s.withDev fun d => (if d.starting then d else d.sendDown x).takeDecision x) :=
  devOnly_next_of s (if_neg (Dev.joined_of hd ha))

/-- In lap lock, a decision before its edge waits, and one at or after it is late. -/
theorem Dev.takeDecision_locked {d : Dev} (x : Decision) (hs : d.starting = false) (hl : d.lap.lock = true) :
    d.takeDecision x = if x.lap.toNat ≤ d.lap.count.toNat then d.lateDecision x
      else { d with dom := { d.dom with decided := d.dom.decided ++ [x] } } := by
  simp [Dev.takeDecision, hs, hl]

theorem Dev.takeDecision_takeover {d : Dev} {x : Decision} (hs : d.starting = true) (hv : x.verdict = 0x14)
    (hp : d.pos ≠ some x.pos.toNat) : d.takeDecision x = d.depose x.pos.toNat := by
  simp [Dev.takeDecision, hs, hv, hp]

theorem Dev.domEvt_lap (d : Dev) (n : Nat) : (d.domEvt n).lap = d.lap := by simp [Dev.domEvt]

theorem Dev.domEvt_dom (d : Dev) (n : Nat) :
    (d.domEvt n).dom = { d.dom with evt := d.dom.evt ||| BitVec.ofNat 8 (2 ^ n) } := by simp [Dev.domEvt]

theorem Dev.lateDecision_lap (d : Dev) (x : Decision) : (d.lateDecision x).lap = { d.lap with stopped := true } := by
  simp [Dev.lateDecision, Dev.domEvt_lap]

theorem Dev.lateDecision_dom (d : Dev) (x : Decision) :
    (d.lateDecision x).dom = { d.dom with evt := d.dom.evt ||| BitVec.ofNat 8 (2 ^ 5) } := by
  simp [Dev.lateDecision, Dev.domEvt_dom]

theorem Dev.depose_dom (d : Dev) (p : Nat) : (d.depose p).dom =
    { d.dom with state := .alone, newStarter := some p, decided := [], collected := [] } := by simp [Dev.depose]

theorem Dev.depose_lap (d : Dev) (p : Nat) : (d.depose p).lap = { d.lap with stopped := true, source := .own } := by
  simp [Dev.depose]

/-- Where the module is not the starter the decision goes down first, which leaves what it is judged by. -/
theorem Dev.takeDecision_sendDown {d : Dev} (x : Decision) (hs : d.starting = false) (hl : d.lap.lock = true) :
    (if d.starting then d else d.sendDown x).takeDecision x =
      let e := d.sendDown x
      if x.lap.toNat ≤ d.lap.count.toNat then e.lateDecision x
      else { e with dom := { e.dom with decided := e.dom.decided ++ [x] } } := by
  have hs' := (d.sendDown_starting x).trans hs
  have hc : (d.sendDown x).lap.count = d.lap.count := congrArg Lap.count (d.sendDown_lap x)
  rw [if_neg (Bool.eq_false_iff.mp hs), Dev.takeDecision_locked x hs' (by rwa [Dev.sendDown_lap]), hc]

/-- A decision that comes before its edge waits for it. -/
theorem hurdleDecision_waits {s : State} {x : Decision} (hd : s.dev.inDomain = true) (ha : s.dev.dom.state ≠ .alone)
    (hs : s.dev.starting = false) (hl : s.dev.lap.lock = true) (hx : s.dev.lap.count.toNat < x.lap.toNat) :
    ∃ t, exec (.hurdleDecision x) s = .next t ∧ t.mem = s.mem ∧ t.dev.dom.decided = s.dev.dom.decided ++ [x] ∧
      t.dev.lap = s.dev.lap := by
  refine ⟨_, exec_hurdleDecision x hd ha, State.withDev_mem _ _, ?_⟩
  simp only [State.withDev, Dev.takeDecision_sendDown x hs hl, if_neg (Nat.not_le.mpr hx), Dev.sendDown_lap,
    Dev.sendDown_dom, and_self]

/-- A decision that comes at its edge or later stops dispatch and shows in RLY_DOM_EVT. -/
theorem hurdleDecision_late {s : State} {x : Decision} (hd : s.dev.inDomain = true) (ha : s.dev.dom.state ≠ .alone)
    (hs : s.dev.starting = false) (hl : s.dev.lap.lock = true) (hx : x.lap.toNat ≤ s.dev.lap.count.toNat) :
    ∃ t, exec (.hurdleDecision x) s = .next t ∧ t.mem = s.mem ∧ t.dev.dom.decided = s.dev.dom.decided ∧
      t.dev.lap.stopped = true ∧ t.dev.dom.evt.toNat.testBit 5 = true := by
  refine ⟨_, exec_hurdleDecision x hd ha, State.withDev_mem _ _, ?_⟩
  simp only [State.withDev, Dev.takeDecision_sendDown x hs hl, if_pos hx, Dev.lateDecision_lap, Dev.lateDecision_dom,
    Dev.sendDown_dom, true_and]
  rw [BitVec.toNat_or, Nat.testBit_or]
  exact Bool.or_eq_true_iff.mpr (.inr rfl)

/-- A TAKEOVER that names another position deposes the starter. -/
theorem hurdleDecision_deposes {s : State} {x : Decision} (hd : s.dev.inDomain = true) (ha : s.dev.dom.state ≠ .alone)
    (hs : s.dev.starting = true) (hv : x.verdict = 0x14) (hp : s.dev.pos ≠ some x.pos.toNat) :
    ∃ t, exec (.hurdleDecision x) s = .next t ∧ t.mem = s.mem ∧ t.dev.dom.state = .alone ∧
      t.dev.dom.newStarter = some x.pos.toNat ∧ t.dev.lap.stopped = true := by
  refine ⟨_, exec_hurdleDecision x hd ha, State.withDev_mem _ _, ?_⟩
  simp only [State.withDev, hs, if_true, Dev.takeDecision_takeover hs hv hp, Dev.depose_dom, Dev.depose_lap, and_self]

/-! ### Losses and notices (R40, R301, R357, R394) -/

theorem noEchoLoss_waits (s : State) (p : Fin 258) (hs : s.dev.starting = true) (hm : s.dev.memberIn p.val = true)
    (hw : s.dev.waiting 0x12 p.val = false) :
    ∃ t, exec (.noEchoLoss p) s = .next t ∧ t.mem = s.mem ∧ t.dev.waiting 0x12 p.val = true := by
  have hl : s.dev.declareLost p.val = s.dev.act 0x12 p.val [] 0 := if_pos (by simp [hm, hw])
  refine ⟨_, devOnly_next_of (g := fun d => d.act 0x12 p.val [] 0) s ((if_pos hs).trans hl), rfl, ?_⟩
  exact Dev.act_waiting _ _ _ (by decide) (by omega)

theorem exec_notice {s : State} (n : Notice) (hd : s.dev.inDomain = true) (hs : s.dev.starting = true) :
    exec (.notice n) s = .next (s.withDev fun d => d.settleNotice n) :=
  devOnly_next_of s ((if_neg (Dev.joined_of hd (by simp [Dev.active_of_starting hs]))).trans (if_pos hs))

/-- A member's record reads as what was made of it. -/
theorem Dev.member_setMember (d : Dev) (p : Nat) (f : Member → Member) : (d.setMember p f).member p = f (d.member p) := by
  simp [Dev.member, Dev.setMember, AMap.get_upd]

/-- The starter answers each notice with its action. -/
theorem notice_settled (s : State) (n : Notice) (hd : s.dev.inDomain = true) (hs : s.dev.starting = true) :
    let p := n.pos.toNat
    ((n.kind = .overrun ∨ n.kind = .fault) →
      exec (.notice n) s = .next (s.withDev fun d => d.act 0x13 p (leBytes 1 0) 0)) ∧
    (n.kind = .shardPoison → exec (.notice n) s = .next (s.withDev fun d => d.act 0x13 p (leBytes 1 1) 0)) ∧
    ((n.kind = .lapLockLoss ∨ n.kind = .lateDecision ∨ n.kind = .goingDown) →
      exec (.notice n) s = .next (s.withDev fun d => d.declareLost p)) ∧
    (n.kind = .rebuilt →
      ∃ t, exec (.notice n) s = .next t ∧ t.mem = s.mem ∧ (t.dev.member p).counts = s.dev.nextEdge) := by
  rw [exec_notice n hd hs]
  refine ⟨?_, fun h => ?_, ?_, fun h => ⟨_, rfl, rfl, ?_⟩⟩
  · rintro (h | h) <;> simp only [State.withDev, Dev.settleNotice, h]
  · simp only [State.withDev, Dev.settleNotice, h]
  · rintro (h | h | h) <;> simp only [State.withDev, Dev.settleNotice, h]
  · simp only [State.withDev, Dev.settleNotice, h, Dev.member_setMember]

/-! ### The standby (R359) -/

theorem exec_standbyTakeover {s : State} (hr : s.dev.role = 1) (ha : s.dev.dom.state = .active)
    (hm : 4 ≤ s.dev.lap.missed) (hl : s.dev.dom.starterLost = true) (ht : s.dev.dom.takeover = false) :
    exec .standbyTakeover s = .next (s.withDev fun d => { d with
      lap := { d.lap with source := .starter, missed := 0 }, dom := { d.dom with takeover := true } }) :=
  devOnly_next_of s (if_pos (by simp [hr, ha, hm, hl, ht]))

/-- Settles O43: decisions on their way, losses, notices and the standby, each by its own lemma. That an abandon names the
sender of the notice, that a starter is deposed on receipt, that a late decision stops dispatch and the notice of a
module that goes down are the model's choices (log entries 59, 73, 74 and 110). -/
theorem decisionsAndNotices : Obligations.DecisionsAndNotices :=
  ⟨fun _ _ hd ha => ⟨hurdleDecision_waits hd ha, hurdleDecision_late hd ha, hurdleDecision_deposes hd ha⟩,
    noEchoLoss_waits, notice_settled, fun _ => exec_standbyTakeover⟩

end Sys2Proof.Machine
end

section
/-! STRUCTURE IMAGE: requests of IMG_CTRL, the end of a load and of a commit's check (R68 to R70, R75, R77, R487). -/

namespace Sys2Proof.Machine

/-! ### The outcome of a request (R487) -/

@[simp] theorem Dev.imgDone_img (d : Dev) (result sec : Nat) :
    (d.imgDone result sec).img = { d.img with done := true, result := result, section_ := sec } := by simp [Dev.imgDone]

@[simp] theorem Dev.imgReject_img (d : Dev) (result sec : Nat) : (d.imgReject result sec).img = d.img := by
  unfold Dev.imgReject
  split
  · exact Dev.raise_img ..
  · rfl

/-! ### Requests of IMG_CTRL (R70, R75) -/

/-- A load is refused only while another runs: a pending set is no obstacle (R68, R76). -/
theorem Dev.imgCtrl_load (d : Dev) {v : Nat} (hv : v % 8 = 1) : d.imgCtrl v =
    if d.img.loading = true then d.imgDone resBusy 0 else { d with img := { d.img with loading := true } } := by
  simp [Dev.imgCtrl, hv]

theorem Dev.imgCtrl_commit (d : Dev) {v : Nat} (hv : v % 8 = 2) : d.imgCtrl v =
    if d.img.loading = true ∨ d.img.checking = true ∨ d.img.pending.isSome = true then d.imgDone resBusy 0
    else { d with img := { d.img with checking := true } } := by
  simp [Dev.imgCtrl, hv, or_assoc]

/-- With a set pending, a DISCARD takes it back, whatever else runs. -/
theorem Dev.imgCtrl_discard_pending (d : Dev) {v : Nat} (hv : v % 8 = 4) (hp : d.img.pending.isSome = true) :
    d.imgCtrl v = { d with img := { d.img with pending := none } }.imgDone 0x31 0 := by
  simp [Dev.imgCtrl, hv, hp]

theorem Dev.imgCtrl_discard (d : Dev) {v : Nat} (hv : v % 8 = 4) (hp : d.img.pending = none) : d.imgCtrl v =
    if d.img.loading = true ∨ d.img.checking = true then d.imgDone resBusy 0
    else { d with img := { d.img with shadow := d.live } }.imgDone resOk 0 := by
  simp [Dev.imgCtrl, hv, hp, Dev.live, or_comm]

theorem Dev.imgCtrl_several (d : Dev) {v : Nat} (hv : v % 8 = 3 ∨ 5 ≤ v % 8) :
    d.imgCtrl v = d.imgDone resBadRequest 0 := by
  have h1 : v % 8 ≠ 1 := by omega
  have h2 : v % 8 ≠ 2 := by omega
  have h4 : v % 8 ≠ 4 := by omega
  have h0 : v % 8 ≠ 0 := by omega
  simp [Dev.imgCtrl, h1, h2, h4, h0]

/-- The three rows that write IMG_CTRL mean the same: they take the value written. -/
theorem imgCtrl_next {s : State} {v : BitVec 32} {g : Dev → Dev} (h : 6 ≤ s.dev.start.step)
    (hg : s.dev.imgCtrl v.toNat = g s.dev) :
    exec (.imgLoad v) s = .next (s.withDev g) ∧ exec (.imgCommit v) s = .next (s.withDev g) ∧
      exec (.imgDiscard v) s = .next (s.withDev g) :=
  have e := devOnly_next_of s ((Dev.hostWrite_open h fun d => d.imgCtrl v.toNat).trans hg)
  ⟨e, e, e⟩

theorem imgLoad_takes {s : State} {v : BitVec 32} (h : 6 ≤ s.dev.start.step) (hb : v.toNat % 8 = 1) :
    (s.dev.img.loading = false →
      exec (.imgLoad v) s = .next (s.withDev fun d => { d with img := { d.img with loading := true } })) ∧
    (s.dev.img.loading = true → exec (.imgLoad v) s = .next (s.withDev fun d => d.imgDone resBusy 0)) :=
  have e := s.dev.imgCtrl_load hb
  ⟨fun hl => (imgCtrl_next h (e.trans (if_neg (Bool.eq_false_iff.mp hl)))).1,
    fun hl => (imgCtrl_next h (e.trans (if_pos hl))).1⟩

theorem imgCommit_takes {s : State} {v : BitVec 32} (h : 6 ≤ s.dev.start.step) (hb : v.toNat % 8 = 2) :
    let under := s.dev.img.loading = true ∨ s.dev.img.checking = true ∨ s.dev.img.pending.isSome = true
    (¬ under → exec (.imgCommit v) s = .next (s.withDev fun d => { d with img := { d.img with checking := true } })) ∧
    (under → exec (.imgCommit v) s = .next (s.withDev fun d => d.imgDone resBusy 0)) :=
  have e := s.dev.imgCtrl_commit hb
  ⟨fun hu => (imgCtrl_next h (e.trans (if_neg hu))).2.1, fun hu => (imgCtrl_next h (e.trans (if_pos hu))).2.1⟩

theorem imgDiscard_pending {s : State} {v : BitVec 32} (h : 6 ≤ s.dev.start.step) (hb : v.toNat % 8 = 4)
    (hp : s.dev.img.pending.isSome = true) : exec (.imgDiscard v) s =
      .next (s.withDev fun d => { d with img := { d.img with pending := none } }.imgDone 0x31 0) :=
  (imgCtrl_next h (s.dev.imgCtrl_discard_pending hb hp)).2.2

theorem imgDiscard_takes {s : State} {v : BitVec 32} (h : 6 ≤ s.dev.start.step) (hb : v.toNat % 8 = 4) :
    let under := s.dev.img.loading = true ∨ s.dev.img.checking = true ∨ s.dev.img.pending.isSome = true
    (¬ under → exec (.imgDiscard v) s =
      .next (s.withDev fun d => { d with img := { d.img with shadow := d.live } }.imgDone resOk 0)) ∧
    (under → s.dev.img.pending = none →
      exec (.imgDiscard v) s = .next (s.withDev fun d => d.imgDone resBusy 0)) := by
  refine ⟨fun hu => ?_, fun hu hp => ?_⟩
  · obtain ⟨hr, hp⟩ := not_or.mp (mt or_assoc.mp hu)
    have e := s.dev.imgCtrl_discard hb (Option.not_isSome_iff_eq_none.mp hp)
    exact (imgCtrl_next h (e.trans (if_neg hr))).2.2
  · have hr : s.dev.img.loading = true ∨ s.dev.img.checking = true := by simpa [hp] using hu
    exact (imgCtrl_next h ((s.dev.imgCtrl_discard hb hp).trans (if_pos hr))).2.2

/-- More than one request in a write is refused (R75). -/
theorem imgLoad_several {s : State} {v : BitVec 32} (h : 6 ≤ s.dev.start.step)
    (hb : v.toNat % 8 = 3 ∨ 5 ≤ v.toNat % 8) :
    exec (.imgLoad v) s = .next (s.withDev fun d => d.imgDone resBadRequest 0) :=
  (imgCtrl_next h (s.dev.imgCtrl_several hb)).1

/-! ### The end of a load (R68, R77) -/

theorem Dev.loadDone_img_ok {d : Dev} {mem : Mem} {k : Conf} (hl : d.img.loading = true)
    (hk : loadImage mem d = .ok k) :
    (d.loadDone mem).img = { d.img with
      loading := false, shadow := k, loaded := k.serial, done := true, result := resOk, section_ := 0 } := by
  simp [Dev.loadDone, hl, hk]

theorem Dev.loadDone_img_error {d : Dev} {mem : Mem} {r sec : Nat} (hl : d.img.loading = true)
    (he : loadImage mem d = .error (r, sec)) :
    (d.loadDone mem).img = { d.img with loading := false, done := true, result := r, section_ := sec } := by
  simp [Dev.loadDone, hl, he]

theorem exec_imgLoadDone (s : State) : exec .imgLoadDone s = .next (s.withDev fun d => d.loadDone s.mem) := rfl

/-- A load that passes fills the shadow and gives its number; one that fails leaves both. -/
theorem imgLoadDone_ends (s : State) (hl : s.dev.img.loading = true) :
    ∃ t, exec .imgLoadDone s = .next t ∧ t.mem = s.mem ∧ t.dev.img.loading = false ∧ t.dev.img.done = true ∧
      t.dev.live = s.dev.live ∧
      (∀ k, loadImage s.mem s.dev = .ok k →
        t.dev.img.shadow = k ∧ t.dev.img.loaded = k.serial ∧ t.dev.img.result = resOk ∧ t.dev.img.section_ = 0) ∧
      (∀ r sec, loadImage s.mem s.dev = .error (r, sec) → t.dev.img.shadow = s.dev.img.shadow ∧
        t.dev.img.loaded = s.dev.img.loaded ∧ t.dev.img.result = r ∧ t.dev.img.section_ = sec) := by
  refine ⟨_, exec_imgLoadDone s, State.withDev_mem _ _, ?_⟩
  cases hi : loadImage s.mem s.dev with
  | ok k => simp [State.withDev, Dev.live, Dev.loadDone_img_ok hl hi]
  | error e =>
    obtain ⟨r, sec⟩ := e
    simp [State.withDev, Dev.live, Dev.loadDone_img_error hl hi]

/-! ### The end of a commit's check (R69, R70) -/

/-- What passes the check is frozen; where a structural field changes, it waits for quiesce. -/
theorem Dev.commitDone_img_frozen {d : Dev} (hc : d.img.checking = true) (hk : d.commitCheck = none) :
    d.commitDone.img = { d.img with
      checking := false, pending := some d.img.shadow
      quiesce := decide (d.img.shadow.structural ≠ d.live.structural), afterHeld := d.lap.held, periodSent := false
      done := true, result := resOk, section_ := 0 } := by
  simp [Dev.commitDone, hc, hk]

theorem Dev.commitDone_img_rejected {d : Dev} {r sec : Nat} (hc : d.img.checking = true)
    (hk : d.commitCheck = some (r, sec)) :
    d.commitDone.img = { d.img with checking := false, done := true, result := r, section_ := sec } := by
  simp [Dev.commitDone, hc, hk]

theorem exec_imgCommitCheckDone (s : State) : exec .imgCommitCheckDone s = .next (s.withDev Dev.commitDone) := rfl

/-- A commit that passes its check is frozen as pending, one that fails leaves what is pending; the live set stays. -/
theorem imgCommitCheckDone_ends (s : State) (hc : s.dev.img.checking = true) :
    ∃ t, exec .imgCommitCheckDone s = .next t ∧ t.mem = s.mem ∧ t.dev.img.checking = false ∧ t.dev.live = s.dev.live ∧
      t.dev.img.done = true ∧
      (s.dev.commitCheck = none → t.dev.img.pending = some s.dev.img.shadow ∧ t.dev.img.result = resOk) ∧
      (∀ r sec, s.dev.commitCheck = some (r, sec) → t.dev.img.pending = s.dev.img.pending ∧ t.dev.img.result = r ∧
        t.dev.img.section_ = sec) := by
  refine ⟨_, exec_imgCommitCheckDone s, State.withDev_mem _ _, ?_⟩
  cases hk : s.dev.commitCheck with
  | none => simp [State.withDev, Dev.live, Dev.commitDone_img_frozen hc hk]
  | some e =>
    obtain ⟨r, sec⟩ := e
    simp [State.withDev, Dev.live, Dev.commitDone_img_rejected hc hk]

/-- Settles O48: the requests of IMG_CTRL, the end of a load and the end of a commit's check, each by its own lemma.
That a commit is refused while another is checked is the model's choice (log entry 119). -/
theorem imagesLoadAndCommit : Obligations.ImagesLoadAndCommit :=
  ⟨fun _ _ h => ⟨fun hb => (imgLoad_takes h hb).1, fun hb => (imgLoad_takes h hb).2,
      fun hb => (imgCommit_takes h hb).1, fun hb => (imgCommit_takes h hb).2, fun hb => (imgDiscard_takes h hb).1,
      fun _ hb hp => imgDiscard_pending h hb (Option.isSome_of_eq_some hp), fun hb => (imgDiscard_takes h hb).2,
      imgLoad_several h⟩,
    imgLoadDone_ends, imgCommitCheckDone_ends⟩

end Sys2Proof.Machine
end

section
/-! STAGES: what a heat keeps while its command gets on. The marks of its parts are not taken back (R190, R225), and no
accumulator buffer changes but by a unit's computation or a drain (R114). -/

namespace Sys2Proof.Machine

open Sys2Proof.Config

/-! ### Marks of parts -/

/-- Running, or cancelled while it ran: the entry stays in the scoreboard (R238). -/
def Heat.started (x : Heat) : Prop := x.state = .running ∨ x.state = .cancelling

theorem Heat.started_of_mayRun {x : Heat} (h : x.mayRun = true) : x.started := by
  simp only [Heat.mayRun, Bool.and_eq_true, beq_iff_eq] at h
  exact .inl h.1.1

/-- `y` is `x` later: it is started still, and no mark of a part is taken back. -/
structure Heat.MarksIn (x y : Heat) : Prop where
  started : x.started → y.started
  ran     : ∀ st n, n ∈ (x.at st).ran → n ∈ (y.at st).ran
  asked   : ∀ st n, n ∈ (x.at st).asked → n ∈ (y.at st).asked

theorem Heat.MarksIn.refl (x : Heat) : x.MarksIn x := ⟨fun s => s, fun _ _ m => m, fun _ _ m => m⟩

theorem Heat.MarksIn.trans {x y z : Heat} (h : x.MarksIn y) (k : y.MarksIn z) : x.MarksIn z :=
  ⟨fun s => k.started (h.started s), fun st n m => k.ran st n (h.ran st n m), fun st n m => k.asked st n (h.asked st n m)⟩

/-- A change of an entry that keeps its state and the progress of its stages. -/
theorem Heat.MarksIn.of_prog {x y : Heat} (hs : x.started → y.started) (hp : y.prog = x.prog) : x.MarksIn y := by
  have e : ∀ st, y.at st = x.at st := fun st => by simp only [Heat.at, hp]
  exact ⟨hs, fun st n m => by rwa [e], fun st n m => by rwa [e]⟩

/-- A change of a stage's progress that takes no mark back. -/
theorem Heat.MarksIn.upAt (x : Heat) (st : Nat) {f : Prog → Prog} (hr : ∀ g n, n ∈ g.ran → n ∈ (f g).ran)
    (ha : ∀ g n, n ∈ g.asked → n ∈ (f g).asked) : x.MarksIn (x.upAt st f) := by
  refine ⟨fun s => s, fun k n m => ?_, fun k n m => ?_⟩ <;> rw [Heat.at_upAt] <;> split
  · rename_i e; subst e; exact hr _ n m
  · exact m
  · rename_i e; subst e; exact ha _ n m
  · exact m

/-- A part that has run is marked. -/
theorem Heat.ranPart_marksIn (x : Heat) (st : Nat) (p : Part) : x.MarksIn (x.ranPart st p) :=
  (Heat.MarksIn.upAt x st (f := fun g => { g with ran := g.ran ++ [p.no] }) (fun _ _ m => List.mem_append_left _ m)
    fun _ _ m => m).trans (.of_prog (fun s => s) rfl)

theorem Heat.mem_ran_ranPart (x : Heat) (st : Nat) (p : Part) : p.no ∈ ((x.ranPart st p).at st).ran := by
  show p.no ∈ ((x.upAt st fun g => { g with ran := g.ran ++ [p.no] }).at st).ran
  rw [Heat.at_upAt, if_pos rfl]
  exact List.mem_append_right _ (List.mem_singleton.mpr rfl)

/-! ### The block from one state of a command to the next -/

/-- From `d` to `e` every started heat stays in the scoreboard and keeps its marks. -/
def Dev.MarksIn (d e : Dev) : Prop := ∀ k x, d.heat k = some x → x.started → ∃ y, e.heat k = some y ∧ x.MarksIn y

theorem Dev.MarksIn.trans {a b c : Dev} (h : a.MarksIn b) (k : b.MarksIn c) : a.MarksIn c := fun i x hx hs =>
  let ⟨_, hy, my⟩ := h i x hx hs
  let ⟨z, hz, mz⟩ := k i _ hy (my.started hs)
  ⟨z, hz, my.trans mz⟩

/-- From `d` to `e` every started heat keeps its marks, and every accumulator buffer stays. -/
structure Dev.Carries (d e : Dev) : Prop where
  heat : d.MarksIn e
  acc  : e.mar.acc = d.mar.acc

theorem Dev.Carries.of_mar {d e : Dev} (hh : e.mar.heats = d.mar.heats) (ha : e.mar.acc = d.mar.acc) : d.Carries e :=
  ⟨fun _ x hx _ => ⟨x, by simpa only [Dev.heat, hh] using hx, .refl x⟩, ha⟩

theorem Dev.Carries.of_eq {d e : Dev} (h : e.mar = d.mar) : d.Carries e := .of_mar (by rw [h]) (by rw [h])

theorem Dev.Carries.refl (d : Dev) : d.Carries d := .of_eq rfl

theorem Dev.Carries.trans {a b c : Dev} (h : a.Carries b) (k : b.Carries c) : a.Carries c :=
  ⟨h.heat.trans k.heat, k.acc.trans h.acc⟩

theorem Dev.Carries.foldl {α : Type} {f : Dev → α → Dev} (hf : ∀ d x, Dev.Carries d (f d x)) (l : List α) (d : Dev) :
    d.Carries (l.foldl f d) :=
  foldl_inv (fun e => d.Carries e) f (fun e x h => h.trans (hf e x)) l d (.refl d)

theorem Dev.carries_updWhere (d : Dev) (q : Heat → Bool) {f : Heat → Heat} (hi : ∀ x, (f x).id = x.id)
    (hf : ∀ x : Heat, x.MarksIn (f x)) : d.Carries { d with mar := { d.mar with heats := updWhere q f d.mar.heats } } := by
  refine ⟨fun k x hx _ => ⟨if q x then f x else x, ?_, ?_⟩, rfl⟩
  · rw [Dev.heat_updWhere d q f hi, hx]; rfl
  · split
    · exact hf x
    · exact .refl x

theorem Dev.setHeat_carries (d : Dev) (id : HeatId) {f : Heat → Heat} (hi : ∀ x, (f x).id = x.id)
    (hf : ∀ x : Heat, x.MarksIn (f x)) : d.Carries (d.setHeat id f) := d.carries_updWhere _ hi hf

/-! ### Slots, reads and stores -/

theorem Dev.emptySlot_carries (d : Dev) (g : Nat) : d.Carries (d.emptySlot g) := .of_mar rfl rfl
theorem Dev.claimSlot_carries (d : Dev) (g : Nat) : d.Carries (d.claimSlot g) := .of_mar rfl rfl
theorem Dev.post_carries (d : Dev) (r : Req) : d.Carries (d.post r) := .of_mar rfl rfl

theorem Dev.fillSlot_carries (d : Dev) (g : Nat) : d.Carries (d.fillSlot g) := by
  unfold Dev.fillSlot
  dsimp only
  split
  · refine .trans (b := d.tag g true false (d.now + 3)) (.of_mar rfl rfl)
      (Dev.carries_updWhere _ _ (by intro; rfl) fun x => ?_)
    exact .upAt x 0 (fun _ _ m => m) fun _ _ m => m
  · exact .of_mar rfl rfl

theorem Dev.unclaimSlot_carries (d : Dev) (g : Nat) : d.Carries (d.unclaimSlot g) := by
  unfold Dev.unclaimSlot
  dsimp only
  split
  · refine .trans (b := d.tag g false false 0) (.of_mar rfl rfl) (Dev.carries_updWhere _ _ (by intro; rfl) fun x => ?_)
    exact .upAt x 0 (fun _ _ m => m) fun _ _ m => m
  · exact .of_mar rfl rfl

theorem Dev.askPart_carries (h : Heat) (st : Nat) (d : Dev) (p : Part) : d.Carries (Dev.askPart h st d p) :=
  (Dev.Carries.foldl (fun d _ => d.post_carries _) p.lines d).trans
    (Dev.setHeat_carries _ h.id (by intro; rfl) fun x => .upAt x st (fun _ _ m => m) fun _ _ m => List.mem_append_left _ m)

theorem Dev.ask_carries (d : Dev) (h : Heat) (st : Nat) (pl : Plan) : d.Carries (d.ask h st pl) := by
  unfold Dev.ask
  split
  · exact .foldl (Dev.askPart_carries h st) _ d
  · exact .refl d

theorem Dev.consume_carries (d : Dev) (id : HeatId) (st : Nat) (slots : List Nat) : d.Carries (d.consume id st slots) := by
  unfold Dev.consume
  split
  · exact .refl d
  · exact (Dev.Carries.foldl Dev.emptySlot_carries _ d).trans
      (Dev.setHeat_carries _ id (by intro; rfl) fun _ => .of_prog (fun s => s) rfl)

theorem Dev.claimFor_carries (d : Dev) (h : HeatId) (slots : List Nat) : d.Carries (d.claimFor h slots) :=
  (Dev.Carries.foldl Dev.claimSlot_carries _ d).trans
    (Dev.setHeat_carries _ h (by intro; rfl) fun _ => .of_prog (fun s => s) rfl)

theorem Dev.fillFor_carries (d : Dev) (h : HeatId) (slots : List Nat) : d.Carries (d.fillFor h slots) :=
  (Dev.Carries.foldl Dev.fillSlot_carries _ d).trans
    (Dev.setHeat_carries _ h (by intro; rfl) fun _ => .of_prog (fun s => s) rfl)

/-! ### The end of a stage, and of a heat by a fault (R148, R201, R238) -/

theorem Dev.finish_carries (d : Dev) (id : HeatId) (st : Nat) (temps : List Nat) : d.Carries (d.finish id st temps) := by
  unfold Dev.finish
  split
  · exact .refl d
  · refine ((Dev.Carries.foldl Dev.unclaimSlot_carries _ d).trans (.foldl Dev.emptySlot_carries _ _)).trans
      (Dev.setHeat_carries _ id (by intro; rfl) fun x => ?_)
    have marks : x.MarksIn (x.upAt st fun g => { g with ended := true }) := .upAt x st (fun _ _ m => m) fun _ _ m => m
    exact marks.trans (.of_prog (fun s => s) rfl)

theorem Dev.rest_carries (d : Dev) (h : Heat) (st : Nat) (pl : Plan) : d.Carries (d.rest h st pl) := by
  unfold Dev.rest
  dsimp only
  split
  · exact d.finish_carries ..
  · exact Dev.setHeat_carries d h.id (by intro; rfl) fun _ => .of_prog (fun s => s) rfl

/-- Judging the heats that wait changes none that has started. -/
theorem Dev.settle_carries (d : Dev) : d.Carries d.settle := by
  refine ⟨fun k x hx hs => ⟨x, d.settle_heat_some k x hx ?_, .refl x⟩, by simp⟩
  rcases hs with e | e <;> simp [e]

/-- A heat that is cancelled as it runs stays until its cancellation completes, with its full buffers (R238). -/
theorem Dev.cancelHeat_carries (d : Dev) {x : Heat} (hx : x.started) (chain : Bool) : d.Carries (d.cancelHeat x chain) := by
  have dead : d.Carries (d.markDead x.id chain) := .of_eq (by simp)
  unfold Dev.cancelHeat
  rcases hx with e | e <;> simp only [e]
  · have free := Dev.Carries.foldl Dev.unclaimSlot_carries x.claims (d.markDead x.id chain)
    have quiet := fun e : Dev => Dev.Carries.of_eq (d := e) (e := e.withdraw x.id) (by simp)
    exact ((dead.trans free).trans (quiet _)).trans
      (Dev.setHeat_carries _ x.id (by intro; rfl) fun _ => .of_prog (fun _ => .inr rfl) rfl)
  · exact dead

theorem Dev.endHeat_carries (d : Dev) {x : Heat} (hx : x.started) : d.Carries (d.endHeat x) := by
  have cancel := d.cancelHeat_carries hx false
  have halted := Dev.Carries.of_eq ((d.cancelHeat x false).halt_mar x.id.cluster.val x.id.stream.num 3 x.id.index)
  unfold Dev.endHeat
  exact ((cancel.trans halted).trans (Dev.settle_carries _)).trans (.of_eq (Dev.notify_mar ..))

theorem Dev.faultHeat_carries (d : Dev) {x : Heat} (hx : x.started) (r : Rec) : d.Carries (d.faultHeat x r) :=
  .trans (.of_eq (d.raise_mar r)) (Dev.endHeat_carries _ hx)

theorem Dev.pondPoisonHeat_carries (d : Dev) {x : Heat} (hx : x.started) (a : Nat) : d.Carries (d.pondPoisonHeat x a) :=
  d.faultHeat_carries hx _

/-! ### Stores of pieces -/

theorem Wk.each_carries {α : Type} {f : Wk → α → Wk} (hf : ∀ (w : Wk) x, w.dev.Carries (f w x).dev) (l : List α) (w : Wk) :
    w.dev.Carries (Wk.each l f w).dev := by
  induction l generalizing w with
  | nil => exact .refl _
  | cons x l ih => exact (hf w x).trans (ih _)

theorem Wk.pondPieces_carries (w : Wk) (ps : List Piece) : w.dev.Carries (w.pondPieces ps).dev := by
  refine (Wk.each_carries (fun w x => ?_) (joinPieces ps) w).trans (Wk.each_carries (fun (w : Wk) p => ?_) _ _)
  · exact .of_mar (by simp [Wk.pondPut]) (by simp [Wk.pondPut])
  · refine Wk.each_carries (fun w i => ?_) _ w
    exact .refl w.dev

/-- What a store of pieces alone does. -/
theorem Wk.store_pieces (w : Wk) {id : HeatId} {x : Heat} (hx : w.dev.heat id = some x) (who : Requester) (st no : Nat)
    (ps : List Piece) (bad : Bool) : w.store id who st no ps [] bad =
      if bad || (ps.filter fun p => decide (p.1 < pondBase)).any fun p => p.2.2 then (w.up fun d => d.endHeat x, false)
      else ((w.pondPieces (ps.filter fun p => decide (pondBase ≤ p.1))).up fun d =>
        (hbmWrites (ps.filter fun p => decide (p.1 < pondBase))).foldl
          (fun d z => d.post (Req.forHeat x who [z.1 / 128] (.write z.1 z.2) st no [])) d, true) := by
  simp only [Wk.store, hx, List.filter_nil, List.foldl_nil, Wk.each]

theorem Wk.store_pieces_none (w : Wk) {id : HeatId} (hx : w.dev.heat id = none) (who : Requester) (st no : Nat)
    (ps : List Piece) (bad : Bool) : w.store id who st no ps [] bad = (w, false) := by simp only [Wk.store, hx]

/-- A store of pieces by a heat that has started. -/
theorem Wk.store_carries (w : Wk) {id : HeatId} (hs : ∀ x, w.dev.heat id = some x → x.started) (who : Requester)
    (st no : Nat) (ps : List Piece) (bad : Bool) : w.dev.Carries (w.store id who st no ps [] bad).1.dev := by
  cases hx : w.dev.heat id with
  | none => rw [w.store_pieces_none hx]; exact .refl _
  | some x =>
    rw [w.store_pieces hx]
    split
    · rw [Wk.dev_up]
      exact w.dev.endHeat_carries (hs x hx)
    · rw [Wk.dev_up]
      refine (w.pondPieces_carries _).trans (Dev.Carries.foldl (fun d z => ?_) _ _)
      exact d.post_carries _

theorem Wk.ops_up (w : Wk) (f : Dev → Dev) : (w.up f).ops = w.ops := rfl

/-- A store into HBM leaves memory to its requests. -/
theorem Wk.store_ops_of_hbm (w : Wk) (id : HeatId) (who : Requester) (st no : Nat) {ps : List Piece} (bad : Bool)
    (hp : ∀ p ∈ ps, p.1 < pondBase) : (w.store id who st no ps [] bad).1.ops = w.ops := by
  have e : ps.filter (fun p => decide (pondBase ≤ p.1)) = [] :=
    List.filter_eq_nil_iff.mpr fun p m => by simpa using hp p m
  cases hx : w.dev.heat id with
  | none => rw [w.store_pieces_none hx]
  | some x =>
    rw [w.store_pieces hx, e]
    split <;> rw [Wk.ops_up]
    rfl

end Sys2Proof.Machine
end

section
/-! LAST PARTS: how a stage ends with the one part that is left, where its plan does not depend on how far the command
is. -/

namespace Sys2Proof.Machine

variable {s : State} {h : HeatId} {x y : Heat} {w q : Wk} {st : Nat} {pl : Plan} {mk : Wk → Heat → Plan} {p : Part}

/-! ### The heat whose last part begins -/

theorem Dev.foldl_askPart_asked (x : Heat) (st : Nat) (l : List Part) {d : Dev} {y : Heat} (hy : d.heat x.id = some y)
    (hs : y.started) : ∃ z, (l.foldl (Dev.askPart x st) d).heat x.id = some z ∧ ∀ p ∈ l, p.no ∈ (z.at st).asked := by
  induction l generalizing d y with
  | nil => exact ⟨y, hy, by simp⟩
  | cons p l ih =>
    have h1 : (Dev.askPart x st d p).heat x.id = some (y.upAt st fun g => { g with asked := g.asked ++ [p.no] }) := by
      refine Dev.heat_setHeat_some ((foldl_heat _ ?_ p.lines d x.id).trans hy) (by intro; rfl)
      intros; rfl
    obtain ⟨z, hz, hl⟩ := ih h1 hs
    obtain ⟨z', hz', m⟩ := (Dev.Carries.foldl (Dev.askPart_carries x st) l _).heat _ _ h1 hs
    obtain rfl : z' = z := Option.some.inj (hz'.symm.trans hz)
    refine ⟨z', hz, List.forall_mem_cons.mpr ⟨m.asked st _ ?_, hl⟩⟩
    rw [Heat.at_upAt, if_pos rfl]
    exact List.mem_append_right _ (List.mem_singleton.mpr rfl)

/-- Where gather streams are left for a heat, the reads of all its parts have been asked for (R190). -/
theorem Dev.ask_asked {d : Dev} (hx : d.heat x.id = some x) (hs : x.started) (hf : d.streamsFor x = true)
    (hy : (d.ask x st pl).heat x.id = some y) (r : Part) (hr : r ∈ pl.parts) : r.no ∈ (y.at st).asked := by
  by_cases ha : r.no ∈ (x.at st).asked
  · obtain ⟨z, hz, m⟩ := (d.ask_carries x st pl).heat _ _ hx hs
    obtain rfl : z = y := Option.some.inj (hz.symm.trans hy)
    exact m.asked st _ ha
  · rw [Dev.ask, if_pos hf] at hy
    obtain ⟨z, hz, hl⟩ := Dev.foldl_askPart_asked x st (pl.parts.filter fun p => !(x.at st).asked.contains p.no) hx hs
    obtain rfl : z = y := Option.some.inj (hz.symm.trans hy)
    exact hl r (List.mem_filter.mpr ⟨hr, by simpa using ha⟩)

theorem SolePart.near (hs : SolePart s h x y w st pl p) : x.near y := by
  obtain ⟨z, hz, n⟩ := s.dev.ask_near x st pl h x hs.goes.1
  have e : w.dev = s.dev.ask x st pl := by rw [hs.asked]; rfl
  obtain rfl : z = y := Option.some.inj (hz.symm.trans (e ▸ hs.heat))
  exact n

theorem Heat.near.mayRun (n : x.near y) (hx : x.mayRun = true) : y.mayRun = true := by
  obtain ⟨-, -, hstate, hdone, hskip, -⟩ := n
  rwa [Heat.mayRun, hstate, hdone, hskip]

/-- All reads of the stage have been asked for when its last part may run. -/
theorem SolePart.asked_all (hs : SolePart s h x y w st pl p) : ∀ r ∈ pl.parts, r.no ∈ (y.at st).asked := by
  obtain rfl : x.id = h := Dev.heat_id hs.goes.1
  have e : w.dev = s.dev.ask x st pl := by rw [hs.asked]; rfl
  have hy := hs.heat
  have hup := hs.up
  rw [e] at hy hup
  refine Dev.ask_asked hs.goes.1 (Heat.started_of_mayRun hs.goes.2) ?_ hy
  -- without streams left nothing would have been asked, and the part would not be up
  by_contra hf
  rw [Dev.ask, if_neg hf] at hy hup
  obtain rfl : x = y := Option.some.inj (hs.goes.1.symm.trans hy)
  simp only [Dev.partUp, Bool.and_eq_true] at hup
  exact hf hup.1.1.2

/-- No stage that has ended reads a slot. -/
theorem Heat.readElse_of_alone (ha : ∀ k, k < x.body.stages.length → k ≠ st → (x.at k).ended = true) (g : Nat) :
    x.readElse st g = false := by
  refine List.any_eq_false.mpr fun z hz => ?_
  obtain ⟨k, hk, rfl⟩ := List.mem_mapIdx.mp hz
  by_cases e : k = st <;> simp [e, ha k hk]

theorem Dev.consume_heat {d : Dev} (hy : d.heat h = some y)
    (ha : ∀ k, k < y.body.stages.length → k ≠ st → (y.at k).ended = true) (slots : List Nat) :
    (d.consume h st slots).heat h = some y := by
  have hk : slots.filter (y.readElse st) = [] := List.filter_eq_nil_iff.mpr fun g _ => by simp [Heat.readElse_of_alone ha g]
  simp only [Dev.consume, hy, hk]
  refine (Dev.heat_setHeat_some ((foldl_heat _ Dev.emptySlot_heat _ d h).trans hy) (by intro; rfl)).trans ?_
  simp

theorem Dev.claimFor_heat {d : Dev} (hy : d.heat h = some y) (slots : List Nat) :
    ∃ c, (d.claimFor h slots).heat h = some { y with claims := c } :=
  ⟨_, Dev.heat_setHeat_some ((foldl_heat _ Dev.claimSlot_heat _ d h).trans hy) (by intro; rfl)⟩

/-- As its last part begins, a heat changes in nothing but its claims. -/
theorem SolePart.begins_heat (hs : SolePart s h x y w st pl p) :
    ∃ c, (w.begins h st p).dev.heat h = some { y with claims := c } := by
  obtain ⟨-, hbody, -, -, -, -, -, hended⟩ := hs.near
  refine Dev.claimFor_heat (Dev.consume_heat hs.heat ?_ _) p.slots
  intro k hk hne
  rw [hended]
  exact hs.alone k (hbody ▸ hk) hne

/-! ### Plans that stay the same -/

/-- A plan made anew holds the same: that it is whole, its slots that hold nothing at the end, and the numbers of its
parts do not depend on how far the command is. -/
structure Steady (mk : Wk → Heat → Plan) : Prop where
  whole : ∀ w x, (mk w x).whole = true
  temps : ∀ w x w' x', (mk w x).temps = (mk w' x').temps
  nos   : ∀ w x w' x', (mk w x).parts.map Part.no = (mk w' x').parts.map Part.no

theorem Steady.exists_part (hm : Steady mk) {w w' : Wk} {x x' : Heat} {r : Part} (hr : r ∈ (mk w x).parts) :
    ∃ r' ∈ (mk w' x').parts, r'.no = r.no :=
  List.mem_map.mp (hm.nos w x w' x' ▸ List.mem_map_of_mem hr)

/-- The end of the last part, which has left its heat as it was but for its claims and its saturation: the marks of the
heat, and that it may go on to the end of its stage. -/
theorem SolePart.ends_marked (hs : SolePart s h x y w st pl p) {c : List Nat} {b : Bool} (temps : List Nat)
    (hq : q.dev.heat h = some { y with claims := c, sat := b }) :
    ∃ z, ((q.upHeat h fun x => x.ranPart st p).up fun d =>
        d.fillFor h (p.slots.filter fun g => !temps.contains g)).dev.heat h = some z ∧
      z.mayRun = true ∧ (z.at st).ended = false ∧ y.MarksIn z ∧ p.no ∈ (z.at st).ran := by
  obtain ⟨z, hz, -, -, hstate, hdone, hskip, hended⟩ := Wk.ends_heat q h st temps p _ hq
  have hrun : y.mayRun = true := hs.near.mayRun hs.goes.2
  have hran := Dev.heat_setHeat_some (f := fun x => x.ranPart st p) hq (by intro; rfl)
  obtain ⟨z', hz', m⟩ := (Dev.fillFor_carries _ h (p.slots.filter fun g => !temps.contains g)).heat _ _ hran
    (Heat.started_of_mayRun hrun)
  obtain rfl : z' = z := Option.some.inj (hz'.symm.trans hz)
  refine ⟨z', hz, ?_, ?_, ?_, m.ran st _ (Heat.mem_ran_ranPart _ st p)⟩
  · rwa [Heat.mayRun, hstate, hdone, hskip]
  · rw [hended]
    obtain ⟨-, -, -, -, -, -, -, hnear⟩ := hs.near
    exact (hnear st).trans hs.notOver
  · have hy : y.MarksIn { y with claims := c, sat := b } := .of_prog (fun k => k) rfl
    exact hy.trans ((Heat.ranPart_marksIn _ st p).trans m)

/-- With the one part that is left a stage of a steady plan ends, and the command with its last stage. -/
theorem SolePart.stage_ends (hm : Steady mk) (hs : SolePart s h x y w st (mk s.work x) p)
    (hst : st < max 1 x.body.stages.length) (hr : p.run (w.view h st) (w.begins h st p) = (q, true))
    {c : List Nat} {b : Bool} (hq : q.dev.heat h = some { y with claims := c, sat := b }) :
    s.work.stage mk h st = q.ends h st (mk s.work x).temps p ∧
      finished (s.after (q.ends h st (mk s.work x).temps p)) h (mk s.work x).temps p := by
  obtain ⟨z, hz, hgo, hopen, hmarks, hran⟩ := hs.ends_marked (mk s.work x).temps hq
  obtain ⟨-, hbody, -, -, -, hleave, -, hended⟩ := hs.near
  constructor
  · refine Wk.stage_last s h x y w q st mk p hs hr z hz hgo hopen (hm.whole _ _) (hm.temps _ _ _ _) ?_ ?_
    · refine List.filter_eq_nil_iff.mpr fun r hr => ?_
      obtain ⟨r', hr', e⟩ := hm.exists_part (w' := s.work) (x' := x) hr
      suffices r'.no ∈ (z.at st).ran by simpa [← e] using this
      by_cases hy : r'.no ∈ (y.at st).ran
      · exact hmarks.ran st _ hy
      · have : r' ∈ (mk s.work x).undone y st := List.mem_filter.mpr ⟨hr', by simpa using hy⟩
        rw [hs.left, List.mem_singleton] at this
        rwa [this]
    · intro r hr
      obtain ⟨r', hr', e⟩ := hm.exists_part (w' := s.work) (x' := x) hr
      exact e ▸ hmarks.asked st _ (hs.asked_all r' hr')
  · refine Wk.ends_finished s q h st _ p _ hq (hleave.trans hs.unkept) (hbody ▸ hst) fun k hk hne => ?_
    exact (hended k).trans (hs.alone k (hbody ▸ hk) hne)

end Sys2Proof.Machine
end

section
/-! CORES AND ARRAYS: the row reducer (R128 to R130, R217). -/

namespace Sys2Proof.Machine

variable {h : HeatId} {x : Heat} {w : Wk}

/-! ### Stores in turn -/

/-- An action that, where the heat goes on after it, has changed the heat in nothing but its saturation. -/
def Wk.Saturates (h : HeatId) (f : Wk → Wk × Bool) : Prop :=
  ∀ w x, w.dev.heat h = some x → (f w).2 = true → ∃ b, (f w).1.dev.heat h = some { x with sat := b }

theorem Wk.store_saturates (h : HeatId) (who : Requester) (st no : Nat) {ps : Wk → List Piece} {atoms : Wk → List AtomOp}
    (ha : ∀ w, ∀ o ∈ atoms w, o.plain = true) : Wk.Saturates h fun w => w.store h who st no (ps w) (atoms w) false := by
  intro w x hx hgo
  by_cases hn : noHbmPoison (ps w)
  · obtain ⟨-, -, hheat, -⟩ := w.store_stays h x who st no (ps w) (atoms w) hx hn (ha w)
    exact hheat
  · simp [Wk.store_poisoned w h x who st no (ps w) (atoms w) false hx (.inr hn)] at hgo

theorem Wk.chain_saturates {l : List (Wk → Wk × Bool)} (hl : ∀ f ∈ l, Wk.Saturates h f) :
    Wk.Saturates h fun w => w.chain l := by
  induction l with
  | nil => exact fun w x hx _ => ⟨x.sat, hx⟩
  | cons f l ih =>
    obtain ⟨hf, hl⟩ := List.forall_mem_cons.mp hl
    intro w x hx hgo
    rcases e : f w with ⟨w', ok⟩
    cases ok with
    | false => simp [Wk.chain, e] at hgo
    | true =>
      simp only [Wk.chain, e] at hgo ⊢
      obtain ⟨b, hb⟩ := hf w x hx (by rw [e])
      rw [e] at hb
      obtain ⟨b', hb'⟩ := ih hl w' _ hb hgo
      exact ⟨b', hb'⟩

theorem Wk.addColumns_saturates (c : RowCmd) (started : Bool) (t : Desc) (l : List W32) :
    Wk.Saturates c.h.id fun w => w.addColumns c started t l :=
  Wk.store_saturates c.h.id c.who c.st 0 fun _ => Desc.foldOf_plain _ _

/-! ### Pass 2 (R128 to R130) -/

/-- Both passes go over the same rows whenever the plan is made. -/
theorem rowReducePlan_steady (st : Nat) (b : RowBody) : Steady (rowReducePlan st b) where
  whole _ _ := rfl
  temps _ _ _ _ := rfl
  nos w x w' x' := by
    simp only [rowReducePlan, List.map_append, List.mapIdx_eq_zipIdx_map, List.map_map]
    rfl

theorem RowCmd.pass2_saturates (c : RowCmd) (w : Wk) (k : Nat) (rs : List Nat) (v : Nat → View) :
    Wk.Saturates c.h.id ((c.pass2 w k rs).run v) := by
  refine Wk.chain_saturates ?_
  simp only [List.forall_mem_append, List.forall_mem_map, List.forall_mem_flatten]
  refine ⟨⟨⟨fun t _ => ?_, fun t _ => ?_⟩, fun t _ f hf => ?_⟩, fun t _ f hf => ?_⟩
  · exact Wk.store_saturates c.h.id c.who c.st _ fun _ => Desc.foldOf_plain _ _
  · exact Wk.store_saturates c.h.id c.who c.st _ fun _ => Desc.foldOf_plain _ _
  all_goals
    obtain ⟨i, hi, rfl⟩ := List.mem_mapIdx.mp hf
    exact Wk.addColumns_saturates c _ t _

theorem exec_rowReduce {s : State} {h : HeatId} {x : Heat} {b : RowBody} (hx : s.dev.goes h x)
    (hb : x.body = .stage (.rowReduce b)) :
    exec (.rowReduce h) s = .next (s.after (s.work.stage (rowReducePlan 0 b) h 0)) :=
  done_withHeat s h x hx.1 hx.2 _ _ rfl _ (by simp only [hb])

/-- Settles O28: the part of pass 2 that is left is the chain of its stores, which leaves the heat as it was but for its
saturation, so the stage, whose plan is steady, ends with it. -/
theorem rowReduceStores : Obligations.RowReduceStores := by
  intro s h x y w b k rs hb c p hs u out put sums q hq
  obtain rfl : x.id = h := Dev.heat_id hs.goes.1
  have hr : p.run (w.view x.id 0) (w.begins x.id 0 p) = (q.1, true) := Prod.ext rfl hq
  obtain ⟨cl, hc⟩ := hs.begins_heat
  obtain ⟨sat, hsat⟩ := c.pass2_saturates s.work k rs (w.view x.id 0) _ _ hc hq
  obtain ⟨hstage, hfin⟩ := hs.stage_ends (rowReducePlan_steady 0 b) (lt_max_of_lt_left Nat.one_pos) hr hsat
  exact ⟨(exec_rowReduce hs.goes hb).trans (by rw [hstage]; rfl), hfin⟩

end Sys2Proof.Machine
end

section
/-! CORES AND ARRAYS: units of matrix commands (R112, R114, R214, R230, R274). What a unit leaves in its buffer stays to be
drained, whatever the stage goes on to do. -/

namespace Sys2Proof.Machine

open Sys2Proof.Config

variable {s : State} {id : HeatId} {m : MatBody} {x y : Heat} {w w' : Wk}

/-! ### A matrix stage gets on -/

/-- A matrix stage gets from `w` to `w'`: heats keep their marks, full buffers stay as they are, and memory takes nothing
where no output is compressed. -/
structure Wk.GetsOn (m : MatBody) (w w' : Wk) : Prop where
  heat : w.dev.MarksIn w'.dev
  bufs : ∀ k, AMap.get [] w.dev.mar.acc k ≠ [] → AMap.get [] w'.dev.mar.acc k = AMap.get [] w.dev.mar.acc k
  ops  : m.mapped = [] → w'.ops = w.ops

theorem Wk.GetsOn.of_carries (h : w.dev.Carries w'.dev) (ho : m.mapped = [] → w'.ops = w.ops) : Wk.GetsOn m w w' :=
  ⟨h.heat, fun _ _ => by rw [h.acc], ho⟩

theorem Wk.GetsOn.refl (m : MatBody) (w : Wk) : Wk.GetsOn m w w := .of_carries (.refl _) fun _ => rfl

theorem Wk.GetsOn.trans {a b c : Wk} (h : Wk.GetsOn m a b) (k : Wk.GetsOn m b c) : Wk.GetsOn m a c :=
  ⟨h.heat.trans k.heat, fun i hi => by rw [k.bufs i (by rwa [h.bufs i hi]), h.bufs i hi],
    fun hm => (k.ops hm).trans (h.ops hm)⟩

theorem Wk.GetsOn.up {f : Dev → Dev} (h : w.dev.Carries (f w.dev)) : Wk.GetsOn m w (w.up f) :=
  .of_carries h fun _ => rfl

/-- A part gets its stage on when it runs. -/
def Part.GetsOn (m : MatBody) (id : HeatId) (p : Part) : Prop :=
  ∀ (v : Nat → View) (w : Wk), (∀ x, w.dev.heat id = some x → x.started) → Wk.GetsOn m w (p.run v w).1

/-! ### The parts of a matrix stage -/

theorem Dev.useWeights_carries (d : Dev) (key : Nat) (b : WBuf) : d.Carries (d.useWeights key b) := by
  unfold Dev.useWeights
  dsimp only
  split
  · exact .of_mar rfl rfl
  · split
    · exact .refl d
    · exact .of_mar rfl rfl

/-- What a unit leaves: by the sparse engine, or by the array. -/
def MatCtx.unitBuf (c : MatCtx) (v : View) (u : Nat) : AccBuf :=
  if (c.plan u).engine == 1 then c.sparseUnit v (c.plan u) u else c.arrayUnit v (c.plan u) u

/-- The block once a unit has put its buffer. -/
def Dev.putBuf (d : Dev) (key : Nat) (b : AccBuf) : Dev :=
  { d with mar := { d.mar with acc := AMap.set [] d.mar.acc key [b] } }

/-- After its buffer a unit changes the weight buffers or the operand store, and the saturation of its heat. -/
theorem MatCtx.compute_carries (c : MatCtx) (u key : Nat) (v : View) (w : Wk) :
    (w.dev.putBuf key (c.unitBuf v u)).Carries (c.compute u key v w).1.dev := by
  refine .trans ?_ (Dev.setHeat_carries _ c.h.id (by intro; rfl) fun _ => .of_prog (fun s => s) rfl)
  rw [Wk.dev_up]
  unfold MatCtx.unitBuf
  dsimp only
  split
  · exact .of_mar rfl rfl
  · exact Dev.Carries.foldl (fun d _ => d.useWeights_carries _ _) _ (w.dev.putBuf key _)

theorem MatCtx.compute_acc (c : MatCtx) (u key : Nat) (v : View) (w : Wk) :
    (c.compute u key v w).1.dev.mar.acc = AMap.set [] w.dev.mar.acc key [c.unitBuf v u] :=
  (c.compute_carries u key v w).acc

/-- A unit takes an empty buffer only (R114). -/
theorem MatCtx.bufFor_empty {c : MatCtx} {d : Dev} {u key : Nat} (h : c.bufFor d u = some key) :
    AMap.get [] d.mar.acc key = [] := by
  unfold MatCtx.bufFor at h
  dsimp only at h
  obtain ⟨he, hk⟩ := Option.ite_none_right_eq_some.mp h
  rw [← Option.some.inj hk]
  exact List.isEmpty_iff.mp (Bool.and_eq_true_iff.mp he).1

/-- The buffer that a unit takes depends on the cores' faults and the full buffers. -/
theorem MatCtx.bufFor_congr (c : MatCtx) {d e : Dev} (hf : e.flt = d.flt) (ha : e.mar.acc = d.mar.acc) (u : Nat) :
    c.bufFor e u = c.bufFor d u := by
  have array : c.array e = c.array d := by
    funext t
    unfold MatCtx.array Dev.host Dev.lost Dev.fencedCores Dev.physical
    rw [hf]
  have drained : c.drained e = c.drained d := by
    funext t
    simp only [MatCtx.drained, MatCtx.bufs, ha]
  unfold MatCtx.bufFor MatCtx.units MatCtx.gated
  rw [array, drained, ha]

theorem MatCtx.unitPart_run (c : MatCtx) (w₀ : Wk) {u key : Nat} (h : c.bufFor w.dev u = some key) (v : Nat → View) :
    (c.unitPart w₀ u).run v w = c.compute u key (v (u + 1)) w := by simp only [MatCtx.unitPart, h]

theorem MatCtx.unitPart_run_none (c : MatCtx) (w₀ : Wk) {u : Nat} (h : c.bufFor w.dev u = none) (v : Nat → View) :
    (c.unitPart w₀ u).run v w = (w, false) := by simp only [MatCtx.unitPart, h]

theorem MatCtx.compute_getsOn (c : MatCtx) {u key : Nat} (v : View) (hk : AMap.get [] w.dev.mar.acc key = []) :
    Wk.GetsOn m w (c.compute u key v w).1 where
  heat := Dev.MarksIn.trans (b := w.dev.putBuf key (c.unitBuf v u)) (fun _ x hx _ => ⟨x, hx, .refl x⟩)
    (c.compute_carries u key v w).heat
  bufs k h := by
    have other : k ≠ key := fun e => h (e ▸ hk)
    rw [c.compute_acc, AMap.get_set_other _ _ _ other]
  ops _ := rfl

theorem MatCtx.unitPart_getsOn (c : MatCtx) (w₀ : Wk) (u : Nat) : (c.unitPart w₀ u).GetsOn m id := by
  intro v w _
  cases hb : c.bufFor w.dev u with
  | none => rw [c.unitPart_run_none w₀ hb]; exact .refl m w
  | some key => rw [c.unitPart_run w₀ hb]; exact c.compute_getsOn _ (MatCtx.bufFor_empty hb)

theorem MatCtx.mapsPart_getsOn (c : MatCtx) : c.mapsPart.GetsOn m id := by
  intro v w _
  refine .of_carries (Dev.setHeat_carries w.dev c.h.id (by intro; rfl) fun x => ?_) fun _ => rfl
  exact .upAt x c.st (fun _ _ m => m) fun _ _ m => m

/-- Without a compressed output an entry has no place but address 0, which is no pond's. -/
theorem MatCtx.entryPart_getsOn (c : MatCtx) (w : Wk) (i : Nat) : (c.entryPart w i).GetsOn c.m c.h.id := by
  intro v w' hs
  refine .of_carries (w'.store_carries hs _ _ _ _ _) fun hm => w'.store_ops_of_hbm _ _ _ _ _ fun p hp => ?_
  rw [List.mem_singleton] at hp
  subst hp
  simp [hm, pondBase]

theorem matrixPlan_getsOn (st : Nat) (m : MatBody) (w : Wk) (x : Heat) :
    ∀ p ∈ (matrixPlan st m w x).parts, p.GetsOn m x.id := by
  unfold matrixPlan
  dsimp only
  split
  · simp only [List.forall_mem_singleton]
    exact MatCtx.mapsPart_getsOn _
  · simp only [List.forall_mem_append, List.forall_mem_map]
    exact ⟨fun u _ => MatCtx.unitPart_getsOn _ w u, fun i _ => MatCtx.entryPart_getsOn ⟨x, st, m⟩ w i⟩

/-! ### The stage -/

theorem Wk.partRun_getsOn {p : Part} (hp : p.GetsOn m y.id) (hy : w.dev.heat y.id = some y) (hs : y.started)
    (st : Nat) (temps : List Nat) (rest : List Part) : Wk.GetsOn m w (w.partRun y st temps rest p) := by
  have begun : w.dev.Carries ((w.dev.consume y.id st (p.frees rest)).claimFor y.id p.slots) :=
    (w.dev.consume_carries ..).trans (Dev.claimFor_carries ..)
  have ran := hp (w.view y.id st) (w.up fun d => (d.consume y.id st (p.frees rest)).claimFor y.id p.slots) fun x hx => by
      obtain ⟨z, hz, mz⟩ := begun.heat _ _ hy hs
      obtain rfl : z = x := Option.some.inj (hz.symm.trans hx)
      exact mz.started hs
  unfold Wk.partRun
  dsimp only
  split
  · exact .up (w.dev.pondPoisonHeat_carries hs _)
  · split
    · rename_i e
      rw [e] at ran
      exact (Wk.GetsOn.up begun).trans ran
    · rename_i e
      rw [e] at ran
      refine ((Wk.GetsOn.up begun).trans ran).trans (.of_carries ?_ fun _ => rfl)
      exact (Dev.setHeat_carries _ y.id (by intro; rfl) fun x => x.ranPart_marksIn st p).trans (Dev.fillFor_carries ..)

theorem Wk.go_getsOn {mk : Wk → Heat → Plan} (hm : ∀ w x, ∀ p ∈ (mk w x).parts, p.GetsOn m x.id) (st n : Nat) (w : Wk) :
    Wk.GetsOn m w (Wk.go mk id st n w) := by
  induction n generalizing w with
  | zero => exact .refl m w
  | succ n ih =>
    unfold Wk.go
    split
    · exact .refl m w
    · rename_i x hx
      split
      · exact .refl m w
      · rename_i hgo
        have hrun : x.mayRun = true := by
          by_contra c
          simp [c] at hgo
        obtain rfl : x.id = id := Dev.heat_id hx
        have asked := w.dev.ask_carries x st (mk w x)
        obtain ⟨y, hy, my⟩ := asked.heat _ _ hx (Heat.started_of_mayRun hrun)
        refine (Wk.GetsOn.up asked).trans ?_
        dsimp only
        rw [Wk.dev_up, hy]
        have hid : y.id = x.id := Dev.heat_id hy
        dsimp only
        split
        · rename_i p hp
          refine Wk.GetsOn.trans (Wk.partRun_getsOn ?_ (hid ▸ hy) (my.started (Heat.started_of_mayRun hrun)) ..)
            (ih _)
          exact hid ▸ hm w x p (Dev.pick_mem hp)
        · exact .up (Dev.rest_carries ..)

/-- The part that is picked runs first, and the stage gets on from there. -/
theorem Wk.stage_getsOn {mk : Wk → Heat → Plan} (hm : ∀ w x, ∀ p ∈ (mk w x).parts, p.GetsOn m x.id) {st : Nat} {p : Part}
    (hx : w.dev.heat id = some x) (hrun : x.mayRun = true) (he : (x.at st).ended = false)
    (hw : w' = w.up fun d => d.ask x st (mk w x)) (hy : w'.dev.heat id = some y)
    (hp : w'.dev.pick y st (mk w x) = some p) :
    Wk.GetsOn m (w'.partRun y st (mk w x).temps (others p ((mk w x).undone y st)) p) (w.stage mk id st) := by
  have first : ∀ n, Wk.go mk id st (n + 1) w =
      Wk.go mk id st n (w'.partRun y st (mk w x).temps (others p ((mk w x).undone y st)) p) := by
    intro n
    simp only [Wk.go, hx, hrun, he, ← hw, hy, hp, Bool.not_true, Bool.or_self, Bool.false_eq_true, if_false]
  have steps : w.steps mk id = (mk w x).parts.length + 1 := by simp only [Wk.steps, hx]
  unfold Wk.stage
  dsimp only
  rw [steps, first]
  exact (Wk.go_getsOn hm st _ _).trans (Wk.go_getsOn hm st _ _)

/-! ### A unit whose turn it is -/

@[simp] theorem Dev.consume_flt (d : Dev) (id : HeatId) (st : Nat) (slots : List Nat) :
    (d.consume id st slots).flt = d.flt := by
  unfold Dev.consume
  split
  · rfl
  · exact foldl_keeps (fun d => d.flt) _ Dev.emptySlot_flt _ d

@[simp] theorem Dev.claimFor_flt (d : Dev) (h : HeatId) (slots : List Nat) : (d.claimFor h slots).flt = d.flt :=
  foldl_keeps (fun d => d.flt) _ Dev.claimSlot_flt _ d

@[simp] theorem Dev.askPart_flt (h : Heat) (st : Nat) (d : Dev) (p : Part) : (Dev.askPart h st d p).flt = d.flt :=
  foldl_keeps (fun d => d.flt) _ (by intros; rfl) _ d

@[simp] theorem Dev.ask_flt (d : Dev) (h : Heat) (st : Nat) (pl : Plan) : (d.ask h st pl).flt = d.flt := by
  unfold Dev.ask
  split
  · exact foldl_keeps (fun d => d.flt) _ (Dev.askPart_flt h st) _ d
  · rfl

/-- The unit that runs leaves its buffer and its mark. -/
theorem MatCtx.unitPart_partRun (c : MatCtx) {w₀ : Wk} {u key : Nat} (hb : c.bufFor w.dev u = some key)
    (hy : w.dev.heat y.id = some y) (hs : y.started) (st : Nat) (temps : List Nat) (rest : List Part)
    (hc : firstPoison (w.view y.id st 0) (pondPlaces ((c.unitPart w₀ u).reads.map Rd.pl).flatten) = none) :
    let t := w.partRun y st temps rest (c.unitPart w₀ u)
    AMap.get [] t.dev.mar.acc key = [c.unitBuf (w.view y.id st (u + 1)) u] ∧
      (∃ z, t.dev.heat y.id = some z ∧ z.started ∧ u + 1 ∈ (z.at st).ran) ∧ t.ops = w.ops := by
  intro t
  let w₁ := w.up fun d => (d.consume y.id st ((c.unitPart w₀ u).frees rest)).claimFor y.id (c.unitPart w₀ u).slots
  let w₂ := (c.compute u key (w.view y.id st (u + 1)) w₁).1
  let t' := w₂.dev.setHeat y.id fun x => x.ranPart st (c.unitPart w₀ u)
  have begun : w.dev.Carries w₁.dev := (w.dev.consume_carries ..).trans (Dev.claimFor_carries ..)
  have hb₁ : c.bufFor w₁.dev u = some key := (c.bufFor_congr (by simp [w₁]) begun.acc u).trans hb
  have run : (c.unitPart w₀ u).run (w.view y.id st) (w.up fun d =>
      (d.consume y.id st ((c.unitPart w₀ u).frees rest)).claimFor y.id (c.unitPart w₀ u).slots) = (w₂, true) :=
    c.unitPart_run w₀ hb₁ _
  have done : t = (w₂.upHeat y.id fun x => x.ranPart st (c.unitPart w₀ u)).up fun d =>
      d.fillFor y.id ((c.unitPart w₀ u).slots.filter fun g => !(temps ++ (rest.map Part.slots).flatten).contains g) := by
    simp only [t, Wk.partRun, hc, run]
  have fill : t'.Carries t.dev := by rw [done]; exact Dev.fillFor_carries ..
  refine ⟨?_, ?_, by rw [done]; rfl⟩
  · rw [fill.acc]
    show AMap.get [] w₂.dev.mar.acc key = _
    rw [c.compute_acc, AMap.get_set_same]
  · obtain ⟨z₁, hz₁, m₁⟩ := begun.heat _ _ hy hs
    obtain ⟨z₂, hz₂, m₂⟩ := (c.compute_carries u key (w.view y.id st (u + 1)) w₁).heat _ _ hz₁ (m₁.started hs)
    have hz₃ : t'.heat y.id = some (z₂.ranPart st (c.unitPart w₀ u)) := Dev.heat_setHeat_some hz₂ (by intro; rfl)
    have started := m₂.started (m₁.started hs)
    obtain ⟨z, hz, m₃⟩ := fill.heat _ _ hz₃ started
    exact ⟨z, hz, m₃.started started, m₃.ran st _ (z₂.mem_ran_ranPart st (c.unitPart w₀ u))⟩

theorem exec_matrix {h : HeatId} (hx : s.dev.goes h x) (hb : x.body = .stage (.matrix m)) :
    (if m.sparse then exec (.sparseMatrix h) s else exec (.denseMatrix h) s) =
      .next (s.after (s.work.stage (matrixPlan 0 m) h 0)) := by
  split
  · rename_i e
    exact done_withHeat s h x hx.1 hx.2 _ _ rfl _ (by simp only [hb, e, if_true])
  · rename_i e
    exact done_withHeat s h x hx.1 hx.2 _ _ rfl _ (by simp only [hb, e]; rfl)

/-- The unit whose turn it is is computed, and what it leaves stays over the rest of the stage. -/
theorem matrix_unit_runs {h : HeatId} {u key : Nat} (hx : s.dev.goes h x) (hbody : x.body = .stage (.matrix m))
    (he : (x.at 0).ended = false) (hw : w = s.work.up fun d => d.ask x 0 (matrixPlan 0 m s.work x))
    (hy : w.dev.heat h = some y) :
    let c : MatCtx := ⟨x, 0, m⟩
    let p := c.unitPart s.work u
    w.dev.pick y 0 (matrixPlan 0 m s.work x) = some p →
    firstPoison (w.view h 0 0) (pondPlaces (p.reads.map Rd.pl).flatten) = none → c.bufFor s.dev u = some key →
    ∃ t z, (if m.sparse then exec (.sparseMatrix h) s else exec (.denseMatrix h) s) = .next t ∧
      AMap.get [] t.dev.mar.acc key = [c.unitBuf (w.view h 0 (u + 1)) u] ∧
      t.dev.heat h = some z ∧ u + 1 ∈ (z.at 0).ran ∧ (m.mapped = [] → t.mem = s.mem) := by
  intro c p hp hc hk
  have stays := Wk.stage_getsOn (fun w x => matrixPlan_getsOn 0 m w x) hx.1 hx.2 he hw hy hp
  have asked : s.dev.Carries w.dev := by rw [hw]; exact Dev.ask_carries ..
  have hb : c.bufFor w.dev u = some key := (c.bufFor_congr (by rw [hw]; exact Dev.ask_flt ..) asked.acc u).trans hk
  have hs : y.started := by
    obtain ⟨z, hz, mz⟩ := asked.heat _ _ hx.1 (Heat.started_of_mayRun hx.2)
    obtain rfl : z = y := Option.some.inj (hz.symm.trans hy)
    exact mz.started (Heat.started_of_mayRun hx.2)
  obtain rfl : y.id = h := Dev.heat_id hy
  obtain ⟨hacc, ⟨z₁, hz₁, hs₁, hran⟩, hops⟩ := c.unitPart_partRun (w₀ := s.work) hb hy hs 0
    (matrixPlan 0 m s.work x).temps (others p ((matrixPlan 0 m s.work x).undone y 0)) hc
  obtain ⟨z, hz, mz⟩ := stays.heat _ _ hz₁ hs₁
  refine ⟨_, z, exec_matrix hx hbody, ?_, hz, mz.ran 0 _ hran, fun hm => ?_⟩
  · rw [State.after_dev, stays.bufs key (by rw [hacc]; exact List.cons_ne_nil _ _), hacc]
  · have noOps : (s.work.stage (matrixPlan 0 m) y.id 0).ops = [] := by
      rw [stays.ops hm, hops, hw]
      rfl
    show s.mem.applyAll _ = s.mem
    rw [noOps]
    rfl

end Sys2Proof.Machine
end

section
/-! CORES AND ARRAYS: chained commands (R224, R225). Stages that have ended do nothing, so the one that is left decides. -/

namespace Sys2Proof.Machine

variable {s : State} {h : HeatId} {x y z : Heat} {w q : Wk} {st : Nat} {l : List Stage} {g : Stage} {p : Part}

/-! ### Stages that do nothing -/

/-- A heat that is done gets on no more. -/
theorem Wk.go_done {mk : Wk → Heat → Plan} (hx : w.dev.heat h = some x) (hd : x.done = true) (st n : Nat) :
    Wk.go mk h st n w = w := by
  cases n with
  | zero => rfl
  | succ n => simp [Wk.go, hx, Heat.mayRun, hd]

theorem Wk.stages_done (hx : w.dev.heat h = some x) (hd : x.done = true) (k : Nat) (l : List Stage) :
    Wk.stages h k l w = w := by
  induction l generalizing k with
  | nil => rfl
  | cons g l ih => rw [Wk.stages, Wk.stage, Wk.go_done hx hd, Wk.go_done hx hd, ih]

/-- The stages that ended before one are passed over. -/
theorem Wk.stages_from (hx : w.dev.heat h = some x) (k : Nat) (hg : l[st]? = some g)
    (he : ∀ j, j < st → (x.at (k + j)).ended = true) : Wk.stages h k l w =
      Wk.stages h (k + st + 1) (l.drop (st + 1)) (w.stage (g.plan (k + st) (l.drop (st + 1))) h (k + st)) := by
  induction l generalizing k st with
  | nil => simp at hg
  | cons a l ih =>
    cases st with
    | zero =>
      obtain rfl : a = g := by simpa using hg
      rfl
    | succ st =>
      rw [Wk.stages, Wk.stage_ended w _ h k x hx (he 0 (Nat.succ_pos st)),
        ih (k + 1) (by simpa using hg) fun j hj => by rw [Nat.add_right_comm]; exact he (j + 1) (Nat.succ_lt_succ hj)]
      simp only [List.drop_succ_cons, Nat.add_right_comm k 1 st, Nat.add_assoc k st 1]

/-! ### Slots that hold nothing at the end -/

/-- The slots of a stage that hold nothing at its end: the partials of a tandem (R251). -/
def Stage.temps : Stage → List Nat
  | .matrix m => (m.partials.map Desc.slots).getD []
  | _ => []

/-- A whole plan has the temporary slots of its stage, however far the command is. -/
theorem Stage.plan_temps {k : Nat} {later : List Stage} (hw : (g.plan k later w x).whole = true) :
    (g.plan k later w x).temps = g.temps := by
  cases g with
  | matrix m =>
    simp only [Stage.plan, matrixPlan] at hw ⊢
    split at hw
    · cases hw
    · rename_i hc
      rw [if_neg hc]
      rfl
  | move a b keep =>
    simp only [Stage.plan, movePlan, Stage.temps]
    split
    · rfl
    · split
      · rfl
      · split
        · rfl
        · split <;> rfl
  | gather t i d keep => simp only [Stage.plan, gatherPlan, Stage.temps]; split <;> rfl
  | scatter t i sr k1 k2 =>
    simp only [Stage.plan, scatterPlan, Stage.temps]
    split
    · rfl
    · split <;> rfl
  | vector b => rfl
  | rowReduce b => rfl
  | spring b => rfl
  | relaySend b => simp only [Stage.plan, sendPlan, Stage.temps]; split <;> rfl

/-! ### The part that is left of one stage -/

/-- The end of a part and of its stage, told from the heat between the two. -/
theorem Wk.ends_finished_of (s : State) {temps : List Nat} (hz : ((q.upHeat h fun x => x.ranPart st p).up fun d =>
      d.fillFor h (p.slots.filter fun g => !temps.contains g)).dev.heat h = some z) (hl : z.leave = [])
    (hst : st < max 1 z.body.stages.length) (ho : ∀ k, k < z.body.stages.length → k ≠ st → (z.at k).ended = true) :
    finished (s.after (q.ends h st temps p)) h temps p := by
  obtain ⟨⟨v, hv, -, hdone⟩, htags⟩ := Dev.finish_ends _ h st temps z hz
  refine ⟨⟨v, hv, hdone ho hst⟩, fun g hg hn => ?_⟩
  have hmem : g ∈ p.slots.filter fun g => !temps.contains g := by simp [hg, hn]
  obtain ⟨hfull, hclaim⟩ := htags g hn hl
  refine ⟨hfull.trans ((foldl_fillSlot_full _ _ g).trans ?_), hclaim.trans ((foldl_fillSlot_claimed _ _ g).trans ?_)⟩
  all_goals simp only [decide_eq_true hmem, Bool.true_or, Bool.not_true, Bool.false_and]

/-- After its part a heat with the marks of that part has ended no stage more. -/
theorem SolePart.ended_of_prog {pl : Plan} (hs : SolePart s h x y w st pl p) (hp : z.prog = (y.ranPart st p).prog)
    (k : Nat) : (z.at k).ended = (x.at k).ended := by
  have e : z.at k = (y.upAt st fun g => { g with ran := g.ran ++ [p.no] }).at k := by
    simp only [Heat.at, hp]
    rfl
  obtain ⟨-, -, -, -, -, -, -, hended⟩ := hs.near
  rw [e, Heat.at_upAt, ← hended]
  split
  · rename_i hk
    rw [hk]
  · rfl

/-- Where one stage ends with its last part, the heat has finished: every other stage has ended before. -/
theorem SolePart.finished_of_prog {pl : Plan} (hs : SolePart s h x y w st pl p) {temps : List Nat}
    (hz : ((q.upHeat h fun x => x.ranPart st p).up fun d =>
      d.fillFor h (p.slots.filter fun g => !temps.contains g)).dev.heat h = some z) (hbody : z.body = x.body)
    (hleave : z.leave = []) (hprog : z.prog = (y.ranPart st p).prog) (hst : st < x.body.stages.length) :
    finished (s.after (q.ends h st temps p)) h temps p := by
  refine Wk.ends_finished_of s hz hleave (hbody ▸ lt_max_of_lt_right hst) fun k hk hne => ?_
  exact (hs.ended_of_prog hprog k).trans (hs.alone k (hbody ▸ hk) hne)

theorem exec_chained (hx : s.dev.goes h x) (hb : x.body = .chained l) :
    exec (.chained h) s = .next (s.after (Wk.stages h 0 l s.work)) :=
  done_withHeat s h x hx.1 hx.2 _ _ rfl _ (by simp only [hb])

/-- A chained command is over with the stage that is left. -/
theorem SolePart.chained_completes {pl : Plan} (hs : SolePart s h x y w st pl p) (hb : x.body = .chained l)
    (hg : l[st]? = some g) {temps : List Nat}
    (hstage : s.work.stage (g.plan st (l.drop (st + 1))) h st = q.ends h st temps p)
    (hfin : finished (s.after (q.ends h st temps p)) h temps p) : completes s h st temps p q (exec (.chained h) s) := by
  obtain ⟨v, hv, hdone⟩ := hfin.1
  have hbefore : ∀ j, j < st → (x.at (0 + j)).ended = true := fun j hj => by
    have hlen : st < x.body.stages.length := by rw [hb]; exact (List.getElem?_eq_some_iff.mp hg).1
    rw [Nat.zero_add]
    exact hs.alone j (hj.trans hlen) hj.ne
  have hall : Wk.stages h 0 l s.work = q.ends h st temps p := by
    rw [Wk.stages_from hs.goes.1 0 hg hbefore, Nat.zero_add, hstage]
    exact Wk.stages_done hv hdone _ _
  exact ⟨(exec_chained hs.goes hb).trans (by rw [hall]), hfin⟩

/-- Settles O27: what a unit leaves stays over the rest of its stage, and the one part that is left of a chained command
ends its stage and so the command. -/
theorem matrixAndChainedRun : Obligations.MatrixAndChainedRun := by
  refine ⟨fun s h x y w m u key hx hb he hw hy hp hc hk => matrix_unit_runs hx hb he hw hy hp hc hk, ?_⟩
  intro s h x y w q l st g p hb hg mk pl hwhole hs hr e z hz hgo hbody hleave hprog hw hu ha
  have hst : st < x.body.stages.length := by rw [hb]; exact (List.getElem?_eq_some_iff.mp hg).1
  have htemps : (mk e z).temps = pl.temps := (Stage.plan_temps hw).trans (Stage.plan_temps hwhole).symm
  have hopen : (z.at st).ended = false := (hs.ended_of_prog hprog st).trans hs.notOver
  have hstage := Wk.stage_last s h x y w q st mk p hs hr z hz hgo hopen hw htemps hu ha
  exact hs.chained_completes hb hg hstage (hs.finished_of_prog hz hbody hleave hprog hst)

end Sys2Proof.Machine
end

section
/-! PONDS: slots as places of memory, their poison, and what a claim looks at (R28, R119, R138 to R141, R147, R148). -/

namespace Sys2Proof.Machine

open Sys2Proof.Config

variable {d e : Dev} {h : HeatId} {y : Heat} {g : Nat}

/-- Settles O3: at reset neither a byte nor a poisoned word is listed. -/
theorem resetMemoryCanonical : Obligations.ResetMemoryCanonical := (Mem.wf_iff _).mpr ⟨rfl, rfl, rfl⟩

/-! ### The place of a slot (R28) -/

theorem pondBase_le_slotAddr (g : Nat) : pondBase ≤ slotAddr g := by unfold slotAddr; omega

/-- No byte of a slot lies in another. -/
theorem slotAddr_beyond {a b i : Nat} (hne : a ≠ b) (hi : i < slotBytes) :
    beyond (slotAddr b) slotBytes (slotAddr a + i) := by
  by_contra hin
  simp only [beyond, not_or, not_lt, not_le] at hin
  exact hne (slotAddr_inj a b i (slotAddr a + i - slotAddr b) hi (by omega) (by omega))

theorem inPond_slot (hg : g < clusters * slotsPerCluster) : inPond (slotAddr g) slotBytes = true := by
  simp only [inPond, Bool.and_eq_true, decide_eq_true_eq]
  simp only [slotAddr, slotBytes, slotsPerCluster, clusters, pondBase, pondWindow] at *
  omega

theorem touchedWords_slot (g : Nat) :
    touchedWords slotBytes (slotAddr g) slotBytes = (slotAddr g / slotBytes, 1) := by
  simp only [touchedWords, slotAddr, slotBytes, slotsPerCluster, pondBase, pondWindow, beq_iff_eq, Prod.mk.injEq,
    OfNat.ofNat_ne_zero, if_false, true_and]
  omega

theorem slotAt_slotAddr (g : Nat) : slotAt (slotAddr g / slotBytes * slotBytes) = g := by
  simp only [slotAt, pondCluster, slotAddr, slotBytes, slotsPerCluster, pondBase, pondWindow]
  omega

@[simp] theorem pondPlaces_slot (g : Nat) : pondPlaces [(slotAddr g, slotBytes)] = [(slotAddr g, slotBytes)] := by
  simp [pondPlaces, pondBase_le_slotAddr]

/-- The one slot among the places of a whole slot is that slot. -/
theorem pondSlots_slot (hg : g < clusters * slotsPerCluster) : pondSlots [(slotAddr g, slotBytes)] = [g] := by
  simp [pondSlots, unitsOf, inPond_slot hg, touchedWords_slot, slotAt_slotAddr, nub]

@[simp] theorem hbmLines_slot (g : Nat) : hbmLines [(slotAddr g, slotBytes)] = [] := by
  have outside : inHbm (slotAddr g) slotBytes = false := by
    have := pondBase_le_slotAddr g
    refine decide_eq_false ?_
    simp only [hbmBytes, pondBase] at *
    omega
  simp [hbmLines, unitsOf, outside, nub]

/-! ### Poison (R147, R148) -/

/-- A slot is unpoisoned where none of its bytes is. -/
theorem firstPoison_slot (v : View) (g : Nat) :
    firstPoison v [(slotAddr g, slotBytes)] = none ↔ ∀ i, i < slotBytes → (v (slotAddr g + i)).2 = false := by
  unfold firstPoison
  split
  case h_1 i hi =>
    have hbad := List.find?_some hi
    have hlt := List.mem_range.mp (List.mem_of_find?_eq_some hi)
    exact ⟨nofun, fun hv => by simp [hv i hlt] at hbad⟩
  case h_2 hnone => simpa [firstPoison] using hnone

theorem NSet.has_of_has_delRange {k n i : Nat} {s : NSet} (hi : NSet.has (NSet.delRange s k n) i = true) :
    NSet.has s i = true := by
  induction n generalizing s k with
  | zero => exact hi
  | succ n ih =>
    have := ih hi
    rw [NSet.has_del, Bool.and_eq_true] at this
    exact this.2

/-- A write poisons no byte. -/
theorem Mem.view_store_clean {m : Mem} {x : Nat} (hx : (m.view x).2 = false) (a : Nat) (l : List Byte) :
    ((m.apply (.store a l)).view x).2 = false := by
  rw [Bool.eq_false_iff] at hx ⊢
  refine fun hbad => hx ?_
  simp only [Mem.view, Mem.apply] at hbad ⊢
  split at hbad <;> split at hbad <;> simp only [*, if_true, if_false] at hbad ⊢
  all_goals exact NSet.has_of_has_delRange hbad

theorem Wk.view_put_clean {w : Wk} {x : Nat} (hx : (w.mem.view x).2 = false) (a : Nat) (l : List Byte) :
    ((w.put a l).mem.view x).2 = false := by
  unfold Wk.put
  split
  · exact hx
  · rw [Wk.mem_op]; exact Mem.view_store_clean hx a l

/-- Heats see ponds as they stand (R176). -/
theorem Wk.view_slot (w : Wk) (h : HeatId) (st grp g i : Nat) :
    w.view h st grp (slotAddr g + i) = w.mem.view (slotAddr g + i) := by
  have : ¬ slotAddr g + i < pondBase := by have := pondBase_le_slotAddr g; omega
  simp only [Wk.view, heatView, this, if_false]

/-! ### What a claim looks at beside the tags (R119, R139) -/

/-- What others see of a heat that waits on slots (R143). -/
def Heat.call (x : Heat) : HeatId × HState × List Wait := (x.id, x.state, x.waits)

/-- What decides beside its tags whether a slot may be read or claimed, and whether an accessor has its turns. -/
def Dev.scene (d : Dev) : Flt × Conf × List (HeatId × HState × List Wait) :=
  (d.flt, d.live, d.mar.heats.map Heat.call)

theorem Dev.copyingSlot_of_scene (hs : e.scene = d.scene) (g : Nat) : e.copyingSlot g = d.copyingSlot g :=
  Dev.copyingSlot_of_flt (congrArg Prod.fst hs) g

theorem Dev.turns_of_scene (hs : e.scene = d.scene) (acc : Nat) (l : List (Nat × Nat)) : e.turns acc l = d.turns acc l := by
  have hl : e.live = d.live := congrArg (fun z => z.2.1) hs
  rw [Dev.turns, hl, Dev.turns]

theorem Dev.readable_of_scene (hs : e.scene = d.scene) (hg : e.isFull g = d.isFull g) : e.readable g = d.readable g := by
  rw [Dev.readable, hg, Dev.copyingSlot_of_scene hs, Dev.readable]

theorem Dev.claimFree_of_scene (hs : e.scene = d.scene) (hg : e.isFull g = d.isFull g)
    (hc : e.isClaimed g = d.isClaimed g) (h : HeatId) (acc : Nat) : e.claimFree h acc g = d.claimFree h acc g := by
  have first (d : Dev) : (d.mar.heats.any fun x => x.id != h && x.state == .running
        && x.waits.any fun w => w.slot == g && w.writer && decide (w.acc < acc))
      = (d.mar.heats.map Heat.call).any fun z => z.1 != h && z.2.1 == .running
        && z.2.2.any fun w => w.slot == g && w.writer && decide (w.acc < acc) := by
    rw [List.any_map]; rfl
  have hw : e.mar.heats.map Heat.call = d.mar.heats.map Heat.call := congrArg (fun z => z.2.2) hs
  rw [Dev.claimFree, first, hw, ← first, hg, hc, Dev.copyingSlot_of_scene hs, Dev.claimFree]

theorem updWhere_call (q : Heat → Bool) {f : Heat → Heat} (hf : ∀ x, (f x).call = x.call) (l : List Heat) :
    (updWhere q f l).map Heat.call = l.map Heat.call := by
  rw [updWhere, List.map_map]
  refine List.map_congr_left fun x _ => ?_
  simp only [Function.comp_apply]
  split
  · exact hf x
  · rfl

theorem Dev.setHeat_scene (d : Dev) (h : HeatId) {f : Heat → Heat} (hf : ∀ x, (f x).call = x.call) :
    (d.setHeat h f).scene = d.scene :=
  congrArg (fun l => (d.flt, d.live, l)) (updWhere_call _ hf d.mar.heats)

theorem Dev.emptySlot_scene (d : Dev) (g : Nat) : (d.emptySlot g).scene = d.scene := rfl
theorem Dev.claimSlot_scene (d : Dev) (g : Nat) : (d.claimSlot g).scene = d.scene := rfl

theorem Dev.fillSlot_scene (d : Dev) (g : Nat) : (d.fillSlot g).scene = d.scene := by
  unfold Dev.fillSlot
  dsimp only
  split
  · exact congrArg (fun l => (d.flt, d.live, l)) (updWhere_call _ (by intro; rfl) d.mar.heats)
  · rfl

/-! ### Slots of a heat whose command is no stage -/

theorem Dev.isFull_setHeat (d : Dev) (h : HeatId) (f : Heat → Heat) (g : Nat) :
    (d.setHeat h f).isFull g = d.isFull g := rfl
theorem Dev.isClaimed_setHeat (d : Dev) (h : HeatId) (f : Heat → Heat) (g : Nat) :
    (d.setHeat h f).isClaimed g = d.isClaimed g := rfl

/-- A slot that no release of the heat waits for becomes FULL and leaves the heat as it was (R145). -/
theorem Dev.fillSlot_heat (hy : d.heat h = some y) (hg : y.awaits g = false) : (d.fillSlot g).heat h = some y := by
  unfold Dev.fillSlot
  dsimp only
  split
  · rw [Dev.heat_updWhere (d.tag g true false (d.now + 3)) _ _ (by intro; rfl), Dev.tag_heat, hy]
    simp [hg]
  · exact hy

/-- One slot is claimed for a heat that has not claimed it. -/
theorem Dev.claimFor_one (hy : d.heat h = some y) (hg : g ∉ y.claims) :
    d.claimFor h [g] = (d.claimSlot g).setHeat h fun x => { x with claims := x.claims ++ [g] } := by
  simp [Dev.claimFor, hy, hg]

theorem foldl_emptySlot_claimed (l : List Nat) (d : Dev) (g : Nat) :
    (l.foldl Dev.emptySlot d).isClaimed g = d.isClaimed g :=
  foldl_keeps (fun d => d.isClaimed g) _ (fun d k => Dev.isClaimed_emptySlot d k g) l d

/-- No other stage reads what a command that is no stage has read: its slots become EMPTY (R140). -/
theorem Dev.consume_of_no_stages (hy : d.heat h = some y) (hb : y.body.stages = []) (st : Nat) (l : List Nat) :
    d.consume h st l = (l.foldl Dev.emptySlot d).setHeat h fun x => { x with leave := x.leave ++ [] } := by
  have unread : y.readElse st = fun _ => false := by
    funext g; simp [Heat.readElse, hb]
  simp [Dev.consume, hy, unread]

end Sys2Proof.Machine
end

section
/-! PONDS: commands that write the slots of their cluster in turn (R139, R140, R145, R146). A fill and a copy both have one
part for each slot, all of one lane, so the parts run one after another. -/

namespace Sys2Proof.Machine

open Sys2Proof.Config

/-! ### Work slot by slot -/

/-- The work of a command that writes one slot after another: who it reads for; how many slots; the slot that each part reads,
if any; the slot that it writes; whether what is read is kept; and the bytes that it writes, by what it sees. -/
structure SlotJob where
  who   : Requester
  count : Nat
  src   : Nat → Option Nat
  dst   : Nat → Nat
  keep  : Bool
  data  : Nat → View → List Byte

variable {j : SlotJob} {s : State} {x y : Heat} {w : Wk} {k : Nat}

/-- The part that writes the `k`th slot. -/
def SlotJob.part (j : SlotJob) (k : Nat) : Part :=
  { no := k, who := j.who, lane := 0, engines := []
    reads := (j.src k).toList.map fun a => ⟨0, [(slotAddr a, slotBytes)], accOut, !j.keep⟩, full := []
    writes := [(slotAddr (j.dst k), slotBytes)], slots := [j.dst k], wacc := accIn, ready := true
    run := fun v w => (w.pondPut (slotAddr (j.dst k)) (j.data k (v 0)), true) }

/-- The parts from the `k`th on. -/
def SlotJob.partsFrom (j : SlotJob) (k : Nat) : List Part := (List.range' k (j.count - k)).map j.part

def SlotJob.plan (j : SlotJob) : Plan := ⟨(List.range j.count).map j.part, true, []⟩

/-- No two parts share a slot, each writes a whole slot, and what it writes depends on the slot that it reads alone. -/
structure SlotJob.Apart (j : SlotJob) : Prop where
  src_lt  : ∀ k a, k < j.count → j.src k = some a → a < clusters * slotsPerCluster
  src_inj : ∀ i k a, j.src i = some a → j.src k = some a → i = k
  dst_inj : ∀ i k, j.dst i = j.dst k → i = k
  apart   : ∀ i k, i < j.count → k < j.count → j.src i ≠ some (j.dst k)
  length  : ∀ k v, (j.data k v).length = slotBytes
  sees    : ∀ k v v', (∀ a, j.src k = some a → ∀ i, i < slotBytes → (v (slotAddr a + i)).1 = (v' (slotAddr a + i)).1) →
    j.data k v = j.data k v'

/-- The command has not begun, the slots that it reads can be read, and those that it writes can be claimed. -/
structure SlotJob.Free (j : SlotJob) (s : State) (x : Heat) : Prop where
  goes   : s.dev.goes x.id x
  fresh  : x.at 0 = .zero
  unkept : x.leave = []
  alone  : x.gathers = 0
  single : x.body.stages = []
  reads  : ∀ k a, k < j.count → j.src k = some a → s.dev.readable a = true ∧
    s.dev.turns accOut [(slotAddr a, slotBytes)] = true ∧ ∀ i, i < slotBytes → (s.mem.view (slotAddr a + i)).2 = false
  writes : ∀ k, k < j.count → s.dev.claimFree x.id accIn (j.dst k) = true ∧
    s.dev.turns accIn [(slotAddr (j.dst k), slotBytes)] = true ∧ j.dst k ∉ x.claims

/-! ### The parts -/

theorem SlotJob.partsFrom_of_lt (hk : k < j.count) : j.partsFrom k = j.part k :: j.partsFrom (k + 1) := by
  obtain ⟨m, hm⟩ : ∃ m, j.count - k = m + 1 := ⟨j.count - k - 1, by omega⟩
  rw [partsFrom, partsFrom, hm, List.range'_succ, List.map_cons, show j.count - (k + 1) = m by omega]

theorem SlotJob.partsFrom_count (j : SlotJob) : j.partsFrom j.count = [] := by simp [partsFrom]

theorem SlotJob.mem_partsFrom {p : Part} (hp : p ∈ j.partsFrom k) : ∃ i, k ≤ i ∧ i < j.count ∧ j.part i = p := by
  obtain ⟨i, hi, rfl⟩ := List.mem_map.mp hp
  rw [List.mem_range'_1] at hi
  exact ⟨i, by omega, by omega, rfl⟩

/-- Once the first `k` parts have run, the others are left. -/
theorem SlotJob.undone_plan (hr : (y.at 0).ran = List.range k) (hk : k ≤ j.count) :
    j.plan.undone y 0 = j.partsFrom k := by
  have split : List.range j.count = List.range k ++ List.range' k (j.count - k) := by
    rw [List.range'_eq_map_range, ← List.range_add, Nat.add_sub_cancel' hk]
  have ran : ((List.range k).map j.part).filter (fun p => !(y.at 0).ran.contains p.no) = [] := by
    refine List.filter_eq_nil_iff.mpr fun p hp => ?_
    obtain ⟨i, hi, rfl⟩ := List.mem_map.mp hp
    simpa [hr, part] using hi
  have left : (j.partsFrom k).filter (fun p => !(y.at 0).ran.contains p.no) = j.partsFrom k := by
    refine List.filter_eq_self.mpr fun p hp => ?_
    obtain ⟨i, hi, -, rfl⟩ := mem_partsFrom hp
    simpa [hr, part] using hi
  rw [Plan.undone, plan, split, List.map_append, List.filter_append, ran, ← partsFrom, left, List.nil_append]

theorem SlotJob.others_part (hk : k < j.count) : others (j.part k) (j.partsFrom k) = j.partsFrom (k + 1) := by
  rw [partsFrom_of_lt hk, others, List.filter_cons_of_neg (by simp)]
  refine List.filter_eq_self.mpr fun p hp => ?_
  obtain ⟨i, hi, -, rfl⟩ := mem_partsFrom hp
  have : i ≠ k := by omega
  simpa [part] using this

@[simp] theorem SlotJob.lines_part (j : SlotJob) (k : Nat) : (j.part k).lines = [] := by
  cases h : j.src k <;> simp [Part.lines, part, h]

/-- The slots that a part reads. -/
theorem SlotJob.mem_readSlots (hj : j.Apart) (hk : k < j.count) {a : Nat} :
    a ∈ ((j.part k).reads.map fun r => pondSlots r.pl).flatten ↔ j.src k = some a := by
  cases h : j.src k with
  | none => simp [part, h]
  | some b => simp [part, h, pondSlots_slot (hj.src_lt k b hk h), eq_comm]

/-- No later part writes the slot of a part. -/
theorem SlotJob.dst_notMem_later (j : SlotJob) (hj : j.Apart) (k : Nat) :
    ∀ p ∈ j.partsFrom (k + 1), j.dst k ∉ p.slots := by
  intro p hp hin
  obtain ⟨i, hi, -, rfl⟩ := mem_partsFrom hp
  have := hj.dst_inj k i (List.mem_singleton.mp hin)
  omega

/-- A part empties what it reads unless that is kept: no later part reads it. -/
theorem SlotJob.mem_frees (hj : j.Apart) (hk : k < j.count) {a : Nat} :
    a ∈ (j.part k).frees (j.partsFrom (k + 1)) ↔ j.keep = false ∧ j.src k = some a := by
  have later : j.src k = some a → a ∉ ((j.partsFrom (k + 1)).map fun q =>
      (q.reads.map fun r => pondSlots r.pl).flatten ++ q.full).flatten := by
    intro ha hin
    obtain ⟨l, hl, hal⟩ := List.mem_flatten.mp hin
    obtain ⟨p, hp, rfl⟩ := List.mem_map.mp hl
    obtain ⟨i, hi, hic, rfl⟩ := mem_partsFrom hp
    rw [show (j.part i).full = [] from rfl, List.append_nil, mem_readSlots hj hic] at hal
    have := hj.src_inj i k a hal ha
    omega
  have used : (j.part k).reads.filter Rd.use = if j.keep then [] else (j.part k).reads := by
    cases h : j.src k <;> cases hk : j.keep <;> simp [part, h, hk]
  rw [Part.frees, List.mem_filter, mem_nub, used]
  cases hkeep : j.keep with
  | true => simp
  | false => simpa [mem_readSlots hj hk] using later

/-! ### One part runs -/

theorem Wk.pondPut_dev (w : Wk) (a : Nat) (l : List Byte) :
    ∃ seen, (w.pondPut a l).dev = { w.dev with mar := { w.dev.mar with pondSeen := seen } } := by
  unfold Wk.pondPut
  rw [Wk.dev_up, Wk.dev_put]
  exact ⟨_, rfl⟩

theorem Heat.ranPart_of_no_lines {p : Part} (hp : p.lines = []) (x : Heat) (st : Nat) :
    x.ranPart st p = x.upAt st fun g => { g with ran := g.ran ++ [p.no] } := by
  have kept : (x.upAt st fun g => { g with ran := g.ran ++ [p.no] }).staged.filter (fun _ => true) =
      (x.upAt st fun g => { g with ran := g.ran ++ [p.no] }).staged := List.filter_true _
  simp only [Heat.ranPart, hp, List.map_nil, List.contains_nil, Bool.not_false, kept]

/-- The heat once its `k`th part has run. -/
def SlotJob.ranHeat (j : SlotJob) (k : Nat) (y : Heat) : Heat :=
  { y.upAt 0 fun g => { g with ran := g.ran ++ [k] } with
    claims := (y.claims ++ [j.dst k]).filter fun g => !List.contains [j.dst k] g }

/-- What a part leaves when it runs with `rest` to come: its heat with the part marked, its slot written and FULL, and what
it has read for the last time EMPTY. -/
structure SlotJob.Leaves (j : SlotJob) (k : Nat) (rest : List Part) (w : Wk) (y : Heat) (t : Wk) : Prop where
  heat  : t.dev.heat y.id = some (j.ranHeat k y)
  scene : t.dev.scene = w.dev.scene
  full  : ∀ g, t.dev.isFull g = (decide (g = j.dst k) || (!decide (g ∈ (j.part k).frees rest) && w.dev.isFull g))
  claim : ∀ g, t.dev.isClaimed g = (!decide (g = j.dst k) && w.dev.isClaimed g)
  mem   : t.mem = (w.put (slotAddr (j.dst k)) (j.data k (w.view y.id 0 0))).mem
  base  : t.base = w.base

/-- The block as a part begins: what it reads last is EMPTY, and its slot is claimed. -/
def SlotJob.begins (j : SlotJob) (k : Nat) (rest : List Part) (h : HeatId) (d : Dev) : Dev :=
  (d.consume h 0 ((j.part k).frees rest)).claimFor h [j.dst k]

/-- The block as a part ends: the part is marked, and its slot is FULL. -/
def SlotJob.ends (j : SlotJob) (k : Nat) (h : HeatId) (d : Dev) : Dev :=
  (d.setHeat h fun x => x.ranPart 0 (j.part k)).fillFor h [j.dst k]

/-- A part that reads no poison begins, writes its slot, and ends. -/
theorem SlotJob.partRun_eq {rest : List Part} (hr : ∀ p ∈ rest, j.dst k ∉ p.slots)
    (hc : firstPoison (w.view y.id 0 0) (pondPlaces ((j.part k).reads.map Rd.pl).flatten) = none) :
    w.partRun y 0 [] rest (j.part k) =
      ((w.up (j.begins k rest y.id)).pondPut (slotAddr (j.dst k)) (j.data k (w.view y.id 0 0))).up (j.ends k y.id) := by
  have last : [j.dst k].filter (fun g => !(([] : List Nat) ++ (rest.map Part.slots).flatten).contains g) = [j.dst k] := by
    refine List.filter_eq_self.mpr fun g hg => ?_
    obtain rfl := List.mem_singleton.mp hg
    simpa using hr
  simp only [Wk.partRun, hc]
  exact congrArg (fun l => (((w.up (j.begins k rest y.id)).pondPut (slotAddr (j.dst k)) (j.data k (w.view y.id 0 0))).upHeat
    y.id fun x => x.ranPart 0 (j.part k)).up fun d => d.fillFor y.id l) last

theorem SlotJob.begins_eq {d : Dev} (hy : d.heat y.id = some y) (hb : y.body.stages = []) (hd : j.dst k ∉ y.claims)
    (rest : List Part) : j.begins k rest y.id d =
      ((((((j.part k).frees rest).foldl Dev.emptySlot d).setHeat y.id fun x => { x with leave := x.leave ++ [] }).claimSlot
        (j.dst k)).setHeat y.id fun x => { x with claims := x.claims ++ [j.dst k] }) := by
  rw [begins, Dev.claimFor_one (Dev.consume_heat hy (by simp [hb]) _) hd, Dev.consume_of_no_stages hy hb]

theorem SlotJob.begins_heat {d : Dev} (hy : d.heat y.id = some y) (hb : y.body.stages = []) (hd : j.dst k ∉ y.claims)
    (rest : List Part) : (j.begins k rest y.id d).heat y.id = some { y with claims := y.claims ++ [j.dst k] } := by
  have consumed := Dev.consume_heat (st := 0) hy (by simp [hb]) ((j.part k).frees rest)
  rw [begins, Dev.claimFor_one consumed hd]
  exact Dev.heat_setHeat_some consumed (by intro; rfl)

theorem SlotJob.ends_heat {d : Dev} (hy : d.heat y.id = some { y with claims := y.claims ++ [j.dst k] })
    (hh : (y.at 0).held = []) : (j.ends k y.id d).heat y.id = some (j.ranHeat k y) := by
  have marked := Dev.heat_setHeat_some (f := fun x => x.ranPart 0 (j.part k)) hy (by intro; rfl)
  rw [Heat.ranPart_of_no_lines (j.lines_part k)] at marked
  refine Dev.heat_setHeat_some (Dev.fillSlot_heat marked ?_) (by intro; rfl)
  have held : (Heat.at { y with claims := y.claims ++ [j.dst k] } 0).held = [] := hh
  rw [Heat.awaits, Heat.at_upAt, if_pos rfl, held, List.contains_nil, Bool.and_false]

theorem SlotJob.ends_scene (j : SlotJob) (k : Nat) (h : HeatId) (d : Dev) : (j.ends k h d).scene = d.scene := by
  have filled := ((d.setHeat h fun x => x.ranPart 0 (j.part k)).fillSlot (j.dst k)).setHeat_scene h
    (f := fun x => { x with claims := x.claims.filter fun g => !List.contains [j.dst k] g }) (by intro; rfl)
  exact (filled.trans (Dev.fillSlot_scene ..)).trans (Dev.setHeat_scene d h (by intro; rfl))

theorem SlotJob.ends_full (j : SlotJob) (k : Nat) (h : HeatId) (d : Dev) (g : Nat) :
    (j.ends k h d).isFull g = (decide (g = j.dst k) || d.isFull g) :=
  Dev.isFull_fillSlot (d.setHeat h fun x => x.ranPart 0 (j.part k)) (j.dst k) g

theorem SlotJob.ends_claimed (j : SlotJob) (k : Nat) (h : HeatId) (d : Dev) (g : Nat) :
    (j.ends k h d).isClaimed g = (!decide (g = j.dst k) && d.isClaimed g) :=
  Dev.isClaimed_fillSlot (d.setHeat h fun x => x.ranPart 0 (j.part k)) (j.dst k) g

theorem SlotJob.partRun_leaves {rest : List Part} (hy : w.dev.heat y.id = some y) (hb : y.body.stages = [])
    (hh : (y.at 0).held = []) (hd : j.dst k ∉ y.claims) (hr : ∀ p ∈ rest, j.dst k ∉ p.slots)
    (hc : firstPoison (w.view y.id 0 0) (pondPlaces ((j.part k).reads.map Rd.pl).flatten) = none) :
    j.Leaves k rest w y (w.partRun y 0 [] rest (j.part k)) := by
  obtain ⟨seen, hseen⟩ := (w.up (j.begins k rest y.id)).pondPut_dev (slotAddr (j.dst k)) (j.data k (w.view y.id 0 0))
  rw [Wk.dev_up] at hseen
  rw [partRun_eq hr hc]
  constructor
  case heat =>
    rw [Wk.dev_up, hseen]
    exact ends_heat (begins_heat hy hb hd rest) hh
  case scene =>
    rw [Wk.dev_up, hseen, ends_scene]
    show (j.begins k rest y.id w.dev).scene = _
    rw [begins_eq hy hb hd, Dev.setHeat_scene _ _ (by intro; rfl), Dev.claimSlot_scene,
      Dev.setHeat_scene _ _ (by intro; rfl)]
    exact foldl_keeps Dev.scene _ Dev.emptySlot_scene _ _
  case full =>
    intro g
    rw [Wk.dev_up, hseen, ends_full]
    show (decide (g = j.dst k) || (j.begins k rest y.id w.dev).isFull g) = _
    rw [begins_eq hy hb hd, Dev.isFull_setHeat, Dev.isFull_claimSlot, Dev.isFull_setHeat, foldl_emptySlot_full]
    by_cases hg : g = j.dst k <;> simp [hg]
  case claim =>
    intro g
    rw [Wk.dev_up, hseen, ends_claimed]
    show (!decide (g = j.dst k) && (j.begins k rest y.id w.dev).isClaimed g) = _
    rw [begins_eq hy hb hd, Dev.isClaimed_setHeat, Dev.isClaimed_claimSlot, Dev.isClaimed_setHeat, foldl_emptySlot_claimed]
    by_cases hg : g = j.dst k <;> simp [hg]
  case mem =>
    rw [Wk.mem_up]
    show ((w.up (j.begins k rest y.id)).put _ _).mem = _
    unfold Wk.put
    split <;> rfl
  case base => exact Wk.base_put _ _ _

/-! ### The first parts have run -/

/-- The heat `x` once its first `k` parts have run: it goes on as before, and it claims no slot more. -/
structure Heat.Ran (x y : Heat) (k : Nat) : Prop where
  mayRun  : y.mayRun = x.mayRun
  body    : y.body = x.body
  leave   : y.leave = x.leave
  gathers : y.gathers = x.gathers
  prog    : ∃ asked, y.at 0 = { Prog.zero with asked := asked, ran := List.range k }
  claims  : ∀ g ∈ y.claims, g ∈ x.claims

/-- What stands once the first `k` parts have run: their slots are FULL with what they wrote, what they read is kept or EMPTY,
and all else is as it was. -/
structure SlotJob.Stands (j : SlotJob) (s : State) (x : Heat) (k : Nat) (w : Wk) : Prop where
  heat    : ∃ y, w.dev.heat x.id = some y ∧ x.Ran y k
  scene   : w.dev.scene = s.dev.scene
  written : ∀ i, i < k → w.dev.isFull (j.dst i) = true ∧ w.dev.isClaimed (j.dst i) = false ∧
    ∀ b, b < slotBytes → w.mem.byte (slotAddr (j.dst i) + b) = (j.data i s.mem.view).getD b 0
  read    : ∀ i a, i < k → j.src i = some a → w.dev.isFull a = j.keep
  others  : ∀ g, (∀ i, i < k → g ≠ j.dst i ∧ j.src i ≠ some g) →
    w.dev.isFull g = s.dev.isFull g ∧ w.dev.isClaimed g = s.dev.isClaimed g
  frame   : ∀ a, (∀ i, i < k → beyond (slotAddr (j.dst i)) slotBytes a) → w.mem.byte a = s.mem.byte a
  clean   : ∀ a, (s.mem.view a).2 = false → (w.mem.view a).2 = false
  base    : w.base = s.mem

theorem Heat.Ran.ran_eq (hr : x.Ran y k) : (y.at 0).ran = List.range k := by
  obtain ⟨_, hp⟩ := hr.prog; rw [hp]
theorem Heat.Ran.held_eq (hr : x.Ran y k) : (y.at 0).held = [] := by obtain ⟨_, hp⟩ := hr.prog; rw [hp]; rfl
theorem Heat.Ran.ended_eq (hr : x.Ran y k) : (y.at 0).ended = false := by obtain ⟨_, hp⟩ := hr.prog; rw [hp]; rfl

/-- Before its first part nothing has changed. -/
theorem SlotJob.Free.stands (hf : j.Free s x) : j.Stands s x 0 s.work where
  heat := ⟨x, hf.goes.1, rfl, rfl, rfl, rfl, ⟨[], hf.fresh⟩, fun _ hg => hg⟩
  scene := rfl
  written := nofun
  read := nofun
  others _ _ := ⟨rfl, rfl⟩
  frame _ _ := rfl
  clean _ h := h
  base := rfl

/-- A part asked for is marked, and with no lines to read that is all. -/
theorem SlotJob.Stands.ask (hw : j.Stands s x k w) (hy : w.dev.heat x.id = some y) :
    j.Stands s x k (w.up fun d => d.ask y 0 j.plan) := by
  have one (d : Dev) (p : Part) (hp : p.lines = []) (hd : j.Stands s x k { w with dev := d }) :
      j.Stands s x k { w with dev := Dev.askPart y 0 d p } := by
    obtain ⟨z, hz, hr⟩ := hd.heat
    have asked : Dev.askPart y 0 d p = d.setHeat x.id fun z => z.upAt 0 fun g => { g with asked := g.asked ++ [p.no] } := by
      rw [Dev.askPart, hp, Dev.heat_id hy]; rfl
    rw [asked]
    obtain ⟨l, hl⟩ := hr.prog
    refine { hd with heat := ⟨_, Dev.heat_setHeat_some hz (by intro; rfl), { hr with prog := ⟨l ++ [p.no], ?_⟩ }⟩,
                     scene := (Dev.setHeat_scene _ _ (by intro; rfl)).trans hd.scene }
    rw [Heat.at_upAt, if_pos rfl, hl]
  show j.Stands s x k { w with dev := w.dev.ask y 0 j.plan }
  unfold Dev.ask
  split
  · refine List.foldlRecOn (motive := fun d => j.Stands s x k { w with dev := d }) _ _ hw fun d hd p hp =>
      one d p ?_ hd
    obtain ⟨i, -, rfl⟩ := List.mem_map.mp (List.mem_of_mem_filter hp)
    exact j.lines_part i
  · exact hw

/-! ### The next part runs -/

/-- The next part can read its slot. -/
theorem SlotJob.Stands.readable (hw : j.Stands s x k w) (hj : j.Apart) (hf : j.Free s x) (hk : k < j.count) {a : Nat}
    (ha : j.src k = some a) : w.dev.readable a = true := by
  have untouched : ∀ i, i < k → a ≠ j.dst i ∧ j.src i ≠ some a := fun i hi =>
    ⟨fun e => hj.apart k i hk (by omega) (by rw [ha, e]), fun e => by have := hj.src_inj i k a e ha; omega⟩
  rw [Dev.readable_of_scene hw.scene (hw.others a untouched).1]
  exact (hf.reads k a hk ha).1

/-- The next part can claim its slot. -/
theorem SlotJob.Stands.claimFree (hw : j.Stands s x k w) (hj : j.Apart) (hf : j.Free s x) (hk : k < j.count) :
    w.dev.claimFree x.id accIn (j.dst k) = true := by
  have untouched : ∀ i, i < k → j.dst k ≠ j.dst i ∧ j.src i ≠ some (j.dst k) := fun i hi =>
    ⟨fun e => by have := hj.dst_inj k i e; omega, hj.apart i k (by omega) hk⟩
  obtain ⟨hfull, hclaim⟩ := hw.others (j.dst k) untouched
  rw [Dev.claimFree_of_scene hw.scene hfull hclaim]
  exact (hf.writes k hk).1

/-- The next part's turn has come. -/
theorem SlotJob.Stands.partUp (hw : j.Stands s x k w) (hf : j.Free s x) (hk : k < j.count) (hr : x.Ran y k) :
    w.dev.partUp y 0 (j.part k) = true := by
  obtain ⟨-, hturns, -⟩ := hf.writes k hk
  have served : w.dev.served y (j.part k).engines = true := by simp [Dev.served, part]
  have streams : w.dev.streamsFor y = true := by simp [Dev.streamsFor, hr.gathers, hf.alone]
  have lines : y.hasLines 0 (j.part k) = true := by simp [Heat.hasLines]
  have reads : (j.part k).reads.all (fun r => w.dev.turns r.acc (pondPlaces r.pl)) = true := by
    refine List.all_eq_true.mpr fun r hrd => ?_
    obtain ⟨a, ha, rfl⟩ := List.mem_map.mp hrd
    rw [pondPlaces_slot, Dev.turns_of_scene hw.scene]
    exact (hf.reads k a hk (Option.mem_toList.mp ha)).2.1
  have writes : w.dev.turns (j.part k).wacc (pondPlaces (j.part k).writes) = true := by
    rw [part, pondPlaces_slot, Dev.turns_of_scene hw.scene, hturns]
  rw [Dev.partUp, served, streams, lines, Dev.partTurns, reads, writes]
  rfl

/-- No slot holds the next part up. -/
theorem SlotJob.Stands.blocks (hw : j.Stands s x k w) (hj : j.Apart) (hf : j.Free s x) (hk : k < j.count)
    (hy : w.dev.heat x.id = some y) (hr : x.Ran y k) (rest : List Part) : w.dev.blocks y 0 rest (j.part k) = [] := by
  obtain ⟨-, -, hnew⟩ := hf.writes k hk
  have hmine : j.dst k ∉ y.claims := fun hm => hnew (hr.claims _ hm)
  have writable : w.dev.writable y accIn (j.dst k) = true := by
    simp [Dev.writable, hmine, Dev.heat_id hy, hw.claimFree hj hf hk]
  cases ha : j.src k with
  | none => simp [Dev.blocks, part, ha, writable]
  | some a => simp [Dev.blocks, part, ha, writable, pondSlots_slot (hj.src_lt k a hk ha), hw.readable hj hf hk ha]

/-- The part whose turn it is runs next. -/
theorem SlotJob.Stands.pick (hw : j.Stands s x k w) (hj : j.Apart) (hf : j.Free s x) (hk : k < j.count)
    (hy : w.dev.heat x.id = some y) (hr : x.Ran y k) : w.dev.pick y 0 j.plan = some (j.part k) := by
  rw [Dev.pick, j.undone_plan hr.ran_eq hk.le, partsFrom_of_lt hk, laneHeads, List.find?_cons_of_pos]
  rw [hw.partUp hf hk hr, hw.blocks hj hf hk hy hr]
  rfl

/-- The next part reads no poison. -/
theorem SlotJob.Stands.unpoisoned (hw : j.Stands s x k w) (hf : j.Free s x) (hk : k < j.count) (h : HeatId) :
    firstPoison (w.view h 0 0) (pondPlaces ((j.part k).reads.map Rd.pl).flatten) = none := by
  cases ha : j.src k with
  | none => simp [part, ha, pondPlaces, firstPoison]
  | some a =>
    have places : ((j.part k).reads.map Rd.pl).flatten = [(slotAddr a, slotBytes)] := by simp [part, ha]
    obtain ⟨-, -, hclean⟩ := hf.reads k a hk ha
    rw [places, pondPlaces_slot, firstPoison_slot]
    intro i hi
    rw [Wk.view_slot]
    exact hw.clean _ (hclean i hi)

/-- The next part sees its slot as it was when the command began: none of the parts before has written it. -/
theorem SlotJob.Stands.sees (hw : j.Stands s x k w) (hj : j.Apart) (hk : k < j.count) (h : HeatId) :
    j.data k (w.view h 0 0) = j.data k s.mem.view := by
  refine hj.sees k _ _ fun a ha i hi => ?_
  rw [Wk.view_slot]
  refine hw.frame _ fun m hm => slotAddr_beyond (fun e => ?_) hi
  exact hj.apart k m hk (hm.trans hk) (ha.trans (congrArg some e))

theorem Heat.Ran.next (hr : x.Ran y k) (j : SlotJob) : x.Ran (j.ranHeat k y) (k + 1) := by
  obtain ⟨l, hl⟩ := hr.prog
  refine { hr with prog := ⟨l, ?_⟩, claims := fun g hg => ?_ }
  · show (y.upAt 0 fun g => { g with ran := g.ran ++ [k] }).at 0 = _
    rw [Heat.at_upAt, if_pos rfl, hl, List.range_succ]
  · obtain ⟨hin, hne⟩ := List.mem_filter.mp hg
    rcases List.mem_append.mp hin with hin | hin
    · exact hr.claims g hin
    · obtain rfl := List.mem_singleton.mp hin
      simp at hne

/-- A part leaves the tags of the slots that are not its own. -/
theorem SlotJob.Leaves.tags_elsewhere {t : Wk} (hl : j.Leaves k (j.partsFrom (k + 1)) w y t) (hj : j.Apart)
    (hk : k < j.count) {g : Nat} (hd : g ≠ j.dst k) (hs : j.src k ≠ some g) :
    t.dev.isFull g = w.dev.isFull g ∧ t.dev.isClaimed g = w.dev.isClaimed g := by
  rw [hl.full, hl.claim]
  simp [hd, mem_frees hj hk, hs]

/-- The slot of a part that has run is FULL with what the part wrote. -/
theorem SlotJob.Leaves.written {rest : List Part} {t : Wk} (hl : j.Leaves k rest w y t) (hj : j.Apart) :
    t.dev.isFull (j.dst k) = true ∧ t.dev.isClaimed (j.dst k) = false ∧
      ∀ b, b < slotBytes → t.mem.byte (slotAddr (j.dst k) + b) = (j.data k (w.view y.id 0 0)).getD b 0 := by
  refine ⟨by simp [hl.full], by simp [hl.claim], fun b hb => ?_⟩
  rw [hl.mem, Wk.byte_put, hj.length, if_pos ⟨Nat.le_add_right _ _, Nat.add_lt_add_left hb _⟩, Nat.add_sub_cancel_left]
  rfl

/-- The slot that a part has read stays FULL where it is kept. -/
theorem SlotJob.Leaves.read {t : Wk} (hl : j.Leaves k (j.partsFrom (k + 1)) w y t) (hj : j.Apart) (hk : k < j.count)
    {a : Nat} (ha : j.src k = some a) (hr : w.dev.readable a = true) : t.dev.isFull a = j.keep := by
  have hne : a ≠ j.dst k := fun e => hj.apart k k hk hk (ha.trans (congrArg some e))
  have hfull : w.dev.isFull a = true := (Bool.and_eq_true_iff.mp hr).1
  rw [hl.full]
  simp [hne, mem_frees hj hk, ha, hfull]

/-- Memory outside the slot of a part stays. -/
theorem SlotJob.Leaves.frame {rest : List Part} {t : Wk} (hl : j.Leaves k rest w y t) (hj : j.Apart) {a : Nat}
    (ha : beyond (slotAddr (j.dst k)) slotBytes a) : t.mem.byte a = w.mem.byte a := by
  rw [hl.mem, Wk.mem_put_outside]
  rwa [hj.length]

/-- With the next part one part more has run. -/
theorem SlotJob.Stands.next {t : Wk} (hw : j.Stands s x k w) (hj : j.Apart) (hf : j.Free s x) (hk : k < j.count)
    (hid : y.id = x.id) (hr : x.Ran y k) (hl : j.Leaves k (j.partsFrom (k + 1)) w y t) : j.Stands s x (k + 1) t := by
  refine ⟨⟨_, hid ▸ hl.heat, hr.next j⟩, hl.scene.trans hw.scene, fun i hi => ?_, fun i a hi ha => ?_, fun g hg => ?_,
    fun a ha => ?_, fun a ha => ?_, hl.base.trans hw.base⟩
  · rcases Nat.lt_succ_iff_lt_or_eq.mp hi with hi | rfl
    · have hne : j.dst i ≠ j.dst k := fun e => hi.ne (hj.dst_inj i k e)
      obtain ⟨hfull, hclaim⟩ := hl.tags_elsewhere hj hk hne (hj.apart k i hk (hi.trans hk))
      obtain ⟨hfull', hclaim', hbytes⟩ := hw.written i hi
      exact ⟨hfull.trans hfull', hclaim.trans hclaim', fun b hb =>
        (hl.frame hj (slotAddr_beyond hne hb)).trans (hbytes b hb)⟩
    · rw [← hw.sees hj hk y.id]
      exact hl.written hj
  · rcases Nat.lt_succ_iff_lt_or_eq.mp hi with hi | rfl
    · have hne : a ≠ j.dst k := fun e => hj.apart i k (hi.trans hk) hk (ha.trans (congrArg some e))
      exact (hl.tags_elsewhere hj hk hne fun e => hi.ne (hj.src_inj i k a ha e)).1.trans (hw.read i a hi ha)
    · exact hl.read hj hk ha (hw.readable hj hf hk ha)
  · obtain ⟨hd, hs⟩ := hg k k.lt_succ_self
    obtain ⟨hfull, hclaim⟩ := hl.tags_elsewhere hj hk hd hs
    obtain ⟨hfull', hclaim'⟩ := hw.others g fun i hi => hg i (hi.trans k.lt_succ_self)
    exact ⟨hfull.trans hfull', hclaim.trans hclaim'⟩
  · exact (hl.frame hj (ha k k.lt_succ_self)).trans (hw.frame a fun i hi => ha i (hi.trans k.lt_succ_self))
  · rw [hl.mem]
    exact Wk.view_put_clean (hw.clean a ha) _ _

/-! ### All parts run -/

/-- A plan made anew at any time is the job's. -/
def SlotJob.Plans (j : SlotJob) (h : HeatId) (mk : Wk → Heat → Plan) : Prop := ∀ w y, y.id = h → mk w y = j.plan

/-- With steps enough the parts that are left run, and the stage ends. -/
theorem SlotJob.Stands.go {mk : Wk → Heat → Plan} (hm : j.Plans x.id mk) (hj : j.Apart) (hf : j.Free s x) (n : Nat)
    (hw : j.Stands s x k w) (hk : k ≤ j.count) (hn : j.count - k < n) :
    ∃ w', j.Stands s x j.count w' ∧ Wk.go mk x.id 0 n w = w'.up fun d => d.finish x.id 0 [] := by
  induction n generalizing k w with
  | zero => omega
  | succ n ih =>
    obtain ⟨y, hy, hr⟩ := hw.heat
    have asked : j.Stands s x k (w.up fun d => d.ask y 0 j.plan) := hw.ask hy
    obtain ⟨z, hz, hrz⟩ := asked.heat
    have goes : (!y.mayRun || (y.at 0).ended) = false := by
      obtain ⟨-, hrun⟩ := hf.goes
      rw [hr.mayRun, hrun, hr.ended_eq]; rfl
    have left : j.plan.undone z 0 = j.partsFrom k := j.undone_plan hrz.ran_eq hk
    rw [Wk.go]
    simp only [hy, goes, Bool.false_eq_true, if_false, hm w y (Dev.heat_id hy), hz]
    rcases hk.lt_or_eq with hlt | rfl
    · simp only [asked.pick hj hf hlt hz hrz, left, others_part hlt]
      have hid : z.id = x.id := Dev.heat_id hz
      have leaves := SlotJob.partRun_leaves (hid ▸ hz) (hrz.body ▸ hf.single) hrz.held_eq
        (fun hin => (hf.writes k hlt).2.2 (hrz.claims _ hin)) (j.dst_notMem_later hj k) (asked.unpoisoned hf hlt z.id)
      exact ih (asked.next hj hf hlt hid hrz leaves) hlt (by omega)
    · have none : (w.up fun d => d.ask y 0 j.plan).dev.pick z 0 j.plan = none := by
        rw [Dev.pick, left, partsFrom_count]; rfl
      have rest : (w.up fun d => d.ask y 0 j.plan).dev.rest z 0 j.plan =
          (w.up fun d => d.ask y 0 j.plan).dev.finish x.id 0 [] := by
        rw [Dev.rest, left, partsFrom_count, Dev.heat_id hz]; rfl
      refine ⟨_, asked, ?_⟩
      simp only [none]
      exact congrArg (fun e => { (w.up fun d => d.ask y 0 j.plan) with dev := e }) rest

/-- What a command leaves that has written its slots: its work is done, every slot that it wrote is FULL with its bytes, every
slot that it read is FULL where it is kept and else EMPTY, and no other byte has changed. -/
structure SlotJob.Done (j : SlotJob) (s : State) (h : HeatId) (t : State) : Prop where
  heat    : ∃ y, t.dev.heat h = some y ∧ y.done = true
  written : ∀ k, k < j.count → t.dev.isFull (j.dst k) = true ∧ t.dev.isClaimed (j.dst k) = false ∧
    ∀ i, i < slotBytes → t.mem.byte (slotAddr (j.dst k) + i) = (j.data k s.mem.view).getD i 0
  read    : ∀ k a, k < j.count → j.src k = some a → t.dev.isFull a = j.keep
  frame   : ∀ a, (∀ k, k < j.count → beyond (slotAddr (j.dst k)) slotBytes a) → t.mem.byte a = s.mem.byte a

/-- The one stage of a command that writes its slots in turn. -/
theorem SlotJob.stage_done {mk : Wk → Heat → Plan} (hm : j.Plans x.id mk) (hj : j.Apart) (hf : j.Free s x) :
    j.Done s x.id (s.after (s.work.stage mk x.id 0)) := by
  have steps : s.work.steps mk x.id = j.count + 1 := by
    have hx : s.work.dev.heat x.id = some x := hf.goes.1
    simp only [Wk.steps, hx, hm _ x rfl, plan, List.length_map, List.length_range]
  obtain ⟨w, hw, hgo⟩ := hf.stands.go hm hj hf (j.count + 1) (Nat.zero_le _) (by omega)
  obtain ⟨y, hy, hr⟩ := hw.heat
  obtain ⟨⟨z, hz, hended, hdone⟩, htags⟩ := Dev.finish_ends w.dev x.id 0 [] y hy
  have stage : s.work.stage mk x.id 0 = w.up fun d => d.finish x.id 0 [] := by
    rw [Wk.stage, steps, hgo]
    exact Wk.go_ended mk x.id 0 _ _ z hz hended
  have tags (g : Nat) := htags g List.not_mem_nil (hr.leave.trans hf.unkept)
  have mem : (s.after (s.work.stage mk x.id 0)).mem = w.mem := by rw [stage]; exact State.after_mem s _ hw.base
  have dev : (s.after (s.work.stage mk x.id 0)).dev = w.dev.finish x.id 0 [] := by rw [stage]; rfl
  have alone : y.body.stages = [] := hr.body ▸ hf.single
  constructor <;> simp only [mem, dev, fun g => (tags g).1, fun g => (tags g).2]
  · exact ⟨z, hz, hdone (by simp [alone]) (by simp [alone])⟩
  · exact hw.written
  · exact hw.read
  · exact hw.frame

end Sys2Proof.Machine
end

section
/-! PONDS: fill, release and copy (R145, R146, R212). -/

namespace Sys2Proof.Machine

open Sys2Proof.Config

variable {s : State} {h : HeatId} {x : Heat} {f a b n : Nat} {v : W64} {keep : Bool}

/-- A slot of a cluster is a slot of the module (R28). -/
theorem slot_lt (c : Fin 128) {a k : Nat} (hk : a + k < slotsPerCluster) :
    c.val * slotsPerCluster + a + k < clusters * slotsPerCluster := by
  have := c.isLt
  simp only [clusters, slotsPerCluster] at *
  omega

theorem Heat.slot_add (x : Heat) (a k : Nat) : x.slot (a + k) = x.id.cluster.val * slotsPerCluster + a + k :=
  (Nat.add_assoc ..).symm

/-! ### FILL (R145) -/

/-- A fill writes whole slots: the bytes of its pattern divide a slot. -/
theorem fillBytes_length (f : Nat) (v : W64) : (fillBytes f v).length = slotBytes := by
  have whole (m : Nat) (hm : m ∣ slotBytes) :
      ((List.replicate (slotBytes / m) (leBytes m v.toNat)).flatten).length = slotBytes := by
    rw [List.length_flatten, List.map_replicate, List.sum_replicate, length_leBytes, smul_eq_mul, Nat.div_mul_cancel hm]
  refine whole _ ?_
  split
  case h_1 fmt _ => split <;> cases fmt <;> decide
  case h_2 =>
    split
    · decide
    · split <;> decide

/-- The work of a fill. -/
def fillJob (h : HeatId) (f a n : Nat) (v : W64) : SlotJob where
  who := .dma h.cluster.val
  count := n
  src _ := none
  dst k := h.cluster.val * slotsPerCluster + a + k
  keep := true
  data _ _ := fillBytes f v

theorem fillJob_plans : (fillJob h f a n v).Plans h (fillPlan f a n v) := by
  rintro w y rfl
  simp only [fillPlan, Heat.slot_add]
  rfl

theorem fillJob_apart : (fillJob h f a n v).Apart where
  src_lt _ _ _ := nofun
  src_inj _ _ _ := nofun
  dst_inj _ _ e := Nat.add_left_cancel e
  apart _ _ _ _ := nofun
  length _ _ := fillBytes_length f v
  sees _ _ _ _ := rfl

theorem exec_fill (hx : s.dev.goes h x) (hb : x.body = .fill f a n v) :
    exec (.fill h) s = .next (s.after (s.work.stage (fillPlan f a n v) h 0)) :=
  done_withHeat s h x hx.1 hx.2 _ _ rfl _ (by simp only [hb])

/-! ### COPY (R146) -/

/-- The work of a copy. -/
def copyJob (h : HeatId) (a b n : Nat) (keep : Bool) : SlotJob where
  who := .dma h.cluster.val
  count := n
  src k := some (h.cluster.val * slotsPerCluster + a + k)
  dst k := h.cluster.val * slotsPerCluster + b + k
  keep := keep
  data k v := (List.range slotBytes).map fun i => (v (slotAddr (h.cluster.val * slotsPerCluster + a + k) + i)).1

theorem copyPart_eq (x : Heat) (k : Nat) : copyPart x keep (x.slot (a + k)) (x.slot (b + k)) k =
    (copyJob x.id a b n keep).part k := by
  simp only [Heat.slot_add, copyPart, SlotJob.part, copyJob, Option.toList, List.map_cons, List.map_nil]

theorem copyJob_plans : (copyJob h a b n keep).Plans h (copyPlan a b n keep) := by
  rintro w y rfl
  rw [copyPlan, SlotJob.plan]
  simp only [copyPart_eq (n := n)]
  rfl

theorem copyJob_apart (ha : a + n ≤ slotsPerCluster) (hab : a + n ≤ b ∨ b + n ≤ a) :
    (copyJob h a b n keep).Apart where
  src_lt k g hk e := by
    obtain rfl := Option.some.inj e
    exact slot_lt h.cluster (lt_of_lt_of_le (Nat.add_lt_add_left hk a) ha)
  src_inj i k g e e' := by
    obtain rfl := Option.some.inj e
    exact (Nat.add_left_cancel (Option.some.inj e')).symm
  dst_inj _ _ e := Nat.add_left_cancel e
  apart i k hi hk e := by
    have hi : i < n := hi
    have hk : k < n := hk
    have same : h.cluster.val * slotsPerCluster + a + i = h.cluster.val * slotsPerCluster + b + k := Option.some.inj e
    omega
  length _ _ := by simp only [copyJob, List.length_map, List.length_range]
  sees k v v' e := by
    simp only [copyJob] at e ⊢
    exact List.map_congr_left fun i hi => e _ rfl i (List.mem_range.mp hi)

theorem exec_copy (hx : s.dev.goes h x) (hb : x.body = .copy a b n keep) :
    exec (.copy h) s = .next (s.after (s.work.stage (copyPlan a b n keep) h 0)) :=
  done_withHeat s h x hx.1 hx.2 _ _ rfl _ (by simp only [hb])

/-- Settles O22: a copy is a job of slots that read and write apart, and what it writes is what memory holds. -/
theorem copyCopiesItsSlots : Obligations.CopyCopiesItsSlots := by
  intro s h x a b n keep hx hb hfresh hleave hgathers src dst _ ha _ hab hslots
  obtain rfl : x.id = h := Dev.heat_id hx.1
  have free : (copyJob x.id a b n keep).Free s x := by
    refine ⟨hx, hfresh, hleave, hgathers, by rw [hb]; rfl, fun k g hk e => ?_, fun k hk => ?_⟩
    · obtain rfl := Option.some.inj e
      obtain ⟨hread, hturns, -, -, -, hclean⟩ := hslots k hk
      exact ⟨hread, hturns, (firstPoison_slot _ _).mp hclean⟩
    · obtain ⟨-, -, hfree, hturns, hnew, -⟩ := hslots k hk
      exact ⟨hfree, hturns, hnew⟩
  obtain ⟨hheat, hwritten, hread, hframe⟩ := SlotJob.stage_done copyJob_plans (copyJob_apart ha hab) free
  refine ⟨_, exec_copy hx hb, hheat, fun k hk => ?_, hframe⟩
  obtain ⟨hfull, -, hbytes⟩ := hwritten k hk
  refine ⟨hfull, hread k _ hk rfl, fun i hi => (hbytes i hi).trans ?_⟩
  simp [copyJob, hi, Mem.view, src]

/-! ### RELEASE (R145) -/

/-- The heat of a release that has emptied its slots and waits for none. -/
def Heat.released (x : Heat) : Heat := x.upAt 0 fun p => { p with begun := true, held := [] }

/-- The heat of a release that goes on with no slot on its way to EMPTY: its progress stays, and it waits on nothing. -/
def Heat.waitless (x : Heat) : Heat := { x with prog := (x.upAt 0 fun p => p).prog, waits := [] }

theorem Dev.releaseAll_of_unclaimed (d : Dev) (x : Heat) {l : List Nat} (hl : ∀ g ∈ l, d.isClaimed g = false) :
    d.releaseAll x l = (l.foldl Dev.emptySlot d).setHeat x.id Heat.released := by
  have held : l.filter d.isClaimed = [] := List.filter_eq_nil_iff.mpr fun g hg => by simp [hl g hg]
  have free : l.filter (fun g => !d.isClaimed g) = l := List.filter_eq_self.mpr fun g hg => by simp [hl g hg]
  rw [releaseAll, held, free]
  rfl

theorem Dev.releaseOn_of_none (d : Dev) (y : Heat) (hh : (y.at 0).held = []) (hg : (y.at 0).going = []) :
    d.releaseOn y = (d.setHeat y.id Heat.waitless).finish y.id 0 [] := by
  simp [releaseOn, hh, hg]
  rfl

/-- The end of a stage makes no slot FULL. -/
theorem Dev.finish_isFull {d : Dev} {g : Nat} (hg : d.isFull g = false) (h : HeatId) (st : Nat) (temps : List Nat) :
    (d.finish h st temps).isFull g = false := by
  unfold Dev.finish
  split
  · exact hg
  · rw [Dev.isFull_setHeat, foldl_emptySlot_full, foldl_unclaimSlot_full, hg, Bool.and_false, Bool.and_false]

/-- A release that has not begun and finds none of its slots claimed empties them and ends. -/
theorem Wk.releaseStep_ends {w : Wk} (hx : w.dev.heat x.id = some x) (hf : x.at 0 = .zero)
    (hc : ∀ k, k < n → w.dev.isClaimed (x.slot (a + k)) = false) :
    ∃ d : Dev, w.releaseStep x a n = w.up (fun _ => d.finish x.id 0 []) ∧
      (∃ y, d.heat x.id = some y ∧ y.body = x.body) ∧ ∀ k, k < n → d.isFull (x.slot (a + k)) = false := by
  let slots := (List.range n).map fun k => x.slot (a + k)
  let d := (slots.foldl Dev.emptySlot w.dev).setHeat x.id Heat.released
  have all : w.dev.releaseAll x slots = d := Dev.releaseAll_of_unclaimed _ x fun g hg => by
    obtain ⟨k, hk, rfl⟩ := List.mem_map.mp hg
    exact hc k (List.mem_range.mp hk)
  have hd : d.heat x.id = some x.released :=
    Dev.heat_setHeat_some ((foldl_heat _ Dev.emptySlot_heat _ w.dev x.id).trans hx) (by intro; rfl)
  have fresh : x.released.at 0 = { Prog.zero with begun := true } := by
    rw [Heat.released, Heat.at_upAt, if_pos rfl, hf]; rfl
  refine ⟨d.setHeat x.id Heat.waitless, ?_, ⟨_, Dev.heat_setHeat_some hd (by intro; rfl), rfl⟩, fun k hk => ?_⟩
  · rw [releaseStep, hf]
    show w.up (fun _ => match (w.dev.releaseAll x slots).heat x.id with
      | some y => (w.dev.releaseAll x slots).releaseOn y
      | none => w.dev.releaseAll x slots) = _
    rw [all, hd]
    exact congrArg (fun e => w.up fun _ => e) (d.releaseOn_of_none x.released (by rw [fresh]; rfl) (by rw [fresh]; rfl))
  · rw [Dev.isFull_setHeat, Dev.isFull_setHeat, foldl_emptySlot_full]
    have : x.slot (a + k) ∈ slots := List.mem_map.mpr ⟨k, List.mem_range.mpr hk, rfl⟩
    simp [this]

theorem exec_release (hx : s.dev.goes h x) (hb : x.body = .release a n) :
    exec (.release h) s = .next (s.after (s.work.releaseStep x a n)) :=
  done_withHeat s h x hx.1 hx.2 _ _ rfl _ (by simp only [hb])

/-- Settles O21: a fill is a job of slots that reads none; a release empties its slots and is over. -/
theorem fillAndReleaseTheirSlots : Obligations.FillAndReleaseTheirSlots := by
  constructor
  · intro s h x f a n v hx hb hfresh hleave hgathers _ _ hslots
    obtain rfl : x.id = h := Dev.heat_id hx.1
    have free : (fillJob x.id f a n v).Free s x :=
      ⟨hx, hfresh, hleave, hgathers, by rw [hb]; rfl, fun _ _ _ => nofun, hslots⟩
    obtain ⟨hheat, hwritten, -, hframe⟩ := SlotJob.stage_done fillJob_plans fillJob_apart free
    exact ⟨_, exec_fill hx hb, hheat, hwritten, hframe⟩
  · intro s h x a n hx hb hfresh hclaims
    obtain rfl : x.id = h := Dev.heat_id hx.1
    simp only [← Heat.slot_add] at hclaims ⊢
    obtain ⟨d, hstep, ⟨y, hy, hbody⟩, hempty⟩ := Wk.releaseStep_ends (w := s.work) hx.1 hfresh hclaims
    obtain ⟨⟨z, hz, -, hdone⟩, -⟩ := Dev.finish_ends d x.id 0 [] y hy
    have stages : y.body.stages = [] := by rw [hbody, hb]; rfl
    refine ⟨_, z, exec_release hx hb, ?_, ?_, hdone (by simp [stages]) (by simp [stages]), fun k hk => ?_⟩
    · rw [hstep]; rfl
    · rw [hstep]; exact hz
    · rw [hstep]; exact Dev.finish_isFull (hempty k hk) _ _ _

end Sys2Proof.Machine
end

section
/-! MEMORY SYSTEM: writes and atomic updates that are served (R164, R187, R188, R194, R199). -/

namespace Sys2Proof.Machine

open Sys2Proof.Config

variable {s : State} {id : Nat} {errs : List EccError} {r : Req} {w : Wk} {d : Dev}

/-! ### The requests that stay -/

@[simp] theorem Dev.replace_hbm (d : Dev) (n : Nat) : (d.replace n).hbm = d.hbm := by
  unfold Dev.replace
  dsimp only
  split
  · rfl
  · split <;> simp

@[simp] theorem Dev.countPoison_hbm (d : Dev) (line : Nat) : (d.countPoison line).hbm = d.hbm := by
  unfold Dev.countPoison
  dsimp only
  split
  · rfl
  · split <;> simp

@[simp] theorem Dev.doorbell_hbm (d : Dev) (c k : Nat) (tail : W32) : (d.doorbell c k tail).hbm = d.hbm := by
  unfold Dev.doorbell
  dsimp only
  split <;> simp

@[simp] theorem Dev.ringBells_hbm (d : Dev) : d.ringBells.hbm = d.hbm :=
  foldl_keeps Dev.hbm _ (fun d (b : Bell) => d.doorbell_hbm b.cluster b.stream b.tail) _ _

/-- A working record that differs in neither a byte of memory nor a request. -/
def Wk.SameServed (w v : Wk) : Prop :=
  v.base = w.base ∧ (∀ a, v.mem.byte a = w.mem.byte a) ∧ v.dev.hbm.reqs = w.dev.hbm.reqs

/-- An error that ECC reports poisons a word or queues a write-back (R193, R195). -/
theorem Wk.eccError_same (w : Wk) (line : Nat) (rc : Rec) (e : EccError) : w.SameServed (Wk.eccError line rc w e) := by
  unfold Wk.eccError
  dsimp only
  split
  · refine ⟨rfl, fun _ => rfl, ?_⟩
    rw [Wk.dev_up]
    split <;> simp
  · exact ⟨rfl, fun a => by simp, by simp⟩

theorem Wk.ecc_same (w : Wk) (line : Nat) (rc : Rec) (errs : List EccError) : w.SameServed (w.ecc line rc errs) := by
  refine List.foldlRecOn errs _ ⟨rfl, fun _ => rfl, rfl⟩ fun v ⟨hbase, hbyte, hreqs⟩ e _ => ?_
  obtain ⟨hbase', hbyte', hreqs'⟩ := v.eccError_same line rc e
  exact ⟨hbase'.trans hbase, fun a => (hbyte' a).trans (hbyte a), hreqs'.trans hreqs⟩

/-! ### Service (R187, R188, R194) -/

theorem Wk.serve_write (w : Wk) {a : Nat} {data : List Byte} (hk : r.kind = .write a data) :
    w.serve r = w.hbmPut a data := by simp only [Wk.serve, hk]

/-- An atomic update takes place where nothing that it reads is poisoned. -/
theorem Wk.serve_atomic (w : Wk) {op : AtomOp} (hk : r.kind = .atomic op)
    (hc : ∀ x ∈ op.guarded w.mem, firstPoison w.mem.view [x] = none) :
    w.serve r = (w.applyAtom op).ite (w.saturates op) fun w => w.up fun d => d.saturated r := by
  simp only [Wk.serve, hk, List.filterMap_eq_nil_iff.mpr hc]

/-- Poison in what an atomic update reads refuses it (R194). -/
theorem Wk.serve_refused (w : Wk) {op : AtomOp} (hk : r.kind = .atomic op) {x : Nat × Nat} (hx : x ∈ op.guarded w.mem)
    (hp : firstPoison w.mem.view [x] ≠ none) : ∃ a, w.serve r = w.up fun d => d.refuseAtom w.mem r (a / 128) := by
  obtain ⟨a, ha⟩ := Option.ne_none_iff_exists'.mp hp
  have found : a ∈ (op.guarded w.mem).filterMap fun x => firstPoison w.mem.view [x] := List.mem_filterMap.mpr ⟨x, hx, ha⟩
  obtain ⟨b, l, hl⟩ := List.exists_cons_of_ne_nil (List.ne_nil_of_mem found)
  exact ⟨b, by simp only [Wk.serve, hk, hl]⟩

/-- A write or an atomic update that may be served is, after its ECC events, and is acknowledged. -/
theorem exec_writeAck (hf : s.dev.hbm.reqs.find? (fun r => r.id == id) = some r) (hi : r.issued = true)
    (hs : s.dev.servable r = true) (hk : r.kind.isRead = false) : exec (.writeAck id errs) s =
      .next (s.after (((s.work.ecc r.line (s.dev.reqRec r) errs).serve r).up fun d => (d.dropReq id).ringBells)) := by
  have served : (!r.issued || !s.dev.servable r || r.kind.isRead) = false := by rw [hi, hs, hk]; rfl
  exact done_next_of s (by simp only [State.work, hf, served, Bool.false_eq_true, if_false])

theorem Dev.dropReq_ringBells_reqs (d : Dev) (id : Nat) :
    (d.dropReq id).ringBells.hbm.reqs = d.hbm.reqs.filter fun r => r.id != id := by rw [Dev.ringBells_hbm]; rfl

theorem Wk.hbmPut_reqs (w : Wk) (a : Nat) (data : List Byte) : (w.hbmPut a data).dev.hbm.reqs = w.dev.hbm.reqs := by
  unfold Wk.hbmPut
  rw [Wk.dev_up, Wk.dev_put]
  rfl

/-- A write that is served is in memory, and it alone. -/
theorem write_lands {a : Nat} {data : List Byte} (hf : s.dev.hbm.reqs.find? (fun r => r.id == id) = some r)
    (hi : r.issued = true) (hs : s.dev.servable r = true) (hk : r.kind = .write a data) :
    ∃ t, exec (.writeAck id errs) s = .next t ∧ (∀ i, i < data.length → t.mem.byte (a + i) = data.getD i 0) ∧
      (∀ b, beyond a data.length b → t.mem.byte b = s.mem.byte b) ∧
      t.dev.hbm.reqs = s.dev.hbm.reqs.filter fun q => q.id != id := by
  obtain ⟨hbase, hbyte, hreqs⟩ := s.work.ecc_same r.line (s.dev.reqRec r) errs
  have mem := State.after_mem s (((s.work.ecc r.line (s.dev.reqRec r) errs).hbmPut a data).up fun d =>
    (d.dropReq id).ringBells) ((Wk.base_put _ a data).trans hbase)
  refine ⟨_, exec_writeAck hf hi hs (by rw [hk]; rfl), ?_⟩
  rw [Wk.serve_write _ hk, mem]
  refine ⟨fun i hlt => ?_, fun b hb => (Wk.mem_put_outside _ a b data hb).trans (hbyte b), ?_⟩
  · refine (Wk.byte_put _ a (a + i) data).trans ?_
    rw [if_pos ⟨Nat.le_add_right a i, Nat.add_lt_add_left hlt a⟩, Nat.add_sub_cancel_left]
    rfl
  · rw [State.after_dev, Wk.dev_up, Dev.dropReq_ringBells_reqs, Wk.hbmPut_reqs, hreqs]
    rfl

/-- Settles O37: a served write is a write of memory, and a served atomic update its action, or its refusal, which memory
does not see. -/
theorem writesLand : Obligations.WritesLand := by
  refine ⟨fun s id errs r a data hf hi hs hk => write_lands hf hi hs hk, fun s id r op hf hi hs hk => ?_⟩
  have next := exec_writeAck (errs := []) hf hi hs (by rw [hk]; rfl)
  refine ⟨fun hc => ?_, fun x hx hp => ?_⟩
  · rw [next]
    exact congrArg (fun w => Host.Outcome.next (s.after (w.up fun d => (d.dropReq id).ringBells))) (s.work.serve_atomic hk hc)
  · obtain ⟨a, ha⟩ := s.work.serve_refused hk hx hp
    refine ⟨_, next, ?_, ?_⟩
    · exact congrArg (fun w : Wk => s.mem.applyAll w.ops) ha
    · rw [State.after_dev, Wk.dev_up, Dev.dropReq_ringBells_reqs]
      exact List.find?_eq_none.mpr fun q hq => by simpa using (List.mem_filter.mp hq).2

end Sys2Proof.Machine
end

section
/-! LAST PARTS THAT STORE: how a stage ends with a part that stores its results, where its plan depends on no more than
what the stage has read first (R148, R190, R201). -/

namespace Sys2Proof.Machine

variable {s : State} {h : HeatId} {x y : Heat} {w q : Wk} {st : Nat} {mk : Wk → Heat → Plan} {p : Part}

/-! ### What a stage has read first -/

/-- The words that a stage has read first, and whether they are there. -/
def Heat.first (x : Heat) (st : Nat) : List (Nat × Bool) × Bool := ((x.at st).words, (x.at st).begun)

/-- A change of a stage's progress that leaves its words and that they are there. -/
theorem Heat.first_upAt (x : Heat) (k st : Nat) {f : Prog → Prog} (hw : ∀ g, (f g).words = g.words)
    (hb : ∀ g, (f g).begun = g.begun) : (x.upAt k f).first st = x.first st := by
  rw [Heat.first, Heat.at_upAt]
  split
  · rename_i e; rw [hw, hb, ← e]; rfl
  · rfl

theorem Heat.first_ranPart (x : Heat) (n : Nat) (p : Part) : (x.ranPart n p).first st = x.first st :=
  x.first_upAt n st (f := fun g => { g with ran := g.ran ++ [p.no] }) (by intro; rfl) (by intro; rfl)

section

variable {α : Type} {f : Heat → α}

/-- What a function tells of a heat, where the heat is in the scoreboard. -/
def Dev.told (d : Dev) (f : Heat → α) (k : HeatId) : Option α := (d.heat k).map f

theorem Dev.told_of_heat {d : Dev} {k : HeatId} (hx : d.heat k = some x) : d.told f k = some (f x) := by
  rw [Dev.told, hx]; rfl

theorem Dev.told_updWhere (d : Dev) (p : Heat → Bool) {g : Heat → Heat} (hi : ∀ x, (g x).id = x.id)
    (hf : ∀ x, f (g x) = f x) (k : HeatId) :
    Dev.told { d with mar := { d.mar with heats := updWhere p g d.mar.heats } } f k = d.told f k := by
  rw [Dev.told, Dev.heat_updWhere d p g hi, Dev.told, Option.map_map]
  congr 1
  funext x
  simp only [Function.comp]
  split
  · exact hf x
  · rfl

theorem Dev.told_setHeat (d : Dev) (id : HeatId) {g : Heat → Heat} (hi : ∀ x, (g x).id = x.id) (hf : ∀ x, f (g x) = f x)
    (k : HeatId) : (d.setHeat id g).told f k = d.told f k := d.told_updWhere _ hi hf k

/-- Asking for reads changes no more of a heat than the parts that have asked. -/
theorem Dev.told_ask (d : Dev) (x : Heat) (n : Nat) (pl : Plan)
    (hf : ∀ (x : Heat) (l : List Nat), f (x.upAt n fun g => { g with asked := g.asked ++ l }) = f x) (k : HeatId) :
    (d.ask x n pl).told f k = d.told f k := by
  unfold Dev.ask
  split
  · refine foldl_keeps (fun d => d.told f k) _ (fun d p => ?_) _ d
    refine (Dev.told_setHeat _ x.id (by intro; rfl) (fun x => hf x [p.no]) k).trans ?_
    exact foldl_keeps (fun d => d.told f k) _ (by intros; rfl) p.lines d
  · rfl

end

theorem Dev.first_fillSlot (d : Dev) (g : Nat) (k : HeatId) :
    (d.fillSlot g).told (·.first st) k = d.told (·.first st) k := by
  unfold Dev.fillSlot
  dsimp only
  split
  · exact Dev.told_updWhere (d.tag g true false _) _ (by intro; rfl)
      (fun x => x.first_upAt 0 st (by intro; rfl) (by intro; rfl)) k
  · rfl

theorem Dev.first_fillFor (d : Dev) (id : HeatId) (slots : List Nat) (k : HeatId) :
    (d.fillFor id slots).told (·.first st) k = d.told (·.first st) k :=
  (Dev.told_setHeat _ id (by intro; rfl) (by intro; rfl) k).trans
    (foldl_keeps (fun d => d.told (·.first st) k) _ (fun d g => d.first_fillSlot g k) slots d)

theorem SolePart.first_eq {pl : Plan} (hs : SolePart s h x y w st pl p) : y.first st = x.first st := by
  have asked : w.dev.told (·.first st) h = s.dev.told (·.first st) h := by
    rw [hs.asked]
    exact Dev.told_ask s.dev x st pl (fun x _ => x.first_upAt st st (by intro; rfl) (by intro; rfl)) h
  rw [Dev.told_of_heat hs.heat, Dev.told_of_heat hs.goes.1] at asked
  exact Option.some.inj asked

/-! ### Plans that stay the same once the first words are there -/

/-- A plan made anew holds the same where the stage has read the same first: that it is whole, its slots that hold nothing
at the end, and the numbers of its parts do not depend on what else has changed since. -/
structure SteadyFor (mk : Wk → Heat → Plan) (st : Nat) (x : Heat) : Prop where
  whole : ∀ w z, z.first st = x.first st → (mk w z).whole = true
  temps : ∀ w w' z, z.first st = x.first st → (mk w z).temps = (mk w' x).temps
  nos   : ∀ w w' z, z.first st = x.first st → (mk w z).parts.map Part.no = (mk w' x).parts.map Part.no

/-- With the one part that is left the stage ends, and the command with its last stage. -/
theorem SolePart.stage_ends_first (hm : SteadyFor mk st x) (hs : SolePart s h x y w st (mk s.work x) p)
    (hst : st < max 1 x.body.stages.length) (hr : p.run (w.view h st) (w.begins h st p) = (q, true))
    {c : List Nat} {b : Bool} (hq : q.dev.heat h = some { y with claims := c, sat := b }) :
    s.work.stage mk h st = q.ends h st (mk s.work x).temps p ∧
      finished (s.after (q.ends h st (mk s.work x).temps p)) h (mk s.work x).temps p := by
  obtain ⟨z, hz, hgo, hopen, hmarks, hran⟩ := hs.ends_marked (mk s.work x).temps hq
  obtain ⟨-, hbody, -, -, -, hleave, -, hended⟩ := hs.near
  have hfirst : z.first st = x.first st := by
    have stays := Dev.first_fillFor (st := st) (q.dev.setHeat h fun x => x.ranPart st p) h
      (p.slots.filter fun g => !(mk s.work x).temps.contains g) h
    rw [Dev.told_setHeat q.dev h (by intro; rfl) (fun x => x.first_ranPart st p), Dev.told_of_heat hq] at stays
    exact (Option.some.inj ((Dev.told_of_heat hz).symm.trans stays)).trans hs.first_eq
  have known {w' : Wk} {r : Part} (hr : r ∈ (mk w' z).parts) : ∃ r' ∈ (mk s.work x).parts, r'.no = r.no :=
    List.mem_map.mp (hm.nos w' s.work z hfirst ▸ List.mem_map_of_mem hr)
  constructor
  · refine Wk.stage_last s h x y w q st mk p hs hr z hz hgo hopen (hm.whole _ z hfirst) (hm.temps _ _ z hfirst) ?_ ?_
    · refine List.filter_eq_nil_iff.mpr fun r hr => ?_
      obtain ⟨r', hr', e⟩ := known hr
      suffices r'.no ∈ (z.at st).ran by simpa [← e] using this
      by_cases hy : r'.no ∈ (y.at st).ran
      · exact hmarks.ran st _ hy
      · have : r' ∈ (mk s.work x).undone y st := List.mem_filter.mpr ⟨hr', by simpa using hy⟩
        rw [hs.left, List.mem_singleton] at this
        rwa [this]
    · intro r hr
      obtain ⟨r', hr', e⟩ := known hr
      exact e ▸ hmarks.asked st _ (hs.asked_all r' hr')
  · refine Wk.ends_finished s q h st _ p _ hq (hleave.trans hs.unkept) (hbody ▸ hst) fun k hk hne => ?_
    exact (hended k).trans (hs.alone k (hbody ▸ hk) hne)

/-! ### Parts that end their heat (R148, R238) -/

/-- A heat that is cancelled while it runs stays as CANCELLING (R238). -/
theorem Dev.cancelHeat_stops {d : Dev} (hx : d.heat x.id = some x) (hr : x.state = .running) (chain : Bool) :
    ∃ v, (d.cancelHeat x chain).heat x.id = some v ∧ v.state = .cancelling := by
  have dead : (d.markDead x.id chain).heat x.id = some x := by
    rw [← hx]
    simp [Dev.heat]
  obtain ⟨v, hv, -⟩ := Dev.nearHeats_foldl _ Dev.unclaimSlot_near x.claims _ _ _ dead
  have quiet : ((x.claims.foldl Dev.unclaimSlot (d.markDead x.id chain)).withdraw x.id).heat x.id = some v := by
    rw [← hv]
    simp [Dev.heat]
  refine ⟨{ v with state := .cancelling, claims := [], staged := [], waits := [] }, ?_, rfl⟩
  simp only [Dev.cancelHeat, hr]
  exact Dev.heat_setHeat_some quiet (by intro; rfl)

/-- A heat that a fault ends does not go on. -/
theorem Dev.endHeat_stops {d : Dev} (hx : d.heat h = some x) (hr : x.state = .running) :
    ∃ v, (d.endHeat x).heat h = some v ∧ v.mayRun = false := by
  obtain rfl : x.id = h := Dev.heat_id hx
  obtain ⟨v, hv, hstate⟩ := Dev.cancelHeat_stops hx hr false
  refine ⟨v, ?_, by simp [Heat.mayRun, hstate]⟩
  have halted : ((d.cancelHeat x false).halt x.id.cluster.val x.id.stream.num 3 x.id.index).heat x.id = some v := by
    rw [← hv]
    simp [Dev.heat]
  rw [← Dev.settle_heat_some _ _ v halted (by simp [hstate])]
  simp [Dev.endHeat, Dev.heat]

theorem Dev.faultHeat_stops {d : Dev} (hx : d.heat h = some x) (hr : x.state = .running) (rc : Rec) :
    ∃ v, (d.faultHeat x rc).heat h = some v ∧ v.mayRun = false := by
  refine Dev.endHeat_stops ?_ hr
  rw [← hx]
  simp [Dev.heat]

theorem Heat.running_of_mayRun {x : Heat} (h : x.mayRun = true) : x.state = .running := by
  simp only [Heat.mayRun, Bool.and_eq_true, beq_iff_eq] at h
  exact h.1.1

/-- A heat that may not run gets on no more. -/
theorem Wk.go_stopped (hx : w.dev.heat h = some x) (hr : x.mayRun = false) (n : Nat) : Wk.go mk h st n w = w := by
  cases n with
  | zero => rfl
  | succ n => simp [Wk.go, hx, hr]

/-- The one part that is left is the one that runs now. -/
theorem SolePart.pick {pl : Plan} (hs : SolePart s h x y w st pl p) : w.dev.pick y st pl = some p := by
  simp only [Dev.pick, hs.left, laneHeads, List.filter_nil, others_self, hs.free, List.find?_cons, hs.up]
  rfl

/-- The part that is left is the first that a stage runs. -/
theorem SolePart.go_succ (hs : SolePart s h x y w st (mk s.work x) p) (n : Nat) :
    Wk.go mk h st (n + 1) s.work = Wk.go mk h st n (w.partRun y st (mk s.work x).temps [] p) := by
  have hx : s.work.dev.heat h = some x := hs.goes.1
  have hw : (s.work.up fun d => d.ask x st (mk s.work x)) = w := hs.asked.symm
  simp only [Wk.go, hx, hs.goes.2, hs.notOver, Bool.not_true, Bool.or_self, Bool.false_eq_true, if_false, hw, hs.heat,
    hs.pick, hs.left, others_self]

theorem SolePart.steps_eq (hs : SolePart s h x y w st (mk s.work x) p) :
    s.work.steps mk h = (mk s.work x).parts.length + 1 := by
  have hx : s.work.dev.heat h = some x := hs.goes.1
  simp only [Wk.steps, hx]

/-- A part that has ended its heat is the last that the stage does. -/
theorem SolePart.stage_stops (hs : SolePart s h x y w st (mk s.work x) p)
    (hr : p.run (w.view h st) (w.begins h st p) = (q, false)) {v : Heat} (hv : q.dev.heat h = some v)
    (hstop : v.mayRun = false) : s.work.stage mk h st = q := by
  obtain rfl : y.id = h := Dev.heat_id hs.heat
  have run : w.partRun y st (mk s.work x).temps [] p = q := by
    have hr' : p.run (w.view y.id st) (w.up fun d => (d.consume y.id st (p.frees [])).claimFor y.id p.slots) = (q, false) := hr
    simp only [Wk.partRun, hs.clean, hr']
  simp only [Wk.stage, hs.steps_eq, hs.go_succ, run, Wk.go_stopped hv hstop]

/-! ### Stores -/

theorem SolePart.base_eq {pl : Plan} (hs : SolePart s h x y w st pl p) : (w.begins h st p).base = s.mem := by
  rw [hs.asked]; rfl

theorem SolePart.mem_eq {pl : Plan} (hs : SolePart s h x y w st pl p) : (w.begins h st p).mem = s.mem := by
  rw [hs.asked]; rfl

/-- What is left when the part has changed the block alone. -/
theorem SolePart.after_up_mem {pl : Plan} (hs : SolePart s h x y w st pl p) (f : Dev → Dev) :
    (s.after ((w.begins h st p).up f)).mem = s.mem :=
  (State.after_mem s ((w.begins h st p).up f) hs.base_eq).trans hs.mem_eq

/-- The part that is left has done `q` and has changed its heat in nothing but its saturation: the command completes. -/
theorem SolePart.completes_of_run (hm : SteadyFor mk st x) (hs : SolePart s h x y w st (mk s.work x) p)
    (ht : (mk s.work x).temps = []) (hst : st < max 1 x.body.stages.length)
    {o : Host.Outcome State Fault Refusal} (ho : o = .next (s.after (s.work.stage mk h st)))
    (hr : p.run (w.view h st) (w.begins h st p) = (q, true)) {c : List Nat} {b : Bool}
    (hq : q.dev.heat h = some { y with claims := c, sat := b }) : completes s h st [] p q o := by
  obtain ⟨hstage, hfin⟩ := hs.stage_ends_first hm hst hr hq
  rw [ht] at hstage hfin
  exact ⟨by rw [ho, hstage], hfin⟩

/-- A last part that stores its results completes its command, or poison ends it. -/
theorem SolePart.settles_of_store (hm : SteadyFor mk st x) (hs : SolePart s h x y w st (mk s.work x) p)
    (ht : (mk s.work x).temps = []) (hst : st < max 1 x.body.stages.length)
    {o : Host.Outcome State Fault Refusal} (ho : o = .next (s.after (s.work.stage mk h st)))
    {ps : List Piece} {atoms : List AtomOp} {bad : Bool} (ha : ∀ a ∈ atoms, a.plain = true)
    (hr : p.run (w.view h st) (w.begins h st p) = (w.begins h st p).store h p.who st p.no ps atoms bad) :
    settles s h w st [] p ps atoms bad o := by
  obtain ⟨c, hc⟩ := hs.begins_heat
  refine ⟨fun hb hn => ?_, fun hb => ⟨_, hc, ?_⟩⟩
  · subst hb
    obtain ⟨hgo, hbase, ⟨b, hheat⟩, hframe⟩ :=
      (w.begins h st p).store_stays h _ p.who st p.no ps atoms hc hn ha
    refine ⟨hs.completes_of_run hm ht hst ho (hr.trans (Prod.ext rfl hgo)) hheat, fun a hps hatoms => ?_⟩
    rw [State.after_mem s (Wk.ends _ h st [] p) (hbase.trans hs.base_eq), ← hs.mem_eq]
    exact hframe a hps hatoms
  · have run := hr.trans (Wk.store_poisoned _ h _ p.who st p.no ps atoms bad hc hb)
    obtain ⟨v, hv, hstop⟩ := Dev.endHeat_stops hc (Heat.running_of_mayRun (hs.near.mayRun hs.goes.2))
    rw [ho, hs.stage_stops run hv hstop]

end Sys2Proof.Machine
end

section
/-! TENSOR DESCRIPTORS: gathers (R165 to R169, R213) and the entries of compressed destinations (R174). -/

namespace Sys2Proof.Machine

variable {s : State} {h : HeatId} {x y : Heat} {w : Wk} {st : Nat} {t ix d : Desc} {keep : Bool} {p : Part}

/-- The entries of stored tiles, as the words of the stage hold them from number `first` on. -/
def entryPieces (o : Desc) (ws : List (Nat × Bool)) (first : Nat) (tiles : List Nat) : List Piece :=
  tiles.mapIdx fun i n =>
    let e := ws.getD (first + i) (0, false)
    (o.tileMap + 8 * n, leBytes 8 e.1, e.2)

/-- A last part that stores the entries of tiles completes its command, or poison ends it. -/
theorem SolePart.settles_of_entries {mk : Wk → Heat → Plan} (hm : SteadyFor mk 0 x) {who : Requester} {acc : Nat} {o : Desc}
    {ws : List (Nat × Bool)} {no first prev : Nat} {tiles : List Nat}
    (hs : SolePart s h x y w 0 (mk s.work x) (tileEntries s.work x who 0 acc o ws no first tiles prev))
    (ht : (mk s.work x).temps = []) {r : Host.Outcome State Fault Refusal}
    (hr : r = .next (s.after (s.work.stage mk h 0))) :
    settles s h w 0 [] (tileEntries s.work x who 0 acc o ws no first tiles prev) (entryPieces o ws first tiles) [] false r := by
  obtain rfl : x.id = h := Dev.heat_id hs.goes.1
  exact hs.settles_of_store hm ht (lt_max_of_lt_left Nat.one_pos) hr (fun _ => nofun) rfl

/-! ### The plan of a gather -/

theorem gatherPlan_temps (st : Nat) (t ix d : Desc) (keep : Bool) (w : Wk) (x : Heat) :
    (gatherPlan st t ix d keep w x).temps = [] := by
  unfold gatherPlan
  dsimp only
  split <;> rfl

/-- The numbers of the parts of a gather once its indices are there: each of its spans of windows has one, and another
for the entries of its tiles. -/
theorem gatherPlan_nos (hb : (x.at st).begun = true) : (gatherPlan st t ix d keep w x).parts.map Part.no =
    ((List.range (((ix.size + 63) / 64 + max 1 (gatherSpan t d ix.size) - 1) / max 1 (gatherSpan t d ix.size))).map fun k =>
      (2 * k + 1) :: if d.tileMap == 0 then [] else [2 * k + 2]).flatten := by
  simp only [gatherPlan, hb, Bool.not_true, Bool.false_eq_true, if_false, List.map_flatten, List.map_map]
  congr 2
  funext k
  simp only [Function.comp, List.map_cons]
  split <;> rfl

theorem gatherPlan_steady (hb : (x.at st).begun = true) : SteadyFor (gatherPlan st t ix d keep) st x := by
  have begun {z : Heat} (hz : z.first st = x.first st) : (z.at st).begun = true := (congrArg Prod.snd hz).trans hb
  refine ⟨fun w z hz => ?_, fun w w' z _ => by simp only [gatherPlan_temps], fun w w' z hz => ?_⟩
  · simp only [gatherPlan, begun hz]
    rfl
  · rw [gatherPlan_nos (begun hz), gatherPlan_nos hb]

theorem exec_gather (hx : s.dev.goes h x) (hb : x.body = .stage (.gather t ix d keep)) :
    exec (.gather h) s = .next (s.after (s.work.stage (gatherPlan 0 t ix d keep) h 0)) :=
  done_withHeat s h x hx.1 hx.2 _ _ rfl _ (by simp only [hb])

/-! ### The parts of a gather -/

/-- An index out of range under FAULT ends the heat with its record (R167). -/
theorem indexPart_run_fault {a b : Desc} {strict : Bool} {v : Nat → View} {j : Nat} {i : Int}
    (hi : badIndex t (ix.indices (v 0)) = some (j, i)) (hx : w.dev.heat x.id = some y) :
    (indexPart x st t ix keep strict a b).run v w = (w.up fun d => d.faultHeat y (indexFault y j i), false) := by
  simp only [indexPart, wordsPart, hi, Wk.up, hx]

/-- The elements of a destination that windows `lo` to `lo + n − 1` serve. -/
def RowCtx.served (c : RowCtx) (d : Desc) (lo n : Nat) : List (List Nat) :=
  d.elems.filter fun i => decide (64 * lo ≤ i.getD c.t.gdim 0 ∧ i.getD c.t.gdim 0 < 64 * (lo + n))

theorem RowCtx.gatherPart_run_write (c : RowCtx) (w₀ : Wk) {no lo n : Nat} (ht : d.tileMap = 0) (hw : d.wmode ≠ 2)
    (v : Nat → View) (w : Wk) : (c.gatherPart w₀ d no lo n).run v w = w.store c.h.id c.who c.st no
      (c.gatherPieces d v ((lo + 1) * 2 ^ 32) (c.served d lo n))
      (d.foldOf ((c.served d lo n).map (c.gathered d v ((lo + 1) * 2 ^ 32)))) false := by
  have adds : (d.wmode == 2) = false := beq_false_of_ne hw
  simp only [gatherPart, adds, ht]
  rfl

theorem RowCtx.gatherPart_run_add (c : RowCtx) (w₀ : Wk) {no lo n : Nat} (hw : d.wmode = 2) (v : Nat → View) (w : Wk) :
    let ws := (c.served d lo n).map fun i => (i, c.gathered d v ((lo + 1) * 2 ^ 32) i)
    (c.gatherPart w₀ d no lo n).run v w = w.store c.h.id c.who c.st no [] (d.accAtoms ws ++
      d.foldOf ((c.served d lo n).map (c.gathered d v ((lo + 1) * 2 ^ 32)))) (ws.any fun y => y.2.2) := by
  simp only [gatherPart, hw]
  rfl

/-- A gather that finds a bad index ends with its record, and memory stays. -/
theorem gather_faults (hb : x.body = .stage (.gather t ix d keep))
    (hs : SolePart s h x y w 0 (gatherPlan 0 t ix d keep s.work x) (indexPart x 0 t ix keep false t d)) {j : Nat} {i : Int}
    (hi : badIndex t (ix.indices (w.view h 0 0)) = some (j, i)) :
    ∃ u, exec (.gather h) s = .next u ∧ u.mem = s.mem ∧
      ∃ z, (w.begins h 0 (indexPart x 0 t ix keep false t d)).dev.heat h = some z ∧
        u = s.after ((w.begins h 0 (indexPart x 0 t ix keep false t d)).up fun d => d.faultHeat z (indexFault z j i)) := by
  obtain rfl : x.id = h := Dev.heat_id hs.goes.1
  obtain ⟨c, hc⟩ := hs.begins_heat
  have run := indexPart_run_fault (st := 0) (keep := keep) (a := t) (b := d) (strict := false) hi hc
  obtain ⟨v, hv, hstop⟩ := Dev.faultHeat_stops hc (Heat.running_of_mayRun (hs.near.mayRun hs.goes.2))
    (indexFault { y with claims := c } j i)
  have stage := hs.stage_stops run hv hstop
  refine ⟨_, exec_gather hs.goes hb, ?_, _, hc, by rw [stage]⟩
  rw [stage]
  exact hs.after_up_mem _

/-- Settles O25: a bad index ends the heat; each other part of a gather that may be left is a store, and the plan that is
made anew has the same parts. -/
theorem gatherStores : Obligations.GatherStores := by
  intro s h x y w tb ix d keep hb c pl v mapTiles
  refine ⟨?_, fun hbegun _ => ⟨?_, ?_⟩⟩
  · intro _ p hs j i hi
    exact gather_faults hb hs hi
  · intro no lo n p hs es f
    obtain rfl : x.id = h := Dev.heat_id hs.goes.1
    have settled {ps : List Piece} {atoms : List AtomOp} {bad : Bool} (ha : ∀ a ∈ atoms, a.plain = true)
        (hr : p.run v (w.begins x.id 0 p) = (w.begins x.id 0 p).store x.id p.who 0 p.no ps atoms bad) :
        settles s x.id w 0 [] p ps atoms bad (exec (.gather x.id) s) :=
      hs.settles_of_store (gatherPlan_steady hbegun) (gatherPlan_temps ..) (lt_max_of_lt_left Nat.one_pos)
        (exec_gather hs.goes hb) ha hr
    refine ⟨fun ht hw => settled (Desc.foldOf_plain _ _) ?_,
      fun hw => settled (AtomOp.plain_append (Desc.accAtoms_plain _ _) (Desc.foldOf_plain _ _)) ?_⟩
    · exact c.gatherPart_run_write s.work ht hw v _
    · exact c.gatherPart_run_add s.work hw v _
  · intro no first tiles prev p hs
    exact hs.settles_of_entries (gatherPlan_steady hbegun) (gatherPlan_temps ..) (exec_gather hs.goes hb)

end Sys2Proof.Machine
end

section
/-! TENSOR DESCRIPTORS: scatters (R156, R165 to R170, R213). -/

namespace Sys2Proof.Machine

open Sys2Proof.Config

variable {s : State} {h : HeatId} {x y : Heat} {w : Wk} {st : Nat} {t ix sr : Desc} {k1 k2 : Bool} {p : Part}

/-! ### The plan of a scatter -/

theorem scatterPlan_temps (st : Nat) (t ix sr : Desc) (k1 k2 : Bool) (w : Wk) (x : Heat) :
    (scatterPlan st t ix sr k1 k2 w x).temps = [] := by
  unfold scatterPlan
  dsimp only
  split
  · rfl
  · split <;> rfl

/-- The last part has its number where some slot of a pond table is left. -/
theorem RowCtx.lastPart_nos (c : RowCtx) (sr : Desc) (no : Nat) :
    (c.lastPart sr no).map Part.no = if (c.unwritten sr).isEmpty then [] else [no] := by
  unfold lastPart
  split <;> rfl

/-- The numbers of the parts of a scatter once its indices are there. -/
theorem scatterPlan_nos (hb : (x.at st).begun = true) : (scatterPlan st t ix sr k1 k2 w x).parts.map Part.no =
    let c : RowCtx := ⟨x, st, t, ix.size, (x.at st).words⟩
    if c.mixes sr then
      [1] ++ (if t.tileMap == 0 then [] else [2]) ++ (if (c.unwritten sr).isEmpty then [] else [3])
    else (List.range ix.size).map (· + 1) ++ (if (c.unwritten sr).isEmpty then [] else [ix.size + 1]) := by
  simp only [scatterPlan, hb, Bool.not_true, Bool.false_eq_true, if_false]
  split
  · simp only [List.map_append, RowCtx.lastPart_nos]
    split <;> rfl
  · simp only [List.map_append, RowCtx.lastPart_nos, List.map_map]
    rfl

theorem scatterPlan_steady (hb : (x.at st).begun = true) : SteadyFor (scatterPlan st t ix sr k1 k2) st x := by
  have begun {z : Heat} (hz : z.first st = x.first st) : (z.at st).begun = true := (congrArg Prod.snd hz).trans hb
  refine ⟨fun w z hz => ?_, fun w w' z _ => by simp only [scatterPlan_temps], fun w w' z hz => ?_⟩
  · simp only [scatterPlan, begun hz, Bool.not_true, Bool.false_eq_true, if_false]
    split <;> rfl
  · have words : (z.at st).words = (x.at st).words := congrArg Prod.fst hz
    rw [scatterPlan_nos (begun hz), scatterPlan_nos hb, words]
    rfl

theorem exec_scatter (hx : s.dev.goes h x) (hb : x.body = .stage (.scatter t ix sr k1 k2)) :
    exec (.scatter h) s = .next (s.after (s.work.stage (scatterPlan 0 t ix sr k1 k2) h 0)) :=
  done_withHeat s h x hx.1 hx.2 _ _ rfl _ (by simp only [hb])

/-! ### Contributions to a pond (R168, R170) -/

theorem Dev.heat_of_heats {d e : Dev} (he : e.mar.heats = d.mar.heats) (k : HeatId) : e.heat k = d.heat k := by
  simp only [Dev.heat, he]

/-- An atomic update of a pond leaves every heat but for the saturation of its own. -/
theorem Wk.pondAtom_heat (w : Wk) {o : AtomOp} (ho : o.plain = true) (hx : w.dev.heat h = some x) :
    ∃ b, (w.pondAtom h o).dev.heat h = some { x with sat := b } := by
  obtain ⟨-, heats, -⟩ := w.applyAtom_changes o ho (fun _ => True) fun _ h => absurd trivial h
  have applied : (w.applyAtom o).dev.heat h = some x := (Dev.heat_of_heats heats h).trans hx
  unfold Wk.pondAtom Wk.ite
  split
  · exact ⟨true, Dev.heat_setHeat_some applied (by intro; rfl)⟩
  · exact ⟨x.sat, applied⟩

theorem Wk.pondBad_heat (w : Wk) (z : Piece) (h : HeatId) : (w.pondBad z).dev.heat h = w.dev.heat h := by
  obtain ⟨-, heats, -⟩ := w.pondBad_changes (fun _ => True) z
  exact Dev.heat_of_heats heats h

theorem Wk.addPond_heat (w : Wk) (d : Desc) (z : List Nat × Datum × Bool) (hx : w.dev.heat h = some x) :
    ∃ b, (w.addPond h d z).dev.heat h = some { x with sat := b } := by
  unfold Wk.addPond
  split
  · rename_i op l e
    obtain ⟨b, hb⟩ := w.pondAtom_heat (Desc.accAtoms_plain d [z] op (e ▸ List.mem_cons_self)) hx
    refine ⟨b, ?_⟩
    cases z.2.2 with
    | true => simpa only [Wk.ite, if_true, Wk.pondBad_heat] using hb
    | false => exact hb
  · exact ⟨x.sat, hx⟩

theorem Wk.each_addPond_heat (w : Wk) (d : Desc) (l : List (List Nat × Datum × Bool)) (hx : w.dev.heat h = some x) :
    ∃ b, (Wk.each l (fun w z => w.addPond h d z) w).dev.heat h = some { x with sat := b } := by
  refine List.foldlRecOn (motive := fun v : Wk => ∃ b, v.dev.heat h = some { x with sat := b }) l _ ⟨x.sat, hx⟩ ?_
  intro v ⟨b, hv⟩ z _
  obtain ⟨b', hb'⟩ := v.addPond_heat d z hv
  exact ⟨b', hb'⟩

/-! ### The parts of a scatter -/

section

variable (c : RowCtx) (w₀ : Wk) (keep : Bool) (j : Nat) (v : Nat → View) (w : Wk)

/-- What source row `j` writes, as its part sees it. -/
def RowCtx.rowWrites (sr : Desc) : List (List Nat × Datum × Bool) := c.writes sr (c.see [sr, c.t] (v (j + 1))) j

/-- MX blocks of one code are copied with their scales (R160). -/
theorem RowCtx.scatterPart_run_copy (hw : c.t.wmode ≠ 2) (hc : c.scatterCopies sr = true) :
    (c.scatterPart w₀ sr keep j).run v w = w.store c.h.id c.who c.st (j + 1)
      (mxCopy sr c.t (fun _ => c.see [sr, c.t] (v (j + 1))) (c.t.blocksOf (c.targets sr j)) (fun _ => true)
        fun i => i.set c.t.gdim j) (c.t.foldOf ((c.rowWrites j v sr).map Prod.snd)) false := by
  have adds : (c.t.wmode == 2) = false := beq_false_of_ne hw
  simp only [scatterPart, adds, hc, Bool.and_false, Bool.false_eq_true, if_false, if_true]
  rfl

theorem RowCtx.scatterPart_run_write (hw : c.t.wmode ≠ 2) (hc : c.scatterCopies sr = false) :
    (c.scatterPart w₀ sr keep j).run v w = w.store c.h.id c.who c.st (j + 1)
      ((c.rowWrites j v sr).map fun z => c.t.piece (c.see [sr, c.t] (v (j + 1))) c.h.ovf z.1 z.2)
      (c.t.foldOf ((c.rowWrites j v sr).map Prod.snd)) false := by
  have adds : (c.t.wmode == 2) = false := beq_false_of_ne hw
  simp only [scatterPart, adds, hc, Bool.and_false, Bool.false_eq_true, if_false]
  rfl

/-- Contributions to HBM are atomic updates (R168). -/
theorem RowCtx.scatterPart_run_add (hw : c.t.wmode = 2) (hp : c.t.inPond = false) :
    (c.scatterPart w₀ sr keep j).run v w = w.store c.h.id c.who c.st (j + 1) []
      (c.t.accAtoms (c.rowWrites j v sr) ++ c.t.foldOf ((c.rowWrites j v sr).map Prod.snd))
      ((c.rowWrites j v sr).any fun z => z.2.2) := by
  simp only [scatterPart, hw, hp, Bool.false_and, Bool.false_eq_true, if_false]
  rfl

/-- Contributions to a pond take place at once (R170). -/
theorem RowCtx.scatterPart_run_addPond (hw : c.t.wmode = 2) (hp : c.t.inPond = true)
    (hn : firstPoison w.mem.view (pondPlaces ((c.targets sr j).map c.t.writePlaces).flatten) = none) :
    (c.scatterPart w₀ sr keep j).run v w =
      (Wk.each (c.rowWrites j v sr) (fun w z => w.addPond c.h.id c.t z) w).store c.h.id c.who c.st (j + 1) []
        (c.t.foldOf ((c.rowWrites j v sr).map Prod.snd)) false := by
  simp only [scatterPart, hw, hp, hn, beq_self_eq_true, Bool.and_self, if_true]
  rfl

/-- What all source rows write, each as its group sees it. -/
def RowCtx.allWrites (sr : Desc) : List (List Nat × Datum × Bool) :=
  ((List.range c.n).map fun j => c.rowWrites j v sr).flatten

/-- The blocks that a scatter forms anew hold what the rows give them and else what they held (R87). -/
theorem RowCtx.mixPart_run_blocks (hx : c.t.fmt.isMx = true) (ht : c.t.tileMap = 0) :
    (c.mixPart w₀ sr keep).run v w = w.store c.h.id c.who c.st 1
      (c.t.mxPieces (c.t.blocksOf ((List.range c.n).map (c.targets sr)).flatten) (fun _ => true)
        (c.t.after (c.see [sr, c.t] (v (c.n + 2))) (c.allWrites v sr)))
      (c.t.foldOf ((c.allWrites v sr).map Prod.snd)) false := by
  simp only [mixPart, hx, ht, beq_self_eq_true, if_true]
  rfl

end

/-- What is formed anew is not added to; without tiles it is MX blocks. -/
theorem RowCtx.mixes_blocks {c : RowCtx} (hm : c.mixes sr = true) (ht : c.t.tileMap = 0) : c.t.fmt.isMx = true := by
  simp only [mixes, ht, Bool.and_eq_true, Bool.or_eq_true, bne_self_eq_false, Bool.false_eq_true, false_or] at hm
  exact hm.2.1

/-- The part that leaves the unwritten slots FULL does nothing else (R156). -/
theorem RowCtx.lastPart_run {c : RowCtx} {no : Nat} (hp : p ∈ c.lastPart sr no) (v : Nat → View) (w : Wk) :
    p.run v w = (w, true) := by
  unfold lastPart at hp
  split at hp
  · cases hp
  · rw [List.mem_singleton] at hp
    rw [hp]

/-- Settles O26: the parts of a scatter that may be left are stores, additions to a pond, or nothing but slots that become
FULL, and the plan that is made anew has the same parts. -/
theorem scatterStores : Obligations.ScatterStores := by
  intro s h x y w tb ix sr k1 k2 hb hbegun c pl v mapTiles _
  have steady : SteadyFor (scatterPlan 0 tb ix sr k1 k2) 0 x := scatterPlan_steady hbegun
  have temps : (scatterPlan 0 tb ix sr k1 k2 s.work x).temps = [] := scatterPlan_temps ..
  have one : 0 < max 1 x.body.stages.length := lt_max_of_lt_left Nat.one_pos
  have settled {p : Part} {ps : List Piece} {atoms : List AtomOp} {bad : Bool} (hs : SolePart s h x y w 0 pl p)
      (ha : ∀ a ∈ atoms, a.plain = true)
      (hr : p.run v (w.begins h 0 p) = (w.begins h 0 p).store x.id p.who 0 p.no ps atoms bad) :
      settles s h w 0 [] p ps atoms bad (exec (.scatter h) s) := by
    obtain rfl : x.id = h := Dev.heat_id hs.goes.1
    exact hs.settles_of_store steady temps one (exec_scatter hs.goes hb) ha hr
  have completed {p : Part} {q : Wk} (hs : SolePart s h x y w 0 pl p) (hr : p.run v (w.begins h 0 p) = (q, true))
      {cl : List Nat} {b : Bool} (hq : q.dev.heat h = some { y with claims := cl, sat := b }) :
      completes s h 0 [] p q (exec (.scatter h) s) :=
    hs.completes_of_run steady temps one (exec_scatter hs.goes hb) hr hq
  refine ⟨?_, ?_, ?_, ?_⟩
  · intro j _ p hs u ws fold places
    have fold_plain : ∀ o ∈ fold, o.plain = true := Desc.foldOf_plain _ _
    refine ⟨fun hw hc => settled hs fold_plain ?_, fun hw hc => settled hs fold_plain ?_,
      fun hw hp => settled hs (AtomOp.plain_append (Desc.accAtoms_plain _ _) fold_plain) ?_, fun hw hp hn => ?_⟩
    · exact c.scatterPart_run_copy s.work k2 j v _ hw hc
    · exact c.scatterPart_run_write s.work k2 j v _ hw hc
    · exact c.scatterPart_run_add s.work k2 j v _ hw hp
    · obtain rfl : x.id = h := Dev.heat_id hs.goes.1
      obtain ⟨cl, hcl⟩ := hs.begins_heat
      obtain ⟨b, hb⟩ := Wk.each_addPond_heat _ tb ws hcl
      obtain ⟨hgo, -, ⟨b', hb'⟩, -⟩ := Wk.store_stays _ x.id _ c.who 0 p.no [] fold hb (fun _ => nofun) fold_plain
      refine completed hs ((c.scatterPart_run_addPond s.work k2 j v _ hw hp ?_).trans (Prod.ext rfl hgo)) hb'
      rw [hs.mem_eq]
      exact hn
  · intro hm ht p hs ws u
    exact settled hs (Desc.foldOf_plain _ _) (c.mixPart_run_blocks s.work k2 v _ (RowCtx.mixes_blocks hm ht) ht)
  · intro no first tiles prev p hs
    exact hs.settles_of_entries steady temps (exec_scatter hs.goes hb)
  · intro no p hp hs
    obtain ⟨cl, hcl⟩ := hs.begins_heat
    exact completed (b := y.sat) hs (RowCtx.lastPart_run hp v _) hcl

end Sys2Proof.Machine
end

section
/-! TENSOR DESCRIPTORS: a move whose plan changes under it (R161, R211). A plan is cut by the lines of the source's tiles,
and the entries of tiles beyond the source's extents, which R171 keeps out, are read from memory each time, not kept from
the first read. Where such a move writes over an entry, its last group of elements is cut anew in two, and the second of
them is still to come. -/

namespace Sys2Proof.Machine

open Sys2Proof.Config

theorem exec_move {s : State} {h : HeatId} {x : Heat} {a d : Desc} {keep : Bool} (hx : s.dev.goes h x)
    (hb : x.body = .stage (.move a d keep)) :
    exec (.move h) s = .next (s.after (s.work.stage (movePlan 0 a d keep []) h 0)) :=
  done_withHeat s h x hx.1 hx.2 _ _ rfl _ (by simp only [hb])

/-! ### Groups of two elements (R161) -/

/-- Duplicates aside a list is as long as the distinct numbers that it holds. -/
theorem le_length_nub {n : Nat} {l : List Nat} (h : ∀ i, i < n → i ∈ l) : n ≤ (nub l []).length := by
  have sub : List.Subperm (List.range n) (nub l []) :=
    List.nodup_range.subperm fun i hi => mem_nub.mpr (.inl (h i (List.mem_range.mp hi)))
  simpa using sub.length_le

/-- Two atoms whose lines do not fit the staging buffer together are two groups. -/
theorem cutLines_pair {pl : List Nat → List (Nat × Nat)} {a b : List (List Nat)} (ha : a ≠ []) (hb : b ≠ [])
    (hl : ∀ i, i < 257 → i ∈ hbmLines (a.map pl).flatten) : cutLines pl [a, b] [] [] = [a, b] := by
  have more : ¬ (nub (nub (hbmLines (a.map pl).flatten) [] ++ hbmLines (b.map pl).flatten) []).length ≤ 256 := by
    have := le_length_nub (l := nub (hbmLines (a.map pl).flatten) [] ++ hbmLines (b.map pl).flatten) fun i hi =>
      List.mem_append_left _ (mem_nub.mpr (.inl (hl i hi)))
    omega
  simp [cutLines, more, ha, hb]

namespace StrayMove

/-! ### The move -/

/-- Two BF16 elements of a source whose one tile-map entry lies in the first pond slot: two elements are no whole tile,
so that the entry is not among the words that are read first. -/
def src : Desc := ⟨64, .bf16, 0, 0, 0, [2], [1], none, pondBase⟩

/-- Their destination is that entry: bytes 0, 1, 4 and 5 of it. -/
def dst : Desc := ⟨pondBase, .bf16, 0, 0, 0, [2], [2], none, 0⟩

def hid : HeatId := ⟨0, .f, 0⟩

/-- The move, running, with its (empty) tile maps read. -/
def heat : Heat :=
  { id := hid, cmdId := 0, prio := 0, pclass := 0, heavy := false, prefetch := false, cpl := false, irq := false
    ovf := false, dep := [], depMask := 0, body := .stage (.move src dst true), state := .running, age := 0, since := 0
    request := none, granted := false, reserved := false, engines := [], gathers := 0, order := 0, dispatch := 0
    staged := [], claims := [], waits := [], prog := [(0, { Prog.zero with begun := true })], leave := [], thresh := 0
    done := false, sat := false, clip := false, nonfinite := false, skipped := false, taint := false, faulted := false
    stale := false }

/-- The module with this one heat, DMA-in on turn at bank 0 of cluster 0, and an entry whose OFFSET leads out of HBM. -/
def start : State :=
  { State.reset with
    mem := State.reset.mem.apply (.store (pondBase + 4) [8])
    dev := { Dev.reset with
      img := { Img.reset with live := { Conf.reset with turns := List.replicate 8 0 ++ [32] } }
      mar := { Marshal.reset with heats := [heat] } } }

def ctx (x : Heat) : MoveCtx := ⟨x, 0, src, dst, true, []⟩

def plan : Wk → Heat → Plan := movePlan 0 src dst true []

/-- The one part of the plan at the start: no line is to be fetched, and both elements are one group. -/
def part : Part := (ctx heat).part start.mem 0 [[0], [1]]

/-- The heat that has asked for it. -/
def asked : Heat := heat.upAt 0 fun g => { g with asked := [1] }

/-- The block once the part has run. -/
def after : Wk := (start.work.up fun d => d.ask heat 0 (plan start.work heat)).partRun asked 0 [] [] part

/-! ### The plan -/

theorem groups_eq (x : Heat) (m : Mem) :
    (ctx x).groups m = cutLines (src.loadPlaces ((ctx heat).see m.view)) [[[0]], [[1]]] [] [] := by
  have units : groupBy (unitKey src dst) dst.elems = [[[0], [1]]] := by decide
  have atoms : dst.atomsOf [[0], [1]] = [[[0]], [[1]]] := by decide
  show ((groupBy (unitKey src dst) dst.elems).map fun u =>
    cutLines (src.loadPlaces ((ctx heat).see m.view)) (dst.atomsOf u) [] []).flatten = _
  rw [units, List.map_singleton, atoms, List.flatten_singleton]

theorem plan_eq {w : Wk} {x : Heat} (hx : x.first 0 = ([], true)) :
    plan w x = ⟨((ctx x).groups w.mem).mapIdx fun k es => (ctx x).part w.mem k es, true, []⟩ := by
  have words : (x.at 0).words = [] := congrArg Prod.fst hx
  have begun : (x.at 0).begun = true := congrArg Prod.snd hx
  simp only [plan, movePlan, feedOf, List.findSome?_nil, begun, words]
  rfl

theorem plan_start : plan start.work heat = ⟨[part], true, []⟩ := by
  have groups : (ctx heat).groups start.mem = [[[0], [1]]] := by decide +kernel
  rw [plan_eq rfl, show start.work.mem = start.mem from rfl, groups]
  rfl

/-- The part is the one that is left, and nothing holds it up. -/
theorem sole : SolePart start hid heat asked (start.work.up fun d => d.ask heat 0 (plan start.work heat)) 0
    (plan start.work heat) part := by
  rw [plan_start]
  constructor
  case goes => exact ⟨rfl, rfl⟩
  case alone => intro k hk hne; exact absurd (Nat.lt_one_iff.mp hk) hne
  case left => rfl
  all_goals decide +kernel

/-! ### The plan made anew -/

/-- Lines 0 to 256 hold a byte of the 32 KiB from address 64. -/
theorem mem_tileLines {i : Nat} (hi : i < 257) : i ∈ hbmLines [(64, 32768)] := by
  have inside : inHbm 64 32768 = true := by decide
  have touched : touchedWords 128 64 32768 = (0, 257) := by decide
  simp [hbmLines, unitsOf, mem_nub, inside, touched, hi]

/-- The entry now reads 0: the elements lie in a tile of 257 lines of HBM. -/
theorem places_after : ∀ i ∈ [[0], [1]], src.loadPlaces ((ctx heat).see after.mem.view) i = [(64, 32768)] := by
  decide +kernel

theorem groups_after (x : Heat) : (ctx x).groups after.mem = [[[0]], [[1]]] := by
  rw [groups_eq, cutLines_pair (by simp) (by simp)]
  intro i hi
  have tile : ([[0]].map (src.loadPlaces ((ctx heat).see after.mem.view))).flatten = [(64, 32768)] := by
    rw [List.map_singleton, places_after [0] (by simp)]
    rfl
  rw [tile]
  exact mem_tileLines hi

/-! ### The stage goes on -/

/-- What matters of the heat: what it has read first, the parts that it has run, its lines, and whether it is done. -/
def tells (x : Heat) : (List (Nat × Bool) × Bool) × List Nat × Nat × Bool :=
  (x.first 0, (x.at 0).ran, x.staged.length, x.done)

theorem tells_upAt (x : Heat) (l : List Nat) : tells (x.upAt 0 fun g => { g with asked := g.asked ++ l }) = tells x := by
  have first := x.first_upAt 0 0 (f := fun g => { g with asked := g.asked ++ l }) (by intro; rfl) (by intro; rfl)
  have ran : ((x.upAt 0 fun g => { g with asked := g.asked ++ l }).at 0).ran = (x.at 0).ran := by
    rw [Heat.at_upAt, if_pos rfl]
  rw [tells, first, ran]
  rfl

/-- The first part has run, the second is to come, and no line is staged for it. -/
structure Held (w : Wk) : Prop where
  heat : w.dev.told tells hid = some (([], true), [1], 0, false)
  mem  : w.mem = after.mem

theorem held_after : Held after := ⟨by decide +kernel, rfl⟩

theorem Held.exists_heat {w : Wk} (hw : Held w) :
    ∃ x, w.dev.heat hid = some x ∧ x.first 0 = ([], true) ∧ (x.at 0).ran = [1] ∧ x.staged = [] := by
  obtain ⟨x, hx, ht⟩ := Option.map_eq_some_iff.mp hw.heat
  simp only [tells, Prod.mk.injEq] at ht
  obtain ⟨hfirst, hran, hstaged, -⟩ := ht
  exact ⟨x, hx, hfirst, hran, List.length_eq_zero_iff.mp hstaged⟩

/-- The second part reads a line, which is not staged. -/
theorem not_hasLines {x : Heat} (hx : x.staged = []) (y : Heat) : x.hasLines 0 ((ctx y).part after.mem 1 [[1]]) = false := by
  have line : (2, 0) ∈ ((ctx y).part after.mem 1 [[1]]).lines := by
    have places : ((ctx y).rd after.mem 2 [[1]]).pl = [(64, 32768)] := by
      show nub ([[1]].map (src.loadPlaces ((ctx heat).see after.mem.view))).flatten [] = _
      rw [List.map_singleton, places_after [1] (by simp)]
      rfl
    refine List.mem_flatten.mpr ⟨_, List.mem_map.mpr ⟨_, List.mem_cons_self, rfl⟩, ?_⟩
    rw [places]
    exact List.mem_map.mpr ⟨0, mem_tileLines (by decide), rfl⟩
  refine List.all_eq_false.mpr ⟨_, line, ?_⟩
  rw [hx, List.any_nil]
  exact Bool.false_ne_true

/-- As far as it gets on, the stage stays so: its second part cannot run. -/
theorem Held.go {w : Wk} (hw : Held w) (n : Nat) : Held (Wk.go plan hid 0 n w) := by
  cases n with
  | zero => exact hw
  | succ n =>
    obtain ⟨x, hx, hfirst, -⟩ := hw.exists_heat
    have askedFor : Held (w.up fun d => d.ask x 0 (plan w x)) :=
      ⟨(Dev.told_ask w.dev x 0 _ tells_upAt hid).trans hw.heat, hw.mem⟩
    obtain ⟨y, hy, hyfirst, hran, hstaged⟩ := askedFor.exists_heat
    have left : (plan w x).undone y 0 = [(ctx x).part after.mem 1 [[1]]] := by
      rw [plan_eq hfirst, hw.mem, groups_after, Plan.undone, hran]
      rfl
    have none : (w.up fun d => d.ask x 0 (plan w x)).dev.pick y 0 (plan w x) = none := by
      simp only [Dev.pick, left, laneHeads, List.filter_nil, List.find?_cons, Dev.partUp, not_hasLines hstaged,
        Bool.and_false, Bool.false_and, List.find?_nil]
    simp only [Wk.go, hx, hy, none]
    split
    · exact hw
    · refine ⟨?_, askedFor.mem⟩
      simp only [Wk.dev_up, Dev.rest, left, List.isEmpty_cons, Bool.and_false, Bool.false_eq_true, if_false]
      exact (Dev.told_setHeat _ y.id (by intro; rfl) (by intro; rfl) hid).trans askedFor.heat

theorem held_stage : Held (start.work.stage plan hid 0) := by
  have first : Held (Wk.go plan hid 0 (start.work.steps plan hid) start.work) := by
    rw [sole.steps_eq, sole.go_succ]
    exact held_after.go _
  exact first.go _

/-- The move does not complete. -/
theorem not_done : ∃ t, exec (.move hid) start = .next t ∧ ∀ y, t.dev.heat hid = some y → y.done = false := by
  refine ⟨start.after (start.work.stage plan hid 0), exec_move sole.goes rfl, fun y hy => ?_⟩
  rw [State.after_dev] at hy
  have told := held_stage.heat
  rw [Dev.told_of_heat hy] at told
  exact congrArg (fun r => r.2.2.2) (Option.some.inj told)

end StrayMove

/-- Refutes O23: its first clause fails for a source with elements in tiles beyond its tile map's. Decode rejects such a
source (R171), but no hypothesis of the statement does. The part of `StrayMove.start` that is left writes +0 over the
tile-map entry of both elements; the plan made anew has two groups, the second of which waits for its lines, so that the
command does not complete. -/
theorem not_moveStores : ¬ Obligations.MoveStores := by
  intro h
  obtain ⟨converts, -⟩ := h StrayMove.start StrayMove.hid StrayMove.heat StrayMove.asked _ StrayMove.src StrayMove.dst true
    rfl (Nat.zero_le _) (by rw [show movePlan 0 _ _ true [] = StrayMove.plan from rfl, StrayMove.plan_start])
  obtain ⟨settled, -⟩ := converts 0 [[0], [1]] rfl (by decide) StrayMove.sole
  obtain ⟨⟨hnext, ⟨y, hy, hdone⟩, -⟩, -⟩ := settled rfl (by
    show ∀ q ∈ _, _ → _
    decide +kernel)
  obtain ⟨t, ht, hopen⟩ := StrayMove.not_done
  obtain rfl := Host.Outcome.next.inj (ht.symm.trans hnext)
  exact absurd hdone (by simp [hopen y hy])

end Sys2Proof.Machine
end

section
/-! MEMORY SYSTEM: reads that are served, and what the events of ECC leave alone (R176, R189, R192 to R195). -/

namespace Sys2Proof.Machine

open Sys2Proof.Config

variable {s : State} {id : Nat} {errs : List EccError} {r : Req} {w : Wk} {d : Dev}

/-! ### Outputs stay -/

theorem Dev.out_emit {l : List Output} (h : l ⊆ d.out) (o : Output) : l ⊆ (d.emit o).out :=
  List.subset_append_of_subset_left _ h

theorem Dev.out_msix {l : List Output} (h : l ⊆ d.out) (v : Nat) : l ⊆ (d.msix v).out := by
  unfold Dev.msix
  split
  · exact h
  · split
    · exact Dev.out_emit h _
    · exact h

theorem Dev.out_raise {l : List Output} (h : l ⊆ d.out) (r : Rec) : l ⊆ (d.raise r).out := by
  simp only [Dev.raise]
  split <;> split
  · exact Dev.out_emit h _
  · exact Dev.out_emit h _
  · exact h
  · exact h

theorem Dev.out_raiseOnce {l : List Output} (h : l ⊆ d.out) (k : Nat) (r : Rec) : l ⊆ (d.raiseOnce k r).out := by
  unfold Dev.raiseOnce
  split
  · exact h
  · refine Dev.out_raise ?_ r
    exact h

theorem Dev.out_replace {l : List Output} (h : l ⊆ d.out) (n : Nat) : l ⊆ (d.replace n).out := by
  unfold Dev.replace
  dsimp only
  split
  · exact h
  · refine Dev.out_raiseOnce ?_ _ _
    split
    · refine Dev.out_msix (Dev.out_emit ?_ _) _
      exact h
    · exact h

theorem Dev.out_countPoison {l : List Output} (h : l ⊆ d.out) (line : Nat) : l ⊆ (d.countPoison line).out := by
  unfold Dev.countPoison
  dsimp only
  split
  · exact h
  · split
    · refine Dev.out_replace ?_ 4
      exact h
    · exact h

theorem Dev.out_notify {l : List Output} (h : l ⊆ d.out) (c k : Nat) (x : NoticeKind) : l ⊆ (d.notify c k x).out := by
  unfold Dev.notify
  split
  · unfold Dev.send
    split
    · exact h
    · exact Dev.out_emit h _
  · exact h

theorem Dev.out_shardNotice {l : List Output} (h : l ⊆ d.out) (mem : Mem) (line : Nat) :
    l ⊆ (d.shardNotice mem line).out := by
  unfold Dev.shardNotice
  split
  · exact Dev.out_notify h _ _ _
  · exact h

theorem Dev.out_doorbell {l : List Output} (h : l ⊆ d.out) (c k : Nat) (tail : W32) :
    l ⊆ (d.doorbell c k tail).out := by
  unfold Dev.doorbell
  dsimp only
  split
  · exact h
  · refine Dev.out_raise ?_ _
    exact h

theorem Dev.out_ringBells {l : List Output} (h : l ⊆ d.out) : l ⊆ d.ringBells.out :=
  foldl_inv (fun e => l ⊆ e.out) _ (fun _ (b : Bell) he => Dev.out_doorbell he b.cluster b.stream b.tail) _ _ h

/-! ### What ECC reports (R193 to R195) -/

@[simp] theorem Dev.replace_mar (d : Dev) (n : Nat) : (d.replace n).mar = d.mar := by
  unfold Dev.replace
  dsimp only
  split
  · rfl
  · split <;> simp

@[simp] theorem Dev.countPoison_mar (d : Dev) (line : Nat) : (d.countPoison line).mar = d.mar := by
  unfold Dev.countPoison
  dsimp only
  split
  · rfl
  · split <;> simp

@[simp] theorem Dev.shardNotice_mar (d : Dev) (mem : Mem) (line : Nat) : (d.shardNotice mem line).mar = d.mar := by
  unfold Dev.shardNotice
  split <;> simp

@[simp] theorem Dev.shardNotice_hbm (d : Dev) (mem : Mem) (line : Nat) : (d.shardNotice mem line).hbm = d.hbm := by
  unfold Dev.shardNotice
  split <;> simp

/-- What ECC reports changes no byte, no heat and, of the memory system, the write-backs alone; and no output is taken
back. -/
structure Wk.EccLeaves (w v : Wk) : Prop where
  base : v.base = w.base
  byte : ∀ a, v.mem.byte a = w.mem.byte a
  heats : v.dev.mar.heats = w.dev.mar.heats
  hbm : v.dev.hbm = { w.dev.hbm with writebacks := v.dev.hbm.writebacks }
  out : w.dev.out ⊆ v.dev.out

theorem Wk.eccError_leaves (w : Wk) (line : Nat) (rc : Rec) (e : EccError) : w.EccLeaves (Wk.eccError line rc w e) := by
  unfold Wk.eccError
  dsimp only
  split
  · refine ⟨rfl, fun _ => rfl, ?_, ?_, ?_⟩ <;> rw [Wk.dev_up] <;> split
    · rfl
    · simp
    · rfl
    · simp
    · exact List.Subset.refl _
    · refine Dev.out_raise ?_ _
      exact List.Subset.refl _
  · exact ⟨rfl, fun a => by simp, by simp, by simp, Dev.out_countPoison (List.Subset.refl _) line⟩

theorem Wk.ecc_leaves (w : Wk) (line : Nat) (rc : Rec) (errs : List EccError) : w.EccLeaves (w.ecc line rc errs) := by
  refine List.foldlRecOn errs _ ⟨rfl, fun _ => rfl, rfl, rfl, List.Subset.refl _⟩ fun v hv e _ => ?_
  have step := v.eccError_leaves line rc e
  exact ⟨step.base.trans hv.base, fun a => (step.byte a).trans (hv.byte a), step.heats.trans hv.heats,
    by rw [step.hbm, hv.hbm], List.Subset.trans hv.out step.out⟩

@[simp] theorem Wk.ecc_nil (w : Wk) (line : Nat) (rc : Rec) : w.ecc line rc [] = w := rfl

theorem Mem.bytes_congr {m n : Mem} (h : ∀ a, m.byte a = n.byte a) (a k : Nat) : m.bytes a k = n.bytes a k := by
  induction k generalizing a with
  | zero => rfl
  | succ k ih => rw [Mem.bytes, Mem.bytes, h, ih]

/-! ### Reads that are served (R176, R189, R192) -/

theorem exec_readReturn (hf : s.dev.hbm.reqs.find? (fun r => r.id == id) = some r) (hi : r.issued = true)
    (hs : s.dev.servable r = true) (hk : r.kind.isRead = true) :
    exec (.readReturn id errs) s = .next (s.after ((s.work.deliver r errs).up fun d => d.dropReq id)) := by
  have served : (r.issued && s.dev.servable r && r.kind.isRead) = true := by rw [hi, hs, hk]; rfl
  exact done_next_of s (by simp only [State.work, hf, served, if_true])

/-- A heat with the line of a request staged for the stage and group that asked for it. -/
def Heat.stageLine (x : Heat) (r : Req) (l : Line) : Heat :=
  { x with staged := AMap.insert x.staged (stageKey r.stage r.grp r.line) l }

/-- The line as `v` has it is staged in the heat `x`, and its poison is recorded. -/
def Wk.stageLine (v : Wk) (r : Req) (rc : Rec) (x : Heat) : Wk :=
  v.up fun d => (if (v.mem.poisonedWords r.line).isEmpty then d
    else (d.raise (d.hbmRec 0x0011 2 r.line rc r.portNo)).shardNotice v.mem r.line).setHeat x.id fun y =>
      y.stageLine r ⟨v.bytes (128 * r.line) 128, v.mem.poisonedWords r.line⟩

theorem Wk.deliver_running {h : HeatId} {x : Heat} (hk : r.kind = .read) (hh : r.heat = some h)
    (hx : w.dev.heat h = some x) (hr : x.state = .running) (ho : x.order = r.order) :
    w.deliver r errs = (w.ecc r.line (w.dev.reqRec r) errs).stageLine r (w.dev.reqRec r) x := by
  simp [Wk.deliver, hk, hh, hx, hr, ho, Wk.stageLine, Heat.stageLine]

theorem Wk.deliver_gone {h : HeatId} {x : Heat} (hk : r.kind = .read) (hh : r.heat = some h)
    (hx : w.dev.heat h = some x) (hg : x.state ≠ .running ∨ x.order ≠ r.order) : w.deliver r errs = w := by
  simp [Wk.deliver, hk, hh, hx, hg]

theorem Wk.stageLine_hbm (v : Wk) (r : Req) (rc : Rec) (x : Heat) : (v.stageLine r rc x).dev.hbm = v.dev.hbm := by
  unfold Wk.stageLine
  rw [Wk.dev_up, Dev.setHeat_hbm]
  split <;> simp

theorem Wk.stageLine_heat {v : Wk} {x : Heat} {h : HeatId} (hx : v.dev.heat h = some x) (r : Req) (rc : Rec) :
    (v.stageLine r rc x).dev.heat h =
      some (x.stageLine r ⟨v.bytes (128 * r.line) 128, v.mem.poisonedWords r.line⟩) := by
  obtain rfl := Dev.heat_id hx
  unfold Wk.stageLine
  rw [Wk.dev_up, Dev.heat_setHeat]
  · rw [Dev.heat_of_heats (d := v.dev) (by split <;> simp), hx]
    rfl
  · exact fun _ => rfl

/-- Settles O36: the line is staged as it stands after its ECC events, which change no byte. -/
theorem readsReturnTheLine : Obligations.ReadsReturnTheLine := by
  intro s id errs r h x hf hi hs hk hh hx
  have next := exec_readReturn (errs := errs) hf hi hs (by rw [hk]; rfl)
  refine ⟨fun hr ho => ?_, fun hg => ?_⟩
  · have ecc := s.work.ecc_leaves r.line (s.dev.reqRec r) errs
    rw [Wk.deliver_running hk hh hx hr ho, show s.work.dev = s.dev from rfl] at next
    generalize s.work.ecc r.line (s.dev.reqRec r) errs = v at ecc next
    have mem := State.after_mem s ((v.stageLine r (s.dev.reqRec r) x).up fun d => d.dropReq id) ecc.base
    refine ⟨_, _, next, fun a => (congrArg (Mem.byte · a) mem).trans (ecc.byte a), ?_,
      Wk.stageLine_heat ((Dev.heat_of_heats ecc.heats h).trans hx) _ _, ?_⟩
    · show ((v.stageLine r _ x).dev.dropReq id).hbm.reqs = _
      rw [Dev.dropReq, Wk.stageLine_hbm, ecc.hbm]
      rfl
    · rw [mem]
      exact congrArg (fun data => AMap.insert _ _ (Line.mk data _)) (Mem.bytes_congr ecc.byte _ _)
  · rw [Wk.deliver_gone hk hh hx hg] at next
    exact next

end Sys2Proof.Machine
end

section
/-! MEMORY SYSTEM: line tokens, which a period makes and requests, write-backs and scrubs spend (R178 to R185, R195,
R196). -/

namespace Sys2Proof.Machine

open Sys2Proof.Config

variable {s : State} {id : Nat} {errs : List EccError} {r : Req} {d : Dev}

/-! ### A period (R183, R184) -/

/-- What a class of a die keeps from the period before: its fractions, and its whole tokens where a request waits. -/
def Dev.kept (d : Dev) (die cls : Nat) : Nat :=
  if d.hasRequests die cls then d.tokens die cls else d.tokens die cls % 32

/-- What a class of a die is given. -/
def Dev.given (d : Dev) (die cls : Nat) : Nat := tokensPerPeriod * d.live.share die cls

/-- What a class of a die holds once it is given its share. -/
def Dev.refilled (d : Dev) (die cls : Nat) : Nat := min (32 * tokenCap) (d.kept die cls + d.given die cls)

/-- The whole tokens of the share that may be left unused. -/
def Dev.spare (d : Dev) (die cls : Nat) : Nat :=
  min (d.refilled die cls / 32) ((d.kept die cls % 32 + d.given die cls) / 32)

/-- A class of a die is given its share. -/
def Dev.refill (die : Nat) (d : Dev) (cls : Nat) : Dev :=
  { d with hbm := { d.hbm with
      tokens := AMap.set 0 d.hbm.tokens (3 * die + cls) (d.refilled die cls)
      unused := AMap.set 0 d.hbm.unused (3 * die + cls) (d.spare die cls) } }

theorem exec_tokenPeriod (s : State) (die : Fin 4) :
    exec (.tokenPeriod die) s = .next (s.withDev fun d => [0, 1, 2].foldl (Dev.refill die.val) d) := rfl

/-- Classes of dies have places of their own in the maps of tokens. -/
theorem classKey_eq {die cls e k : Nat} (hc : cls < 3) (hk : k < 3) :
    3 * e + k = 3 * die + cls ↔ e = die ∧ k = cls := by
  omega

theorem Dev.tokens_refill {die cls e k : Nat} (hc : cls < 3) (hk : k < 3) :
    (d.refill die cls).tokens e k = if e = die ∧ k = cls then d.refilled die cls else d.tokens e k := by
  show AMap.get 0 (AMap.set 0 _ _ _) _ = _
  rw [AMap.get_set]
  simp only [classKey_eq hc hk]
  rfl

theorem Dev.unused_refill {die cls e k : Nat} (hc : cls < 3) (hk : k < 3) :
    AMap.get 0 (d.refill die cls).hbm.unused (3 * e + k) =
      if e = die ∧ k = cls then d.spare die cls else AMap.get 0 d.hbm.unused (3 * e + k) := by
  show AMap.get 0 (AMap.set 0 _ _ _) _ = _
  rw [AMap.get_set]
  simp only [classKey_eq hc hk]

/-- What one class is given is no matter of another. -/
theorem Dev.kept_refill {die cls k : Nat} (hc : cls < 3) (hk : k < 3) (h : k ≠ cls) :
    (d.refill die cls).kept die k = d.kept die k := by
  have tokens : (d.refill die cls).tokens die k = d.tokens die k := by simp [Dev.tokens_refill hc hk, h]
  rw [Dev.kept, tokens]
  rfl

theorem Dev.refilled_refill {die cls k : Nat} (hc : cls < 3) (hk : k < 3) (h : k ≠ cls) :
    (d.refill die cls).refilled die k = d.refilled die k := by
  rw [Dev.refilled, Dev.kept_refill hc hk h]
  rfl

theorem Dev.spare_refill {die cls k : Nat} (hc : cls < 3) (hk : k < 3) (h : k ≠ cls) :
    (d.refill die cls).spare die k = d.spare die k := by
  rw [Dev.spare, Dev.kept_refill hc hk h, Dev.refilled_refill hc hk h]
  rfl

/-- The classes in turn are each given their own share; what another die holds stays. -/
theorem Dev.foldl_refill {die e k : Nat} (hk : k < 3) {l : List Nat} (hl : ∀ c ∈ l, c < 3) (hn : l.Nodup) (d : Dev) :
    (l.foldl (Dev.refill die) d).tokens e k = (if e = die ∧ k ∈ l then d.refilled die k else d.tokens e k) ∧
    AMap.get 0 (l.foldl (Dev.refill die) d).hbm.unused (3 * e + k) =
      if e = die ∧ k ∈ l then d.spare die k else AMap.get 0 d.hbm.unused (3 * e + k) := by
  induction l generalizing d with
  | nil => simp
  | cons c l ih =>
    obtain ⟨hc, hl⟩ := List.forall_mem_cons.mp hl
    obtain ⟨hcl, hn⟩ := List.nodup_cons.mp hn
    obtain ⟨tokens, unused⟩ := ih hl hn (d.refill die c)
    rw [List.foldl_cons, tokens, unused, Dev.tokens_refill hc hk, Dev.unused_refill hc hk]
    by_cases hkc : k = c
    · subst hkc
      simp [hcl]
    · simp [Dev.refilled_refill hc hk hkc, Dev.spare_refill hc hk hkc, hkc]

/-! ### Issue (R178 to R185) -/

/-- Tokens of a class that a request spends at a die. -/
def Dev.price (d : Dev) (r : Req) (die cls : Nat) : Nat :=
  if cls = 0 then (d.cost r die).1 else if cls = 1 then (d.cost r die).2.1 else (d.cost r die).2.2

theorem Dev.tokens_spend {die cls e k : Nat} (hc : cls < 3) (hk : k < 3) (n : Nat) :
    (d.spend die cls n).tokens e k = if e = die ∧ k = cls then d.tokens e k - 32 * n else d.tokens e k := by
  rw [Dev.tokens, Dev.spend, AMap.get_upd]
  simp only [classKey_eq hc hk]
  split
  case isTrue h => rw [h.1, h.2]; rfl
  case isFalse => rfl

theorem Dev.pay_tokens (r : Req) (d : Dev) (die : Nat) : (Dev.pay r d die).hbm.tokens =
    (((d.spend die 0 (d.cost r die).1).spend die 1 (d.cost r die).2.1).spend die 2 (d.cost r die).2.2).hbm.tokens := rfl

theorem Dev.tokens_pay {die e k : Nat} (hk : k < 3) :
    (Dev.pay r d die).tokens e k = if e = die then d.tokens e k - 32 * d.price r die k else d.tokens e k := by
  rw [Dev.tokens, Dev.pay_tokens, ← Dev.tokens, Dev.tokens_spend (by omega) hk, Dev.tokens_spend (by omega) hk,
    Dev.tokens_spend (by omega) hk]
  by_cases he : e = die
  · have hk : k = 0 ∨ k = 1 ∨ k = 2 := by omega
    rcases hk with rfl | rfl | rfl <;> simp [he, Dev.price]
  · simp [he]

theorem Dev.img_spend (d : Dev) (die cls n : Nat) : (d.spend die cls n).img = d.img := rfl

theorem Dev.live_pay (r : Req) (d : Dev) (die : Nat) : (Dev.pay r d die).live = d.live := by
  simp only [Dev.live, Dev.pay, Dev.img_spend]

/-- What a request costs is a matter of where its lines are stored. -/
theorem Dev.price_of_live {d e : Dev} (h : e.live = d.live) (r : Req) (die cls : Nat) :
    e.price r die cls = d.price r die cls := by
  simp only [Dev.price, Dev.cost, Dev.dieOf, h]

theorem Dev.tokens_foldl_pay {e k : Nat} (hk : k < 3) {l : List Nat} (hn : l.Nodup) (d : Dev) :
    (l.foldl (Dev.pay r) d).tokens e k = if e ∈ l then d.tokens e k - 32 * d.price r e k else d.tokens e k := by
  induction l generalizing d with
  | nil => rfl
  | cons die l ih =>
    obtain ⟨hdie, hn⟩ := List.nodup_cons.mp hn
    rw [List.foldl_cons, ih hn, Dev.tokens_pay hk, Dev.price_of_live (Dev.live_pay r d die)]
    by_cases he : e = die
    · subst he
      simp [hdie]
    · simp [he]

theorem nodup_nub {α : Type} [DecidableEq α] {l acc : List α} (h : acc.Nodup) : (nub l acc).Nodup := by
  induction l generalizing acc with
  | nil => exact List.nodup_reverse.mpr h
  | cons a l ih =>
    rw [nub]
    split
    case isTrue => exact ih h
    case isFalse ha => exact ih (List.nodup_cons.mpr ⟨ha, h⟩)

theorem Dev.claimTarget_hbm (d : Dev) (r : Req) : (d.claimTarget r).hbm = d.hbm := by
  unfold Dev.claimTarget
  split
  · rfl
  · exact foldl_keeps Dev.hbm Dev.claimSlot Dev.claimSlot_hbm _ d

theorem Dev.pay_reqs (r : Req) (d : Dev) (die : Nat) : (Dev.pay r d die).hbm.reqs = d.hbm.reqs := by
  simp only [Dev.pay, Dev.spend]

/-- A request that issues goes behind those that are there. -/
theorem Dev.issue_reqs (d : Dev) (r : Req) :
    (d.issue r).hbm.reqs = (d.hbm.reqs.filter fun q => q.id != r.id) ++ [{ r with issued := true }] := by
  show (Dev.claimTarget _ r).hbm.reqs.filter _ ++ _ = _
  rw [Dev.claimTarget_hbm, foldl_keeps (fun d => d.hbm.reqs) (Dev.pay r) (Dev.pay_reqs r)]

theorem Dev.tokens_issue {die k : Nat} (hk : k < 3) (d : Dev) (r : Req) :
    (d.issue r).tokens die k =
      if die ∈ d.diesOf r then d.tokens die k - 32 * d.price r die k else d.tokens die k := by
  rw [← Dev.tokens_foldl_pay hk (show (d.diesOf r).Nodup from nodup_nub List.nodup_nil) d, Dev.tokens, Dev.issue,
    Dev.claimTarget_hbm, Dev.tokens]

theorem exec_requestIssue (hf : s.dev.hbm.reqs.find? (fun r => r.id == id) = some r) :
    exec (.requestIssue id) s = .next (s.withDev fun d =>
      if s.dev.issuable r && s.dev.isNext r then d.issue r else d.noteWait r) :=
  devOnly_next_of s (by simp only [hf])

/-! ### Write-backs and scrubs (R195, R196) -/

theorem exec_correctedWriteback {die : Fin 4} {x : Nat} {l : List Nat}
    (ht : takeFirst (fun x => (s.dev.live.stored (32 * x)).1 == die.val) s.dev.hbm.writebacks = some (x, l))
    (hu : s.dev.unusedToken die.val 1 = true) : exec (.correctedWriteback die) s =
      .next (s.withDev fun d => ({ d with hbm := { d.hbm with writebacks := l } }).spend die.val 1 1) :=
  devOnly_next_of s (by simp only [ht, hu, if_true])

theorem Dev.tokens_scrubPay (d : Dev) (die : Nat) : (d.scrubPay die).tokens die 0 = d.tokens die 0 - 32 := by
  unfold Dev.scrubPay
  dsimp only
  split
  · exact (Dev.tokens_spend (by omega) (by omega) 1).trans (if_pos ⟨rfl, rfl⟩)
  · exact (Dev.tokens_spend (by omega) (by omega) 1).trans (if_pos ⟨rfl, rfl⟩)

theorem Dev.urgent_scrubPay (d : Dev) (die : Nat) :
    AMap.get 0 (d.scrubPay die).hbm.urgent die = AMap.get 0 d.hbm.urgent die + b2n (!d.unusedToken die 0) := by
  unfold Dev.scrubPay
  dsimp only
  split
  case isTrue h => rw [h]; rfl
  case isFalse h =>
    rw [Bool.eq_false_iff.mpr h, Dev.spend, AMap.get_upd, if_pos rfl]
    rfl

theorem Dev.scrubPay_evt (d : Dev) (die : Nat) : (d.scrubPay die).evt = d.evt := by
  unfold Dev.scrubPay
  dsimp only
  split <;> rfl

/-- Poison found in a line that is scrubbed is recorded (R194). -/
def Wk.foundPoison (w : Wk) (line : Nat) : Wk :=
  w.up fun d => if (w.mem.poisonedWords line).isEmpty then d
    else (d.raise (d.hbmRec 0x0011 2 line (Rec.of 0 0) 0xFF)).shardNotice w.mem line

theorem Wk.foundPoison_hbm (w : Wk) (line : Nat) : (w.foundPoison line).dev.hbm = w.dev.hbm := by
  unfold Wk.foundPoison
  rw [Wk.dev_up]
  split <;> simp

theorem exec_scrub {line : Nat} (hl : (line + 1) * 128 ≤ hbmBytes)
    (hs : s.dev.slotFree (Req.of .scrub [line] .read) = true)
    (ht : s.dev.unusedToken (s.dev.dieOf line) 0 = true ∨ s.dev.scrubUrgent (s.dev.dieOf line) line = true) :
    exec (.scrub line errs) s = .next (s.after
      (((s.work.up fun d => d.scrubPay (s.dev.dieOf line)).ecc line (Rec.of 0 0) errs).foundPoison line)) := by
  have inside : inHbm (128 * line) 128 = true := decide_eq_true (by omega)
  have paid : (s.dev.unusedToken (s.dev.dieOf line) 0 || s.dev.scrubUrgent (s.dev.dieOf line) line) = true := by
    simpa using ht
  refine done_next_of s ?_
  simp only [State.work, inside, hs, paid, Bool.and_self, Bool.not_true, Bool.false_eq_true, if_false]
  rfl

/-! ### The rows -/

theorem State.withDev_dev (s : State) (f : Dev → Dev) : (s.withDev f).dev = f s.dev := rfl

theorem tokens_of_period (s : State) (die : Fin 4) : ∃ t, exec (.tokenPeriod die) s = .next t ∧ t.mem = s.mem ∧
    (∀ cls, cls < 3 → t.dev.tokens die.val cls = s.dev.refilled die.val cls ∧
      AMap.get 0 t.dev.hbm.unused (3 * die.val + cls) = s.dev.spare die.val cls) ∧
    ∀ e cls, e ≠ die.val → cls < 3 → t.dev.tokens e cls = s.dev.tokens e cls := by
  refine ⟨_, exec_tokenPeriod s die, State.withDev_mem s _, ?_⟩
  rw [State.withDev_dev]
  refine ⟨fun cls h => ?_, fun e cls he h => ?_⟩
  · obtain ⟨tokens, unused⟩ :=
      Dev.foldl_refill (die := die.val) (e := die.val) h (l := [0, 1, 2]) (by decide) (by decide) s.dev
    have mine : die.val = die.val ∧ cls ∈ [0, 1, 2] := ⟨rfl, by simp; omega⟩
    rw [tokens, unused, if_pos mine, if_pos mine]
    exact ⟨rfl, rfl⟩
  · obtain ⟨tokens, -⟩ :=
      Dev.foldl_refill (die := die.val) (e := e) h (l := [0, 1, 2]) (by decide) (by decide) s.dev
    rw [tokens, if_neg fun mine => he mine.1]

theorem request_waits (hf : s.dev.hbm.reqs.find? (fun r => r.id == id) = some r)
    (hw : s.dev.issuable r = false ∨ s.dev.isNext r = false) :
    exec (.requestIssue id) s = .next (s.withDev fun d => d.noteWait r) := by
  have waits : (s.dev.issuable r && s.dev.isNext r) = false := by rcases hw with h | h <;> simp [h]
  rw [exec_requestIssue hf, waits]
  rfl

theorem request_issues (hf : s.dev.hbm.reqs.find? (fun r => r.id == id) = some r) (hi : s.dev.issuable r = true)
    (hn : s.dev.isNext r = true) : exec (.requestIssue id) s = .next (s.withDev fun d => d.issue r) := by
  rw [exec_requestIssue hf, hi, hn]
  rfl

theorem scrub_spends {line : Nat} (hl : (line + 1) * 128 ≤ hbmBytes)
    (hs : s.dev.slotFree (Req.of .scrub [line] .read) = true)
    (ht : s.dev.unusedToken (s.dev.dieOf line) 0 = true ∨ s.dev.scrubUrgent (s.dev.dieOf line) line = true) :
    ∃ t, exec (.scrub line errs) s = .next t ∧ (∀ a, t.mem.byte a = s.mem.byte a) ∧
      t.dev.tokens (s.dev.dieOf line) 0 = s.dev.tokens (s.dev.dieOf line) 0 - 32 ∧
      AMap.get 0 t.dev.hbm.urgent (s.dev.dieOf line) =
        AMap.get 0 s.dev.hbm.urgent (s.dev.dieOf line) + b2n (!s.dev.unusedToken (s.dev.dieOf line) 0) ∧
      (errs = [] → s.mem.poisonedWords line = [] → t.dev.evt = s.dev.evt) := by
  have ecc := (s.work.up fun d => d.scrubPay (s.dev.dieOf line)).ecc_leaves line (Rec.of 0 0) errs
  refine ⟨_, exec_scrub hl hs ht, fun a => (congrArg (Mem.byte · a) (State.after_mem s _ ecc.base)).trans (ecc.byte a),
    ?_, ?_, fun he hp => ?_⟩
  · rw [State.after_dev, Dev.tokens, Wk.foundPoison_hbm, ecc.hbm]
    exact s.dev.tokens_scrubPay _
  · rw [State.after_dev, Wk.foundPoison_hbm, ecc.hbm]
    exact s.dev.urgent_scrubPay _
  · subst he
    rw [State.after_dev, Wk.ecc_nil, Wk.foundPoison, Wk.dev_up, Wk.mem_up, show s.work.mem = s.mem from rfl, hp]
    exact s.dev.scrubPay_evt _

/-- Settles O35: each class is given its own share, a request that issues pays each of its dies once, and what is written
back or scrubbed pays one token; of which class is log entry 23. -/
theorem tokensAreMadeAndSpent : Obligations.TokensAreMadeAndSpent := by
  refine ⟨fun s die => ?_, fun s id r hf => ⟨request_waits hf, fun hi hn => ?_⟩, fun s die x l ht hu => ?_,
    fun s line errs hl hs ht => scrub_spends hl hs ht⟩
  · obtain ⟨t, next, mem, mine, others⟩ := tokens_of_period s die
    exact ⟨t, next, mem, mine, others⟩
  · obtain rfl : r.id = id := by simpa using List.find?_some hf
    refine ⟨_, request_issues hf hi hn, State.withDev_mem s _, s.dev.issue_reqs r, fun die => ?_⟩
    have paid : ∀ k, k < 3 → _ := fun k hk => Dev.tokens_issue (die := die) hk s.dev r
    by_cases hd : die ∈ s.dev.diesOf r
    · simp only [if_pos hd] at paid ⊢
      exact ⟨paid 0 (by omega), paid 1 (by omega), paid 2 (by omega)⟩
    · simp only [if_neg hd] at paid ⊢
      exact ⟨paid 0 (by omega), paid 1 (by omega), paid 2 (by omega)⟩
  · exact ⟨_, exec_correctedWriteback ht hu, State.withDev_mem s _, rfl,
      (Dev.tokens_spend (by omega) (by omega) 1).trans (if_pos ⟨rfl, rfl⟩)⟩

end Sys2Proof.Machine
end

section
/-! HOST REQUESTS: what BAR4 posts gets on (R178 to R186, R194, R419). A request that is there is answered or waits, under
the number that it was given. -/

namespace Sys2Proof.Machine

open Sys2Proof.Config

variable {s : State} {errs : List (Nat × EccError)} {r : Req} {rs : List Req} {w : Wk} {d : Dev} {i : Nat} {k : ReqKind}

/-! ### Requests that wait -/

/-- A request of this number and kind is there. -/
def Dev.waits (d : Dev) (i : Nat) (k : ReqKind) : Prop := ∃ r ∈ d.hbm.reqs, r.id = i ∧ r.kind = k

/-- The number of a request tells its kind. -/
def Dev.Numbered (d : Dev) : Prop := ∀ i k l, d.waits i k → d.waits i l → k = l

/-- The same requests are there, and nothing has left the module. -/
structure Dev.SameWaits (d e : Dev) : Prop where
  waits : ∀ i k, e.waits i k ↔ d.waits i k
  out : e.out = d.out

theorem Dev.SameWaits.refl (d : Dev) : d.SameWaits d := ⟨fun _ _ => Iff.rfl, rfl⟩

theorem Dev.SameWaits.trans {a b c : Dev} (h : a.SameWaits b) (k : b.SameWaits c) : a.SameWaits c :=
  ⟨fun i l => (k.waits i l).trans (h.waits i l), k.out.trans h.out⟩

theorem Dev.Numbered.of_sameWaits {e : Dev} (hn : d.Numbered) (h : d.SameWaits e) : e.Numbered :=
  fun i k l hk hl => hn i k l ((h.waits i k).mp hk) ((h.waits i l).mp hl)

theorem Dev.claimTarget_out (d : Dev) (r : Req) : (d.claimTarget r).out = d.out := by
  unfold Dev.claimTarget
  split
  · rfl
  · exact foldl_keeps Dev.out Dev.claimSlot Dev.claimSlot_out _ d

theorem Dev.pay_out (r : Req) (d : Dev) (die : Nat) : (Dev.pay r d die).out = d.out := by
  simp only [Dev.pay, Dev.spend]

theorem Dev.issue_out (d : Dev) (r : Req) : (d.issue r).out = d.out := by
  show (Dev.claimTarget _ r).out = _
  rw [Dev.claimTarget_out, foldl_keeps Dev.out (Dev.pay r) (Dev.pay_out r)]

/-- A request that issues is still there (R178). -/
theorem Dev.issue_sameWaits (hn : d.Numbered) (hr : d.waits r.id r.kind) : d.SameWaits (d.issue r) := by
  refine ⟨fun i k => ⟨?_, ?_⟩, d.issue_out r⟩ <;>
    simp only [Dev.waits, Dev.issue_reqs, List.mem_append, List.mem_filter, List.mem_singleton, bne_iff_ne]
  · rintro ⟨q, ⟨hq, -⟩ | rfl, rfl, rfl⟩
    · exact ⟨q, hq, rfl, rfl⟩
    · exact hr
  · rintro ⟨q, hq, rfl, rfl⟩
    by_cases hid : q.id = r.id
    · have kind : r.kind = q.kind := hn q.id _ _ (hid ▸ hr) ⟨q, hq, rfl, rfl⟩
      exact ⟨_, .inr rfl, hid.symm, kind⟩
    · exact ⟨q, .inl ⟨hq, hid⟩, rfl, rfl⟩

/-- A request that begins to wait for a slot is there as before (R179). -/
theorem Dev.noteWait_sameWaits (d : Dev) (r : Req) : d.SameWaits (d.noteWait r) := by
  unfold Dev.noteWait
  dsimp only
  split
  · refine ⟨fun i k => ?_, rfl⟩
    simp only [Dev.waits, updWhere, List.mem_map, exists_exists_and_eq_and]
    refine exists_congr fun q => and_congr_right fun _ => ?_
    split <;> rfl
  · exact .refl d

/-- A request that is served is the one that is no longer there. -/
theorem Dev.waits_dropReq (d : Dev) (n : Nat) : (d.dropReq n).ringBells.waits i k ↔ d.waits i k ∧ i ≠ n := by
  simp only [Dev.waits, Dev.dropReq_ringBells_reqs, List.mem_filter, bne_iff_ne]
  constructor
  · rintro ⟨r, ⟨hr, hid⟩, rfl, rfl⟩
    exact ⟨⟨r, hr, rfl, rfl⟩, hid⟩
  · rintro ⟨⟨r, hr, rfl, rfl⟩, hid⟩
    exact ⟨r, ⟨hr, hid⟩, rfl, rfl⟩

theorem Dev.Numbered.dropReq (hn : d.Numbered) (n : Nat) : (d.dropReq n).ringBells.Numbered := fun i k l hk hl =>
  hn i k l ((d.waits_dropReq n).mp hk).1 ((d.waits_dropReq n).mp hl).1

/-! ### Requests that are posted (R419) -/

/-- Requests that are posted take the next numbers in turn. -/
theorem Dev.foldl_post_reqs (rs : List Req) (d : Dev) : (rs.foldl Dev.post d).hbm.reqs =
    d.hbm.reqs ++ rs.mapIdx fun i r => { r with id := d.hbm.nextId + i } := by
  induction rs generalizing d with
  | nil => exact (List.append_nil _).symm
  | cons r rs ih =>
    rw [List.foldl_cons, ih, List.mapIdx_cons]
    simp [Dev.post, Nat.add_assoc, Nat.add_comm 1]

theorem Dev.mem_foldl_post (he : d.hbm.reqs = []) : r ∈ (rs.foldl Dev.post d).hbm.reqs ↔
    ∃ j, ∃ q : Req, rs[j]? = some q ∧ r = { q with id := d.hbm.nextId + j } := by
  rw [Dev.foldl_post_reqs, he, List.nil_append, List.mem_iff_getElem?]
  simp only [List.getElem?_mapIdx, Option.map_eq_some_iff]
  exact exists_congr fun j => exists_congr fun q => and_congr_right fun _ => eq_comm

theorem Dev.numbered_foldl_post (he : d.hbm.reqs = []) : (rs.foldl Dev.post d).Numbered := by
  rintro i k l ⟨r, hr, hri, rfl⟩ ⟨q, hq, hqi, rfl⟩
  obtain ⟨j, r, hj, rfl⟩ := (Dev.mem_foldl_post he).mp hr
  obtain ⟨n, q, hn, rfl⟩ := (Dev.mem_foldl_post he).mp hq
  obtain rfl : j = n := Nat.add_left_cancel (hri.trans hqi.symm)
  obtain rfl : r = q := Option.some.inj (hj.symm.trans hn)
  rfl

theorem Dev.exists_waits_foldl_post (he : d.hbm.reqs = []) :
    (∃ i, (rs.foldl Dev.post d).waits i k) ↔ ∃ r ∈ rs, r.kind = k := by
  constructor
  · rintro ⟨i, r, hr, -, rfl⟩
    obtain ⟨j, q, hj, rfl⟩ := (Dev.mem_foldl_post he).mp hr
    exact ⟨q, List.mem_of_getElem? hj, rfl⟩
  · rintro ⟨q, hq, rfl⟩
    obtain ⟨j, hj⟩ := List.mem_iff_getElem?.mp hq
    exact ⟨_, _, (Dev.mem_foldl_post he).mpr ⟨j, q, hj, rfl⟩, rfl, rfl⟩

/-! ### The host's requests get on (R178 to R186) -/

/-- What serves a request of the host. -/
def Wk.answer (w : Wk) (errs : List (Nat × EccError)) (r : Req) : Wk :=
  let mine := (errs.filter fun x => x.1 == r.line).map Prod.snd
  if r.kind.isRead then w.deliver r mine else (w.ecc r.line (Rec.of 0 0) mine).serve r

/-- A request issues where it may. -/
def Dev.tries (r : Req) (d : Dev) : Dev := if d.issuable r && d.isNext r then d.issue r else d

theorem Wk.ite_up (w : Wk) (c : Bool) (f : Dev → Dev) :
    (w.ite c fun w => w.up f) = w.up fun d => if c then f d else d := by
  cases c <;> rfl

/-- A request as it stands after that. -/
def Dev.latest (d : Dev) (r : Req) : Req :=
  { r with issued := r.issued || (d.hbm.reqs.any fun q => q.id == r.id && q.issued) }

theorem Wk.hostGo_none (h : w.dev.hostFirst = none) (n : Nat) : Wk.hostGo errs (n + 1) w = w := by
  simp only [Wk.hostGo, h]

theorem Wk.hostGo_some (h : w.dev.hostFirst = some r) (n : Nat) : Wk.hostGo errs (n + 1) w =
    let v := w.up (Dev.tries r)
    let q := v.dev.latest r
    if q.issued && v.dev.servable q then
      Wk.hostGo errs n ((v.answer errs q).up fun d => (d.dropReq q.id).ringBells)
    else v.up fun d => d.noteWait q := by
  simp only [Wk.hostGo, h, Wk.ite_up]
  rfl

theorem Dev.tries_sameWaits (hn : d.Numbered) (hr : d.waits r.id r.kind) : d.SameWaits (d.tries r) := by
  unfold Dev.tries
  split
  · exact Dev.issue_sameWaits hn hr
  · exact .refl _

/-- What holds through the order of waiting and each answer holds when the host's requests have got on. -/
theorem Wk.hostGo_induction {I : Wk → Prop} (numbered : ∀ w, I w → w.dev.Numbered)
    (ordered : ∀ w f, I w → w.dev.SameWaits (f w.dev) → I (w.up f))
    (answered : ∀ w r, I w → w.dev.waits r.id r.kind →
      I ((w.answer errs r).up fun d => (d.dropReq r.id).ringBells)) (n : Nat) (w : Wk) (hw : I w) :
    I (Wk.hostGo errs n w) := by
  induction n generalizing w with
  | zero => exact hw
  | succ n ih =>
    cases hf : w.dev.hostFirst with
    | none => rwa [Wk.hostGo_none hf]
    | some r =>
      have waits : w.dev.waits r.id r.kind := ⟨r, List.mem_of_find?_eq_some hf, rfl, rfl⟩
      have same := Dev.tries_sameWaits (numbered w hw) waits
      have tried := ordered w (Dev.tries r) hw same
      rw [Wk.hostGo_some hf]
      dsimp only
      split
      · exact ih _ (answered _ (Dev.latest _ r) tried ((same.waits _ _).mpr waits))
      · exact ordered _ _ tried (Dev.noteWait_sameWaits _ _)

/-! ### Answers -/

theorem Wk.answer_write {e : Nat} {l : List Byte} (hk : r.kind = .write e l) : w.answer [] r = w.hbmPut e l := by
  rw [← Wk.serve_write w hk]
  simp [Wk.answer, hk, ReqKind.isRead]

theorem Wk.answer_read {a n : Nat} (hk : r.kind = .hostRead a n) : w.answer errs r =
    (w.ecc r.line (Rec.of 0 0) ((errs.filter fun x => x.1 == r.line).map Prod.snd)).hostData r.line a n := by
  simp [Wk.answer, hk, ReqKind.isRead, Wk.deliver]

theorem Dev.hostWarn_out {l : List Output} (h : l ⊆ d.out) (c : Bool) (rc : Rec) (mem : Mem) (line : Nat) :
    l ⊆ (if c then ((d.raise rc).shardNotice mem line).emit .aerPoisonEgress else d).out := by
  split
  · exact Dev.out_emit (Dev.out_shardNotice (Dev.out_raise h rc) mem line) _
  · exact h

/-- The bytes of a BAR4 read leave the module, with poison only where a word of the line is poisoned. -/
theorem Wk.hostData_out (w : Wk) (line a n : Nat) : w.dev.out ⊆ (w.hostData line a n).dev.out ∧
    ∃ bad, Output.readData (w.bytes a n) bad ∈ (w.hostData line a n).dev.out ∧
      (w.mem.poisonedWords line = [] → bad = false) :=
  ⟨Dev.out_emit (Dev.hostWarn_out (List.Subset.refl _) _ _ _ _) _, _, List.mem_append_right _ (List.mem_singleton_self _),
    fun h => by rw [h]; rfl⟩

theorem Wk.hostData_hbm (w : Wk) (line a n : Nat) : (w.hostData line a n).dev.hbm = w.dev.hbm := by
  unfold Wk.hostData
  dsimp only
  rw [Wk.dev_up, Dev.emit_hbm]
  split <;> simp

/-- Requests of BAR4 (R419). -/
def ReqKind.ofBar4 : ReqKind → Bool
  | .write _ _ | .hostRead _ _ => true
  | _ => false

theorem Wk.answer_reqs (w : Wk) (errs : List (Nat × EccError)) (hk : r.kind.ofBar4 = true) :
    (w.answer errs r).dev.hbm.reqs = w.dev.hbm.reqs := by
  have ecc := fun l => (w.ecc_same r.line (Rec.of 0 0) l).2.2
  cases hr : r.kind with
  | hostRead a n => rw [Wk.answer_read hr, Wk.hostData_hbm, ecc]
  | write e l =>
    simp only [Wk.answer, hr, ReqKind.isRead, Wk.serve_write _ hr, Wk.hbmPut_reqs, ecc, Bool.false_eq_true, if_false]
  | read => simp [hr, ReqKind.ofBar4] at hk
  | atomic op => simp [hr, ReqKind.ofBar4] at hk

/-- A request that is alone and may issue is served at once. -/
theorem Wk.hostRun_alone (errs : List (Nat × EccError)) (he : w.dev.hbm.reqs = [r]) (hw : r.who = .host)
    (hk : r.kind.ofBar4 = true) (hi : w.dev.issuable r = true) : (w.hostRun errs).dev.hbm.reqs = [] := by
  have first : w.dev.hostFirst = some r := by simp [Dev.hostFirst, he, hw]
  have next : w.dev.isNext r = true := by simp [Dev.isNext, he]
  have tries : w.dev.tries r = w.dev.issue r := by rw [Dev.tries, hi, next]; rfl
  have reqs : (w.dev.issue r).hbm.reqs = [{ r with issued := true }] := by simp [Dev.issue_reqs, he]
  have latest : (w.dev.issue r).latest r = { r with issued := true } := by simp [Dev.latest, reqs]
  have serves : (w.dev.issue r).servable { r with issued := true } = true := by
    rw [Dev.servable, reqs]
    exact List.all_eq_true.mpr fun l hl => by simp [hl]
  rw [Wk.hostRun, he, List.length_singleton, Wk.hostGo_some first]
  simp only [Wk.dev_up, tries, latest, serves, Bool.and_self, if_true, Wk.hostGo, Dev.dropReq_ringBells_reqs]
  rw [Wk.answer_reqs]
  · simp [tries, reqs]
  · exact hk

end Sys2Proof.Machine
end

section
/-! HOST APERTURE: BAR4 (R194, R411, R418 to R421). The requests of an access have its bytes, each of them in one line; a
byte that is written is in memory or waits, a part that is read has left the module or waits. -/

namespace Sys2Proof.Machine

open Sys2Proof.Config

variable {s : State} {errs : List (Nat × EccError)} {r : Req} {w : Wk} {d : Dev}

/-! ### Bytes of pieces -/

/-- A piece has the byte `b` for the address `x`. -/
def covers (p : Nat × List Byte) (x : Nat) (b : Byte) : Prop := p.1 ≤ x ∧ p.2[x - p.1]? = some b

theorem covers_nil (a x : Nat) (b : Byte) : ¬ covers (a, []) x b := by simp [covers]

theorem covers_cons {a x : Nat} {b c : Byte} {l : List Byte} :
    covers (a, c :: l) x b ↔ x = a ∧ c = b ∨ covers (a + 1, l) x b := by
  simp only [covers]
  by_cases h : x = a
  · subst h
    simp
  · by_cases hx : a ≤ x
    · have e : x - a = (x - (a + 1)) + 1 := by omega
      rw [e, List.getElem?_cons_succ]
      simp [h, hx, show a + 1 ≤ x by omega]
    · simp [h, hx, show ¬ a + 1 ≤ x by omega]

theorem covers_take_drop (a n x : Nat) (b : Byte) (l : List Byte) :
    covers (a, l) x b ↔ covers (a, l.take n) x b ∨ covers (a + n, l.drop n) x b := by
  simp only [covers, List.getElem?_take, List.getElem?_drop]
  by_cases h : a + n ≤ x
  · have e : n + (x - (a + n)) = x - a := by omega
    have : ¬ x - a < n := by omega
    simp [h, e, this, show a ≤ x by omega]
  · by_cases hx : a ≤ x
    · simp [h, hx, show x - a < n by omega]
    · simp [h, hx]

/-- A write that is cut by lines has the same bytes. -/
theorem covers_splitLines (f a : Nat) (l : List Byte) (hf : l.length + a % 128 ≤ 128 * f) (x : Nat) (b : Byte) :
    (∃ p ∈ splitLines f a l, covers p x b) ↔ covers (a, l) x b := by
  induction f generalizing a l with
  | zero =>
    obtain rfl : l = [] := List.length_eq_zero_iff.mp (by omega)
    simp [splitLines, covers_nil]
  | succ f ih =>
    rw [splitLines]
    split
    case isTrue h =>
      obtain rfl := List.isEmpty_iff.mp h
      simp [covers_nil]
    case isFalse =>
      have rest := ih (a + (128 - a % 128)) (l.drop (128 - a % 128)) (by rw [List.length_drop]; omega)
      rw [covers_take_drop a (128 - a % 128), ← rest]
      simp

/-- The byte that is written at `x` by enabled bytes from `a` on is `b`. -/
def enables (a : Nat) (data : List (Option Byte)) (x : Nat) (b : Byte) : Prop := a ≤ x ∧ data[x - a]? = some (some b)

theorem enables_unique {a x : Nat} {b c : Byte} {data : List (Option Byte)} (hb : enables a data x b)
    (hc : enables a data x c) : b = c := by simpa using hb.2.symm.trans hc.2

theorem enables_cons {a x : Nat} {b : Byte} {o : Option Byte} {data : List (Option Byte)} :
    enables a (o :: data) x b ↔ x = a ∧ o = some b ∨ enables (a + 1) data x b := by
  simp only [enables]
  by_cases h : x = a
  · subst h
    simp
  · by_cases hx : a ≤ x
    · have e : x - a = (x - (a + 1)) + 1 := by omega
      rw [e, List.getElem?_cons_succ]
      simp [h, hx, show a + 1 ≤ x by omega]
    · simp [h, hx, show ¬ a + 1 ≤ x by omega]

/-- The runs have the enabled bytes and no other. -/
theorem covers_enabledRuns (data : List (Option Byte)) (a x : Nat) (b : Byte) :
    (∃ p ∈ enabledRuns a data, covers p x b) ↔ enables a data x b := by
  induction data generalizing a with
  | nil => simp [enabledRuns, enables]
  | cons o data ih =>
    rw [enables_cons, ← ih]
    cases o with
    | none => simp [enabledRuns]
    | some c =>
      rw [enabledRuns]
      cases enabledRuns (a + 1) data with
      | nil => simp [covers_cons, covers_nil]
      | cons p runs =>
        obtain ⟨e, l⟩ := p
        by_cases he : e = a + 1
        · subst he
          simp [covers_cons, or_assoc]
        · simp [he, covers_cons, covers_nil]

theorem Wk.byte_hbmPut_covers {e x : Nat} {l : List Byte} {b : Byte} (w : Wk) (h : covers (e, l) x b) :
    (w.hbmPut e l).mem.byte x = b := by
  obtain ⟨hx, hb⟩ := h
  obtain ⟨hlt, -⟩ := List.getElem?_eq_some_iff.mp hb
  dsimp only at hx hb hlt
  refine (w.byte_put e x l).trans ?_
  rw [if_pos (by omega), List.getD_eq_getElem?_getD, hb]
  rfl

theorem Wk.byte_hbmPut_other {e x : Nat} {l : List Byte} (w : Wk) (h : ∀ b, ¬ covers (e, l) x b) :
    (w.hbmPut e l).mem.byte x = w.mem.byte x := by
  refine (w.byte_put e x l).trans (if_neg ?_)
  rintro ⟨hx, hlt⟩
  exact h _ ⟨hx, List.getElem?_eq_getElem (by dsimp only; omega)⟩

/-! ### BAR4_WRITE (R419, R420) -/

/-- The requests of a write of some bytes. -/
def writeReqs (a : Nat) (l : List Byte) : List Req :=
  (splitLines (l.length / 128 + 2) a l).map fun x => Req.of .host [x.1 / 128] (.write x.1 x.2)

/-- The requests of the enabled bytes of a write. -/
def enabledReqs (a : Nat) (data : List (Option Byte)) : List Req :=
  (enabledRuns 0 data).flatMap fun x => writeReqs (a + x.1) x.2

theorem Dev.foldl_bar4Write (a : Nat) (data : List (Option Byte)) (d : Dev) :
    (enabledRuns 0 data).foldl (fun d x => d.bar4Write (a + x.1) x.2) d = (enabledReqs a data).foldl Dev.post d := by
  rw [enabledReqs, List.foldl_flatMap]
  simp only [Dev.bar4Write, writeReqs, List.foldl_map]

theorem Dev.bar4Write_pcie (d : Dev) (a : Nat) (l : List Byte) : (d.bar4Write a l).pcie = d.pcie := by
  refine foldl_keeps Dev.pcie _ (fun _ _ => ?_) _ d
  rfl

/-- The aperture does not move while a write is posted. -/
theorem Dev.foldl_bar4Write_aper (o : Nat) (runs : List (Nat × List Byte)) (d : Dev) :
    runs.foldl (fun d x => d.bar4Write (d.aperAddr o + x.1) x.2) d =
      runs.foldl (fun e x => e.bar4Write (d.aperAddr o + x.1) x.2) d := by
  suffices h : ∀ e : Dev, e.pcie = d.pcie → runs.foldl (fun d x => d.bar4Write (d.aperAddr o + x.1) x.2) e =
      runs.foldl (fun e x => e.bar4Write (d.aperAddr o + x.1) x.2) e from h d rfl
  induction runs with
  | nil =>
    intro e _
    rw [List.foldl_nil, List.foldl_nil]
  | cons x runs ih =>
    intro e he
    have aper : e.aperAddr o = d.aperAddr o := by simp only [Dev.aperAddr, he]
    rw [List.foldl_cons, List.foldl_cons, aper, ih _ ((e.bar4Write_pcie _ _).trans he)]

theorem who_of_enabledReqs {a : Nat} {data : List (Option Byte)} (hr : r ∈ enabledReqs a data) : r.who = .host := by
  obtain ⟨x, -, hx⟩ := List.mem_flatMap.mp hr
  obtain ⟨y, -, rfl⟩ := List.mem_map.mp hx
  rfl

theorem ofBar4_of_enabledReqs {a : Nat} {data : List (Option Byte)} (hr : r ∈ enabledReqs a data) :
    r.kind.ofBar4 = true := by
  obtain ⟨x, -, hx⟩ := List.mem_flatMap.mp hr
  obtain ⟨y, -, rfl⟩ := List.mem_map.mp hx
  rfl

theorem covers_shift {a e x : Nat} {l : List Byte} {b : Byte} :
    covers (a + e, l) x b ↔ a ≤ x ∧ covers (e, l) (x - a) b := by
  simp only [covers, Nat.sub_sub, ← and_assoc]
  exact and_congr_left fun _ => by omega

theorem enables_shift {a x : Nat} {data : List (Option Byte)} {b : Byte} :
    enables a data x b ↔ a ≤ x ∧ enables 0 data (x - a) b := by simp [enables]

/-- The requests of a write have its enabled bytes, and no other. -/
theorem covers_enabledReqs (a : Nat) (data : List (Option Byte)) (x : Nat) (b : Byte) :
    (∃ e l, (∃ r ∈ enabledReqs a data, r.kind = .write e l) ∧ covers (e, l) x b) ↔ enables a data x b := by
  rw [enables_shift, ← covers_enabledRuns]
  have fuel : ∀ p : Nat × List Byte, p.2.length + (a + p.1) % 128 ≤ 128 * (p.2.length / 128 + 2) := fun p => by omega
  constructor
  · rintro ⟨e, l, ⟨r, hr, hk⟩, hc⟩
    obtain ⟨p, hp, hq⟩ := List.mem_flatMap.mp hr
    obtain ⟨q, hmem, rfl⟩ := List.mem_map.mp hq
    obtain ⟨rfl, rfl⟩ := ReqKind.write.inj hk
    obtain ⟨hx, hc⟩ := covers_shift.mp ((covers_splitLines _ _ _ (fuel p) x b).mp ⟨q, hmem, hc⟩)
    exact ⟨hx, p, hp, hc⟩
  · rintro ⟨hx, p, hp, hc⟩
    obtain ⟨q, hq, hc⟩ := (covers_splitLines _ _ _ (fuel p) x b).mpr (covers_shift.mpr ⟨hx, hc⟩)
    exact ⟨q.1, q.2, ⟨_, List.mem_flatMap.mpr ⟨p, hp, List.mem_map_of_mem hq⟩, rfl⟩, hc⟩

/-- A write of enabled bytes on its way: what its requests have are its bytes; each of these is written or waits; and every
other byte is as it was in `m`. -/
structure Wk.Writing (m : Mem) (a : Nat) (data : List (Option Byte)) (w : Wk) : Prop where
  base : w.base = m
  numbered : w.dev.Numbered
  writes : ∀ i k, w.dev.waits i k → ∃ e l, k = .write e l ∧ ∀ x b, covers (e, l) x b → enables a data x b
  lands : ∀ x b, enables a data x b → w.mem.byte x = b ∨ ∃ i e l, w.dev.waits i (.write e l) ∧ covers (e, l) x b
  others : ∀ x, (∀ b, ¬ enables a data x b) → w.mem.byte x = m.byte x

theorem Wk.Writing.start {m : Mem} (a : Nat) (data : List (Option Byte)) (he : d.hbm.reqs = []) :
    Wk.Writing m a data ⟨m, [], (enabledReqs a data).foldl Dev.post d⟩ where
  base := rfl
  numbered := Dev.numbered_foldl_post he
  writes i k hk := by
    obtain ⟨r, hr, rfl⟩ := (Dev.exists_waits_foldl_post he).mp ⟨i, hk⟩
    obtain ⟨p, -, hp⟩ := List.mem_flatMap.mp hr
    obtain ⟨q, -, rfl⟩ := List.mem_map.mp hp
    exact ⟨_, _, rfl, fun x b hc => (covers_enabledReqs a data x b).mp ⟨_, _, ⟨_, hr, rfl⟩, hc⟩⟩
  lands x b hb := by
    obtain ⟨e, l, hr, hc⟩ := (covers_enabledReqs a data x b).mpr hb
    obtain ⟨i, hi⟩ := (Dev.exists_waits_foldl_post he).mpr hr
    exact .inr ⟨i, e, l, hi, hc⟩
  others _ _ := rfl

theorem Wk.Writing.up {m : Mem} {a : Nat} {data : List (Option Byte)} (hw : w.Writing m a data) {f : Dev → Dev}
    (h : w.dev.SameWaits (f w.dev)) : (w.up f).Writing m a data where
  base := hw.base
  numbered := hw.numbered.of_sameWaits h
  writes i k hk := hw.writes i k ((h.waits i k).mp hk)
  lands x b hb := (hw.lands x b hb).imp_right fun ⟨i, e, l, hi, hc⟩ => ⟨i, e, l, (h.waits _ _).mpr hi, hc⟩
  others := hw.others

/-- A request that is served has its bytes in memory and is ran. -/
theorem Wk.Writing.answer {m : Mem} {a : Nat} {data : List (Option Byte)} (hw : w.Writing m a data)
    (hr : w.dev.waits r.id r.kind) :
    ((w.answer [] r).up fun d => (d.dropReq r.id).ringBells).Writing m a data := by
  obtain ⟨e, l, hk, mine⟩ := hw.writes _ _ hr
  rw [Wk.answer_write hk]
  have same : w.dev.SameWaits (w.hbmPut e l).dev :=
    ⟨fun i k => by rw [Dev.waits, Wk.hbmPut_reqs, Dev.waits], by simp [Wk.hbmPut, Dev.hbmFresh]⟩
  have waits : ∀ {i k}, (((w.hbmPut e l).up fun d => (d.dropReq r.id).ringBells).dev.waits i k) ↔
      w.dev.waits i k ∧ i ≠ r.id := fun {i k} =>
    (Dev.waits_dropReq _ _).trans (and_congr_left fun _ => same.waits i k)
  refine ⟨(Wk.base_put w e l).trans hw.base, (hw.numbered.of_sameWaits same).dropReq _,
    fun i k h => hw.writes i k (waits.mp h).1, fun x b hb => ?_, fun x hx => ?_⟩
  · by_cases hc : ∃ c, covers (e, l) x c
    · obtain ⟨c, hc⟩ := hc
      obtain rfl := enables_unique hb (mine x c hc)
      exact .inl (w.byte_hbmPut_covers hc)
    · have out : ∀ c, ¬ covers (e, l) x c := fun c h => hc ⟨c, h⟩
      refine (hw.lands x b hb).imp (w.byte_hbmPut_other out).trans fun ⟨i, e', l', hi, hcov⟩ =>
        ⟨i, e', l', waits.mpr ⟨hi, ?_⟩, hcov⟩
      rintro rfl
      obtain ⟨rfl, rfl⟩ := ReqKind.write.inj ((hw.numbered _ _ _ hi hr).trans hk)
      exact out b hcov
  · exact (w.byte_hbmPut_other fun b hc => hx b (mine x b hc)).trans (hw.others x hx)

/-! ### BAR4_READ (R194, R419 to R421) -/

/-- The requests of a read. -/
def readReqs (a n : Nat) : List Req :=
  (linePieces (n / 128 + 2) a n).map fun x => Req.of .host [x.1 / 128] (.hostRead x.1 x.2)

theorem Dev.bar4Read_eq (d : Dev) (a n : Nat) : d.bar4Read a n = (readReqs a n).foldl Dev.post d := by
  rw [Dev.bar4Read, readReqs, List.foldl_map]

theorem who_of_readReqs {a n : Nat} (hr : r ∈ readReqs a n) : r.who = .host := by
  obtain ⟨x, -, rfl⟩ := List.mem_map.mp hr
  rfl

theorem ofBar4_of_readReqs {a n : Nat} (hr : r ∈ readReqs a n) : r.kind.ofBar4 = true := by
  obtain ⟨x, -, rfl⟩ := List.mem_map.mp hr
  rfl

/-- A request's bytes have left the module as they are in `m`, without poison where ECC finds nothing and HBM has none. -/
def Dev.Sent (d : Dev) (m : Mem) (errs : List (Nat × EccError)) (p : Nat × Nat) : Prop :=
  ∃ bad, Output.readData (m.bytes p.1 p.2) bad ∈ d.out ∧ (errs = [] → m.hbmPoison = [] → bad = false)

theorem Dev.Sent.mono {m : Mem} {p : Nat × Nat} {e : Dev} (h : d.Sent m errs p) (ho : d.out ⊆ e.out) :
    e.Sent m errs p :=
  h.imp fun _ => And.imp_left (ho ·)

/-- A read of these parts of lines on its way: each of them has been answered or waits, and no byte changes. -/
structure Wk.Reading (m : Mem) (errs : List (Nat × EccError)) (ps : List (Nat × Nat)) (w : Wk) : Prop where
  base : w.base = m
  numbered : w.dev.Numbered
  byte : ∀ x, w.mem.byte x = m.byte x
  poison : errs = [] → w.mem.hbmPoison = m.hbmPoison
  reads : ∀ i k, w.dev.waits i k → ∃ a n, k = .hostRead a n
  sent : ∀ p ∈ ps, w.dev.Sent m errs p ∨ ∃ i, w.dev.waits i (.hostRead p.1 p.2)

theorem Wk.Reading.start (m : Mem) (errs : List (Nat × EccError)) (a n : Nat) (he : d.hbm.reqs = []) :
    Wk.Reading m errs (linePieces (n / 128 + 2) a n) ⟨m, [], (readReqs a n).foldl Dev.post d⟩ where
  base := rfl
  numbered := Dev.numbered_foldl_post he
  byte _ := rfl
  poison _ := rfl
  reads i k hk := by
    obtain ⟨r, hr, rfl⟩ := (Dev.exists_waits_foldl_post he).mp ⟨i, hk⟩
    obtain ⟨p, -, rfl⟩ := List.mem_map.mp hr
    exact ⟨_, _, rfl⟩
  sent p hp := .inr ((Dev.exists_waits_foldl_post he).mpr ⟨_, List.mem_map_of_mem hp, rfl⟩)

theorem Wk.Reading.up {m : Mem} {ps : List (Nat × Nat)} (hw : w.Reading m errs ps) {f : Dev → Dev}
    (h : w.dev.SameWaits (f w.dev)) : (w.up f).Reading m errs ps where
  base := hw.base
  numbered := hw.numbered.of_sameWaits h
  byte := hw.byte
  poison := hw.poison
  reads i k hk := hw.reads i k ((h.waits i k).mp hk)
  sent p hp := (hw.sent p hp).imp (·.mono (h.out ▸ List.Subset.refl _)) fun ⟨i, hi⟩ =>
    ⟨i, (h.waits _ _).mpr hi⟩

/-- Without poison in HBM no word of a line is poisoned. -/
theorem Mem.poisonedWords_nil {m : Mem} (h : m.hbmPoison = []) (line : Nat) : m.poisonedWords line = [] := by
  simp [Mem.poisonedWords, h, NSet.has, AMap.get]

/-- A request that is served has its bytes sent and is ran. -/
theorem Wk.Reading.answer {m : Mem} {ps : List (Nat × Nat)} (hw : w.Reading m errs ps) (hr : w.dev.waits r.id r.kind) :
    ((w.answer errs r).up fun d => (d.dropReq r.id).ringBells).Reading m errs ps := by
  obtain ⟨a, n, hk⟩ := hw.reads _ _ hr
  have reqs := w.answer_reqs errs (r := r) (by rw [hk]; rfl)
  have waits : ∀ {i k}, (((w.answer errs r).up fun d => (d.dropReq r.id).ringBells).dev.waits i k) ↔
      w.dev.waits i k ∧ i ≠ r.id := fun {i k} =>
    (Dev.waits_dropReq _ _).trans (and_congr_left fun _ => by rw [Dev.waits, reqs, Dev.waits])
  rw [Wk.answer_read hk] at waits ⊢
  have ecc := w.ecc_leaves r.line (Rec.of 0 0) ((errs.filter fun x => x.1 == r.line).map Prod.snd)
  have clean : errs = [] → (w.ecc r.line (Rec.of 0 0) ((errs.filter fun x => x.1 == r.line).map Prod.snd)) = w := by
    rintro rfl
    rfl
  generalize w.ecc r.line (Rec.of 0 0) _ = v at ecc clean waits ⊢
  have byte : ∀ x, v.mem.byte x = m.byte x := fun x => (ecc.byte x).trans (hw.byte x)
  have poison : errs = [] → v.mem.hbmPoison = m.hbmPoison := fun he => by rw [clean he]; exact hw.poison he
  obtain ⟨stays, bad, here, hbad⟩ := v.hostData_out r.line a n
  have rings : (v.hostData r.line a n).dev.out ⊆ ((v.hostData r.line a n).dev.dropReq r.id).ringBells.out :=
    Dev.out_ringBells (List.Subset.refl _)
  refine ⟨ecc.base.trans hw.base, fun i k l hi hl => hw.numbered i k l (waits.mp hi).1 (waits.mp hl).1, byte, poison,
    fun i k h => hw.reads i k (waits.mp h).1, fun p hp => ?_⟩
  rcases hw.sent p hp with hsent | ⟨i, hi⟩
  · exact .inl (hsent.mono (List.Subset.trans (List.Subset.trans ecc.out stays) rings))
  · by_cases hid : i = r.id
    · subst hid
      obtain ⟨rfl, rfl⟩ := ReqKind.hostRead.inj ((hw.numbered _ _ _ hi hr).trans hk)
      refine .inl ⟨bad, rings ?_, fun he hm => hbad (Mem.poisonedWords_nil ((poison he).trans hm) _)⟩
      rwa [← Mem.bytes_congr byte]
    · exact .inr ⟨i, waits.mpr ⟨hi, hid⟩⟩

/-! ### The rows -/

section

variable {o n : Nat} {data : List (Option Byte)}

theorem aperOpen_of (h : 7 ≤ s.dev.start.step) : s.dev.aperOpen = true := decide_eq_true h

theorem aperOpen_of_lt (h : s.dev.start.step < 7) : s.dev.aperOpen = false := decide_eq_false (Nat.not_le.mpr h)

theorem bar4_inside {len : Nat} (h : o + len ≤ 64 * 2 ^ 30) : ¬ bar4Size < o + len := by
  rw [bar4Size]
  omega

theorem exec_bar4Write_closed (h : o + data.length ≤ 64 * 2 ^ 30) (hc : s.dev.start.step < 7) (bad : Bool) :
    exec (.bar4Write o data bad) s = .next (s.withDev fun d => d.emit .unsupportedRequest) := by
  show execBar4Write o data bad s = _
  rw [execBar4Write, if_neg (bar4_inside h)]
  exact done_next_of s (w := s.work.up fun d => d.emit .unsupportedRequest) (by simp [State.work, aperOpen_of_lt hc])

/-- What the module says of a poisoned write, which it drops (R421). -/
def Dev.dropsPoisoned (o : Nat) (d : Dev) : Dev :=
  let e := (d.emit .aerPoisonReceived).raise { Rec.of 0x00D1 1 with addr := d.busAddr o }
  { e with free := e.free + 1 }

theorem exec_bar4Write_poisoned (h : o + data.length ≤ 64 * 2 ^ 30) (ho : 7 ≤ s.dev.start.step) :
    exec (.bar4Write o data true) s = .next (s.withDev (Dev.dropsPoisoned o)) := by
  show execBar4Write o data true s = _
  rw [execBar4Write, if_neg (bar4_inside h)]
  refine done_next_of s (w := s.work.up (Dev.dropsPoisoned o)) ?_
  simp only [State.work, aperOpen_of ho, Bool.not_true, Bool.false_eq_true, if_false, if_true]
  rfl

theorem Dev.mem_out_dropsPoisoned (d : Dev) (o : Nat) : Output.aerPoisonReceived ∈ (d.dropsPoisoned o).out := by
  have said : (d.emit .aerPoisonReceived).out ⊆ (d.dropsPoisoned o).out := Dev.out_raise (List.Subset.refl _) _
  exact said (List.mem_append_right _ (List.mem_singleton_self _))

theorem exec_bar4Write_open (h : o + data.length ≤ 64 * 2 ^ 30) (ho : 7 ≤ s.dev.start.step) :
    exec (.bar4Write o data false) s = .next (s.after
      ((s.work.up (enabledReqs (s.dev.aperAddr o) data |>.foldl Dev.post)).hostRun [])) := by
  show execBar4Write o data false s = _
  rw [execBar4Write, if_neg (bar4_inside h)]
  refine done_next_of s ?_
  simp only [State.work, aperOpen_of ho, Bool.not_true, Bool.false_eq_true, if_false, Wk.up, Dev.foldl_bar4Write_aper,
    Dev.foldl_bar4Write]

theorem exec_bar4Read_closed (h : o + n ≤ 64 * 2 ^ 30) (hc : s.dev.start.step < 7) :
    exec (.bar4Read o n errs) s = .next (s.withDev fun d => d.emit .unsupportedRequest) := by
  show execBar4Read o n errs s = _
  rw [execBar4Read, if_neg (bar4_inside h)]
  exact done_next_of s (w := s.work.up fun d => d.emit .unsupportedRequest) (by simp [State.work, aperOpen_of_lt hc])

theorem exec_bar4Read_open (h : o + n ≤ 64 * 2 ^ 30) (ho : 7 ≤ s.dev.start.step) : exec (.bar4Read o n errs) s =
    .next (s.after ((s.work.up (readReqs (s.dev.aperAddr o) n |>.foldl Dev.post)).hostRun errs)) := by
  show execBar4Read o n errs s = _
  rw [execBar4Read, if_neg (bar4_inside h)]
  refine done_next_of s ?_
  simp only [State.work, aperOpen_of ho, Bool.not_true, Bool.false_eq_true, if_false, Wk.up, Dev.bar4Read_eq]

theorem exec_hostAperWrite (ho : 6 ≤ s.dev.start.step) (v : BitVec 64) :
    exec (.hostAperWrite v) s = .next (s.withDev fun d => d.aperture v.toNat) :=
  devOnly_next_of s (Dev.hostWrite_open ho _)

/-- A request that BAR4 posts alone and that may issue is served at once. -/
theorem Wk.hostRun_posted (errs : List (Nat × EccError)) {rs : List Req} (hwho : ∀ q ∈ rs, q.who = .host)
    (hk : ∀ q ∈ rs, q.kind.ofBar4 = true) (he : s.dev.hbm.reqs = [])
    (hr : (rs.foldl Dev.post s.dev).hbm.reqs = [r]) (hi : (rs.foldl Dev.post s.dev).issuable r = true) :
    ((s.work.up (rs.foldl Dev.post)).hostRun errs).dev.hbm.reqs = [] := by
  obtain ⟨j, q, hj, rfl⟩ := (Dev.mem_foldl_post he).mp (hr ▸ List.mem_singleton_self r)
  have hq := List.mem_of_getElem? hj
  exact Wk.hostRun_alone errs hr (hwho q hq) (hk q hq) hi

theorem bar4Write_reaches (h : o + data.length ≤ 64 * 2 ^ 30) (ho : 7 ≤ s.dev.start.step) (he : s.dev.hbm.reqs = []) :
    ∃ t, exec (.bar4Write o data false) s = .next t ∧
      (∀ x b, enables (s.dev.aperAddr o) data x b → t.mem.byte x = b ∨
        ∃ r e l, r ∈ t.dev.hbm.reqs ∧ r.kind = .write e l ∧ e ≤ x ∧ l[x - e]? = some b) ∧
      (∀ x, (∀ b, ¬ enables (s.dev.aperAddr o) data x b) → t.mem.byte x = s.mem.byte x) ∧
      (∀ r, ((enabledReqs (s.dev.aperAddr o) data).foldl Dev.post s.dev).hbm.reqs = [r] →
        ((enabledReqs (s.dev.aperAddr o) data).foldl Dev.post s.dev).issuable r = true → t.dev.hbm.reqs = []) := by
  have ran : ((s.work.up (enabledReqs (s.dev.aperAddr o) data |>.foldl Dev.post)).hostRun []).Writing s.mem
      (s.dev.aperAddr o) data :=
    Wk.hostGo_induction (fun _ hw => hw.numbered) (fun _ _ hw => hw.up) (fun _ _ hw => hw.answer) _ _ (.start _ _ he)
  have mem := State.after_mem s _ ran.base
  refine ⟨_, exec_bar4Write_open h ho, fun x b hb => ?_, fun x hx => ?_, fun r hr hi => ?_⟩
  · rw [mem]
    refine (ran.lands x b hb).imp_right ?_
    rintro ⟨i, e, l, ⟨r, hr, -, hk⟩, hc⟩
    exact ⟨r, e, l, hr, hk, hc⟩
  · rw [mem]
    exact ran.others x hx
  · exact Wk.hostRun_posted [] (fun _ => who_of_enabledReqs) (fun _ => ofBar4_of_enabledReqs) he hr hi

theorem bar4Read_reaches (h : o + n ≤ 64 * 2 ^ 30) (ho : 7 ≤ s.dev.start.step) (he : s.dev.hbm.reqs = []) :
    ∃ t, exec (.bar4Read o n errs) s = .next t ∧ (∀ x, t.mem.byte x = s.mem.byte x) ∧
      (∀ p ∈ linePieces (n / 128 + 2) (s.dev.aperAddr o) n,
        t.dev.Sent s.mem errs p ∨ ∃ r ∈ t.dev.hbm.reqs, r.kind = .hostRead p.1 p.2) ∧
      (∀ r, ((readReqs (s.dev.aperAddr o) n).foldl Dev.post s.dev).hbm.reqs = [r] →
        ((readReqs (s.dev.aperAddr o) n).foldl Dev.post s.dev).issuable r = true → t.dev.hbm.reqs = []) := by
  have ran : ((s.work.up (readReqs (s.dev.aperAddr o) n |>.foldl Dev.post)).hostRun errs).Reading s.mem errs
      (linePieces (n / 128 + 2) (s.dev.aperAddr o) n) :=
    Wk.hostGo_induction (fun _ hw => hw.numbered) (fun _ _ hw => hw.up) (fun _ _ hw => hw.answer) _ _ (.start _ _ _ _ he)
  have mem := State.after_mem s _ ran.base
  refine ⟨_, exec_bar4Read_open h ho, fun x => ?_, fun p hp => ?_, fun r hr hi => ?_⟩
  · rw [mem]
    exact ran.byte x
  · refine (ran.sent p hp).imp_right ?_
    rintro ⟨i, r, hr, -, hk⟩
    exact ⟨r, hr, hk⟩
  · exact Wk.hostRun_posted errs (fun _ => who_of_readReqs) (fun _ => ofBar4_of_readReqs) he hr hi

end

/-- Settles O52: through the service of the host's requests, every byte or part of a line is answered or waits. From which
step on BAR4 serves is log entry 49, that a request may wait beyond its row entry 122. -/
theorem apertureReachesMemory : Obligations.ApertureReachesMemory := by
  refine ⟨fun s v ho => ⟨fun hv => ?_, fun hv => ?_⟩, fun s o n data bad errs hc =>
    ⟨fun h => exec_bar4Write_closed h hc bad, fun h => exec_bar4Read_closed h hc⟩, fun s o data ho h => ⟨fun he => ?_,
    _, exec_bar4Write_poisoned h ho, State.withDev_mem _ _, Dev.mem_out_dropsPoisoned _ _⟩,
    fun s o n errs ho h he => ?_⟩
  · simp only [exec_hostAperWrite ho, Dev.aperture, hv, if_true]
  · simp only [exec_hostAperWrite ho, Dev.aperture, Nat.not_le.mpr hv, if_false]
    rfl
  · obtain ⟨t, next, lands, others, alone⟩ := bar4Write_reaches h ho he
    refine ⟨t, next, fun i b hb => lands _ b ⟨Nat.le_add_right _ i, ?_⟩, fun x hx => others x ?_, fun r hr hi => ?_⟩
    · rwa [Dev.aperAddr, Nat.add_sub_cancel_left]
    · rintro b ⟨hle, hb⟩
      exact hx _ b hb (Nat.add_sub_of_le hle).symm
    · rw [Dev.foldl_bar4Write] at hr hi
      exact alone r hr hi
  · obtain ⟨t, next, byte, sent, alone⟩ := bar4Read_reaches (errs := errs) h ho he
    refine ⟨t, next, byte, sent, fun r hr hi => ?_⟩
    rw [Dev.bar4Read_eq] at hr hi
    exact alone r hr hi

end Sys2Proof.Machine
end

section
/-! STREAM REGISTERS: the host's writes of rings, ENABLE and CANCEL, and doorbells (R199, R202 to R204, R394, R420, R476). -/

namespace Sys2Proof.Machine

open Sys2Proof.Config

theorem State.withDev_congr (s : State) {f g : Dev → Dev} (h : f s.dev = g s.dev) : s.withDev f = s.withDev g := by
  simp only [State.withDev, h]

/-! ### Doorbells (R199, R420) -/

/-- A doorbell whose tail moves forward and fits a ring that is set up, on a stream of the image (R199). -/
abbrev Dev.goodTail (d : Dev) (c k : Nat) (tail : W32) : Prop :=
  d.live.streamOn c k = true ∧ (d.stream c k).ring ≠ 0 ∧ serialBefore tail (d.stream c k).tail = false ∧
    (tail - d.retire c k).toNat ≤ (d.stream c k).size

theorem Dev.doorbell_eq (d : Dev) (c k : Nat) (tail : W32) :
    d.doorbell c k tail = if d.goodTail c k tail then d.setStream c k fun t => { t with tail := tail }
      else ((d.setStream c k fun t => { t with dbReject := true }).latch (strOffset c k 0x14) 6).raise
        { Rec.of 0x0045 1 with cluster := c, stream := k, detail := leBytes 4 tail.toNat } := by
  refine if_congr ?_ rfl rfl
  simp [Dev.goodTail, and_assoc]

theorem exec_doorbell {s : State} (h : 4 ≤ s.dev.start.step) (c : Fin 128) (k : StreamName) (tail : BitVec 32) :
    exec (.doorbell c k tail) s = .next (s.withDev fun d => d.bell c.val k.num tail) :=
  devOnly_next_of s (by rw [if_pos (Dev.hostEarly_of h)])

/-- Settles O12: with no BAR4 write before it the bell is judged at once, by whether its tail is good; else it waits. -/
theorem doorbellJudged : Obligations.DoorbellJudged := by
  intro s c k tail h
  have judged (hw : s.dev.hostWrites = []) : s.dev.bell c.val k.num tail = s.dev.doorbell c.val k.num tail := by
    simp [Dev.bell, hw]
  have outcome := s.dev.doorbell_eq c.val k.num tail
  refine ⟨fun hw hg => ?_, fun hw hb => ?_, fun hw => ?_⟩ <;>
    refine (exec_doorbell h c k tail).trans (congrArg _ (s.withDev_congr ?_))
  · exact ((judged hw).trans outcome).trans (if_pos hg)
  · exact ((judged hw).trans outcome).trans (if_neg hb)
  · simp [Dev.bell, hw]

/-! ### Rings (R202) -/

/-- What a write of a ring register asks for: a stream that is DISABLED, a size in the register's range, and room in HBM. -/
abbrev Dev.ringFits (d : Dev) (c k lo hi entry v : Nat) : Prop :=
  d.streamState c k = 0 ∧ lo ≤ bits v 4 0 ∧ bits v 4 0 ≤ hi ∧ bits v 47 12 * 4096 + 2 ^ bits v 4 0 * entry ≤ hbmBytes

theorem Dev.strRing_commands (d : Dev) (c k v : Nat) :
    d.strRing c k false v = if d.ringFits c k 6 20 64 v then
        d.setStream c k fun t => { t with
          ring := BitVec.ofNat 64 (bits v 47 12 * 4096 + bits v 4 0), tail := 0, fetch := 0, dead := [], skips := [] }
      else d.streamConfig (strOffset c k 0) := by
  refine if_congr ?_ rfl rfl
  simp [Dev.ringFits, inHbm, and_assoc]

theorem Dev.strRing_completions (d : Dev) (c k v : Nat) :
    d.strRing c k true v = if d.ringFits c k 4 16 16 v then
        d.setStream c k fun t => { t with
          cplReg := BitVec.ofNat 64 (bits v 47 12 * 4096 + bits v 4 0), cplHead := 0, cplTail := 0 }
      else d.streamConfig (strOffset c k 8) := by
  refine if_congr ?_ rfl rfl
  simp [Dev.ringFits, inHbm, and_assoc]

theorem exec_strRingWrite {s : State} (h : 6 ≤ s.dev.start.step) (c : Fin 128) (k : StreamName) (completion : Bool)
    (v : BitVec 64) : exec (.strRingWrite c k completion v) s =
      .next (s.withDev fun d => d.strRing c.val k.num completion v.toNat) :=
  devOnly_next_of s (Dev.hostWrite_open h _)

/-- Settles O13: each of the two ring registers is set where its ring fits, and the write is dropped where not. -/
theorem streamRingsSetUp : Obligations.StreamRingsSetUp := by
  intro s c k v h
  have commands := s.dev.strRing_commands c.val k.num v.toNat
  have completions := s.dev.strRing_completions c.val k.num v.toNat
  refine ⟨fun hr => ?_, fun hr => ?_, fun hr => ?_, fun hr => ?_⟩ <;>
    refine (exec_strRingWrite h c k _ v).trans (congrArg _ (s.withDev_congr ?_))
  · exact commands.trans (if_pos hr)
  · exact completions.trans (if_pos hr)
  · exact commands.trans (if_neg hr)
  · exact completions.trans (if_neg hr)

/-! ### ENABLE (R203, R394, R476) -/

/-- A 1 written to ENABLE is dropped now: step 7 has not ended, or a restore is not resumed. -/
abbrev Dev.barsEnable (d : Dev) (on : Bool) : Prop := on = true ∧ (d.start.step ≤ 7 ∨ 3 ≤ d.sec.phase)

theorem Dev.enableStream_eq (d : Dev) (c k : Nat) (on : Bool) :
    d.enableStream c k on = if d.barsEnable on then d.streamConfig (strOffset c k 0x10)
      else d.setStream c k fun t => { t with enable := on } := by
  refine if_congr ?_ rfl rfl
  simp [Dev.barsEnable]

theorem exec_streamEnable {s : State} (h : 4 ≤ s.dev.start.step) (c : Fin 128) (k : StreamName) (on : Bool) :
    exec (.streamEnable c k on) s = .next (s.withDev fun d => d.enableStream c.val k.num on) :=
  devOnly_next_of s (by rw [if_pos (Dev.hostEarly_of h)])

/-- Of its stream a write of ENABLE changes that bit, where it is taken. -/
theorem Dev.enableStream_stream (d : Dev) (c k : Nat) (on : Bool) :
    (d.enableStream c k on).stream c k =
      { d.stream c k with enable := if d.barsEnable on then (d.stream c k).enable else on } := by
  rw [Dev.enableStream_eq]
  split
  · simp [Dev.stream]
  · exact d.stream_setStream c k _

theorem Dev.enableStream_mar (d : Dev) (c k : Nat) (on : Bool) : (d.enableStream c k on).mar = d.mar := by
  unfold Dev.enableStream
  split <;> simp

/-! ### CANCEL (R203, R207, R238) -/

theorem Dev.heat_mem {d : Dev} {h : HeatId} {x : Heat} (hx : d.heat h = some x) : x ∈ d.mar.heats := List.mem_of_find?_eq_some hx

/-- Every entry of `e` was one of `d`, in the state that it had there. -/
def Dev.sameStates (d e : Dev) : Prop := ∀ y ∈ e.mar.heats, ∃ x ∈ d.mar.heats, x.id = y.id ∧ x.state = y.state

theorem Dev.sameStates_of_heats {d e : Dev} (h : e.mar.heats = d.mar.heats) : d.sameStates e :=
  fun y hy => ⟨y, h ▸ hy, rfl, rfl⟩

theorem Dev.unclaimSlot_sameStates (d : Dev) (g : Nat) : d.sameStates (d.unclaimSlot g) := by
  unfold Dev.unclaimSlot
  dsimp only
  split
  · intro y hy
    obtain ⟨x, hx, rfl⟩ := List.mem_map.mp hy
    exact ⟨x, hx, by split <;> rfl, by split <;> rfl⟩
  · exact Dev.sameStates_of_heats rfl

theorem Dev.foldl_unclaimSlot_sameStates (l : List Nat) (d : Dev) : d.sameStates (l.foldl Dev.unclaimSlot d) :=
  foldl_inv (fun e => d.sameStates e) _ (fun e g he y hy => by
    obtain ⟨x, hx, hid, hst⟩ := e.unclaimSlot_sameStates g y hy
    obtain ⟨z, hz, hid', hst'⟩ := he x hx
    exact ⟨z, hz, hid'.trans hid, hst'.trans hst⟩) l d (Dev.sameStates_of_heats rfl)

/-- After a heat is cancelled an entry is CANCELLING, or was another's and keeps its state (R238). -/
theorem Dev.mem_cancelHeat {d : Dev} {a : Heat} {chain : Bool} {y : Heat} (hy : y ∈ (d.cancelHeat a chain).mar.heats)
    (hs : y.state ≠ .cancelling) :
    ∃ x ∈ d.mar.heats, x.id = y.id ∧ x.state = y.state ∧ ¬ (a.id = x.id ∧ a.state = x.state) := by
  -- a waiting or armed heat's entry is freed
  have freed {e : Dev} (he : e.mar.heats = d.mar.heats) (hm : y ∈ (e.freeEntry a.id).mar.heats) :
      ∃ x ∈ d.mar.heats, x.id = y.id ∧ x.state = y.state ∧ ¬ (a.id = x.id ∧ a.state = x.state) := by
    rw [Dev.freeEntry_heats, List.mem_filter, he] at hm
    exact ⟨y, hm.1, rfl, rfl, fun h => by simp [h.1] at hm⟩
  have dead : (d.markDead a.id chain).mar.heats = d.mar.heats := by simp
  unfold Dev.cancelHeat at hy
  cases ha : a.state with
  | cancelling =>
    simp only [ha, dead] at hy
    exact ⟨y, hy, rfl, rfl, fun h => hs h.2.symm⟩
  | running =>
    simp only [ha] at hy
    obtain ⟨z, hz, rfl⟩ := List.mem_map.mp hy
    by_cases hid : z.id = a.id
    · exact absurd (by simp [hid]) hs
    · simp only [hid, beq_iff_eq, if_false] at hs ⊢
      have hz' : z ∈ (a.claims.foldl Dev.unclaimSlot (d.markDead a.id chain)).mar.heats := by simpa using hz
      obtain ⟨x, hx, hxid, hxs⟩ := Dev.foldl_unclaimSlot_sameStates a.claims _ z hz'
      exact ⟨x, dead ▸ hx, hxid, hxs, fun h => hid (hxid.symm.trans h.1.symm)⟩
  | armed =>
    simp only [ha] at hy
    rw [← ha]
    exact freed (by simp) hy
  | _ =>
    simp only [ha] at hy
    rw [← ha]
    exact freed dead hy

/-- Of a list that is cancelled no heat is left but as CANCELLING. -/
theorem Dev.mem_foldl_cancelHeat {l : List Heat} {chain : Bool} {d : Dev} {y : Heat}
    (hy : y ∈ (l.foldl (fun d a => d.cancelHeat a chain) d).mar.heats) (hs : y.state ≠ .cancelling) :
    ∃ x ∈ d.mar.heats, x.id = y.id ∧ x.state = y.state ∧ ∀ a ∈ l, ¬ (a.id = x.id ∧ a.state = x.state) := by
  induction l generalizing d with
  | nil => exact ⟨y, hy, rfl, rfl, fun _ => nofun⟩
  | cons a l ih =>
    obtain ⟨z, hz, hzid, hzs, hl⟩ := ih hy
    obtain ⟨x, hx, hxid, hxs, ha⟩ := Dev.mem_cancelHeat hz (hzs ▸ hs)
    refine ⟨x, hx, hxid.trans hzid, hxs.trans hzs, List.forall_mem_cons.mpr ⟨ha, ?_⟩⟩
    rwa [hxid, hxs]

/-- Every heat of a stream is CANCELLING. -/
def Dev.quits (d : Dev) (c k : Nat) : Prop := ∀ x ∈ d.streamHeats c k, x.state = .cancelling

theorem Dev.quits_of_heats {d e : Dev} {c k : Nat} (h : d.quits c k) (he : e.mar.heats = d.mar.heats) : e.quits c k := by
  intro x hx
  refine h x ?_
  rwa [Dev.streamHeats, he] at hx

theorem Dev.mem_streamHeats {d : Dev} {c k : Nat} {x : Heat} :
    x ∈ d.streamHeats c k ↔ x ∈ d.mar.heats ∧ x.id.cluster.val = c ∧ x.id.stream.num = k := by
  simp [Dev.streamHeats, List.mem_filter]

theorem Dev.cancelHeat_quits {d : Dev} {c k : Nat} (h : d.quits c k) (a : Heat) (chain : Bool) :
    (d.cancelHeat a chain).quits c k := by
  intro y hy
  obtain ⟨hmem, hc, hk⟩ := Dev.mem_streamHeats.mp hy
  by_contra hs
  obtain ⟨x, hx, hid, hst, -⟩ := Dev.mem_cancelHeat hmem hs
  exact hs (hst ▸ h x (Dev.mem_streamHeats.mpr ⟨hx, hid ▸ hc, hid ▸ hk⟩))

/-- The chain cancels, so it brings no heat back. -/
theorem Dev.chainRun_quits {c k : Nat} (n j : Nat) {d : Dev} (h : d.quits c k) : (d.chainRun n j).quits c k := by
  induction n generalizing d with
  | zero => exact h
  | succ n ih =>
    rw [Dev.chainRun]
    split
    · exact h
    · exact ih (Dev.cancelHeat_quits h _ _)

/-- Judging the heats that wait touches no stream whose heats are all CANCELLING. -/
theorem Dev.settle_quits {d : Dev} {c k : Nat} (h : d.quits c k) : d.settle.quits c k := by
  have judged (e : Dev) (he : e.quits c k) (g : Heat) (hg : g ∈ e.mar.heats) : (e.settleOne g).quits c k := by
    obtain ⟨⟨f, hf, heats⟩, idle⟩ := e.settleOne_heats g
    by_cases hw : g.state = .waiting
    · intro y hy
      obtain ⟨hmem, hc, hk⟩ := Dev.mem_streamHeats.mp hy
      rw [heats] at hmem
      obtain ⟨x, hx, rfl⟩ := List.mem_map.mp hmem
      by_cases hid : x.id = g.id
      · simp only [hid, beq_self_eq_true, if_true, (hf x hid).1] at hc hk
        simp [he g (Dev.mem_streamHeats.mpr ⟨hg, hc, hk⟩)] at hw
      · simp only [hid, beq_iff_eq, if_false] at hc hk ⊢
        exact he x (Dev.mem_streamHeats.mpr ⟨hx, hc, hk⟩)
    · rwa [idle hw]
  show ∀ x ∈ d.settle.mar.heats.filter _, _
  simp only [Dev.settle, Dev.noteG_frame]
  refine foldl_inv (fun e => e.quits c k) _ (fun e g he => ?_) _ d h
  split
  · rename_i x hx
    exact judged e he x (Dev.heat_mem hx)
  · exact he

/-- Where all heats of a stream are cancelled, each that is left is CANCELLING, and stays so along the chain. -/
theorem Dev.cancelAll_quits (d : Dev) (n c k : Nat) : (d.cancelAll n (d.streamHeats c k) true).quits c k := by
  refine Dev.settle_quits (Dev.chainRun_quits _ n fun y hy => ?_)
  obtain ⟨hmem, hc, hk⟩ := Dev.mem_streamHeats.mp hy
  by_contra hs
  obtain ⟨x, hx, hid, -, hl⟩ := Dev.mem_foldl_cancelHeat hmem hs
  exact hl x (Dev.mem_streamHeats.mpr ⟨hx, hid ▸ hc, hid ▸ hk⟩) ⟨rfl, rfl⟩

/-- A stream that fetches no more of what its ring holds: the commands up to TAIL are cancelled unfetched. -/
def Dev.stopAtTail (d : Dev) (c k : Nat) : Dev :=
  let n := ((d.stream c k).tail - (d.stream c k).fetch).toNat
  d.setStream c k fun t => { t with
    fetch := (d.stream c k).tail
    dead := (t.dead.map fun x => (x.1, x.2.1, true)) ++ (if n == 0 then [] else [((d.stream c k).fetch, n, true)]) }

/-- A host CANCEL up to the end of the chain. -/
def Dev.cancelStream (d : Dev) (c k : Nat) : Dev :=
  (d.stopAtTail c k).cancelAll c ((d.stopAtTail c k).streamHeats c k) true

theorem Dev.hostCancel_eq (d : Dev) (c k : Nat) : d.hostCancel c k =
    if NSet.has (d.cancelStream c k).flt.halted c then d.cancelStream c k
    else (d.cancelStream c k).setStream c k fun t => { t with halt := 0 } := rfl

theorem Dev.cancelStream_stream (d : Dev) (c k : Nat) : ∃ l,
    (d.cancelStream c k).stream c k = { d.stream c k with fetch := (d.stream c k).tail, dead := l } := by
  obtain ⟨l, hl⟩ := (d.stopAtTail c k).cancelAll_stream c ((d.stopAtTail c k).streamHeats c k) true c k
  exact ⟨l, hl.trans (by rw [Dev.stopAtTail, Dev.stream_setStream])⟩

/-- The stream after a host CANCEL. -/
theorem Dev.hostCancel_stream (d : Dev) (c k : Nat) : ∃ l, (d.hostCancel c k).stream c k = { d.stream c k with
    fetch := (d.stream c k).tail, dead := l
    halt := if NSet.has d.flt.halted c then (d.stream c k).halt else 0 } := by
  obtain ⟨l, hl⟩ := d.cancelStream_stream c k
  have flt : (d.cancelStream c k).flt = d.flt := by simp [Dev.cancelStream, Dev.stopAtTail]
  refine ⟨l, ?_⟩
  rw [Dev.hostCancel_eq, flt]
  split
  · exact hl
  · rw [Dev.stream_setStream, hl]

theorem Dev.hostCancel_quits (d : Dev) (c k : Nat) : (d.hostCancel c k).quits c k := by
  have cancelled : (d.cancelStream c k).quits c k := (d.stopAtTail c k).cancelAll_quits c c k
  rw [Dev.hostCancel_eq]
  split
  · exact cancelled
  · exact Dev.quits_of_heats cancelled (by simp)

/-- A host CANCEL leaves the start-up and the securing alone. -/
theorem Dev.hostCancel_frame (d : Dev) (c k : Nat) :
    (d.hostCancel c k).start = d.start ∧ (d.hostCancel c k).sec = d.sec := by
  have start : (d.cancelStream c k).start = d.start := by simp [Dev.cancelStream, Dev.stopAtTail]
  have sec : (d.cancelStream c k).sec = d.sec := by simp [Dev.cancelStream, Dev.stopAtTail]
  rw [Dev.hostCancel_eq]
  split
  · exact ⟨start, sec⟩
  · simp [start, sec]

theorem exec_hostCancel {s : State} (h : 6 ≤ s.dev.start.step) (c : Fin 128) (k : StreamName) (on : Bool) :
    exec (.hostCancel c k on) s =
      .next (s.withDev fun d => (d.hostCancel c.val k.num).enableStream c.val k.num on) :=
  devOnly_next_of s (Dev.hostWrite_open h _)

/-- Settles O11: the write of ENABLE by its own equation; and after a CANCEL the stream holds what `Dev.hostCancel_stream`
says, with the ENABLE bit judged as the write of it is, and its heats have all quit. -/
theorem streamControlWrites : Obligations.StreamControlWrites := by
  refine ⟨fun s c k on h => ?_, fun s c k on h => ?_⟩
  · have outcome := s.dev.enableStream_eq c.val k.num on
    refine ⟨fun ho => ?_, fun hon hb => ?_⟩ <;>
      refine (exec_streamEnable h c k on).trans (congrArg _ (s.withDev_congr ?_))
    · refine outcome.trans (if_neg ?_)
      rintro ⟨hon, hb⟩
      rcases ho with hoff | ⟨hstep, hphase⟩
      · simp [hon] at hoff
      · omega
    · exact outcome.trans (if_pos ⟨hon, hb⟩)
  · obtain ⟨l, hl⟩ := s.dev.hostCancel_stream c.val k.num
    obtain ⟨start, sec⟩ := s.dev.hostCancel_frame c.val k.num
    have stream := (s.dev.hostCancel c.val k.num).enableStream_stream c.val k.num on
    have quits : ((s.dev.hostCancel c.val k.num).enableStream c.val k.num on).quits c.val k.num :=
      Dev.quits_of_heats (s.dev.hostCancel_quits c.val k.num) (by rw [Dev.enableStream_mar])
    simp only [Dev.barsEnable, start, sec, hl] at stream
    exact ⟨_, exec_hostCancel h c k on, rfl, (congrArg Stream.fetch stream :), (congrArg Stream.tail stream :),
      (congrArg Stream.enable stream :), (congrArg Stream.halt stream :), quits⟩

end Sys2Proof.Machine
end

section
/-! THE MARSHAL: fetching (R208, R228), and heats that end with their completion record (R201, R226, R238). -/

namespace Sys2Proof.Machine

variable {s : State} {h : HeatId} {x : Heat}

/-! ### FETCH (R208, R228) -/

/-- A rejected command: its stream halts with cause 0x2 at it. -/
def Dev.reject (d : Dev) (c k : Nat) (i : W32) (r : Rec) : Dev := ((d.halt c k 2 i).raise r).notify c k .fault

theorem Dev.reject_stream {d : Dev} {c k : Nat} (hh : (d.stream c k).halt = 0) (i : W32) (r : Rec) :
    (d.reject c k i r).stream c k = { d.stream c k with halt := 2, haltIdx := i } := by
  have halted : (d.halt c k 2 i).stream c k = { d.stream c k with halt := 2, haltIdx := i } := by
    simp only [Dev.halt, hh, beq_self_eq_true, if_true]
    exact (congrArg (fun m => AMap.get Stream.zero m (strKey c k)) (Dev.msix_streams _ _)).trans
      (d.stream_setStream c k fun t => { t with halt := 2, haltIdx := i })
  rw [← halted]
  simp [Dev.reject, Dev.stream]

theorem Dev.settle_stream (d : Dev) (c k : Nat) : d.settle.stream c k = d.stream c k := by
  simp [Dev.stream]

/-- A decoded command: it enters the scoreboard, FETCH moves on, and the chain of R207 may reach it at once. -/
def Dev.enter (d : Dev) (c k : Nat) (x : Heat) : Dev :=
  let d := { d with mar := { d.mar with heats := d.mar.heats ++ [x] } }.learnRoutes x.body
  let d := d.setStream c k fun t => { t with fetch := t.fetch + 1 }
  if d.chained x then (d.cancelHeat x true).settle else d.settle

theorem Dev.enter_fetch (d : Dev) (c k : Nat) (x : Heat) :
    ((d.enter c k x).stream c k).fetch = (d.stream c k).fetch + 1 := by
  have moved (e : Dev) (he : e.streams = d.streams) :
      ((e.setStream c k fun t => { t with fetch := t.fetch + 1 }).stream c k).fetch = (d.stream c k).fetch + 1 := by
    rw [Dev.stream_setStream, Dev.stream, he]
    rfl
  have known := Dev.learnRoutes_streams x.body { d with mar := { d.mar with heats := d.mar.heats ++ [x] } }
  unfold Dev.enter
  dsimp only
  split
  · rw [Dev.settle_stream]
    obtain ⟨l, hl⟩ := Dev.cancelHeat_stream _ x true c k
    rw [hl]
    exact moved _ known
  · rw [Dev.settle_stream]
    exact moved _ known

/-- The outcome of a decode: the command is taken in or rejected. -/
theorem Wk.fetchFrom_ok {w : Wk} {c : Fin 128} {k : Nat}
    (hx : decodeCommand w.mem w.dev c k (w.dev.stream c.val k).fetch
      (w.bytes ((w.dev.stream c.val k).slot (w.dev.stream c.val k).fetch) 64) = .ok x) :
    w.fetchFrom c k = w.up fun d => d.enter c.val k x := by
  simp only [Wk.fetchFrom, Wk.up, hx]
  rfl

theorem Wk.fetchFrom_error {w : Wk} {c : Fin 128} {k : Nat} {f : Fail}
    (hf : decodeCommand w.mem w.dev c k (w.dev.stream c.val k).fetch
      (w.bytes ((w.dev.stream c.val k).slot (w.dev.stream c.val k).fetch) 64) = .error f) :
    ∃ r, w.fetchFrom c k = w.up fun d => d.reject c.val k (w.dev.stream c.val k).fetch r := by
  simp only [Wk.fetchFrom, Wk.up, hf]
  exact ⟨_, rfl⟩

/-- A fetch changes the block alone. -/
theorem Wk.fetchFrom_up (w : Wk) (c : Fin 128) (k : Nat) : ∃ f, w.fetchFrom c k = w.up f := by
  unfold Wk.fetchFrom
  exact ⟨_, rfl⟩

/-- The rotation goes on with the stream after `k`. -/
def Dev.rotate (d : Dev) (c k : Nat) : Dev :=
  { d with mar := { d.mar with rotation := AMap.set 0 d.mar.rotation c ((k + 1) % 3) } }

theorem Dev.rotate_stream (d : Dev) (c k j i : Nat) : (d.rotate c k).stream j i = d.stream j i := rfl

theorem exec_fetch {c : Fin 128} {k : Nat}
    (hk : [AMap.get 0 s.dev.mar.rotation c.val % 3, (AMap.get 0 s.dev.mar.rotation c.val + 1) % 3,
      (AMap.get 0 s.dev.mar.rotation c.val + 2) % 3].find? (s.dev.mayFetch c.val) = some k) :
    exec (.fetch c) s = .next (s.after ((s.work.fetchFrom c k).up fun d => d.rotate c.val k)) :=
  done_next_of s (by simp only [State.work, hk]; rfl)

/-- Settles O14: the command that is decoded is taken in or rejected, and the rotation goes on. -/
theorem fetchTakesOneCommand : Obligations.FetchTakesOneCommand := by
  intro s c k r q hk
  have may := List.find?_some hk
  have hh : (s.dev.stream c.val k).halt = 0 := by
    simp only [Dev.mayFetch, Bool.and_eq_true, beq_iff_eq] at may
    exact may.1.2
  obtain ⟨f, hf⟩ := s.work.fetchFrom_up c k
  refine ⟨_, exec_fetch hk, by rw [hf]; rfl, ?_, fun x hx => ?_, fun f hf => ?_⟩
  · rw [State.after_dev, Wk.dev_up, Dev.rotate, AMap.get_set_same]
  · rw [State.after_dev, Wk.dev_up, Dev.rotate_stream, Wk.fetchFrom_ok (w := s.work) hx, Wk.dev_up]
    exact s.dev.enter_fetch c.val k x
  · obtain ⟨r, hr⟩ := Wk.fetchFrom_error (w := s.work) hf
    rw [State.after_dev, Wk.dev_up, Dev.rotate_stream, hr, Wk.dev_up, Dev.reject_stream (d := s.work.dev) hh]
    exact ⟨rfl, rfl, rfl⟩

/-! ### Completion records (R226) -/

/-- Bytes that stand in memory one by one are read together. -/
theorem Mem.bytes_of_byte {m : Mem} {l : List Byte} {a : Nat} (h : ∀ i, i < l.length → m.byte (a + i) = l.getD i memInit) :
    m.bytes a l.length = l := by
  induction l generalizing a with
  | nil => rfl
  | cons b l ih =>
    rw [List.length_cons, Mem.bytes]
    congr 1
    · simpa using h 0 (Nat.succ_pos _)
    · refine ih fun i hi => ?_
      have := h (i + 1) (Nat.succ_lt_succ hi)
      rwa [Nat.add_comm i, ← Nat.add_assoc, Nat.add_comm 1, List.getD_cons_succ] at this

theorem Wk.bytes_put (w : Wk) (a : Nat) (l : List Byte) : (w.put a l).mem.bytes a l.length = l := by
  refine Mem.bytes_of_byte fun i hi => ?_
  rw [Wk.byte_put, if_pos ⟨Nat.le_add_right a i, Nat.add_lt_add_left hi a⟩, Nat.add_sub_cancel_left]

theorem Dev.recordPlace_eq_some {d : Dev} {p : Nat} (hp : d.recordPlace x = some p) :
    let t := d.stream x.id.cluster.val x.id.stream.num
    x.cpl = true ∧ t.cplSize ≠ 0 ∧ p = bits t.cplReg.toNat 47 12 * 4096 + t.cplTail.toNat % t.cplSize * 16 := by
  unfold Dev.recordPlace at hp
  dsimp only at hp
  split at hp
  · rename_i hc
    simp only [Bool.and_eq_true, bne_iff_ne] at hc
    exact ⟨hc.1, hc.2, (Option.some.inj hp).symm⟩
  · cases hp

/-- The completion record stands in its place, with the phase of the round that its ring is in (R226). -/
theorem Wk.complete_bytes {w : Wk} {p : Nat} (hp : w.dev.recordPlace x = some p) (n : Nat) :
    let t := w.dev.stream x.id.cluster.val x.id.stream.num
    (w.complete x n).mem.bytes p 16 = cplBytes w.dev x n (t.cplTail.toNat / t.cplSize % 2 == 0) := by
  intro t
  obtain ⟨hc, hn, rfl⟩ := Dev.recordPlace_eq_some hp
  have told (v : Wk) (f : Wk → Wk) (hf : ∀ v, (f v).mem = v.mem) : (v.ite x.irq f).mem = v.mem := by
    unfold Wk.ite
    split
    · exact hf v
    · rfl
  have length := cplBytes_length w.dev x n (t.cplTail.toNat / t.cplSize % 2 == 0)
  simp only [Wk.complete, hc, Bool.not_true, Bool.false_eq_true, if_false, beq_iff_eq, hn]
  rw [told _ _ fun v => Wk.mem_up v _, Wk.mem_up, ← length]
  exact Wk.bytes_put w _ _

theorem exec_heatRetire (hx : s.dev.heat h = some x) (hr : x.state = .running) (hd : x.done = true)
    (hq : ∀ r ∈ s.dev.hbm.reqs, r.isOf x = false) (hf : s.dev.heatFrames h = 0) :
    exec (.heatRetire h) s = .next (s.after (s.work.retire x)) := by
  have idle : (s.dev.hbm.reqs.any fun r => r.isOf x) = false := List.any_eq_false.mpr fun r m => by simp [hq r m]
  exact done_next_of s (by simp [State.work, hx, hr, hd, idle, hf])

/-- A cancelled heat whose writes are acknowledged: its record, its entry and what waited on them (R238). -/
def Wk.cancelled (w : Wk) (x : Heat) : Wk :=
  (w.complete x 1).up fun d => ((d.freeEntry x.id).settle).report x.id.cluster.val

theorem exec_cancelComplete (hx : s.dev.heat h = some x) (hc : x.state = .cancelling) (hw : s.dev.heatWrites h = []) :
    exec (.cancelComplete h) s = .next (s.after (s.work.cancelled x)) := by
  obtain rfl : x.id = h := Dev.heat_id hx
  exact done_next_of s (by simp [State.work, hx, hc, hw]; rfl)

/-- The command leaves no entry of the heat, its record where one is due, and every other byte (R226, R238). -/
def LeavesRecord (s : State) (h : HeatId) (x : Heat) (status : Nat) (o : Host.Outcome State Fault Refusal) : Prop :=
  let q := s.dev.stream x.id.cluster.val x.id.stream.num
  ∃ t, o = .next t ∧ t.dev.heat h = none ∧
    (∀ p, s.dev.recordPlace x = some p →
      t.mem.bytes p 16 = cplBytes s.dev x status (q.cplTail.toNat / q.cplSize % 2 == 0)) ∧
    ∀ a, (∀ p, s.dev.recordPlace x = some p → beyond p 16 a) → t.mem.byte a = s.mem.byte a

theorem Wk.retire_up (w : Wk) (x : Heat) :
    ∃ f, w.retire x = (w.complete x (if x.skipped then 2 else if x.faulted then 3 else 0)).up f := by
  unfold Wk.retire
  exact ⟨_, rfl⟩

/-- After the record only the block changes, until the entry is gone. -/
theorem leavesRecord_of_complete {w : Wk} {n : Nat} {f : Dev → Dev} (hw : w = (s.work.complete x n).up f)
    (hgone : w.dev.heat h = none) : LeavesRecord s h x n (.next (s.after w)) := by
  have mem : (s.after w).mem = (s.work.complete x n).mem := by
    rw [State.after_mem s w (by rw [hw, Wk.base_up, Wk.complete_base]; rfl), hw, Wk.mem_up]
  refine ⟨_, rfl, hgone, fun p hp => ?_, fun a ha => ?_⟩
  · rw [mem]
    exact Wk.complete_bytes (w := s.work) hp n
  · rw [mem]
    exact Wk.complete_mem s.work x n a (Dev.notAt_of_beyond ha)

theorem Wk.cancelled_heat (w : Wk) (x : Heat) : (w.cancelled x).dev.heat x.id = none := by
  rw [Wk.cancelled, Wk.dev_up, Dev.report_heat, Dev.settle_heat_none]
  exact Dev.freeEntry_heat _ _

/-- Settles O16: a heat that retires and one whose cancellation completes write their record and go. -/
theorem endedHeatsLeave : Obligations.EndedHeatsLeave := by
  refine ⟨fun s h x hx hr hd hq hf => ?_, fun s h x hx hc hw => ?_⟩ <;> obtain rfl : x.id = h := Dev.heat_id hx
  · obtain ⟨f, he⟩ := s.work.retire_up x
    rw [exec_heatRetire hx hr hd hq hf]
    exact leavesRecord_of_complete he (s.work.retire_heat x)
  · rw [exec_cancelComplete hx hc hw]
    exact leavesRecord_of_complete rfl (s.work.cancelled_heat x)

end Sys2Proof.Machine
end

section
/-! CONTROL COMMANDS: those that retire in the cycle of their dispatch (R209, R220, R223, R255, R310), and hurdles (R222). -/

namespace Sys2Proof.Machine

variable {s : State} {h : HeatId} {x : Heat} {w : Wk}

/-! ### Dispatch and retirement in one cycle (R220, R229) -/

theorem Wk.withDirect_of (hx : s.dev.opens h x) (f : Heat → Wk → Wk) : s.work.withDirect h f = f x s.work := by
  obtain ⟨hx, ho⟩ := hx
  have hx' : s.work.dev.heat h = some x := hx
  have ho' : s.work.dev.directOpen x = true := ho
  simp only [Wk.withDirect, hx', ho', if_true]

theorem Wk.retireAtOnce_of (hx : w.dev.heat h = some x) : w.retireAtOnce h = w.retire x := by
  simp only [Wk.retireAtOnce, hx]

theorem Wk.retire_signals (w : Wk) (x : Heat) : (w.retire x).dev.mar.signals = w.dev.mar.signals := by
  obtain ⟨mar, -⟩ := Wk.complete_frame w x (if x.skipped then 2 else if x.faulted then 3 else 0)
  unfold Wk.retire
  dsimp only [Wk.dev_up]
  split <;> simp [mar]

/-- The heat has no entry in `t`, and every byte is as in `s` but for its completion record. -/
def RetiredIn (s : State) (h : HeatId) (x : Heat) (t : State) : Prop :=
  t.dev.heat h = none ∧ ∀ a, (∀ p, s.dev.recordPlace x = some p → beyond p 16 a) → t.mem.byte a = s.mem.byte a

/-- A heat that retires after a change of the block that leaves the streams and the heat itself. -/
theorem retiredIn_of_retireAtOnce (hx : s.dev.heat h = some x) {f : Dev → Dev} (hf : (f s.dev).heat h = some x)
    (hs : (f s.dev).streams = s.dev.streams) : RetiredIn s h x (s.after ((s.work.up f).retireAtOnce h)) := by
  rw [Wk.retireAtOnce_of hf]
  exact Wk.retire_leaves s h x (Dev.heat_id hx) (s.work.up f) rfl rfl hs

/-! ### NO_OPERATION, WAIT and SIGNAL (R209, R220) -/

theorem exec_noOperation (hx : s.dev.opens h x) (hb : x.body = .nop) :
    exec (.noOperation h) s = .next (s.after (s.work.retireAtOnce h)) :=
  done_next_of s (by rw [Wk.withDirect_of hx]; simp only [hb])

theorem exec_wait (hx : s.dev.opens h x) {ctr : Nat} {v : W32} (hb : x.body = .wait ctr v)
    (hv : notAfter v (AMap.get 0 s.dev.mar.signals (s.dev.signalKey h.cluster.val ctr)) = true) :
    exec (.wait h) s = .next (s.after (s.work.retireAtOnce h)) := by
  have hv' : notAfter v (AMap.get 0 s.work.dev.mar.signals (s.work.dev.signalKey h.cluster.val ctr)) = true := hv
  exact done_next_of s (by rw [Wk.withDirect_of hx]; simp only [hb, hv', if_true])

/-- The block as a signal leaves it before the signal retires (R46, R220). -/
def Dev.signalled (d : Dev) (key : Nat) (mark : Bool) (add : W32) : Dev :=
  let d := { d with mar := { d.mar with signals := AMap.upd 0 d.mar.signals key (· + add) } }
  if mark then d.stepMarker else d

theorem Dev.signalled_mar (d : Dev) (key : Nat) (mark : Bool) (add : W32) :
    (d.signalled key mark add).mar = { d.mar with signals := AMap.upd 0 d.mar.signals key (· + add) } := by
  unfold Dev.signalled
  dsimp only
  split <;> rfl

theorem Dev.signalled_heat (d : Dev) (key : Nat) (mark : Bool) (add : W32) (h : HeatId) :
    (d.signalled key mark add).heat h = d.heat h := by
  rw [Dev.heat, Dev.signalled_mar]
  rfl

theorem Dev.signalled_streams (d : Dev) (key : Nat) (mark : Bool) (add : W32) :
    (d.signalled key mark add).streams = d.streams := by
  unfold Dev.signalled
  dsimp only
  split <;> rfl

theorem exec_signal (hx : s.dev.opens h x) {ctr : Nat} {mark : Bool} {add : W32} (hb : x.body = .signal ctr mark add) :
    exec (.signal h) s = .next (s.after ((s.work.up fun d =>
      d.signalled (d.signalKey h.cluster.val ctr) mark add).retireAtOnce h)) :=
  done_next_of s (by
    rw [Wk.withDirect_of hx]
    simp only [hb]
    cases mark <;> rfl)

/-- Settles O18: each of the three retires where it is dispatched, a signal after it has added to its counter. -/
theorem controlCommandsRetire : Obligations.ControlCommandsRetire := by
  intro s h x hx
  have here : RetiredIn s h x (s.after (s.work.retireAtOnce h)) := retiredIn_of_retireAtOnce (f := id) hx.1 hx.1 rfl
  refine ⟨fun hb => ⟨_, exec_noOperation hx hb, here⟩, fun ctr v hb hv => ⟨_, exec_wait hx hb hv, here⟩,
    fun ctr mark add hb => ?_⟩
  have heat := (s.dev.signalled_heat (s.dev.signalKey h.cluster.val ctr) mark add h).trans hx.1
  refine ⟨_, exec_signal hx hb, retiredIn_of_retireAtOnce hx.1 heat (Dev.signalled_streams ..), ?_⟩
  rw [State.after_dev, Wk.retireAtOnce_of heat, Wk.retire_signals, Wk.dev_up, Dev.signalled_mar, AMap.get_upd]
  exact if_pos rfl

/-! ### HURDLE, CANCEL and RELAY_RECEIVE (R222, R223, R310) -/

theorem exec_hurdle (hx : s.dev.heat h = some x) {data : Option (Nat × Nat)} {kind : Nat} {hseq : W32} {npart : Nat}
    (hb : x.body = .hurdle data kind hseq npart) (ha : s.dev.mayArm x = true) : exec (.hurdle h) s =
      .next (s.withDev fun d => d.setHeat h fun x => { x with state := .armed, reserved := x.cpl }) :=
  devOnly_next_of s (by simp only [hx, hb, ha, if_true])

theorem exec_cancel (hx : s.dev.opens h x) {byId : Bool} {streams : Nat} {target : W32}
    (hb : x.body = .cancel byId streams target) : exec (.cancel h) s = .next (s.after ((s.work.up fun d =>
      d.cancelAll h.cluster.val (d.cancelTargets h byId streams target) true).retireAtOnce h)) :=
  done_next_of s (by rw [Wk.withDirect_of hx]; simp only [hb])

theorem exec_relayReceive (hx : s.dev.opens h x) {r : Route} (hb : x.body = .relayReceive r)
    (hr : notAfter r.expect (AMap.get 0 s.dev.rly.land r.tag) = true) :
    exec (.relayReceive h) s = .next (s.after (s.work.retire x).retryBlocked) := by
  obtain ⟨hx, ho⟩ := hx
  have hx' : s.work.dev.heat h = some x := hx
  have due : (s.work.dev.directOpen x && (x.skipped || notAfter r.expect (AMap.get 0 s.work.dev.rly.land r.tag))) = true := by
    rw [Bool.and_eq_true, Bool.or_eq_true]
    exact ⟨ho, .inr hr⟩
  exact done_next_of s (by simp only [hx', hb, due, if_true, Wk.retireAtOnce_of hx'])

/-! ### VERSION_PIN (R255) -/

theorem Dev.waits_of_directOpen {d : Dev} (ho : d.directOpen x = true) : x.state = .waiting ∧ d.depsMet x = true := by
  simp only [Dev.directOpen, Bool.and_eq_true, beq_iff_eq] at ho
  exact ⟨ho.1.1.1, ho.1.2⟩

theorem exec_versionPin (hx : s.dev.opens h x) {k : Nat} {v : W32} (hb : x.body = .pin k v) :
    exec (.versionPin h) s = .next (s.after (s.work.judgePin x k v)) := by
  obtain ⟨hx, ho⟩ := hx
  obtain ⟨hw, hd⟩ := Dev.waits_of_directOpen ho
  have hx' : s.work.dev.heat h = some x := hx
  have hd' : s.work.dev.depsMet x = true := hd
  exact done_next_of s (by simp only [hx', hb, hw, hd', beq_self_eq_true, Bool.and_self, if_true])

/-- A buffer of a weight set is pinned once more (R255). -/
def Dev.pinned (d : Dev) (k b : Nat) : Dev :=
  d.setWset k fun s => { s with used := d.now + 1 }.setBuf b fun x => { x with pins := x.pins + 1, gone := 0 }

theorem WSet.holding_lt {t : WSet} {v : W32} {b : Nat} (hb : t.holding v = some b) : b < t.bufs.length :=
  List.mem_range.mp (List.mem_of_find?_eq_some hb)

/-- A pin counts in its own buffer and in no other. -/
theorem Dev.pinned_pins {d : Dev} {k b : Nat} (hb : b < (d.wset k).bufs.length) (j c : Nat) :
    (((d.pinned k b).wset j).buf c).pins =
      if j = k ∧ c = b then ((d.wset j).buf c).pins + 1 else ((d.wset j).buf c).pins := by
  by_cases hj : j = k
  · subst hj
    rw [Dev.pinned, Dev.wset_setWset]
    refine (congrArg VBuf.pins (WSet.buf_setBuf { d.wset j with used := d.now + 1 } b c _ hb)).trans ?_
    by_cases hc : c = b
    · subst hc
      simp only [and_self, if_true]
      rfl
    · simp only [hc, and_false, if_false]
      rfl
  · rw [Dev.pinned, Dev.wset_setWset_other _ _ hj, if_neg fun h => hj h.1]

/-- A pin that finds its version takes it and retires. -/
theorem Wk.judgePin_held {k : Nat} {v : W32} {b : Nat} (ho : w.dev.directOpen x = true) (hs : x.stale = false)
    (hb : (w.dev.wset k).holding v = some b) (hp : ((w.dev.wset k).buf b).pins < 65535) :
    w.judgePin x k v = (w.up fun d => d.pinned k b).retireAtOnce x.id := by
  simp only [Wk.judgePin, hb, hs, ho, hp, Option.filter, Bool.not_false, if_true, decide_true, Bool.and_self]
  rfl

/-- One whose version is neither held nor still to come is stale. -/
theorem Wk.judgePin_stale {k : Nat} {v : W32} (hs : x.stale = false) (hb : (w.dev.wset k).holding v = none)
    (hv : serialBefore (w.dev.wset k).version v = false) : w.judgePin x k v =
      w.up fun d => (d.raise (versionRec 0x0060 x k v)).setHeat x.id fun x => { x with stale := true } := by
  simp only [Wk.judgePin, hb, hs, hv, Option.filter, Bool.or_self, Bool.false_eq_true, if_false]
  rfl

/-- Settles O19, command by command. -/
theorem otherControlCommands : Obligations.OtherControlCommands := by
  refine ⟨fun s h x data kind hseq npart hx hb ha => exec_hurdle hx hb ha,
    fun s h x byId streams target hx hb => exec_cancel hx hb, fun s h x r hx hb hr => exec_relayReceive hx hb hr,
    fun s h x k v hx hb hs => ⟨fun b hh hp => ?_, fun hh hv => ?_⟩⟩ <;> obtain rfl : x.id = h := Dev.heat_id hx.1
  · have heat : (s.work.up fun d => d.pinned k b).dev.heat x.id = some x := hx.1
    refine ⟨_, exec_versionPin hx hb, ?_, fun j c => ?_⟩ <;>
      rw [State.after_dev, Wk.judgePin_held (w := s.work) hx.2 hs hh hp, Wk.retireAtOnce_of heat]
    · exact Wk.retire_heat _ x
    · rw [Dev.wset, Wk.retire_upd]
      exact Dev.pinned_pins (WSet.holding_lt hh) j c
  · rw [exec_versionPin hx hb, Wk.judgePin_stale (w := s.work) hs hh hv, State.after_up]

end Sys2Proof.Machine
end

section
/-! VECTOR UNIT: vector commands and Spring masks (R216, R218, R230, R244). -/

namespace Sys2Proof.Machine

variable {s : State} {h : HeatId} {x y : Heat} {w : Wk} {st k : Nat} {mk : Wk → Heat → Plan} {p : Part}

/-! ### Last parts that end their heat (R148, R238) -/

/-- A heat that is ended by what its plan knows of it stops, whatever its claims are by then (R238). -/
theorem Dev.endHeat_stops_of {d : Dev} (hy : d.heat x.id = some y) (hr : x.state = .running) :
    ∃ v, (d.endHeat x).heat x.id = some v ∧ v.mayRun = false := by
  have dead : (d.markDead x.id false).heat x.id = some y := by
    rw [← hy]
    simp [Dev.heat]
  obtain ⟨u, hu, -⟩ := Dev.nearHeats_foldl _ Dev.unclaimSlot_near x.claims _ _ _ dead
  have quiet : ((x.claims.foldl Dev.unclaimSlot (d.markDead x.id false)).withdraw x.id).heat x.id = some u := by
    rw [← hu]
    simp [Dev.heat]
  obtain ⟨v, hv, hstate⟩ : ∃ v, (d.cancelHeat x false).heat x.id = some v ∧ v.state = .cancelling := by
    refine ⟨{ u with state := .cancelling, claims := [], staged := [], waits := [] }, ?_, rfl⟩
    simp only [Dev.cancelHeat, hr]
    exact Dev.heat_setHeat_some quiet (by intro; rfl)
  have halted : ((d.cancelHeat x false).halt x.id.cluster.val x.id.stream.num 3 x.id.index).heat x.id = some v := by
    rw [← hv]
    simp [Dev.heat]
  refine ⟨v, ?_, by simp [Heat.mayRun, hstate]⟩
  rw [← Dev.settle_heat_some _ _ v halted (by simp [hstate])]
  simp [Dev.endHeat, Dev.heat]

/-- A last part that has ended its heat is the last that the stage does. -/
theorem SolePart.stage_of_endHeat (hs : SolePart s h x y w st (mk s.work x) p) {z : Heat} (hid : z.id = h)
    (hz : z.state = .running)
    (hr : p.run (w.view h st) (w.begins h st p) = ((w.begins h st p).up fun d => d.endHeat z, false)) :
    s.work.stage mk h st = (w.begins h st p).up fun d => d.endHeat z := by
  subst hid
  obtain ⟨c, hc⟩ := hs.begins_heat
  obtain ⟨v, hv, hstop⟩ := Dev.endHeat_stops_of hc hz
  have ended : ((w.begins z.id st p).up fun d => d.endHeat z).dev.heat z.id = some v := by
    rw [Wk.dev_up]
    exact hv
  exact hs.stage_stops hr ended hstop

/-! ### Parts that write one slot (R230) -/

theorem Steady.steadyFor (hm : Steady mk) (st : Nat) (x : Heat) : SteadyFor mk st x :=
  ⟨fun w z _ => hm.whole w z, fun w w' z _ => hm.temps w z w' x, fun w w' z _ => hm.nos w z w' x⟩

/-- A plan with one part for each of some things that do not depend on how far the command is. -/
theorem steady_of_mapIdx {α : Type} (l : List α) (f : Wk → Heat → Nat → α → Part) (hf : ∀ w x k a, (f w x k a).no = k) :
    Steady fun w x => ⟨l.mapIdx (f w x), true, []⟩ where
  whole _ _ := rfl
  temps _ _ _ _ := rfl
  nos w x w' x' := by
    simp only [List.mapIdx_eq_zipIdx_map, List.map_map]
    exact List.map_congr_left fun a _ => (hf ..).trans (hf ..).symm

theorem vectorPlan_steady (st : Nat) (b : VecBody) : Steady (vectorPlan st b) :=
  steady_of_mapIdx _ (fun w x => b.part x st w.mem) fun _ _ _ _ => rfl

theorem springPlan_steady (st : Nat) (b : SpringBody) : Steady (springPlan st b) :=
  steady_of_mapIdx _ (fun w x => b.part x st w.mem) fun _ _ _ _ => rfl

section

variable {out : Desc} {reads : Nat → List (List Nat) → List Rd} {f : View → Except Unit (List Nat → Datum × Bool)}
  {g : Nat × List (List Nat)} {z : List Nat → Datum × Bool}

theorem slotPart_run_ok {v : Nat → View} (hf : f (v (k + 1)) = .ok z) (w : Wk) :
    (slotPart x st out reads f k g).run v w = w.store x.id (.dma x.id.cluster.val) st k
      (out.piecesOn (v (k + 1)) x.ovf g.2 out.stands z) (out.foldOf (g.2.map z)) false := by
  simp only [slotPart, hf]

theorem slotPart_run_error {v : Nat → View} {e : Unit} (hf : f (v (k + 1)) = .error e) (hy : w.dev.heat x.id = some y) :
    (slotPart x st out reads f k g).run v w = (w.up fun d => d.endHeat y, false) := by
  simp only [slotPart, hf, Wk.up, hy]

/-- A last part that writes one slot stores what its operation gives, and with it the command completes. -/
theorem SolePart.settles_of_slotPart (hm : Steady mk) (hs : SolePart s h x y w 0 (mk s.work x) (slotPart x 0 out reads f k g))
    (ht : (mk s.work x).temps = []) {o : Host.Outcome State Fault Refusal}
    (ho : o = .next (s.after (s.work.stage mk h 0))) (hf : f (w.view h 0 (k + 1)) = .ok z) :
    settles s h w 0 [] (slotPart x 0 out reads f k g) (out.piecesOn (w.view h 0 (k + 1)) x.ovf g.2 out.stands z)
      (out.foldOf (g.2.map z)) false o := by
  obtain rfl : x.id = h := Dev.heat_id hs.goes.1
  exact hs.settles_of_store (hm.steadyFor 0 x) ht (lt_max_of_lt_left Nat.one_pos) ho (Desc.foldOf_plain out _)
    (slotPart_run_ok hf _)

/-- One that finds poison where it may not ends the heat (R148). -/
theorem SolePart.ends_of_slotPart (hs : SolePart s h x y w 0 (mk s.work x) (slotPart x 0 out reads f k g)) {e : Unit}
    (hf : f (w.view h 0 (k + 1)) = .error e) {o : Host.Outcome State Fault Refusal}
    (ho : o = .next (s.after (s.work.stage mk h 0))) :
    ∃ c, (w.begins h 0 (slotPart x 0 out reads f k g)).dev.heat h = some c ∧
      o = .next (s.after ((w.begins h 0 (slotPart x 0 out reads f k g)).up fun d => d.endHeat c)) := by
  obtain rfl : x.id = h := Dev.heat_id hs.goes.1
  obtain ⟨c, hc⟩ := hs.begins_heat
  have run := slotPart_run_error (x := x) (st := 0) (out := out) (reads := reads) (g := g) hf hc
  have stage := hs.stage_of_endHeat (Dev.heat_id hc) (Heat.running_of_mayRun (hs.near.mayRun hs.goes.2)) run
  exact ⟨_, hc, ho.trans (by rw [stage])⟩

end

/-! ### VECTOR and SPRING_MASK (R216, R218) -/

theorem exec_vector (hx : s.dev.goes h x) {b : VecBody} (hb : x.body = .stage (.vector b)) :
    exec (.vector h) s = .next (s.after (s.work.stage (vectorPlan 0 b) h 0)) :=
  done_withHeat s h x hx.1 hx.2 _ _ rfl _ (by simp only [hb])

theorem exec_springMask (hx : s.dev.goes h x) {b : SpringBody} (hb : x.body = .stage (.spring b)) :
    exec (.springMask h) s = .next (s.after (s.work.stage (springPlan 0 b) h 0)) :=
  done_withHeat s h x hx.1 hx.2 _ _ rfl _ (by simp only [hb])

/-- Settles O24: the part of either command that is left writes one slot, by what the operation gives; and a Spring mask
whose key is poisoned has nothing to give. -/
theorem vectorAndSpringStore : Obligations.VectorAndSpringStore := by
  intro s h x y w k g u
  refine ⟨fun b hb hs => ?_, fun b hb hs => ⟨fun hkey => ?_, fun hkey => ?_⟩⟩
  · exact hs.settles_of_slotPart (vectorPlan_steady 0 b) rfl (exec_vector hs.goes hb) rfl
  · exact hs.settles_of_slotPart (springPlan_steady 0 b) rfl (exec_springMask hs.goes hb) (if_neg (ne_true_of_eq_false hkey))
  · exact hs.ends_of_slotPart (mk := springPlan 0 b) (if_pos hkey) (exec_springMask hs.goes hb)

end Sys2Proof.Machine
end

section
/-! RELAY SENDS (R219, R305, R316): what a heat sends changes no heat but in what its completion record shows of saturation. -/

namespace Sys2Proof.Machine

variable {s : State} {h : HeatId} {x y z : Heat} {w q : Wk} {mk : Wk → Heat → Plan} {p : Part}

/-! ### Frames leave the marshal alone (R299, R300) -/

@[simp] theorem Dev.sendFrame_mar (d : Dev) (f : Frame) (id : Option HeatId) : (d.sendFrame f id).mar = d.mar := by
  unfold Dev.sendFrame Dev.sendOut
  dsimp only
  split <;> simp [Dev.transmit, Dev.launch]

@[simp] theorem Dev.portEvt_mar (d : Dev) (q n : Nat) : (d.portEvt q n).mar = d.mar := by
  simp [Dev.portEvt]

theorem Dev.addEntry_mar (d : Dev) (r : Route) (level : Nat) (c : Contrib) : (d.addEntry r level c).1.mar = d.mar := by
  unfold Dev.addEntry
  dsimp only
  split <;> rfl

/-! ### Landings and sums leave the heats alone (R307, R308, R316, R321) -/

/-- From `w` to `v` the scoreboard stays. -/
def Wk.keepsHeats (w v : Wk) : Prop := v.dev.mar.heats = w.dev.mar.heats

theorem Wk.keepsHeats.heat {v : Wk} (hk : w.keepsHeats v) (h : HeatId) : v.dev.heat h = w.dev.heat h := by
  rw [Dev.heat, hk, ← Dev.heat]

theorem Wk.keepsHeats_of_mar {v : Wk} (hk : v.dev.mar = w.dev.mar) : w.keepsHeats v := by rw [Wk.keepsHeats, hk]

theorem Wk.keepsHeats_ite {c : Prop} [Decidable c] {u v : Wk} (hu : w.keepsHeats u) (hv : w.keepsHeats v) :
    w.keepsHeats (if c then u else v) := by
  split
  · exact hu
  · exact hv

theorem Wk.each_keepsHeats {α : Type} {f : Wk → α → Wk} (hf : ∀ (w : Wk) a, w.keepsHeats (f w a)) (l : List α) (w : Wk) :
    w.keepsHeats (Wk.each l f w) := by
  induction l generalizing w with
  | nil => rfl
  | cons a l ih => exact (ih (f w a)).trans (hf w a)

theorem Wk.landAt_keepsHeats (w : Wk) (q a : Nat) (data : List Byte) : w.keepsHeats (w.landAt q a data).1 := by
  unfold Wk.landAt
  dsimp only
  split
  · exact foldl_keeps (fun d => d.mar.heats) _ (fun _ _ => by rfl) _ _
  · split
    · show (w.put a data).dev.mar.heats = _
      rw [Wk.dev_put]
    · exact Wk.keepsHeats_of_mar (Dev.raise_mar ..)

theorem Wk.landUnits_keepsHeats (w : Wk) (q tag addr : Nat) (units : List (List Byte)) (gather deq : Bool) (e : Int) :
    w.keepsHeats (w.landUnits q tag addr units gather deq e) := by
  have counted (c : Prop) [Decidable c] (d : Dev) (tag n : Nat) (l : List Nat) :
      (if c then d else d.addLanding tag n l).mar = d.mar := by split <;> rfl
  simp only [Wk.keepsHeats, Wk.landUnits, Wk.dev_up, counted]
  refine List.foldlRecOn (motive := fun u : Wk × Landed => w.keepsHeats u.1) _ _ rfl fun u hu i _ => ?_
  generalize hl : u.1.landAt q _ _ = l
  have landed : u.1.keepsHeats l.1 := hl ▸ Wk.landAt_keepsHeats ..
  rcases l with ⟨v, _ | ids⟩
  · exact landed.trans hu
  · exact landed.trans hu

theorem Wk.accumulate_keepsHeats (w : Wk) (r : Route) (e : Entry) : w.keepsHeats (w.accumulate r e) := rfl

theorem Wk.ownerArrive_keepsHeats (w : Wk) (r : Route) (level : Nat) (c : Contrib) : w.keepsHeats (w.ownerArrive r level c) := by
  have added := w.dev.addEntry_mar r level c
  unfold Wk.ownerArrive
  split
  · exact Wk.keepsHeats_of_mar (by simp)
  · split <;> rename_i e <;> rw [e] at added
    · exact Wk.keepsHeats_of_mar added
    · exact (Wk.accumulate_keepsHeats _ r _).trans (Wk.keepsHeats_of_mar added)

theorem Wk.passUp_keepsHeats (w : Wk) (r : Route) (e : Entry) : w.keepsHeats (w.passUp r e) := by
  unfold Wk.passUp
  dsimp only
  split
  · rfl
  · split
    · exact w.ownerArrive_keepsHeats ..
    · exact Wk.keepsHeats_of_mar (by simp)

theorem Wk.arrive_keepsHeats (w : Wk) (r : Route) (level : Nat) (c : Contrib) : w.keepsHeats (w.arrive r level c) := by
  have added := w.dev.addEntry_mar r 1 c
  unfold Wk.arrive
  split
  · rfl
  · split
    · split <;> rename_i e <;> rw [e] at added
      · exact Wk.keepsHeats_of_mar added
      · exact (Wk.passUp_keepsHeats _ r _).trans (Wk.keepsHeats_of_mar added)
    · exact w.ownerArrive_keepsHeats ..

theorem Wk.parityArrive_keepsHeats (w : Wk) (r : Route) (src mb addr : Nat) (u : List Byte) :
    w.keepsHeats (w.parityArrive r src mb addr u) := by
  unfold Wk.parityArrive
  exact Wk.keepsHeats_ite (Wk.landUnits_keepsHeats ..) rfl

theorem Wk.consumeFrame_keepsHeats (w : Wk) (q : Nat) (f : Frame) (take : List Nat) : w.keepsHeats (w.consumeFrame q f take) := by
  unfold Wk.consumeFrame
  split
  · split
    · rfl
    · exact Wk.each_keepsHeats (fun w c => w.arrive_keepsHeats ..) _ w
  · split
    · split
      · rfl
      · exact Wk.each_keepsHeats (fun w i => w.parityArrive_keepsHeats ..) _ w
    · exact w.landUnits_keepsHeats ..

theorem Wk.takeLocal_keepsHeats (w : Wk) (f : Frame) : w.keepsHeats (w.takeLocal f) := by
  unfold Wk.takeLocal
  dsimp only
  split
  · exact w.consumeFrame_keepsHeats ..
  · rfl

/-! ### What a heat sends (R305, R316) -/

theorem Wk.each_sendFrame_keepsHeats (l : List Frame) (id : Option HeatId) (w : Wk) :
    w.keepsHeats (Wk.each l (fun w f => w.up fun d => d.sendFrame f id) w) :=
  Wk.each_keepsHeats (fun w f => Wk.keepsHeats_of_mar (w.dev.sendFrame_mar f id)) l w

theorem Wk.each_takeLocal_keepsHeats (l : List Frame) (w : Wk) : w.keepsHeats (Wk.each l Wk.takeLocal w) :=
  Wk.each_keepsHeats Wk.takeLocal_keepsHeats l w

/-- Raw units change no heat. -/
theorem Wk.sendRaw_keepsHeats (w : Wk) (id : HeatId) (r : Route) (data : List Byte) : w.keepsHeats (w.sendRaw id r data) := by
  have out (l : List Frame) (w : Wk) := Wk.each_sendFrame_keepsHeats l (some id) w
  have own (c : Prop) [Decidable c] (l : List Frame) (w : Wk) : w.keepsHeats (if c then Wk.each l Wk.takeLocal w else w) :=
    Wk.keepsHeats_ite (Wk.each_takeLocal_keepsHeats l w) rfl
  unfold Wk.sendRaw
  refine Wk.keepsHeats_ite ?_ (Wk.keepsHeats_ite ?_ ?_)
  · dsimp only
    split
    · rfl
    · exact Wk.keepsHeats_ite rfl (out _ w)
  · exact Wk.keepsHeats_ite (Wk.each_takeLocal_keepsHeats _ w) (out _ w)
  · exact (Wk.each_keepsHeats (fun w _ => out _ w) _ _).trans (own _ _ w)

/-- A segment of values changes its heat in the flags of clipped and of nonfinite values alone. -/
theorem Wk.sendSegment_heat (hx : w.dev.heat h = some x) (r : Route) (seg : Nat) (vals : List W32) :
    ∃ a b, (w.sendSegment h r seg vals).dev.heat h = some { x with clip := a, nonfinite := b } := by
  unfold Wk.sendSegment
  dsimp only
  refine ⟨_, _, (Wk.keepsHeats.heat (Wk.each_keepsHeats (fun w f => ?_) _ _) h).trans
    (Dev.heat_setHeat_some hx (by intro; rfl))⟩
  split
  · exact w.takeLocal_keepsHeats f
  · exact Wk.keepsHeats_of_mar (w.dev.sendFrame_mar f _)

/-! ### Last parts that change flags of their heat -/

/-- `z` is `y` but for its claims and for what only its completion record shows: its work stands where it stood. -/
structure Heat.SameWork (y z : Heat) : Prop where
  body    : z.body = y.body
  state   : z.state = y.state
  done    : z.done = y.done
  skipped : z.skipped = y.skipped
  leave   : z.leave = y.leave
  prog    : z.prog = y.prog

theorem Heat.SameWork.at_eq (hw : y.SameWork z) (st : Nat) : z.at st = y.at st := by simp only [Heat.at, hw.prog]

theorem Heat.SameWork.mayRun (hw : y.SameWork z) (hy : y.mayRun = true) : z.mayRun = true := by
  rwa [Heat.mayRun, hw.state, hw.done, hw.skipped]

/-- Its marks are those of the heat, and it may go on. -/
theorem Heat.SameWork.marksIn (hw : y.SameWork z) : y.MarksIn z :=
  .of_prog (fun k => by rwa [Heat.started, hw.state]) hw.prog

/-- The heat after the last part has run and filled its slots: marked, and free to go on to the end of its stage. -/
theorem SolePart.marked_of_sameWork {pl : Plan} {st : Nat} (hs : SolePart s h x y w st pl p) (temps : List Nat)
    (hz : q.dev.heat h = some z) (hw : y.SameWork z) :
    ∃ v, ((q.upHeat h fun x => x.ranPart st p).up fun d =>
        d.fillFor h (p.slots.filter fun g => !temps.contains g)).dev.heat h = some v ∧
      v.mayRun = true ∧ (v.at st).ended = false ∧ y.MarksIn v ∧ p.no ∈ (v.at st).ran := by
  have hrun : z.mayRun = true := hw.mayRun (hs.near.mayRun hs.goes.2)
  obtain ⟨-, -, -, -, -, -, -, hended⟩ := hs.near
  obtain ⟨v, hv, -, -, vstate, vdone, vskipped, vended⟩ := Wk.ends_heat q h st temps p z hz
  have ran := Dev.heat_setHeat_some (f := fun x => x.ranPart st p) hz (by intro; rfl)
  obtain ⟨v', hv', filled⟩ := (Dev.fillFor_carries _ h (p.slots.filter fun g => !temps.contains g)).heat _ _ ran
    (Heat.started_of_mayRun hrun)
  obtain rfl : v' = v := Option.some.inj (hv'.symm.trans hv)
  refine ⟨v', hv, ?_, ?_, hw.marksIn.trans ((Heat.ranPart_marksIn z st p).trans filled),
    filled.ran st _ (Heat.mem_ran_ranPart z st p)⟩
  · rwa [Heat.mayRun, vstate, vdone, vskipped]
  · rw [vended, hw.at_eq, hended, hs.notOver]

/-- Once the part that was left is marked, a steady plan made anew holds nothing to do and nothing to ask for. -/
theorem SolePart.nothing_left (hm : Steady mk) {st : Nat} (hs : SolePart s h x y w st (mk s.work x) p) (hv : y.MarksIn z)
    (hran : p.no ∈ (z.at st).ran) (w' : Wk) :
    (mk w' z).undone z st = [] ∧ ∀ r ∈ (mk w' z).parts, r.no ∈ (z.at st).asked := by
  refine ⟨List.filter_eq_nil_iff.mpr fun r hr => ?_, fun r hr => ?_⟩ <;>
    obtain ⟨r', hr', e⟩ := hm.exists_part (w' := s.work) (x' := x) hr
  · suffices r'.no ∈ (z.at st).ran by simpa [← e] using this
    by_cases hy : r'.no ∈ (y.at st).ran
    · exact hv.ran st _ hy
    · have : r' ∈ (mk s.work x).undone y st := List.mem_filter.mpr ⟨hr', by simpa using hy⟩
      rw [hs.left, List.mem_singleton] at this
      rwa [this]
  · exact e ▸ hv.asked st _ (hs.asked_all r' hr')

/-- The last part of a steady plan has done `q`, with the work of its heat where it stood: the command completes. -/
theorem SolePart.completes_of_sameWork (hm : Steady mk) (hs : SolePart s h x y w 0 (mk s.work x) p)
    (ht : (mk s.work x).temps = []) {o : Host.Outcome State Fault Refusal} (ho : o = .next (s.after (s.work.stage mk h 0)))
    (hr : p.run (w.view h 0) (w.begins h 0 p) = (q, true)) (hz : q.dev.heat h = some z) (hw : y.SameWork z) :
    completes s h 0 [] p q o := by
  obtain ⟨-, hbody, -, -, -, hleave, -, hended⟩ := hs.near
  obtain ⟨v, hv, hgo, hopen, marks, hran⟩ := hs.marked_of_sameWork (mk s.work x).temps hz hw
  obtain ⟨none_left, all_asked⟩ := hs.nothing_left hm marks hran _
  have stage := Wk.stage_last s h x y w q 0 mk p hs hr v hv hgo hopen (hm.whole _ _) (hm.temps _ _ _ _) none_left all_asked
  rw [ht] at stage
  refine ⟨by rw [ho, stage], Wk.ends_finished s q h 0 [] p z hz ?_ (lt_max_of_lt_left Nat.one_pos) fun k hk hne => ?_⟩
  · rw [hw.leave, hleave, hs.unkept]
  · rw [hw.at_eq, hended]
    exact hs.alone k (hbody ▸ hw.body ▸ hk) hne

/-- A last part that finds poison in what it sends ends its heat. -/
theorem SolePart.next_of_poison (hs : SolePart s h x y w 0 (mk s.work x) p) {o : Host.Outcome State Fault Refusal}
    (ho : o = .next (s.after (s.work.stage mk h 0)))
    (hr : p.run (w.view h 0) (w.begins h 0 p) = ((w.begins h 0 p).up fun d => d.endHeat x, false)) :
    o = .next (s.after ((w.begins h 0 p).up fun d => d.endHeat x)) :=
  ho.trans (by rw [hs.stage_of_endHeat (Dev.heat_id hs.goes.1) (Heat.running_of_mayRun hs.goes.2) hr])

/-! ### RELAY_SEND (R219, R305) -/

theorem sendPlan_temps (b : SendBody) (w : Wk) (x : Heat) : (sendPlan b w x).temps = [] := by
  unfold sendPlan
  split <;> rfl

theorem sendPlan_steady (b : SendBody) : Steady (sendPlan b) where
  whole w x := by
    unfold sendPlan
    split <;> rfl
  temps w x w' x' := by rw [sendPlan_temps, sendPlan_temps]
  nos w x w' x' := by
    unfold sendPlan
    split
    · simp only [List.map_map]
      exact List.map_congr_left fun k _ => rfl
    · simp only [List.map_cons, List.map_nil, rawPart]

theorem exec_relaySend (hx : s.dev.goes h x) {b : SendBody} (hb : x.body = .stage (.relaySend b)) :
    exec (.relaySend h) s = .next (s.after (s.work.stage (sendPlan b) h 0)) :=
  done_withHeat s h x hx.1 hx.2 _ _ rfl _ (by simp only [hb])

/-- The values that a segment sends, with their poison. -/
def SendBody.segmentVals (b : SendBody) (k : Nat) (v : View) : List (W32 × Bool) :=
  ((List.range (min 16384 (b.src.size - 16384 * k))).map fun i => unravel b.src.ext (16384 * k + i)).map fun i => b.src.f32 v i

theorem segmentPart_run {b : SendBody} {k : Nat} {v : Nat → View} {w₀ : Wk}
    (hv : (b.segmentVals k (v (k + 1))).any Prod.snd = false) (w : Wk) : (segmentPart b w₀ x k).run v w =
      (w.sendSegment x.id b.route (b.rseg.toNat + k) ((b.segmentVals k (v (k + 1))).map Prod.fst), true) :=
  if_neg (ne_true_of_eq_false hv)

theorem segmentPart_run_poison {b : SendBody} {k : Nat} {v : Nat → View} {w₀ : Wk}
    (hv : (b.segmentVals k (v (k + 1))).any Prod.snd = true) (w : Wk) :
    (segmentPart b w₀ x k).run v w = (w.up fun d => d.endHeat x, false) :=
  if_pos hv

theorem rawPart_run {b : SendBody} {v : Nat → View} {w₀ : Wk} (hv : (b.src.rawBytes (v 1) b.route.traffic).2 = false)
    (w : Wk) : (rawPart b w₀ x).run v w = (w.sendRaw x.id b.route (b.src.rawBytes (v 1) b.route.traffic).1, true) :=
  if_neg (ne_true_of_eq_false hv)

theorem rawPart_run_poison {b : SendBody} {v : Nat → View} {w₀ : Wk}
    (hv : (b.src.rawBytes (v 1) b.route.traffic).2 = true) (w : Wk) :
    (rawPart b w₀ x).run v w = (w.up fun d => d.endHeat x, false) :=
  if_pos hv

/-- Settles O29: what is sent leaves the work of its heat where it stood, so the stage ends with the part; and poison in it
ends the heat. -/
theorem relaySendSends : Obligations.RelaySendSends := by
  intro s h x y w b hb pl poisoned
  constructor
  · intro k _ p hs vals
    obtain rfl : x.id = h := Dev.heat_id hs.goes.1
    have row := exec_relaySend hs.goes hb
    refine ⟨fun clean => ?_, fun bad => hs.next_of_poison row (segmentPart_run_poison bad _)⟩
    obtain ⟨c, hc⟩ := hs.begins_heat
    obtain ⟨clip, nonfinite, hz⟩ := Wk.sendSegment_heat hc b.route (b.rseg.toNat + k) (vals.map Prod.fst)
    exact hs.completes_of_sameWork (sendPlan_steady b) (sendPlan_temps b _ x) row (segmentPart_run clean _) hz
      ⟨rfl, rfl, rfl, rfl, rfl, rfl⟩
  · intro _ p hs raw
    obtain rfl : x.id = h := Dev.heat_id hs.goes.1
    have row := exec_relaySend hs.goes hb
    refine ⟨fun clean => ?_, fun bad => hs.next_of_poison row (rawPart_run_poison bad _)⟩
    obtain ⟨c, hc⟩ := hs.begins_heat
    have hz := ((w.begins x.id 0 p).sendRaw_keepsHeats x.id b.route raw.1).heat x.id
    exact hs.completes_of_sameWork (sendPlan_steady b) (sendPlan_temps b _ x) row (rawPart_run clean _) (hz.trans hc)
      ⟨rfl, rfl, rfl, rfl, rfl, rfl⟩

end Sys2Proof.Machine
end

section
/-! DISPATCH (R230, R233, R235, R286): the heat that is picked is one of the scoreboard's, and no other one starts. -/

namespace Sys2Proof.Machine

variable {s : State} {d : Dev} {x : Heat}

/-! ### ECC events of pond reads (R147, R148) -/

/-- What ECC reports on pond reads leaves the scoreboard, the order numbers and the lap. -/
theorem Wk.pondErrors_keep (l : List PondError) (w : Wk) :
    let v := Wk.each l Wk.pondError w
    w.keepsHeats v ∧ v.dev.mar.nextOrder = w.dev.mar.nextOrder ∧ v.dev.lap = w.dev.lap := by
  have one (w : Wk) (e : PondError) : w.keepsHeats (w.pondError e) ∧
      (w.pondError e).dev.mar.nextOrder = w.dev.mar.nextOrder ∧ (w.pondError e).dev.lap = w.dev.lap := by
    unfold Wk.pondError Wk.keepsHeats
    cases e.kind with
    | corrected =>
      dsimp only [Wk.dev_up]
      split
      · exact ⟨rfl, rfl, rfl⟩
      · simp
    | uncorrectable => exact ⟨rfl, rfl, rfl⟩
  induction l generalizing w with
  | nil => exact ⟨rfl, rfl, rfl⟩
  | cons e l ih =>
    obtain ⟨heats, order, lap⟩ := ih (w.pondError e)
    obtain ⟨heats', order', lap'⟩ := one w e
    exact ⟨heats.trans heats', order.trans order', lap.trans lap'⟩

/-! ### Which heat is picked (R233) -/

theorem Heat.withMasks_id (x : Heat) (n : Nat) (l : List (List Byte)) : (x.withMasks n l).id = x.id := by
  induction l generalizing x n with
  | nil => rfl
  | cons b l ih =>
    rw [Heat.withMasks, ih]
    split <;> rfl

theorem Dev.placed_id (d : Dev) (mem : Mem) (x : Heat) : (d.placed mem x).id = x.id := x.withMasks_id _ _

theorem Dev.mem_readyHeats {c : Nat} (hx : x ∈ d.readyHeats c) : x ∈ d.mar.heats :=
  (List.mem_filter.mp (List.mem_mergeSort.mp hx)).1

/-- The heat that DISPATCH picks has an entry. -/
theorem Dev.picked_heat {mem : Mem} {c : Nat} (hx : ((d.readyHeats c).map (d.placed mem)).find? d.fits = some x) :
    ∃ y, d.heat x.id = some y := by
  obtain ⟨z, hz, rfl⟩ := List.mem_map.mp (List.mem_of_find?_eq_some hx)
  rw [Dev.placed_id]
  refine Option.isSome_iff_exists.mp (List.find?_isSome.mpr ⟨z, Dev.mem_readyHeats hz, ?_⟩)
  exact beq_self_eq_true z.id

/-! ### A heat starts (R233, R235) -/

/-- The entry of a heat `x` as it becomes RUNNING with the next order number, in the place of the entry `y` of its id. -/
def Dev.started (d : Dev) (x y : Heat) : Heat :=
  { x with
    id := y.id, state := .running, done := x.skipped, reserved := x.cpl, order := d.mar.nextOrder, dispatch := d.lap.sinceNom }

theorem Dev.start_heats (d : Dev) (x : Heat) : (d.start_ x).mar.heats = (d.setHeat x.id (d.started x)).mar.heats := by
  have whole : (d.start_ x).mar.heats = updWhere (fun y => y.id == x.id) (fun _ => d.started x x) d.mar.heats := by
    unfold Dev.start_
    dsimp only
    split
    · split <;> rfl
    · rfl
  rw [whole]
  refine List.map_congr_left fun y _ => ?_
  by_cases hy : y.id = x.id <;> simp [hy, Dev.started]

theorem Dev.start_heat (d : Dev) (x : Heat) (k : HeatId) : (d.start_ x).heat k = (d.setHeat x.id (d.started x)).heat k := by
  rw [Dev.heat, Dev.start_heats, ← Dev.heat]

/-- Only a context operation reads records at its dispatch (R286). -/
theorem Dev.ctxBegin_other (mem : Mem) {h : HeatId} (hx : d.heat h = some x) (hc : x.body.isContext = false) :
    d.ctxBegin mem h = d := by
  unfold Dev.ctxBegin
  simp only [hx]
  split
  · rename_i hb
    simp [hb, Body.isContext] at hc
  · rfl

/-- A heat that is no context operation starts, and no other heat moves (R233). -/
theorem Dev.dispatch_heats (mem : Mem) {y : Heat} (hy : d.heat x.id = some y) (hc : x.body.isContext = false) :
    (d.dispatch mem x).heat x.id = some (d.started x y) ∧ ∀ k, k ≠ x.id → (d.dispatch mem x).heat k = d.heat k := by
  have own : (d.start_ x).heat x.id = some (d.started x y) :=
    (d.start_heat x x.id).trans (Dev.heat_setHeat_some hy fun _ => rfl)
  rw [Dev.dispatch, Dev.ctxBegin_other mem own hc]
  exact ⟨own, fun k hk => (d.start_heat x k).trans (Dev.heat_setHeat_other d _ (fun _ => rfl) hk)⟩

/-! ### The row -/

theorem exec_dispatch {c : Fin 128} {errs : List PondError} {w : Wk}
    (hw : Wk.each (errs.filter fun e => e.cluster == c) Wk.pondError s.work = w) (ho : w.dev.clusterOpen c.val = true)
    (hl : w.dev.lap.cycle ≠ 0) (hx : ((w.dev.readyHeats c.val).map (w.dev.placed w.mem)).find? w.dev.fits = some x) :
    exec (.dispatch c errs) s = .next (s.after (w.up fun d => d.dispatch w.mem x)) := by
  refine done_next_of s ?_
  rw [hw]
  have opened : (!w.dev.clusterOpen c.val || w.dev.lap.cycle == 0) = false := by simp [ho, hl]
  simp only [Wk.up, opened, hx]
  rfl

/-- Settles O15: the heat that is picked has an entry, which starts; what the ECC events report touches neither. -/
theorem dispatchStartsOneHeat : Obligations.DispatchStartsOneHeat := by
  intro s c errs x w ho hl hx
  obtain ⟨heats, order, lap⟩ := Wk.pondErrors_keep (errs.filter fun e => e.cluster == c) s.work
  refine ⟨_, exec_dispatch rfl ho (by rwa [lap]) hx, rfl, fun hc => ?_⟩
  obtain ⟨y, hy⟩ := Dev.picked_heat hx
  obtain ⟨own, others⟩ := Dev.dispatch_heats w.mem hy hc
  exact ⟨⟨_, own, rfl, order, rfl⟩, fun k hk => (others k hk).trans (heats.heat k)⟩

end Sys2Proof.Machine
end

section
/-! HANGS AND LANES: the watchdog, the end of a pond copy, and die-to-die links (R10, R119, R120, R240). -/

namespace Sys2Proof.Machine

variable {s : State} {d : Dev} {y : Heat}

/-! ### Heats that run on (R10, R238) -/

/-- What runs after one heat is judged ran before. -/
theorem Dev.running_of_settleOne {g : Heat} (hy : y ∈ (d.settleOne g).mar.heats) (hr : y.state = .running) :
    ∃ x ∈ d.mar.heats, x.id = y.id ∧ x.state = .running := by
  obtain ⟨f, hf, heats⟩ := (d.settleOne_heats g).1
  rw [heats] at hy
  obtain ⟨x, hx, rfl⟩ := List.mem_map.mp hy
  by_cases hid : x.id = g.id
  · obtain ⟨id, state⟩ := hf x hid
    simp only [hid, beq_self_eq_true, if_true] at hr ⊢
    exact ⟨x, hx, hid.trans id.symm, by simpa [hr, eq_comm] using state⟩
  · simp only [hid, beq_iff_eq, if_false] at hr ⊢
    exact ⟨x, hx, rfl, hr⟩

/-- Judging the heats that wait starts none: what runs then ran before. -/
theorem Dev.running_of_settle (hy : y ∈ d.settle.mar.heats) (hr : y.state = .running) :
    ∃ x ∈ d.mar.heats, x.id = y.id ∧ x.state = .running := by
  simp only [Dev.settle, Dev.noteG_frame] at hy
  refine foldl_inv (fun e => ∀ z ∈ e.mar.heats, z.state = .running → ∃ x ∈ d.mar.heats, x.id = z.id ∧ x.state = .running)
    _ (fun e g he => ?_) _ d (fun z hz hr => ⟨z, hz, rfl, hr⟩) y hy hr
  split
  · intro z hz hr
    obtain ⟨u, hu, hid, hur⟩ := Dev.running_of_settleOne hz hr
    obtain ⟨x, hx, hxid, hxr⟩ := he u hu hur
    exact ⟨x, hx, hxid.trans hid, hxr⟩
  · exact he

/-- What runs after the heats of a cluster are cancelled ran before, in another cluster. -/
theorem Dev.running_of_cancelRunning {c : Nat} (hy : y ∈ (d.cancelRunning c).mar.heats) (hr : y.state = .running) :
    ∃ x ∈ d.mar.heats, x.id = y.id ∧ x.state = .running ∧ y.id.cluster.val ≠ c := by
  obtain ⟨z, hz, hzid, hzr⟩ := Dev.running_of_settle hy hr
  obtain ⟨x, hx, hid, hst, spared⟩ := Dev.mem_foldl_cancelHeat hz (by simp [hzr])
  refine ⟨x, hx, hid.trans hzid, hst.trans hzr, fun hc => spared x ?_ ⟨rfl, rfl⟩⟩
  simp [hx, hst, hzr, hid, hzid, hc]

theorem Dev.haltCluster_mar (d : Dev) (c cause : Nat) : (d.haltCluster c cause).mar = d.mar :=
  foldl_keeps (fun e => e.mar) _ (fun e k => e.halt_mar c k cause _) _ d

/-- A cluster whose link is beyond repair: its streams halt with cause 0x5 and its running heats are cancelled (R10). -/
def Dev.cutOff (d : Dev) (c : Nat) : Dev := (d.haltCluster c 5).cancelRunning c

/-- What runs after a list of clusters is cut off is in none of them. -/
theorem Dev.running_of_foldl_cutOff {l : List Nat} (hy : y ∈ (l.foldl Dev.cutOff d).mar.heats) (hr : y.state = .running) :
    ∃ x ∈ d.mar.heats, x.id = y.id ∧ x.state = .running ∧ y.id.cluster.val ∉ l := by
  induction l generalizing d with
  | nil => exact ⟨y, hy, rfl, hr, List.not_mem_nil⟩
  | cons c l ih =>
    rw [List.foldl_cons] at hy
    obtain ⟨z, hz, hzid, hzr, hl⟩ := ih hy
    rw [Dev.cutOff] at hz
    obtain ⟨x, hx, hid, hxr, hc⟩ := Dev.running_of_cancelRunning hz hzr
    rw [Dev.haltCluster_mar] at hx
    rw [hzid] at hc
    exact ⟨x, hx, hid.trans hzid, hxr, List.not_mem_cons_of_ne_of_not_mem hc hl⟩

/-! ### The replacement request (R370) -/

theorem Dev.raiseOnce_repl (d : Dev) (k : Nat) (r : Rec) : (d.raiseOnce k r).flt.repl = d.flt.repl := by
  unfold Dev.raiseOnce
  split <;> simp

/-- A replacement request stands with its reason. -/
theorem Dev.replace_repl (d : Dev) {n : Nat} (hn : n < 10) : (d.replace n).flt.repl.toNat.testBit n = true := by
  unfold Dev.replace
  dsimp only
  split
  · assumption
  · have asked (v : BitVec 10) : (v ||| BitVec.ofNat 10 (2 ^ n)).toNat.testBit n = true := by
      rw [BitVec.toNat_or, Nat.testBit_or, BitVec.toNat_ofNat, Nat.testBit_mod_two_pow, Nat.testBit_two_pow_self]
      simp [hn]
    rw [Dev.raiseOnce_repl]
    split
    · rw [Dev.msix_flt, Dev.emit_flt]
      exact asked _
    · exact asked _

/-! ### A link beyond repair (R10) -/

/-- A die-to-die link beyond repair cuts off every cluster, and asks for the module's replacement. -/
def Dev.linkLost (d : Dev) (l : Fin 8) : Dev :=
  (((List.range 128).foldl Dev.cutOff d).raiseOnce (0x0002 * 256 + l.val) { Rec.of 0x0002 3 with unit := l.val }).replace 1

theorem Dev.linkLost_anyRunning (d : Dev) (l : Fin 8) : (d.linkLost l).anyRunning = false := by
  refine List.any_eq_false.mpr fun y hy hr => ?_
  rw [Dev.linkLost, Dev.replace_mar, Dev.raiseOnce_mar] at hy
  obtain ⟨-, -, -, -, out⟩ := Dev.running_of_foldl_cutOff hy (beq_iff_eq.mp hr)
  exact out (List.mem_range.mpr y.id.cluster.isLt)

theorem Dev.linkLost_repl (d : Dev) (l : Fin 8) : (d.linkLost l).flt.repl.toNat.testBit 1 = true :=
  Dev.replace_repl _ (by decide)

/-! ### The rows -/

/-- The watchdog's act on a cluster: for this lap the cluster is marked, and its core is fenced or its marshal reset. -/
def Dev.watch (d : Dev) (c : Nat) (k : HangKind) : Dev :=
  let d := { d with mar := { d.mar with watched := NSet.add d.mar.watched c } }
  match k with
  | .core i => d.fence c i.val (Rec.of 0x0021 2)
  | .marshal => d.marshalHang c

theorem exec_watchdog (s : State) (c : Fin 128) (k : HangKind) : exec (.watchdog c k) s = devOnly s fun d =>
    if !NSet.has d.mar.unreported c.val || NSet.has d.mar.watched c.val then d else d.watch c.val k := rfl

theorem exec_watchdog_acts {c : Fin 128} (k : HangKind) (late : NSet.has s.dev.mar.unreported c.val = true)
    (unseen : NSet.has s.dev.mar.watched c.val = false) :
    exec (.watchdog c k) s = .next (s.withDev fun d => d.watch c.val k) :=
  (exec_watchdog s c k).trans (devOnly_next_of s (if_neg (by simp [late, unseen])))

theorem exec_watchdog_idle {c : Fin 128} (k : HangKind)
    (idle : ¬ (NSet.has s.dev.mar.unreported c.val = true ∧ NSet.has s.dev.mar.watched c.val = false)) :
    exec (.watchdog c k) s = .next s := by
  refine (exec_watchdog s c k).trans (devOnly_same s (if_pos ?_))
  rw [not_and_or, Bool.not_eq_true, Bool.not_eq_false] at idle
  rwa [Bool.or_eq_true, Bool.not_eq_true']

theorem exec_sparePondCopyDone (s : State) (c : Fin 128) : exec (.sparePondCopyDone c) s =
    .next (s.withDev fun d => { d with flt := { d.flt with copying := AMap.set 0 d.flt.copying c.val 0 } }) := rfl

theorem exec_ucieLaneFailure_repaired (s : State) (l : Fin 8) : exec (.ucieLaneFailure l true) s =
    .next (s.withDev fun d => d.raise { Rec.of 0x0001 0 with unit := l.val }) :=
  devOnly_next_of s (if_pos rfl)

theorem exec_ucieLaneFailure_lost (s : State) (l : Fin 8) :
    exec (.ucieLaneFailure l false) s = .next (s.withDev fun d => d.linkLost l) :=
  devOnly_next_of s (if_neg Bool.false_ne_true)

/-- Settles O34: the watchdog acts by its two conditions (with the one record of log entry 19 for a core); of the pond
copies the cluster's ends; and a link beyond repair cuts off every cluster, so none is left in which a heat could run. -/
theorem hangsAndLanes : Obligations.HangsAndLanes := by
  refine ⟨fun s c k => ⟨fun ⟨late, unseen⟩ => ?_, exec_watchdog_idle k⟩, fun s c => ?_,
    fun s l => ⟨exec_ucieLaneFailure_repaired s l, ?_⟩⟩
  · refine (exec_watchdog_acts k late unseen).trans ?_
    cases k <;> rfl
  · exact ⟨_, exec_sparePondCopyDone s c, rfl, fun k => AMap.get_set 0 s.dev.flt.copying c.val k 0⟩
  · refine ⟨_, exec_ucieLaneFailure_lost s l, State.withDev_mem .., ?_⟩
    rw [State.withDev_dev]
    exact ⟨s.dev.linkLost_anyRunning l, s.dev.linkLost_repl l⟩

end Sys2Proof.Machine
end

section
/-! WEIGHT SETS: version releases, the registers of a set, and buffers that a cycle of the time base makes FREE (R254, R256,
R258 to R261). -/

namespace Sys2Proof.Machine

variable {s : State} {h : HeatId} {x : Heat} {d : Dev} {k : Nat} {v : W32}

/-! ### VERSION_RELEASE (R256) -/

/-- A change of one buffer of a set is seen in that buffer and in no other one of any set. -/
theorem Dev.buf_setWset_setBuf {b : Nat} (hb : b < (d.wset k).bufs.length) (n : Nat) (f : VBuf → VBuf) (j c : Nat) :
    ((d.setWset k fun t => { t with used := n }.setBuf b f).wset j).buf c =
      if j = k ∧ c = b then f ((d.wset j).buf c) else (d.wset j).buf c := by
  by_cases hj : j = k
  · subst hj
    rw [Dev.wset_setWset]
    refine (WSet.buf_setBuf { d.wset j with used := n } b c f hb).trans ?_
    by_cases hc : c = b
    · subst hc
      rw [if_pos rfl, if_pos ⟨rfl, rfl⟩]
      rfl
    · rw [if_neg hc, if_neg fun h => hc h.2]
      rfl
  · rw [Dev.wset_setWset_other _ _ hj, if_neg fun h => hj h.1]

/-- A release that finds its version with a pin lowers the count of that buffer. -/
theorem Dev.unpin_held {b : Nat} (hb : (d.wset k).holding v = some b) (hp : 0 < ((d.wset k).buf b).pins) :
    d.unpin x k v = d.setWset k fun t => { t with used := d.now + 1 }.setBuf b (VBuf.unpinned d.now) := by
  simp only [Dev.unpin, hb, hp, Option.filter, decide_true, if_true]

/-- One that finds no pin of its version is reported. -/
theorem Dev.unpin_missing (hb : ∀ b, (d.wset k).holding v = some b → ((d.wset k).buf b).pins = 0) :
    d.unpin x k v = (d.setWset k fun t => { t with used := d.now + 1 }).raise (versionRec 0x0061 x k v) := by
  have none_pinned : ((d.wset k).holding v).filter (fun b => decide (0 < ((d.wset k).buf b).pins)) = none := by
    cases e : (d.wset k).holding v with
    | none => rfl
    | some b => simp [Option.filter, hb b e]
  simp only [Dev.unpin, none_pinned]

theorem exec_versionRelease (hx : s.dev.opens h x) (hb : x.body = .unpin k v) {g : Dev → Dev}
    (hg : s.dev.unpin x k v = g s.dev) :
    exec (.versionRelease h) s = .next (s.after ((s.work.up g).retireAtOnce h)) := by
  obtain ⟨hx, ho⟩ := hx
  have hx' : s.work.dev.heat h = some x := hx
  have ho' : s.work.dev.directOpen x = true := ho
  have hu : (s.work.up fun d => d.unpin x k v) = s.work.up g := congrArg (Wk.mk s.mem []) hg
  exact done_next_of s (by simp only [hx', hb, ho', if_true, hu])

/-- A change that leaves the heats, and the retirement in the same cycle, leave no entry of the heat and what the change
made of the weight sets. -/
theorem State.after_retireAtOnce (hx : s.dev.heat h = some x) {g : Dev → Dev} (hm : (g s.dev).mar = s.dev.mar) :
    (s.after ((s.work.up g).retireAtOnce h)).dev.heat h = none ∧
      ∀ j, (s.after ((s.work.up g).retireAtOnce h)).dev.wset j = (g s.dev).wset j := by
  have heat : (s.work.up g).dev.heat h = some x := by
    rw [← hx]
    exact congrArg (fun m : Marshal => m.heats.find? _) hm
  obtain rfl : x.id = h := Dev.heat_id hx
  rw [State.after_dev, Wk.retireAtOnce_of heat]
  exact ⟨Wk.retire_heat _ x, fun j => by rw [Dev.wset, Wk.retire_upd]; rfl⟩

/-- Settles O20: the release finds its buffer pinned and counts there alone, or finds none and is reported. -/
theorem versionReleaseLowersItsCount : Obligations.VersionReleaseLowersItsCount := by
  refine fun s h x k v hx hb => ⟨fun b hh hp => ?_, fun hh => ?_⟩
  · obtain ⟨gone, sets⟩ := State.after_retireAtOnce hx.1 (g := fun d => d.setWset k fun t =>
      { t with used := d.now + 1 }.setBuf b (VBuf.unpinned d.now)) rfl
    refine ⟨_, exec_versionRelease hx hb (Dev.unpin_held hh hp), gone, fun j c => ?_⟩
    rw [sets, Dev.buf_setWset_setBuf (WSet.holding_lt hh), apply_ite VBuf.pins]
    rfl
  · obtain ⟨gone, sets⟩ := State.after_retireAtOnce hx.1 (g := fun d =>
      (d.setWset k fun w => { w with used := d.now + 1 }).raise (versionRec 0x0061 x k v)) (Dev.raise_mar ..)
    refine ⟨_, exec_versionRelease hx hb (Dev.unpin_missing hh), gone, fun j => ?_, rfl⟩
    rw [sets, Dev.wset, Dev.raise_upd, ← Dev.wset]
    by_cases hj : j = k
    · subst hj
      rw [Dev.wset_setWset]
      exact ⟨rfl, rfl⟩
    · rw [Dev.wset_setWset_other _ _ hj]
      exact ⟨rfl, rfl⟩

/-! ### Registers of a set (R258 to R261) -/

theorem Dev.settle_wset (d : Dev) (k : Nat) : d.settle.wset k = d.wset k := by
  simp only [Dev.wset, Dev.settle_frame]

/-- A set may be set up with `new` now (R258, R259). -/
abbrev Dev.wsetTakes (d : Dev) (w : Nat) (ok : Bool) (new : WSet) : Prop :=
  ok = true ∧ (d.wset w).quiet = true ∧ (d.wset w).used ≠ d.now + 1 ∧ new.fits = true

/-- A write takes the value where the set may be set up, and is dropped where it may not. -/
theorem Dev.wsetWrite_wset (d : Dev) (w off : Nat) (ok : Bool) (new : WSet) (k : Nat) :
    (d.wsetWrite w off ok new).wset k = if k = w ∧ d.wsetTakes w ok new then new else d.wset k := by
  have judged : (ok && (d.wset w).quiet && (d.wset w).used != d.now + 1 && new.fits) = true ↔ d.wsetTakes w ok new := by
    simp only [Bool.and_eq_true, bne_iff_ne, and_assoc]
  rw [Dev.wsetWrite]
  split
  next may =>
    by_cases hk : k = w
    · subst hk
      rw [Dev.wset_setWset, if_pos ⟨rfl, judged.mp may⟩]
    · rw [Dev.wset_setWset_other _ _ hk, if_neg fun h => hk h.1]
  next may => rw [Dev.wset, Dev.streamConfig_upd, ← Dev.wset, if_neg fun h => may (judged.mpr h.2)]

/-- A host write that sets a register of a weight set, after which what waits is judged again. -/
theorem hostWrite_wset (ho : 6 ≤ s.dev.start.step) {f : Dev → Dev} {w off : Nat} {ok : Bool} {new : WSet}
    (hf : f s.dev = (s.dev.wsetWrite w off ok new).settle) :
    ∃ t, devOnly s (fun d => d.hostWrite f) = .next t ∧ t.mem = s.mem ∧ ∀ k, t.dev.wset k =
      if k = w ∧ s.dev.wsetTakes w ok new then new else s.dev.wset k := by
  refine ⟨_, hostWrite_next ho f, rfl, fun k => ?_⟩
  rw [State.withDev_dev, hf, Dev.settle_wset, Dev.wsetWrite_wset]

/-- Settles O49: each of the three registers is written by the one write of a set. -/
theorem weightSetRegisters : Obligations.WeightSetRegisters := by
  intro s w v u ho
  refine ⟨hostWrite_wset ho rfl, hostWrite_wset ho rfl, hostWrite_wset (off := 0xC) ho ?_⟩
  rw [Dev.wsetVer, BitVec.ofNat_toNat, BitVec.setWidth_eq]

/-! ### One cycle of the time base (R46, R254, R258; log entry 6) -/

/-- A key that is not listed reads as the default; one that is reads as one of its entries. -/
theorem AMap.get_eq_or_mem {α : Type} (e : α) (m : AMap α) (k : Nat) : AMap.get e m k = e ∨ (k, AMap.get e m k) ∈ m := by
  induction m with
  | nil => exact .inl rfl
  | cons y m ih =>
    rw [AMap.get]
    by_cases hk : y.1 = k
    · subst hk
      exact .inr (by rw [if_pos rfl]; exact List.mem_cons_self)
    · rw [if_neg hk]
      exact ih.imp_right (List.mem_cons_of_mem y)

/-- A set none of whose buffers has lost its last pin stays. -/
theorem WSet.expire_of_none {t : WSet} {now : Nat} (ht : ∀ b ∈ t.bufs, b.expired now = false) : t.expire now = t := by
  have same : (t.bufs.map fun b => if b.expired now then { b with state := .free, gone := 0 } else b) = t.bufs :=
    (List.map_congr_left fun b hb => by rw [ht b hb]; rfl).trans (List.map_id _)
  rw [WSet.expire, same]

/-- No buffer that has become FREE does so again. -/
theorem WSet.expire_expire (t : WSet) (now : Nat) : (t.expire now).expire now = t.expire now := by
  refine WSet.expire_of_none fun b hb => ?_
  obtain ⟨c, -, rfl⟩ := List.mem_map.mp hb
  cases hc : c.expired now with
  | true => rfl
  | false => simpa using hc

/-- One entry's set lets the buffers go whose last pin has gone. -/
def Dev.expireSet (d : Dev) (x : Nat × WSet) : Dev := d.setWset x.1 (WSet.expire d.now)

/-- Sets that are gone through, in any order and more than once, have let their buffers go. -/
theorem Dev.wset_foldl_expireSet (l : AMap WSet) (d : Dev) (k : Nat) :
    (l.foldl Dev.expireSet d).wset k = if k ∈ l.map Prod.fst then (d.wset k).expire d.now else d.wset k := by
  induction l generalizing d with
  | nil => rfl
  | cons y l ih =>
    rw [List.foldl_cons, ih, Dev.expireSet, Dev.setWset_now]
    by_cases hk : k = y.1
    · subst hk
      simp only [Dev.wset_setWset, WSet.expire_expire, ite_self, List.map_cons, List.mem_cons, true_or, if_true]
    · simp only [Dev.wset_setWset_other _ _ hk, List.map_cons, List.mem_cons, hk, false_or]

/-- The entries of sets with a buffer to be let go. -/
def Dev.expiring (d : Dev) : AMap WSet := d.upd.wsets.filter fun x => x.2.bufs.any fun b => b.expired d.now

theorem Dev.expiring_eq_nil (hd : ∀ x ∈ d.upd.wsets, ∀ b ∈ x.2.bufs, b.expired d.now = false) : d.expiring = [] :=
  List.filter_eq_nil_iff.mpr fun x hx => by simpa using hd x hx

/-- A set that is not among them has no buffer to be let go. -/
theorem Dev.expire_of_not_expiring (hk : k ∉ d.expiring.map Prod.fst) : (d.wset k).expire d.now = d.wset k := by
  refine WSet.expire_of_none fun b hb => Bool.eq_false_iff.mpr fun he => ?_
  rcases AMap.get_eq_or_mem WSet.zero d.upd.wsets k with zero | listed
  · rw [Dev.wset, zero] at hb
    exact absurd hb List.not_mem_nil
  · exact hk (List.mem_map.mpr ⟨_, List.mem_filter.mpr ⟨listed, List.any_eq_true.mpr ⟨b, hb, he⟩⟩, rfl⟩)

theorem Dev.expire_of_nil (hd : d.expiring = []) : d.expire = d := if_pos (List.isEmpty_iff.mpr hd)

/-- Where there are any, they let their buffers go, and what waits is judged again. -/
theorem Dev.expire_of_ne_nil (hd : d.expiring ≠ []) :
    d.expire = (d.expiring.foldl Dev.expireSet d).settle :=
  if_neg fun he => hd (List.isEmpty_iff.mp he)

theorem Dev.expire_wset (d : Dev) (k : Nat) : d.expire.wset k = (d.wset k).expire d.now := by
  by_cases hd : d.expiring = []
  · have unlisted : k ∉ d.expiring.map Prod.fst := by simp [hd]
    rw [Dev.expire_of_nil hd, Dev.expire_of_not_expiring unlisted]
  · rw [Dev.expire_of_ne_nil hd, Dev.settle_wset, Dev.wset_foldl_expireSet]
    split
    next => rfl
    next unlisted => exact (Dev.expire_of_not_expiring unlisted).symm

theorem Dev.expire_clock (d : Dev) : d.expire.now = d.now ∧ d.expire.lap = d.lap := by
  by_cases hd : d.expiring = []
  · rw [Dev.expire_of_nil hd]
    exact ⟨rfl, rfl⟩
  · simp only [Dev.expire_of_ne_nil hd, Dev.settle_frame]
    exact ⟨foldl_keeps Dev.now Dev.expireSet (fun _ _ => rfl) _ d, foldl_keeps Dev.lap Dev.expireSet (fun _ _ => rfl) _ d⟩

/-- The block with its counters of cycles one further. -/
def Dev.counted (d : Dev) : Dev := { d with
  now := d.now + 1, lap := { d.lap with cycle := d.lap.cycle + 1, sinceNom := d.lap.sinceNom + 1 } }

theorem step_idle (hs : s.pending = []) : step s = .next (s.withDev fun d => d.counted.expire) := by
  obtain ⟨m, e, q⟩ := s
  subst hs
  rfl

/-- Settles O2: the counters count, and then the buffers are let go whose last pin has gone by the new cycle. -/
theorem idleCountsACycle : Obligations.IdleCountsACycle := by
  intro s hs
  obtain ⟨now, lap⟩ := s.dev.counted.expire_clock
  refine ⟨⟨_, step_idle hs, rfl, hs, now, lap, s.dev.counted.expire_wset⟩, fun hd => ?_⟩
  have idle : s.dev.counted.expire = s.dev.counted := Dev.expire_of_nil (Dev.expiring_eq_nil hd)
  rw [step_idle hs, State.withDev, idle]
  rfl

end Sys2Proof.Machine
end

section
/-! EVERY COMMAND: what no command does. None moves the queue, none but a BAR4 access beyond the aperture stops (R411; the
model's choice, log entries 8 and 11), and none changes a fused value (R414). -/

namespace Sys2Proof.Machine
open Sys2Proof.Config

/-! ### The queue and the outcome -/

/-- Settles O1: the queue has a front, which is taken. -/
theorem stepRunsFront : Obligations.StepRunsFront := fun _ _ _ => rfl

/-- Settles O5: a command that completes is an action on the block and memory, beside the queue. -/
theorem commandsKeepTheQueue : Obligations.CommandsKeepTheQueue := by
  intro c s t e
  rcases exec_shape c s with ⟨f, action⟩ | stops
  · obtain rfl : run s f = t := Host.Outcome.next.inj (action.symm.trans e)
    exact run_pending s f
  · exact nomatch stops.symm.trans e

theorem exec_of_not_outside {c : Instr} (s : State) (hc : outside c = false) : ∃ t, exec c s = .next t := by
  cases c
  case bar4Read o n errs => exact ⟨_, if_neg (of_decide_eq_false hc)⟩
  case bar4Write o data poisoned => exact ⟨_, if_neg (of_decide_eq_false hc)⟩
  all_goals exact ⟨_, rfl⟩

theorem exec_of_outside {c : Instr} (s : State) (hc : outside c = true) : exec c s = .fault .barRange := by
  cases c
  case bar4Read o n errs => exact if_pos (of_decide_eq_true hc)
  case bar4Write o data poisoned => exact if_pos (of_decide_eq_true hc)
  all_goals exact absurd hc Bool.false_ne_true

/-- Settles O6: the two rows of BAR4 test their range, and no other row has an answer but a next state. -/
theorem onlyTheApertureStops : Obligations.OnlyTheApertureStops :=
  fun _ s => ⟨exec_of_not_outside s, exec_of_outside s⟩

/-! ### The identity registers (R414) -/

theorem Dev.readBytes_moduleId (d : Dev) : d.readBytes 0x0 8 = d.moduleId.toNat := by
  have hm := d.moduleId.isLt
  simp only [Dev.readBytes, Dev.word, Dev.idWord, part, fld, BEq.rfl, ↓reduceIte, Nat.reduceLT, Nat.reduceAdd]
  omega

theorem Dev.readBytes_part (d : Dev) : d.readBytes 0x8 8 = 0x07200042 := by
  simp [Dev.readBytes, Dev.word, Dev.idWord, fld]

/-- SERIAL takes the low 40 bits of ID_SERIAL and DATE the 16 above them. -/
theorem Dev.readBytes_serial (d : Dev) :
    d.readBytes 0x10 8 = d.serialNo.toNat + 2 ^ 40 * d.dateCode.toNat := by
  have hs := d.serialNo.isLt
  have hd := d.dateCode.isLt
  simp only [Dev.readBytes, Dev.word, Dev.idWord, part, fld, BEq.rfl, ↓reduceIte, Nat.reduceLT, Nat.reduceAdd,
    Nat.reduceBEq, Bool.false_eq_true, Bool.true_or, Bool.or_true]
  omega

/-- No register that a write of 32 bits acts on lies below LAP_COUNT. -/
theorem Wk.write32_id (w : Wk) {o : Nat} (v : Nat) (ho : o < 0x18) : w.write32 o v = w := by
  interval_cases o <;> rfl

theorem Wk.write_id (w : Wk) {o size : Nat} (v : Nat) (hz : size = 4 ∨ size = 8) (ho : o + size ≤ 0x18) :
    w.write o size v = w := by
  have narrow : wide (o / 8 * 8) = false := by
    simp only [wide, Bool.or_eq_false_iff, Bool.and_eq_false_iff, decide_eq_false_iff_not, beq_eq_false_iff_ne]
    omega
  have noCtrl : isStrCtrl o = false := by
    simp only [isStrCtrl, Bool.and_eq_false_iff, decide_eq_false_iff_not]
    omega
  have unserved : ∀ d : Dev, d.unserved o v = d := fun d => by simp [Dev.unserved, noCtrl]
  have lower := fun v => w.write32_id (o := o) v (by omega)
  simp only [Wk.write, narrow, unserved, lower, Wk.up, Bool.false_eq_true, if_false]
  split
  · rfl
  · split
    next eight => exact w.write32_id _ (by simp at eight; omega)
    next => rfl

theorem registerWrite_id (s : State) {o size : Nat} (v : BitVec 64) (hz : size = 4 ∨ size = 8) (ha : o % size = 0)
    (ho : o + size ≤ 0x18) : exec (.registerWrite false o size v) s = .next s := by
  rw [exec_registerWrite_served (bar2 := false) v hz ha (by simp; omega)]
  exact done_same s (Wk.write_id _ _ hz ho)

/-- Settles O8: no command of any kind changes a fused value, and the registers show them. -/
theorem fusedValuesNeverChange : Obligations.FusedValuesNeverChange :=
  ⟨fun c s t e => (exec_burnt c s t e).fused,
    fun s => ⟨s.dev.readBytes_moduleId, s.dev.readBytes_part, s.dev.readBytes_serial⟩,
    fun s _ _ v hz ha ho => registerWrite_id s v hz ha ho⟩

end Sys2Proof.Machine
end

section
/-! HOST INTERFACE: the event ring and the vectors (R410, R423, R426 to R429), the management controller's answers (R437
to R439), and keys and debug (R432, R435, R436). -/

namespace Sys2Proof.Machine
open Sys2Proof.Config

/-! ### Writes that are served from step 4 on (R476) -/

theorem hostEarly_next {s : State} (h : 4 ≤ s.dev.start.step) (f : Dev → Dev) :
    devOnly s (fun d => if d.hostEarly then f d else d) = .next (s.withDev f) :=
  devOnly_next_of s (if_pos (Dev.hostEarly_of h))

/-! ### The event ring (R426 to R429) -/

theorem exec_evtRingWrite {s : State} (h : 4 ≤ s.dev.start.step) (v : BitVec 64) :
    exec (.evtRingWrite v) s = .next (s.withDev fun d => d.evtRing v.toNat) := hostEarly_next h _

/-- A ring of a size of its range is set up while the ring is not enabled. -/
theorem Dev.evtRing_taken (d : Dev) {v : Nat} (he : d.evt.enable = false) (hl : 6 ≤ bits v 4 0) (hu : bits v 4 0 ≤ 16) :
    d.evtRing v = { d with evt := { d.evt with
      ring := BitVec.ofNat 64 (bits v 63 12 * 4096 + bits v 4 0), head := 0, tail := 0 } } := by
  simp [Dev.evtRing, he, hl, hu]

theorem Dev.evtRing_dropped (d : Dev) {v : Nat} (h : d.evt.enable = true ∨ bits v 4 0 < 6 ∨ 16 < bits v 4 0) :
    d.evtRing v = d.streamConfig 0x3000 := by
  refine if_neg ?_
  rw [Bool.and_eq_true, decide_eq_true_eq, Bool.not_eq_true']
  rintro ⟨off, hl, hu⟩
  rcases h with on | size
  · exact absurd (on.symm.trans off) (by decide)
  · omega

theorem evtRingWrite_takes {s : State} (h : 4 ≤ s.dev.start.step) (v : BitVec 64) :
    (s.dev.evt.enable = false → 6 ≤ bits v.toNat 4 0 → bits v.toNat 4 0 ≤ 16 →
      exec (.evtRingWrite v) s = .next (s.withDev fun d => { d with evt := { d.evt with
        ring := BitVec.ofNat 64 (bits v.toNat 63 12 * 4096 + bits v.toNat 4 0), head := 0, tail := 0 } })) ∧
    ((s.dev.evt.enable = true ∨ bits v.toNat 4 0 < 6 ∨ 16 < bits v.toNat 4 0) →
      exec (.evtRingWrite v) s = .next (s.withDev fun d => d.streamConfig 0x3000)) := by
  rw [exec_evtRingWrite h]
  simp only [State.withDev]
  exact ⟨fun he hl hu => by rw [Dev.evtRing_taken _ he hl hu], fun hd => by rw [Dev.evtRing_dropped _ hd]⟩

theorem exec_evtEnable {s : State} (h : 4 ≤ s.dev.start.step) (v : BitVec 32) :
    exec (.evtEnable v) s =
      .next (s.withDev fun d => { d with evt := { d.evt with enable := v.toNat.testBit 0 } }) := by
  rw [← bit_eq_testBit]
  exact hostEarly_next h _

theorem exec_evtHeadWrite {s : State} (h : 4 ≤ s.dev.start.step) (v : BitVec 32) :
    exec (.evtHeadWrite v) s = .next (s.withDev fun d => { d with evt := { d.evt with head := v } }) :=
  hostEarly_next h _

theorem Dev.ringWrite_evt (d : Dev) (r : Rec) (rest : List Rec) :
    (d.ringWrite r rest).evt = { d.evt with
      buffer := rest, reserve := d.evt.reserve.filter fun q => q != r.seq, tail := d.evt.tail + 1, lostBefore := false } := by
  simp [Dev.ringWrite]

/-- The record goes to the slot of TAIL, with the phase of its round. -/
theorem Dev.ringWrite_out (d : Dev) (r : Rec) (rest : List Rec) :
    Output.hostWrite (bits d.evt.ring.toNat 63 12 * 4096 + d.evt.tail.toNat % d.evt.size * 64)
      (r.bytes d.evt.lostBefore (d.evt.tail.toNat / d.evt.size % 2 == 0)) ∈ (d.ringWrite r rest).out := by
  refine Dev.out_msix (d := { d.emit _ with evt := _ }) (List.Subset.refl _) _ ?_
  exact List.mem_append_right _ (List.mem_singleton.mpr rfl)

theorem eventRingWrite_takes {s : State} {r : Rec} {rest : List Rec} (hb : s.dev.evt.buffer = r :: rest) :
    (s.dev.evtRoom = 0 → exec .eventRingWrite s = .next s) ∧
    (s.dev.evtRoom ≠ 0 → exec .eventRingWrite s = .next (s.withDev fun d => d.ringWrite r rest)) := by
  constructor
  · intro full
    refine devOnly_same s ?_
    simp [hb, full]
  · intro room
    refine devOnly_next_of s ?_
    simp [hb, room]

/-! ### Vectors (R410, R423) -/

/-- Sending one pending vector, if it is unmasked. -/
def Dev.flushOne (d : Dev) (x : Nat × Bool) : Dev :=
  if x.2 && NSet.has d.pcie.unmasked x.1 then
    { d with pcie := { d.pcie with pba := NSet.del d.pcie.pba x.1 } }.emit (.msix x.1)
  else d

theorem Dev.msixFlush_of_busMaster {d : Dev} (h : d.pcie.busMaster = true) :
    d.msixFlush = d.pcie.pba.foldl Dev.flushOne d := by
  simp only [Dev.msixFlush, h]
  rfl

theorem Dev.flushOne_pcie (d : Dev) (x : Nat × Bool) :
    (d.flushOne x).pcie.busMaster = d.pcie.busMaster ∧ (d.flushOne x).pcie.unmasked = d.pcie.unmasked := by
  unfold Dev.flushOne
  split <;> exact ⟨rfl, rfl⟩

/-- A vector that has been sent stays sent. -/
theorem Dev.flushOne_sent (d : Dev) (x : Nat × Bool) {v : Nat}
    (h : NSet.has d.pcie.pba v = false ∧ Output.msix v ∈ d.out) :
    NSet.has (d.flushOne x).pcie.pba v = false ∧ Output.msix v ∈ (d.flushOne x).out := by
  unfold Dev.flushOne
  split
  · refine ⟨?_, Dev.out_emit (d := { d with pcie := _ }) (List.Subset.refl _) _ h.2⟩
    exact (NSet.has_del _ _ _).trans (by rw [h.1, Bool.and_false])
  · exact h

theorem Dev.flushOne_sends {d : Dev} {v : Nat} (hu : NSet.has d.pcie.unmasked v = true) :
    NSet.has (d.flushOne (v, true)).pcie.pba v = false ∧ Output.msix v ∈ (d.flushOne (v, true)).out := by
  rw [Dev.flushOne, if_pos (by simpa using hu)]
  exact ⟨(NSet.has_del _ _ _).trans (by simp), List.mem_append_right _ (List.mem_singleton.mpr rfl)⟩

/-- Every vector among those that are flushed is sent, where it is unmasked. -/
theorem Dev.foldl_flushOne_sends {l : NSet} {v : Nat} (hv : (v, true) ∈ l) {d : Dev}
    (hu : NSet.has d.pcie.unmasked v = true) :
    NSet.has (l.foldl Dev.flushOne d).pcie.pba v = false ∧ Output.msix v ∈ (l.foldl Dev.flushOne d).out := by
  induction l generalizing d with
  | nil => exact absurd hv List.not_mem_nil
  | cons x l ih =>
    rw [List.foldl_cons]
    rcases List.mem_cons.mp hv with rfl | hl
    · exact foldl_inv (fun d => NSet.has d.pcie.pba v = false ∧ Output.msix v ∈ d.out) Dev.flushOne
        (fun d x h => d.flushOne_sent x h) l _ (Dev.flushOne_sends hu)
    · exact ih hl (by rw [(d.flushOne_pcie x).2]; exact hu)

theorem NSet.mem_of_has {m : NSet} {k : Nat} (h : NSet.has m k = true) : (k, true) ∈ m := by
  rcases AMap.get_eq_or_mem false m k with none | listed
  · exact absurd (h.symm.trans none) (by decide)
  · have e : AMap.get false m k = true := h
    rwa [e] at listed

theorem Dev.msixFlush_masterOff {d : Dev} (h : d.pcie.busMaster = false) : d.msixFlush = d := by
  simp [Dev.msixFlush, h]

theorem busMasterOn_sends (s : State) :
    ∃ t, exec (.busMasterEnable true) s = .next t ∧ t.mem = s.mem ∧ t.dev.pcie.busMaster = true ∧
      ∀ v, NSet.has s.dev.pcie.pba v = true → NSet.has s.dev.pcie.unmasked v = true →
        NSet.has t.dev.pcie.pba v = false ∧ Output.msix v ∈ t.dev.out := by
  let d : Dev := { s.dev with pcie := { s.dev.pcie with busMaster := true } }
  have flush : d.msixFlush = d.pcie.pba.foldl Dev.flushOne d := Dev.msixFlush_of_busMaster rfl
  refine ⟨s.withDev fun _ => d.msixFlush, rfl, rfl, ?_, fun v pending unmasked => ?_⟩
  · show d.msixFlush.pcie.busMaster = true
    rw [flush]
    exact foldl_keeps (fun d => d.pcie.busMaster) Dev.flushOne (fun d x => (d.flushOne_pcie x).1) _ d
  · show NSet.has d.msixFlush.pcie.pba v = false ∧ _ ∈ d.msixFlush.out
    rw [flush]
    exact Dev.foldl_flushOne_sends (NSet.mem_of_has pending) unmasked

/-- Settles O53: the writes of the ring's registers, the record that goes out, and the vectors that have waited. -/
theorem eventRingAndVectors : Obligations.EventRingAndVectors := by
  refine ⟨fun s v h => evtRingWrite_takes h v, fun s v h => ⟨exec_evtEnable h v, exec_evtHeadWrite h v⟩,
    fun s hb => devOnly_same s (by simp [hb]), fun s r rest hb => ⟨(eventRingWrite_takes hb).1, fun room => ?_⟩,
    fun s => ⟨devOnly_next_of s (Dev.msixFlush_masterOff rfl), busMasterOn_sends s⟩⟩
  refine ⟨_, (eventRingWrite_takes hb).2 room, rfl, ?_, ?_, ?_, s.dev.ringWrite_out r rest⟩
  all_goals simp only [State.withDev, Dev.ringWrite_evt]

/-! ### The management controller (R437 to R439) -/

theorem exec_readReg {s : State} (h : s.dev.start.standby = true) (o n : Nat) :
    exec (.readReg o n) s = .next (s.withDev fun d => d.emit (s.dev.regAnswer o n)) := devOnly_next_of s (if_pos h)

/-- An access of 4 or 8 bytes, aligned, whose words the controller may read, is answered. -/
theorem Dev.regAnswer_read {d : Dev} {o n : Nat} (hn : n = 4 ∨ n = 8) (ha : o % n = 0)
    (hp : 3 ≤ d.start.step ∨ allWords mgmtStandby o n = true) (hr : allWords mgmtReadable o n = true) :
    d.regAnswer o n = .regAnswer (some (d.readBytes o n)) := by
  have ok : ((n == 4 || n == 8) && o % n == 0) = true := by simp [hn, ha]
  have ready : (!d.packageUp && !(true && allWords mgmtStandby o n)) = false := by
    rcases hp with up | kept <;> simp [Dev.packageUp, *]
  simp only [Dev.regAnswer, ok, ready, hr, Bool.and_self, Bool.false_eq_true, if_false, if_true]

theorem Dev.regAnswer_none {d : Dev} {o n : Nat} (hp : 3 ≤ d.start.step)
    (h : mgmtReadable o = false ∨ n ≠ 4 ∧ n ≠ 8 ∨ o % n ≠ 0) : d.regAnswer o n = .regAnswer none := by
  have up : d.packageUp = true := decide_eq_true hp
  have unread : (((n == 4 || n == 8) && o % n == 0) && allWords mgmtReadable o n) = false := by
    rcases h with hr | ⟨h4, h8⟩ | ha
    · simp [allWords, hr]
    · simp [h4, h8]
    · simp [ha]
  simp only [Dev.regAnswer, up, unread, Bool.not_true, Bool.false_and, Bool.false_eq_true, if_false]

theorem Dev.regAnswer_notReady {d : Dev} {o : Nat} (n : Nat) (hp : d.start.step < 3) (h : mgmtStandby o = false) :
    d.regAnswer o n = .notReady := by
  have down : d.packageUp = false := decide_eq_false (by omega)
  have lost : allWords mgmtStandby o n = false := by simp [allWords, h]
  simp [Dev.regAnswer, down, lost]

theorem exec_readReg_narrow {s : State} (h : s.dev.start.standby = true) {o : Nat}
    (hp : 3 ≤ s.dev.start.step ∨ mgmtStandby o = true) (ha : o % 4 = 0) (hr : mgmtReadable o = true) :
    exec (.readReg o 4) s = .next (s.withDev fun d => d.emit (.regAnswer (some (s.dev.word o)))) := by
  rw [exec_readReg h, Dev.regAnswer_read (.inl rfl) ha (by simpa [allWords] using hp) (by simpa [allWords] using hr)]
  rfl

theorem exec_readReg_wide {s : State} (h : s.dev.start.standby = true) {o : Nat} (hp : 3 ≤ s.dev.start.step)
    (ha : o % 8 = 0) (hr : mgmtReadable o = true) (hr4 : mgmtReadable (o + 4) = true) :
    exec (.readReg o 8) s =
      .next (s.withDev fun d => d.emit (.regAnswer (some (s.dev.word o + 2 ^ 32 * s.dev.word (o + 4))))) := by
  rw [exec_readReg h, Dev.regAnswer_read (.inr rfl) ha (.inl hp) (by simp [allWords, hr, hr4])]
  simp only [Dev.readBytes, BEq.rfl, if_true, fld, Nat.mul_comm]

theorem exec_readEvent_up {s : State} (h : s.dev.start.standby = true) (hp : 3 ≤ s.dev.start.step) (i : Nat) :
    exec (.readEvent i) s = .next (s.withDev fun d => d.emit
      (.eventAnswer (s.dev.evt.recent[i]?.map fun r => r.bytes false false))) := by
  have up : s.dev.packageUp = true := decide_eq_true hp
  refine devOnly_next_of s ?_
  simp only [Dev.mgmtUp, h, up, Bool.not_true, Bool.false_eq_true, if_false]

theorem exec_readEvent_down {s : State} (h : s.dev.start.standby = true) (hp : s.dev.start.step < 3) (i : Nat) :
    exec (.readEvent i) s = .next (s.withDev fun d => d.emit .notReady) := by
  have down : s.dev.packageUp = false := decide_eq_false (by omega)
  refine devOnly_next_of s ?_
  simp only [Dev.mgmtUp, h, down, Bool.not_true, Bool.not_false, Bool.false_eq_true, if_false, if_true]

/-- The answer to a request of another standard: its kind and a free value (log entry 3). -/
theorem Dev.mctp_answers {d : Dev} (h : d.start.standby = true) (kind : Nat) (req : List Byte) :
    d.mctp kind req =
      Dev.emit { d with free := d.free + 1 } (.mctp (leBytes 1 kind ++ mctpAnswer kind req d.free)) := if_pos h

theorem mctp_silent {s : State} (h : s.dev.start.standby = false) (kind : Nat) (req : List Byte) :
    s.dev.mctp kind req = s.dev := if_neg (by rw [Dev.mgmtUp, h]; exact Bool.false_ne_true)

theorem management_silent {s : State} (h : s.dev.start.standby = false) (o n i : Nat) (q : List Byte) :
    exec (.readReg o n) s = .next s ∧ exec (.readEvent i) s = .next s ∧ exec (.mctpControl q) s = .next s ∧
      exec (.pldm q) s = .next s ∧ exec (.spdm q) s = .next s :=
  ⟨devOnly_same s (by simp [Dev.mgmtUp, h]), devOnly_same s (by simp [Dev.mgmtUp, h]), devOnly_same s (mctp_silent h 0 q),
    devOnly_same s (mctp_silent h 1 q), devOnly_same s (mctp_silent h 5 q)⟩

/-- Settles O54: which registers are answered, the records, and answers of other standards. That a record is answered
with PHASE 0 and LOST_BEFORE 0 is log entry 84. -/
theorem managementAnswers : Obligations.ManagementAnswers := by
  refine ⟨fun s o n i q h => management_silent h o n i q, fun s h => ⟨fun o hp ha hr => exec_readReg_narrow h hp ha hr,
    fun o hp ha hr hr4 => exec_readReg_wide h hp ha hr hr4, fun o n hp hb => ?_,
    fun o n i hp hk => ⟨?_, exec_readEvent_down h hp i⟩, fun i hp => exec_readEvent_up h hp i, fun req => ?_⟩⟩
  · rw [exec_readReg h, Dev.regAnswer_none hp hb]
  · rw [exec_readReg h, Dev.regAnswer_notReady n hp hk]
  · exact ⟨_, _, _, devOnly_next_of s (Dev.mctp_answers h 0 req), devOnly_next_of s (Dev.mctp_answers h 1 req),
      devOnly_next_of s (Dev.mctp_answers h 5 req)⟩

/-! ### Keys and debug (R432, R435, R436) -/

/-- The four rows of BOOT_CTRL are its write. -/
theorem bootRow_next {s : State} (h : 4 ≤ s.dev.start.step) (v : BitVec 32) :
    done s (fun w => w.ite w.dev.hostEarly fun w => w.bootCtrl v.toNat) = .next (s.after (s.work.bootCtrl v.toNat)) :=
  done_next_of s (if_pos (Dev.hostEarly_of h))

theorem bootRow_early {s : State} (h : s.dev.start.step < 4) (v : BitVec 32) :
    done s (fun w => w.ite w.dev.hostEarly fun w => w.bootCtrl v.toNat) = .next s := by
  have closed : s.dev.hostEarly = false := decide_eq_false (by omega)
  refine done_same s ?_
  simp [Wk.ite, State.work, closed]

/-- What finishes is recorded with its result. -/
@[simp] theorem Dev.bootDone_boot (d : Dev) (r : Nat) :
    (d.bootDone r).boot = { d.boot with result := r, done := true } := rfl

/-- Extending a measurement changes measurements and the log alone. -/
theorem Dev.extend_boot (d : Dev) (i k digest : Nat) (lap : W64) :
    (d.extend i k digest lap).boot.revoked = d.boot.revoked ∧ (d.extend i k digest lap).boot.nonceUse = d.boot.nonceUse ∧
      (d.extend i k digest lap).boot.dbgFuse = d.boot.dbgFuse := ⟨rfl, rfl, rfl⟩

theorem Dev.setDebug_boot (d : Dev) (st : DebugState) (scope : Nat) :
    (d.setDebug st scope).boot = { d.boot with dbg := st, scope := scope } := by
  unfold Dev.setDebug
  split
  next same =>
    obtain ⟨hd, hs⟩ : d.boot.dbg = st ∧ d.boot.scope = scope := by simpa using same
    subst hd hs
    rfl
  next => simp

theorem Wk.revokeSlots_boot (w : Wk) :
    w.revokeSlots.dev.boot.done = true ∧ w.revokeSlots.dev.boot.result = w.revokeResult ∧
    w.revokeSlots.dev.boot.revoked = (if w.revokeResult = 0
      then w.dev.boot.revoked ||| BitVec.ofNat 4 (bits (numAt w.token 4 1) 3 0) else w.dev.boot.revoked) := by
  simp only [Wk.revokeSlots, Wk.up]
  by_cases passes : w.revokeResult = 0
  · simp [passes, Dev.extend_boot]
  · simp [passes]

theorem Wk.unlockDebug_boot (w : Wk) :
    w.unlockDebug.dev.boot.done = true ∧ w.unlockDebug.dev.boot.result = w.unlockResult ∧
    w.unlockDebug.dev.boot.nonceUse = w.dev.boot.nonceUse + 1 ∧
    (w.unlockResult = 0 → w.unlockDebug.dev.boot.dbg = .unlocked ∧
      w.unlockDebug.dev.boot.scope = bits (numAt w.token 4 1) 2 0) ∧
    (w.unlockResult ≠ 0 → w.unlockDebug.dev.boot.dbg = w.dev.boot.dbg) := by
  simp only [Wk.unlockDebug, Wk.up]
  by_cases passes : w.unlockResult = 0
  · simp [passes, Dev.extend_boot, Dev.setDebug_boot]
  · simp [passes]

theorem Dev.lockDebug_boot (d : Dev) :
    d.lockDebug.boot.result = 0 ∧ d.lockDebug.boot.dbg = if d.boot.dbg = .unlocked then .locked else d.boot.dbg := by
  unfold Dev.lockDebug
  by_cases unlocked : d.boot.dbg = .unlocked <;> simp [unlocked, Dev.setDebug_boot]

theorem Dev.fuseDebug_boot (d : Dev) :
    d.fuseDebug.boot.result = 0 ∧ d.fuseDebug.boot.dbgFuse = true ∧ d.fuseDebug.boot.dbg = .fused := by
  simp [Dev.fuseDebug, Dev.setDebug_boot]

/-- Several requests in one write: RESULT alone changes (the model's choice, log entry 83). -/
theorem Wk.bootCtrl_several (w : Wk) {v : Nat} (h : v % 16 ∉ [0, 1, 2, 4, 8]) :
    w.bootCtrl v = w.up fun d => { d with boot := { d.boot with result := bootState } } := by
  simp only [List.mem_cons, List.not_mem_nil, or_false, not_or] at h
  obtain ⟨h0, h1, h2, h4, h8⟩ := h
  unfold Wk.bootCtrl
  split
  next e => exact absurd e h0
  next e => exact absurd e h1
  next e => exact absurd e h2
  next e => exact absurd e h4
  next e => exact absurd e h8
  next => rfl

/-- Settles O55, request by request. That LOCK while FUSED finishes OK and changes nothing, and that several requests set
no DONE, is log entry 83. -/
theorem keysAndDebug : Obligations.KeysAndDebug := by
  refine ⟨fun s v h => ⟨bootRow_early h v, bootRow_early h v, bootRow_early h v, bootRow_early h v⟩, fun s h => ⟨?_, ?_, ?_, ?_, ?_⟩⟩
  · intro v several
    refine (bootRow_next h v).trans ?_
    rw [Wk.bootCtrl_several _ several]
    rfl
  · exact ⟨_, bootRow_next h 1, rfl, s.work.revokeSlots_boot⟩
  · exact ⟨_, bootRow_next h 2, rfl, s.work.unlockDebug_boot⟩
  · exact ⟨_, bootRow_next h 4, rfl, s.dev.lockDebug_boot⟩
  · exact ⟨_, bootRow_next h 8, rfl, s.dev.fuseDebug_boot⟩

end Sys2Proof.Machine
end

section
/-! RELAY LINKS: training, identities, and what a port leaves its link for (R297, R298, R304, R314, R315, R317, R326, R351,
R352). What a port sends changes its sequence numbers and its store alone, so its link stays. -/

namespace Sys2Proof.Machine
open Sys2Proof.Config

variable {s : State} {d : Dev} {q : Nat}

/-! ### The link of a port -/

/-- A port but for what it has sent and its event bits. -/
def Port.link (p : Port) : Port := { p with txSeq := [], store := [], evt := 0 }

/-- The links of two blocks agree. -/
def Dev.sameLinks (d e : Dev) : Prop := ∀ q, (e.port q).link = (d.port q).link

theorem Dev.sameLinks.trans {a b c : Dev} (h : a.sameLinks b) (k : b.sameLinks c) : a.sameLinks c :=
  fun q => (k q).trans (h q)

/-- A field of a port that is part of its link stays. -/
theorem Dev.sameLinks.field {α : Type} {d e : Dev} (h : d.sameLinks e) (f : Port → α) (q : Nat)
    (hf : ∀ p : Port, f p.link = f p := by intro; rfl) : f (e.port q) = f (d.port q) := by
  rw [← hf, h q, hf]

/-- Ports are fields of the Relay. -/
theorem Dev.sameLinks_of_rly {e : Dev} (h : e.rly = d.rly) : d.sameLinks e := fun q => by
  rw [Dev.port, Dev.port, h]

theorem Dev.sameLinks_of_ports {e : Dev} (h : e.rly.ports = d.rly.ports) : d.sameLinks e := fun q => by
  rw [Dev.port, Dev.port, h]

theorem Dev.sameLinks_foldl {α : Type} {f : Dev → α → Dev} (h : ∀ (d : Dev) x, d.sameLinks (f d x)) (l : List α) (d : Dev) :
    d.sameLinks (l.foldl f d) :=
  foldl_inv (fun e => d.sameLinks e) f (fun e x k => k.trans (h e x)) l d fun _ => rfl

/-- A change of a port that keeps its link keeps every link. -/
theorem Dev.sameLinks_setPort (d : Dev) (q : Nat) (f : Port → Port) (hf : ∀ p : Port, (f p).link = p.link) :
    d.sameLinks (d.setPort q f) := fun r => by
  by_cases h : r = q
  · subst h
    rw [Dev.port_setPort, hf]
  · rw [Dev.port_setPort_other d f h]

theorem Dev.launch_links (d : Dev) (q : Nat) (x : Machine.Sent) (fresh : Bool) : d.sameLinks (d.launch q x fresh) := by
  unfold Dev.launch
  exact Dev.sameLinks_setPort d q _ fun _ => rfl

theorem Dev.sendOut_links (d : Dev) (x : Machine.Sent) : d.sameLinks (d.sendOut x) := by
  simp only [Dev.sendOut]
  split
  · exact d.launch_links _ x _
  · exact Dev.sameLinks_of_ports rfl

theorem Dev.reroute_links (d : Dev) : d.sameLinks d.reroute :=
  (Dev.sameLinks_of_ports rfl).trans (Dev.sameLinks_foldl Dev.sendOut_links _ _)

theorem Dev.resendStore_links (d : Dev) (q : Nat) : d.sameLinks (d.resendStore q) :=
  ((d.sameLinks_setPort q (fun p => { p with store := [] }) fun _ => rfl).trans (Dev.sameLinks_of_ports rfl)).trans
    (Dev.reroute_links _)

theorem Dev.portEvt_links (d : Dev) (q n : Nat) : d.sameLinks (d.portEvt q n) :=
  (d.sameLinks_setPort q (fun p => { p with evt := p.evt ||| BitVec.ofNat 8 (2 ^ n) }) fun _ => rfl).trans
    (Dev.sameLinks_of_rly (by simp [Dev.portEvt]))

theorem Dev.raise_links (d : Dev) (r : Rec) : d.sameLinks (d.raise r) := Dev.sameLinks_of_rly (by simp)

theorem Dev.linkProgress_links (d : Dev) : d.sameLinks d.linkProgress := by
  unfold Dev.linkProgress
  split <;> exact Dev.sameLinks_of_rly rfl

theorem Dev.domEvt_links (d : Dev) (n : Nat) : d.sameLinks (d.domEvt n) := Dev.sameLinks_of_rly (by simp [Dev.domEvt])

theorem Dev.send_links (d : Dev) (q : Nat) (m : Message) : d.sameLinks (d.send q m) := Dev.sameLinks_of_rly (by simp)

/-! ### A port takes another state (R304) -/

@[simp] theorem Dev.noteRemap_port (d : Dev) (q : Nat) : d.noteRemap.port q = d.port q := rfl

/-- A new state leaves a port its disabling and the lanes it has dropped. -/
theorem Dev.setPortState_port (d : Dev) (q : Nat) (st : PortState) :
    ((d.setPortState q st).port q).state = st ∧ ((d.setPortState q st).port q).dropped = (d.port q).dropped ∧
      ((d.setPortState q st).port q).disable = (d.port q).disable := by
  have stays {e f : Dev} (h : e.sameLinks f) (he : (e.port q).state = st ∧ (e.port q).dropped = (d.port q).dropped ∧
      (e.port q).disable = (d.port q).disable) : (f.port q).state = st ∧ (f.port q).dropped = (d.port q).dropped ∧
      (f.port q).disable = (d.port q).disable := by
    rwa [h.field Port.state, h.field Port.dropped, h.field Port.disable]
  simp only [Dev.setPortState]
  split
  · exact stays (((Dev.sameLinks_of_ports rfl).trans (Dev.portEvt_links (Dev.noteRemap _) q 3)).trans
      (Dev.resendStore_links _ q)) (by simp)
  · split
    · exact stays (Dev.reroute_links _) (by simp)
    · exact stays (Dev.reroute_links _) (by simp)

/-- Training again forgets the dropped lanes (the model's choice, log entry 39). -/
theorem Dev.trainAgain_port (d : Dev) (q : Nat) :
    ((d.trainAgain q).port q).dropped = 0 ∧
    ((d.trainAgain q).port q).state = if d.mayTrain q = true then .training else (d.port q).state := by
  have may : (d.setPort q fun p => { p with dropped := 0 }).mayTrain q = d.mayTrain q := by simp [Dev.mayTrain]
  simp only [Dev.trainAgain, may]
  split
  · obtain ⟨state, dropped, -⟩ := (d.setPort q fun p => { p with dropped := 0 }).setPortState_port q .training
    exact ⟨by rw [dropped, Dev.port_setPort], state⟩
  · simp

/-! ### LANE_DROP, LINK_DOWN, PORT_DISABLE, RETRAIN and CLR_SUSPECT (R304, R314, R315, R326) -/

theorem PortState.linked_iff (x : PortState) : (x == .up || x == .held) = true ↔ x = .up ∨ x = .held := by
  simp

theorem Dev.dropLane_port {lane : Nat} (margin : Bool) (used : (d.port q).lanesUp.toNat.testBit lane = true)
    (linked : (d.port q).state = .up ∨ (d.port q).state = .held) :
    ((d.dropLane q lane margin).port q).state = .training ∧
      ((d.dropLane q lane margin).port q).dropped = (d.port q).dropped ||| BitVec.ofNat 8 (2 ^ lane) := by
  have goes : (!(d.port q).lanesUp.toNat.testBit lane || !((d.port q).state == .up || (d.port q).state == .held)) = false := by
    rw [used, (PortState.linked_iff _).mpr linked]
    rfl
  simp only [Dev.dropLane, goes, Bool.false_eq_true, if_false]
  set off := (d.port q).dropped ||| BitVec.ofNat 8 (2 ^ lane)
  obtain ⟨state, dropped, -⟩ := (d.setPort q fun p => { p with dropped := off }).setPortState_port q .training
  have links : ∀ (e : Dev) r, e.sameLinks ((e.raise r).portEvt q 0) := fun e r =>
    (e.raise_links r).trans (Dev.portEvt_links _ q 0)
  exact ⟨((links _ _).field Port.state q).trans state, ((links _ _).field Port.dropped q).trans (dropped.trans (by rw [Dev.port_setPort]))⟩

theorem linkDown_takes {p : Fin 16} (linked : (s.dev.port p.val).state = .up ∨ (s.dev.port p.val).state = .held) :
    ∃ t, exec (.linkDown p) s = .next t ∧ t.mem = s.mem ∧ (t.dev.port p.val).state = .down := by
  refine ⟨s.withDev fun d => (d.setPortState p.val .down).linkProgress, devOnly_next_of s ?_, rfl, ?_⟩
  · exact if_pos ((PortState.linked_iff _).mpr linked)
  · exact ((Dev.linkProgress_links _).field Port.state p.val).trans (Dev.setPortState_port _ _ _).1

theorem Dev.portDisable_port (hs : (d.port q).state ≠ .suspect) :
    ((d.portDisable q true).port q).state = .down ∧ ((d.portDisable q true).port q).disable = true := by
  have goes : ((d.setPort q fun p => { p with disable := true }).port q).state ≠ .suspect := by rwa [Dev.port_setPort]
  have takes : (true && ((d.setPort q fun p => { p with disable := true }).port q).state != .suspect) = true := by
    simpa using goes
  simp only [Dev.portDisable, takes, if_true]
  obtain ⟨state, -, disable⟩ := (d.setPort q fun p => { p with disable := true }).setPortState_port q .down
  have links := Dev.linkProgress_links ((d.setPort q fun p => { p with disable := true }).setPortState q .down)
  exact ⟨(links.field Port.state q).trans state, (links.field Port.disable q).trans (disable.trans (by rw [Dev.port_setPort]))⟩

theorem Dev.clearSuspect_port (hs : (d.port q).state = .suspect) :
    ((d.clearSuspect q).port q).dropped = 0 ∧ ((d.clearSuspect q).port q).state =
      if (d.port q).disable = true ∨ d.pwr.cageFault.toNat.testBit q = true then .down else .training := by
  have may : (d.setPort q fun p => { p with state := .down }).mayTrain q =
      !((d.port q).disable || d.pwr.cageFault.toNat.testBit q) := by
    have left : (PortState.down != .suspect) = true := rfl
    simp [Dev.mayTrain, left]
  have goes : d.clearSuspect q = (d.setPort q fun p => { p with state := .down }).trainAgain q := by
    rw [Dev.clearSuspect, hs]
    rfl
  obtain ⟨dropped, state⟩ := (d.setPort q fun p => { p with state := .down }).trainAgain_port q
  refine ⟨goes ▸ dropped, ?_⟩
  rw [goes, state, may, Dev.port_setPort]
  cases (d.port q).disable <;> cases d.pwr.cageFault.toNat.testBit q <;> rfl

/-- Settles O39, row by row. That RETRAIN and CLR_SUSPECT forget the dropped lanes is log entry 39. -/
theorem portsLeaveTheirLink : Obligations.PortsLeaveTheirLink := by
  intro s q
  refine ⟨fun lane used linked => ?_, linkDown_takes, fun h hs => ?_, fun h may => ?_, fun h hs => ?_⟩
  · exact ⟨_, rfl, rfl, Dev.dropLane_port false used linked⟩
  · exact ⟨_, hostWrite_next h _, rfl, Dev.portDisable_port hs⟩
  · obtain ⟨dropped, state⟩ := s.dev.trainAgain_port q.val
    exact ⟨_, hostWrite_next h _, rfl, state.trans (if_pos may), dropped⟩
  · exact ⟨_, hostWrite_next h _, rfl, Dev.clearSuspect_port hs⟩

/-! ### LINK_TRAINING (R297, R298) -/

/-- The lanes that a training brings into use. -/
def Dev.lanesTrained (d : Dev) (q : Nat) (r : Training) : BitVec 8 := lanesUsed (r.lanes &&& ~~~(d.port q).dropped)

/-- Their number. -/
def Dev.widthTrained (d : Dev) (q : Nat) (r : Training) : Nat :=
  ((List.range 8).filter fun i => (d.lanesTrained q r).toNat.testBit i).length

/-- A lane that does not work after training is recorded (R297). -/
def Dev.lostLane (q n : Nat) (d : Dev) (i : Nat) : Dev :=
  (d.raise { Rec.of 0x0072 1 with unit := q, detail := leBytes 1 i ++ leBytes 1 n }).portEvt q 0

/-- The port once it has trained, its state still to be set. -/
def Dev.trained (d : Dev) (q : Nat) (r : Training) : Dev :=
  let work := r.lanes &&& ~~~(d.port q).dropped
  let lost := (List.range 8).filter fun i => !work.toNat.testBit i && !(d.port q).dropped.toNat.testBit i
  lost.foldl (Dev.lostLane q (d.widthTrained q r)) (d.setPort q fun p => { p with
    reversed := r.reversed, pnSwap := r.pnSwap, width := d.widthTrained q r, lanesUp := d.lanesTrained q r
    working := work, rttNs := r.rttNs })

theorem Dev.trained_port (d : Dev) (q : Nat) (r : Training) :
    ((d.trained q r).port q).width = d.widthTrained q r ∧ ((d.trained q r).port q).lanesUp = d.lanesTrained q r := by
  have links := Dev.sameLinks_foldl (f := Dev.lostLane q (d.widthTrained q r))
    fun e _ => (e.raise_links _).trans (Dev.portEvt_links _ q 0)
  simp only [Dev.trained, (links _ _).field Port.width, (links _ _).field Port.lanesUp, Dev.port_setPort, and_self]

/-- Training ends DOWN, ASYM, or ready for the peer's identity. -/
def Dev.endTraining (d : Dev) (q : Nat) (r : Training) : Dev :=
  let e := d.trained q r
  if d.widthTrained q r == 0 then (e.setPort q fun p => { p with state := .down, lanesUp := 0 }).linkProgress
  else if r.asym then
    (((e.setPort q fun p => { p with state := .asym }).raise { Rec.of 0x0073 1 with unit := q }).portEvt q 4).linkProgress
  else (e.setPort q fun p => { p with state := .training }).send q (.identity e.moduleId q .mz1 e.pcie.config.revision)

theorem exec_linkTraining {p : Fin 16} {r : Training} (may : s.dev.mayTrain p.val = true)
    (trains : (s.dev.port p.val).state = .down ∨ (s.dev.port p.val).state = .training) :
    exec (.linkTraining p r) s = .next (s.withDev fun d => d.endTraining p.val r) := by
  have goes : (!s.dev.mayTrain p.val || !((s.dev.port p.val).state == .down || (s.dev.port p.val).state == .training)) =
      false := by
    rcases trains with h | h <;> rw [may, h] <;> rfl
  exact devOnly_next_of s (if_neg (by rw [goes]; exact Bool.false_ne_true))

theorem Dev.endTraining_port (d : Dev) (q : Nat) (r : Training) :
    ((d.endTraining q r).port q).width = d.widthTrained q r ∧
    ((d.endTraining q r).port q).state =
      (if d.widthTrained q r = 0 then .down else if r.asym = true then .asym else .training) ∧
    (d.widthTrained q r ≠ 0 → ((d.endTraining q r).port q).lanesUp = d.lanesTrained q r) := by
  obtain ⟨width, lanes⟩ := d.trained_port q r
  simp only [Dev.endTraining]
  by_cases none : d.widthTrained q r = 0
  · have links := Dev.linkProgress_links
    simp [none, (links _).field Port.width, (links _).field Port.state, width]
  · by_cases asym : r.asym = true
    · have links : ∀ (e : Dev) x, e.sameLinks ((e.raise x).portEvt q 4).linkProgress := fun e x =>
        ((e.raise_links x).trans (Dev.portEvt_links _ q 4)).trans (Dev.linkProgress_links _)
      simp [none, asym, (links _ _).field Port.width, (links _ _).field Port.state, (links _ _).field Port.lanesUp, width,
        lanes]
    · have links := Dev.send_links
      simp [none, asym, (links _ _ _).field Port.width, (links _ _ _).field Port.state, (links _ _ _).field Port.lanesUp,
        width, lanes]

/-! ### IDENTITY (R297, R317, R351, R352) -/

/-- The port with the identity that its peer has sent. -/
def Dev.identified (d : Dev) (q : Nat) (id : Identity) : Dev := d.setPort q fun p => { p with
  peerKind := if id.kind == .vozer then 2 else 1, peerId := id.moduleId, peerPort := id.port.toNat }

/-- The identity is judged: it brings the port UP, as the map says or by remap, or leaves it HELD. -/
def Dev.judged (d : Dev) (q : Nat) (id : Identity) : Dev :=
  let re := !d.identityOk q id && d.remapOk q id
  let e := d.identified q id
  if d.identityOk q id || re then
    let up := e.setPort q fun p => { p with
      state := .up, peerPos := (d.live.posOf id.moduleId.toNat).getD 0xFFFF, remapped := re }
    if re then ((up.raise { Rec.of 0x0079 0 with unit := q, detail := up.wireDetail q id }).noteRemap).domEvt 3 else up
  else
    let held := e.setPort q fun p => { p with state := .held }
    (held.raise { Rec.of 0x0078 1 with unit := q, detail := held.wireDetail q id }).domEvt 2

theorem exec_identity {p : Fin 16} {id : Identity} (may : s.dev.mayTrain p.val = true)
    (trains : (s.dev.port p.val).state = .training) :
    exec (.identity p id) s = .next (s.withDev fun d => (d.judged p.val id).reroute.linkProgress) := by
  have goes : ((s.dev.port p.val).state != .training || !s.dev.mayTrain p.val) = false := by
    rw [may, trains]
    rfl
  exact devOnly_next_of s (if_neg (by rw [goes]; exact Bool.false_ne_true))

theorem Dev.judged_port (d : Dev) (q : Nat) (id : Identity) :
    ((d.judged q id).port q).peerId = id.moduleId ∧
    ((d.judged q id).port q).state = (if d.identityOk q id = true ∨ d.remapOk q id = true then .up else .held) ∧
    (d.identityOk q id = true → ((d.judged q id).port q).remapped = false) := by
  have recorded : ∀ (e : Dev) x n, e.sameLinks ((e.raise x).domEvt n) := fun e x n =>
    (e.raise_links x).trans (Dev.domEvt_links _ n)
  have remapped : ∀ (e : Dev) x n, e.sameLinks ((e.raise x).noteRemap.domEvt n) := fun e x n =>
    ((e.raise_links x).trans (Dev.sameLinks_of_ports rfl)).trans (Dev.domEvt_links _ n)
  simp only [Dev.judged, Dev.identified]
  cases ok : d.identityOk q id
  · cases re : d.remapOk q id
    · simp [(recorded _ _ _).field Port.peerId, (recorded _ _ _).field Port.state]
    · simp [(remapped _ _ _).field Port.peerId, (remapped _ _ _).field Port.state]
  · simp

/-- Settles O38: the port after each of the two rows. -/
theorem linksTrain : Obligations.LinksTrain := by
  refine ⟨fun s q r may trains => ⟨_, exec_linkTraining may trains, rfl, s.dev.endTraining_port q.val r⟩,
    fun s q id may trains => ⟨_, exec_identity may trains, rfl, ?_⟩⟩
  have links := (Dev.reroute_links (s.dev.judged q.val id)).trans (Dev.linkProgress_links _)
  obtain ⟨peerId, state, remapped⟩ := s.dev.judged_port q.val id
  exact ⟨(links.field Port.peerId q.val).trans peerId, (links.field Port.state q.val).trans state,
    fun ok => (links.field Port.remapped q.val).trans (remapped ok)⟩

end Sys2Proof.Machine
end

section
/-! RELAY FRAMES: data frames, landings that step their counters, and acknowledgements (R299, R300, R308, R310, R313,
R314). Frames that cannot be taken yet wait and are tried again (the model's choice, log entry 37). -/

namespace Sys2Proof.Machine
open Sys2Proof.Config

variable {s : State} {q : Fin 16} {w : Wk}

/-! ### DATA_FRAME (R299, R300) -/

theorem dataFrame_failed {f : List Byte} (bad : lcrcOk f = false) (n : Nat) : exec (.dataFrame q f n) s = .next s :=
  done_same s (if_pos (by simp [bad]))

theorem dataFrames_taken (s : State) (q : Fin 16) (f : List Byte) (n : Nat) :
    (lcrcOk f = false → exec (.dataFrame q f n) s = .next s) ∧
    (∀ w, s.dev.portUp q.val = true → lcrcOk f = true → numAt f 0 1 = 1 →
      s.work.receive q.val (Frame.ofBytes f) n = (w, true) →
      exec (.dataFrame q f n) s = .next (s.after w.retryBlocked)) ∧
    (∀ w, s.dev.portUp q.val = true → lcrcOk f = true → numAt f 0 1 = 1 →
      s.work.receive q.val (Frame.ofBytes f) n = (w, false) →
      exec (.dataFrame q f n) s = .next (s.after (w.up fun d =>
        { d with rly := { d.rly with blocked := d.rly.blocked ++ [(q.val, f)] } }))) := by
  have taken (up : s.dev.portUp q.val = true) (good : lcrcOk f = true) (data : numAt f 0 1 = 1) :
      ¬ (!s.work.dev.portUp q.val || !lcrcOk f || numAt f 0 1 != 1) = true := by
    have up' : s.work.dev.portUp q.val = true := up
    simp [up', good, data]
  refine ⟨fun bad => dataFrame_failed bad n, fun w up good data received => ?_, fun w up good data received => ?_⟩
  all_goals
    refine done_next_of s ((if_neg (taken up good data)).trans ?_)
    simp only [received]

/-! ### LANDING_COUNTER_INCREMENT (R308, R310, R316) -/

/-- A landing that has no write left goes, and its counter counts it unless a refusal spoiled it (R194). -/
def Dev.landed (d : Dev) (i : Nat) (l : Landing) : Dev := { d with rly := { d.rly with
  landings := d.rly.landings.eraseIdx i
  land := if l.failed then d.rly.land else AMap.upd 0 d.rly.land l.tag (· + BitVec.ofNat 32 l.count) } }

theorem Dev.landed_land (d : Dev) (i : Nat) (l : Landing) (k : Nat) :
    AMap.get 0 (d.landed i l).rly.land k = if k = l.tag ∧ l.failed = false
      then AMap.get 0 d.rly.land k + BitVec.ofNat 32 l.count else AMap.get 0 d.rly.land k := by
  unfold Dev.landed
  cases spoiled : l.failed
  · by_cases h : k = l.tag <;> simp [AMap.get_upd, h]
  · simp

/-- With no frame that waits nothing is tried again. -/
theorem Wk.retryBlocked_of_nil (h : w.dev.rly.blocked = []) : w.retryBlocked = w := by
  obtain ⟨b, ops, d⟩ := w
  have same : ({ d with rly := { d.rly with blocked := [] } } : Dev) = d := by rw [← h]
  rw [Wk.retryBlocked, h, Wk.each, List.foldl_nil, Wk.up, same]

theorem exec_landingCounterIncrement {i : Nat} {l : Landing} (hl : s.dev.rly.landings[i]? = some l)
    (none : s.dev.rly.blocked = []) (written : ∀ r ∈ s.dev.hbm.reqs, r.id ∉ l.reqs) :
    exec (.landingCounterIncrement i) s = .next (s.withDev fun d => d.landed i l) := by
  have acknowledged : (s.dev.hbm.reqs.any fun r => l.reqs.contains r.id) = false := by
    rw [List.any_eq_false]
    simpa using written
  rw [← State.after_up]
  refine done_next_of s ?_
  have hl' : s.work.dev.rly.landings[i]? = some l := hl
  have acknowledged' : (s.work.dev.hbm.reqs.any fun r => l.reqs.contains r.id) = false := acknowledged
  simp only [hl', acknowledged', Bool.false_eq_true, if_false]
  exact Wk.retryBlocked_of_nil none

/-! ### ACKNOWLEDGEMENT (R300, R313, R314) -/

theorem acknowledgement_takes (s : State) (q : Fin 16) (ch : Fin 4) (seq : BitVec 32) (refused : BitVec 16)
    (found : Option Machine.Sent) (hf : (s.dev.port q.val).store.find? (fun x => x.channel == ch.val && x.seq == seq) = found) :
    (found = none → exec (.acknowledgement q ch seq refused) s = .next s) ∧
    (∀ x, found = some x →
      let y := x.acked refused.toNat
      let others := (s.dev.port q.val).store.filter fun z => z != x
      let fourth := y.blocks.any fun b => decide (4 ≤ b.2)
      (y.blocks = [] → exec (.acknowledgement q ch seq refused) s =
        .next (s.withDev fun d => d.setPort q.val fun p => { p with store := others })) ∧
      (y.blocks ≠ [] → fourth = false → exec (.acknowledgement q ch seq refused) s =
        .next (s.withDev fun d =>
          (y.split.foldl (fun d z => d.launch q.val z true) (d.setPort q.val fun p => { p with store := others })).portEvt q.val 1)) ∧
      (y.blocks ≠ [] → fourth = true → exec (.acknowledgement q ch seq refused) s =
        .next (s.withDev fun d =>
          (d.setPort q.val fun p => { p with store := others ++ y.split }).suspect q.val))) := by
  refine ⟨fun none => ?_, fun x some => ⟨fun whole => ?_, fun left few => ?_, fun left fourth => ?_⟩⟩
  · subst none
    refine devOnly_same s ?_
    simp only [hf]
  all_goals subst some; refine devOnly_next_of s ?_
  · simp only [hf, whole, List.isEmpty_nil, if_true]
  · simp only [hf, List.isEmpty_eq_false_iff.mpr left, few, Bool.false_eq_true, if_false]
  · simp only [hf, List.isEmpty_eq_false_iff.mpr left, fourth, Bool.false_eq_true, if_false, if_true]

/-- Settles O40, row by row. That a refused block goes again in a frame of its own, and that frames which cannot be taken
are held, is log entries 36 and 37. -/
theorem framesLandAndLeave : Obligations.FramesLandAndLeave := by
  refine ⟨dataFrames_taken, fun s i l hl none written => ?_, fun s q ch seq refused => ?_⟩
  · exact ⟨_, exec_landingCounterIncrement hl none written, rfl, rfl, s.dev.landed_land i l⟩
  · exact acknowledgement_takes s q ch seq refused _ rfl

end Sys2Proof.Machine
end

section
/-! DOMAIN OPERATION: joining (R349, R350, R357). -/

namespace Sys2Proof.Machine
open Sys2Proof.Config

variable {s : State} {c : Contribution} {delay : BitVec 32}

/-! ### The request goes up (R349, R353) -/

/-- A message goes to the tick parent, unless that is a Vozer module. -/
theorem Dev.sendUp_out {d : Dev} {q : Nat} (m : Message) (hq : d.parentPort = some q) (mz1 : (d.port q).peerKind ≠ 2) :
    (d.sendUp m).out = d.out ++ [.control q m (m.frame d.lap.cycle)] := by
  have sent : ((d.port q).peerKind == 2 && !m.forVozer) = false := by simp [mz1]
  simp only [Dev.sendUp, hq, Dev.send, sent, Bool.false_eq_true, if_false, Dev.emit]

theorem Dev.sendUp_dom (d : Dev) (m : Message) : (d.sendUp m).dom = d.dom := by
  unfold Dev.sendUp
  split
  · exact d.send_dom _ _
  · rfl

theorem joinRequestRepeat_due (due : s.dev.dom.state = .awaiting ∧ s.dev.lap.lock = true ∧ 64 ≤ s.dev.dom.joinAge) :
    exec .joinRequestRepeat s = .next (s.withDev Dev.requestJoin) := by
  obtain ⟨awaiting, lock, age⟩ := due
  exact devOnly_next_of s (if_pos (by simp [awaiting, lock, age]))

theorem joinRequestRepeat_early
    (early : ¬ (s.dev.dom.state = .awaiting ∧ s.dev.lap.lock = true ∧ 64 ≤ s.dev.dom.joinAge)) :
    exec .joinRequestRepeat s = .next s :=
  devOnly_same s (if_neg (by simpa [and_assoc] using early))

/-! ### The starter's answer (R350) -/

/-- The starter notes the feed and the delay of a module. -/
def Dev.noteJoin (d : Dev) (p feed delay : Nat) : Dev := { d with dom := { d.dom with
  members := AMap.upd .zero d.dom.members p fun m => { m with feed := feed }, delays := AMap.set 0 d.dom.delays p delay } }

/-- A feed that is not the one of its role is recorded. -/
def Dev.feedRecord (d : Dev) (p feed : Nat) : Dev :=
  if feed == d.live.feed p then d else d.raise { Rec.of 0x007A 1 with detail := leBytes 2 p ++ leBytes 1 feed }

theorem Dev.feedRecord_dom (d : Dev) (p feed : Nat) : (d.feedRecord p feed).dom = d.dom := by
  unfold Dev.feedRecord
  split
  · rfl
  · exact d.raise_dom _

/-- A module is let in at the next edge. -/
def Dev.letIn (d : Dev) (c : Contribution) (delay : Nat) : Dev :=
  let p := c.pos.toNat
  let feed := byteAt c.data 0 0
  ((d.noteJoin p feed delay).feedRecord p feed).act 0x10 p [] 0

theorem joinRequest_letIn (joined : s.dev.inDomain = true) (there : s.dev.dom.state ≠ .alone)
    (starter : s.dev.starting = true) (noCause : s.dev.joinCause c delay.toNat = none)
    (out : s.dev.memberIn c.pos.toNat = false) (idle : s.dev.waiting 0x10 c.pos.toNat = false) :
    exec (.joinRequest c delay) s = .next (s.withDev fun d => d.letIn c delay.toNat) := by
  refine devOnly_next_of s ((if_neg (Dev.joined_of joined there)).trans ((if_neg (by simp [starter])).trans ?_))
  simp only [noCause, out, idle]
  rfl

theorem joinRequest_known (joined : s.dev.inDomain = true) (there : s.dev.dom.state ≠ .alone)
    (starter : s.dev.starting = true) (noCause : s.dev.joinCause c delay.toNat = none)
    (known : s.dev.memberIn c.pos.toNat = true ∨ s.dev.waiting 0x10 c.pos.toNat = true) :
    exec (.joinRequest c delay) s = .next s := by
  refine devOnly_same s ((if_neg (Dev.joined_of joined there)).trans ((if_neg (by simp [starter])).trans ?_))
  have stays : (s.dev.memberIn c.pos.toNat || s.dev.waiting 0x10 c.pos.toNat) = true := Bool.or_eq_true_iff.mpr known
  simp only [noCause, stays, if_true]

theorem joinRequest_refused {n : Nat} (joined : s.dev.inDomain = true) (there : s.dev.dom.state ≠ .alone)
    (starter : s.dev.starting = true) (cause : s.dev.joinCause c delay.toNat = some n) :
    exec (.joinRequest c delay) s = .next (s.withDev fun d => d.act 0x11 c.pos.toNat (leBytes 1 n) 0) := by
  refine devOnly_next_of s ((if_neg (Dev.joined_of joined there)).trans ((if_neg (by simp [starter])).trans ?_))
  simp only [cause]

theorem joinRequest_passedUp (joined : s.dev.inDomain = true) (there : s.dev.dom.state ≠ .alone)
    (other : s.dev.starting = false) :
    exec (.joinRequest c delay) s = .next (s.withDev fun d => d.sendUp (.contribution c)) :=
  devOnly_next_of s ((if_neg (Dev.joined_of joined there)).trans (if_pos (by simp [other])))

/-- An action of the starter adds to the decided list alone. -/
theorem Dev.act_members (d : Dev) (v p : Nat) (data : List Byte) (arg : W32) :
    (d.act v p data arg).dom.members = d.dom.members ∧ (d.act v p data arg).dom.delays = d.dom.delays := by
  simp only [Dev.act, Dev.decide_, Dev.sendDown_dom, and_self]

theorem Dev.letIn_notes (d : Dev) (c : Contribution) (delay : Nat) :
    (d.letIn c delay).waiting 0x10 c.pos.toNat = true ∧
    ((d.letIn c delay).member c.pos.toNat).feed = byteAt c.data 0 0 ∧
    AMap.get 0 (d.letIn c delay).dom.delays c.pos.toNat = delay := by
  refine ⟨Dev.act_waiting _ _ _ (by decide) c.pos.isLt, ?_, ?_⟩
  · simp only [Dev.member, Dev.letIn, Dev.act_members, Dev.feedRecord_dom, Dev.noteJoin, AMap.get_upd, if_true]
  · simp only [Dev.letIn, Dev.act_members, Dev.feedRecord_dom, Dev.noteJoin, AMap.get_set_same]

/-- Settles O41: the sequence from step 1, the repeated request, and the starter's answer. -/
theorem joiningADomain : Obligations.JoiningADomain := by
  refine ⟨fun s h => hostWrite_next h _, fun s => ⟨fun due => ?_, joinRequestRepeat_early⟩,
    fun s c delay joined there => ⟨joinRequest_passedUp joined there, fun n => joinRequest_refused joined there,
      joinRequest_known joined there, fun starter noCause out idle => ?_⟩⟩
  · refine ⟨_, joinRequestRepeat_due due, rfl, congrArg Domain.joinAge (Dev.sendUp_dom _ _), fun q hq mz1 => ?_⟩
    exact Dev.sendUp_out (d := { s.dev with dom := { s.dev.dom with joinAge := 0 } }) _ hq mz1
  · exact ⟨_, joinRequest_letIn joined there starter noCause out idle, rfl, s.dev.letIn_notes c delay.toNat⟩

end Sys2Proof.Machine
end

section
/-! WARM-UP SWEEP: full passes, items, posting and urgency (R373 to R379, R383). -/

namespace Sys2Proof.Machine
open Sys2Proof.Config

variable {s : State} {i : SweepItem}

/-! ### Items -/

/-- An item reads as what was made of it. -/
theorem Dev.item_setItem (d : Dev) (k : Nat) (f : Item → Item) : (d.setItem k f).item k = f (d.item k) := by
  simp [Dev.item, Dev.setItem, AMap.get_upd]

/-- The end of a full pass changes no item. -/
theorem Dev.itemDone_items (d : Dev) (k : Nat) : (d.itemDone k).swp.items =
    (d.setItem k fun _ => { Item.zero with lap := d.lap.count + 1, doneFull := d.swp.full }).swp.items := by
  unfold Dev.itemDone
  dsimp only
  split <;> rfl

theorem Dev.item_itemDone (d : Dev) (k : Nat) :
    (d.itemDone k).item k = { Item.zero with lap := d.lap.count + 1, doneFull := d.swp.full } := by
  rw [Dev.item, Dev.itemDone_items]
  exact d.item_setItem k _

theorem Dev.marched_swp (d : Dev) (c p : Nat) : (d.marched c p).swp = d.swp := by
  unfold Dev.marched
  split <;> rfl

/-! ### SWEEP_FULL (R379) -/

theorem sweepFull_takes (h : 6 ≤ s.dev.start.step) :
    (s.dev.allDisabled = true → ∃ t, exec .sweepFull s = .next t ∧ t.mem = s.mem ∧ t.dev.swp.full = true ∧
      t.dev.swp.urgentSeen = true) ∧
    (s.dev.allDisabled = false → exec .sweepFull s = .next (s.withDev fun d => d.streamConfig 0xC800)) := by
  have row : exec .sweepFull s = .next (s.withDev fun d => d.sweepFull) := hostWrite_next h _
  rw [row]
  simp only [State.withDev, Dev.sweepFull]
  refine ⟨fun idle => ⟨_, rfl, rfl, ?_⟩, fun busy => by rw [busy]; rfl⟩
  simp [idle, Dev.startFull]

/-! ### SWEEP_ITEM (R373 to R378) -/

theorem sweepStep_goes (may : s.dev.sweepMay i = true) : (!s.work.dev.sweepMay i) = false := by
  rw [show s.work.dev = s.dev from rfl, may]
  rfl

theorem sweepItem_waits (may : s.dev.sweepMay i = false) (r : SweepResult) : exec (.sweepItem i r) s = .next s :=
  done_same s (if_pos (by rw [show s.work.dev = s.dev from rfl, may]; rfl))

theorem sweepItem_piece (may : s.dev.sweepMay i = true) :
    exec (.sweepItem i .piece) s = .next (s.withDev fun d => d.pieceDone (sweepKey i)) :=
  done_next_of s (w := s.work.up fun d => d.pieceDone (sweepKey i))
    (if_neg (by rw [sweepStep_goes may]; exact Bool.false_ne_true))

/-- What completing an item brings: a march has rewritten the slots of its core (R147). -/
def Dev.completed (d : Dev) (i : SweepItem) : Dev :=
  match i with
  | .pond c p => (d.itemDone (sweepKey i)).marched c.val p.val
  | _ => d.itemDone (sweepKey i)

theorem sweepItem_complete (may : s.dev.sweepMay i = true) :
    exec (.sweepItem i .complete) s = .next (s.withDev fun d => d.completed i) := by
  refine done_next_of s (w := s.work.up fun d => d.completed i)
    ((if_neg (by rw [sweepStep_goes may]; exact Bool.false_ne_true)).trans ?_)
  cases i <;> rfl

theorem Dev.item_completed (d : Dev) (i : SweepItem) :
    (d.completed i).item (sweepKey i) = { Item.zero with lap := d.lap.count + 1, doneFull := d.swp.full } := by
  cases i with
  | pond c p =>
    rw [Dev.completed, Dev.item, Dev.marched_swp]
    exact d.item_itemDone _
  | engine c p => exact d.item_itemDone _
  | scrub k n => exact d.item_itemDone _
  | margin q l => exact d.item_itemDone _

theorem sweepItem_coreFail {c : Fin 128} {p : Fin 17} (hi : i = .engine c p ∨ i = .pond c p) (may : s.dev.sweepMay i = true) :
    exec (.sweepItem i .fail) s = .next (s.withDev fun d => d.coreFail c.val p.val) := by
  refine done_next_of s (w := s.work.up fun d => d.coreFail c.val p.val)
    ((if_neg (by rw [sweepStep_goes may]; exact Bool.false_ne_true)).trans ?_)
  rcases hi with rfl | rfl <;> rfl

theorem sweepItem_marginFail (s : State) (q : Fin 16) (l : Fin 8) : exec (.sweepItem (.margin q l) .fail) s =
    .next (s.withDev fun d => (d.sweepFail).dropLane q.val l.val true) := rfl

/-! ### SWEEP_POST and SWEEP_URGENT (R376, R377) -/

theorem sweepPost_posts (idle : (s.dev.item (sweepKey i)).posted = false) (late : s.dev.overdue (sweepKey i) = true) :
    exec (.sweepPost i) s =
      .next (s.withDev fun d => d.setItem (sweepKey i) fun x => { x with posted := true, prio := 0, age := 0 }) :=
  devOnly_next_of s (if_neg (by simp [idle, late]))

theorem sweepPost_stays (h : (s.dev.item (sweepKey i)).posted = true ∨ s.dev.overdue (sweepKey i) = false) :
    exec (.sweepPost i) s = .next s := devOnly_same s (if_pos (by simpa using h))

/-- A posted item becomes urgent, with its record. -/
def Dev.makeUrgent (d : Dev) (i : SweepItem) : Dev :=
  let d := d.setItem (sweepKey i) fun x => { x with urgent := true }
  (({ d with swp := { d.swp with urgentSeen := true } }.latch 0xC804 2).raise
    { Rec.of 0x0080 0 with detail := leBytes 1 (sweepKind i) }).msix 777

/-- A posted item at priority 7 that is no margin check, at an effective edge. -/
def Dev.urgentDue (d : Dev) (i : SweepItem) : Prop :=
  let x := d.item (sweepKey i)
  x.posted = true ∧ x.prio = 7 ∧ x.urgent = false ∧ sweepKind i ≠ 3 ∧ d.lap.cycle = 0 ∧ d.lap.held = false

theorem sweepUrgent_due (due : s.dev.urgentDue i) : exec (.sweepUrgent i) s = .next (s.withDev fun d => d.makeUrgent i) := by
  obtain ⟨posted, prio, urgent, kind, cycle, held⟩ := due
  exact devOnly_next_of s (if_pos (by simp [posted, prio, urgent, kind, cycle, held]))

theorem sweepUrgent_early (early : ¬ s.dev.urgentDue i) : exec (.sweepUrgent i) s = .next s :=
  devOnly_same s (if_neg (by simpa [Dev.urgentDue, and_assoc] using early))

theorem Dev.makeUrgent_item (d : Dev) (i : SweepItem) :
    (d.makeUrgent i).item (sweepKey i) = { d.item (sweepKey i) with urgent := true } ∧
      (d.makeUrgent i).swp.urgentSeen = true ∧ (d.makeUrgent i).evt.seq = d.evt.seq + 1 := by
  refine ⟨?_, ?_, ?_⟩
  · simp [Dev.makeUrgent, Dev.item, Dev.setItem, AMap.get_upd]
  · simp [Dev.makeUrgent]
  · simp [Dev.makeUrgent, Dev.raise_seq, Dev.setItem]

/-- Settles O56, row by row and result by result. -/
theorem sweepItems : Obligations.SweepItems := by
  refine ⟨fun s h => sweepFull_takes h, fun s i may => ⟨?_, ?_⟩, fun s i r may => sweepItem_waits may r,
    fun s c p q l => ⟨sweepItem_coreFail (.inl rfl), sweepItem_coreFail (.inr rfl), sweepItem_marginFail s q l⟩,
    fun s i => ⟨fun idle late => ?_, sweepPost_stays⟩, fun s i => ⟨fun due => ?_, sweepUrgent_early⟩⟩
  · exact ⟨_, sweepItem_piece may, rfl, s.dev.item_setItem _ _⟩
  · exact ⟨_, sweepItem_complete may, rfl, s.dev.item_completed i⟩
  · exact ⟨_, sweepPost_posts idle late, rfl, s.dev.item_setItem _ _⟩
  · exact ⟨_, sweepUrgent_due due, rfl, s.dev.makeUrgent_item i⟩

end Sys2Proof.Machine
end

section
/-! THE THROTTLE LADDER: samples, what the conditions ask for, and the shutdown of rung 3 (R447 to R450, R453). -/

namespace Sys2Proof.Machine
open Sys2Proof.Config

variable {d : Dev} {s : State}

/-! ### What records and vectors leave of the power registers -/

@[simp] theorem Dev.say_pwr (d : Dev) (r : Rec) : (d.say r).pwr = d.pwr := by
  unfold Dev.say
  split <;> simp

@[simp] theorem Dev.say_start (d : Dev) (r : Rec) : (d.say r).start = d.start := by
  unfold Dev.say
  split <;> simp

@[simp] theorem Dev.say_prm (d : Dev) (r : Rec) : (d.say r).prm = d.prm := by
  unfold Dev.say
  split <;> simp

@[simp] theorem Dev.sayOnce_pwr (d : Dev) (k : Nat) (r : Rec) : (d.sayOnce k r).pwr = d.pwr := by
  unfold Dev.sayOnce
  split <;> simp

@[simp] theorem Dev.sayOnce_start (d : Dev) (k : Nat) (r : Rec) : (d.sayOnce k r).start = d.start := by
  unfold Dev.sayOnce
  split <;> simp

@[simp] theorem Dev.replace_pwr (d : Dev) (n : Nat) : (d.replace n).pwr = d.pwr := by
  unfold Dev.replace
  dsimp only
  split
  · rfl
  · split <;> simp

@[simp] theorem Dev.replace_start (d : Dev) (n : Nat) : (d.replace n).start = d.start := by
  unfold Dev.replace
  dsimp only
  split
  · rfl
  · split <;> simp

/-- Bits of `PWR_EVT` are set, and no other power register changes. -/
@[simp] theorem Dev.pwrEvt_pwr (d : Dev) (m : BitVec 9) : (d.pwrEvt m).pwr = { d.pwr with evt := d.pwr.evt ||| m } := by
  unfold Dev.pwrEvt
  dsimp only
  split
  · rename_i none
    rw [beq_iff_eq.mp none, show d.pwr.evt ||| 0 = d.pwr.evt from BitVec.or_zero]
  · rw [Dev.msix_pwr, foldl_keeps Dev.pwr _ (fun d b => d.latch_pwr _ b)]

@[simp] theorem Dev.pwrEvt_start (d : Dev) (m : BitVec 9) : (d.pwrEvt m).start = d.start := by
  unfold Dev.pwrEvt
  dsimp only
  split
  · rfl
  · rw [Dev.msix_start, foldl_keeps Dev.start _ (fun d b => d.latch_start _ b)]

@[simp] theorem Dev.pwrEvt_prm (d : Dev) (m : BitVec 9) : (d.pwrEvt m).prm = d.prm := by
  unfold Dev.pwrEvt
  dsimp only
  split
  · rfl
  · rw [Dev.msix_prm, foldl_keeps Dev.prm _ (fun d b => d.latch_prm _ b)]

@[simp] theorem Dev.pwrEvt_mar (d : Dev) (m : BitVec 9) : (d.pwrEvt m).mar = d.mar := by
  unfold Dev.pwrEvt
  dsimp only
  split
  · rfl
  · rw [Dev.msix_mar, foldl_keeps Dev.mar _ (fun d b => d.latch_mar _ b)]

@[simp] theorem Dev.say_mar (d : Dev) (r : Rec) : (d.say r).mar = d.mar := by
  unfold Dev.say
  split <;> simp

@[simp] theorem Dev.showActive_pwr (d : Dev) : d.showActive.pwr =
    { d.pwr with
      active := d.activeBits, evt := d.pwr.evt ||| (d.activeBits &&& ~~~d.pwr.active).setWidth 9 } :=
  Dev.pwrEvt_pwr _ _

@[simp] theorem Dev.showActive_start (d : Dev) : d.showActive.start = d.start := Dev.pwrEvt_start _ _
@[simp] theorem Dev.showActive_prm (d : Dev) : d.showActive.prm = d.prm := Dev.pwrEvt_prm _ _

@[simp] theorem Dev.showRung_pwr (d : Dev) : d.showRung.pwr =
    { d.pwr with state := if 2 ≤ d.pwr.state ∧ d.pwr.state ≤ 4 then 2 + min 2 d.pwr.rung else d.pwr.state } := by
  unfold Dev.showRung
  split <;> rfl

@[simp] theorem Dev.showRung_start (d : Dev) : d.showRung.start = d.start := by
  unfold Dev.showRung
  split <;> rfl

@[simp] theorem Dev.showRung_prm (d : Dev) : d.showRung.prm = d.prm := by
  unfold Dev.showRung
  split <;> rfl

/-! ### The capacity of the governor -/

@[simp] theorem Dev.noteG_capEighths (d : Dev) : d.noteG.prm.capEighths = d.prm.capEighths := by
  unfold Dev.noteG
  dsimp only
  split <;> rfl

@[simp] theorem Dev.requestPermit_capEighths (d : Dev) (h : Heat) :
    (d.requestPermit h).prm.capEighths = d.prm.capEighths := by
  unfold Dev.requestPermit
  dsimp only
  split <;> simp

@[simp] theorem Dev.settleOne_capEighths (d : Dev) (h : Heat) : (d.settleOne h).prm.capEighths = d.prm.capEighths := by
  unfold Dev.settleOne
  simp only [apply_ite Dev.prm, apply_ite Permit.capEighths, Dev.setHeat_prm, Dev.requestPermit_capEighths, ite_self]

@[simp] theorem Dev.settle_capEighths (d : Dev) : d.settle.prm.capEighths = d.prm.capEighths := by
  unfold Dev.settle
  rw [Dev.noteG_capEighths]
  refine foldl_keeps (fun d => d.prm.capEighths) _ (fun d h => ?_) _ d
  split
  · exact d.settleOne_capEighths _
  · rfl

@[simp] theorem Dev.cancelRunning_capEighths (d : Dev) (c : Nat) :
    (d.cancelRunning c).prm.capEighths = d.prm.capEighths :=
  (Dev.settle_capEighths _).trans (foldl_keeps (fun d => d.prm.capEighths) _ (fun d h => by simp) _ d)

/-! ### Every running heat is cancelled (R191) -/

@[simp] theorem Dev.cancelEverywhere_pwr (d : Dev) : d.cancelEverywhere.pwr = d.pwr :=
  foldl_keeps Dev.pwr _ (fun d c => by simp) _ d

@[simp] theorem Dev.cancelEverywhere_start (d : Dev) : d.cancelEverywhere.start = d.start :=
  foldl_keeps Dev.start _ (fun d c => by simp) _ d

@[simp] theorem Dev.cancelEverywhere_flt (d : Dev) : d.cancelEverywhere.flt = d.flt :=
  foldl_keeps Dev.flt _ (fun d c => by simp) _ d

@[simp] theorem Dev.cancelEverywhere_boot (d : Dev) : d.cancelEverywhere.boot = d.boot :=
  foldl_keeps Dev.boot _ (fun d c => by simp) _ d

@[simp] theorem Dev.cancelEverywhere_capEighths (d : Dev) : d.cancelEverywhere.prm.capEighths = d.prm.capEighths :=
  foldl_keeps (fun d => d.prm.capEighths) _ (fun d c => by simp) _ d

theorem Dev.running_of_foldl_cancelRunning {l : List Nat} {y : Heat}
    (hy : y ∈ (l.foldl (fun d c => d.cancelRunning c) d).mar.heats) (hr : y.state = .running) :
    ∃ x ∈ d.mar.heats, x.id = y.id ∧ x.state = .running ∧ y.id.cluster.val ∉ l := by
  induction l generalizing d with
  | nil => exact ⟨y, hy, rfl, hr, List.not_mem_nil⟩
  | cons c l ih =>
    obtain ⟨z, hz, hzid, hzr, hl⟩ := ih hy
    obtain ⟨x, hx, hid, hxr, hc⟩ := Dev.running_of_cancelRunning hz hzr
    exact ⟨x, hx, hid.trans hzid, hxr, List.not_mem_cons_of_ne_of_not_mem (hzid ▸ hc) hl⟩

/-- No heat runs any more: one that did ran in a cluster of the list. -/
theorem Dev.cancelEverywhere_anyRunning (d : Dev) : d.cancelEverywhere.anyRunning = false := by
  refine List.any_eq_false.mpr fun y hy hr => ?_
  obtain ⟨x, hx, hid, hxr, out⟩ := Dev.running_of_foldl_cancelRunning hy (beq_iff_eq.mp hr)
  refine out (List.mem_filter.mpr ⟨List.mem_range.mpr y.id.cluster.isLt, List.any_eq_true.mpr ⟨x, hx, ?_⟩⟩)
  simp [hid, hxr]

/-! ### Rung 3 (R450) -/

theorem Dev.shutdown_pwr (d : Dev) (now : Bool) :
    (d.shutdown now).pwr = { d.pwr with state := if d.packageOn then 5 else d.pwr.state } := by
  unfold Dev.shutdown
  cases d.packageOn <;> cases now <;> simp

theorem Dev.shutdown_capEighths (d : Dev) (now : Bool) : (d.shutdown now).prm.capEighths = d.prm.capEighths := by
  unfold Dev.shutdown
  cases d.packageOn <;> cases now <;> simp

theorem Dev.shutdown_start (d : Dev) (now : Bool) :
    (d.shutdown now).start = { d.start with stopping := d.start.stopping || (now && d.packageOn) } := by
  unfold Dev.shutdown
  cases d.packageOn <;> cases now <;> simp

/-- A shutdown that does not wait for an edge. -/
theorem Dev.shutdown_atOnce (on : d.packageOn = true) :
    (d.shutdown true).start.stopping = true ∧ (d.shutdown true).anyRunning = false := by
  refine ⟨by simp [Dev.shutdown_start, on], ?_⟩
  unfold Dev.shutdown
  simp only [on, Bool.not_true, Bool.false_eq_true, if_false, if_true]
  exact Dev.cancelEverywhere_anyRunning _

/-! ### The ladder (R448, R449) -/

/-- What is in force: CAP_EIGHTHS, the clock of the next lap and the rung. -/
def Dev.inForce (d : Dev) : Nat × Nat × Nat := (d.prm.capEighths, d.pwr.clockNext, d.pwr.rung)

theorem Dev.inForce_iff {l : Nat × Nat × Nat} :
    d.inForce = l ↔ d.prm.capEighths = l.1 ∧ d.pwr.clockNext = l.2.1 ∧ d.pwr.rung = l.2.2 := by
  simp [Dev.inForce, Prod.ext_iff]

theorem Dev.level_of_conds {d e : Dev} (h : e.pwr.conds = d.pwr.conds) : e.level = d.level := by
  simp only [Dev.level, show e.cond = d.cond from funext fun k => by rw [Dev.cond, h]; rfl]

theorem Dev.ladder_conds (d : Dev) (now : Bool) : (d.ladder now).pwr.conds = d.pwr.conds := by
  unfold Dev.ladder
  dsimp only
  split
  · rfl
  · simp only [apply_ite Dev.pwr, Dev.shutdown_pwr, apply_ite Pwr.conds, Dev.pwrEvt_pwr, Dev.say_pwr, Dev.showRung_pwr,
      ite_self]

/-- What the conditions ask for is in force. -/
theorem Dev.ladder_inForce (d : Dev) (now : Bool) : (d.ladder now).inForce = d.level := by
  unfold Dev.ladder
  dsimp only
  split
  · rename_i same
    exact beq_iff_eq.mp same
  · simp only [Dev.inForce, apply_ite Dev.pwr, apply_ite Dev.prm, Dev.shutdown_pwr, apply_ite Permit.capEighths,
      Dev.shutdown_capEighths, apply_ite Pwr.clockNext, apply_ite Pwr.rung, Dev.pwrEvt_pwr, Dev.pwrEvt_prm, Dev.say_pwr,
      Dev.say_prm, Dev.showRung_pwr, Dev.showRung_prm, ite_self]

theorem Dev.ladder_edge (d : Dev) (now : Bool) : (d.ladder now).start.edge = d.start.edge := by
  unfold Dev.ladder
  dsimp only
  split
  · rfl
  · simp only [apply_ite Dev.start, Dev.shutdown_start, apply_ite Start.edge, Dev.pwrEvt_start, Dev.say_start,
      Dev.showRung_start, ite_self]

/-! ### The conditions take new values -/

theorem Dev.cond_setCond (d : Dev) (k j : Nat) (c : CondState) :
    (d.setCond k c).cond j = if j = k then c else d.cond j := AMap.get_set _ _ _ _ _

theorem Dev.cond_foldl_other {l : List (Nat × CondState)} {k : Nat} (hk : k ∉ l.map Prod.fst) :
    (l.foldl (fun d x => d.setCond x.1 x.2) d).cond k = d.cond k := by
  induction l generalizing d with
  | nil => rfl
  | cons x l ih =>
    rw [List.map_cons, List.mem_cons, not_or] at hk
    rw [List.foldl_cons, ih hk.2, Dev.cond_setCond, if_neg hk.1]

theorem Dev.cond_foldl_same {l : List (Nat × CondState)} (hl : (l.map Prod.fst).Nodup) {x : Nat × CondState} (hx : x ∈ l) :
    (l.foldl (fun d x => d.setCond x.1 x.2) d).cond x.1 = x.2 := by
  induction l generalizing d with
  | nil => exact absurd hx List.not_mem_nil
  | cons y l ih =>
    rw [List.map_cons, List.nodup_cons] at hl
    rw [List.foldl_cons]
    rcases List.mem_cons.mp hx with rfl | hx
    · rw [Dev.cond_foldl_other hl.1, Dev.cond_setCond, if_pos rfl]
    · exact ih hl.2 hx

/-- The conditions before the ladder follows them. -/
def Dev.entered (d : Dev) (l : List (Nat × CondState)) (reading : Nat → Nat) : Dev :=
  let d' := (l.foldl (fun d x => d.setCond x.1 x.2) d).showActive
  ((((l.filter fun x => (d.cond x.1).rung == 0 && x.2.rung != 0).map Prod.fst).filter fun k => decide (k < 5)).foldl
    (fun d k => d.say { Rec.of (0x00B1 + k) 1 with detail := leBytes 2 (reading k) }) d')

theorem Dev.setConds_eq (d : Dev) (l : List (Nat × CondState)) (f : Nat → Nat) (now : Bool) :
    d.setConds l f now = (d.entered l f).ladder now := rfl

theorem Dev.entered_pwr (d : Dev) (l : List (Nat × CondState)) (f : Nat → Nat) :
    (d.entered l f).pwr = (l.foldl (fun d x => d.setCond x.1 x.2) d).showActive.pwr :=
  foldl_keeps Dev.pwr _ (fun d _ => d.say_pwr _) _ _

theorem Dev.entered_cond (d : Dev) (l : List (Nat × CondState)) (f : Nat → Nat) (k : Nat) :
    (d.entered l f).cond k = (l.foldl (fun d x => d.setCond x.1 x.2) d).cond k := by
  rw [Dev.cond, Dev.entered_pwr, Dev.showActive_pwr]
  rfl

theorem Dev.setConds_cond (d : Dev) (l : List (Nat × CondState)) (f : Nat → Nat) (now : Bool) (k : Nat) :
    (d.setConds l f now).cond k = (l.foldl (fun d x => d.setCond x.1 x.2) d).cond k := by
  rw [← Dev.entered_cond d l f k, Dev.setConds_eq, Dev.cond, Dev.ladder_conds]
  rfl

theorem Dev.setConds_inForce (d : Dev) (l : List (Nat × CondState)) (f : Nat → Nat) (now : Bool) :
    (d.setConds l f now).inForce = (d.setConds l f now).level := by
  rw [Dev.setConds_eq, Dev.ladder_inForce]
  exact (Dev.level_of_conds (Dev.ladder_conds _ _)).symm

theorem Dev.setConds_edge (d : Dev) (l : List (Nat × CondState)) (f : Nat → Nat) (now : Bool) :
    (d.setConds l f now).start.edge = d.start.edge := by
  rw [Dev.setConds_eq, Dev.ladder_edge, Dev.entered, foldl_keeps Dev.start _ (fun d k => d.say_start _),
    Dev.showActive_start, foldl_keeps Dev.start (fun d (x : Nat × CondState) => d.setCond x.1 x.2) (fun _ _ => rfl)]

/-! ### A condition of rung 3 -/

/-- The highest rung that a list of conditions asks for. -/
theorem foldl_rung_le {l : List CondState} {n m : Nat} (hn : n ≤ m) (hl : ∀ c ∈ l, c.rung ≤ m) :
    l.foldl (fun n c => max n c.rung) n ≤ m := by
  induction l generalizing n with
  | nil => exact hn
  | cons c l ih => exact ih (max_le hn (hl c (List.mem_cons_self ..))) fun x hx => hl x (List.mem_cons_of_mem _ hx)

theorem le_foldl_rung {l : List CondState} {n m : Nat} (h : m ≤ n ∨ ∃ c ∈ l, m ≤ c.rung) :
    m ≤ l.foldl (fun n c => max n c.rung) n := by
  induction l generalizing n with
  | nil => simpa using h
  | cons c l ih =>
    refine ih ?_
    rcases h with h | ⟨x, hx, h⟩
    · exact .inl (le_max_of_le_left h)
    · rcases List.mem_cons.mp hx with rfl | hx
      · exact .inl (le_max_of_le_right h)
      · exact .inr ⟨x, hx, h⟩

/-- With a condition of rung 3 the level is rung 3, and no capacity is left. -/
theorem Dev.level_trips {k : Nat} (hk : k < 8) (h3 : (d.cond k).rung = 3) (hl : ∀ j, j < 8 → (d.cond j).rung ≤ 3) :
    d.level.2.2 = 3 ∧ d.level.1 = 0 := by
  have rung : ((List.range 8).map d.cond).foldl (fun n c => max n c.rung) 0 = 3 := by
    refine Nat.le_antisymm (foldl_rung_le (by decide) ?_) (le_foldl_rung (.inr ⟨_, ?_, h3.ge⟩))
    · exact List.forall_mem_map.mpr fun j hj => hl j (List.mem_range.mp hj)
    · exact List.mem_map_of_mem (List.mem_range.mpr hk)
  unfold Dev.level
  dsimp only
  rw [rung]
  exact ⟨rfl, rfl⟩

/-- The package as it stops at once at rung 3. -/
def Dev.tripped (d : Dev) : Prop :=
  d.pwr.state = 5 ∧ d.pwr.rung = 3 ∧ d.prm.capEighths = 0 ∧ d.start.stopping = true ∧ d.anyRunning = false

/-- The ladder at a higher rung, before what rung 3 brings. -/
def Dev.climbed (d : Dev) : Dev :=
  let l := d.level
  let d := { d with prm := { d.prm with capEighths := l.1 }, pwr := { d.pwr with clockNext := l.2.1, rung := l.2.2 } }
  ((d.showRung).say { Rec.of 0x00B0 1 with detail := leBytes 1 l.2.2 ++ leBytes 1 l.1 ++ leBytes 1 l.2.1 }).pwrEvt 0x100

theorem Dev.ladder_climbs (low : d.pwr.rung < 3) (h3 : d.level.2.2 = 3) (now : Bool) :
    d.ladder now = d.climbed.shutdown now := by
  have changed : ((d.prm.capEighths, d.pwr.clockNext, d.pwr.rung) == d.level) = false := by
    refine beq_eq_false_iff_ne.mpr fun same => ?_
    rw [← same] at h3
    exact absurd h3 (Nat.ne_of_lt low)
  have up : d.pwr.rung < d.level.2.2 := h3.symm ▸ low
  have top : (d.level.2.2 == 3) = true := beq_iff_eq.mpr h3
  simp only [Dev.ladder, changed, Bool.false_eq_true, if_false, up, decide_true, if_true, top, Bool.and_self, Dev.climbed]

theorem Dev.climbed_pwr (d : Dev) : d.climbed.pwr.state =
    (if 2 ≤ d.pwr.state ∧ d.pwr.state ≤ 4 then 2 + min 2 d.level.2.2 else d.pwr.state) ∧
    d.climbed.pwr.rung = d.level.2.2 := by
  simp [Dev.climbed]

theorem Dev.climbed_on (on : d.packageOn = true) (h3 : d.level.2.2 = 3) : d.climbed.packageOn = true := by
  simp only [Dev.packageOn, Bool.and_eq_true, decide_eq_true_eq] at on ⊢
  rw [d.climbed_pwr.1, h3]
  split <;> omega

theorem Dev.ladder_trips (on : d.packageOn = true) (low : d.pwr.rung < 3) (h3 : d.level.2.2 = 3) (h0 : d.level.1 = 0) :
    (d.ladder true).tripped := by
  have still := d.climbed_on on h3
  obtain ⟨stopping, idle⟩ := Dev.shutdown_atOnce still
  rw [Dev.ladder_climbs low h3]
  refine ⟨?_, ?_, ?_, stopping, idle⟩
  · rw [Dev.shutdown_pwr, still]
    rfl
  · rw [Dev.shutdown_pwr]
    exact d.climbed_pwr.2.trans h3
  · rw [Dev.shutdown_capEighths]
    exact Eq.trans (by simp [Dev.climbed]) h0

/-- One condition goes to rung 3, on a package that runs below it: the package stops at once. -/
theorem Dev.setConds_trips {k : Nat} {c : CondState} (on : d.packageOn = true) (low : d.pwr.rung < 3)
    (hl : ∀ j, j < 8 → (d.cond j).rung ≤ 3) (hk : k < 8) (h3 : c.rung = 3) (f : Nat → Nat) :
    (d.setConds [(k, c)] f true).tripped := by
  have conds (j : Nat) : (d.entered [(k, c)] f).cond j = if j = k then c else d.cond j := by
    rw [Dev.entered_cond]
    exact d.cond_setCond k j c
  have all (j : Nat) (hj : j < 8) : ((d.entered [(k, c)] f).cond j).rung ≤ 3 := by
    rw [conds]
    split
    · exact h3.le
    · exact hl j hj
  obtain ⟨top, cap⟩ := Dev.level_trips hk (by rw [conds, if_pos rfl]; exact h3) all
  rw [Dev.setConds_eq]
  refine Dev.ladder_trips ?_ ?_ top cap
  · rw [Dev.packageOn, Dev.entered_pwr, Dev.showActive_pwr]
    exact on
  · rw [Dev.entered_pwr, Dev.showActive_pwr]
    exact low

/-! ### The rows -/

theorem Dev.packageOn_of (lo : 1 ≤ d.pwr.state) (hi : d.pwr.state ≤ 5) : d.packageOn = true := by
  simp [Dev.packageOn, lo, hi]

/-- The die's condition at 110 °C (R448). -/
def Dev.trip (d : Dev) : Dev :=
  let c := d.cond 4
  d.setConds [(4, { c with rung := 3, cap := min c.cap 6, clock := max c.clock 1, safe := 0 })]
    (fun _ => unsigned 16 d.pwr.hottest) true

theorem execHardwareTrip_next (on : s.dev.packageOn = true) :
    exec .hardwareTrip s = .next (s.withDev fun d => d.trip) := devOnly_next_of s (if_pos on)

theorem execRegulationFault_next (on : s.dev.packageOn = true) (rail : Fin 13) :
    exec (.regulationFault rail) s = .next (s.withDev fun d => d.railFault rail.val) := devOnly_next_of s (if_pos on)

theorem execHardwareTrip_stops (on : s.dev.packageOn = true) (low : s.dev.pwr.rung < 3)
    (hl : ∀ j, j < 8 → (s.dev.cond j).rung ≤ 3) :
    ∃ t, exec .hardwareTrip s = .next t ∧ t.mem = s.mem ∧ t.dev.tripped :=
  ⟨_, execHardwareTrip_next on, rfl, Dev.setConds_trips on low hl (k := 4) (by decide) rfl _⟩

theorem Dev.railFault_trips (on : d.packageOn = true) (low : d.pwr.rung < 3) (hl : ∀ j, j < 8 → (d.cond j).rung ≤ 3)
    (rail : Nat) : (d.railFault rail).tripped := by
  refine Dev.setConds_trips (d := (d.sayOnce _ _).replace 6) ?_ ?_ (fun j hj => ?_) (by decide) rfl _
  · rw [Dev.packageOn, Dev.replace_pwr, Dev.sayOnce_pwr]
    exact on
  · rw [Dev.replace_pwr, Dev.sayOnce_pwr]
    exact low
  · rw [Dev.cond, Dev.replace_pwr, Dev.sayOnce_pwr]
    exact hl j hj

theorem execRegulationFault_stops (on : s.dev.packageOn = true) (low : s.dev.pwr.rung < 3)
    (hl : ∀ j, j < 8 → (s.dev.cond j).rung ≤ 3) (rail : Fin 13) :
    ∃ t, exec (.regulationFault rail) s = .next t ∧ t.mem = s.mem ∧ t.dev.tripped :=
  ⟨_, execRegulationFault_next on rail, rfl, Dev.railFault_trips on low hl rail.val⟩

/-! ### SENSOR_SAMPLE (R447, R453, R458) -/

/-- What a sample sets of the power registers themselves. -/
def Pwr.sampled (p : Pwr) : Nat × Nat × Int × Int × Nat × BitVec 2 × Int × Nat :=
  (p.vinMv, p.pinW, p.inlet, p.outlet, p.flow, p.leak, p.hottest, p.die)

theorem Dev.overvoltage_sampled (d : Dev) (mv : Nat) : (d.overvoltage mv).pwr.sampled = d.pwr.sampled := by
  unfold Dev.overvoltage
  dsimp only
  split
  · split
    · rfl
    · rw [Dev.msix_pwr]
      rfl
  · split
    · rfl
    · rw [Dev.say_pwr]
      rfl

@[simp] theorem Dev.sensorFaults_pwr (d : Dev) (failed : BitVec 32) : (d.sensorFaults failed).pwr = d.pwr := by
  unfold Dev.sensorFaults
  dsimp only
  split
  · rfl
  · rw [Dev.replace_pwr, foldl_keeps Dev.pwr _ (fun d _ => d.sayOnce_pwr _ _)]

@[simp] theorem Dev.leakFault_pwr (d : Dev) (leak : BitVec 2) : (d.leakFault leak).pwr = d.pwr := by
  unfold Dev.leakFault
  split
  · rfl
  · rw [Dev.replace_pwr, Dev.sayOnce_pwr]

theorem Dev.ladder_sampled (d : Dev) (now : Bool) : (d.ladder now).pwr.sampled = d.pwr.sampled := by
  unfold Dev.ladder
  dsimp only
  split
  · rfl
  · simp only [apply_ite Dev.pwr, Dev.shutdown_pwr, Pwr.sampled, apply_ite Pwr.vinMv, apply_ite Pwr.pinW,
      apply_ite Pwr.inlet, apply_ite Pwr.outlet, apply_ite Pwr.flow, apply_ite Pwr.leak, apply_ite Pwr.hottest,
      apply_ite Pwr.die, Dev.pwrEvt_pwr, Dev.say_pwr, Dev.showRung_pwr, ite_self]

theorem Dev.setConds_sampled (d : Dev) (l : List (Nat × CondState)) (f : Nat → Nat) (now : Bool) :
    (d.setConds l f now).pwr.sampled = d.pwr.sampled := by
  rw [Dev.setConds_eq, Dev.ladder_sampled, Dev.entered_pwr, Dev.showActive_pwr]
  exact foldl_keeps (fun d => d.pwr.sampled) (fun d (x : Nat × CondState) => d.setCond x.1 x.2) (fun _ _ => rfl) l d

/-- The package as a sample leaves it, before the governor notes its sum. -/
def Dev.sampled (d : Dev) (r : Sensors) : Dev :=
  ((((d.readings r).overvoltage r.vinMv).sensorFaults r.failed).leakFault r.leak).setConds (d.condsNext r) (readingOf r)
    (r.leak != 0)

/-- The governor notes its sum (R443). -/
def Dev.noted (d : Dev) : Dev := { d with mar := d.noteG.mar, prm := d.noteG.prm }

theorem Dev.noted_pwr (d : Dev) : d.noted.pwr = d.pwr := rfl

theorem Dev.noted_inForce (d : Dev) : d.noted.inForce = d.inForce := Prod.ext d.noteG_capEighths rfl

theorem execSensorSample_next (up : s.dev.start.standby = true) (r : Sensors) :
    exec (.sensorSample r) s = .next (s.withDev fun d => (d.sampled r).noted) :=
  devOnly_next_of s (if_neg (by simp [Dev.mgmtUp, up]))

/-- Every condition takes its next value: the list names each of the 8 once. -/
theorem Dev.sampled_cond (d : Dev) (r : Sensors) {x : Nat × CondState} (hx : x ∈ d.condsNext r) :
    (d.sampled r).cond x.1 = x.2 := by
  rw [Dev.sampled, Dev.setConds_cond]
  have keys : (d.condsNext r).map Prod.fst = List.range 8 := rfl
  exact Dev.cond_foldl_same (keys ▸ List.nodup_range) hx

theorem Dev.sampled_sampled (d : Dev) (r : Sensors) : (d.sampled r).pwr.sampled =
    (r.vinMv, r.pinW, r.inlet, r.outlet, if r.reverse then 0 else r.flow, r.leak, r.hottest, r.die.val) := by
  rw [Dev.sampled, Dev.setConds_sampled, Dev.leakFault_pwr, Dev.sensorFaults_pwr, Dev.overvoltage_sampled]
  rfl

theorem execSensorSample_shows (up : s.dev.start.standby = true) (r : Sensors) :
    ∃ t, exec (.sensorSample r) s = .next t ∧ t.mem = s.mem ∧
      t.dev.pwr.sampled =
        (r.vinMv, r.pinW, r.inlet, r.outlet, if r.reverse then 0 else r.flow, r.leak, r.hottest, r.die.val) ∧
      (∀ x ∈ s.dev.condsNext r, t.dev.cond x.1 = x.2) ∧ t.dev.inForce = t.dev.level := by
  refine ⟨_, execSensorSample_next up r, rfl, ?_, fun x hx => ?_, ?_⟩
  · exact (congrArg Pwr.sampled (Dev.noted_pwr _)).trans (s.dev.sampled_sampled r)
  · rw [State.withDev, Dev.cond, Dev.noted_pwr]
    exact s.dev.sampled_cond r hx
  · rw [State.withDev, Dev.noted_inForce, Dev.level_of_conds (congrArg Pwr.conds (Dev.noted_pwr _))]
    exact Dev.setConds_inForce _ _ _ _

/-! ### CONDITION_CLEAR (R448, R449) -/

theorem Wk.edgeNow_of_noEdge {w : Wk} (h : w.dev.start.edge = false) : w.edgeNow = w := by
  simp [Wk.edgeNow, Wk.ite, h]

theorem condNum_sensor {c : Cond} (hc : c ≠ .sensor) : condNum c ≠ 5 := by
  cases c <;> simp_all [condNum]

theorem execConditionClear_clears {c : Cond} (hr : (s.dev.cond (condNum c)).rung ≠ 0) (hc : c ≠ .sensor)
    (hs : 1001 ≤ (s.dev.cond (condNum c)).safe) (he : s.dev.start.edge = false) :
    exec (.conditionClear c) s = .next (s.withDev fun d => d.setConds [(condNum c, .zero)] (fun _ => 0) false) := by
  refine done_next_of s (w := s.work.up fun d => d.setConds [(condNum c, .zero)] (fun _ => 0) false) ?_
  refine (if_neg ?_).trans (Wk.edgeNow_of_noEdge ((Dev.setConds_edge _ _ _ _).trans he))
  have clear : ¬ (s.dev.cond (condNum c)).safe < spanOf 1000 := not_lt.mpr hs
  simp only [show s.work.dev = s.dev from rfl, Bool.or_eq_true, beq_iff_eq, decide_eq_true_eq, hr, condNum_sensor hc,
    clear, or_self, not_false_eq_true]

/-- Settles O57: the ladder puts in force what the level asks for, whatever brought the conditions. -/
theorem throttleLadder : Obligations.ThrottleLadder := by
  refine ⟨fun s r up => ?_, fun s rail lo hi low hl => ?_, fun s c hr hc hs he => ?_⟩
  · obtain ⟨t, next, mem, shown, conds, force⟩ := execSensorSample_shows up r
    simp only [Pwr.sampled, Prod.mk.injEq] at shown
    obtain ⟨vin, pin, inlet, outlet, flow, leak, hottest, die⟩ := shown
    exact ⟨t, next, mem, vin, pin, inlet, outlet, flow, leak, hottest, die, conds,
      Dev.inForce_iff.mp force⟩
  · have on := Dev.packageOn_of lo hi
    exact ⟨execHardwareTrip_stops on low hl, execRegulationFault_stops on low hl rail⟩
  · refine ⟨_, execConditionClear_clears hr hc hs he, rfl, ?_⟩
    exact (Dev.setConds_cond _ _ _ _ _).trans ((Dev.cond_setCond _ _ _ _).trans (if_pos rfl))

end Sys2Proof.Machine
end

section
/-! CONNECTORS AND PINS: the feed id, the cage supplies, contention and the host's stop (R458, R459, R462, R467, R469,
R484). -/

namespace Sys2Proof.Machine
open Sys2Proof.Config

variable {d : Dev} {s : State}

/-! ### Links and the power registers -/

@[simp] theorem Dev.sendOut_pwr (d : Dev) (x : Machine.Sent) : (d.sendOut x).pwr = d.pwr := by
  simp only [Dev.sendOut]
  split <;> rfl

@[simp] theorem Dev.reroute_pwr (d : Dev) : d.reroute.pwr = d.pwr := foldl_keeps Dev.pwr _ Dev.sendOut_pwr _ _

@[simp] theorem Dev.setPortState_pwr (d : Dev) (q : Nat) (st : PortState) : (d.setPortState q st).pwr = d.pwr := by
  simp only [Dev.setPortState]
  split
  · simp [Dev.resendStore, Dev.portEvt, Dev.noteRemap]
  · split <;> simp

@[simp] theorem Dev.linkProgress_pwr (d : Dev) : d.linkProgress.pwr = d.pwr := by
  unfold Dev.linkProgress
  split <;> rfl

@[simp] theorem Dev.trainAgain_pwr (d : Dev) (q : Nat) : (d.trainAgain q).pwr = d.pwr := by
  simp only [Dev.trainAgain]
  split <;> simp

/-! ### The feed id and a reversed input (R458, R459) -/

/-- A code of the feed id is sampled: the one seen before, or a new one. -/
def Dev.feedSeen (d : Dev) (code : BitVec 8) : Dev :=
  let p := d.pwr
  let n := if code == p.feedLast then min 16 (p.feedRun + 1) else 1
  let p := { p with feedLast := code, feedRun := n }
  { d with pwr := if n == 16 then { p with feed := code, feedValid := code != 0 } else p }

theorem execFeedIdSample_next (up : s.dev.start.standby = true) (code : BitVec 8) :
    exec (.feedIdSample code) s = .next (s.withDev fun d => d.feedSeen code) :=
  devOnly_next_of s (if_neg (by simp [Dev.mgmtUp, up]))

theorem Dev.feedSeen_again {code : BitVec 8} (again : code = d.pwr.feedLast) (run : 15 ≤ d.pwr.feedRun) :
    (d.feedSeen code).pwr.feed = code ∧ (d.feedSeen code).pwr.feedValid = (code != 0) := by
  have full : min 16 (d.pwr.feedRun + 1) = 16 := by omega
  simp [Dev.feedSeen, ← again, full]

theorem Dev.feedSeen_new {code : BitVec 8} (new : code ≠ d.pwr.feedLast) :
    (d.feedSeen code).pwr.feed = d.pwr.feed ∧ (d.feedSeen code).pwr.feedRun = 1 := by
  simp [Dev.feedSeen, new]

theorem execReverseInput_next (down : s.dev.start.standby = false) : exec .reverseInput s =
    .next (s.withDev fun d => { d with pwr := { d.pwr with reversed := true, revFlag := true } }) :=
  devOnly_next_of s (if_neg (by simp [Dev.mgmtUp, down]))

/-! ### The cage supplies (R462, R469) -/

/-- The supply of a cage fails. -/
def Dev.cageFails (d : Dev) (q : Nat) : Dev :=
  let d := ({ d with pwr := { d.pwr with cageFault := d.pwr.cageFault ||| BitVec.ofNat 16 (2 ^ q) } }.latch 0x6014 (16 + q)).msix 776
  ((d.setPortState q .down).linkProgress).raise { Rec.of 0x00BC 1 with unit := q }

theorem execCageSupplyFault_next (on : s.dev.packageOn = true) (q : Fin 16) :
    exec (.cageSupplyFault q) s = .next (s.withDev fun d => d.cageFails q.val) :=
  devOnly_next_of s (if_neg (by simp [on]))

theorem Dev.cageFails_port (d : Dev) (q : Nat) : ((d.cageFails q).port q).state = .down :=
  (((Dev.linkProgress_links _).trans (Dev.raise_links _ _)).field Port.state q).trans (Dev.setPortState_port _ q .down).1

theorem Dev.cageFails_cageFault (d : Dev) (q : Nat) :
    (d.cageFails q).pwr.cageFault = d.pwr.cageFault ||| BitVec.ofNat 16 (2 ^ q) := by
  simp [Dev.cageFails]

theorem Dev.cageRetry_pwr (d : Dev) (m : BitVec 16) :
    (d.cageRetry m).pwr = { d.pwr with cageFault := d.pwr.cageFault &&& ~~~m } :=
  foldl_keeps Dev.pwr _ Dev.trainAgain_pwr _ _

theorem execCageRefit_next (on : s.dev.packageOn = true) (q : Fin 16) :
    exec (.cageRefit q) s = .next (s.withDev fun d => d.cageRetry (BitVec.ofNat 16 (2 ^ q.val))) :=
  devOnly_next_of s (if_pos on)

/-- A bit of CAGE_FAULT that is written 1 clears, unless it was set in the same cycle (R7). -/
theorem Dev.cageClear_testBit (d : Dev) (m : BitVec 16) {b : Nat} (hb : b < 16) :
    (d.cageClear m).pwr.cageFault.toNat.testBit b =
      (d.pwr.cageFault.toNat.testBit b && (!m.toNat.testBit b || d.justSet 0x6014 (16 + b))) := by
  have written : (d.clears 0x6014 (m.toNat * 2 ^ 16) / 2 ^ 16).testBit b =
      (m.toNat.testBit b && !d.justSet 0x6014 (16 + b)) := by
    rw [Nat.testBit_div_two_pow, Dev.testBit_clears, Nat.testBit_mul_two_pow, Nat.add_comm b 16]
    simp [show 16 + b < 32 by omega]
  simp only [Dev.cageClear, Dev.cageRetry_pwr, BitVec.testBit_toNat, BitVec.getLsbD_and, BitVec.getLsbD_not,
    BitVec.getLsbD_ofNat, hb, decide_true, Bool.true_and, written]
  simp

/-! ### The management pins (R465, R467) -/

theorem execMgmtContention_next (s : State) (pin : Fin 21) :
    exec (.mgmtContention pin) s = .next (s.withDev fun d => d.contend pin.val) := rfl

theorem Dev.contend_pwr (up : d.start.standby = true) {n : Nat} (driven : drivenPin n = true) :
    (d.contend n).pwr.contention = true ∧ (n ≠ 17 → NSet.has (d.contend n).pwr.released n = true) := by
  simp only [Dev.contend, Dev.mgmtUp, up, driven, Bool.not_true, Bool.or_self, Bool.false_eq_true, if_false, Dev.say_pwr,
    Dev.msix_pwr, Dev.latch_pwr, true_and, beq_iff_eq]
  intro other
  simp [other, NSet.has_add]

theorem execContentionRecheck_clear (up : s.dev.start.standby = true) {pin : Fin 21}
    (free : NSet.has s.dev.pwr.released pin.val = true) : exec (.contentionRecheck pin true) s =
      .next (s.withDev fun d => { d with pwr := { d.pwr with released := NSet.del d.pwr.released pin.val } }) :=
  devOnly_next_of s ((if_neg (by simp [Dev.mgmtUp, up, free])).trans (if_pos rfl))

/-! ### The host's stop (R482, R484) -/

theorem execPwrStop_next (early : 4 ≤ s.dev.start.step) {v : BitVec 32} (asked : v.toNat.testBit 0 = true) :
    exec (.pwrStop v) s = .next (s.withDev fun d => d.stop) :=
  devOnly_next_of s (if_pos (by rw [Dev.hostEarly_of early, bit_eq_testBit, asked]; rfl))

theorem Dev.stop_pwr (d : Dev) :
    d.stop.pwr.state = if 1 ≤ d.pwr.state ∧ d.pwr.state ≤ 4 then 5 else d.pwr.state := by
  unfold Dev.stop
  split <;> simp

theorem Dev.stop_mar (d : Dev) : d.stop.mar = d.mar := by
  unfold Dev.stop
  split <;> simp

/-- Settles O58, row by row. That a refit clears the CAGE_FAULT bit is the model's choice (log entry 85). -/
theorem connectorsAndPins : Obligations.ConnectorsAndPins := by
  refine fun s => ⟨fun code up => ?_, execReverseInput_next, fun q lo hi => ?_, fun m early => ?_, fun pin up => ?_,
    fun v early asked lo hi => ?_⟩
  · exact ⟨_, execFeedIdSample_next up code, rfl, Dev.feedSeen_again, Dev.feedSeen_new⟩
  · have on := Dev.packageOn_of lo hi
    exact ⟨⟨_, execCageSupplyFault_next on q, rfl, s.dev.cageFails_port q, s.dev.cageFails_cageFault q⟩,
      ⟨_, execCageRefit_next on q, rfl, congrArg Pwr.cageFault (s.dev.cageRetry_pwr _)⟩⟩
  · exact ⟨_, hostEarly_next early fun d => d.cageClear m, rfl, fun b hb => s.dev.cageClear_testBit m hb⟩
  · refine ⟨fun driven => ?_, fun free => ?_⟩
    · obtain ⟨contention, released⟩ := Dev.contend_pwr up driven
      exact ⟨_, execMgmtContention_next s pin, rfl, contention, fun h => released fun e => h (Fin.ext e)⟩
    · exact ⟨_, execContentionRecheck_clear up free, rfl, by simp [State.withDev, NSet.has_del]⟩
  · exact ⟨_, execPwrStop_next early asked, rfl, s.dev.stop_pwr.trans (if_pos ⟨lo, hi⟩), s.dev.stop_mar⟩

end Sys2Proof.Machine
end

section
/-! START-UP, STOPS AND RESETS: the steps of start-up, and what a reset leaves and keeps (R458, R466, R472 to R483). -/

namespace Sys2Proof.Machine
open Sys2Proof.Config

variable {d : Dev} {s : State}

/-! ### Memory that is wiped (R138, R479; log entry 4) -/

theorem Wk.byte_wipe (w : Wk) {a : Nat} (ha : a < 2 * pondBase) : w.wipe.mem.byte a = 0 := by
  rw [Wk.wipe, Wk.mem_op, Mem.byte_clear, if_pos ⟨Nat.zero_le a, by simpa using ha⟩]
  rfl

/-- Whatever the block becomes, memory reads 0 after a wipe. -/
theorem State.after_wipe (s : State) (f g : Dev → Dev) (a : Nat) (ha : a < 2 * pondBase) :
    (s.after ((s.work.up f).wipe.up g)).mem.byte a = 0 := by
  rw [State.after_mem s _ rfl, Wk.mem_up]
  exact (s.work.up f).byte_wipe ha

/-! ### STANDBY_POWER_ON and COLD_START (R458, R466, R472) -/

/-- Standby power comes up. -/
def Dev.standbyUp (d : Dev) (a : BitVec 3) : Dev :=
  { d with
    pwr := { d.pwr with smbus := 0x58 + a.toNat, reversed := false, rails := [(0, true)], revSeen := d.pwr.revFlag }
    start := { d.start with standby := true, step := 2, pwrEn := false } }

theorem execStandbyPowerOn_next (down : s.dev.start.standby = false) (a : BitVec 3) :
    exec (.standbyPowerOn a false) s = .next (s.withDev fun d => d.standbyUp a) :=
  done_next_of s (w := s.work.up fun d => d.standbyUp a) (if_neg (by simp [Dev.mgmtUp, State.work, down]))

/-- A rising edge of PWR_EN is remembered. -/
def Dev.risen (d : Dev) : Dev :=
  { d with start := { d.start with pwrEn := true, edge := decide (d.pwr.state = 0) || decide (4 < d.pwr.state) } }

theorem execColdStart_next (up : s.dev.start.standby = true) (low : s.dev.start.pwrEn = false) (off : s.dev.pwr.state = 0) :
    exec .coldStart s = .next (s.after (s.work.up Dev.risen).begin_) := by
  refine done_next_of s (w := (s.work.up Dev.risen).begin_) ((if_pos ?_).trans (if_pos ?_))
  · simp [Dev.mgmtUp, State.work, up, low]
  · simp [State.work, off]

/-- Step 2 begins on a package that has lost its state: no byte, slot or replacement request is left. -/
theorem execColdStart_begins (up : s.dev.start.standby = true) (low : s.dev.start.pwrEn = false)
    (off : s.dev.pwr.state = 0) :
    ∃ t, exec .coldStart s = .next t ∧ (∀ a, a < 2 * pondBase → t.mem.byte a = 0) ∧
      (∀ g, t.dev.isFull g = false ∧ t.dev.isClaimed g = false) ∧ t.dev.start.step = 2 ∧ t.dev.pwr.state = 1 ∧
      t.dev.flt.repl = 0 ∧ t.dev.flt.replPin = false ∧ t.dev.start.stoppedAt = 0 ∧ t.dev.start.lastReset = 0 ∧
      t.dev.boot.keys = s.dev.boot.keys ∧ t.dev.boot.revoked = s.dev.boot.revoked ∧ t.dev.lap.count = 0 :=
  ⟨_, execColdStart_next up low off, State.after_wipe s _ _, fun _ => ⟨rfl, rfl⟩, rfl, rfl, rfl, rfl, rfl, rfl, rfl, rfl,
    rfl⟩

/-! ### MAIN_PATH_CHECK (R473) -/

/-- The main path is judged by a sample. -/
def Dev.pathJudged (d : Dev) (r : Sensors) : Dev :=
  let m := holdMask r
  let d := d.readings r
  let d := { d with pwr := { d.pwr with state := if m == 0 then 1 else 0, mainPath := m == 0 } }
  (d.setCond holdKey { CondState.zero with timer := m }).showActive

theorem execMainPathCheck_next (r : Sensors) (step : s.dev.start.step = 2) (en : s.dev.start.pwrEn = true)
    (path : s.dev.pwr.mainPath = false) : exec (.mainPathCheck r) s = .next (s.withDev fun d => d.pathJudged r) :=
  devOnly_next_of s (if_neg (by simp [step, en, path]))

theorem Dev.pathJudged_pwr (d : Dev) (r : Sensors) : (d.pathJudged r).pwr.mainPath = (holdMask r == 0) ∧
    (d.pathJudged r).pwr.state = if holdMask r = 0 then 1 else 0 := by
  rw [Dev.pathJudged, Dev.showActive_pwr]
  exact ⟨rfl, by simp [Dev.setCond]⟩

/-! ### What a step's end leaves -/

@[simp] theorem Dev.msix_width (d : Dev) (v : Nat) : (d.msix v).pcie.width = d.pcie.width := by
  unfold Dev.msix
  split
  · rfl
  · split <;> rfl

theorem Dev.enterBoot_start (d : Dev) : d.enterBoot.start = { d.start with step := 4 } := by
  unfold Dev.enterBoot
  dsimp only
  split <;> simp [Dev.atStep]

theorem Dev.enterBoot_width (d : Dev) : d.enterBoot.pcie.width = d.pcie.width := by
  unfold Dev.enterBoot
  dsimp only
  split <;> simp [Dev.atStep]

theorem Dev.railsUp_step (d : Dev) : d.railsUp.start.step = if d.start.perst then 3 else 4 := by
  unfold Dev.railsUp
  dsimp only
  split
  · rfl
  · rw [Dev.enterBoot_start]

theorem Dev.startFull_start (d : Dev) : d.startFull.start = d.start := by simp [Dev.startFull]

theorem Dev.ready_step (d : Dev) : d.ready.start.step = 0xF := by simp [Dev.ready, Dev.atStep]

/-! ### STARTUP_STEP_END (R472, R477, R478) -/

/-- The package is up and no stop is under way. -/
def Dev.startable (d : Dev) : Prop := 1 ≤ d.pwr.state ∧ d.pwr.state ≤ 4

theorem Dev.startable.up (h : d.startable) : (d.pwr.state == 0 || decide (4 < d.pwr.state)) = false := by
  obtain ⟨lo, hi⟩ := h
  simp only [Bool.or_eq_false_iff, beq_eq_false_iff_ne, decide_eq_false_iff_not]
  omega

theorem stepEnd_next {e : StepEnd} {w : Wk} {f : Wk → Wk} (on : s.dev.startable)
    (he : exec (.startupStepEnd e) s = done s fun w =>
      if w.dev.pwr.state == 0 || decide (4 < w.dev.pwr.state) then w else f w) (hw : f s.work = w) :
    exec (.startupStepEnd e) s = .next (s.after w) := by
  rw [he]
  refine done_next_of s ((if_neg ?_).trans hw)
  rw [show s.work.dev = s.dev from rfl, on.up]
  exact Bool.false_ne_true

/-- A step ends well with what `stepDone` makes of the block. -/
theorem stepDone_ends {f : Dev → Dev} {m : Nat} (on : s.dev.startable) (h : s.work.stepDone = s.work.up f)
    (step : (f s.dev).start.step = m) : ∃ t, exec (.startupStepEnd .done) s = .next t ∧ t.mem = s.mem ∧ t.dev.start.step = m :=
  ⟨_, stepEnd_next on rfl h, rfl, step⟩

/-- A boot image runs, or none does. -/
theorem booted_ends {slotB aFailed bFailed : Bool} (on : s.dev.startable) (step : s.dev.start.step = 4)
    (ok : (slotB == aFailed && !(slotB && bFailed)) = true) :
    ∃ t, exec (.startupStepEnd (.booted slotB aFailed bFailed)) s = .next t ∧ t.mem = s.mem ∧ t.dev.start.step = 5 := by
  refine ⟨_, stepEnd_next (w := s.work.up fun d => d.booted slotB aFailed bFailed) on rfl (if_pos ?_), rfl, rfl⟩
  rw [Bool.and_assoc, ok, show s.work.dev = s.dev from rfl, step]
  rfl

theorem stackFailed_stops (on : s.dev.startable) (step : s.dev.start.step = 6) (k : Fin 20) :
    ∃ t, exec (.startupStepEnd (.stackFailed k)) s = .next t ∧ t.dev.pwr.state = 0 ∧ t.dev.start.stoppedAt = 6 := by
  refine ⟨_, stepEnd_next (w := (s.work.up fun d =>
    d.raise { Rec.of 0x00C9 2 with detail := leBytes 1 6 ++ leBytes 1 k.val }).stopAt 6) on rfl (if_pos ?_), rfl, rfl⟩
  rw [show s.work.dev = s.dev from rfl, step]
  rfl

theorem execBootFailure_stops (on : s.dev.startable) (step : s.dev.start.step = 4) :
    ∃ t, exec .bootFailure s = .next t ∧ t.dev.pwr.state = 0 ∧ t.dev.start.stoppedAt = 4 ∧
      t.dev.flt.repl.toNat.testBit 9 = true := by
  obtain ⟨lo, hi⟩ := on
  refine ⟨_, done_next_of s (w := (s.work.up fun d => d.replace 9).stopAt 4) (if_pos ?_), rfl, rfl,
    s.dev.replace_repl (by decide)⟩
  simp [State.work, step, lo, hi]

/-- The step that ends, and the next one. -/
theorem stepDone_steps (on : s.dev.startable) :
    let n := s.dev.start.step
    let ends := fun (e : StepEnd) (m : Nat) =>
      ∃ t, exec (.startupStepEnd e) s = .next t ∧ t.mem = s.mem ∧ t.dev.start.step = m
    (n = 2 → s.dev.pwr.mainPath = true → ends .done (if s.dev.start.perst then 3 else 4)) ∧
    (n = 5 → ends .done 6) ∧ (n = 6 → ends .done 7) ∧ (n = 7 → s.dev.swp.full = false → ends .done 8) ∧
    (n = 8 → s.dev.live.image ≠ [] → ends .done 9) ∧ (n = 9 → s.dev.dom.state ≠ .linking → ends .done 10) ∧
    (n = 10 → s.dev.dom.state = .active → ends .done 0xF) := by
  refine ⟨fun n path => stepDone_ends (f := Dev.railsUp) on ?_ s.dev.railsUp_step,
    fun n => stepDone_ends (f := Dev.runtimeUp) on ?_ rfl,
    fun n => stepDone_ends (f := fun d => (d.atStep 7).startFull) on ?_ (congrArg Start.step (Dev.startFull_start _)),
    fun n full => stepDone_ends
      (f := fun d => { d.atStep 8 with pwr := { d.pwr with state := 2 + min 2 d.pwr.rung } }) on ?_ rfl,
    fun n image => stepDone_ends (f := fun d => d.atStep 9) on ?_ rfl,
    fun n linked => stepDone_ends (f := fun d => d.atStep 10) on ?_ rfl,
    fun n active => stepDone_ends (f := Dev.ready) on ?_ s.dev.ready_step⟩
  · simp [Wk.stepDone, State.work, n, path]
  · simp [Wk.stepDone, State.work, n]
  · simp [Wk.stepDone, State.work, n]
  · simp [Wk.stepDone, State.work, n, full]
  · simp [Wk.stepDone, State.work, n, image]
  · simp [Wk.stepDone, State.work, n, linked]
  · simp [Wk.stepDone, State.work, n, active]

/-! ### PERST_RELEASE and BOOT_SLOT_REWRITE_DONE (R409, R472, R477) -/

/-- The endpoint leaves reset and trains. -/
def Dev.perstOff (d : Dev) (width : Nat) : Dev :=
  { d with start := { d.start with perst := false }, pcie := { d.pcie with width := if width == 0 then 0 else 8 * width } }

def Dev.perstReleased (d : Dev) (width : Nat) : Dev :=
  if d.start.step == 3 && d.pwr.state == 1 then (d.perstOff width).enterBoot else d.perstOff width

theorem execPerstRelease_next (s : State) (w : Fin 3) :
    exec (.perstRelease w) s = .next (s.withDev fun d => d.perstReleased w.val) := rfl

theorem Dev.perstReleased_fields (d : Dev) (width : Nat) : (d.perstReleased width).start.perst = false ∧
    (d.perstReleased width).pcie.width = (if width = 0 then 0 else 8 * width) ∧
    (d.start.step = 3 → d.pwr.state = 1 → (d.perstReleased width).start.step = 4) := by
  unfold Dev.perstReleased
  split
  · rw [Dev.enterBoot_start, Dev.enterBoot_width]
    exact ⟨rfl, by simp [Dev.perstOff], fun _ _ => rfl⟩
  · rename_i other
    exact ⟨rfl, by simp [Dev.perstOff], fun step state => absurd (by simp [step, state]) other⟩

theorem Dev.replace_boot (d : Dev) (n : Nat) : (d.replace n).boot = d.boot := by
  unfold Dev.replace
  dsimp only
  split
  · rfl
  · split <;> simp

/-- The record of a rewritten boot slot. -/
def Dev.slotRecord (d : Dev) (slotB ok : Bool) : Dev :=
  d.raise { Rec.of 0x00C8 1 with detail := leBytes 1 (b2n slotB) ++ leBytes 1 (b2n !ok) }

theorem slotRewrite_next (h5 : 5 ≤ s.dev.start.step) (fell : s.dev.boot.fallback = true) (onB : s.dev.boot.slotB = true)
    (bad : s.dev.boot.flashA = false) :
    exec (.bootSlotRewriteDone false true) s = .next (s.withDev fun d =>
      { d.slotRecord false true with boot := { (d.slotRecord false true).boot with
          flashA := d.boot.flashA || true, flashB := d.boot.flashB || false } }) ∧
    exec (.bootSlotRewriteDone false false) s = .next (s.withDev fun d => (d.slotRecord false false).replace 9) :=
  ⟨devOnly_next_of s ((if_pos (by simp [h5, fell, onB, bad])).trans (if_pos rfl)),
    devOnly_next_of s ((if_pos (by simp [h5, fell, onB, bad])).trans (if_neg Bool.false_ne_true))⟩

/-- Settles O59, step by step. That every byte reads 0 after a cold start, HBM's too, is the model's choice (log entries
4, 92 and 95). -/
theorem startUpSteps : Obligations.StartUpSteps := by
  refine fun s => ⟨fun a down => ⟨_, execStandbyPowerOn_next down a, rfl, rfl, rfl, rfl, rfl⟩, execColdStart_begins,
    fun r step en path => ⟨_, execMainPathCheck_next r step en path, rfl, s.dev.pathJudged_pwr r⟩, fun lo hi => ?_,
    fun w => ⟨_, execPerstRelease_next s w, rfl, s.dev.perstReleased_fields w.val⟩, fun h5 fell onB bad => ?_⟩
  · have on : s.dev.startable := ⟨lo, hi⟩
    obtain ⟨two, five, six, seven, eight, nine, ten⟩ := stepDone_steps on
    exact ⟨two, fun n => ⟨booted_ends on n rfl, booted_ends on n rfl⟩, five, six, seven, eight, nine, ten,
      fun k n => stackFailed_stops on n k, fun n => execBootFailure_stops on n⟩
  · obtain ⟨done, failed⟩ := slotRewrite_next h5 fell onB bad
    refine ⟨⟨_, done, rfl, Bool.or_true _⟩, ⟨_, failed, rfl, ?_, Dev.replace_repl _ (by decide)⟩⟩
    exact (congrArg Boot.flashA (Dev.replace_boot _ 9)).trans
      ((congrArg Boot.flashA (Dev.raise_boot _ _)).trans bad)

end Sys2Proof.Machine
end

section
/-! STOPS AND RESETS: an input loss, an orderly stop and its end, a warm reset and a function reset (R450, R479 to R483). -/

namespace Sys2Proof.Machine
open Sys2Proof.Config

variable {d : Dev} {s : State}

/-! ### INPUT_LOSS (R483) -/

/-- What is left once the input is lost. -/
def Dev.inputGone (d : Dev) : Dev :=
  let d := d.packageReset
  { d with pwr := { Pwr.reset with revFlag := d.pwr.revFlag }, start := .reset, prm := Dev.reset.prm }

theorem execInputLoss_next (s : State) : exec .inputLoss s = .next (s.after (s.work.wipe.up Dev.inputGone)) := rfl

theorem execInputLoss_leaves (s : State) :
    ∃ t, exec .inputLoss s = .next t ∧ (∀ a, a < 2 * pondBase → t.mem.byte a = 0) ∧ t.dev.start = .reset ∧
      t.dev.pwr = { Pwr.reset with revFlag := s.dev.pwr.revFlag } ∧ t.dev.boot.keys = s.dev.boot.keys ∧
      t.dev.boot.revoked = s.dev.boot.revoked ∧ t.dev.boot.dbgFuse = s.dev.boot.dbgFuse :=
  ⟨_, execInputLoss_next s, State.after_wipe s id _, rfl, rfl, rfl, rfl, rfl⟩

/-! ### ORDERLY_STOP and STOP_COMPLETE (R450, R482) -/

/-- PWR_EN has fallen, and the conditions that held the main path open are over. -/
def Dev.fallen (d : Dev) : Dev :=
  ({ d with start := { d.start with pwrEn := false, edge := false } }.setCond holdKey .zero).showActive

theorem execOrderlyStop_next (s : State) : exec .orderlyStop s = .next (s.withDev fun d => d.fallen.stop) := rfl

theorem Dev.fallen_state (d : Dev) : d.fallen.pwr.state = d.pwr.state := by
  rw [Dev.fallen, Dev.showActive_pwr]
  rfl

theorem Dev.stop_start (d : Dev) : d.stop.start = d.start := by
  unfold Dev.stop
  split <;> simp

theorem Dev.fallen_start (d : Dev) : d.fallen.start = { d.start with pwrEn := false, edge := false } :=
  Dev.showActive_start _

theorem execOrderlyStop_leaves (s : State) :
    ∃ t, exec .orderlyStop s = .next t ∧ t.mem = s.mem ∧ t.dev.start.pwrEn = false ∧ t.dev.start.edge = false ∧
      t.dev.pwr.state = (if 1 ≤ s.dev.pwr.state ∧ s.dev.pwr.state ≤ 4 then 5 else s.dev.pwr.state) := by
  have start := (Dev.stop_start s.dev.fallen).trans s.dev.fallen_start
  refine ⟨_, execOrderlyStop_next s, rfl, congrArg Start.pwrEn start, congrArg Start.edge start, ?_⟩
  exact s.dev.fallen_state ▸ Dev.stop_pwr s.dev.fallen

theorem execStopComplete_done (stopped : s.dev.stopDone = true) (noEdge : s.dev.start.edge = false) :
    exec .stopComplete s = .next (s.after (s.work.powerOff (if s.dev.pwr.rung == 3 then 6 else 0))) :=
  done_next_of s ((if_pos stopped).trans (Wk.edgeNow_of_noEdge noEdge))

theorem execStopComplete_waits (running : s.dev.stopDone = false) : exec .stopComplete s = .next s :=
  done_same s (if_neg (by rw [show s.work.dev = s.dev from rfl, running]; exact Bool.false_ne_true))

theorem execStopComplete_leaves (stopped : s.dev.stopDone = true) (noEdge : s.dev.start.edge = false) :
    ∃ t, exec .stopComplete s = .next t ∧ (∀ a, a < 2 * pondBase → t.mem.byte a = 0) ∧
      t.dev.pwr.state = (if s.dev.pwr.rung = 3 then 6 else 0) ∧ t.dev.start.step = 0 ∧ t.dev.mar.heats = [] := by
  refine ⟨_, execStopComplete_done stopped noEdge, State.after_wipe s id _, ?_, rfl, rfl⟩
  exact if_congr beq_iff_eq rfl rfl

/-! ### WARM_RESET (R479, R480, R483) -/

/-- The package as a warm reset leaves it: it waits in step 3 for the release of PERST#. -/
def Dev.restarted (d : Dev) : Dev :=
  let d := (d.cancelEverywhere.notify 0xFF 0xFF .goingDown).warmed
  { d with
    pwr := { d.pwr with state := 1 }
    start := { d.start with step := 3, perst := true, lastReset := 1, stopping := false } }

theorem execWarmReset_next (warm : s.dev.warmable = true) :
    exec .warmReset s = .next (s.after (s.work.wipe.up Dev.restarted)) := done_next_of s (if_pos warm)

theorem Dev.restarted_flt (d : Dev) : d.restarted.flt = d.flt := by
  simp only [Dev.restarted, Dev.warmed, Dev.notify_flt, Dev.cancelEverywhere_flt]

theorem Dev.restarted_revoked (d : Dev) : d.restarted.boot.revoked = d.boot.revoked := by
  simp only [Dev.restarted, Dev.warmed, Dev.packageReset, Boot.restart, Dev.notify_boot, Dev.cancelEverywhere_boot]

theorem execWarmReset_leaves (warm : s.dev.warmable = true) :
    ∃ t, exec .warmReset s = .next t ∧ (∀ a, a < 2 * pondBase → t.mem.byte a = 0) ∧ t.dev.mar.heats = [] ∧
      t.dev.start.step = 3 ∧ t.dev.start.perst = true ∧ t.dev.start.lastReset = 1 ∧ t.dev.pwr.state = 1 ∧
      t.dev.flt = s.dev.flt ∧ t.dev.boot.revoked = s.dev.boot.revoked :=
  ⟨_, execWarmReset_next warm, State.after_wipe s id _, rfl, rfl, rfl, rfl, rfl, s.dev.restarted_flt,
    s.dev.restarted_revoked⟩

/-! ### Cancellations and the width of the endpoint -/

@[simp] theorem Dev.freeEntry_width (d : Dev) (h : HeatId) : (d.freeEntry h).pcie.width = d.pcie.width := by
  simp only [Dev.freeEntry]
  split
  · rw [Dev.msix_width]
    rfl
  · rfl

@[simp] theorem Dev.withhold_pcie (d : Dev) (h : Heat) : (d.withhold h).pcie = d.pcie := by
  simp only [Dev.withhold]
  split
  · split <;> rfl
  · rfl

theorem Dev.cancelHeat_width (d : Dev) (h : Heat) (chain : Bool) : (d.cancelHeat h chain).pcie.width = d.pcie.width := by
  simp only [Dev.cancelHeat]
  split
  · rfl
  · exact congrArg Pcie.width (Dev.unclaim_keeps Dev.pcie Dev.unclaimSlot_pcie _ _)
  · rw [Dev.freeEntry_width, Dev.withhold_pcie]
    rfl
  · rw [Dev.freeEntry_width]
    rfl

theorem Dev.chainRun_width (n c : Nat) (d : Dev) : (Dev.chainRun n c d).pcie.width = d.pcie.width := by
  induction n generalizing d with
  | zero => rfl
  | succ n ih =>
    simp only [Dev.chainRun]
    split
    · rfl
    · rw [ih, Dev.cancelHeat_width]

theorem Dev.requestPermit_pcie (d : Dev) (h : Heat) : (d.requestPermit h).pcie = d.pcie := by
  unfold Dev.requestPermit
  dsimp only
  split <;> simp

theorem Dev.settleOne_pcie (d : Dev) (h : Heat) : (d.settleOne h).pcie = d.pcie := by
  unfold Dev.settleOne
  simp only [apply_ite Dev.pcie, Dev.setHeat_pcie, Dev.requestPermit_pcie, ite_self]

theorem Dev.noteG_pcie (d : Dev) : d.noteG.pcie = d.pcie := by
  unfold Dev.noteG
  dsimp only
  split <;> rfl

theorem Dev.settle_pcie (d : Dev) : d.settle.pcie = d.pcie := by
  unfold Dev.settle
  rw [Dev.noteG_pcie]
  refine foldl_keeps Dev.pcie _ (fun d h => ?_) _ d
  split
  · exact d.settleOne_pcie _
  · rfl

theorem Dev.cancelAll_width (d : Dev) (c : Nat) (l : List Heat) (chain : Bool) :
    (d.cancelAll c l chain).pcie.width = d.pcie.width := by
  have each := foldl_keeps (fun d => d.pcie.width) (fun d h => d.cancelHeat h chain) (fun d h => d.cancelHeat_width h chain) l d
  simp only [Dev.cancelAll]
  split
  · rw [Dev.chain, Dev.settle_pcie, Dev.chainRun_width, each]
  · rw [Dev.settle_pcie, each]

theorem Dev.cancelStream_width (d : Dev) (c k : Nat) : (d.cancelStream c k).pcie.width = d.pcie.width :=
  Dev.cancelAll_width _ _ _ _

theorem Dev.hostCancel_width (d : Dev) (c k : Nat) : (d.hostCancel c k).pcie.width = d.pcie.width := by
  rw [Dev.hostCancel_eq]
  split <;> simp [Dev.cancelStream_width]

/-! ### FUNCTION_RESET (R479, R481) -/

/-- A change of one stream that keeps its ENABLE bit keeps every stream's. -/
theorem Dev.setStream_enable (d : Dev) (c k : Nat) {f : Stream → Stream} (hf : ∀ t, (f t).enable = t.enable) (c' k' : Nat) :
    ((d.setStream c k f).stream c' k').enable = (d.stream c' k').enable := by
  rw [Dev.stream, Dev.setStream, AMap.get_upd, Dev.stream]
  split
  · rename_i e
    rw [hf, e]
  · rfl

/-- A host CANCEL changes the ENABLE bit of no stream, neither its own nor another's. -/
theorem Dev.hostCancel_enable (d : Dev) (c k c' k' : Nat) :
    ((d.hostCancel c k).stream c' k').enable = (d.stream c' k').enable := by
  have cancelled : ((d.cancelStream c k).stream c' k').enable = (d.stream c' k').enable := by
    obtain ⟨l, same⟩ := (d.stopAtTail c k).cancelAll_stream c ((d.stopAtTail c k).streamHeats c k) true c' k'
    exact (congrArg Stream.enable same).trans (d.setStream_enable c k (by intro; rfl) c' k')
  rw [Dev.hostCancel_eq]
  split
  · exact cancelled
  · exact (Dev.setStream_enable _ c k (by intro; rfl) c' k').trans cancelled

/-- One stream of a function reset: cancelled, and disabled. -/
def Dev.clearStream (d : Dev) (k : Nat) : Dev :=
  (d.hostCancel (k / 3) (k % 3)).setStream (k / 3) (k % 3) fun t => { t with enable := false }

theorem Dev.clearStream_enable (d : Dev) (k c n : Nat) :
    ((d.clearStream k).stream c n).enable = if k = strKey c n then false else (d.stream c n).enable := by
  have key : strKey (k / 3) (k % 3) = k := by rw [strKey]; omega
  rw [Dev.clearStream, Dev.stream, Dev.setStream, AMap.get_upd, key]
  by_cases h : k = strKey c n
  · rw [if_pos h, if_pos h.symm]
  · rw [if_neg h, if_neg fun e => h e.symm]
    exact d.hostCancel_enable _ _ c n

theorem Dev.foldl_clearStream_enable {l : List Nat} {c n : Nat}
    (h : strKey c n ∈ l ∨ (d.stream c n).enable = false) : ((l.foldl Dev.clearStream d).stream c n).enable = false := by
  induction l generalizing d with
  | nil => simpa using h
  | cons k l ih =>
    refine ih ?_
    rw [Dev.clearStream_enable d k c n]
    rcases h with h | h
    · rcases List.mem_cons.mp h with rfl | h
      · exact .inr (if_pos rfl)
      · exact .inl h
    · exact .inr (by rw [h, ite_self])

/-- Every stream is disabled: a stream that is not among the listed ones has its initial value. -/
theorem Dev.clearStreams_enable (d : Dev) (c n : Nat) : (d.clearStreams.stream c n).enable = false := by
  refine Dev.foldl_clearStream_enable ?_
  rcases AMap.get_eq_or_mem Stream.zero d.streams (strKey c n) with zero | listed
  · exact .inr (congrArg Stream.enable zero)
  · exact .inl (List.mem_map_of_mem listed)

theorem Dev.clearStream_width (d : Dev) (k : Nat) : (d.clearStream k).pcie.width = d.pcie.width := by
  rw [Dev.clearStream, Dev.setStream_pcie, Dev.hostCancel_width]

theorem Dev.clearStreams_eq (d : Dev) : d.clearStreams = (d.streams.map Prod.fst).foldl Dev.clearStream d := rfl

theorem Dev.clearStreams_width (d : Dev) : d.clearStreams.pcie.width = d.pcie.width := by
  rw [Dev.clearStreams_eq]
  exact foldl_keeps (fun d => d.pcie.width) Dev.clearStream Dev.clearStream_width _ d

/-- The function as its reset leaves it, before the record. -/
def Dev.functionCleared (d : Dev) : Dev :=
  let d := d.clearStreams
  { d with
    pcie := { Pcie.reset with width := d.pcie.width }
    evt := { Evt.reset with
      buffer := d.evt.buffer, reserve := d.evt.reserve, seq := d.evt.seq, recent := d.evt.recent, lostBefore := d.evt.lostBefore }
    start := { d.start with lastReset := 2 } }

theorem execFunctionReset_next (k : FuncReset) (step : 3 ≤ s.dev.start.step) (lo : 1 ≤ s.dev.pwr.state)
    (hi : s.dev.pwr.state ≤ 5) : exec (.functionReset k) s = .next (s.withDev fun d =>
      d.functionCleared.raise { Rec.of 0x00CA 0 with detail := leBytes 1 2 }) :=
  devOnly_next_of s (if_pos (by simp [step, lo, hi]))

/-- A record moves neither the base of the event ring nor its enabling. -/
theorem Dev.raise_ring (d : Dev) (r : Rec) : (d.raise r).evt.ring = d.evt.ring ∧ (d.raise r).evt.enable = d.evt.enable := by
  have settings := d.buffer_settings { r with seq := d.evt.seq, lap := d.lap.count, cycle := d.lap.cycle }
  simp only [Prod.mk.injEq] at settings
  obtain ⟨ring, enable, -⟩ := settings
  simp only [Dev.raise]
  split <;> split <;> exact ⟨ring, enable⟩

theorem execFunctionReset_leaves (k : FuncReset) (step : 3 ≤ s.dev.start.step) (lo : 1 ≤ s.dev.pwr.state)
    (hi : s.dev.pwr.state ≤ 5) :
    ∃ t, exec (.functionReset k) s = .next t ∧ t.mem = s.mem ∧ (∀ c n, n < 3 → (t.dev.stream c n).enable = false) ∧
      t.dev.pcie = { Pcie.reset with width := s.dev.pcie.width } ∧ t.dev.evt.ring = 0 ∧ t.dev.evt.enable = false ∧
      t.dev.start.lastReset = 2 := by
  obtain ⟨ring, enable⟩ := s.dev.functionCleared.raise_ring { Rec.of 0x00CA 0 with detail := leBytes 1 2 }
  refine ⟨_, execFunctionReset_next k step lo hi, rfl, fun c n _ => ?_, ?_, ring, enable, ?_⟩
  · rw [State.withDev, Dev.stream, Dev.raise_streams]
    exact s.dev.clearStreams_enable c n
  · rw [State.withDev, Dev.raise_pcie, Dev.functionCleared, Dev.clearStreams_width]
  · rw [State.withDev, Dev.raise_start]
    rfl

/-- Settles O60, row by row. That every HBM byte reads 0 after an input loss, a stop or a warm reset is the model's choice
(log entries 4, 93 and 94). -/
theorem stopsAndResets : Obligations.StopsAndResets := fun s =>
  ⟨execInputLoss_leaves s, execOrderlyStop_leaves s, execStopComplete_leaves, execStopComplete_waits,
    execWarmReset_leaves, fun k => execFunctionReset_leaves k⟩

end Sys2Proof.Machine
end

section
/-! SECURING AND RESTORING: the ends of the parity and copy phases, of a rebuild and of a restore (R350, R390, R391, R395 to
R398, R402). -/

namespace Sys2Proof.Machine
open Sys2Proof.Config

variable {d : Dev} {s : State}

/-! ### Copies inside HBM -/

/-- Cells copied to a range change no cell outside it. -/
theorem get_copyCells_beyond {dst len a : Nat} (ha : beyond dst len a) (l : AMap Byte) (src : Nat) (c : AMap Byte) :
    AMap.get memInit (copyCells l src dst len c) a = AMap.get memInit c a := by
  induction l generalizing c with
  | nil => rfl
  | cons x l ih =>
    obtain ⟨k, v⟩ := x
    rw [copyCells, ih]
    split
    · rw [AMap.get_set, if_neg]
      unfold beyond at ha
      omega
    · rfl

theorem Mem.byte_copy_beyond (m : Mem) (src : Nat) {dst n a : Nat} (ha : beyond dst n a) :
    (m.apply (.copy src dst n)).byte a = m.byte a := by
  simp only [Mem.byte, Mem.apply, keepCells]
  rw [get_copyCells_beyond ha, AMap.get_filter_key memInit (fun k => !(decide (dst ≤ k) && decide (k < dst + n))), if_pos]
  unfold beyond at ha
  simp only [Bool.not_eq_true', Bool.and_eq_false_iff, decide_eq_false_iff_not]
  omega

/-- What every step of a list keeps of the working record, the list keeps. -/
theorem Wk.each_keeps {α β : Type} (p : Wk → β) {f : Wk → α → Wk} (h : ∀ w x, p (f w x) = p w) (l : List α) (w : Wk) :
    p (Wk.each l f w) = p w :=
  List.foldlRecOn (motive := fun v : Wk => p v = p w) l f rfl fun v hv x _ => (h v x).trans hv

/-- What a copy between the live image and the snapshot leaves: what the step found, and the securing's registers. -/
def Wk.secured (w : Wk) : Mem × Sec := (w.base, w.dev.sec)

/-- One piece of the live image copied to the snapshot. -/
def Wk.copyPiece (snap : Nat) (w : Wk) (x : Nat × Nat × Nat) : Wk :=
  (w.op (.copy x.2.1 (snap + x.1) x.2.2)).up fun d => d.hbmFresh (d.sec.snap + x.1) x.2.2

/-- One piece of the snapshot copied over the live image. -/
def Wk.copyBack (snap : Nat) (w : Wk) (x : Nat × Nat × Nat) : Wk :=
  (w.op (.copy (snap + x.1) x.2.1 x.2.2)).up fun d => d.hbmFresh x.2.1 x.2.2

theorem Wk.copyOut_secured (w : Wk) : w.copyOut.secured = w.secured := by
  have each : (Wk.each (w.dev.shardPieces w.mem) (Wk.copyPiece w.dev.sec.snap) w).secured = w.secured :=
    Wk.each_keeps Wk.secured (f := Wk.copyPiece w.dev.sec.snap) (fun _ _ => rfl) _ w
  unfold Wk.copyOut
  dsimp only
  split
  · exact each
  · exact each

theorem Wk.copyIn_secured (w : Wk) : w.copyIn.secured = w.secured :=
  Wk.each_keeps Wk.secured (f := Wk.copyBack w.dev.sec.snap) (fun _ _ => rfl) _ w

theorem Wk.secured_iff {v w : Wk} : v.secured = w.secured ↔ v.base = w.base ∧ v.dev.sec = w.dev.sec := by
  simp only [Wk.secured, Prod.mk.injEq]

/-- Memory once the block has changed as well. -/
theorem State.after_up_mem {w : Wk} (h : w.base = s.mem) (f : Dev → Dev) : (s.after (w.up f)).mem = w.mem := by
  rw [State.after_mem s _ ((w.up_base f).trans h), Wk.mem_up]

theorem State.after_up_dev (s : State) (w : Wk) (f : Dev → Dev) : (s.after (w.up f)).dev = f w.dev := rfl

/-! ### The snapshot (R384, R390) -/

/-- The pieces of an image lie inside its length. -/
theorem imagePieces_inside (len : Nat) (l : List (Nat × Nat)) (o : Nat) :
    ∀ x ∈ imagePieces len o l, x.1 + x.2.2 ≤ len := by
  induction l generalizing o with
  | nil => simp [imagePieces]
  | cons y l ih =>
    rw [imagePieces]
    split
    · simp
    · refine List.forall_mem_cons.mpr ⟨?_, ih _⟩
      dsimp only
      omega

theorem Wk.byte_each_copyPiece {snap len a : Nat} (ha : beyond snap len a) {l : List (Nat × Nat × Nat)}
    (hl : ∀ x ∈ l, x.1 + x.2.2 ≤ len) (w : Wk) : (Wk.each l (Wk.copyPiece snap) w).mem.byte a = w.mem.byte a := by
  refine List.foldlRecOn (motive := fun v : Wk => v.mem.byte a = w.mem.byte a) l _ rfl fun v hv x hx => ?_
  have inside := hl x hx
  rw [Wk.copyPiece, Wk.mem_up, Wk.mem_op, Mem.byte_copy_beyond, hv]
  unfold beyond at *
  omega

/-- The copy of the live image changes no byte outside the snapshot. -/
theorem Wk.copyOut_byte (w : Wk) {a : Nat} (ha : beyond w.dev.sec.snap w.dev.secLen a) :
    w.copyOut.mem.byte a = w.mem.byte a := by
  have inside : ∀ x ∈ w.dev.shardPieces w.mem, x.1 + x.2.2 ≤ w.dev.secLen := imagePieces_inside _ _ _
  have copied := Wk.byte_each_copyPiece ha inside w
  unfold Wk.copyOut
  dsimp only
  split
  · rename_i short
    rw [Wk.mem_up, Wk.mem_op, Mem.byte_clear, if_neg]
    · exact copied
    · unfold beyond at ha
      omega
  · exact copied

/-! ### PARITY_PHASE_DONE and COPY_PHASE_DONE (R390, R391, R402) -/

theorem execParityPhaseDone_ends (phase : s.dev.sec.phase = 1) (entries : ∀ e ∈ s.dev.rly.entries, e.tag ≠ 255)
    (landings : ∀ l ∈ s.dev.rly.landings, l.tag ≠ 255) (sent : s.dev.paritySends = false) :
    exec .parityPhaseDone s = .next (s.withDev fun d => { d with sec := { d.sec with parityDone := true } }) := by
  refine devOnly_next_of s (if_pos ?_)
  have noEntry : (s.dev.rly.entries.any fun e => e.tag == 255) = false := by simpa using entries
  have noLanding : (s.dev.rly.landings.any fun l => l.tag == 255) = false := by simpa using landings
  rw [phase, noEntry, noLanding, sent]
  rfl

/-- The end of the copy phase; a large domain exchanges digests of the snapshot `dig`. -/
def Dev.copyEnded (dig : Nat) (received : List (Nat × BitVec 384)) (d : Dev) : Dev :=
  let d := { d with sec := { d.sec with copyDone := true } }
  if !d.byDigest then d
  else
    let kept := received.foldl (fun m x => AMap.set 0 m x.1 x.2.toNat) d.sec.digests
    let d := { d with sec := { d.sec with digest := dig, digests := kept } }
    d.digestPartners.foldl (fun d p => d.emit (.digest p dig)) d

theorem Dev.copyEnded_done (dig : Nat) (received : List (Nat × BitVec 384)) (d : Dev) :
    (d.copyEnded dig received).sec.copyDone = true := by
  unfold Dev.copyEnded
  dsimp only
  split
  · rfl
  · rw [foldl_keeps Dev.sec _ (fun d p => d.emit_sec _)]

theorem execCopyPhaseDone_next (phase : s.dev.sec.phase = 2) (open_ : s.dev.sec.copyDone = false)
    (received : List (Nat × BitVec 384)) : ∃ dig, exec (.copyPhaseDone received) s =
      .next (s.after (s.work.copyOut.up (Dev.copyEnded dig received))) := by
  refine ⟨_, done_next_of s (if_neg ?_)⟩
  rw [show s.work.dev = s.dev from rfl, phase, open_]
  exact Bool.false_ne_true

theorem execCopyPhaseDone_ends (phase : s.dev.sec.phase = 2) (open_ : s.dev.sec.copyDone = false)
    (received : List (Nat × BitVec 384)) :
    ∃ t, exec (.copyPhaseDone received) s = .next t ∧ t.mem = s.work.copyOut.mem ∧ t.dev.sec.copyDone = true ∧
      ∀ a, beyond s.dev.sec.snap s.dev.secLen a → t.mem.byte a = s.mem.byte a := by
  obtain ⟨dig, next⟩ := execCopyPhaseDone_next phase open_ received
  obtain ⟨base, -⟩ := Wk.secured_iff.mp s.work.copyOut_secured
  have mem := State.after_up_mem (s := s) base (Dev.copyEnded dig received)
  refine ⟨_, next, mem, ?_, fun a ha => ?_⟩
  · rw [State.after_up_dev, Dev.copyEnded_done]
  · rw [mem, s.work.copyOut_byte ha]
    rfl

/-! ### REBUILD_COMPLETE (R350, R396) -/

/-- A unit that the control cores solved goes where it belongs: into the live image, or into the snapshot. -/
def Wk.putSolved (ps : List (Nat × Nat × Nat)) (live : Bool) (snap : Nat) (w : Wk) (u : Nat × List Byte) : Wk :=
  if live then
    (ps.find? fun x => decide (x.1 ≤ u.1) && decide (u.1 + u.2.length ≤ x.1 + x.2.2)).elim w fun x =>
      w.hbmPut (x.2.1 + (u.1 - x.1)) u.2
  else w.hbmPut (snap + u.1) u.2

/-- Every solved unit in its place. -/
def Wk.putAllSolved (w : Wk) (solved : List (Nat × List Byte)) : Wk :=
  Wk.each solved (Wk.putSolved (w.dev.shardPieces w.mem) w.dev.sec.source w.dev.sec.snap) w

/-- The rebuild is over, and the starter is told. -/
def Dev.rebuilt (d : Dev) : Dev := { d with sec := { d.sec with rebuild := false } }.notify 0xFF 0xFF .rebuilt

theorem execRebuildComplete_next (rebuild : s.dev.sec.rebuild = true) (phase : s.dev.sec.phase = 3)
    (ok : s.dev.sec.unrecoverable = false) (solved : List (Nat × List Byte)) :
    exec (.rebuildComplete solved) s = .next (s.after ((s.work.putAllSolved solved).up Dev.rebuilt)) := by
  refine done_next_of s ((if_neg ?_).trans ?_)
  · rw [show s.work.dev = s.dev from rfl, rebuild, phase, ok]
    exact Bool.false_ne_true
  · refine congrArg (fun w : Wk => w.up Dev.rebuilt) ?_
    refine congrArg (fun f => Wk.each solved f s.work) (funext fun w => funext fun u => ?_)
    unfold Wk.putSolved
    split
    · split
      · rename_i found
        rw [found]
        rfl
      · rename_i found
        rw [found]
        rfl
    · rfl

theorem Wk.hbmPut_base (w : Wk) (a : Nat) (data : List Byte) : (w.hbmPut a data).base = w.base := by
  unfold Wk.hbmPut Wk.put
  split <;> rfl

theorem Wk.putSolved_base (ps : List (Nat × Nat × Nat)) (live : Bool) (snap : Nat) (w : Wk) (u : Nat × List Byte) :
    (w.putSolved ps live snap u).base = w.base := by
  unfold Wk.putSolved
  split
  · cases ps.find? fun x => decide (x.1 ≤ u.1) && decide (u.1 + u.2.length ≤ x.1 + x.2.2) with
    | none => rfl
    | some x => exact w.hbmPut_base _ _
  · exact w.hbmPut_base _ _

/-- Units solved for the snapshot change no byte but their own. -/
theorem Wk.byte_each_putSolved {snap a : Nat} (ps : List (Nat × Nat × Nat)) {l : List (Nat × List Byte)}
    (ha : ∀ u ∈ l, beyond (snap + u.1) u.2.length a) (w : Wk) :
    (Wk.each l (Wk.putSolved ps false snap) w).mem.byte a = w.mem.byte a := by
  refine List.foldlRecOn (motive := fun v : Wk => v.mem.byte a = w.mem.byte a) l _ rfl fun v hv u hu => ?_
  have out := ha u hu
  show ((v.put (snap + u.1) u.2).up _).mem.byte a = _
  rw [Wk.mem_up, Wk.byte_put, if_neg, hv]
  unfold beyond at out
  omega

theorem execRebuildComplete_ends (rebuild : s.dev.sec.rebuild = true) (phase : s.dev.sec.phase = 3)
    (ok : s.dev.sec.unrecoverable = false) (solved : List (Nat × List Byte)) :
    ∃ t, exec (.rebuildComplete solved) s = .next t ∧ t.dev.sec.rebuild = false ∧
      (s.dev.sec.source = false → ∀ a, (∀ u ∈ solved, beyond (s.dev.sec.snap + u.1) u.2.length a) →
        t.mem.byte a = s.mem.byte a) := by
  refine ⟨_, execRebuildComplete_next rebuild phase ok solved, ?_, fun source a ha => ?_⟩
  · exact congrArg Sec.rebuild (Dev.notify_sec _ _ _ _)
  · rw [State.after_mem s _ (Wk.each_keeps Wk.base (fun w u => w.putSolved_base _ _ _ u) _ _), Wk.mem_up, Wk.putAllSolved,
      show s.work.dev.sec.source = false from source]
    exact Wk.byte_each_putSolved _ ha s.work

/-! ### RESTORE_DONE (R395, R397, R402) -/

/-- The image in its place: the live image copied out, or the snapshot copied in. -/
def Wk.replaced (w : Wk) : Wk := if w.dev.sec.source then w.copyOut else w.copyIn

theorem Wk.replaced_secured (w : Wk) : w.replaced.secured = w.secured := by
  unfold Wk.replaced
  split
  · exact w.copyOut_secured
  · exact w.copyIn_secured

/-- The block once the record `r` is loaded, its contexts too; a restore of the live image completes its point. -/
def Wk.recordLoaded (w : Wk) (live : Bool) (r : List Byte) : Wk :=
  (((w.up fun d => d.loadRecord r).loadContexts).ite live fun w => w.up Dev.completePoint).up fun d =>
    { d with sec := { d.sec with valid := true } }

/-- PHASE 4: a large domain has verified the digest `dig` by its copies. -/
def Dev.restored (dig : Nat) (copies : List (BitVec 384)) (d : Dev) : Dev :=
  let me := d.pos.getD 0xFFFF
  let l := ((d.live.groupOfPos me).map fun x => x.2.2).getD []
  let d := if d.byDigest then
    (d.sec.digests.foldl (fun d x => d.emit (.digest (l.getD x.1 0xFFFF) x.2)) d).verifyDigest dig copies
  else d
  d.setPhase 4

/-- A restore is due to end. -/
def Dev.restorable (d : Dev) : Prop := d.sec.phase = 3 ∧ d.sec.rebuild = false ∧ d.sec.unrecoverable = false

theorem restoreDone_open (due : s.dev.restorable) :
    (s.work.dev.sec.phase != 3 || s.work.dev.sec.rebuild || s.work.dev.sec.unrecoverable) = false := by
  obtain ⟨phase, rebuild, ok⟩ := due
  rw [show s.work.dev = s.dev from rfl, phase, rebuild, ok]
  rfl

theorem execRestoreDone_good (due : s.dev.restorable) (good : recordOk s.work.replaced.savedRecord = true)
    (copies : List (BitVec 384)) : ∃ dig, exec (.restoreDone copies) s = .next (s.after
      ((s.work.replaced.recordLoaded s.dev.sec.source s.work.replaced.savedRecord).up (Dev.restored dig copies))) := by
  refine ⟨_, done_next_of s ((if_neg ?_).trans (if_neg ?_))⟩
  · rw [restoreDone_open due]
    exact Bool.false_ne_true
  · show ¬ (!recordOk s.work.replaced.savedRecord) = true
    rw [good]
    exact Bool.false_ne_true

theorem execRestoreDone_bad (due : s.dev.restorable) (bad : recordOk s.work.replaced.savedRecord = false)
    (copies : List (BitVec 384)) : exec (.restoreDone copies) s = .next (s.after
      (s.work.replaced.up fun d => { d with sec := { d.sec with rebuild := true } })) := by
  refine done_next_of s ((if_neg ?_).trans (if_pos ?_))
  · rw [restoreDone_open due]
    exact Bool.false_ne_true
  · show (!recordOk s.work.replaced.savedRecord) = true
    rw [bad]
    rfl

/-- Loading a record and its contexts writes nothing. -/
theorem Wk.recordLoaded_mem (w : Wk) (live : Bool) (r : List Byte) :
    (w.recordLoaded live r).base = w.base ∧ (w.recordLoaded live r).mem = w.mem := by
  have contexts (v : Wk) : v.loadContexts.base = v.base ∧ v.loadContexts.mem = v.mem := by
    unfold Wk.loadContexts
    split
    · exact ⟨rfl, rfl⟩
    · rw [Wk.up_base, Wk.mem_up]
      exact ⟨rfl, rfl⟩
  obtain ⟨base, mem⟩ := contexts (w.up fun d => d.loadRecord r)
  rw [Wk.up_base] at base
  rw [Wk.mem_up] at mem
  cases live <;> simp only [Wk.recordLoaded, Wk.ite, Bool.false_eq_true, if_false, if_true, Wk.up_base, Wk.mem_up, base, mem,
    and_self]

theorem Dev.setPhase_sec (d : Dev) (n : Nat) : (d.setPhase n).sec = { d.sec with phase := n } := by
  unfold Dev.setPhase
  split
  · rename_i same
    rw [← beq_iff_eq.mp same]
  · simp

theorem Dev.verifyDigest_valid (d : Dev) (dig : Nat) (copies : List (BitVec 384)) :
    (d.verifyDigest dig copies).sec.valid = d.sec.valid := by
  unfold Dev.verifyDigest
  split <;> simp

theorem Dev.restored_sec (dig : Nat) (copies : List (BitVec 384)) (d : Dev) :
    (d.restored dig copies).sec.phase = 4 ∧ (d.restored dig copies).sec.valid = d.sec.valid := by
  rw [Dev.restored, Dev.setPhase_sec]
  refine ⟨rfl, ?_⟩
  dsimp only
  split
  · rw [Dev.verifyDigest_valid, foldl_keeps Dev.sec _ (fun d x => d.emit_sec _)]
  · rfl

theorem execRestoreDone_ends (due : s.dev.restorable) (copies : List (BitVec 384)) :
    (recordOk s.work.replaced.savedRecord = true →
      ∃ t, exec (.restoreDone copies) s = .next t ∧ t.mem = s.work.replaced.mem ∧ t.dev.sec.phase = 4 ∧
        t.dev.sec.valid = true) ∧
    (recordOk s.work.replaced.savedRecord = false →
      ∃ t, exec (.restoreDone copies) s = .next t ∧ t.mem = s.work.replaced.mem ∧ t.dev.sec.phase = 3 ∧
        t.dev.sec.rebuild = true) := by
  obtain ⟨base, sec⟩ := Wk.secured_iff.mp s.work.replaced_secured
  refine ⟨fun good => ?_, fun bad => ?_⟩
  · obtain ⟨dig, next⟩ := execRestoreDone_good due good copies
    obtain ⟨loadedBase, loadedMem⟩ := s.work.replaced.recordLoaded_mem s.dev.sec.source s.work.replaced.savedRecord
    obtain ⟨phase, valid⟩ := Dev.restored_sec dig copies
      (s.work.replaced.recordLoaded s.dev.sec.source s.work.replaced.savedRecord).dev
    refine ⟨_, next, (State.after_up_mem (loadedBase.trans base) _).trans loadedMem, phase, valid.trans ?_⟩
    rw [Wk.recordLoaded, Wk.dev_up]
  · refine ⟨_, execRestoreDone_bad due bad copies, State.after_up_mem base _, ?_, ?_⟩
    · rw [State.after_up_dev, sec]
      exact due.1
    · rw [State.after_up_dev]

/-- Settles O44, row by row. That a copy or a restore takes effect whole at its ending row is the model's choice (log
entries 51 and 53). -/
theorem securingAndRestoring : Obligations.SecuringAndRestoring :=
  ⟨fun _ => execParityPhaseDone_ends, fun _ received phase open_ => execCopyPhaseDone_ends phase open_ received,
    fun _ solved rebuild phase ok => execRebuildComplete_ends rebuild phase ok solved,
    fun _ copies phase rebuild ok => execRestoreDone_ends ⟨phase, rebuild, ok⟩ copies,
    fun s open_ => done_next_of s (w := s.work.secCtrl 1) (if_pos (decide_eq_true open_))⟩

end Sys2Proof.Machine
end

section
/-! PERMITS AND WAITERS: grants in queue order (R443, R444), and heats that waited on a slot (R141). -/

namespace Sys2Proof.Machine
open Sys2Proof.Config

variable {s : State} {h : HeatId} {x : Heat} {c : Instr}

/-! ### PERMIT_GRANT (R444) -/

/-- A heat as its permit request is granted. -/
def Heat.grant (at_ : Nat) (x : Heat) : Heat :=
  { x with granted := true, request := none, state := .ready, age := 0, since := at_ }

/-- The heat of an entry holds its grant and waits for dispatch. -/
def Dev.holdsGrant (d : Dev) (id : HeatId) : Prop :=
  ∃ y, d.heat id = some y ∧ y.granted = true ∧ y.request = none ∧ y.state = .ready

theorem Dev.holdsGrant_setHeat {d : Dev} {id : HeatId} {y : Heat} (hy : d.heat id = some y) (n : Nat) :
    (d.setHeat id (Heat.grant n)).holdsGrant id :=
  ⟨y.grant n, Dev.heat_setHeat_some hy (by intro; rfl), rfl, rfl, rfl⟩

/-- A later grant takes none away. -/
theorem Dev.holdsGrant_grant {d : Dev} {id : HeatId} (hd : d.holdsGrant id) (k : HeatId) (n : Nat) :
    (d.setHeat k (Heat.grant n)).holdsGrant id := by
  obtain ⟨y, hy, granted, request, state⟩ := hd
  by_cases e : k = id
  · subst e
    exact Dev.holdsGrant_setHeat hy n
  · exact ⟨y, (d.heat_setHeat_other _ (by intro; rfl) (Ne.symm e)).trans hy, granted, request, state⟩

theorem Dev.holdsGrant_grants {id : HeatId} (peak ramp : Nat) (l : List Heat) (n : Nat) (d : Dev) (hd : d.holdsGrant id) :
    (Dev.grants peak ramp n l d).holdsGrant id := by
  induction l generalizing n d with
  | nil => cases n <;> exact hd
  | cons x l ih =>
    cases n with
    | zero => exact hd
    | succ n =>
      rw [Dev.grants]
      split
      · exact ih _ _ (Dev.holdsGrant_grant hd x.id _)
      · split
        · exact hd
        · exact ih _ _ hd

theorem Dev.mem_requests {d : Dev} {l : List Heat} (hq : d.requests.mergeSort Heat.asksFirst = x :: l) : x ∈ d.mar.heats :=
  List.mem_of_mem_filter ((List.mergeSort_perm d.requests _).mem_iff.mp (hq ▸ List.mem_cons_self ..))

theorem execPermitGrant_next (s : State) : exec .permitGrant s = .next (s.withDev fun d =>
    (d.grants d.gPeak d.rampGrains 8 (d.requests.mergeSort Heat.asksFirst)).noteG) := rfl

theorem Dev.noteG_holdsGrant {d : Dev} {id : HeatId} (hd : d.holdsGrant id) : d.noteG.holdsGrant id := by
  obtain ⟨y, hy, rest⟩ := hd
  exact ⟨y, by simpa [Dev.heat] using hy, rest⟩

theorem execPermitGrant_grants {l : List Heat} (hq : s.dev.requests.mergeSort Heat.asksFirst = x :: l)
    (cap : s.dev.gSum + s.dev.live.classGrains x.pclass ≤ s.dev.permitCap)
    (ramp : s.dev.gSum + s.dev.live.classGrains x.pclass ≤ s.dev.gPeak + s.dev.rampGrains) :
    ∃ t y, exec .permitGrant s = .next t ∧ t.mem = s.mem ∧ t.dev.heat x.id = some y ∧ y.granted = true ∧
      y.request = none ∧ y.state = .ready := by
  obtain ⟨z, hz⟩ := Option.isSome_iff_exists.mp
    (List.find?_isSome.mpr ⟨x, Dev.mem_requests hq, beq_self_eq_true x.id⟩ : (s.dev.heat x.id).isSome = true)
  have granted : (s.dev.grants s.dev.gPeak s.dev.rampGrains 8 (x :: l)).holdsGrant x.id := by
    rw [Dev.grants, if_pos ⟨cap, ramp⟩]
    exact Dev.holdsGrant_grants _ _ _ _ _ (Dev.holdsGrant_setHeat hz _)
  obtain ⟨y, hy, rest⟩ := Dev.noteG_holdsGrant (hq ▸ granted)
  exact ⟨_, y, execPermitGrant_next s, rfl, hy, rest⟩

/-! ### WAITER_RESUME (R141) -/

/-- The row of a context operation. -/
theorem exec_contextRow {b : CtxBody} (row : rowOf h (.context b) = some c) (s : State) :
    exec c s = done s fun w => w.withCop h b.cop := by
  simp only [rowOf] at row
  split at row
  case h_12 => exact absurd row nofun
  all_goals
    rename_i cop
    obtain rfl := Option.some.inj row
    rw [cop]
    rfl

/-- A heat's own row gets it on as its family goes on. -/
theorem exec_row (go : s.dev.goes h x) (row : rowOf h x.body = some c) :
    exec c s = .next (s.after (s.work.bodyStep x)) := by
  obtain ⟨hx, hr⟩ := go
  obtain rfl : x.id = h := Dev.heat_id hx
  have own := done_withHeat s x.id x hx hr
  cases hb : x.body with
  | stage b =>
    rw [hb] at row
    cases b with
    | matrix m =>
      obtain rfl := Option.some.inj row
      cases hs : m.sparse with
      | false => exact own _ _ rfl _ (by simp [Wk.bodyStep, hb, hs, Stage.plan])
      | true => exact own _ _ rfl _ (by simp [Wk.bodyStep, hb, hs, Stage.plan])
    | _ =>
      obtain rfl := Option.some.inj row
      exact own _ _ rfl _ (by simp only [Wk.bodyStep, hb, Stage.plan])
  | update u =>
    rw [hb, rowOf] at row
    split at row
    case h_4 => exact absurd row nofun
    all_goals
      rename_i uop
      obtain rfl := Option.some.inj row
      exact own _ _ rfl _ (by simp [Wk.bodyStep, hb, updatePlan, uop])
  | context b =>
    rw [hb] at row
    rw [exec_contextRow row]
    exact own _ _ rfl _ (by simp only [Wk.bodyStep, hb, beq_self_eq_true, if_true])
  | chained | fill | release | copy =>
    rw [hb] at row
    obtain rfl := Option.some.inj row
    exact own _ _ rfl _ (by simp only [Wk.bodyStep, hb])
  | _ => simp [hb, rowOf] at row

theorem execWaiterResume_next (go : s.dev.goes h x) : exec (.waiterResume h) s =
    .next (s.after (if x.waits.isEmpty then s.work else s.work.bodyStep x)) :=
  done_withHeat s h x go.1 go.2 _ _ rfl _ rfl

/-- A heat that waited on a slot gets on as its own row gets it on, and one that waits on none stays. -/
theorem execWaiterResume_row (go : s.dev.goes h x) (row : rowOf h x.body = some c) :
    (x.waits ≠ [] → exec (.waiterResume h) s = exec c s) ∧ (x.waits = [] → exec (.waiterResume h) s = .next s) := by
  rw [execWaiterResume_next go, exec_row go row]
  refine ⟨fun waits => ?_, fun idle => ?_⟩
  · rw [if_neg (by simpa using waits)]
  · rw [if_pos (by simp [idle])]
    rfl

end Sys2Proof.Machine
end

section
/-! MISMATCHES: the buffer that a core drains next, and what a failed test leaves (R118, R119, R121). -/

namespace Sys2Proof.Machine
open Sys2Proof.Config

variable {d e : Dev} {s : State} {c core key : Nat} {b : AccBuf} {x : Heat}

/-! ### The buffer that is drained next (R118) -/

/-- A choice that keeps what it holds or takes the next one chooses from the list. -/
theorem foldl_chooses {α : Type} {f : Option α → α → Option α} (hf : ∀ r x, f r x = r ∨ f r x = some x) (l : List α)
    {r : Option α} {z : α} (h : l.foldl f r = some z) : r = some z ∨ z ∈ l := by
  induction l generalizing r with
  | nil => exact .inl h
  | cons a l ih =>
    rcases ih h with h | h
    · rcases hf r a with e | e
      · exact .inl (e ▸ h)
      · exact .inr (Option.some.inj (e.symm.trans h) ▸ List.mem_cons_self ..)
    · exact .inr (List.mem_cons_of_mem _ h)

/-- The buffer of an accumulator that is finished, with its heat. -/
def Dev.finishedBuf (d : Dev) (c core i : Nat) : Option (Nat × AccBuf × Heat) :=
  match AMap.get [] d.mar.acc (accKey c core i) with
  | x :: _ => (d.heat x.heat).map fun h => (accKey c core i, x, h)
  | [] => none

/-- The finished buffer of the older heat, and of one heat that of the lower unit (R118). -/
def drainsSooner (r : Option (Nat × AccBuf × Heat)) (x : Nat × AccBuf × Heat) : Option (Nat × AccBuf × Heat) :=
  match r with
  | none => some x
  | some y =>
    if x.2.2.order < y.2.2.order ∨ (x.2.2.order = y.2.2.order ∧ x.2.1.unit < y.2.1.unit) then some x else some y

theorem Dev.toDrain_eq (d : Dev) (c core : Nat) :
    d.toDrain c core = ([0, 1, 2].filterMap (d.finishedBuf c core)).foldl drainsSooner none := rfl

theorem drainsSooner_chooses (r : Option (Nat × AccBuf × Heat)) (x : Nat × AccBuf × Heat) :
    drainsSooner r x = r ∨ drainsSooner r x = some x := by
  unfold drainsSooner
  split
  · exact .inr rfl
  · split
    · exact .inr rfl
    · exact .inl rfl

/-- What is drained next lies in one of the core's accumulators, and its heat is in the scoreboard. -/
theorem Dev.toDrain_spec (h : d.toDrain c core = some (key, b, x)) :
    (∃ i, i < 3 ∧ key = accKey c core i) ∧ d.heat b.heat = some x := by
  rw [Dev.toDrain_eq] at h
  have mem := (foldl_chooses drainsSooner_chooses _ h).resolve_left nofun
  obtain ⟨i, hi, at_⟩ := List.mem_filterMap.mp mem
  unfold Dev.finishedBuf at at_
  split at at_
  · obtain ⟨y, hy, e⟩ := Option.map_eq_some_iff.mp at_
    simp only [Prod.mk.injEq] at e
    obtain ⟨rfl, rfl, rfl⟩ := e
    exact ⟨⟨i, by simp at hi; omega, rfl⟩, hy⟩
  · exact absurd at_ nofun

/-! ### Units that are computed again (R119) -/

theorem Dev.dropBuf_acc (d : Dev) (key k : Nat) (h : k = key ∨ AMap.get [] d.mar.acc k = []) :
    AMap.get [] (d.dropBuf key).mar.acc k = [] := by
  rcases eq_or_ne k key with rfl | other
  · exact AMap.get_erase_same _ _ _
  · exact (AMap.get_erase_other _ _ other).trans (h.resolve_left other)

theorem Dev.foldl_dropBuf_acc {l : List Nat} {k : Nat} (h : k ∈ l ∨ AMap.get [] d.mar.acc k = []) :
    AMap.get [] (l.foldl Dev.dropBuf d).mar.acc k = [] := by
  induction l generalizing d with
  | nil => simpa using h
  | cons a l ih =>
    refine ih ?_
    rcases h with h | h
    · rcases List.mem_cons.mp h with rfl | h
      · exact .inr (d.dropBuf_acc _ _ (.inl rfl))
      · exact .inl h
    · exact .inr (d.dropBuf_acc _ _ (.inr h))

theorem Dev.foldl_dropBuf_heat (l : List Nat) (d : Dev) (k : HeatId) : (l.foldl Dev.dropBuf d).heat k = d.heat k :=
  foldl_keeps (fun d => d.heat k) Dev.dropBuf (fun _ _ => rfl) l d

/-- A heat with the unit of a buffer to be computed again. -/
def Heat.redo (b : AccBuf) (x : Heat) : Heat :=
  x.upAt b.stageNo fun g => { g with ran := g.ran.filter fun n => n != b.unit + 1 }

theorem Heat.redo_ran (b : AccBuf) (x : Heat) (st : Nat) : ((x.redo b).at st).ran =
    if st = b.stageNo then (x.at st).ran.filter (fun n => n != b.unit + 1) else (x.at st).ran := by
  rw [Heat.redo, Heat.at_upAt]
  split
  · rename_i e
    rw [e]
  · rfl

/-- From `x` to `y` a heat keeps its state, and units that had not run have not run. -/
def Heat.redone (x y : Heat) : Prop := y.state = x.state ∧ ∀ st n, n ∈ (y.at st).ran → n ∈ (x.at st).ran

theorem Heat.redo_redone (b : AccBuf) (x : Heat) : x.redone (x.redo b) := by
  refine ⟨rfl, fun st n h => ?_⟩
  rw [Heat.redo_ran] at h
  split at h
  · exact List.mem_of_mem_filter h
  · exact h

theorem Dev.again_heat {k : HeatId} (hx : d.heat k = some x) (b : AccBuf) :
    ∃ y, (d.again b).heat k = some y ∧ x.redone y ∧ (b.heat = k → b.unit + 1 ∉ (y.at b.stageNo).ran) := by
  by_cases hk : b.heat = k
  · subst hk
    refine ⟨x.redo b, Dev.heat_setHeat_some hx (by intro; rfl), x.redo_redone b, fun _ => ?_⟩
    rw [Heat.redo_ran, if_pos rfl]
    simp
  · exact ⟨x, (d.heat_setHeat_other _ (by intro; rfl) (Ne.symm hk)).trans hx, ⟨rfl, fun _ _ h => h⟩, fun h => absurd h hk⟩

/-- Of the buffers that are lost every unit of a heat is to be computed again. -/
theorem Dev.foldl_again_heat {k : HeatId} (l : List AccBuf) (hx : d.heat k = some x) :
    ∃ y, (l.foldl Dev.again d).heat k = some y ∧ x.redone y ∧
      ∀ b ∈ l, b.heat = k → b.unit + 1 ∉ (y.at b.stageNo).ran := by
  induction l generalizing d x with
  | nil => exact ⟨x, hx, ⟨rfl, fun _ _ h => h⟩, fun _ => nofun⟩
  | cons a l ih =>
    obtain ⟨y, hy, ⟨state, ran⟩, gone⟩ := Dev.again_heat hx a
    obtain ⟨z, hz, ⟨state', ran'⟩, rest⟩ := ih hy
    refine ⟨z, hz, ⟨state'.trans state, fun st n h => ran st n (ran' st n h)⟩, List.forall_mem_cons.mpr ⟨fun ha h => ?_, rest⟩⟩
    exact gone ha (ran' _ _ h)

theorem Dev.foldl_again_flt (l : List AccBuf) (d : Dev) : (l.foldl Dev.again d).flt = d.flt :=
  foldl_keeps Dev.flt Dev.again (fun _ _ => rfl) l d

/-! ### Fences (R119, R121) -/

/-- The heat of an entry that has started stays with its progress, and so do the buffers. -/
structure Dev.KeepsRun (d e : Dev) : Prop where
  carries : d.Carries e
  ran     : ∀ k x, d.heat k = some x → x.started → ∀ y, e.heat k = some y → ∀ st, (y.at st).ran = (x.at st).ran

theorem Dev.KeepsRun.of_mar (h : e.mar = d.mar) : d.KeepsRun e := by
  refine ⟨.of_eq h, fun k x hx _ y hy st => ?_⟩
  rw [Dev.heat, h] at hy
  rw [Option.some.inj (hy.symm.trans hx)]

theorem Dev.KeepsRun.trans {a b c : Dev} (h : a.KeepsRun b) (k : b.KeepsRun c) : a.KeepsRun c := by
  refine ⟨h.carries.trans k.carries, fun i x hx hs z hz st => ?_⟩
  obtain ⟨y, hy, marks⟩ := h.carries.heat i x hx hs
  rw [k.ran i y hy (marks.started hs) z hz st, h.ran i x hx hs y hy st]

theorem Dev.KeepsRun.of_told {d e : Dev} (hc : d.Carries e)
    (h : ∀ st k, e.told (fun x => (x.at st).ran) k = d.told (fun x => (x.at st).ran) k) : d.KeepsRun e := by
  refine ⟨hc, fun k x hx _ y hy st => ?_⟩
  have same := h st k
  rw [Dev.told_of_heat hy, Dev.told_of_heat hx] at same
  exact Option.some.inj same

theorem Heat.ran_upAt (x : Heat) (k st : Nat) {f : Prog → Prog} (hf : ∀ g, (f g).ran = g.ran) :
    ((x.upAt k f).at st).ran = (x.at st).ran := by
  rw [Heat.at_upAt]
  split
  · rename_i e
    rw [hf, ← e]
  · rfl

theorem Dev.unclaimSlot_ran (d : Dev) (g st : Nat) (k : HeatId) :
    (d.unclaimSlot g).told (fun x => (x.at st).ran) k = d.told (fun x => (x.at st).ran) k := by
  unfold Dev.unclaimSlot
  dsimp only
  split
  · exact Dev.told_updWhere (d.tag g false false 0) _ (by intro; rfl) (fun x => x.ran_upAt 0 st (by intro; rfl)) k
  · rfl

/-- A running heat that is cancelled keeps its progress until its cancellation completes. -/
theorem Dev.cancelHeat_keepsRun (d : Dev) (hx : x.state = .running) (chain : Bool) : d.KeepsRun (d.cancelHeat x chain) := by
  refine .of_told (d.cancelHeat_carries (.inl hx) chain) fun st k => ?_
  have freed := (foldl_keeps (fun d => d.told (fun x => (x.at st).ran) k) Dev.unclaimSlot
    (fun d g => d.unclaimSlot_ran g st k) x.claims (d.markDead x.id chain))
  simp only [Dev.cancelHeat, hx]
  exact (Dev.told_setHeat _ x.id (by intro; rfl) (by intro; rfl) k).trans freed

theorem Dev.settle_keepsRun (d : Dev) : d.KeepsRun d.settle := by
  refine ⟨d.settle_carries, fun k x hx hs y hy st => ?_⟩
  rw [d.settle_heat_some k x hx (by rcases hs with e | e <;> simp [e])] at hy
  rw [Option.some.inj hy]

theorem Dev.cancelRunning_keepsRun (d : Dev) (c : Nat) : d.KeepsRun (d.cancelRunning c) := by
  refine Dev.KeepsRun.trans ?_ (Dev.settle_keepsRun _)
  have running : ∀ h ∈ d.mar.heats.filter fun h => h.id.cluster.val == c && h.state == .running, h.state = .running :=
    fun h hm => by simpa using (Bool.and_eq_true_iff.mp (List.mem_filter.mp hm).2).2
  exact List.foldlRecOn (motive := fun e => d.KeepsRun e) _ _ (.of_mar rfl) fun e he h hm =>
    he.trans (e.cancelHeat_keepsRun (running h hm) false)

theorem Dev.loseCluster_keepsRun (d : Dev) (c : Nat) : d.KeepsRun (d.loseCluster c) := by
  have halted : d.KeepsRun (d.haltCluster c 4) := .of_mar (d.haltCluster_mar c 4)
  exact (halted.trans (Dev.cancelRunning_keepsRun _ c)).trans (.of_mar (by simp only [Dev.loseCluster, Dev.notify_mar]))

/-- A core that is fenced: the record, and its physical core out of service. -/
def Dev.fenced (d : Dev) (c i : Nat) (r : Rec) : Dev :=
  let d := d.raise { r with cluster := c, unit := i, spares := 0 }
  d.fencePhys c (d.physical c i)

theorem Dev.fenced_mar (d : Dev) (c i : Nat) (r : Rec) : (d.fenced c i r).mar = d.mar := Dev.raise_mar _ _

theorem Dev.fence_keepsRun (d : Dev) (c i : Nat) (r : Rec) : d.KeepsRun (d.fence c i r) := by
  have out : d.KeepsRun (d.fenced c i r) := .of_mar (d.fenced_mar c i r)
  have asked : d.KeepsRun ((d.fenced c i r).replace 2) := out.trans (.of_mar (Dev.replace_mar _ _))
  unfold Dev.fence
  dsimp only
  split
  · exact out.trans (.of_mar rfl)
  · split
    · exact asked.trans (.of_mar rfl)
    · exact asked.trans (Dev.loseCluster_keepsRun _ c)

theorem Dev.fencedCores_of_flt (h : e.flt.fenced = d.flt.fenced) (c : Nat) : e.fencedCores c = d.fencedCores c := by
  rw [Dev.fencedCores, h, Dev.fencedCores]

theorem Dev.mem_fencePhys (d : Dev) (c p : Nat) : p ∈ (d.fencePhys c p).fencedCores c := by
  simp only [Dev.fencePhys, Dev.fencedCores, AMap.get_upd, if_true]
  split
  · rename_i there
    simpa using there
  · simp

theorem Dev.replace_fenced (d : Dev) (n : Nat) : (d.replace n).flt.fenced = d.flt.fenced := by
  unfold Dev.replace Dev.raiseOnce
  dsimp only
  split
  · rfl
  · split <;> split <;> simp

theorem Dev.loseCluster_fenced (d : Dev) (c : Nat) : (d.loseCluster c).flt.fenced = d.flt.fenced := by
  have halted : (d.haltCluster c 4).flt = d.flt := foldl_keeps Dev.flt _ (fun e k => e.halt_flt c k 4 _) _ d
  simp [Dev.loseCluster, halted]

/-- A fence takes the core's physical core out of service. -/
theorem Dev.mem_fence (d : Dev) (c i : Nat) (r : Rec) : d.physical c i ∈ (d.fence c i r).fencedCores c := by
  have out : d.physical c i ∈ (d.fenced c i r).fencedCores c := by
    have same : (d.raise { r with cluster := c, unit := i, spares := 0 }).physical c i = d.physical c i := by
      rw [Dev.physical, Dev.raise_flt, Dev.physical]
    rw [← same]
    exact Dev.mem_fencePhys _ c _
  unfold Dev.fence
  dsimp only
  split
  · exact out
  · have asked := Dev.fencedCores_of_flt ((d.fenced c i r).replace_fenced 2) c
    split
    · exact asked ▸ out
    · rw [Dev.fencedCores_of_flt (Dev.loseCluster_fenced _ c)]
      exact asked ▸ out

/-! ### A mismatch (R119, R121) -/

/-- The accumulators of a core. -/
def coreKeys (c core : Nat) : List Nat := [accKey c core 0, accKey c core 1, accKey c core 2]

theorem mem_coreKeys {i : Nat} (hi : i < 3) (c core : Nat) : accKey c core i ∈ coreKeys c core := by
  rcases i with - | - | - | i
  · simp [coreKeys]
  · simp [coreKeys]
  · simp [coreKeys]
  · omega

/-- The buffers that a core has not drained. -/
def Dev.undrained (d : Dev) (c core : Nat) : List AccBuf := ((coreKeys c core).map fun k => AMap.get [] d.mar.acc k).flatten

/-- The block as a mismatch leaves it, before the fence. -/
def Dev.emptied (d : Dev) (c core : Nat) : Dev :=
  (coreKeys c core).foldl Dev.dropBuf ((d.undrained c core).foldl Dev.again d)

theorem Wk.mismatch_eq (w : Wk) (c core : Nat) :
    w.mismatch c core = w.up fun d => (d.emptied c core).fence c core (arrayFault 0) := rfl

theorem Dev.emptied_flt (d : Dev) (c core : Nat) : (d.emptied c core).flt = d.flt :=
  (foldl_keeps Dev.flt Dev.dropBuf (fun _ _ => rfl) _ _).trans (Dev.foldl_again_flt _ d)

/-- What a mismatch leaves of a running heat with a buffer in the core: the buffer's unit is to be computed again. -/
theorem Dev.mismatch_leaves (hx : d.heat b.heat = some x) (hr : x.state = .running) {i : Nat} (hi : i < 3)
    (hb : AMap.get [] d.mar.acc (accKey c core i) = [b]) :
    (∀ i, i < 3 → AMap.get [] ((d.emptied c core).fence c core (arrayFault 0)).mar.acc (accKey c core i) = []) ∧
    d.physical c core ∈ ((d.emptied c core).fence c core (arrayFault 0)).fencedCores c ∧
    ∀ z, ((d.emptied c core).fence c core (arrayFault 0)).heat b.heat = some z → b.unit + 1 ∉ (z.at b.stageNo).ran := by
  have kept := (d.emptied c core).fence_keepsRun c core (arrayFault 0)
  refine ⟨fun j hj => ?_, ?_, fun z hz => ?_⟩
  · rw [kept.carries.acc]
    exact Dev.foldl_dropBuf_acc (.inl (mem_coreKeys hj c core))
  · have same : (d.emptied c core).physical c core = d.physical c core := by
      rw [Dev.physical, Dev.emptied_flt, Dev.physical]
    rw [← same]
    exact Dev.mem_fence _ c core _
  · obtain ⟨y, hy, ⟨state, -⟩, gone⟩ := Dev.foldl_again_heat (d.undrained c core) hx
    have lost : b ∈ d.undrained c core :=
      List.mem_flatten.mpr ⟨[b], List.mem_map.mpr ⟨_, mem_coreKeys hi c core, hb⟩, List.mem_singleton.mpr rfl⟩
    have there : (d.emptied c core).heat b.heat = some y := (Dev.foldl_dropBuf_heat _ _ _).trans hy
    rw [kept.ran _ y there (.inl (state.trans hr)) z hz]
    exact gone b lost rfl

end Sys2Proof.Machine
end

section
/-! DRAINS: a buffer that passes its test is stored where it belongs (R118, R119, R125). -/

namespace Sys2Proof.Machine
open Sys2Proof.Config

variable {d : Dev} {s : State} {v w q : Wk} {x : MatCtx} {b hit : AccBuf} {key : Nat} {o : Desc}

/-! ### Stores and the memory they find -/

/-- What an action does to memory depends on memory alone. -/
def memoryAlone (f : Wk → Wk) : Prop := ∀ v w : Wk, v.mem = w.mem → (f v).mem = (f w).mem

theorem memoryAlone_op (o : MemOp) : memoryAlone fun w => w.op o := fun v w h => by rw [Wk.mem_op, Wk.mem_op, h]

theorem memoryAlone.comp {f g : Wk → Wk} (hf : memoryAlone f) (hg : memoryAlone g) : memoryAlone fun w => g (f w) :=
  fun v w h => hg _ _ (hf v w h)

theorem memoryAlone_each {α : Type} {f : Wk → α → Wk} (hf : ∀ a, memoryAlone fun w => f w a) (l : List α) :
    memoryAlone (Wk.each l f) := fun v w h => by
  induction l generalizing v w with
  | nil => exact h
  | cons a l ih => exact ih _ _ (hf a v w h)

theorem memoryAlone_put (a : Nat) (l : List Byte) : memoryAlone fun w => w.put a l := fun v w h => by
  unfold Wk.put
  split
  · exact h
  · exact memoryAlone_op _ v w h

theorem memoryAlone_pondPut (a : Nat) (l : List Byte) : memoryAlone fun w => w.pondPut a l := memoryAlone_put a l

theorem memoryAlone_pondBad (p : Piece) : memoryAlone fun w => w.pondBad p :=
  memoryAlone_each (fun i => memoryAlone_op (.poisonPond ((touchedWords 8 (p.1 - pondBase) p.2.1.length).1 + i))) _

theorem memoryAlone_pondPieces (ps : List Piece) : memoryAlone fun w => w.pondPieces ps :=
  memoryAlone.comp (memoryAlone_each (fun x => memoryAlone_pondPut x.1 x.2) (joinPieces ps))
    (memoryAlone_each memoryAlone_pondBad (ps.filter fun p => p.2.2))

theorem memoryAlone_rewrite (a : Nat) (l : List Byte) : memoryAlone fun w => w.rewrite a l := fun v w h => by
  unfold Wk.rewrite
  split <;> exact memoryAlone_put a l v w h

/-- What a plain update writes is computed from the bytes at its place. -/
theorem memoryAlone_applyAtom {a : AtomOp} (ha : a.plain = true) : memoryAlone fun w => w.applyAtom a := fun v w h => by
  have bytes (p n : Nat) : v.bytes p n = w.bytes p n := by rw [Wk.bytes, h, Wk.bytes]
  have num (p n : Nat) : v.num p n = w.num p n := by rw [Wk.num, bytes, Wk.num]
  cases a with
  | addF p k =>
    have word : v.w32 p = w.w32 p := by rw [Wk.w32, num, Wk.w32]
    simp only [Wk.applyAtom, word]
    exact memoryAlone_rewrite p _ v w h
  | addI p k =>
    simp only [Wk.applyAtom, num]
    exact memoryAlone_rewrite p _ v w h
  | amax p m nf =>
    simp only [Wk.applyAtom, bytes]
    exact memoryAlone_rewrite p _ v w h
  | entry => exact absurd ha Bool.false_ne_true
  | entryF => exact absurd ha Bool.false_ne_true

theorem memoryAlone_pondAtom (id : HeatId) {a : AtomOp} (ha : a.plain = true) : memoryAlone fun w => w.pondAtom id a :=
  fun v w h => by
    have applied := memoryAlone_applyAtom ha v w h
    have same (c : Bool) (u : Wk) : (u.ite c fun w => w.upHeat id fun x => { x with sat := true }).mem = u.mem := by
      cases c <;> rfl
    simp only [Wk.pondAtom]
    rw [same, same]
    exact applied

/-- A store goes on where no poison is bound for HBM, and what it writes depends on memory alone. -/
theorem Wk.store_mem {id : HeatId} {y z : Heat} (hv : v.dev.heat id = some y) (hw : w.dev.heat id = some z)
    (h : v.mem = w.mem) (who : Requester) (st no : Nat) {ps : List Piece} {atoms : List AtomOp} (hn : noHbmPoison ps)
    (ha : ∀ a ∈ atoms, a.plain = true) :
    (v.store id who st no ps atoms false).1.mem = (w.store id who st no ps atoms false).1.mem := by
  have clean : ((ps.filter fun p => decide (p.1 < pondBase)).any fun p => p.2.2) = false := by
    rw [List.any_eq_false]
    intro p hp
    simpa using hn p (List.mem_of_mem_filter hp) (by simpa using (List.mem_filter.mp hp).2)
  have pieces := memoryAlone_pondPieces (ps.filter fun p => decide (pondBase ≤ p.1)) v w h
  have updates : ∀ (l : List AtomOp), (∀ a ∈ l, a.plain = true) → ∀ v w : Wk, v.mem = w.mem →
      (Wk.each l (fun w a => w.pondAtom id a) v).mem = (Wk.each l (fun w a => w.pondAtom id a) w).mem := by
    intro l
    induction l with
    | nil => exact fun _ _ _ h => h
    | cons a l ih =>
      intro hl v w h
      exact ih (fun a m => hl a (List.mem_cons_of_mem _ m)) _ _ (memoryAlone_pondAtom id (hl a (List.mem_cons_self ..)) v w h)
  simp only [Wk.store, hv, hw, clean, Bool.or_self, Bool.false_eq_true, if_false, Wk.mem_up]
  exact updates _ (fun a m => ha a (List.mem_of_mem_filter m)) _ _ pieces

theorem MatCtx.output_plain (x : MatCtx) (u : View) (b : AccBuf) (o : Desc) : ∀ a ∈ (x.output u b o).2.1, a.plain = true := by
  unfold MatCtx.output
  dsimp only
  split
  · exact AtomOp.plain_append (Desc.accAtoms_plain o _) (Desc.foldOf_plain o _)
  · split
    · exact Desc.foldOf_plain o _
    · exact Desc.foldOf_plain o _

/-! ### The tested buffer in its accumulator -/

/-- The block with a buffer as its test has found it. -/
def Dev.tested (d : Dev) (key : Nat) (hit : AccBuf) : Dev :=
  { d with mar := { d.mar with acc := AMap.set [] d.mar.acc key [hit] } }

/-- What is listed after an insertion: the new entry, or what was listed before. -/
theorem AMap.mem_insert {α : Type} {m : AMap α} {k : Nat} {a : α} {e : Nat × α} (h : e ∈ AMap.insert m k a) :
    e = (k, a) ∨ e ∈ m := by
  induction m with
  | nil => exact .inl (List.mem_singleton.mp h)
  | cons y m ih =>
    rw [AMap.insert] at h
    split at h
    · exact (List.mem_cons.mp h).imp_right id
    · split at h
      · exact (List.mem_cons.mp h).imp_right (List.mem_cons_of_mem y)
      · rcases List.mem_cons.mp h with rfl | h
        · exact .inr (List.mem_cons_self ..)
        · exact (ih h).imp_right (List.mem_cons_of_mem y)

/-- What was listed before an insertion is listed still, but for the entry that read at the key. -/
theorem AMap.mem_insert_of_mem {α : Type} (z : α) {m : AMap α} {k : Nat} (a : α) {e : Nat × α} (h : e ∈ m) :
    e ∈ AMap.insert m k a ∨ e = (k, AMap.get z m k) := by
  induction m with
  | nil => exact absurd h List.not_mem_nil
  | cons y m ih =>
    rw [AMap.insert, AMap.get]
    split
    · exact .inl (List.mem_cons_of_mem _ h)
    · split
      · rename_i eq
        rw [if_pos eq.symm]
        rcases List.mem_cons.mp h with rfl | h
        · exact .inr (Prod.ext eq.symm rfl)
        · exact .inl (List.mem_cons_of_mem _ h)
      · rename_i ne
        rw [if_neg (Ne.symm ne)]
        rcases List.mem_cons.mp h with rfl | h
        · exact .inl (List.mem_cons_self ..)
        · exact (ih h).imp_left (List.mem_cons_of_mem _)

theorem AMap.mem_insert_self {α : Type} (m : AMap α) (k : Nat) (a : α) : (k, a) ∈ AMap.insert m k a := by
  induction m with
  | nil => exact List.mem_singleton.mpr rfl
  | cons y m ih =>
    rw [AMap.insert]
    split
    · exact List.mem_cons_self ..
    · split
      · exact List.mem_cons_self ..
      · exact List.mem_cons_of_mem _ ih

/-- A buffer of the same heat, stage and unit. -/
def AccBuf.alike (b c : AccBuf) : Prop := c.heat = b.heat ∧ c.stageNo = b.stageNo ∧ c.unit = b.unit

theorem MatCtx.mem_bufs {b : AccBuf} : b ∈ x.bufs d ↔ (∃ e ∈ d.mar.acc, b ∈ e.2) ∧ b.heat = x.h.id ∧ b.stageNo = x.st := by
  simp only [MatCtx.bufs, List.mem_filter, List.mem_flatten, List.mem_map, Bool.and_eq_true, beq_iff_eq]
  constructor
  · rintro ⟨⟨l, ⟨e, he, rfl⟩, hb⟩, own⟩
    exact ⟨⟨e, he, hb⟩, own⟩
  · rintro ⟨⟨e, he, hb⟩, own⟩
    exact ⟨⟨_, ⟨e, he, rfl⟩, hb⟩, own⟩

/-- The test changes no unit that is still to be drained. -/
theorem Dev.tested_bufs (hb : AMap.get [] d.mar.acc key = [b]) (like : b.alike hit) (u : Nat) :
    (∃ c ∈ x.bufs (d.tested key hit), c.unit = u) ↔ ∃ c ∈ x.bufs d, c.unit = u := by
  obtain ⟨heat, stage, unit⟩ := like
  have set : (d.tested key hit).mar.acc = AMap.insert d.mar.acc key [hit] := by
    simp [Dev.tested, AMap.set]
  have there : (key, [b]) ∈ d.mar.acc := by
    rcases AMap.get_eq_or_mem [] d.mar.acc key with none | mem
    · exact absurd (hb.symm.trans none) (List.cons_ne_nil _ _)
    · rwa [hb] at mem
  simp only [MatCtx.mem_bufs, set]
  constructor
  · rintro ⟨c, ⟨⟨e, he, hc⟩, own⟩, hu⟩
    rcases AMap.mem_insert he with rfl | old
    · obtain rfl := List.mem_singleton.mp hc
      exact ⟨b, ⟨⟨_, there, List.mem_singleton.mpr rfl⟩, heat ▸ own.1, stage ▸ own.2⟩, unit ▸ hu⟩
    · exact ⟨c, ⟨⟨e, old, hc⟩, own⟩, hu⟩
  · rintro ⟨c, ⟨⟨e, he, hc⟩, own⟩, hu⟩
    rcases AMap.mem_insert_of_mem [] (k := key) [hit] he with old | rfl
    · exact ⟨c, ⟨⟨e, old, hc⟩, own⟩, hu⟩
    · rw [hb] at hc
      obtain rfl := List.mem_singleton.mp hc
      exact ⟨hit, ⟨⟨_, AMap.mem_insert_self _ _ _, List.mem_singleton.mpr rfl⟩, heat.trans own.1, stage.trans own.2⟩,
        unit.trans hu⟩

theorem MatCtx.drained_tested (hb : AMap.get [] d.mar.acc key = [b]) (like : b.alike hit) :
    x.drained (d.tested key hit) = x.drained d := by
  funext u
  have all (e : Dev) : ((x.bufs e).all fun b => b.unit != u) = !decide (∃ c ∈ x.bufs e, c.unit = u) := by
    rw [Bool.eq_iff_iff]
    simp
  rw [MatCtx.drained, all, MatCtx.drained, all, decide_eq_decide.mpr (Dev.tested_bufs hb like u)]

/-- The working record with a buffer as its test has found it. -/
def Wk.tested (w : Wk) (key : Nat) (hit : AccBuf) : Wk := w.up fun d => d.tested key hit

theorem MatCtx.lastRead_tested (hb : AMap.get [] w.dev.mar.acc key = [b]) (like : b.alike hit) (u : Nat) :
    x.lastRead (w.tested key hit) u = x.lastRead w u := by
  have drained : x.drained (w.tested key hit).dev = x.drained w.dev := MatCtx.drained_tested hb like
  have gated : x.gated (w.tested key hit).dev = x.gated w.dev := by
    funext r
    rw [MatCtx.gated, drained, MatCtx.gated]
  have units : x.units (w.tested key hit).dev = x.units w.dev := by simp only [MatCtx.units, gated]
  have known : x.allKnown (w.tested key hit).dev = x.allKnown w.dev := by rw [MatCtx.allKnown, gated, MatCtx.allKnown]
  simp only [MatCtx.lastRead, units, drained, known]
  rfl

theorem MatCtx.drainBlocks_tested (hb : AMap.get [] w.dev.mar.acc key = [b]) (like : b.alike hit) :
    x.drainBlocks (w.tested key hit) hit = x.drainBlocks w hit := by
  simp only [MatCtx.drainBlocks, MatCtx.lastRead_tested hb like]
  rfl

/-! ### A drain that nothing holds up (R125, R139, R140) -/

/-- The drain of a buffer begins: the slots that it reads for the last time become EMPTY, and those that it writes are
claimed. -/
def Wk.drainBegins (w : Wk) (x : MatCtx) (b : AccBuf) : Wk :=
  (w.upHeat x.h.id fun y => { y with waits := y.waits.filter fun z => z.part != partKey x.st (x.drainPart b).no }).up
    fun d => (d.consume x.h.id x.st (x.lastRead w b.unit)).claimFor x.h.id (x.drainPart b).slots

/-- The slots that the drain of unit `u` has written last become FULL. -/
def Dev.drainFills (x : MatCtx) (u : Nat) (d : Dev) : Dev :=
  (d.heat x.h.id).elim d fun y => d.fillFor x.h.id ((⟨y, x.st, x.m⟩ : MatCtx).filled d u)

/-- The drain of a buffer ends: it leaves its accumulator, and the stage ends with its last unit. -/
def Wk.drainEnds (w : Wk) (x : MatCtx) (b : AccBuf) (key : Nat) (gone : List Nat) : Wk :=
  (((w.up fun d => d.dropBuf key).upHeat x.h.id fun y =>
    y.upAt x.st fun g => { g with going := g.going ++ gone }).up (Dev.drainFills x b.unit)).matrixEnd x.m x.h.id x.st

theorem Wk.drainOut_runs (blocks : x.drainBlocks w b = []) (turns : w.dev.partTurns (x.drainPart b) = true)
    (maps : x.m.mapped = [] ∨ x.writing w.dev = false)
    (clean : firstPoison w.mem.view (pondPlaces ((x.drainPart b).reads.map Rd.pl).flatten) = none)
    (sent : x.send b (w.drainBegins x b) = (q, true)) :
    w.drainOut x b key = q.drainEnds x b key (x.lastRead w b.unit) := by
  have ready : (!w.dev.partTurns (x.drainPart b) || (!x.m.mapped.isEmpty && x.writing w.dev)) = false := by
    rcases maps with h | h <;> simp [turns, h]
  unfold Wk.drainBegins at sent
  simp only [Wk.drainOut, blocks, List.isEmpty_nil, Bool.not_true, Bool.false_eq_true, if_false, ready, clean,
    List.append_nil, sent, Wk.drainEnds]
  congr 2
  funext d
  unfold Dev.drainFills
  cases d.heat x.h.id <;> rfl

/-- The neurons that a gate unit has found missed are noted (R279). -/
def MatCtx.noteMissed (x : MatCtx) (u : Nat) (l : List Nat) (g : Prog) : Prog :=
  { g with missed := g.missed ++ l.map fun j => ((x.m.checkAt u).1, j) }

/-- What the drain of a unit of a plain OUT stores. -/
def MatCtx.results (x : MatCtx) (w : Wk) (b : AccBuf) (o : Desc) : List Piece × List AtomOp × List Nat :=
  x.output (w.view x.h.id x.st (2 ^ 32 + b.unit)) b o

/-- The store of those results. -/
def MatCtx.stores (x : MatCtx) (w : Wk) (b : AccBuf) (r : List Piece × List AtomOp × List Nat) : Wk × Bool :=
  w.store x.h.id x.who x.st (2 ^ 32 + b.unit) r.1 r.2.1 false

/-- A finished unit of a plain OUT is stored. -/
theorem MatCtx.send_stores (kept : x.discarded b.unit = false) (last : x.mid b.unit = false)
    (local_ : (x.drainTo b.unit).route = none) (out : (x.drainTo b.unit).out = some o) (plain : o.tileMap = 0)
    (stored : x.stores w b (x.results w b o) = (q, true)) :
    x.send b w = (q.upHeat x.h.id fun y => y.upAt x.st (x.noteMissed b.unit (x.results w b o).2.2), true) := by
  unfold MatCtx.stores MatCtx.results at stored
  simp only [MatCtx.send, kept, last, local_, out, plain, Bool.false_eq_true, if_false, bne_self_eq_false, stored]
  rfl

/-! ### What a drain leaves alone as it begins -/

theorem Dev.told_consume {α : Type} {f : Heat → α} (d : Dev) (id : HeatId) (st : Nat) (slots : List Nat)
    (hf : ∀ (x : Heat) l, f { x with leave := l } = f x) (k : HeatId) : (d.consume id st slots).told f k = d.told f k := by
  unfold Dev.consume
  split
  · rfl
  · exact (Dev.told_setHeat _ id (by intro; rfl) (fun x => hf x _) k).trans
      (foldl_keeps (fun d => d.told f k) Dev.emptySlot (fun _ _ => rfl) _ d)

theorem Dev.told_claimFor {α : Type} {f : Heat → α} (d : Dev) (id : HeatId) (slots : List Nat)
    (hf : ∀ (x : Heat) l, f { x with claims := l } = f x) (k : HeatId) : (d.claimFor id slots).told f k = d.told f k :=
  (Dev.told_setHeat _ id (by intro; rfl) (fun x => hf x _) k).trans
    (foldl_keeps (fun d => d.told f k) Dev.claimSlot (fun _ _ => rfl) _ d)

/-- As a drain begins no more of a heat changes than its waits, and its slots. -/
theorem Wk.told_drainBegins {α : Type} {f : Heat → α} (w : Wk) (x : MatCtx) (b : AccBuf)
    (hf : ∀ (x : Heat) waits leave claims, f { x with waits := waits, leave := leave, claims := claims } = f x) (k : HeatId) :
    (w.drainBegins x b).dev.told f k = w.dev.told f k :=
  (Dev.told_claimFor _ _ _ (fun x l => hf x x.waits x.leave l) k).trans
    ((Dev.told_consume _ _ _ _ (fun x l => hf x x.waits l x.claims) k).trans
      (Dev.told_setHeat w.dev x.h.id (by intro; rfl) (fun x => hf x _ x.leave x.claims) k))

/-- A drain sees what was there before it begins. -/
theorem Wk.drainBegins_view (w : Wk) (x : MatCtx) (b : AccBuf) (st n : Nat) :
    (w.drainBegins x b).view x.h.id st n = w.view x.h.id st n := by
  have staged : (w.drainBegins x b).dev.told Heat.staged x.h.id = w.dev.told Heat.staged x.h.id :=
    w.told_drainBegins x b (by intros; rfl) _
  simp only [Dev.told] at staged
  simp only [Wk.view, staged]
  rfl

/-- The heat of a drain stays in the scoreboard as the drain begins. -/
theorem Wk.drainBegins_heat {y : Heat} (hy : w.dev.heat x.h.id = some y) (b : AccBuf) :
    ∃ z, (w.drainBegins x b).dev.heat x.h.id = some z := by
  have there : (w.drainBegins x b).dev.told Heat.id x.h.id = w.dev.told Heat.id x.h.id :=
    w.told_drainBegins x b (by intros; rfl) _
  rw [Dev.told_of_heat hy] at there
  obtain ⟨z, hz, -⟩ := Option.map_eq_some_iff.mp there
  exact ⟨z, hz⟩

/-! ### What a drain leaves -/

theorem Wk.matrixEnd_mem (w : Wk) (m : MatBody) (id : HeatId) (st : Nat) :
    (w.matrixEnd m id st).mem = w.mem ∧ (w.matrixEnd m id st).base = w.base := by
  unfold Wk.matrixEnd
  split
  · exact ⟨rfl, rfl⟩
  · dsimp only
    split <;> exact ⟨rfl, rfl⟩

theorem Wk.matrixEnd_acc (w : Wk) (m : MatBody) (id : HeatId) (st : Nat) :
    (w.matrixEnd m id st).dev.mar.acc = w.dev.mar.acc := by
  unfold Wk.matrixEnd
  split
  · rfl
  · dsimp only
    split
    · exact (Dev.finish_carries _ _ _ _).acc
    · rfl

theorem Dev.drainFills_acc (x : MatCtx) (u : Nat) (d : Dev) : (d.drainFills x u).mar.acc = d.mar.acc := by
  unfold Dev.drainFills
  cases d.heat x.h.id with
  | none => rfl
  | some y => exact (Dev.fillFor_carries _ _ _).acc

theorem Wk.drainEnds_leaves (w : Wk) (x : MatCtx) (b : AccBuf) (key : Nat) (gone : List Nat) :
    AMap.get [] (w.drainEnds x b key gone).dev.mar.acc key = [] ∧ (w.drainEnds x b key gone).mem = w.mem ∧
      (w.drainEnds x b key gone).base = w.base := by
  obtain ⟨mem, base⟩ := Wk.matrixEnd_mem (((w.up fun d => d.dropBuf key).upHeat x.h.id fun y =>
    y.upAt x.st fun g => { g with going := g.going ++ gone }).up (Dev.drainFills x b.unit)) x.m x.h.id x.st
  refine ⟨?_, mem, base⟩
  rw [Wk.drainEnds, Wk.matrixEnd_acc, Wk.dev_up, Dev.drainFills_acc]
  exact Dev.dropBuf_acc _ _ _ (.inl rfl)

end Sys2Proof.Machine
end

section
/-! DRAIN: the row (R118, R119, R125). -/

namespace Sys2Proof.Machine
open Sys2Proof.Config

variable {s : State} {c : Fin 128} {core : Fin 16} {key : Nat} {b : AccBuf} {x : Heat} {m : MatBody}

/-- What a drain does with the buffer that is next: a test, unless its heat has ended or the pond is being copied. -/
def Wk.drainNext (w : Wk) (c core : Nat) (upset : List (Nat × BitVec 32)) (key : Nat) (b : AccBuf) (x : Heat) (m : MatBody) : Wk :=
  let y : MatCtx := ⟨x, b.stageNo, m⟩
  let hit := b.hit (y.plan b.unit).width upset
  if x.state != .running then w.up fun d => d.dropBuf key
  else if AMap.get 0 w.dev.flt.copying c == core + 1 then w
  else if hit.passesTest then (w.tested key hit).drainOut y hit key
  else w.mismatch c core

theorem execDrain_next (next : s.dev.toDrain c.val core.val = some (key, b, x)) (mat : x.matrixAt b.stageNo = some m)
    (upset : List (Nat × BitVec 32)) :
    exec (.drain c core upset) s = .next (s.after (s.work.drainNext c.val core.val upset key b x m)) := by
  refine done_next_of s ?_
  have next' : s.work.dev.toDrain c.val core.val = some (key, b, x) := next
  simp only [next', mat]
  rfl

theorem execDrain_copying (next : s.dev.toDrain c.val core.val = some (key, b, x)) (mat : x.matrixAt b.stageNo = some m)
    (run : x.state = .running) (copying : AMap.get 0 s.dev.flt.copying c.val = core.val + 1) (upset : List (Nat × BitVec 32)) :
    exec (.drain c core upset) s = .next s := by
  have held : (AMap.get 0 s.work.dev.flt.copying c.val == core.val + 1) = true := beq_iff_eq.mpr copying
  rw [execDrain_next next mat, Wk.drainNext]
  simp only [run, bne_self_eq_false, Bool.false_eq_true, if_false, held, if_true]
  rfl

theorem execDrain_ended (next : s.dev.toDrain c.val core.val = some (key, b, x)) (mat : x.matrixAt b.stageNo = some m)
    (ended : x.state ≠ .running) (upset : List (Nat × BitVec 32)) :
    exec (.drain c core upset) s = .next (s.withDev fun d => d.dropBuf key) := by
  rw [execDrain_next next mat, Wk.drainNext, if_pos (bne_iff_ne.mpr ended)]
  rfl

/-- A running heat's buffer is tested, unless the core's pond is being copied. -/
theorem execDrain_tests (next : s.dev.toDrain c.val core.val = some (key, b, x)) (mat : x.matrixAt b.stageNo = some m)
    (run : x.state = .running) (free : AMap.get 0 s.dev.flt.copying c.val ≠ core.val + 1)
    (upset : List (Nat × BitVec 32)) {y : MatCtx} (hy : y = ⟨x, b.stageNo, m⟩) {hit : AccBuf}
    (tests : hit = b.hit (y.plan b.unit).width upset) :
    exec (.drain c core upset) s = .next (s.after
      (if hit.passesTest then (s.work.tested key hit).drainOut y hit key else s.work.mismatch c.val core.val)) := by
  subst hy tests
  have idle : (AMap.get 0 s.work.dev.flt.copying c.val == core.val + 1) = false := beq_eq_false_iff_ne.mpr free
  rw [execDrain_next next mat, Wk.drainNext]
  simp only [run, bne_self_eq_false, Bool.false_eq_true, if_false, idle]

theorem AccBuf.hit_alike (b : AccBuf) (width : Nat) (upset : List (Nat × BitVec 32)) : b.alike (b.hit width upset) :=
  ⟨rfl, rfl, rfl⟩

theorem Wk.drainBegins_base (w : Wk) (x : MatCtx) (b : AccBuf) : (w.drainBegins x b).base = w.base := rfl

theorem Wk.drainBegins_mem (w : Wk) (x : MatCtx) (b : AccBuf) : (w.drainBegins x b).mem = w.mem := rfl

theorem Wk.tested_base (w : Wk) (hit : AccBuf) : (w.tested key hit).base = w.base := rfl

theorem Wk.tested_mem (w : Wk) (hit : AccBuf) : (w.tested key hit).mem = w.mem := rfl

theorem MatCtx.results_tested (w : Wk) (y : MatCtx) (hit : AccBuf) (o : Desc) :
    y.results ((w.tested key hit).drainBegins y hit) hit o = y.results w hit o := by
  rw [MatCtx.results, Wk.drainBegins_view]
  rfl

/-- A drain's store finds memory as it was before the test. -/
theorem MatCtx.stores_tested {w : Wk} {y : MatCtx} (hx : w.dev.heat y.h.id = some x) (hit : AccBuf) (o : Desc)
    (good : noHbmPoison (y.results w hit o).1) :
    let q := y.stores ((w.tested key hit).drainBegins y hit) hit (y.results w hit o)
    q.2 = true ∧ q.1.base = w.base ∧ q.1.mem = (y.stores w hit (y.results w hit o)).1.mem := by
  obtain ⟨z, hz⟩ := Wk.drainBegins_heat (w := w.tested key hit) (x := y) hx hit
  have plain : ∀ a ∈ (y.results w hit o).2.1, a.plain = true := y.output_plain _ hit o
  obtain ⟨goes, base, -, -⟩ := Wk.store_stays ((w.tested key hit).drainBegins y hit) y.h.id z y.who y.st
    (2 ^ 32 + hit.unit) (y.results w hit o).1 (y.results w hit o).2.1 hz good plain
  rw [Wk.drainBegins_base, Wk.tested_base] at base
  refine ⟨goes, base, Wk.store_mem hz hx ?_ y.who y.st _ good plain⟩
  rw [Wk.drainBegins_mem, Wk.tested_mem]

/-- A buffer that has passed its test and that nothing holds up is stored where it belongs. -/
theorem drainOut_stores {y : MatCtx} {hit : AccBuf} {o : Desc} (hx : s.dev.heat y.h.id = some x)
    (alone : AMap.get [] s.dev.mar.acc key = [b]) (like : b.alike hit) (blocks : y.drainBlocks s.work hit = [])
    (turns : s.dev.partTurns (y.drainPart hit) = true) (maps : y.m.mapped = [] ∨ y.writing s.dev = false)
    (clean : firstPoison s.mem.view (pondPlaces ((y.drainPart hit).reads.map Rd.pl).flatten) = none)
    (kept : y.discarded hit.unit = false) (last : y.mid hit.unit = false) (local_ : (y.drainTo hit.unit).route = none)
    (out : (y.drainTo hit.unit).out = some o) (plain : o.tileMap = 0) (good : noHbmPoison (y.results s.work hit o).1) :
    let w := (s.work.tested key hit).drainOut y hit key
    AMap.get [] w.dev.mar.acc key = [] ∧ w.base = s.mem ∧
      w.mem = (y.stores s.work hit (y.results s.work hit o)).1.mem := by
  obtain ⟨goes, base, mem⟩ := MatCtx.stores_tested (key := key) hx hit o good
  have stored : y.stores ((s.work.tested key hit).drainBegins y hit) hit
      (y.results ((s.work.tested key hit).drainBegins y hit) hit o) =
        ((y.stores ((s.work.tested key hit).drainBegins y hit) hit (y.results s.work hit o)).1, true) := by
    rw [MatCtx.results_tested]
    exact Prod.ext rfl goes
  have blocks' := (MatCtx.drainBlocks_tested (w := s.work) (x := y) alone like).trans blocks
  have sent := MatCtx.send_stores kept last local_ out plain stored
  rw [Wk.drainOut_runs blocks' turns maps clean sent]
  obtain ⟨acc, mem', base'⟩ := Wk.drainEnds_leaves (((y.stores ((s.work.tested key hit).drainBegins y hit) hit
    (y.results s.work hit o)).1).upHeat y.h.id fun x => x.upAt y.st (y.noteMissed hit.unit
      (y.results ((s.work.tested key hit).drainBegins y hit) hit o).2.2)) y hit key
    (y.lastRead (s.work.tested key hit) hit.unit)
  rw [Wk.upHeat, Wk.mem_up] at mem'
  rw [Wk.upHeat, Wk.up_base] at base'
  exact ⟨acc, base'.trans base, mem'.trans mem⟩

/-- Settles O17. That all three buffers of a core are dropped at a mismatch, and their units computed again, is the model's
choice (log entry 30). -/
theorem permitsWaitersAndDrains : Obligations.PermitsWaitersAndDrains := by
  unfold Obligations.PermitsWaitersAndDrains
  refine ⟨fun s x l => execPermitGrant_grants, fun s h x c => execWaiterResume_row, ?_⟩
  intro s c core upset key b x m next mat alone y hit part
  obtain ⟨⟨i, hi, rfl⟩, hx⟩ := Dev.toDrain_spec next
  refine ⟨fun run copying => execDrain_copying next mat run copying upset, fun ended => execDrain_ended next mat ended upset,
    ?_, fun run free fails => ?_⟩
  · intro o run free passes blocks turns maps clean kept last local_ out plain q good
    have own : s.dev.heat y.h.id = some x := (congrArg s.dev.heat (Dev.heat_id hx)).trans hx
    obtain ⟨acc, base, mem⟩ :=
      drainOut_stores own alone (b.hit_alike _ _) blocks turns maps clean kept last local_ out plain good
    have runs := execDrain_tests next mat run free upset (y := y) rfl (hit := hit) rfl
    rw [if_pos passes] at runs
    exact ⟨_, runs, acc, (s.after_mem _ base).trans mem⟩
  · have runs := execDrain_tests next mat run free upset (y := y) rfl (hit := hit) rfl
    rw [if_neg (Bool.eq_false_iff.mp fails), Wk.mismatch_eq, State.after_up] at runs
    obtain ⟨empty, fenced, again⟩ := Dev.mismatch_leaves hx run hi alone
    exact ⟨_, runs, rfl, empty, fenced, Dev.heat_id hx ▸ again⟩

end Sys2Proof.Machine
end

section
/-! LAST PARTS: how a stage ends with the one part that is left, where its plan depends on the words and records that the
stage has read first, and on what memory keeps (R148, R190, R201, R286). -/

namespace Sys2Proof.Machine
open Sys2Proof.Config

variable {s : State} {h : HeatId} {x y : Heat} {w q : Wk} {st : Nat} {mk : Wk → Heat → Plan} {p : Part}

/-! ### What a stage has read -/

/-- The words and the records that a stage has read first, and whether they are there. -/
def Heat.learned (x : Heat) (st : Nat) : (List (Nat × Bool) × Bool) × List (Option (Nat × List Byte)) :=
  (x.first st, (x.at st).rows)

theorem Heat.learned_upAt (x : Heat) (k st : Nat) {f : Prog → Prog}
    (hf : ∀ g, (f g).words = g.words ∧ (f g).begun = g.begun ∧ (f g).rows = g.rows) :
    (x.upAt k f).learned st = x.learned st := by
  refine Prod.ext (x.first_upAt k st (fun g => (hf g).1) fun g => (hf g).2.1) ?_
  simp only [Heat.learned, Heat.at_upAt]
  split
  · rename_i e
    rw [(hf _).2.2, ← e]
  · rfl

theorem Heat.learned_ranPart (x : Heat) (n : Nat) (p : Part) : (x.ranPart n p).learned st = x.learned st :=
  x.learned_upAt n st (f := fun g => { g with ran := g.ran ++ [p.no] }) (by intro; exact ⟨rfl, rfl, rfl⟩)

theorem Dev.learned_fillSlot (d : Dev) (g : Nat) (k : HeatId) :
    (d.fillSlot g).told (·.learned st) k = d.told (·.learned st) k := by
  unfold Dev.fillSlot
  dsimp only
  split
  · exact Dev.told_updWhere (d.tag g true false _) _ (by intro; rfl)
      (fun x => x.learned_upAt 0 st (by intro; exact ⟨rfl, rfl, rfl⟩)) k
  · rfl

theorem Dev.learned_fillFor (d : Dev) (id : HeatId) (slots : List Nat) (k : HeatId) :
    (d.fillFor id slots).told (·.learned st) k = d.told (·.learned st) k :=
  (Dev.told_setHeat _ id (by intro; rfl) (by intro; rfl) k).trans
    (foldl_keeps (fun d => d.told (·.learned st) k) Dev.fillSlot (fun d g => d.learned_fillSlot g k) slots d)

theorem SolePart.learned_eq {pl : Plan} (hs : SolePart s h x y w st pl p) : y.learned st = x.learned st := by
  have asked : w.dev.told (·.learned st) h = s.dev.told (·.learned st) h := by
    rw [hs.asked]
    exact Dev.told_ask s.dev x st pl (fun x _ => x.learned_upAt st st (by intro; exact ⟨rfl, rfl, rfl⟩)) h
  rw [Dev.told_of_heat hs.heat, Dev.told_of_heat hs.goes.1] at asked
  exact Option.some.inj asked

/-- The parts that had run when a step began have run when its last part begins. -/
theorem SolePart.ran_of_ran {pl : Plan} (hs : SolePart s h x y w st pl p) {n : Nat} (hn : n ∈ (x.at st).ran) :
    n ∈ (y.at st).ran := by
  obtain ⟨z, hz, marks⟩ := (s.dev.ask_carries x st pl).heat h x hs.goes.1 (Heat.started_of_mayRun hs.goes.2)
  have e : w.dev = s.dev.ask x st pl := by rw [hs.asked]; rfl
  obtain rfl : z = y := Option.some.inj (hz.symm.trans (e ▸ hs.heat))
  exact marks.ran st n hn

/-- `z` is `x` later in a stage: it has learned the same, and what had run has run. -/
structure Heat.after (x z : Heat) (st : Nat) : Prop where
  learned : z.learned st = x.learned st
  ran     : ∀ n, n ∈ (x.at st).ran → n ∈ (z.at st).ran

theorem Heat.after.words {z : Heat} (hz : x.after z st) : (z.at st).words = (x.at st).words :=
  congrArg (fun l => l.1.1) hz.learned

theorem Heat.after.begun {z : Heat} (hz : x.after z st) : (z.at st).begun = (x.at st).begun :=
  congrArg (fun l => l.1.2) hz.learned

theorem Heat.after.rows {z : Heat} (hz : x.after z st) : (z.at st).rows = (x.at st).rows :=
  congrArg (fun l => l.2) hz.learned

/-! ### Plans that stay the same while memory keeps what they depend on -/

/-- A plan made anew later, with memory in which `P` holds, holds the same: that it is whole, its slots that hold nothing
at the end, and the numbers of its parts. -/
structure SteadyWith (mk : Wk → Heat → Plan) (st : Nat) (v : Wk) (x : Heat) (P : Mem → Prop) : Prop where
  whole : ∀ w z, P w.mem → x.after z st → (mk w z).whole = true
  temps : ∀ w z, P w.mem → x.after z st → (mk w z).temps = (mk v x).temps
  nos   : ∀ w z, P w.mem → x.after z st → (mk w z).parts.map Part.no = (mk v x).parts.map Part.no

/-- With the one part that is left the stage ends, and the command with its last stage. -/
theorem SolePart.stage_ends_with {P : Mem → Prop} (hm : SteadyWith mk st s.work x P) (hs : SolePart s h x y w st (mk s.work x) p)
    (hst : st < max 1 x.body.stages.length) (hr : p.run (w.view h st) (w.begins h st p) = (q, true)) (hP : P q.mem)
    {c : List Nat} {b : Bool} (hq : q.dev.heat h = some { y with claims := c, sat := b }) :
    s.work.stage mk h st = q.ends h st (mk s.work x).temps p ∧
      finished (s.after (q.ends h st (mk s.work x).temps p)) h (mk s.work x).temps p := by
  obtain ⟨z, hz, hgo, hopen, hmarks, hran⟩ := hs.ends_marked (mk s.work x).temps hq
  obtain ⟨-, hbody, -, -, -, hleave, -, hended⟩ := hs.near
  have learned : z.learned st = x.learned st := by
    have stays := Dev.learned_fillFor (st := st) (q.dev.setHeat h fun x => x.ranPart st p) h
      (p.slots.filter fun g => !(mk s.work x).temps.contains g) h
    rw [Dev.told_setHeat q.dev h (by intro; rfl) (fun x => x.learned_ranPart st p), Dev.told_of_heat hq] at stays
    exact (Option.some.inj ((Dev.told_of_heat hz).symm.trans stays)).trans hs.learned_eq
  have later : x.after z st := ⟨learned, fun n hn => hmarks.ran st n (hs.ran_of_ran hn)⟩
  have known {w' : Wk} {r : Part} (hr : r ∈ (mk w' z).parts) (hw : P w'.mem) : ∃ r' ∈ (mk s.work x).parts, r'.no = r.no :=
    List.mem_map.mp (hm.nos w' z hw later ▸ List.mem_map_of_mem hr)
  constructor
  · refine Wk.stage_last s h x y w q st mk p hs hr z hz hgo hopen (hm.whole _ z hP later) (hm.temps _ z hP later) ?_ ?_
    · refine List.filter_eq_nil_iff.mpr fun r hr => ?_
      obtain ⟨r', hr', e⟩ := known hr hP
      suffices r'.no ∈ (z.at st).ran by simpa [← e] using this
      by_cases hy : r'.no ∈ (y.at st).ran
      · exact hmarks.ran st _ hy
      · have : r' ∈ (mk s.work x).undone y st := List.mem_filter.mpr ⟨hr', by simpa using hy⟩
        rw [hs.left, List.mem_singleton] at this
        rwa [this]
    · intro r hr
      obtain ⟨r', hr', e⟩ := known hr hP
      exact e ▸ hmarks.asked st _ (hs.asked_all r' hr')
  · refine Wk.ends_finished s q h st _ p _ hq (hleave.trans hs.unkept) (hbody ▸ hst) fun k hk hne => ?_
    exact (hended k).trans (hs.alone k (hbody ▸ hk) hne)

/-- A plan that depends on no more than the first words of its stage. -/
theorem SteadyFor.steadyWith (hm : SteadyFor mk st x) (v : Wk) : SteadyWith mk st v x fun _ => True where
  whole w z _ hz := hm.whole w z (congrArg Prod.fst hz.learned)
  temps w z _ hz := hm.temps w v z (congrArg Prod.fst hz.learned)
  nos w z _ hz := hm.nos w v z (congrArg Prod.fst hz.learned)

/-! ### Last parts that store -/

section

variable {P : Mem → Prop} {r : Host.Outcome State Fault Refusal}

/-- The part that is left has done `q` and has changed its heat in nothing but its saturation: the command completes, and
the plan's own slots hold nothing. -/
theorem SolePart.completes_with (hm : SteadyWith mk st s.work x P) (hs : SolePart s h x y w st (mk s.work x) p)
    (hst : st < max 1 x.body.stages.length) (hr : r = .next (s.after (s.work.stage mk h st)))
    (run : p.run (w.view h st) (w.begins h st p) = (q, true)) (hP : P q.mem) {c : List Nat} {b : Bool}
    (hq : q.dev.heat h = some { y with claims := c, sat := b }) : completes s h st (mk s.work x).temps p q r := by
  obtain ⟨stage, fin⟩ := hs.stage_ends_with hm hst run hP hq
  exact ⟨by rw [hr, stage], fin⟩

/-- A last part that stores its results completes its command, or poison ends it. -/
theorem SolePart.settles_with (hm : SteadyWith mk st s.work x P) (hs : SolePart s h x y w st (mk s.work x) p)
    (hst : st < max 1 x.body.stages.length) (hr : r = .next (s.after (s.work.stage mk h st))) {ps : List Piece}
    {atoms : List AtomOp} {bad : Bool} (ha : ∀ a ∈ atoms, a.plain = true)
    (run : p.run (w.view h st) (w.begins h st p) = (w.begins h st p).store h p.who st p.no ps atoms bad)
    (hP : P ((w.begins h st p).store h p.who st p.no ps atoms bad).1.mem) :
    settles s h w st (mk s.work x).temps p ps atoms bad r := by
  obtain ⟨c, hc⟩ := hs.begins_heat
  refine ⟨fun good clean => ?_, fun poison => ⟨_, hc, ?_⟩⟩
  · subst good
    obtain ⟨goes, base, ⟨b, heat⟩, frame⟩ := (w.begins h st p).store_stays h _ p.who st p.no ps atoms hc clean ha
    refine ⟨hs.completes_with hm hst hr (run.trans (Prod.ext rfl goes)) hP heat, fun a hps hatoms => ?_⟩
    rw [State.after_mem s (Wk.ends _ h st _ p) (base.trans hs.base_eq), ← hs.mem_eq]
    exact frame a hps hatoms
  · have stops := run.trans (Wk.store_poisoned _ h _ p.who st p.no ps atoms bad hc poison)
    obtain ⟨v, hv, hstop⟩ := Dev.endHeat_stops hc (Heat.running_of_mayRun (hs.near.mayRun hs.goes.2))
    rw [hr, hs.stage_stops stops hv hstop]

end

end Sys2Proof.Machine
end

section
/-! UPDATES: how the commands of the update family end (R332 to R337). -/

namespace Sys2Proof.Machine
open Sys2Proof.Config

variable {s : State} {h : HeatId} {x y : Heat} {w q : Wk} {st : Nat} {mk : Wk → Heat → Plan} {p : Part} {u : UpdBody} {o : Desc}

/-! ### Entries of tiles -/

/-- A last part that stores the entries of tiles completes its command, or poison ends it. -/
theorem SolePart.settles_with_entries (hm : SteadyFor mk 0 x) {who : Requester} {acc : Nat} {ws : List (Nat × Bool)}
    {no first prev : Nat} {tiles : List Nat}
    (hs : SolePart s h x y w 0 (mk s.work x) (tileEntries s.work x who 0 acc o ws no first tiles prev))
    {r : Host.Outcome State Fault Refusal} (hr : r = .next (s.after (s.work.stage mk h 0))) :
    settles s h w 0 (mk s.work x).temps (tileEntries s.work x who 0 acc o ws no first tiles prev)
      (entryPieces o ws first tiles) [] false r := by
  obtain rfl : x.id = h := Dev.heat_id hs.goes.1
  exact hs.settles_with (hm.steadyWith _) (lt_max_of_lt_left Nat.one_pos) hr (fun _ => nofun) rfl trivial

/-! ### The rows -/

theorem exec_apply (hx : s.dev.goes h x) (hb : x.body = .update u) (hu : u.uop = 0) :
    exec (.apply h) s = .next (s.after (s.work.stage (applyPlan u (u.out.getD .zero)) h 0)) :=
  done_withHeat s h x hx.1 hx.2 _ _ rfl _ (by simp [hb, hu])

theorem exec_propose (hx : s.dev.goes h x) (hb : x.body = .update u) (hu : u.uop = 1) :
    exec (.propose h) s = .next (s.after (s.work.stage (proposePlan u (u.out.getD .zero)) h 0)) :=
  done_withHeat s h x hx.1 hx.2 _ _ rfl _ (by simp [hb, hu])

theorem exec_clear (hx : s.dev.goes h x) (hb : x.body = .update u) (hu : u.uop = 2) :
    exec (.clear h) s = .next (s.after (s.work.stage (clearPlan u) h 0)) :=
  done_withHeat s h x hx.1 hx.2 _ _ rfl _ (by simp [hb, hu])

/-! ### The plans -/

theorem applyPlan_begun (hb : (x.at 0).begun = true) (w : Wk) : applyPlan u o w x =
    if o.spansSegments u.nseg then
      ⟨(⟨x, u, o, (x.at 0).words⟩ : ApplyCtx).part 0 (List.range u.nseg) :: (if o.tileMap == 0 then []
        else [tileEntries w x (.dma x.id.cluster.val) 0 accVector o (x.at 0).words 2 (10 + o.tiles) (List.range o.tiles) 1]),
        true, u.staging⟩
    else ⟨(List.range u.nseg).map fun i => (⟨x, u, o, (x.at 0).words⟩ : ApplyCtx).part i [i], true, u.staging⟩ := by
  simp only [applyPlan, hb, Bool.not_true, Bool.false_eq_true, if_false]
  rfl

theorem applyPlan_temps (hb : (x.at 0).begun = true) (w : Wk) : (applyPlan u o w x).temps = u.staging := by
  rw [applyPlan_begun hb]
  split <;> rfl

theorem applyPlan_nos (hb : (x.at 0).begun = true) (w : Wk) : (applyPlan u o w x).parts.map Part.no =
    if o.spansSegments u.nseg then 1 :: (if o.tileMap == 0 then [] else [2]) else (List.range u.nseg).map (· + 1) := by
  rw [applyPlan_begun hb]
  split
  · rw [List.map_cons]
    split <;> rfl
  · exact List.map_map ..

theorem Heat.begun_of_first {z : Heat} (hb : (x.at st).begun = true) (hz : z.first st = x.first st) : (z.at st).begun = true :=
  (congrArg Prod.snd hz).trans hb

theorem applyPlan_steady (hb : (x.at 0).begun = true) : SteadyFor (applyPlan u o) 0 x where
  whole w z hz := by
    rw [applyPlan_begun (Heat.begun_of_first hb hz)]
    split <;> rfl
  temps w w' z hz := by rw [applyPlan_temps (Heat.begun_of_first hb hz), applyPlan_temps hb]
  nos w w' z hz := by rw [applyPlan_nos (Heat.begun_of_first hb hz), applyPlan_nos hb]

theorem proposePlan_temps (w : Wk) : (proposePlan u o w x).temps = [] := by
  unfold proposePlan
  split
  · rfl
  · split <;> rfl

theorem proposePlan_nos (hb : o.tileMap = 0 ∨ (x.at 0).begun = true) (w : Wk) : (proposePlan u o w x).whole = true ∧
    (proposePlan u o w x).parts.map Part.no = if o.tileMap = 0 then (List.range u.nseg).map (· + 1) else [1, 2] := by
  unfold proposePlan
  by_cases plain : o.tileMap = 0
  · rw [if_pos (beq_iff_eq.mpr plain), if_pos plain]
    exact ⟨rfl, List.map_map ..⟩
  · have begun : (!(x.at 0).begun) = false := by rw [hb.resolve_left plain]; rfl
    rw [if_neg (by simpa using plain), if_neg plain, begun]
    exact ⟨rfl, rfl⟩

theorem proposePlan_steady (hb : o.tileMap = 0 ∨ (x.at 0).begun = true) : SteadyFor (proposePlan u o) 0 x where
  whole w z hz := (proposePlan_nos (hb.imp_right (Heat.begun_of_first · hz)) w).1
  temps w w' z _ := by rw [proposePlan_temps, proposePlan_temps]
  nos w w' z hz := by
    rw [(proposePlan_nos (hb.imp_right (Heat.begun_of_first · hz)) w).2, (proposePlan_nos hb w').2]

/-- The plan of a PROPOSE is whole once the tile map of a compressed OUT is there. -/
theorem proposePlan_begun (hw : (proposePlan u o w x).whole = true) (ht : o.tileMap ≠ 0) : (x.at 0).begun = true := by
  by_contra hb
  have not_begun : (!(x.at 0).begun) = true := by simpa using hb
  rw [proposePlan, if_neg (by simpa using ht), if_pos not_begun] at hw
  exact absurd hw Bool.false_ne_true

theorem clearPlan_steady : SteadyFor (clearPlan u) 0 x where
  whole _ _ _ := rfl
  temps _ _ _ _ := rfl
  nos _ _ _ _ := by simp only [clearPlan, List.map_map]; rfl

/-! ### What an APPLY stores (R334, R335) -/

theorem Wk.pondPut_heat (w : Wk) (a : Nat) (l : List Byte) (k : HeatId) : (w.pondPut a l).dev.heat k = w.dev.heat k := by
  obtain ⟨seen, dev⟩ := w.pondPut_dev a l
  rw [dev]
  rfl

/-- Filling the staging slots leaves every heat. -/
theorem Wk.scratch_heat (w : Wk) (slots : List Nat) (k : HeatId) : (w.scratch slots).dev.heat k = w.dev.heat k := by
  have filled (bytes : Nat → List Byte) :
      (Wk.each slots (fun w g => w.pondPut (slotAddr g) (bytes g)) w).dev.heat k = w.dev.heat k :=
    Wk.each_keeps (fun w => w.dev.heat k) (fun w g => w.pondPut_heat (slotAddr g) (bytes g) k) slots w
  unfold Wk.scratch Wk.ite
  dsimp only
  split <;> exact filled _

/-- A store that goes on has changed its heat in nothing but its saturation. -/
theorem Wk.store_heat {x : Heat} (hx : w.dev.heat h = some x) (who : Requester) (st no : Nat) (ps : List Piece)
    {atoms : List AtomOp} (bad : Bool) (ha : ∀ a ∈ atoms, a.plain = true)
    (goes : (w.store h who st no ps atoms bad).2 = true) :
    ∃ b, (w.store h who st no ps atoms bad).1.dev.heat h = some { x with sat := b } := by
  cases bad with
  | false => exact Wk.store_saturates h who st no (ps := fun _ => ps) (atoms := fun _ => atoms) (fun _ => ha) w x hx goes
  | true => rw [w.store_poisoned h x who st no ps atoms true hx (.inl rfl)] at goes; exact absurd goes Bool.false_ne_true

/-- The elements that some segments of an APPLY compute, with their old values and gradients as the part sees them. -/
def ApplyCtx.elements (c : ApplyCtx) (v : Nat → View) (is : List Nat) : List (Nat × List ((W32 × W32 × W32) × Bool)) :=
  is.map fun i => (i, (List.range 16384).map (c.u.element (c.see (v (i + 1))) i))

/-- The new master values, as OUT takes them. -/
def ApplyCtx.masters (c : ApplyCtx) (v : Nat → View) (is : List Nat) : List (Datum × Bool) :=
  ((c.elements v is).map Prod.snd).flatten.map fun z => (Datum.val (fval z.1.1), z.2)

/-- The elements of OUT that some segments hold. -/
def ApplyCtx.outElems (c : ApplyCtx) (is : List Nat) : List (List Nat) :=
  (is.map fun i => c.o.elemsFrom (16384 * i) 16384).flatten

/-- The new master values and moments in the new bank. -/
def ApplyCtx.banks (c : ApplyCtx) (v : Nat → View) (is : List Nat) : List Piece :=
  ((c.elements v is).map fun z => c.planes z.1 z.2).flatten

/-- What some segments of an APPLY store where OUT is not compressed. -/
def ApplyCtx.stores (c : ApplyCtx) (k : Nat) (is : List Nat) (v : Nat → View) (w : Wk) : Wk × Bool :=
  let b := w.scratch (c.slots is)
  let out := c.masters v is
  if c.o.wmode == 2 then
    b.store c.h.id c.who 0 (k + 1) (c.banks v is) (c.o.accAtoms ((c.outElems is).zip out) ++ c.o.foldOf out) (out.any Prod.snd)
  else b.store c.h.id c.who 0 (k + 1) (c.banks v is ++ c.o.piecesOn (c.see (v (is.headD 0 + 1))) c.h.ovf (c.outElems is)
    c.o.stands fun idx => out.getD (ravel c.o.ext idx - 16384 * is.headD 0) (.code 0, false)) (c.o.foldOf out) false

theorem ApplyCtx.part_run (c : ApplyCtx) (plain : c.o.tileMap = 0) (k : Nat) (is : List Nat) (v : Nat → View) (w : Wk) :
    (c.part k is).run v w = c.stores k is v w := by
  simp only [ApplyCtx.part, plain, bne_self_eq_false, Bool.false_eq_true, if_false]
  rfl

theorem ApplyCtx.stores_heat (c : ApplyCtx) {k : Nat} {is : List Nat} {v : Nat → View} {x : Heat}
    (hx : w.dev.heat c.h.id = some x) (goes : (c.stores k is v w).2 = true) :
    ∃ b, (c.stores k is v w).1.dev.heat c.h.id = some { x with sat := b } := by
  have begun := (w.scratch_heat (c.slots is) c.h.id).trans hx
  unfold ApplyCtx.stores at goes ⊢
  dsimp only at goes ⊢
  split
  · rename_i adds
    rw [if_pos adds] at goes
    exact Wk.store_heat begun _ _ _ _ _ (AtomOp.plain_append (Desc.accAtoms_plain _ _) (Desc.foldOf_plain _ _)) goes
  · rename_i adds
    rw [if_neg adds] at goes
    exact Wk.store_heat begun _ _ _ _ _ (Desc.foldOf_plain _ _) goes

/-- The segments that are left of an APPLY complete it with their store. -/
theorem apply_completes (hb : x.body = .update u) (hu : u.uop = 0) (begun : (x.at 0).begun = true)
    (plain : (u.out.getD .zero).tileMap = 0) {k : Nat} {is : List Nat} :
    let c : ApplyCtx := ⟨x, u, u.out.getD .zero, (x.at 0).words⟩
    SolePart s h x y w 0 (applyPlan u (u.out.getD .zero) s.work x) (c.part k is) →
    let q := c.stores k is (w.view h 0) (w.begins h 0 (c.part k is))
    q.2 = true → completes s h 0 u.staging (c.part k is) q.1 (exec (.apply h) s) := by
  intro c hs q goes
  obtain rfl : x.id = h := Dev.heat_id hs.goes.1
  obtain ⟨cl, hcl⟩ := hs.begins_heat
  obtain ⟨b, heat⟩ := c.stores_heat hcl goes
  have done := hs.completes_with ((applyPlan_steady begun).steadyWith _) (lt_max_of_lt_left Nat.one_pos) (exec_apply hs.goes hb hu)
    ((c.part_run plain k is _ _).trans (Prod.ext rfl goes)) trivial heat
  rwa [applyPlan_temps begun] at done

/-- Settles O30: each part that may be left is a store, and the plan that is made anew has the same parts. That the flag
bytes of a cleared record hold FRESH alone is the model's choice (log entry 42), as are what stays in an APPLY's staging
slots and how its parts follow its segments (entries 41 and 3). -/
theorem updatesStore : Obligations.UpdatesStore := by
  intro s h x y w u hb who o v entries
  have one : 0 < max 1 x.body.stages.length := lt_max_of_lt_left Nat.one_pos
  refine ⟨fun hu begun => ⟨fun k is plain hs => ?_, ?_⟩, fun hu => ⟨?_, ?_⟩, ?_⟩
  · have hid : x.id = h := Dev.heat_id hs.goes.1
    subst hid
    exact apply_completes hb hu begun plain hs
  · intro no first tiles prev p whole _ hs
    exact hs.settles_with_entries (applyPlan_steady begun) (exec_apply hs.goes hb hu)
  · intro i plain p hs z e
    obtain rfl : x.id = h := Dev.heat_id hs.goes.1
    exact hs.settles_of_store (proposePlan_steady (.inl plain)) (proposePlan_temps _) one (exec_propose hs.goes hb hu)
      (Desc.foldOf_plain _ _) rfl
  · intro no first tiles prev p whole coded hs
    exact hs.settles_with_entries (proposePlan_steady (.inr (proposePlan_begun whole coded))) (exec_propose hs.goes hb hu)
  · intro i hu p hs
    obtain rfl : x.id = h := Dev.heat_id hs.goes.1
    exact hs.settles_of_store clearPlan_steady rfl one (exec_clear hs.goes hb hu) (fun _ => nofun) rfl

end Sys2Proof.Machine
end

section
/-! CONTEXT COMMANDS: how they get on and end, where their plan depends on the records that they have read and on what
their tile maps hold (R286). -/

namespace Sys2Proof.Machine
open Sys2Proof.Config

variable {s : State} {h : HeatId} {x y : Heat} {w q : Wk} {st : Nat} {mk : Wk → Heat → Plan} {p : Part} {b : CtxBody}

/-! ### The rows of context commands (R286) -/

/-- A heat that may not run gets on no more. -/
theorem Wk.stage_stopped (hx : w.dev.heat h = some x) (hr : x.mayRun = false) : w.stage mk h st = w := by
  simp only [Wk.stage, Wk.go_stopped hx hr]

/-- A context operation whose records are read does not read them again. -/
theorem Dev.ctxBegin_begun {d : Dev} (hx : d.heat h = some x) (begun : (x.at 0).begun = true) (mem : Mem) :
    d.ctxBegin mem h = d := by
  simp only [Dev.ctxBegin, hx, begun, Bool.or_true, Bool.true_or, if_true]
  cases x.body <;> rfl

theorem Wk.contextStep_begun (hx : w.dev.heat h = some x) (begun : (x.at 0).begun = true) (b : CtxBody) :
    w.contextStep h b = w.stage (contextPlan b) h 0 := by
  have same : (w.up fun d => d.ctxBegin w.mem h) = w := by
    simp only [Wk.up, Dev.ctxBegin_begun hx begun]
  simp only [Wk.contextStep, same, hx, begun, if_true]

/-- A context command goes on as its row says. -/
theorem exec_context {c : Instr} (go : s.dev.goes h x) (hb : x.body = .context b) (row : rowOf h x.body = some c) :
    exec c s = .next (s.after (s.work.contextStep h b)) := by
  obtain rfl : x.id = h := Dev.heat_id go.1
  rw [exec_row go row]
  simp only [Wk.bodyStep, hb]

/-- Once its records are read, it goes on with its plan. -/
theorem exec_context_begun {c : Instr} (go : s.dev.goes h x) (hb : x.body = .context b) (row : rowOf h x.body = some c)
    (begun : (x.at 0).begun = true) : exec c s = .next (s.after (s.work.stage (contextPlan b) h 0)) := by
  rw [exec_context go hb row, Wk.contextStep_begun go.1 begun]

/-! ### Plans of context commands -/

theorem contextPlan_temps (b : CtxBody) (w : Wk) (x : Heat) : (contextPlan b w x).temps = [] := by
  unfold contextPlan
  dsimp only
  split <;> rfl

/-- A command that reads a tile map first has read it. -/
def Heat.mapsRead (x : Heat) (b : CtxBody) : Prop :=
  (b.cop = 5 ∨ b.cop = 9) → (b.t0.getD .zero).tileMap ≠ 0 → 0 ∈ (x.at 0).ran

/-- The command with the records that it has read. -/
def CtxBody.runOf (b : CtxBody) (x : Heat) : CtxRun := ⟨x, b, b.t0.getD .zero, (x.at 0).rows⟩

/-- What is left of a context command whose records are read, and its tile map where it has one. -/
def CtxBody.parts (b : CtxBody) (w : Wk) (x : Heat) : List Part :=
  match b.cop with
  | 0 => [(b.runOf x).openPart]
  | 4 => (b.runOf x).retireParts w
  | 5 => (b.runOf x).batchParts w
  | 7 => [(b.runOf x).advancePart]
  | 8 => (b.runOf x).appendParts w.mem
  | 9 => (b.runOf x).readParts w
  | 0xA => (b.runOf x).t.slotGroups.mapIdx (slotPart x 0 (b.runOf x).t (fun _ _ => []) fun _ => .ok (b.runOf x).sampleElem)
  | _ => []

theorem contextPlan_read (maps : x.mapsRead b) (w : Wk) : contextPlan b w x = ⟨b.parts w x, true, []⟩ := by
  have known : ((b.cop == 5 || b.cop == 9) && (b.t0.getD .zero).tileMap != 0 && !(x.at 0).ran.contains 0) = false := by
    by_contra none
    simp only [Bool.not_eq_false, Bool.and_eq_true, Bool.or_eq_true, beq_iff_eq, bne_iff_ne, Bool.not_eq_true',
      List.contains_eq_mem, decide_eq_false_iff_not] at none
    exact none.2 (maps none.1.1 none.1.2)
  simp only [contextPlan, known, Bool.false_eq_true, if_false]
  rfl

theorem contextPlan_whole (hw : (contextPlan b w x).whole = true) : x.mapsRead b := by
  intro cop map
  by_contra none
  have first : ((b.cop == 5 || b.cop == 9) && (b.t0.getD .zero).tileMap != 0 && !(x.at 0).ran.contains 0) = true := by
    simpa using ⟨⟨cop, map⟩, none⟩
  simp only [contextPlan, first, if_true] at hw
  exact absurd hw Bool.false_ne_true

theorem Heat.after.mapsRead {z : Heat} (hz : x.after z 0) (maps : x.mapsRead b) : z.mapsRead b :=
  fun cop map => hz.ran 0 (maps cop map)

theorem CtxRun.batchParts_nos (c : CtxRun) (w : Wk) :
    (c.batchParts w).map Part.no = 1 :: if c.t.tileMap == 0 then [] else [2] := by
  rw [CtxRun.batchParts, List.map_cons]
  split <;> rfl

/-- The part that reads what a KV_APPEND does not write has its number where something is left. -/
theorem CtxRun.appendParts_nos (c : CtxRun) (m : Mem) : (c.appendParts m).map Part.no =
    c.acting.map (fun z => z.1 + 1) ++ if (c.unread m).isEmpty then [] else [c.cs.length + 1] := by
  rw [CtxRun.appendParts, List.map_append, List.map_map]
  split <;> rfl

theorem CtxRun.readParts_nos (c : CtxRun) (w : Wk) : (c.readParts w).map Part.no =
    if c.t.tileMap != 0 then [1, 2]
    else if c.t.wmode == 2 || (c.t.fmt.isMx && c.t.blockDim == 2) then [1]
    else (List.range c.cs.length).map (· + 1) := by
  unfold CtxRun.readParts
  dsimp only
  split
  · rfl
  · split
    · rfl
    · exact List.map_map ..

theorem slotParts_nos (x : Heat) (st : Nat) (out : Desc) (reads : Nat → List (List Nat) → List Rd)
    (f : View → Except Unit (List Nat → Datum × Bool)) (l : List (Nat × List (List Nat))) :
    (l.mapIdx (slotPart x st out reads f)).map Part.no = List.range l.length := by
  refine List.ext_getElem (by simp) fun i _ _ => ?_
  simp [slotPart]

theorem CtxRun.acting_congr {c e : CtxRun} (cs : c.cs = e.cs) : c.acting = e.acting := by
  rw [CtxRun.acting, cs, CtxRun.acting]

theorem CtxRun.unread_congr {c e : CtxRun} (cs : c.cs = e.cs) (t : c.t = e.t) : c.unread = e.unread := by
  funext m
  rw [CtxRun.unread, CtxRun.acting_congr cs, t, CtxRun.unread]

/-- The numbers of the parts of a context command depend on no more than its records and, of a KV_APPEND, on memory. -/
theorem CtxBody.parts_nos {z : Heat} (hz : x.after z 0) {v : Wk} (hm : b.cop = 8 → w.mem = v.mem) :
    (b.parts w z).map Part.no = (b.parts v x).map Part.no := by
  have rows : (b.runOf z).cs = (b.runOf x).cs := hz.rows
  have same : (b.runOf z).t = (b.runOf x).t := rfl
  unfold CtxBody.parts
  split
  case h_3 => rw [CtxRun.batchParts_nos, CtxRun.batchParts_nos, same]
  case h_5 cop =>
    rw [CtxRun.appendParts_nos, CtxRun.appendParts_nos, hm cop, CtxRun.acting_congr rows, CtxRun.unread_congr rows same, rows]
  case h_6 => rw [CtxRun.readParts_nos, CtxRun.readParts_nos, rows, same]
  case h_7 => rw [slotParts_nos, slotParts_nos, same]
  all_goals rfl

/-- The plan of a context command made anew holds the same, of a KV_APPEND while memory is the same. -/
theorem contextPlan_steady (maps : x.mapsRead b) (v : Wk) :
    SteadyWith (contextPlan b) 0 v x fun m => b.cop = 8 → m = v.mem where
  whole w z _ hz := by rw [contextPlan_read (hz.mapsRead maps)]
  temps w z _ _ := by rw [contextPlan_temps, contextPlan_temps]
  nos w z hm hz := by
    rw [contextPlan_read (hz.mapsRead maps), contextPlan_read maps]
    exact CtxBody.parts_nos hz hm

/-! ### Last parts of context commands -/

section

variable {c : Instr}

/-- The part that is left has done `q` and has changed its heat in nothing but its saturation: the command completes. -/
theorem SolePart.context_completes (hs : SolePart s h x y w 0 (contextPlan b s.work x) p) (hb : x.body = .context b)
    (row : rowOf h x.body = some c) (begun : (x.at 0).begun = true) (maps : x.mapsRead b)
    (run : p.run (w.view h 0) (w.begins h 0 p) = (q, true)) (hP : b.cop = 8 → q.mem = s.mem) {cl : List Nat} {f : Bool}
    (hq : q.dev.heat h = some { y with claims := cl, sat := f }) : completes s h 0 [] p q (exec c s) := by
  rw [← contextPlan_temps b s.work x]
  exact hs.completes_with (contextPlan_steady maps s.work) (lt_max_of_lt_left Nat.one_pos)
    (exec_context_begun hs.goes hb row begun) run hP hq

/-- A last part that stores its results completes its command, or poison ends it. -/
theorem SolePart.context_settles (hs : SolePart s h x y w 0 (contextPlan b s.work x) p) (hb : x.body = .context b)
    (row : rowOf h x.body = some c) (begun : (x.at 0).begun = true) (maps : x.mapsRead b) {ps : List Piece}
    {atoms : List AtomOp} {bad : Bool} (ha : ∀ a ∈ atoms, a.plain = true)
    (run : p.run (w.view h 0) (w.begins h 0 p) = (w.begins h 0 p).store h p.who 0 p.no ps atoms bad)
    (hP : b.cop = 8 → ((w.begins h 0 p).store h p.who 0 p.no ps atoms bad).1.mem = s.mem) :
    settles s h w 0 [] p ps atoms bad (exec c s) := by
  rw [← contextPlan_temps b s.work x]
  exact hs.settles_with (contextPlan_steady maps s.work) (lt_max_of_lt_left Nat.one_pos)
    (exec_context_begun hs.goes hb row begun) ha run hP

/-- A last part that stores the entries of tiles completes its command, or poison ends it. -/
theorem SolePart.context_entries {who : Requester} {acc : Nat} {o : Desc} {ws : List (Nat × Bool)} {no first prev : Nat}
    {tiles : List Nat}
    (hs : SolePart s h x y w 0 (contextPlan b s.work x) (tileEntries s.work x who 0 acc o ws no first tiles prev))
    (hb : x.body = .context b) (row : rowOf h x.body = some c) (begun : (x.at 0).begun = true) (maps : x.mapsRead b)
    (other : b.cop ≠ 8) : settles s h w 0 [] (tileEntries s.work x who 0 acc o ws no first tiles prev)
      (entryPieces o ws first tiles) [] false (exec c s) := by
  obtain rfl : x.id = h := Dev.heat_id hs.goes.1
  exact hs.context_settles hb row begun maps (fun _ => nofun) rfl fun cop => absurd cop other

end

end Sys2Proof.Machine
end

section
/-! CONTEXT COMMANDS: batches, and the operations that act row by row (R288 to R290). -/

namespace Sys2Proof.Machine
open Sys2Proof.Config

variable {s : State} {h : HeatId} {x y : Heat} {w q : Wk} {p : Part} {b : CtxBody} {c : CtxRun}

/-! ### BATCH and KV_READ store their rows (R288, R289) -/

/-- The elements of a tensor that is stored one by one follow what is stored before them. -/
theorem CtxRun.put_write (plain : c.t.tileMap = 0) (writes : c.t.wmode ≠ 2) (no : Nat) (es : List (List Nat)) (v : View)
    (ws : List (Nat × Bool)) (before : List Piece) (folds : List AtomOp) (f : List Nat → Datum × Bool) (w : Wk) :
    c.put no es v ws before folds f w = w.store c.h.id c.gather 0 no (before ++ c.t.piecesOn v c.h.ovf es c.t.stands f)
      (folds ++ c.t.foldOf (es.map f)) false := by
  have adds : (c.t.wmode == 2) = false := beq_false_of_ne writes
  simp only [CtxRun.put, plain, adds, bne_self_eq_false, Bool.false_eq_true, if_false]

/-- Under WMODE 0x2 they are added. -/
theorem CtxRun.put_add (plain : c.t.tileMap = 0) (adds : c.t.wmode = 2) (no : Nat) (es : List (List Nat)) (v : View)
    (ws : List (Nat × Bool)) (before : List Piece) (folds : List AtomOp) (f : List Nat → Datum × Bool) (w : Wk) :
    c.put no es v ws before folds f w = w.store c.h.id c.gather 0 no before
      (c.t.accAtoms (es.map fun i => (i, f i)) ++ (folds ++ c.t.foldOf (es.map f)))
      ((es.map fun i => (i, f i)).any fun z => z.2.2) := by
  simp only [CtxRun.put, plain, adds, bne_self_eq_false, Bool.false_eq_true, if_false, beq_self_eq_true, if_true]

/-- The ids that a batch writes to its list. -/
def CtxRun.batchIds (c : CtxRun) (v : View) : List Piece :=
  let l := c.x.list.getD .zero
  l.piecesOn v c.h.ovf l.elems l.stands c.batchId

/-- The part of a batch that stores its list and its rows. -/
def CtxRun.batchPart (c : CtxRun) : Part :=
  let l := c.x.list.getD .zero
  let pl := (l.elems.map l.writePlaces).flatten ++ c.t.ownPlaces c.t.elems
  { no := 1, who := c.gather, lane := 0, engines := [], full := [], reads := c.xrows ++ c.t.storeScale 0 accGather
    writes := pl, slots := pondSlots pl, wacc := accGather, ready := true
    run := fun v w => c.put 1 c.t.elems (v 0) (c.h.at 0).words (c.batchIds (v 0)) [] (c.batchElem v) w }

theorem CtxRun.batchParts_eq (c : CtxRun) (w : Wk) : c.batchParts w = c.batchPart ::
    if c.t.tileMap == 0 then []
    else [tileEntries w c.h c.gather 0 accGather c.t (c.h.at 0).words 2 c.t.tiles (List.range c.t.tiles) 1] := rfl

theorem CtxRun.batchPart_run (c : CtxRun) (v : Nat → View) (w : Wk) : c.batchPart.run v w =
    c.put 1 c.t.elems (v 0) (c.h.at 0).words (c.batchIds (v 0)) [] (c.batchElem v) w := rfl

/-- Settles O32: the first part of a batch is one store of its list and rows, and the other the store of the entries of its
tiles. -/
theorem batchStores : Obligations.BatchStores := by
  intro s h x y w b hb cop begun c l t pl v ids es whole p tail parts
  have row : rowOf h x.body = some (.ctxBatch h) := by simp only [hb, rowOf, cop]
  have maps : x.mapsRead b := contextPlan_whole whole
  have other : b.cop ≠ 8 := by omega
  have rows : es.map Prod.snd = t.elems.map (c.batchElem v) := List.map_map
  rw [rows]
  obtain ⟨hp, ht⟩ := List.cons.inj ((c.batchParts_eq s.work).symm.trans parts)
  refine ⟨fun hs plain => ?_, fun e he hs => ?_⟩
  · subst hp
    obtain rfl : x.id = h := Dev.heat_id hs.goes.1
    refine ⟨fun writes => ?_, fun adds => ?_⟩
    · have run := (c.batchPart_run v (w.begins x.id 0 c.batchPart)).trans
        (c.put_write plain writes 1 _ _ _ _ [] _ _)
      exact hs.context_settles hb row begun maps (Desc.foldOf_plain _ _) run fun cop => absurd cop other
    · have run := (c.batchPart_run v (w.begins x.id 0 c.batchPart)).trans
        (c.put_add plain adds 1 _ _ _ _ [] _ _)
      exact hs.context_settles hb row begun maps (AtomOp.plain_append (Desc.accAtoms_plain _ _) (Desc.foldOf_plain _ _))
        run fun cop => absurd cop other
  · rw [← ht] at he
    split at he
    · exact absurd he List.not_mem_nil
    · obtain rfl := List.mem_singleton.mp he
      exact hs.context_entries hb row begun maps other

end Sys2Proof.Machine
end

section
/-! CONTEXT COMMANDS: RELEASE, ADVANCE, KV_APPEND, KV_READ and SAMPLE (R289, R290). -/

namespace Sys2Proof.Machine
open Sys2Proof.Config

variable {s : State} {h : HeatId} {x y : Heat} {d : Dev} {w q : Wk} {p : Part} {b : CtxBody} {c : CtxRun}

/-! ### Records with their check words (R284) -/

theorem withCheck_length (r : List Byte) : (withCheck r).length = 128 := by
  simp [withCheck, leBytes]

theorem withCheck_take (r : List Byte) : (withCheck r).take 124 = (r ++ List.replicate 124 0).take 124 := by
  rw [withCheck]
  exact List.take_left' (by simp)

/-- The check word is over bytes that it leaves. -/
theorem withCheck_withCheck (r : List Byte) : withCheck (withCheck r) = withCheck r := by
  have same : (withCheck r ++ List.replicate 124 0).take 124 = (r ++ List.replicate 124 0).take 124 := by
    rw [List.take_append_of_le_length (by rw [withCheck_length]; decide), withCheck_take]
  rw [withCheck, same, withCheck]

theorem ctxState_withCheck (r : List Byte) : ctxState (withCheck r) = ctxState r := by
  cases r with
  | nil => rfl
  | cons a r => rfl

theorem ctxState_withState (r : List Byte) {n : Nat} (hn : n < 256) : ctxState (withState r n) = n := by
  simp [ctxState, withState, setField, byteAt, leBytes, Nat.mod_eq_of_lt hn]

/-- A context that is BUSY becomes READY, and stays so where it is named again (R289). -/
theorem withCheck_fromBusy (r : List Byte) :
    withCheck (fromBusy 1 (withCheck (fromBusy 1 r))) = withCheck (fromBusy 1 r) := by
  have rest : ctxState (withCheck (fromBusy 1 r)) ≠ 2 := by
    rw [ctxState_withCheck, fromBusy]
    split
    · rw [ctxState_withState r (by decide)]
      decide
    · rename_i other
      simpa using other
  rw [fromBusy, if_neg (by simpa using rest), withCheck_withCheck]

/-- Each context that is named has its record changed, once where a second change would leave it. -/
theorem Dev.ctxAt_foldl_upCtx {f : List Byte → List Byte} (hf : ∀ r, withCheck (f (withCheck (f r))) = withCheck (f r))
    (l : List Nat) (d : Dev) (i : Nat) : (l.foldl (fun d i => d.upCtx i f) d).ctxAt i =
      if i ∈ l then withCheck (f (d.ctxAt i)) else d.ctxAt i := by
  induction l generalizing d with
  | nil => rfl
  | cons a l ih =>
    rw [List.foldl_cons, ih, Dev.upCtx, Dev.putCtx, Dev.ctxAt_setCtx]
    by_cases e : i = a
    · subst e
      simp [hf]
    · simp [e]

/-! ### The records of a list's rows (R286) -/

/-- A record that passes its check stays as a command reads records. -/
theorem Dev.readCtx_stays (d : Dev) (x : Heat) (id cop i : Nat) (hi : checkOk (d.ctxAt i) = true) :
    (d.readCtx x id cop).1.ctxAt i = d.ctxAt i := by
  unfold Dev.readCtx
  dsimp only
  split
  · rfl
  · rename_i fails
    have other : i ≠ id := fun e => fails (e ▸ hi)
    rw [Dev.ctxAt, Dev.raise_ctx]
    exact (Dev.ctxAt_setCtx d id i _).trans (if_neg other)

theorem Dev.readCtx_mar (d : Dev) (x : Heat) (id cop : Nat) : (d.readCtx x id cop).1.mar = d.mar := by
  unfold Dev.readCtx
  dsimp only
  split
  · rfl
  · exact Dev.raise_mar _ _

/-- A record that is found is one that passes its check. -/
theorem Dev.readCtx_some {x : Heat} {id cop : Nat} {r : List Byte} {e : Dev} (hr : d.readCtx x id cop = (e, some r)) :
    e = d ∧ r = d.ctxAt id ∧ checkOk r = true := by
  unfold Dev.readCtx at hr
  dsimp only at hr
  split at hr
  · rename_i ok
    obtain ⟨rfl, r'⟩ := Prod.mk.inj hr
    obtain rfl := Option.some.inj r'
    exact ⟨rfl, rfl, ok⟩
  · exact absurd (congrArg Prod.snd hr) nofun

/-- One row of a list: its record, where it names a BUSY context of the group. -/
def Dev.readRow (d : Dev) (h : Heat) (cop : Nat) (i : Int) : Dev × Option (Nat × List Byte) :=
  if i < 0 || 65535 < i then (d, none)
  else
    match d.readCtx h i.toNat cop with
    | (d, none) => (d, none)
    | (d, some r) =>
      if ctxState r == 2 && ctxGroupOf r == d.groupOf h then (d, some (i.toNat, r))
      else (d.raise (ctxRec 0x0069 h i.toNat cop), none)

theorem Dev.readRows_cons (d : Dev) (h : Heat) (cop : Nat) (i : Int) (l : List Int) : d.readRows h cop (i :: l) =
    (((d.readRow h cop i).1.readRows h cop l).1, (d.readRow h cop i).2 :: ((d.readRow h cop i).1.readRows h cop l).2) := rfl

theorem Dev.readRow_mar (d : Dev) (x : Heat) (cop : Nat) (i : Int) : (d.readRow x cop i).1.mar = d.mar := by
  have read := d.readCtx_mar x i.toNat cop
  unfold Dev.readRow
  split
  · rfl
  · split
    · rename_i e
      rwa [e] at read
    · rename_i e
      rw [e] at read
      split
      · exact read
      · exact (Dev.raise_mar _ _).trans read

theorem Dev.readRow_stays (d : Dev) (x : Heat) (cop : Nat) (i : Int) (j : Nat) (hj : checkOk (d.ctxAt j) = true) :
    (d.readRow x cop i).1.ctxAt j = d.ctxAt j := by
  have read := d.readCtx_stays x i.toNat cop j hj
  unfold Dev.readRow
  split
  · rfl
  · split
    · rename_i e
      rwa [e] at read
    · rename_i e
      rw [e] at read
      split
      · exact read
      · rw [Dev.ctxAt, Dev.raise_ctx]
        exact read

/-- The record of an acting row passes its check and is BUSY. -/
theorem Dev.readRow_some {x : Heat} {cop : Nat} {i : Int} {z : Nat × List Byte} (hz : (d.readRow x cop i).2 = some z) :
    (d.readRow x cop i).1 = d ∧ checkOk (d.ctxAt z.1) = true ∧ ctxState (d.ctxAt z.1) = 2 := by
  unfold Dev.readRow at hz ⊢
  split at hz
  · exact absurd hz nofun
  · rename_i inRange
    rw [if_neg inRange]
    split at hz
    · exact absurd hz nofun
    · rename_i e
      obtain ⟨rfl, rfl, ok⟩ := Dev.readCtx_some e
      split at hz
      · rename_i busy
        obtain rfl := Option.some.inj hz
        exact ⟨by rw [if_pos busy], ok, by simpa using (Bool.and_eq_true_iff.mp busy).1⟩
      · exact absurd hz nofun

theorem Dev.readRows_mar (d : Dev) (x : Heat) (cop : Nat) (l : List Int) : (d.readRows x cop l).1.mar = d.mar := by
  induction l generalizing d with
  | nil => rfl
  | cons i l ih =>
    rw [Dev.readRows_cons]
    exact (ih _).trans (d.readRow_mar x cop i)

theorem Dev.readRows_stays (d : Dev) (x : Heat) (cop : Nat) (l : List Int) (j : Nat) (hj : checkOk (d.ctxAt j) = true) :
    (d.readRows x cop l).1.ctxAt j = d.ctxAt j := by
  induction l generalizing d with
  | nil => rfl
  | cons i l ih =>
    have one := d.readRow_stays x cop i j hj
    rw [Dev.readRows_cons]
    exact (ih _ (one ▸ hj)).trans one

/-- The contexts of the acting rows are BUSY once all rows are read. -/
theorem Dev.readRows_busy (d : Dev) (x : Heat) (cop : Nat) (l : List Int) :
    ∀ z ∈ (d.readRows x cop l).2.filterMap id, ctxState ((d.readRows x cop l).1.ctxAt z.1) = 2 := by
  induction l generalizing d with
  | nil => exact fun _ => nofun
  | cons i l ih =>
    rw [Dev.readRows_cons]
    intro z hz
    rcases List.mem_filterMap.mp hz with ⟨o, ho, e⟩
    rcases List.mem_cons.mp ho with rfl | ho
    · obtain ⟨same, ok, busy⟩ := Dev.readRow_some e
      rw [same]
      exact (congrArg ctxState (Dev.readRows_stays d x cop l z.1 ok)).trans busy
    · exact ih _ z (List.mem_filterMap.mpr ⟨o, ho, e⟩)

end Sys2Proof.Machine
end

section
/-! CONTEXT COMMANDS: operations that are done once their records are read (R286, R287, R289). -/

namespace Sys2Proof.Machine
open Sys2Proof.Config

variable {s : State} {h : HeatId} {x y : Heat} {d e : Dev} {w q : Wk} {p : Part} {b : CtxBody} {c : Instr}

/-! ### A context operation reads its records (R286, R291) -/

/-- What a context operation does as it reads its records. -/
def CtxBody.begins (b : CtxBody) (mem : Mem) (x : Heat) (d : Dev) : Dev :=
  match b.cop with
  | 0 => d.ctxKeep x b [0]
  | 1 => d.ctxTurnTo x b [1] 3
  | 2 => d.ctxTurnTo x b [3] 1
  | 3 => d.ctxTurnTo x b [1, 2, 3] 0
  | 4 => d.ctxKeep x b [1, 3]
  | 5 => d.batchSelect x b
  | _ => d.readList mem x b

/-- It reads them in its turn, where it has not read them yet. -/
theorem Dev.ctxBegin_turn (hx : d.heat h = some x) (hr : x.mayRun = true) (hb : x.body = .context b)
    (unread : (x.at 0).begun = false) (turn : d.ctxFirst x = true) (mem : Mem) : d.ctxBegin mem h = b.begins mem x d := by
  simp only [Dev.ctxBegin, hx, hb, hr, unread, turn, Bool.not_true, Bool.or_self, Bool.false_eq_true, if_false]
  rfl

/-- A heat that has ended with its records gets on no more. -/
theorem Wk.contextStep_ended {z : Heat} (hz : (w.dev.ctxBegin w.mem h).heat h = some z) (ended : z.mayRun = false) :
    w.contextStep h b = w.up fun d => d.ctxBegin w.mem h := by
  have hz' : (w.up fun d => d.ctxBegin w.mem h).dev.heat h = some z := hz
  simp only [Wk.contextStep, hz', Wk.stage_stopped hz' ended, ite_self]

theorem Dev.ctxEnd_heat (hx : d.heat h = some x) (fault : Bool) :
    ∃ z, (d.ctxEnd h fault).heat h = some z ∧ z.done = true :=
  ⟨_, Dev.heat_setHeat_some hx (by intro; rfl), rfl⟩

theorem Dev.ctxEnd_ctxAt (d : Dev) (id : HeatId) (fault : Bool) (i : Nat) : (d.ctxEnd id fault).ctxAt i = d.ctxAt i := rfl

theorem Heat.stopped_of_done {z : Heat} (hz : z.done = true) : z.mayRun = false := by simp [Heat.mayRun, hz]

/-- A context operation that is done as it reads its records: memory stays, and its work is done. -/
theorem exec_context_done (go : s.dev.goes h x) (hb : x.body = .context b) (row : rowOf h x.body = some c)
    (unread : (x.at 0).begun = false) (turn : s.dev.ctxFirst x = true) {fault : Bool}
    (ends : b.begins s.mem x s.dev = e.ctxEnd h fault) (kept : e.mar = s.dev.mar) :
    ∃ t z, exec c s = .next t ∧ (∀ i, t.dev.ctxAt i = e.ctxAt i) ∧ t.mem = s.mem ∧ t.dev.heat h = some z ∧ z.done = true := by
  have there : e.heat h = some x := by rw [Dev.heat, kept]; exact go.1
  obtain ⟨z, hz, done⟩ := Dev.ctxEnd_heat there fault
  have begin_ : s.work.dev.ctxBegin s.work.mem h = e.ctxEnd h fault :=
    (Dev.ctxBegin_turn go.1 go.2 hb unread turn s.mem).trans ends
  have runs := exec_context go hb row
  rw [Wk.contextStep_ended (begin_ ▸ hz) (Heat.stopped_of_done done), State.after_up] at runs
  refine ⟨_, z, runs, fun i => ?_, rfl, ?_, done⟩
  · show (s.work.dev.ctxBegin s.work.mem h).ctxAt i = _
    rw [begin_, Dev.ctxEnd_ctxAt]
  · show (s.work.dev.ctxBegin s.work.mem h).heat h = _
    rw [begin_, hz]

/-! ### RELEASE (R289) -/

/-- The block once a RELEASE has read its list: every acting context is READY. -/
def Dev.released (d : Dev) (x : Heat) (l : List Int) : Dev :=
  (((d.readRows x 6 l).2.filterMap id).map Prod.fst).foldl (fun d i => d.upCtx i (fromBusy 1)) (d.readRows x 6 l).1

theorem Dev.readList_release (cop : b.cop = 6) {mem : Mem} (full : ∀ g ∈ (b.list.getD .zero).slots, d.readable g = true)
    (turn : d.turns accOut (b.list.getD .zero).places = true)
    (clean : firstPoison mem.view (b.list.getD .zero).places = none) :
    d.readList mem x b = (d.released x (((b.list.getD .zero).indices mem.view).map Prod.fst)).ctxEnd x.id false := by
  have waits : ((b.list.getD .zero).slots.filter fun g => !d.readable g) = [] :=
    List.filter_eq_nil_iff.mpr fun g hg => by simp [full g hg]
  have acc : b.listAcc = accOut := by simp [CtxBody.listAcc, cop]
  simp only [Dev.readList, waits, acc, turn, clean, cop, Bool.not_true, Bool.false_eq_true, if_false, beq_self_eq_true, if_true]
  rfl

theorem Dev.released_mar (d : Dev) (x : Heat) (l : List Int) : (d.released x l).mar = d.mar :=
  (foldl_keeps Dev.mar (fun d i => d.upCtx i (fromBusy 1)) (fun _ _ => rfl) _ _).trans (d.readRows_mar x 6 l)

theorem Dev.released_ctxAt (d : Dev) (x : Heat) (l : List Int) (i : Nat) :
    (d.released x l).ctxAt i = if i ∈ ((d.readRows x 6 l).2.filterMap id).map Prod.fst then
      withCheck (withState ((d.readRows x 6 l).1.ctxAt i) 1) else (d.readRows x 6 l).1.ctxAt i := by
  rw [Dev.released, Dev.ctxAt_foldl_upCtx withCheck_fromBusy]
  split
  · rename_i named
    obtain ⟨z, hz, rfl⟩ := List.mem_map.mp named
    rw [fromBusy, if_pos (beq_iff_eq.mpr (d.readRows_busy x 6 l z hz))]
  · rfl

/-! ### PARK, RESUME and CANCEL (R287) -/

/-- An operation on a context of its group whose record passes its check, in a state that it accepts. -/
theorem Dev.onContext_accepts {states : List Nat} {f : List Byte → Dev → Dev} (ok : checkOk (d.ctxAt b.ctx) = true)
    (group : ctxGroupOf (d.ctxAt b.ctx) = d.groupOf x) (state : ctxState (d.ctxAt b.ctx) ∈ states) :
    d.onContext x b states f = f (d.ctxAt b.ctx) d := by
  simp only [Dev.onContext, d.readCtx_ok x b.ctx b.cop ok, group, beq_self_eq_true, Bool.or_true, Bool.true_and,
    List.contains_eq_mem, state, decide_true, if_true]

theorem Dev.ctxTurnTo_accepts {states : List Nat} {to_ : Nat} (ok : checkOk (d.ctxAt b.ctx) = true)
    (group : ctxGroupOf (d.ctxAt b.ctx) = d.groupOf x) (state : ctxState (d.ctxAt b.ctx) ∈ states)
    (more : b.cop = 2 → ctxPos (d.ctxAt b.ctx) ≠ ctxMax (d.ctxAt b.ctx)) :
    d.ctxTurnTo x b states to_ = (d.putCtx b.ctx (withState (d.ctxAt b.ctx) to_)).ctxEnd x.id false := by
  have goes : (b.cop == 2 && ctxPos (d.ctxAt b.ctx) == ctxMax (d.ctxAt b.ctx)) = false := by
    by_contra last
    simp only [Bool.not_eq_false, Bool.and_eq_true, beq_iff_eq] at last
    exact more last.1 last.2
  rw [Dev.ctxTurnTo, Dev.onContext_accepts ok group state, if_neg (by simp [goes])]

theorem Dev.ctxAt_putCtx_same (d : Dev) (id : Nat) (r : List Byte) : (d.putCtx id r).ctxAt id = withCheck r :=
  (Dev.ctxAt_setCtx d id id _).trans (if_pos rfl)

/-- A PARK, RESUME or CANCEL in its turn gives the record its new state. -/
theorem exec_ctxTurnTo (go : s.dev.goes h x) (hb : x.body = .context b) (row : rowOf h x.body = some c)
    (unread : (x.at 0).begun = false) (turn : s.dev.ctxFirst x = true) {states : List Nat} {to_ : Nat}
    (begins : b.begins s.mem x s.dev = s.dev.ctxTurnTo x b states to_) (ok : checkOk (s.dev.ctxAt b.ctx) = true)
    (group : ctxGroupOf (s.dev.ctxAt b.ctx) = s.dev.groupOf x) (state : ctxState (s.dev.ctxAt b.ctx) ∈ states)
    (more : b.cop = 2 → ctxPos (s.dev.ctxAt b.ctx) ≠ ctxMax (s.dev.ctxAt b.ctx)) :
    ∃ t z, exec c s = .next t ∧ t.dev.ctxAt b.ctx = withCheck (withState (s.dev.ctxAt b.ctx) to_) ∧ t.mem = s.mem ∧
      t.dev.heat h = some z ∧ z.done = true := by
  obtain rfl : x.id = h := Dev.heat_id go.1
  obtain ⟨t, z, next, ctx, rest⟩ := exec_context_done go hb row unread turn
    (begins.trans (Dev.ctxTurnTo_accepts ok group state more)) rfl
  exact ⟨t, z, next, (ctx _).trans (Dev.ctxAt_putCtx_same _ _ _), rest⟩

end Sys2Proof.Machine
end

section
/-! CONTEXT COMMANDS: what RELEASE, ADVANCE, KV_APPEND, KV_READ and SAMPLE store (R289, R290). -/

namespace Sys2Proof.Machine
open Sys2Proof.Config

variable {s : State} {h : HeatId} {x y : Heat} {d : Desc} {w q : Wk} {p : Part} {b : CtxBody} {c : CtxRun}

/-! ### Rows in HBM (R283) -/

theorem rowDesc_place (r : List Byte) (a n j : Nat) (hm : (ctxFmt r).isMx = false) (hj : j < n) :
    ((rowDesc r a n).place ((rowDesc r a n).offset (unravel [n] j))).1 = a + j * ((ctxFmt r).bits / 8) := by
  have at_ : (rowDesc r a n).offset (unravel [n] j) = (j : Int) := by
    simp [Desc.offset, rowDesc, unravel, dot, Nat.mod_eq_of_lt hj]
  have whole : (rowDesc r a n).fmt.subByte = false := by
    revert hm
    show (ctxFmt r).isMx = false → (ctxFmt r).subByte = false
    cases ctxFmt r <;> decide
  rw [at_, Desc.place, if_neg (by simp [whole])]
  show ((a : Int) + (j : Int) * ((ctxFmt r).bits / 8 : Nat)).toNat = _
  rw [← Nat.cast_mul, ← Nat.cast_add, Int.toNat_natCast]

theorem Fmt.bytes_mul {f : Fmt} (hm : f.isMx = false) (n : Nat) : n * f.bits / 8 = n * (f.bits / 8) := by
  have whole : f.bits = 8 * (f.bits / 8) := by
    revert hm
    cases f <;> decide
  rw [whole, ← Nat.mul_assoc, Nat.mul_comm n 8, Nat.mul_assoc, Nat.mul_div_cancel_left _ (by decide),
    Nat.mul_div_cancel_left _ (by decide)]

/-- What is stored in a cache row lies in HBM. -/
theorem rowAt_pieces {r : List Byte} {a n : Nat} (hd : rowAt r a n = some d) (v : View) (ovf : Bool) (win : List Nat → Bool)
    (f : List Nat → Datum × Bool) : ∀ z ∈ d.piecesOn v ovf d.elems win f, z.1 < pondBase := by
  unfold rowAt at hd
  split at hd
  · rename_i inside
    obtain rfl := Option.some.inj hd
    unfold Desc.piecesOn
    split
    · exact fun _ => nofun
    · rename_i plain
      have plain' : (ctxFmt r).isMx = false := Bool.eq_false_iff.mpr plain
      simp only [List.forall_mem_map]
      intro i hi
      obtain ⟨j, hj, rfl⟩ := List.mem_map.mp (List.mem_of_mem_filter hi)
      have small : j < n := by simpa [Desc.size, rowDesc] using hj
      have top : a + n * ((ctxFmt r).bits / 8) ≤ hbmBytes := by
        rw [← Fmt.bytes_mul plain']
        simpa [inHbm] using inside
      have le : j * ((ctxFmt r).bits / 8) ≤ n * ((ctxFmt r).bits / 8) := Nat.mul_le_mul_right _ small.le
      show ((rowDesc r a n).place ((rowDesc r a n).offset (unravel [n] j))).1 < pondBase
      rw [rowDesc_place r a n j plain' small]
      have : hbmBytes < pondBase := by decide
      omega
  · exact absurd hd nofun

theorem Wk.store_base (w : Wk) (id : HeatId) (who : Requester) (st no : Nat) (ps : List Piece) (bad : Bool) :
    (w.store id who st no ps [] bad).1.base = w.base := by
  cases hx : w.dev.heat id with
  | none => rw [w.store_pieces_none hx]
  | some x =>
    by_cases poison : bad = true ∨ ¬ noHbmPoison ps
    · rw [w.store_poisoned id x who st no ps [] bad hx poison, Wk.up_base]
    · obtain ⟨good, clean⟩ := not_or.mp poison
      obtain rfl : bad = false := Bool.eq_false_iff.mpr good
      obtain ⟨-, base, -⟩ := w.store_stays id x who st no ps [] hx (not_not.mp clean) (fun _ => nofun)
      exact base

/-- A store into HBM leaves memory to its requests. -/
theorem Wk.store_mem_of_hbm (w : Wk) (id : HeatId) (who : Requester) (st no : Nat) {ps : List Piece} (bad : Bool)
    (hp : ∀ z ∈ ps, z.1 < pondBase) : (w.store id who st no ps [] bad).1.mem = w.mem := by
  rw [Wk.mem, w.store_base, w.store_ops_of_hbm id who st no bad hp, Wk.mem]

/-! ### Acting rows -/

theorem CtxRun.acting_lt {z : Nat × Nat × List Byte} (hz : z ∈ c.acting) : z.1 < c.cs.length := by
  obtain ⟨o, ho, e⟩ := List.mem_filterMap.mp hz
  obtain ⟨i, hi, rfl⟩ := List.mem_mapIdx.mp ho
  obtain ⟨r, -, rfl⟩ := Option.map_eq_some_iff.mp e
  exact hi

/-! ### KV_APPEND (R289) -/

theorem CtxRun.appendPart_run_row {m : Mem} {z : Nat × Nat × List Byte} (more : ctxPos z.2.2 ≠ ctxMax z.2.2)
    (row : c.cacheRow z.2.2 (ctxPos z.2.2) = some d) (v : Nat → View) (w : Wk) :
    (c.appendPart m z).run v w = w.store c.h.id c.gather 0 (z.1 + 1)
      (d.piecesOn (v (z.1 + 1)) c.h.ovf d.elems d.stands fun idx => c.t.datum d (v (z.1 + 1)) [idx.getD 0 0, z.1]) []
      false := by
  simp only [CtxRun.appendPart, beq_false_of_ne more, row, Bool.false_eq_true, if_false]

/-- At the last position, or where the row does not lie in HBM, nothing is written. -/
theorem CtxRun.appendPart_run_none {m : Mem} {z : Nat × Nat × List Byte}
    (none : ctxPos z.2.2 = ctxMax z.2.2 ∨ c.cacheRow z.2.2 (ctxPos z.2.2) = none) (v : Nat → View) (w : Wk) :
    (c.appendPart m z).run v w = (w, true) := by
  simp only [CtxRun.appendPart]
  rcases none with last | outside
  · rw [if_pos (beq_iff_eq.mpr last)]
  · rw [outside, ite_self]

/-- The part that reads what a KV_APPEND does not write does nothing else. -/
theorem CtxRun.appendParts_run {m : Mem} (hp : p ∈ c.appendParts m) (no : p.no = c.cs.length + 1) (v : Nat → View) (w : Wk) :
    p.run v w = (w, true) := by
  rcases List.mem_append.mp hp with row | rest
  · obtain ⟨z, hz, rfl⟩ := List.mem_map.mp row
    have lt := CtxRun.acting_lt hz
    have eq : z.1 + 1 = c.cs.length + 1 := no
    omega
  · split at rest
    · exact absurd rest List.not_mem_nil
    · rw [List.mem_singleton.mp rest]

/-! ### ADVANCE (R289) -/

/-- The token that an ADVANCE gives a row, and whether it is poisoned. -/
def CtxRun.token (c : CtxRun) (v : Nat → View) (i : Nat) : Nat × Bool := c.t.code (v 1) (unravel c.t.ext i)

/-- The token and position of every acting context taken on. -/
def CtxRun.advanced (c : CtxRun) (v : Nat → View) (d : Dev) : Dev :=
  c.acting.foldl (fun d z => d.upCtx z.2.1 (advance z.2.2 (c.token v z.1).1)) d

theorem CtxRun.advancePart_run {v : Nat → View} (clean : (c.acting.any fun z => (c.token v z.1).2) = false) (w : Wk) :
    c.advancePart.run v w = (w.up (c.advanced v), true) := by
  unfold CtxRun.token at clean
  simp only [CtxRun.advancePart, clean, Bool.false_eq_true, if_false]
  rfl

theorem CtxRun.advanced_heat (c : CtxRun) (v : Nat → View) (d : Dev) (k : HeatId) : (c.advanced v d).heat k = d.heat k :=
  foldl_keeps (fun d => d.heat k) (fun d (z : Nat × Nat × List Byte) => d.upCtx z.2.1 (advance z.2.2 (c.token v z.1).1))
    (fun _ _ => rfl) c.acting d

/-! ### KV_READ (R289) -/

/-- The elements of the bias that some rows of a KV_READ write. -/
def CtxRun.biasElems (c : CtxRun) (rows : List Nat) : List (List Nat) :=
  (c.x.t1.getD .zero).elems.filter fun idx => rows.contains (idx.getD 1 0)

/-- The elements of the tensor that they write. -/
def CtxRun.rowElems (c : CtxRun) (rows : List Nat) : List (List Nat) :=
  c.t.elems.filter fun idx => rows.contains (idx.getD 2 0)

/-- The bias as it is written. -/
def CtxRun.biasPieces (c : CtxRun) (v : View) (rows : List Nat) : List Piece :=
  let o := c.x.t1.getD .zero
  if o.wmode == 2 then [] else o.piecesOn v c.h.ovf (c.biasElems rows) o.stands c.readBias

/-- The bias as it is added, and its amax fold. -/
def CtxRun.biasAtoms (c : CtxRun) (rows : List Nat) : List AtomOp :=
  let o := c.x.t1.getD .zero
  (if o.wmode == 2 then o.accAtoms ((c.biasElems rows).map fun i => (i, c.readBias i)) else [])
    ++ o.foldOf ((c.biasElems rows).map c.readBias)

theorem CtxRun.readPart_run (c : CtxRun) (k : Nat) (rows : List Nat) (v : Nat → View) (w : Wk) :
    (c.readPart k rows).run v w = c.put (k + 1) (c.rowElems rows) (v 0) (c.h.at 0).words (c.biasPieces (v 0) rows)
      (c.biasAtoms rows) (c.readElem v) w := by
  have values : ((c.biasElems rows).map fun i => (i, c.readBias i)).map Prod.snd = (c.biasElems rows).map c.readBias :=
    List.map_map
  rw [CtxRun.biasAtoms, ← values]
  rfl

theorem CtxRun.biasAtoms_plain (c : CtxRun) (rows : List Nat) : ∀ a ∈ c.biasAtoms rows, a.plain = true := by
  refine AtomOp.plain_append ?_ (Desc.foldOf_plain _ _)
  split
  · exact Desc.accAtoms_plain _ _
  · exact fun _ => nofun

/-- The rows that are left of a KV_READ complete it with their store, or poison ends it. -/
theorem kvRead_settles (hb : x.body = .context b) (begun : (x.at 0).begun = true) (cop : b.cop = 9)
    (plain : (b.t0.getD .zero).tileMap = 0) {k : Nat} {rows : List Nat} :
    let c := b.runOf x
    let v := w.view h 0
    let ws := (c.rowElems rows).map fun i => (i, c.readElem v i)
    let fold := c.t.foldOf ((c.rowElems rows).map (c.readElem v))
    SolePart s h x y w 0 (contextPlan b s.work x) (c.readPart k rows) →
    (c.t.wmode ≠ 2 → settles s h w 0 [] (c.readPart k rows)
      (c.biasPieces (v 0) rows ++ c.t.piecesOn (v 0) x.ovf (c.rowElems rows) c.t.stands (c.readElem v))
      (c.biasAtoms rows ++ fold) false (exec (.kvRead h) s)) ∧
    (c.t.wmode = 2 → settles s h w 0 [] (c.readPart k rows) (c.biasPieces (v 0) rows)
      (c.t.accAtoms ws ++ (c.biasAtoms rows ++ fold)) (ws.any fun z => z.2.2) (exec (.kvRead h) s)) := by
  intro c v ws fold hs
  obtain rfl : x.id = h := Dev.heat_id hs.goes.1
  have row : rowOf x.id x.body = some (.kvRead x.id) := by simp only [hb, rowOf, cop]
  have maps : x.mapsRead b := fun _ map => absurd plain map
  have atoms : ∀ a ∈ c.biasAtoms rows ++ fold, a.plain = true :=
    AtomOp.plain_append (c.biasAtoms_plain rows) (Desc.foldOf_plain _ _)
  refine ⟨fun writes => ?_, fun adds => ?_⟩
  · have run := (c.readPart_run k rows v (w.begins x.id 0 (c.readPart k rows))).trans (c.put_write plain writes _ _ _ _ _ _ _ _)
    exact hs.context_settles hb row begun maps atoms run (by omega)
  · have run := (c.readPart_run k rows v (w.begins x.id 0 (c.readPart k rows))).trans (c.put_add plain adds _ _ _ _ _ _ _ _)
    exact hs.context_settles hb row begun maps (AtomOp.plain_append (Desc.accAtoms_plain _ _) atoms) run (by omega)

/-! ### The obligation -/

/-- A RELEASE whose list may be read makes every BUSY context of the group in it READY. -/
theorem ctxRelease_releases (go : s.dev.goes h x) (hb : x.body = .context b) (cop : b.cop = 6)
    (unread : (x.at 0).begun = false) (turn : s.dev.ctxFirst x = true)
    (full : ∀ g ∈ (b.list.getD .zero).slots, s.dev.readable g = true)
    (own : s.dev.turns accOut (b.list.getD .zero).places = true)
    (clean : firstPoison s.mem.view (b.list.getD .zero).places = none) :
    ∃ t z, exec (.ctxRelease h) s = .next t ∧ (∀ i, t.dev.ctxAt i =
      (s.dev.released x (((b.list.getD .zero).indices s.mem.view).map Prod.fst)).ctxAt i) ∧ t.mem = s.mem ∧
      t.dev.heat h = some z ∧ z.done = true := by
  obtain rfl : x.id = h := Dev.heat_id go.1
  have begins : b.begins s.mem x s.dev = s.dev.readList s.mem x b := by simp only [CtxBody.begins, cop]
  exact exec_context_done go hb (by simp only [hb, rowOf, cop]) unread turn
    (begins.trans (Dev.readList_release cop full own clean)) (Dev.released_mar _ _ _)

/-- Settles O33: a RELEASE ends as it reads its list; each part that may be left of the others is a store, a change of
records alone, or nothing. That a KV_APPEND whose row does not lie in HBM writes nothing is the model's choice (log entry
46). -/
theorem listContextOperations : Obligations.ListContextOperations := by
  intro s h x y w b go hb c l t bias pl v
  obtain rfl : x.id = h := Dev.heat_id go.1
  have row {i : Instr} (e : rowOf x.id (.context b) = some i) : rowOf x.id x.body = some i := hb ▸ e
  refine ⟨fun cop unread turn full own clean => ?_, fun begun => ⟨?_, ?_, ?_, ?_, ?_, ?_⟩⟩
  · obtain ⟨r, z, next, ctx, mem, heat, done⟩ := ctxRelease_releases go hb cop unread turn full own clean
    exact ⟨r, z, next, mem, heat, done, fun i => (ctx i).trans (s.dev.released_ctxAt x _ i)⟩
  · intro cop hs tok clean
    obtain ⟨cl, hcl⟩ := hs.begins_heat
    exact hs.context_completes (f := y.sat) hb (row (by simp only [rowOf, cop])) begun (fun e => absurd e (by omega))
      (CtxRun.advancePart_run clean _) (by omega) ((c.advanced_heat v _ _).trans hcl)
  · intro z cop p hs
    obtain ⟨cl, hcl⟩ := hs.begins_heat
    have maps : x.mapsRead b := fun e => absurd e (by omega)
    refine ⟨fun d more at_ => ?_, fun none => ?_⟩
    · refine hs.context_settles hb (row (by simp only [rowOf, cop])) begun maps (fun _ => nofun)
        (CtxRun.appendPart_run_row more at_ v _) fun _ => ?_
      rw [Wk.store_mem_of_hbm _ _ _ _ _ _ (rowAt_pieces at_ _ _ _ _), hs.mem_eq]
    · exact hs.context_completes (f := y.sat) hb (row (by simp only [rowOf, cop])) begun maps
        (CtxRun.appendPart_run_none none v _) (fun _ => hs.mem_eq) hcl
  · intro p hp cop no hs
    obtain ⟨cl, hcl⟩ := hs.begins_heat
    exact hs.context_completes (f := y.sat) hb (row (by simp only [rowOf, cop])) begun (fun e => absurd e (by omega))
      (CtxRun.appendParts_run hp no v _) (fun _ => hs.mem_eq) hcl
  · intro cop whole map p hs
    exact hs.context_entries hb (row (by simp only [rowOf, cop])) begun (contextPlan_whole whole) (by omega)
  · intro k rows cop plain p hs es bs ps add ws
    exact kvRead_settles hb begun cop plain hs
  · intro k g cop p hs
    exact hs.context_settles hb (row (by simp only [rowOf, cop])) begun (fun e => absurd e (by omega))
      (Desc.foldOf_plain _ _) rfl (by omega)

end Sys2Proof.Machine
end

section
/-! CONTEXT COMMANDS: OPEN, and the end of a RETIRE (R287). -/

namespace Sys2Proof.Machine
open Sys2Proof.Config

variable {s : State} {h : HeatId} {x y : Heat} {d : Dev} {w q : Wk} {st : Nat} {p : Part} {b : CtxBody} {c : CtxRun}
  {pl : Plan}

/-! ### What the parts of a command leave of the block -/

/-- The live set and the context table. -/
def Dev.tables (d : Dev) : Conf × AMap (List Byte) := (d.live, d.ctx)

theorem Dev.tables_ask (d : Dev) (x : Heat) (st : Nat) (pl : Plan) : (d.ask x st pl).tables = d.tables := by
  unfold Dev.ask
  split
  · exact foldl_keeps Dev.tables (Dev.askPart x st) (fun d p =>
      foldl_keeps Dev.tables (fun d (z : Nat × Nat) => d.post (Req.forHeat x p.who [z.2] .read st z.1 p.targets))
        (fun _ _ => rfl) p.lines d) _ d
  · rfl

theorem Dev.tables_consume (d : Dev) (id : HeatId) (st : Nat) (slots : List Nat) :
    (d.consume id st slots).tables = d.tables := by
  unfold Dev.consume
  split
  · rfl
  · exact foldl_keeps Dev.tables Dev.emptySlot (fun _ _ => rfl) _ d

theorem Dev.tables_claimFor (d : Dev) (id : HeatId) (slots : List Nat) : (d.claimFor id slots).tables = d.tables := by
  unfold Dev.claimFor
  exact foldl_keeps Dev.tables Dev.claimSlot (fun _ _ => rfl) _ d

theorem Dev.tables_fillSlot (d : Dev) (g : Nat) : (d.fillSlot g).tables = d.tables := by
  unfold Dev.fillSlot
  dsimp only
  split <;> rfl

theorem Dev.tables_fillFor (d : Dev) (id : HeatId) (slots : List Nat) : (d.fillFor id slots).tables = d.tables :=
  foldl_keeps Dev.tables Dev.fillSlot Dev.tables_fillSlot slots d

theorem Dev.tables_unclaimSlot (d : Dev) (g : Nat) : (d.unclaimSlot g).tables = d.tables := by
  unfold Dev.unclaimSlot
  dsimp only
  split <;> rfl

theorem Dev.tables_finish (d : Dev) (id : HeatId) (st : Nat) (temps : List Nat) : (d.finish id st temps).tables = d.tables := by
  unfold Dev.finish
  split
  · rfl
  · exact (foldl_keeps Dev.tables Dev.emptySlot (fun _ _ => rfl) _ _).trans
      (foldl_keeps Dev.tables Dev.unclaimSlot Dev.tables_unclaimSlot _ d)

theorem Wk.tables_begins (w : Wk) (h : HeatId) (st : Nat) (p : Part) : (w.begins h st p).dev.tables = w.dev.tables :=
  (Dev.tables_claimFor _ h p.slots).trans (Dev.tables_consume w.dev h st _)

theorem Wk.tables_ends (q : Wk) (h : HeatId) (st : Nat) (temps : List Nat) (p : Part) :
    (q.ends h st temps p).dev.tables = q.dev.tables :=
  (Dev.tables_finish _ h st temps).trans (Dev.tables_fillFor (q.dev.setHeat h fun x => x.ranPart st p) h _)

theorem Dev.ctxAt_of_tables {e : Dev} (ht : e.tables = d.tables) (i : Nat) : e.ctxAt i = d.ctxAt i := by
  have ctx : e.ctx = d.ctx := congrArg Prod.snd ht
  rw [Dev.ctxAt, ctx, Dev.ctxAt]

theorem Dev.groupOf_of_tables {e : Dev} (ht : e.tables = d.tables) (x : Heat) : e.groupOf x = d.groupOf x := by
  have live : e.live = d.live := congrArg Prod.fst ht
  rw [Dev.groupOf, live, Dev.groupOf]

/-- As its last part begins, a heat finds the tables of the step's start. -/
theorem SolePart.tables_eq (hs : SolePart s h x y w st pl p) : (w.begins h st p).dev.tables = s.dev.tables := by
  rw [Wk.tables_begins, hs.asked]
  exact Dev.tables_ask s.dev x st pl

/-- A last part that changes one record ends its command, whose context then has that record. -/
theorem SolePart.puts_record {r : Instr} (hs : SolePart s h x y w 0 (contextPlan b s.work x) p) (hb : x.body = .context b)
    (row : rowOf h x.body = some r) (begun : (x.at 0).begun = true) (maps : x.mapsRead b) {f : Dev → Dev} {id : Nat}
    {new : List Byte} (run : p.run (w.view h 0) (w.begins h 0 p) = ((w.begins h 0 p).up f, true))
    (puts : (f (w.begins h 0 p).dev).ctxAt id = withCheck new) (kept : ∀ d k, (f d).heat k = d.heat k) :
    ∃ t z, exec r s = .next t ∧ t.dev.ctxAt id = withCheck new ∧ t.mem = s.mem ∧ t.dev.heat h = some z ∧ z.done = true := by
  obtain ⟨cl, hcl⟩ := hs.begins_heat
  obtain ⟨next, ⟨z, hz, done⟩, -⟩ :=
    hs.context_completes (f := y.sat) hb row begun maps run (fun _ => hs.mem_eq) ((kept _ h).trans hcl)
  refine ⟨_, z, next, ?_, ?_, hz, done⟩
  · rw [State.after_dev, Dev.ctxAt_of_tables (Wk.tables_ends _ h 0 [] p)]
    exact puts
  · exact (State.after_mem s (Wk.ends _ h 0 [] p) hs.base_eq).trans hs.mem_eq

/-! ### OPEN -/

/-- The image that an OPEN has read, with its poison. -/
def CtxRun.image (c : CtxRun) (v : Nat → View) : List (Byte × Bool) := (List.range 128).map fun i => v 1 (c.t.span.1 + i)

/-- The record that an image opens for a group. -/
def openedBy (r : List Byte) (group : Nat) : List Byte := setField (withState r 1) 2 1 group

theorem CtxRun.openPart_run_ok {v : Nat → View} (clean : (c.image v).any Prod.snd = false)
    (ok : imageOk ((c.image v).map Prod.fst) = true) (w : Wk) : c.openPart.run v w =
      (w.up fun d => d.putCtx c.x.ctx (openedBy ((c.image v).map Prod.fst) (d.groupOf c.h)), true) := by
  unfold CtxRun.image at clean ok ⊢
  simp only [CtxRun.openPart, clean, ok, Bool.false_eq_true, if_false, if_true]
  rfl

theorem CtxRun.openPart_run_refused {v : Nat → View} (clean : (c.image v).any Prod.snd = false)
    (bad : imageOk ((c.image v).map Prod.fst) = false) (w : Wk) :
    c.openPart.run v w = (w.up fun d => d.ctxRefuse c.h c.x.ctx 0, false) := by
  unfold CtxRun.image at clean bad
  simp only [CtxRun.openPart, clean, bad, Bool.false_eq_true, if_false]

theorem Dev.ctxRefuse_heat (hx : d.heat x.id = some y) (z : Heat) (id cop : Nat) (hz : z.id = x.id) :
    ∃ v, (d.ctxRefuse z id cop).heat x.id = some v ∧ v.done = true := by
  rw [Dev.ctxRefuse, hz]
  refine Dev.ctxEnd_heat (x := y) ?_ true
  rw [← hx]
  simp [Dev.heat]

/-- An OPEN whose image keeps R283 makes its context READY. -/
theorem ctxOpen_opens (hb : x.body = .context b) (begun : (x.at 0).begun = true) (cop : b.cop = 0)
    (hs : SolePart s h x y w 0 (contextPlan b s.work x) (b.runOf x).openPart)
    (clean : ((b.runOf x).image (w.view h 0)).any Prod.snd = false)
    (ok : imageOk (((b.runOf x).image (w.view h 0)).map Prod.fst) = true) :
    ∃ t z, exec (.ctxOpen h) s = .next t ∧
      t.dev.ctxAt b.ctx = withCheck (openedBy (((b.runOf x).image (w.view h 0)).map Prod.fst) (s.dev.groupOf x)) ∧
      t.mem = s.mem ∧ t.dev.heat h = some z ∧ z.done = true := by
  refine hs.puts_record hb (by simp only [hb, rowOf, cop]) begun (fun e => absurd e (by omega))
    (CtxRun.openPart_run_ok clean ok _) ?_ (fun _ _ => rfl)
  exact (Dev.ctxAt_putCtx_same _ _ _).trans (by rw [Dev.groupOf_of_tables hs.tables_eq]; rfl)

/-- An OPEN whose image breaks R283 is refused. -/
theorem ctxOpen_refused (hb : x.body = .context b) (begun : (x.at 0).begun = true) (cop : b.cop = 0)
    (hs : SolePart s h x y w 0 (contextPlan b s.work x) (b.runOf x).openPart)
    (clean : ((b.runOf x).image (w.view h 0)).any Prod.snd = false)
    (bad : imageOk (((b.runOf x).image (w.view h 0)).map Prod.fst) = false) :
    exec (.ctxOpen h) s = .next (s.after ((w.begins h 0 (b.runOf x).openPart).up fun d => d.ctxRefuse x b.ctx 0)) := by
  obtain rfl : x.id = h := Dev.heat_id hs.goes.1
  obtain ⟨cl, hcl⟩ := hs.begins_heat
  obtain ⟨z, hz, done⟩ := Dev.ctxRefuse_heat hcl x b.ctx 0 rfl
  rw [exec_context_begun hs.goes hb (by simp only [hb, rowOf, cop]) begun,
    hs.stage_stops (CtxRun.openPart_run_refused clean bad _) hz (Heat.stopped_of_done done)]
  rfl

/-! ### The end of a RETIRE -/

/-- The part of a RETIRE that writes the record to T0. -/
def CtxRun.recordPart (c : CtxRun) : Part :=
  { no := 1, who := c.dma, lane := 0, engines := [], reads := [], full := [], writes := [], slots := [], wacc := accIn
    ready := true
    run := fun _ w => w.store c.h.id c.dma 0 1 (c.acting.map fun y => (c.t.span.1, withCheck y.2.2, false)) [] false }

/-- The part of a RETIRE that frees the context once the writes are acknowledged. -/
def CtxRun.freePart (c : CtxRun) (w : Wk) : Part :=
  { no := 2, who := c.dma, lane := 0, engines := [], reads := [], full := [], writes := [], slots := [], wacc := accIn
    ready := !w.dev.unacked c.h 0 1
    run := fun _ w => (w.up fun d => d.upCtx c.x.ctx fun r => withState r 0, true) }

theorem CtxRun.retireParts_eq (c : CtxRun) (w : Wk) : c.retireParts w = [c.recordPart, c.freePart w] := rfl

/-- A RETIRE whose writes are acknowledged frees its context. -/
theorem ctxRetire_frees (hb : x.body = .context b) (begun : (x.at 0).begun = true) (cop : b.cop = 4)
    (hs : SolePart s h x y w 0 (contextPlan b s.work x) ((b.runOf x).freePart s.work)) :
    ∃ t z, exec (.ctxRetire h) s = .next t ∧ t.dev.ctxAt b.ctx = withCheck (withState (s.dev.ctxAt b.ctx) 0) ∧
      t.mem = s.mem ∧ t.dev.heat h = some z ∧ z.done = true := by
  refine hs.puts_record hb (by simp only [hb, rowOf, cop]) begun (fun e => absurd e (by omega)) rfl ?_ (fun _ _ => rfl)
  exact (Dev.ctxAt_putCtx_same _ _ _).trans (by rw [Dev.ctxAt_of_tables hs.tables_eq]; rfl)

end Sys2Proof.Machine
end

section
/-! CONTEXT COMMANDS: the write of a RETIRE's record, which the context waits for (R287). -/

namespace Sys2Proof.Machine
open Sys2Proof.Config

variable {s : State} {h : HeatId} {x y z : Heat} {d : Dev} {w q : Wk} {b : CtxBody} {c : CtxRun} {pl : Plan}

/-! ### Writes by requests -/

/-- Writes joined by line begin where the earliest of them begins. -/
theorem joinWrites_cons (a : Nat) (data : List Byte) (l : List (Nat × List Byte)) :
    ∃ more r, joinWrites ((a, data) :: l) = (a, more) :: r := by
  rw [joinWrites]
  split
  · split
    · exact ⟨_, _, rfl⟩
    · exact ⟨_, _, rfl⟩
  · exact ⟨_, _, rfl⟩

/-- A request that is posted stands among the requests. -/
theorem Dev.posted_mem {rs : List Req} {r : Req} (hr : r ∈ rs) (d : Dev) :
    ∃ n, { r with id := n } ∈ (rs.foldl Dev.post d).hbm.reqs := by
  obtain ⟨j, hj⟩ := List.mem_iff_getElem?.mp hr
  rw [Dev.foldl_post_reqs]
  refine ⟨d.hbm.nextId + j, List.mem_append_right _ (List.mem_iff_getElem?.mpr ⟨j, ?_⟩)⟩
  simp [hj]

/-- The requests that write pieces into HBM. -/
def hbmRequests (x : Heat) (who : Requester) (st no : Nat) (ps : List Piece) : List Req :=
  (hbmWrites ps).map fun z => Req.forHeat x who [z.1 / 128] (.write z.1 z.2) st no []

theorem Wk.store_hbm (hx : w.dev.heat h = some x) (who : Requester) (st no : Nat) {ps : List Piece}
    (hp : ∀ z ∈ ps, z.1 < pondBase) (clean : ∀ z ∈ ps, z.2.2 = false) : w.store h who st no ps [] false =
      (w.up fun d => (hbmRequests x who st no ps).foldl Dev.post d, true) := by
  have low : ps.filter (fun z => decide (z.1 < pondBase)) = ps := List.filter_eq_self.mpr fun z m => by simpa using hp z m
  have none : ps.filter (fun z => decide (pondBase ≤ z.1)) = [] :=
    List.filter_eq_nil_iff.mpr fun z m => by simpa using hp z m
  have good : (ps.any fun z => z.2.2) = false := List.any_eq_false.mpr fun z m => by simp [clean z m]
  rw [w.store_pieces hx, low, none, good]
  simp only [hbmRequests, List.foldl_map]
  rfl

/-! ### The write of the record -/

/-- The record at T0, once for each acting row. -/
def CtxRun.recordPieces (c : CtxRun) : List Piece := c.acting.map fun z => (c.t.span.1, withCheck z.2.2, false)

/-- Where a row acts, the record's first write begins where T0 does. -/
theorem CtxRun.recordPieces_writes (some_ : c.acting ≠ []) :
    ∃ data r, hbmWrites c.recordPieces = (c.t.span.1, data) :: r := by
  obtain ⟨z, l, acting⟩ := List.exists_cons_of_ne_nil some_
  have filled : (withCheck z.2.2).isEmpty = false := by
    rw [List.isEmpty_eq_false_iff, ← List.length_pos_iff, withCheck_length]
    decide
  rw [hbmWrites, CtxRun.recordPieces, acting, List.map_cons, List.map_cons, List.flatten_cons, splitLines, filled]
  exact joinWrites_cons _ _ _

/-- The heat of a RETIRE as the step finds it: when it was dispatched, and the parts that have run. -/
def Heat.retires (x : Heat) : Nat × List Nat := (x.order, (x.at 0).ran)

theorem Dev.retires_ask (d : Dev) (x : Heat) (pl : Plan) (k : HeatId) :
    (d.ask x 0 pl).told Heat.retires k = d.told Heat.retires k :=
  Dev.told_ask d x 0 pl (fun x _ => Prod.ext rfl (x.ran_upAt 0 0 (by intro; rfl))) k

/-- Parts that read nothing post nothing as they ask. -/
theorem Dev.ask_quiet (d : Dev) (x : Heat) (st : Nat) (hp : ∀ p ∈ pl.parts, p.reads = []) : (d.ask x st pl).hbm = d.hbm := by
  have quiet : ∀ l : List Part, (∀ p ∈ l, p.reads = []) → ∀ d : Dev, (l.foldl (Dev.askPart x st) d).hbm = d.hbm := by
    intro l
    induction l with
    | nil => exact fun _ _ => rfl
    | cons p l ih =>
      intro hl d
      obtain ⟨none, rest⟩ := List.forall_mem_cons.mp hl
      have lines : p.lines = [] := by rw [Part.lines, none]; rfl
      rw [List.foldl_cons, ih rest, Dev.askPart, lines]
      rfl
  unfold Dev.ask
  split
  · exact quiet _ (fun p m => hp p (List.mem_of_mem_filter m)) d
  · rfl

theorem CtxRun.retireParts_reads (c : CtxRun) (w : Wk) : ∀ p ∈ c.retireParts w, p.reads = [] := by
  rw [CtxRun.retireParts_eq]
  simp [CtxRun.recordPart, CtxRun.freePart]

/-- The plan of a RETIRE. -/
theorem contextPlan_retire (cop : b.cop = 4) (w : Wk) (x : Heat) :
    contextPlan b w x = ⟨[(b.runOf x).recordPart, (b.runOf x).freePart w], true, []⟩ := by
  rw [contextPlan_read (fun e => absurd e (by omega)), CtxBody.parts, cop]
  rfl

/-! ### Steps of a stage -/

section

variable {mk : Wk → Heat → Plan} {st : Nat} {p : Part}

/-- A stage that may go on runs the part that is picked. -/
theorem Wk.go_picks (hx : w.dev.heat h = some x) (hr : x.mayRun = true) (notOver : (x.at st).ended = false)
    (hy : (w.dev.ask x st (mk w x)).heat h = some y) (pick : (w.dev.ask x st (mk w x)).pick y st (mk w x) = some p) (n : Nat) :
    Wk.go mk h st (n + 1) w = Wk.go mk h st n
      ((w.up fun d => d.ask x st (mk w x)).partRun y st (mk w x).temps (others p ((mk w x).undone y st)) p) := by
  have hy' : (w.up fun d => d.ask x st (mk w x)).dev.heat h = some y := hy
  have pick' : (w.up fun d => d.ask x st (mk w x)).dev.pick y st (mk w x) = some p := pick
  simp only [Wk.go, hx, hr, notOver, Bool.not_true, Bool.or_self, Bool.false_eq_true, if_false, hy', pick']

/-- A stage that may go on, and of which no part may run, notes what it waits for, or ends. -/
theorem Wk.go_rests (hx : w.dev.heat h = some x) (hr : x.mayRun = true) (notOver : (x.at st).ended = false)
    (hy : (w.dev.ask x st (mk w x)).heat h = some y) (idle : (w.dev.ask x st (mk w x)).pick y st (mk w x) = none) (n : Nat) :
    Wk.go mk h st (n + 1) w = w.up fun d => (d.ask x st (mk w x)).rest y st (mk w x) := by
  have hy' : (w.up fun d => d.ask x st (mk w x)).dev.heat h = some y := hy
  have idle' : (w.up fun d => d.ask x st (mk w x)).dev.pick y st (mk w x) = none := idle
  simp only [Wk.go, hx, hr, notOver, Bool.not_true, Bool.or_self, Bool.false_eq_true, if_false, hy', idle']
  rfl

end

/-! ### The wait for the acknowledgement -/

/-- The record is written and its writes are not yet acknowledged. -/
structure Wk.retiring (w : Wk) (h : HeatId) (x : Heat) : Prop where
  told : ∃ ran, w.dev.told Heat.retires h = some (x.order, ran) ∧ 1 ∈ ran ∧ 2 ∉ ran
  open_ : w.dev.unacked x 0 1 = true

/-- The block's requests, its context table, and the heat of a RETIRE. -/
def Dev.retireView (d : Dev) (h : HeatId) : Hbm × AMap (List Byte) × Option (Nat × List Nat) :=
  (d.hbm, d.ctx, d.told Heat.retires h)

/-- Memory, and what a RETIRE looks at of the block. -/
def Wk.retireView (w : Wk) (h : HeatId) : (Mem × List MemOp) × Hbm × AMap (List Byte) × Option (Nat × List Nat) :=
  ((w.base, w.ops), w.dev.retireView h)

/-- A stage of which parts are left notes what it waits for, and nothing else. -/
theorem Dev.retireView_rest (d : Dev) {v : Heat} {pl : Plan} (left : (pl.undone v 0).isEmpty = false) (h : HeatId) :
    (d.rest v 0 pl).retireView h = d.retireView h := by
  rw [Dev.rest, left]
  simp only [Bool.and_false, Bool.false_eq_true, if_false, Dev.retireView]
  rw [Dev.told_setHeat d v.id (by intro; rfl) (by intro; rfl)]
  rfl

theorem Wk.retiring_of_view {v : Wk} (hv : v.retireView h = w.retireView h) (hw : w.retiring h x) : v.retiring h x := by
  obtain ⟨⟨ran, told, rest⟩, open_⟩ := hw
  have told' : v.dev.told Heat.retires h = w.dev.told Heat.retires h := congrArg (fun l => l.2.2.2) hv
  have hbm : v.dev.hbm = w.dev.hbm := congrArg (fun l => l.2.1) hv
  refine ⟨⟨ran, told'.trans told, rest⟩, ?_⟩
  rw [Dev.unacked, hbm]
  exact open_

theorem Dev.unacked_congr {z : Heat} (hi : z.id = x.id) (ho : z.order = x.order) (st no : Nat) :
    d.unacked z st no = d.unacked x st no := by
  simp only [Dev.unacked, Req.isOf, hi, ho]

/-- While its writes are not acknowledged, a RETIRE does no more. -/
theorem Wk.go_retiring (cop : b.cop = 4) (hid : x.id = h) (hw : w.retiring h x) (n : Nat) :
    (Wk.go (contextPlan b) h 0 n w).retireView h = w.retireView h := by
  obtain ⟨⟨ran, told, one, two⟩, open_⟩ := hw
  obtain ⟨z, hz, ez⟩ := Option.map_eq_some_iff.mp told
  obtain ⟨order, rans⟩ := Prod.mk.inj ez
  by_cases run : z.mayRun = true
  case neg => rw [Wk.go_stopped hz (Bool.eq_false_iff.mpr run)]
  by_cases ended : (z.at 0).ended = true
  case pos => rw [Wk.go_ended _ h 0 n w z hz ended]
  cases n with
  | zero => rfl
  | succ n =>
    have tables : (w.dev.ask z 0 (contextPlan b w z)).tables = w.dev.tables := Dev.tables_ask _ _ _ _
    have quiet : (w.dev.ask z 0 (contextPlan b w z)).hbm = w.dev.hbm := by
      refine Dev.ask_quiet _ _ _ ?_
      rw [contextPlan_retire cop]
      exact CtxRun.retireParts_reads _ w
    have asked : (w.dev.ask z 0 (contextPlan b w z)).told Heat.retires h = w.dev.told Heat.retires h := Dev.retires_ask _ _ _ _
    obtain ⟨v, hv, ev⟩ := Option.map_eq_some_iff.mp (asked.trans told)
    have left : (contextPlan b w z).undone v 0 = [(b.runOf z).freePart w] := by
      have rans' : (v.at 0).ran = ran := congrArg Prod.snd ev
      rw [contextPlan_retire cop, Plan.undone, rans']
      simp [CtxRun.recordPart, CtxRun.freePart, one, two]
    have waits : ((b.runOf z).freePart w).ready = false := by
      show (!w.dev.unacked z 0 1) = false
      rw [Dev.unacked_congr ((Dev.heat_id hz).trans hid.symm) order, open_]
      rfl
    have idle : (w.dev.ask z 0 (contextPlan b w z)).pick v 0 (contextPlan b w z) = none := by
      simp [Dev.pick, left, laneHeads, Dev.partUp, waits]
    rw [Wk.go_rests hz run (Bool.eq_false_iff.mpr ended) hv idle, Wk.retireView, Wk.dev_up, Dev.retireView_rest _ (by rw [left]; rfl)]
    exact Prod.ext rfl (Prod.ext quiet (Prod.ext (congrArg Prod.snd tables) asked))

end Sys2Proof.Machine
end

section
/-! CONTEXT COMMANDS: OPEN, PARK, RESUME, CANCEL and RETIRE (R284, R286, R287). -/

namespace Sys2Proof.Machine
open Sys2Proof.Config

variable {s : State} {h : HeatId} {x y v : Heat} {w q : Wk} {b : CtxBody} {c : CtxRun}

/-! ### The part that writes the record -/

/-- A part that claims and consumes no slot begins. -/
def Wk.beginsBare (w : Wk) (h : HeatId) : Wk := w.up fun d => (d.consume h 0 []).claimFor h []

/-- The record's requests are posted, and its part is marked. -/
def CtxRun.recorded (c : CtxRun) (v : Heat) (w : Wk) : Wk :=
  ((w.up fun d => (hbmRequests v c.dma 0 1 c.recordPieces).foldl Dev.post d).upHeat v.id fun x =>
    x.ranPart 0 c.recordPart).up fun d => d.fillFor v.id []

theorem Wk.told_beginsBare (w : Wk) (h k : HeatId) :
    (w.beginsBare h).dev.told Heat.retires k = w.dev.told Heat.retires k :=
  (Dev.told_claimFor _ h [] (by intros; rfl) k).trans (Dev.told_consume w.dev h 0 [] (by intros; rfl) k)

theorem Wk.tables_beginsBare (w : Wk) (h : HeatId) : (w.beginsBare h).dev.tables = w.dev.tables :=
  (Dev.tables_claimFor _ h []).trans (Dev.tables_consume w.dev h 0 [])

theorem Wk.beginsBare_heat (hy : w.dev.heat h = some y) :
    ∃ v, (w.beginsBare h).dev.heat h = some v ∧ v.order = y.order ∧ (v.at 0).ran = (y.at 0).ran := by
  have told := w.told_beginsBare h h
  rw [Dev.told_of_heat hy] at told
  obtain ⟨v, hv, e⟩ := Option.map_eq_some_iff.mp told
  exact ⟨v, hv, congrArg Prod.fst e, congrArg Prod.snd e⟩

theorem CtxRun.recordPart_partRun (hy : w.dev.heat h = some y) (hv : (w.beginsBare h).dev.heat h = some v)
    (hid : c.h.id = h) (low : c.t.span.1 < pondBase) (rest : List Part) :
    w.partRun y 0 [] rest c.recordPart = c.recorded v (w.beginsBare h) := by
  obtain rfl : y.id = h := Dev.heat_id hy
  have vid : v.id = y.id := Dev.heat_id hv
  have stores := Wk.store_hbm hv c.dma 0 1 (ps := c.recordPieces) (List.forall_mem_map.mpr fun _ _ => low)
    (List.forall_mem_map.mpr fun _ _ => rfl)
  have runs : c.recordPart.run (w.view y.id 0) (w.up fun d => (d.consume y.id 0 (c.recordPart.frees rest)).claimFor y.id
      c.recordPart.slots) = ((w.beginsBare y.id).up fun d => (hbmRequests v c.dma 0 1 c.recordPieces).foldl Dev.post d, true) := by
    rw [← stores, ← hid]
    rfl
  have quiet : firstPoison (w.view y.id 0 0) (pondPlaces (c.recordPart.reads.map Rd.pl).flatten) = none := rfl
  simp only [Wk.partRun, quiet, runs]
  rw [CtxRun.recorded, vid]
  rfl

/-- What the record's part leaves: the heat marked, and nothing else but the requests. -/
theorem CtxRun.recorded_told (hv : w.dev.heat h = some v) (c : CtxRun) :
    (c.recorded v w).dev.told Heat.retires h = some (v.order, (v.at 0).ran ++ [1]) := by
  obtain rfl : v.id = h := Dev.heat_id hv
  have posted : (w.up fun d => (hbmRequests v c.dma 0 1 c.recordPieces).foldl Dev.post d).dev.heat v.id = some v :=
    (foldl_keeps (fun d => d.heat v.id) Dev.post (fun _ _ => rfl) _ w.dev).trans hv
  have marked := Dev.heat_setHeat_some (f := fun x => x.ranPart 0 c.recordPart) posted (by intro; rfl)
  refine (Dev.told_setHeat _ v.id (by intro; rfl) (by intro; rfl) v.id).trans ((Dev.told_of_heat marked).trans ?_)
  have ran : ((v.ranPart 0 c.recordPart).at 0).ran = (v.at 0).ran ++ [1] := by
    show ((v.upAt 0 fun g => { g with ran := g.ran ++ [c.recordPart.no] }).at 0).ran = _
    rw [Heat.at_upAt, if_pos rfl]
    rfl
  rw [Heat.retires, ran]
  rfl

theorem CtxRun.recorded_tables (c : CtxRun) (v : Heat) (w : Wk) : (c.recorded v w).dev.tables = w.dev.tables :=
  foldl_keeps Dev.tables Dev.post (fun _ _ => rfl) _ w.dev

theorem CtxRun.recorded_reqs (c : CtxRun) (v : Heat) (w : Wk) : (c.recorded v w).dev.hbm.reqs =
    ((hbmRequests v c.dma 0 1 c.recordPieces).foldl Dev.post w.dev).hbm.reqs := rfl

/-- A request that writes to a range of `n` bytes from `a` for part `no` of a stage of a heat. -/
def Req.writesFor (r : Req) (x : Heat) (st no a n : Nat) : Prop :=
  r.isOf x = true ∧ r.stage = st ∧ r.grp = no ∧ ∃ e data, r.kind = .write e data ∧ a ≤ e ∧ e < a + n

/-- Where a row acts, its record is on its way to T0. -/
theorem CtxRun.recorded_writes (acts : c.acting ≠ []) (hi : v.id = x.id) (ho : v.order = x.order) (w : Wk) :
    ∃ r ∈ (c.recorded v w).dev.hbm.reqs, r.writesFor x 0 1 c.t.span.1 128 := by
  obtain ⟨data, l, writes⟩ := CtxRun.recordPieces_writes acts
  have posted : Req.forHeat v c.dma [c.t.span.1 / 128] (.write c.t.span.1 data) 0 1 [] ∈ hbmRequests v c.dma 0 1 c.recordPieces := by
    rw [hbmRequests, writes]
    exact List.mem_cons_self ..
  obtain ⟨n, there⟩ := Dev.posted_mem posted w.dev
  rw [CtxRun.recorded_reqs]
  refine ⟨_, there, ?_, rfl, rfl, c.t.span.1, data, rfl, le_rfl, by omega⟩
  simp [Req.isOf, Req.forHeat, hi, ho]

theorem Dev.unacked_of_writes {d : Dev} {st no a n : Nat} (hr : ∃ r ∈ d.hbm.reqs, r.writesFor x st no a n) :
    d.unacked x st no = true := by
  obtain ⟨r, there, own, stage, grp, e, data, kind, -⟩ := hr
  refine List.any_eq_true.mpr ⟨r, there, ?_⟩
  simp [own, stage, grp, kind, ReqKind.isRead]

/-! ### RETIRE -/

/-- The record's part is the one that a RETIRE runs while its heat has both parts before it. -/
theorem CtxRun.pick_record {d : Dev} (left : (contextPlan b w x).undone y 0 = [(b.runOf x).recordPart, (b.runOf x).freePart w])
    (up : d.partUp y 0 (b.runOf x).recordPart = true) : d.pick y 0 (contextPlan b w x) = some (b.runOf x).recordPart := by
  have unblocked : d.blocks y 0 (others (b.runOf x).recordPart [(b.runOf x).recordPart, (b.runOf x).freePart w])
      (b.runOf x).recordPart = [] := by
    simp [Dev.blocks, CtxRun.recordPart]
  rw [Dev.pick, left]
  simp only [laneHeads, List.find?_cons, up, unblocked]
  rfl

/-- Once its record's part has run, a RETIRE waits for the acknowledgement. -/
theorem CtxRun.recorded_retiring (hv : w.dev.heat h = some v) (hid : x.id = h) (order : v.order = x.order)
    (unfreed : 2 ∉ (v.at 0).ran) (acts : c.acting ≠ []) : (c.recorded v w).retiring h x where
  told := by
    refine ⟨_, order ▸ CtxRun.recorded_told hv c, List.mem_append_right _ (List.mem_singleton.mpr rfl), fun freed => ?_⟩
    rcases List.mem_append.mp freed with old | new
    · exact unfreed old
    · exact absurd (List.mem_singleton.mp new) (by decide)
  open_ := Dev.unacked_of_writes (CtxRun.recorded_writes acts ((Dev.heat_id hv).trans hid.symm) order w)

/-- However often its stage goes on, a RETIRE that waits leaves what it looks at. -/
theorem Wk.goes_retiring (cop : b.cop = 4) (hid : x.id = h) (hw : w.retiring h x) (m n : Nat) :
    (Wk.go (contextPlan b) h 0 m (Wk.go (contextPlan b) h 0 n w)).retireView h = w.retireView h := by
  have once := Wk.go_retiring cop hid hw n
  exact (Wk.go_retiring cop hid (Wk.retiring_of_view once hw) m).trans once

theorem Dev.ask_order {d : Dev} {pl : Plan} (hx : d.heat h = some x) (hy : (d.ask x 0 pl).heat h = some y) :
    y.order = x.order := by
  have told := d.retires_ask x pl h
  rw [Dev.told_of_heat hx, Dev.told_of_heat hy] at told
  exact congrArg Prod.fst (Option.some.inj told)

theorem Plan.not_mem_ran_of_undone {pl : Plan} {st : Nat} {p : Part} (hp : p ∈ pl.undone y st) : p.no ∉ (y.at st).ran := by
  simpa using (List.mem_filter.mp hp).2

/-- A RETIRE writes its record to T0, and waits for the acknowledgement. -/
theorem ctxRetire_writes (go : s.dev.goes h x) (hb : x.body = .context b) (begun : (x.at 0).begun = true) (cop : b.cop = 4)
    (low : (b.runOf x).t.span.1 < pondBase) (acts : (b.runOf x).acting ≠ [])
    (hw : w = s.work.up fun d => d.ask x 0 (contextPlan b s.work x)) (hy : w.dev.heat h = some y)
    (notOver : (x.at 0).ended = false)
    (left : (contextPlan b s.work x).undone y 0 = [(b.runOf x).recordPart, (b.runOf x).freePart s.work])
    (up : w.dev.partUp y 0 (b.runOf x).recordPart = true) :
    ∃ t, exec (.ctxRetire h) s = .next t ∧ t.mem = s.mem ∧ t.dev.ctx = s.dev.ctx ∧
      ∃ r ∈ t.dev.hbm.reqs, r.writesFor x 0 1 (b.runOf x).t.span.1 128 := by
  have hid : x.id = h := Dev.heat_id go.1
  have hx : s.work.dev.heat h = some x := go.1
  obtain ⟨v, hv, order, ran⟩ := Wk.beginsBare_heat hy
  have vorder : v.order = x.order := order.trans (Dev.ask_order go.1 (hw ▸ hy))
  have unfreed : 2 ∉ (v.at 0).ran := ran ▸ Plan.not_mem_ran_of_undone (left ▸ List.mem_cons_of_mem _ (List.mem_singleton.mpr rfl))
  have retiring := CtxRun.recorded_retiring (x := x) hv hid vorder unfreed acts
  have steps : s.work.steps (contextPlan b) h = 2 + 1 := by
    simp only [Wk.steps, hx, contextPlan_retire cop]
    rfl
  have runs : Wk.go (contextPlan b) h 0 (2 + 1) s.work =
      Wk.go (contextPlan b) h 0 2 ((b.runOf x).recorded v (w.beginsBare h)) := by
    subst hw
    rw [Wk.go_picks hx go.2 notOver hy (CtxRun.pick_record left up), contextPlan_temps,
      CtxRun.recordPart_partRun hy hv hid low]
  have rests := Wk.goes_retiring cop hid retiring
    ((Wk.go (contextPlan b) h 0 2 ((b.runOf x).recorded v (w.beginsBare h))).steps (contextPlan b) h) 2
  have next := exec_context_begun (c := .ctxRetire h) go hb (by simp only [hb, rowOf, cop]) begun
  rw [Wk.stage, steps, runs] at next
  generalize Wk.go (contextPlan b) h 0 ((Wk.go (contextPlan b) h 0 2 ((b.runOf x).recorded v (w.beginsBare h))).steps
    (contextPlan b) h) (Wk.go (contextPlan b) h 0 2 ((b.runOf x).recorded v (w.beginsBare h))) = f at next rests
  obtain ⟨mem, view⟩ := Prod.mk.inj rests
  obtain ⟨hbm, rest⟩ := Prod.mk.inj view
  obtain ⟨base, ops⟩ := Prod.mk.inj mem
  refine ⟨s.after f, next, ?_, ?_, ?_⟩
  · rw [State.after_mem s f (base.trans (by rw [hw]; rfl)), Wk.mem, base, ops, hw]
    rfl
  · have tables : ((b.runOf x).recorded v (w.beginsBare h)).dev.tables = s.dev.tables := by
      rw [CtxRun.recorded_tables, Wk.tables_beginsBare, hw, Wk.dev_up]
      exact Dev.tables_ask _ _ _ _
    exact (congrArg Prod.fst rest).trans (congrArg Prod.snd tables)
  · rw [State.after_dev, hbm]
    exact CtxRun.recorded_writes acts ((Dev.heat_id hv).trans hid.symm) vorder _

/-- Settles O31: a PARK, RESUME or CANCEL ends as it reads its record; the one part of an OPEN and the second of a RETIRE
change the record, and the first of a RETIRE posts the write that the second waits for. -/
theorem singleContextOperations : Obligations.SingleContextOperations := by
  intro s h x b go hb r becomes
  have row {i : Instr} (e : rowOf h (.context b) = some i) : rowOf h x.body = some i := hb ▸ e
  refine ⟨fun ok unread turn group => ⟨fun cop state => ?_, fun cop state more => ?_, fun cop state => ?_⟩,
    fun y w begun => ?_⟩
  · exact exec_ctxTurnTo go hb (row (by simp only [rowOf, cop])) unread turn (states := [1]) (by simp only [CtxBody.begins, cop])
      ok group (List.mem_singleton.mpr state) (by omega)
  · exact exec_ctxTurnTo go hb (row (by simp only [rowOf, cop])) unread turn (states := [3]) (by simp only [CtxBody.begins, cop])
      ok group (List.mem_singleton.mpr state) fun _ => more
  · exact exec_ctxTurnTo go hb (row (by simp only [rowOf, cop])) unread turn (states := [1, 2, 3])
      (by simp only [CtxBody.begins, cop]) ok group (by simpa using state) (by omega)
  intro c pl img
  refine ⟨fun cop hs clean => ⟨fun image => ?_, fun image => ?_⟩, fun p1 p2 cop parts => ?_⟩
  · exact ctxOpen_opens hb begun cop hs clean image
  · exact ctxOpen_refused hb begun cop hs clean image
  obtain ⟨rfl, rest⟩ := List.cons.inj ((b.runOf x).retireParts_eq s.work ▸ parts)
  obtain ⟨rfl, -⟩ := List.cons.inj rest
  refine ⟨fun low acts asked heat notOver left up => ?_, fun hs => ctxRetire_frees hb begun cop hs⟩
  obtain ⟨t, next, mem, ctx, r, there, writes⟩ := ctxRetire_writes go hb begun cop low acts asked heat notOver left up
  exact ⟨t, next, mem, ctx, fun _ _ => ⟨r, there, writes⟩⟩

end Sys2Proof.Machine
end
